-- ==== Sys2Proof/Word.lean ====
section
/-! DEFINITION. The word types of the engine and the sparse maps in which State holds its tables.
A line is 32 bytes (R8); engine addresses have 48 bits (R25); registers have 32 bits (R35). -/
namespace Sys2Proof

/-- A register of a page (R35). -/
abbrev Word := BitVec 32
abbrev Byte := BitVec 8
/-- An engine address (R25). -/
abbrev EA := BitVec 48
/-- A spindle ID: logical x in bits [10:0], logical y in bits [20:11] (R17). -/
abbrev SID := BitVec 21

/-- What a line's check code says when the line is read (R61, R277, R456). `wrong` is an error pattern beyond what the code guarantees, which
the decoder corrects to the wrong data: the reader takes it for a corrected line (R454). -/
inductive Cond where
  | clean
  | corr
  | bad
  | wrong
  deriving DecidableEq, Repr

/-- One line: its data, and whether it is marked uncorrectable (R457). -/
structure Line where
  data : BitVec 256 := 0#256
  bad  : Bool := false
  deriving DecidableEq, Repr

/-- A BAR2 request (R386): a read of `len` bytes, or a write of bytes by their byte enables, poisoned or not. -/
inductive Bar2 where
  | read (len : Nat)
  | write (bytes : List (Option Byte)) (poisoned : Bool)
  deriving DecidableEq, Repr

/-- The words of a chime under SEC-DED (R458): VALUE, its counts NEXT and CUR (R237), and the SAVE copy. -/
inductive ChimePart where
  | value
  | slots
  | save
  deriving DecidableEq, Repr

/-- A word under SEC-DED (R458): a lane of a vector register, a word of a long accumulator's lane, LA_SCALE of a spindle, or a word of a
chime. -/
inductive SecWord where
  | vreg (sid reg lane : Nat)
  | lacc (sid index lane word : Nat)
  | scale (sid : Nat)
  | chime (c : Nat) (part : ChimePart)
  deriving DecidableEq, Repr

/-- A clapper mismatch that a check finds: KIND of R465, the shadow lane's result or the residues,
the shadow lane's flags, and for a check other than the shadow lane's the lane checked. -/
structure Mismatch where
  kind : Nat
  check : BitVec 128
  checkFlags : BitVec 5
  lane : Nat := 0
  deriving DecidableEq, Repr

/-- A probe vector that a flawed spindle fails (R471): spindle, set, vector index, and what a clapper check found. -/
structure Flaw where
  sid : Nat
  set : Nat
  vector : Nat
  found : Option Mismatch
  deriving DecidableEq, Repr

/-- One sampling of the sensors (R482): eight temperatures and rail (voltage, current) of each field, power of the two transit rails,
input voltage in mV and current in 0.1 A, coolant inlet and outlet. A missing sample is `none`. -/
structure Samples where
  temps : List (List (Option (BitVec 16))) := []
  rails : List (Option (BitVec 16 × BitVec 16)) := []
  transit : List (Option (BitVec 16)) := []
  input : Option (BitVec 16 × BitVec 16) := none
  coolant : List (Option (BitVec 16)) := []
  deriving DecidableEq, Repr

/-- One read of host memory: the lines that it returns, and, where it ended in an error (R401), whether that was poison. -/
structure HostRead where
  lines : List (BitVec 256)
  failed : Option Bool := none
  deriving DecidableEq, Repr

/-- A sparse table: key and value pairs. A key that is not listed holds the table's default. -/
abbrev SMap (α : Type) := List (Nat × α)

namespace SMap
variable {α : Type}

/-- The value at a key; `d` gives the value of an unlisted key. -/
def get (d : Nat → α) : SMap α → Nat → α
  | [], k => d k
  | (k', v) :: m, k => if k' = k then v else get d m k

/-- Drop a key, which then holds its default again. -/
def erase (m : SMap α) (k : Nat) : SMap α := m.filter (fun e => !(decide (e.1 = k)))

/-- Put a pair in front of the first greater key. -/
def ins (k : Nat) (v : α) : SMap α → SMap α
  | [] => [(k, v)]
  | (k', v') :: m => if k < k' then (k, v) :: (k', v') :: m else (k', v') :: ins k v m

/-- Store a value; storing the default removes the key, so equal tables are equal lists. -/
def set [DecidableEq α] (d : Nat → α) (m : SMap α) (k : Nat) (v : α) : SMap α :=
  if v = d k then erase m k else ins k v (erase m k)

/-- Keys strictly rising. -/
def sorted : SMap α → Bool
  | [] => true
  | [_] => true
  | a :: b :: m => decide (a.1 < b.1) && sorted (b :: m)

/-- The canonical form: keys strictly rising, and no pair equal to the default. -/
def wf [DecidableEq α] (d : Nat → α) (m : SMap α) : Bool :=
  sorted m && m.all (fun e => !(decide (e.2 = d e.1)))

end SMap
end Sys2Proof
end

