-- ==== Sys2Proof/Syntax.lean ====
section
/-! DEFINITION. The commands of the engine: one constructor for every row of spec/opcode_table.json, in its order. The table gives no row a
field; the operands are what the row's rule needs from outside: who asks and what is written, which unit acts, and what the outside
world or the silicon brings (host data, decoder findings `conds`, test results, samples). -/
namespace Sys2Proof

/-- A command. `conds` lists what the check codes of the lines read say, in the order in which the rule reads them (missing ones are clean);
`cycle` is a cycle number of the clock that the rule counts by. -/
inductive Instr where
  /-- BAR0_REGISTER_WRITE (R35); `poisoned` says that the write came poisoned (R382). -/
  | bar0RegisterWrite (port : Fin 4) (fn1 : Bool) (off : Nat) (parts : List (Nat × Word)) (poisoned : Bool)
  /-- BAR0_LO_READ_LATCH (R43). -/
  | bar0LoReadLatch (port : Fin 4) (fn1 : Bool) (off : Nat)
  /-- BAR0_HI_READ_RELEASE (R43). -/
  | bar0HiReadRelease (port : Fin 4) (fn1 : Bool) (off : Nat) (parts : List Nat)
  /-- EVT_STATUS_CLEAR (R40). -/
  | evtStatusClear (port : Fin 4) (fn1 : Bool) (base : Nat) (again : Bool) (d same : Word)
  /-- EVT_FORCE (R41). -/
  | evtForce (port : Fin 4) (fn1 : Bool) (base : Nat) (d : Word)
  /-- COUNT_CLEAR (R37). -/
  | countClear (port : Fin 4) (fn1 : Bool) (base : Nat)
  /-- BAR2_FUNCTION1_REQUEST (R48). -/
  | bar2Function1Request (port : Fin 4) (off cycle : Nat) (a : Bar2) (conds : List Cond)
  /-- BAR2_FUNCTION0_REQUEST (R386). -/
  | bar2Function0Request (port : Fin 4) (off cycle : Nat) (a : Bar2) (conds : List Cond)
  /-- SPINDLE_WINDOW_WRITE (R50). -/
  | spindleWindowWrite (port : Fin 4) (fn1 : Bool) (field : Fin 64) (k : Fin 8) (o : Nat) (d : Word)
  /-- SEQUENCER_CYCLE (R161). -/
  | sequencerCycle (sid : SID) (conds : List Cond)
  /-- PLY_SWITCH (R163). -/
  | plySwitch (sid : SID) (act : BitVec 256)
  /-- LOAD_REQUEST (R173). -/
  | loadRequest (sid : SID) (act : BitVec 256)
  /-- COUNTER_UPDATE (R158). -/
  | counterUpdate (sid : SID) (act : BitVec 256)
  /-- TAP_INCREMENT (R156). -/
  | tapIncrement (sid : SID) (act : BitVec 256)
  /-- MP_STORE_READ (R153). -/
  | mpStoreRead (sid : SID) (act : BitVec 256) (conds : List Cond)
  /-- MP_RQ_READ (R153). -/
  | mpRqRead (sid : SID) (act : BitVec 256) (conds : List Cond)
  /-- MP_CQ_READ (R199). -/
  | mpCqRead (sid : SID) (act : BitVec 256)
  /-- MP_WRITE (R153). -/
  | mpWrite (sid : SID) (act : BitVec 256) (conds : List Cond)
  /-- STORE_CORRECTED_WRITE_BACK (R61). -/
  | storeCorrectedWriteBack (sid : SID)
  /-- SEND (R154). -/
  | send (sid : SID) (act : BitVec 256)
  /-- POP (R155). -/
  | pop (sid : SID) (act : BitVec 256)
  /-- IP_MESSAGE_INJECT (R68). -/
  | ipMessageInject (sid : SID) (c : Cond)
  /-- IP_MESSAGE_LEFT (R73). -/
  | ipMessageLeft (sid : SID)
  /-- VU_NOP (R130). -/
  | vuNop (sid : SID) (vu : BitVec 64)
  /-- MOV (R130). -/
  | mov (sid : SID) (vu : BitVec 64)
  /-- AND (R130). -/
  | and (sid : SID) (vu : BitVec 64)
  /-- OR (R130). -/
  | or (sid : SID) (vu : BitVec 64)
  /-- XOR (R130). -/
  | xor (sid : SID) (vu : BitVec 64)
  /-- SHUF (R130). -/
  | shuf (sid : SID) (vu : BitVec 64)
  /-- SEL (R130). -/
  | sel (sid : SID) (vu : BitVec 64)
  /-- ADD (R131). -/
  | add (sid : SID) (vu : BitVec 64)
  /-- SUB (R131). -/
  | sub (sid : SID) (vu : BitVec 64)
  /-- MAX (R139). -/
  | max (sid : SID) (vu : BitVec 64)
  /-- MIN (R139). -/
  | min (sid : SID) (vu : BitVec 64)
  /-- CMPEQ (R139). -/
  | cmpeq (sid : SID) (vu : BitVec 64)
  /-- CMPLT (R139). -/
  | cmplt (sid : SID) (vu : BitVec 64)
  /-- CMPLE (R139). -/
  | cmple (sid : SID) (vu : BitVec 64)
  /-- CVT (R142). -/
  | cvt (sid : SID) (vu : BitVec 64)
  /-- QSC (R143). -/
  | qsc (sid : SID) (vu : BitVec 64)
  /-- PACK (R144). -/
  | pack (sid : SID) (vu : BitVec 64)
  /-- UNPACK (R144). -/
  | unpack (sid : SID) (vu : BitVec 64)
  /-- LUTB (R141). -/
  | lutb (sid : SID) (vu : BitVec 64)
  /-- LUTW (R141). -/
  | lutw (sid : SID) (vu : BitVec 64)
  /-- EXP2 (R140). -/
  | exp2 (sid : SID) (vu : BitVec 64)
  /-- EXP (R140). -/
  | exp (sid : SID) (vu : BitVec 64)
  /-- LOG2 (R140). -/
  | log2 (sid : SID) (vu : BitVec 64)
  /-- RCP (R140). -/
  | rcp (sid : SID) (vu : BitVec 64)
  /-- SQRT (R140). -/
  | sqrt (sid : SID) (vu : BitVec 64)
  /-- RSQRT (R140). -/
  | rsqrt (sid : SID) (vu : BitVec 64)
  /-- SIGMOID (R140). -/
  | sigmoid (sid : SID) (vu : BitVec 64)
  /-- TANH (R140). -/
  | tanh (sid : SID) (vu : BitVec 64)
  /-- SILU (R140). -/
  | silu (sid : SID) (vu : BitVec 64)
  /-- GELU (R140). -/
  | gelu (sid : SID) (vu : BitVec 64)
  /-- FN_RESERVED (R140). -/
  | fnReserved (sid : SID) (vu : BitVec 64)
  /-- MUL (R131). -/
  | mul (sid : SID) (vu : BitVec 64)
  /-- FMA (R131). -/
  | fma (sid : SID) (vu : BitVec 64)
  /-- DOTF (R137). -/
  | dotf (sid : SID) (vu : BitVec 64)
  /-- DOTL (R137). -/
  | dotl (sid : SID) (vu : BitVec 64)
  /-- DOTX (R137). -/
  | dotx (sid : SID) (vu : BitVec 64)
  /-- LADD (R145). -/
  | ladd (sid : SID) (vu : BitVec 64)
  /-- LCLR (R145). -/
  | lclr (sid : SID) (vu : BitVec 64)
  /-- LSCL (R145). -/
  | lscl (sid : SID) (vu : BitVec 64)
  /-- LRGD (R145). -/
  | lrgd (sid : SID) (vu : BitVec 64)
  /-- LRD (R145). -/
  | lrd (sid : SID) (vu : BitVec 64)
  /-- RSUM (R138). -/
  | rsum (sid : SID) (vu : BitVec 64)
  /-- RMAX (R138). -/
  | rmax (sid : SID) (vu : BitVec 64)
  /-- RMIN (R138). -/
  | rmin (sid : SID) (vu : BitVec 64)
  /-- RARG (R138). -/
  | rarg (sid : SID) (vu : BitVec 64)
  /-- VU_OP_UNASSIGNED (R125). -/
  | vuOpUnassigned (sid : SID) (vu : BitVec 64)
  /-- VU_RESULT_WRITE (R133). -/
  | vuResultWrite (sid : SID) (found : List (Nat × Mismatch))
  /-- PLY_LOAD_START (R174). -/
  | plyLoadStart (sid : SID)
  /-- PLY_LOAD_DONE (R174). -/
  | plyLoadDone (sid : SID)
  /-- RG_GO (R170). -/
  | rgGo (port : Fin 4) (fn1 : Bool) (field : Fin 64)
  /-- WATCH_CALL_ACCEPT (R249). -/
  | watchCallAccept (field : Fin 64)
  /-- WAFER_CALL_DELIVERY (R171). -/
  | waferCallDelivery (field : Fin 64)
  /-- CALL_ISSUE (R170). -/
  | callIssue (field : Fin 64)
  /-- CALL_NOP (R167). -/
  | callNop (field : Fin 64)
  /-- SWITCH (R167). -/
  | switch (field : Fin 64)
  /-- LOAD (R167). -/
  | load (field : Fin 64)
  /-- RESTART (R167). -/
  | restart (field : Fin 64)
  /-- TAP_ADD (R167). -/
  | tapAdd (field : Fin 64)
  /-- HOLD (R167). -/
  | hold (field : Fin 64)
  /-- RELEASE (R167). -/
  | release (field : Fin 64)
  /-- CALL_BAD (R167). -/
  | callBad (field : Fin 64)
  /-- EP_QUEUE_MESSAGE (R189); `conds` are the decoder's findings in the payload lines. -/
  | epQueueMessage (sid : SID) (vc : Fin 4) (src : SID) (conds : List Cond)
  /-- EP_STORE_WRITE (R62). -/
  | epStoreWrite (sid : SID) (vc : Fin 4) (src : SID)
  /-- EP_STORE_READ (R62). -/
  | epStoreRead (sid : SID) (vc : Fin 4) (src : SID) (conds : List Cond)
  /-- COMPUTE_OFF_STORE_ACCESS (R63). -/
  | computeOffStoreAccess (sid : SID) (vc : Fin 4) (src : SID)
  /-- STALL_SKEW (R202). -/
  | stallSkew (sid : SID) (ply : Fin 4) (queue : Fin 8) (cq : Bool)
  /-- SPILL_COPY (R204). -/
  | spillCopy (sid : SID) (ply : Fin 4) (queue : Fin 8) (conds : List Cond)
  /-- DEADLOCK_SUSPECT (R205). -/
  | deadlockSuspect (sid : SID) (ply : Fin 4) (queue : Fin 8) (cq : Bool)
  /-- LINK_CODEWORD_RECEIVE (R226). -/
  | linkCodewordReceive (field : Fin 64) (loc : Fin 32768) (detail : Fin 16) (back : Bool) (c : Cond)
  /-- LINK_REPLAY (R227). -/
  | linkReplay (field : Fin 64) (loc : Fin 32768) (detail : Fin 16) (back : Bool) (c : Cond) (past : List Nat) (partly : Option (Nat × Nat))
  /-- AGEING_GRANT (R214). -/
  | ageingGrant (sid : SID) (port : Fin 8) (ready : List (List (Nat × Bool))) (starved : Bool)
  /-- CAL_WINDOW_EXPIRY (R229). -/
  | calWindowExpiry (field : Fin 64) (loc : Fin 32768) (detail : Fin 16)
  /-- CAL_SLOT_START (R229). -/
  | calSlotStart (field : Fin 64) (cycle : Nat)
  /-- CAL_SLOT_END (R229). -/
  | calSlotEnd (field : Fin 64) (ok : Bool) (past : List Nat) (partly : Option (Nat × Nat))
  /-- CHIME_INCREMENT (R240). -/
  | chimeIncrement (field : Fin 64) (vc : Fin 4) (src : SID)
  /-- BARRIER_ARRIVAL (R241); `more` says that further arrivals at this chime belong to the same cycle. -/
  | barrierArrival (field : Fin 64) (chime : Fin 512) (srcs : List (SID × Fin 4)) (written more : Bool)
  /-- BARRIER_ROUND_COMPLETE (R241). -/
  | barrierRoundComplete (field : Fin 64) (chime : Fin 512)
  /-- CHIME_SPACE_WRITE (R237). -/
  | chimeSpaceWrite (field : Fin 64) (vc : Fin 4) (src : SID) (meets : List (Nat × SID × Fin 4))
  /-- CHIME_SPACE_READ (R237). -/
  | chimeSpaceRead (field : Fin 64) (vc : Fin 4) (src : SID)
  /-- CH_VALUE_WRITE (R245). -/
  | chValueWrite (port : Fin 4) (fn1 : Bool) (chime : Fin 32768) (d : Word)
  /-- CH_CFG_WRITE (R245). -/
  | chCfgWrite (port : Fin 4) (fn1 : Bool) (chime : Fin 32768) (d : Word)
  /-- WATCH_FIRE (R248). -/
  | watchFire (field watch : Fin 64)
  /-- BOBBIN_READ (R268). -/
  | bobbinRead (field : Fin 64) (src : SID) (cycle : Nat) (conds : List Cond) (closing : List Nat)
  /-- BOBBIN_WRITE (R269). -/
  | bobbinWrite (field : Fin 64) (src : SID) (cycle : Nat)
  /-- BOBBIN_WRITE_BACK (R277). -/
  | bobbinWriteBack (field : Fin 64)
  /-- REFRESH (R274). -/
  | refresh (field : Fin 64) (bank : Fin 256)
  /-- SCRUB_ACCESS (R278). -/
  | scrubAccess (field : Fin 64) (cycle : Nat) (conds : List Cond)
  /-- RETRAIN_SLOT (R279). -/
  | retrainSlot (field : Fin 64) (channel : Fin 32)
  /-- CO_REQ (R281). -/
  | coReq (port : Fin 4) (fn1 : Bool) (field : Fin 64) (target : Fin 16)
  /-- CHANGEOVER_START (R282). -/
  | changeoverStart (field : Fin 64)
  /-- CO_DONE (R283). -/
  | coDone (field : Fin 64) (found : List (Nat × Cond))
  /-- SLOT_LOST (R284). -/
  | slotLost (field : Fin 64) (slot : Fin 16)
  /-- CH_START (R306). -/
  | chStart (port : Fin 4) (fn1 : Bool) (reel : Fin 68) (c : Fin 32) (d : Word)
  /-- CH_DISABLE (R310). -/
  | chDisable (port : Fin 4) (fn1 : Bool) (reel : Fin 68) (c : Fin 32) (d : Word)
  /-- CH_DESCRIPTOR_WRITE (R299). -/
  | chDescriptorWrite (port : Fin 4) (fn1 : Bool) (reel : Fin 68) (c : Fin 32) (o : Fin 256) (d : Word)
  /-- TRIGGER_FIRE (R307). -/
  | triggerFire (reel : Fin 68) (channel : Fin 32)
  /-- CHANNEL_ADMIT (R308). -/
  | channelAdmit (reel : Fin 68)
  /-- REEL_READ_REQUEST (R301). -/
  | reelReadRequest (reel : Fin 68) (data : List (BitVec 256))
  /-- REEL_BEAT (R309); `cond` is the decoder's finding. -/
  | reelBeat (reel : Fin 68) (cond : Cond)
  /-- REEL_WRITE_INJECT (R302); `conds` are the decoder's findings in the lines. -/
  | reelWriteInject (reel : Fin 68) (conds : List Cond)
  /-- REEL_ACK_RECEIVE (R304). -/
  | reelAckReceive (reel : Fin 68) (src : SID)
  /-- XFER_DONE (R311). -/
  | xferDone (reel : Fin 68) (channel : Fin 32)
  /-- LOAD_PEAL (R323). -/
  | loadPeal (cycle : Nat) (host : List HostRead) (conds : List Cond)
  /-- LOAD_PEAL_DONE (R324). -/
  | loadPealDone
  /-- UNLOAD_PEAL (R327). -/
  | unloadPeal
  /-- START_RUN (R325). -/
  | startRun
  /-- STOP_RUN (R326). -/
  | stopRun
  /-- DRAIN_DONE (R316). -/
  | drainDone
  /-- ABORT_RUN (R339). -/
  | abortRun
  /-- FAULT_ACK (R338). -/
  | faultAck (cycle : Nat) (conds : List Cond)
  /-- FAULT_ACK_DONE (R338). -/
  | faultAckDone
  /-- ISSUE_STROKE (R520). -/
  | issueStroke
  /-- STROKE_BLOCK_ARRIVAL (R520). -/
  | strokeBlockArrival (id : Word) (cycle : Nat) (host : List HostRead) (conds : List Cond)
  /-- STROKE_COPY_IN (R331). -/
  | strokeCopyIn (cycle : Nat) (host : List HostRead) (conds : List Cond)
  /-- STROKE_ADMIT (R331). -/
  | strokeAdmit
  /-- STROKE_COPY_OUT (R331). -/
  | strokeCopyOut (id : Word) (cycle : Nat) (host : List HostRead) (conds : List Cond)
  /-- STROKE_RECORD (R333). -/
  | strokeRecord (id : Word)
  /-- STROKE_COMPLETION_ENTRY (R333). -/
  | strokeCompletionEntry (id : Word)
  /-- RUN_FAULT (R336). -/
  | runFault (code : Fin 16) (field : Option (Fin 64)) (sid : Option SID)
  /-- FENCE_STROKE_BOUNDARY (R469). -/
  | fenceStrokeBoundary
  /-- DIGEST (R478). -/
  | digest (cycle : Nat) (host : List HostRead) (conds : List Cond)
  /-- PROBE (R472). -/
  | probe (flaws : List Flaw)
  /-- SET_POLICY (R470). -/
  | setPolicy
  /-- QUERY (R393). -/
  | query
  /-- CMD_NOP (R390). -/
  | cmdNop
  /-- DOORBELL (R388). -/
  | doorbell (port : Fin 4) (fn1 : Bool) (ringPort : Fin 4) (ringFn1 : Bool) (tail : Word)
  /-- COMMAND_TAKE (R388). -/
  | commandTake (port : Fin 4) (fn1 : Bool) (entry : Option (BitVec 512)) (poisoned : Bool)
  /-- CPL_HEAD_WRITE (R389). -/
  | cplHeadWrite (port : Fin 4) (fn1 : Bool) (ringPort : Fin 4) (ringFn1 : Bool) (head : Word)
  /-- RING_ENABLE (R389). -/
  | ringEnable (port : Fin 4) (fn1 : Bool) (ringPort : Fin 4) (ringFn1 enable irq : Bool)
  /-- RING_RESET (R387). -/
  | ringReset (port : Fin 4) (fn1 : Bool) (ringPort : Fin 4) (ringFn1 : Bool)
  /-- COMPLETION_ENTRY_WRITE (R395). -/
  | completionEntryWrite (port : Fin 4) (fn1 : Bool)
  /-- MSIX_SEND (R397). -/
  | msixSend (port : Fin 4) (fn1 : Bool) (vector : Fin 128)
  /-- HOST_RD_ERR (R401); `late` says that the read belongs to a start that has stopped. -/
  | hostRdErr (port : Fin 4) (channel : Fin 32) (poisoned late : Bool)
  /-- HOST_FLUSH_DONE (R398). -/
  | hostFlushDone (port : Fin 4) (channel : Fin 64) (ok : Bool)
  /-- HOST_LINK_CHANGE (R402). -/
  | hostLinkChange (port : Fin 4) (up : Bool) (width speed : Nat)
  /-- PORT_RESET (R402). -/
  | portReset (port : Fin 4)
  /-- FUNCTION_LEVEL_RESET (R402). -/
  | functionLevelReset (port : Fin 4) (fn1 : Bool)
  /-- NIRDOR_RETRAIN (R352). -/
  | nirdorRetrain (port : Fin 16)
  /-- TRAINING_DONE (R352). -/
  | trainingDone (port : Fin 16) (rx tx : BitVec 42) (margins : List Nat) (inTime switch : Bool) (partnerPort partnerNumber : Nat)
  /-- PORT_UP (R352). -/
  | portUp (port : Fin 16) (partnerValid : Bool)
  /-- ENGINE_NUMBER_WRITE (R29). -/
  | engineNumberWrite (v : Word)
  /-- PORT_DOWN (R356). -/
  | portDown (port : Fin 16)
  /-- LINK_FAILURE (R355). -/
  | linkFailure (port : Fin 16) (seen : Bool)
  /-- LANE_SPARED (R351); `tx` says that the partner lost a lane that this port transmits on. -/
  | laneSpared (port : Fin 16) (lane : Fin 42) (margin : Byte) (tx : Bool)
  /-- FRAME_RECEIVE (R354). -/
  | frameReceive (port : Fin 16) (rx : Option (Nat × Bool × BitVec 256 × List (BitVec 256))) (ack : Option Nat)
  /-- FRAME_REPLAY (R354). -/
  | frameReplay (port : Fin 16) (nak : Option Nat) (conds : List (List Cond))
  /-- PACKET_BUILD (R360). -/
  | packetBuild (port : Fin 16) (src : SID) (vc : Fin 4) (conds : List Cond)
  /-- PACKET_RECEIVE (R362). -/
  | packetReceive (port : Fin 16)
  /-- PACKET_DELIVER (R363); `sent` are the TAG and EA that the packet's acknowledgement carries, `cond` what the decoder finds in its header line. -/
  | packetDeliver (port : Fin 16) (sent : BitVec 16 × EA) (cond : Cond)
  /-- CREDIT_SEND (R364); `cond` is what the decoder finds in the packet's line. -/
  | creditSend (port : Fin 16) (entry : Fin 4096) (cond : Cond)
  /-- CREDIT_RECEIVE (R364). -/
  | creditReceive (port : Fin 16)
  /-- ACK_PACKET_SEND (R365); `sent` are the TAG and EA that it carries, `cond` what the decoder finds in its line. -/
  | ackPacketSend (port : Fin 16) (src : SID) (sent : BitVec 16 × EA) (cond : Cond)
  /-- ACK_PACKET_RECEIVE (R365). -/
  | ackPacketReceive (port : Fin 16)
  /-- PACKET_RELAY (R368). -/
  | packetRelay (port : Fin 16) (conds : List Cond)
  /-- REMOTE_LOSS (R371). -/
  | remoteLoss (port : Fin 16) (cause : Fin 8) (entry : Fin 4096)
  /-- EXPORT_ENTRY_WRITE (R376). -/
  | exportEntryWrite (port : Fin 16) (imp : Bool) (word : Fin 8) (v : Word)
  /-- REF_LOCK_CHANGE (R374). -/
  | refLockChange (port : Fin 16) (locked : Bool)
  /-- REF_LOST (R408); `old` says that the source which a switch leaves was lost. -/
  | refLost (range old : Bool)
  /-- XO_ARMED (R407). -/
  | xoArmed
  /-- XO_LOST (R407). -/
  | xoLost (range : Bool)
  /-- XO_REQUAL (R407). -/
  | xoRequal
  /-- REF_SELECT_WRITE (R405). -/
  | refSelectWrite (sel : Bool) (port : Fin 16)
  /-- PORT_ELIGIBLE (R411). -/
  | portEligible (port : Fin 16)
  /-- SOURCE_SWITCH (R409). -/
  | sourceSwitch
  /-- FORCED_SWITCH (R409). -/
  | forcedSwitch
  /-- RELOCKED (R410). -/
  | relocked
  /-- DIV_CHANGE (R416). -/
  | divChange (south : Bool)
  /-- THROTTLE_CHANGE (R487). -/
  | throttleChange (south : Bool) (cause : Fin 5)
  /-- TIMEBASE_TICK (R417). -/
  | timebaseTick
  /-- TB_LOAD_GO (R420). -/
  | tbLoadGo
  /-- COLD_RESET (R424). -/
  | coldReset (source : Fin 16)
  /-- ENGINE_RESET (R426). -/
  | engineReset (source : Fin 16)
  /-- FIELD_RESET (R437). -/
  | fieldReset (source : Fin 16) (field : Fin 64)
  /-- RUN_ABORT_RESET (R426). -/
  | runAbortReset (cycle : Nat) (conds : List Cond)
  /-- RESET_DONE (R427). -/
  | resetDone
  /-- POWER_ON (R430). -/
  | powerOn
  /-- BELFRY_BOOT (R500). -/
  | belfryBoot (upA upB : Bool)
  /-- TRANSIT_ON (R430). -/
  | transitOn
  /-- FUSE_SHEET_READ (R439). -/
  | fuseSheetRead (softLost : Bool)
  /-- FIELD_TEST_START (R431). -/
  | fieldTestStart
  /-- FIELD_TEST_DONE (R432). -/
  | fieldTestDone (field : Fin 64) (bad : List Word) (cmax : Nat) (m : List (Nat × List Nat)) (noGates : Bool) (others : List (Nat × List (Nat × List Nat)))
  /-- MAP_DONE (R430). -/
  | mapDone
  /-- SENSOR_SAMPLE (R482). -/
  | sensorSample (x : Samples)
  /-- SENSOR_FAIL (R483). -/
  | sensorFail (sensor : Fin 581)
  /-- HOT_OFF (R486). -/
  | hotOff (field : Fin 64)
  /-- HOT_BACK (R488). -/
  | hotBack (field : Fin 64)
  /-- ENGINE_TRIP (R489). -/
  | engineTrip
  /-- TRIP_RECOVERY (R489). -/
  | tripRecovery
  /-- FUSE_TRIP (R487); the outputs' currents in 0.1 A, and whether an output has stood below half its setpoint (R508). -/
  | fuseTrip (field : Fin 64) (compute memory : Nat) (low : Bool)
  /-- DIE_SUSPECT (R490). -/
  | dieSuspect (field : Fin 64) (slot : Fin 16)
  /-- LOG_POLL (R491). -/
  | logPoll
  /-- HOURLY_SUMMARY (R491). -/
  | hourlySummary
  /-- BF_HEARTBEAT (R494). -/
  | bfHeartbeat
  /-- CAPTURE_READ_BY_BELFRY (R463). -/
  | captureReadByBelfry (field : Fin 64)
  /-- HIT (R467). -/
  | hit
  /-- SUSPECT_PROBE (R467). -/
  | suspectProbe (sid : SID) (flaws : List Flaw)
  /-- HIT_EXPIRY (R467). -/
  | hitExpiry (sid : SID)
  /-- SWEEP (R475). -/
  | sweep (flaws : List Flaw)
  /-- PARITY_FAILURE (R460). -/
  | parityFailure (sid : SID) (cause ply : Fin 4)
  /-- SECDED_ERROR (R459). -/
  | secdedError (word : SecWord) (double : Bool)
  /-- MB_SEND (R495). -/
  | mbSend (port : Fin 4) (fn1 : Bool)
  /-- INFO (R497). -/
  | info
  /-- SENSORS (R497). -/
  | sensors
  /-- LOG_READ (R497). -/
  | logRead
  /-- MAP_READ (R497). -/
  | mapRead
  /-- CAPTURE_READ (R497). -/
  | captureRead
  /-- HITS_READ (R497). -/
  | hitsRead
  /-- FIELD_HOLD (R497). -/
  | fieldHold
  /-- MAILBOX_RESET (R497). -/
  | mailboxReset
  /-- DIE_POLICY (R490). -/
  | diePolicy
  /-- UPDATE_BEGIN (R499). -/
  | updateBegin
  /-- UPDATE_DATA (R499). -/
  | updateData
  /-- UPDATE_END (R499). -/
  | updateEnd
  /-- UPDATE_SESSION_TIMEOUT (R499). -/
  | updateSessionTimeout
  /-- TRIAL_CONFIRM (R500). -/
  | trialConfirm (ok : Bool)
  /-- SMBUS_STATUS_READ (R481, R504); `withPec` says that the reader takes a packet error code. -/
  | smbusStatusRead (addr : BitVec 7) (withPec : Bool)
  /-- SMBUS_COOLANT_READ (R481, R504). -/
  | smbusCoolantRead (addr : BitVec 7) (withPec : Bool) (out : Bool)
  /-- SMBUS_INPUT_READ (R481, R504). -/
  | smbusInputRead (addr : BitVec 7) (withPec : Bool) (power : Bool)
  /-- SMBUS_TMAX_READ (R481, R504). -/
  | smbusTmaxRead (addr : BitVec 7) (withPec : Bool)
  /-- SMBUS_RESET_WRITE (R481, R504); `code` is the packet error code, if one is sent. -/
  | smbusResetWrite (addr : BitVec 7) (v : Byte) (code : Option Byte)
  /-- INPUT_SWITCH_CLOSE (R506); `mv` millivolts at the studs for 100 ms. -/
  | inputSwitchClose (mv : Nat)
  /-- INPUT_SWITCH_OPEN (R507); `mv` millivolts at the studs. -/
  | inputSwitchOpen (mv : Nat)
  /-- TRANSIT_OVERCURRENT (R509). -/
  | transitOvercurrent (south : Bool)
  /-- UNMAPPED_PAGE_READ (R33). -/
  | unmappedPageRead (port : Fin 4) (fn1 : Bool) (off : Nat) (parts : List Nat)
  /-- RETRAIN_SLOT_END (R280). -/
  | retrainSlotEnd (field : Fin 64) (channel : Fin 32) (ok : Bool)
  /-- LANE_SWAP_SLOT_END (R351). -/
  | laneSwapSlotEnd (port : Fin 16)
  /-- MANAGEMENT_NETWORK_MESSAGE (R481). -/
  | managementNetworkMessage (session : Nat) (verified : Bool) (ws : List Word)
  deriving DecidableEq, Repr

end Sys2Proof
end

