-- ==== Sys2Proof/Decode.lean ====
section
/-! DEFINITION. The commands as bits. spec/opcode_table.json gives no row any bits: every row's list of bit fields is empty, for the engine
takes commands from outside and has no instruction encoding. -/
namespace Sys2Proof

/-- The command that `nbits` bits `w` spell by the table: none, since no row has bits. -/
def decodeTableWord (_nbits _w : Nat) : Option Instr := none

end Sys2Proof
end

