-- ==== Sys2Proof/Machine/Bits.lean ====
section
/-! DEFINITION. Bit fields of registers, lines and action words (R7), sign extension, and the
little-endian byte order of R8. -/
namespace Sys2Proof.Machine

/-- Bits [hi:lo] of a number (R7). -/
def fld (w hi lo : Nat) : Nat := (w >>> lo) % 2 ^ (hi + 1 - lo)

/-- Bits [hi:lo] of a register. -/
def getF (w : Word) (hi lo : Nat) : Nat := fld w.toNat hi lo

/-- Bit i of a register. -/
def getB (w : Word) (i : Nat) : Bool := w.toNat.testBit i

/-- The mask of bits [hi:lo]. -/
def maskF (hi lo : Nat) : Nat := (2 ^ (hi + 1 - lo) - 1) <<< lo

/-- A register with bits [hi:lo] replaced by `v`, taken modulo the field's width. -/
def putF (w : Word) (hi lo v : Nat) : Word :=
  (w &&& ~~~(BitVec.ofNat 32 (maskF hi lo))) ||| BitVec.ofNat 32 ((v % 2 ^ (hi + 1 - lo)) <<< lo)

/-- A register with bit i set or cleared. -/
def putB (w : Word) (i : Nat) (b : Bool) : Word := putF w i i b.toNat

/-- A two's complement reading of the low `n` bits. -/
def sext (n v : Nat) : Int :=
  let u := v % 2 ^ n
  if n ≠ 0 ∧ 2 ^ (n - 1) ≤ u then (u : Int) - (2 ^ n : Nat) else u

/-- An integer modulo 2^n, as a natural number. -/
def wrapInt (n : Nat) (i : Int) : Nat := (i % ((2 ^ n : Nat) : Int)).toNat

/-- Byte i of a little-endian number (R8). -/
def byteOf (w i : Nat) : Nat := (w >>> (8 * i)) % 256

/-- The little-endian number of a byte list. -/
def ofBytesLE : List (BitVec 8) → Nat
  | [] => 0
  | b :: bs => b.toNat + 256 * ofBytesLE bs

/-- The `n` low bytes of a number, least significant first. -/
def toBytesLE : Nat → Nat → List (BitVec 8)
  | 0, _ => []
  | n + 1, w => BitVec.ofNat 8 w :: toBytesLE n (w / 256)

/-- Replace the bits of `old` that `mask` names by those of `new`. -/
def blend (old new mask : Nat) : Nat := (old - (old &&& mask)) + (new &&& mask)

/-- `[f 0, …, f (n-1)]`. -/
def tab {α : Type} (n : Nat) (f : Nat → α) : List α := (List.range n).map f

/-- Element i of a list, or a default. -/
def nth {α : Type} (d : α) (l : List α) (i : Nat) : α := l.getD i d

/-- Drop the first element that satisfies `p`. -/
def dropFirst {α : Type} (p : α → Bool) : List α → List α
  | [] => []
  | a :: l => if p a then l else a :: dropFirst p l

/-- Apply `f` to the first element that satisfies `p`. -/
def mapFirst {α : Type} (p : α → Bool) (f : α → α) : List α → List α
  | [] => []
  | a :: l => if p a then f a :: l else a :: mapFirst p f l

/-- `f` applied for i = 0 … n-1, left to right. -/
def iter {σ : Type} (n : Nat) (f : Nat → σ → σ) (s : σ) : σ := (List.range n).foldl (fun t i => f i t) s

/-- Fold a state change over a list. -/
def forEach {σ α : Type} (l : List α) (f : α → σ → σ) (s : σ) : σ := l.foldl (fun t a => f a t) s

end Sys2Proof.Machine
end

