-- ==== Sys2Proof/Machine/RegTable.lean ====
section
/-! DEFINITION. The registers of the engine's pages, row by row from the spec's register tables:
offset within the page, distance and number of the rows of an array, and the fields with their
access codes (R9) and reset values. Bits that no field names are RSV. -/
namespace Sys2Proof.Machine

/-- The access codes of R9; RSV bits are those no field names. -/
inductive Acc where
  | ro | rw | rwp | w1c | ws
  deriving DecidableEq, Repr

/-- One field: bits [hi:lo], access, reset value. -/
structure RField where
  hi : Nat
  lo : Nat
  acc : Acc
  rst : Nat
  deriving DecidableEq, Repr

/-- One register, or an array of `count` registers `stride` bytes apart. -/
structure RRow where
  off : Nat
  stride : Nat
  count : Nat
  fields : List RField
  deriving DecidableEq, Repr

/-- The kinds of page (R32, R33). -/
inductive PKind where
  | global | fuseSheet | run | mbox0 | mboxCh | clock | reset | timebase
  | hpCtrl | hpRing | hpMsix | hpPba | hostReel (first : Bool)
  | nirdor0 | nirdor1 | edgeRing
  | fieldCtrl | ringer | chime0 | chimeK | chimeW | bob0 | bob1 | bob2 | reel (first : Bool)
  | swSel | ply | win5 | win6 | win7 | power
  deriving DecidableEq, Repr

/-- Registers of the common header (R37). -/
def rows_hdr : List RRow := [
  ⟨0x0, 4, 1, [⟨31, 16, .ro, 0x0⟩, ⟨15, 0, .ro, 0x0⟩]⟩,  -- PAGE_ID (R37)
  ⟨0x4, 4, 1, [⟨15, 8, .ro, 0x1⟩, ⟨7, 0, .ro, 0x0⟩]⟩,  -- PAGE_REV (R37)
  ⟨0x8, 4, 1, [⟨31, 16, .ro, 0x0⟩, ⟨2, 2, .ro, 0x0⟩, ⟨1, 1, .ro, 0x0⟩, ⟨0, 0, .ro, 0x0⟩]⟩,  -- PAGE_CAPS (R37)
  ⟨0xC, 4, 1, [⟨11, 8, .ro, 0x0⟩, ⟨1, 0, .ro, 0x0⟩]⟩,  -- PAGE_READY (R37)
  ⟨0x10, 4, 1, [⟨1, 1, .ws, 0x0⟩, ⟨0, 0, .rwp, 0x0⟩]⟩,  -- PAGE_CTRL (R38)
  ⟨0x14, 4, 1, [⟨0, 0, .ro, 0x0⟩]⟩,  -- PAGE_STATUS (R38)
  ⟨0x18, 4, 1, [⟨31, 27, .w1c, 0x0⟩, ⟨23, 0, .w1c, 0x0⟩]⟩,  -- EVT_STATUS (R39)
  ⟨0x1C, 4, 1, [⟨31, 27, .w1c, 0x0⟩, ⟨23, 0, .w1c, 0x0⟩]⟩,  -- EVT_AGAIN (R39)
  ⟨0x20, 4, 1, [⟨31, 27, .rw, 0x0⟩, ⟨23, 0, .rw, 0x0⟩]⟩,  -- EVT_ENABLE (R37)
  ⟨0x24, 4, 1, [⟨31, 27, .ws, 0x0⟩, ⟨23, 0, .ws, 0x0⟩]⟩,  -- EVT_FORCE (R41)
  ⟨0x28, 4, 1, [⟨31, 31, .w1c, 0x0⟩, ⟨30, 0, .ro, 0x0⟩]⟩,  -- ERR_CORR_COUNT (R37)
  ⟨0x2C, 4, 1, [⟨31, 31, .w1c, 0x0⟩, ⟨30, 0, .ro, 0x0⟩]⟩,  -- ERR_UNCORR_COUNT (R37)
  ⟨0x30, 4, 1, [⟨2, 2, .rwp, 0x0⟩, ⟨1, 1, .rwp, 0x0⟩, ⟨0, 0, .rwp, 0x0⟩]⟩   -- VIEW_MASK (R38)
]

/-- Registers of hpCtrl pages. -/
def rows_hpCtrl : List RRow := [
  ⟨0x40, 4, 1, [⟨31, 31, .ro, 0x0⟩, ⟨23, 16, .ro, 0x0⟩, ⟨3, 0, .ro, 0x0⟩]⟩,  -- HP_STATUS (R382)
  ⟨0x44, 4, 1, [⟨0, 0, .rwp, 0x1⟩]⟩,  -- HP_CTRL (R382)
  ⟨0x48, 4, 1, [⟨31, 12, .rwp, 0x0⟩]⟩,  -- HWIN_BASE_LO (R382)
  ⟨0x4C, 4, 1, [⟨31, 0, .rwp, 0x0⟩]⟩,  -- HWIN_BASE_HI (R382)
  ⟨0x50, 4, 1, [⟨25, 0, .rwp, 0x0⟩]⟩,  -- HWIN_SIZE (R382)
  ⟨0x54, 4, 1, [⟨2, 2, .rwp, 0x0⟩, ⟨1, 1, .rwp, 0x0⟩, ⟨0, 0, .rwp, 0x0⟩]⟩,  -- HWIN_CTRL (R382)
  ⟨0x58, 4, 1, [⟨31, 12, .rwp, 0x0⟩]⟩,  -- AP_BASE_LO (R382)
  ⟨0x5C, 4, 1, [⟨15, 0, .rwp, 0x0⟩]⟩,  -- AP_BASE_HI (R382)
  ⟨0x60, 4, 1, [⟨31, 0, .ro, 0x0⟩]⟩,  -- HOST_RD_ERR_LO (R382)
  ⟨0x64, 4, 1, [⟨31, 31, .w1c, 0x0⟩, ⟨15, 0, .ro, 0x0⟩]⟩,  -- HOST_RD_ERR_HI (R382)
  ⟨0x68, 4, 1, [⟨31, 0, .ro, 0x0⟩]⟩,  -- POISON_RX_LO (R382)
  ⟨0x6C, 4, 1, [⟨31, 31, .w1c, 0x0⟩, ⟨15, 0, .ro, 0x0⟩]⟩,  -- POISON_RX_HI (R382)
  ⟨0x100, 16, 4, [⟨31, 12, .rwp, 0x0⟩]⟩,  -- GRANT_n_BASE_LO (R47)
  ⟨0x104, 16, 4, [⟨15, 0, .rwp, 0x0⟩]⟩,  -- GRANT_n_BASE_HI (R47)
  ⟨0x108, 16, 4, [⟨22, 0, .rwp, 0x0⟩]⟩,  -- GRANT_n_SIZE (R47)
  ⟨0x10C, 16, 4, [⟨31, 31, .ro, 0x0⟩, ⟨2, 2, .rwp, 0x0⟩, ⟨1, 1, .rwp, 0x0⟩, ⟨0, 0, .rwp, 0x0⟩]⟩   -- GRANT_n_CTRL (R47)
]

/-- Registers of swSel pages. -/
def rows_swSel : List RRow := [
  ⟨0x40, 4, 1, [⟨20, 0, .rw, 0x0⟩]⟩,  -- SW_SELECT (R49)
  ⟨0x44, 4, 1, [⟨2, 2, .w1c, 0x0⟩, ⟨1, 1, .ro, 0x0⟩, ⟨0, 0, .ro, 0x0⟩]⟩   -- SW_STATUS (R49)
]

/-- Registers of global pages. -/
def rows_global : List RRow := [
  ⟨0x40, 4, 1, [⟨31, 0, .ro, 0x0⟩]⟩,  -- ENGINE_ID_LO (R51)
  ⟨0x44, 4, 1, [⟨31, 0, .ro, 0x0⟩]⟩,  -- ENGINE_ID_HI (R51)
  ⟨0x48, 4, 1, [⟨7, 0, .ro, 0x0⟩]⟩,  -- GRADE (R51)
  ⟨0x4C, 4, 1, [⟨26, 16, .ro, 0x0⟩, ⟨10, 0, .ro, 0x0⟩]⟩,  -- GRADE_SHAPE (R51)
  ⟨0x50, 4, 1, [⟨26, 16, .ro, 0x0⟩, ⟨10, 0, .ro, 0x0⟩]⟩,  -- OFFERED_SHAPE (R51)
  ⟨0x54, 4, 1, [⟨31, 31, .ro, 0x0⟩, ⟨30, 30, .ro, 0x0⟩, ⟨19, 16, .ro, 0x0⟩, ⟨15, 0, .ro, 0x0⟩]⟩,  -- READY (R51)
  ⟨0x58, 4, 1, [⟨31, 0, .ro, 0x0⟩]⟩,  -- FIELD_READY_LO (R51)
  ⟨0x5C, 4, 1, [⟨31, 0, .ro, 0x0⟩]⟩,  -- FIELD_READY_HI (R51)
  ⟨0x60, 4, 1, [⟨31, 0, .ro, 0x0⟩]⟩,  -- BOBBIN_READY_LO (R51)
  ⟨0x64, 4, 1, [⟨31, 0, .ro, 0x0⟩]⟩,  -- BOBBIN_READY_HI (R51)
  ⟨0x68, 4, 1, [⟨31, 31, .ro, 0x0⟩, ⟨15, 0, .rwp, 0x0⟩]⟩,  -- ENGINE_NUMBER (R51)
  ⟨0x6C, 4, 1, [⟨31, 30, .ro, 0x0⟩, ⟨29, 29, .w1c, 0x0⟩, ⟨28, 28, .ro, 0x0⟩, ⟨25, 0, .ro, 0x0⟩]⟩,  -- DENIED_LAST (R51)
  ⟨0x70, 4, 1, [⟨31, 0, .ro, 0x0⟩]⟩,  -- HOST_VIEW_DENIED_LO (R51)
  ⟨0x74, 4, 1, [⟨31, 31, .w1c, 0x0⟩, ⟨15, 0, .ro, 0x0⟩]⟩,  -- HOST_VIEW_DENIED_HI (R51)
  ⟨0x78, 4, 1, [⟨26, 0, .ro, 0x0⟩]⟩,  -- EVT_SUM_TOP (R51)
  ⟨0x80, 4, 1, [⟨31, 0, .ro, 0x0⟩]⟩,  -- EVT_SUM_FIELD_LO (R51)
  ⟨0x84, 4, 1, [⟨31, 0, .ro, 0x0⟩]⟩   -- EVT_SUM_FIELD_HI (R51)
]

/-- Registers of fieldCtrl pages. -/
def rows_fieldCtrl : List RRow := [
  ⟨0x100, 4, 1, [⟨31, 31, .w1c, 0x0⟩, ⟨30, 28, .ro, 0x0⟩, ⟨20, 0, .ro, 0x0⟩]⟩,  -- QEVT_LAST_0 (R208)
  ⟨0x104, 4, 1, [⟨31, 16, .ro, 0x0⟩, ⟨2, 2, .ro, 0x0⟩, ⟨1, 0, .ro, 0x0⟩]⟩,  -- QEVT_LAST_1 (R208)
  ⟨0x108, 4, 1, [⟨20, 0, .ro, 0x0⟩]⟩,  -- QEVT_SRC (R208)
  ⟨0x140, 4, 1, [⟨31, 31, .w1c, 0x0⟩, ⟨22, 21, .ro, 0x0⟩, ⟨20, 0, .ro, 0x0⟩]⟩,  -- EA_LAST_0 (R71)
  ⟨0x144, 4, 1, [⟨31, 0, .ro, 0x0⟩]⟩,  -- EA_LAST_1 (R71)
  ⟨0x148, 4, 1, [⟨15, 0, .ro, 0x0⟩]⟩,  -- EA_LAST_2 (R71)
  ⟨0x180, 4, 1, [⟨16, 16, .rwp, 0x1⟩, ⟨7, 0, .rwp, 0x10⟩]⟩,  -- MESH_CTRL (R232)
  ⟨0x184, 4, 1, [⟨16, 16, .ro, 0x0⟩, ⟨15, 8, .ro, 0x0⟩, ⟨7, 0, .ro, 0x0⟩]⟩,  -- MESH_STATUS (R232)
  ⟨0x188, 4, 1, [⟨31, 31, .w1c, 0x0⟩, ⟨30, 29, .ro, 0x0⟩, ⟨23, 21, .ro, 0x0⟩, ⟨20, 0, .ro, 0x0⟩]⟩,  -- LINK_EVT_LAST (R232)
  ⟨0x190, 4, 1, [⟨31, 0, .ro, 0x0⟩]⟩,  -- LINK_CORR_LO (R232)
  ⟨0x194, 4, 1, [⟨31, 31, .w1c, 0x0⟩, ⟨15, 0, .ro, 0x0⟩]⟩,  -- LINK_CORR_HI (R232)
  ⟨0x198, 4, 1, [⟨31, 0, .ro, 0x0⟩]⟩,  -- LINK_REPLAY_LO (R232)
  ⟨0x19C, 4, 1, [⟨31, 31, .w1c, 0x0⟩, ⟨15, 0, .ro, 0x0⟩]⟩,  -- LINK_REPLAY_HI (R232)
  ⟨0x1A0, 4, 1, [⟨31, 0, .ro, 0x0⟩]⟩,  -- CAL_SLOTS_LO (R232)
  ⟨0x1A4, 4, 1, [⟨31, 31, .w1c, 0x0⟩, ⟨15, 0, .ro, 0x0⟩]⟩,  -- CAL_SLOTS_HI (R232)
  ⟨0x200, 4, 1, [⟨31, 31, .w1c, 0x0⟩, ⟨30, 28, .ro, 0x0⟩, ⟨27, 24, .ro, 0x0⟩, ⟨22, 21, .ro, 0x0⟩, ⟨20, 0, .ro, 0x0⟩]⟩,  -- CLAP_LAST_0 (R465)
  ⟨0x204, 4, 1, [⟨31, 26, .ro, 0x0⟩, ⟨25, 20, .ro, 0x0⟩, ⟨0, 0, .ro, 0x0⟩]⟩,  -- CLAP_LAST_1 (R465)
  ⟨0x208, 4, 1, [⟨31, 0, .ro, 0x0⟩]⟩,  -- CLAP_LAST_TB_LO (R465)
  ⟨0x20C, 4, 1, [⟨31, 0, .ro, 0x0⟩]⟩,  -- CLAP_LAST_TB_HI (R465)
  ⟨0x210, 4, 1, [⟨31, 31, .w1c, 0x0⟩, ⟨30, 28, .ro, 0x0⟩, ⟨22, 21, .ro, 0x0⟩, ⟨20, 0, .ro, 0x0⟩]⟩,  -- LOST_LAST (R465)
  ⟨0x214, 4, 1, [⟨23, 16, .ro, 0x0⟩, ⟨15, 8, .ro, 0x0⟩, ⟨0, 0, .ro, 0x0⟩]⟩,  -- ERR_STATE (R465)
  ⟨0x218, 4, 1, [⟨31, 0, .ro, 0x0⟩]⟩,  -- CLAPPER_EVENTS_LO (R465)
  ⟨0x21C, 4, 1, [⟨31, 31, .w1c, 0x0⟩, ⟨15, 0, .ro, 0x0⟩]⟩,  -- CLAPPER_EVENTS_HI (R465)
  ⟨0x220, 4, 1, [⟨31, 0, .ro, 0x0⟩]⟩,  -- PROBE_RUNS_LO (R465)
  ⟨0x224, 4, 1, [⟨31, 31, .w1c, 0x0⟩, ⟨15, 0, .ro, 0x0⟩]⟩,  -- PROBE_RUNS_HI (R465)
  ⟨0x228, 4, 1, [⟨31, 0, .ro, 0x0⟩]⟩,  -- PROBE_FAILS_LO (R465)
  ⟨0x22C, 4, 1, [⟨31, 31, .w1c, 0x0⟩, ⟨15, 0, .ro, 0x0⟩]⟩   -- PROBE_FAILS_HI (R465)
]

/-- Registers of ply pages. -/
def rows_ply : List RRow := [
  ⟨0x40, 4, 1, [⟨31, 16, .rw, 0x0⟩, ⟨7, 4, .ro, 0x0⟩, ⟨1, 1, .ro, 0x0⟩, ⟨0, 0, .ro, 0x0⟩]⟩,  -- PLY_CTRL (R82)
  ⟨0x44, 4, 1, [⟨5, 5, .rw, 0x0⟩, ⟨4, 4, .rw, 0x0⟩, ⟨2, 0, .rw, 0x0⟩]⟩,  -- PLY_MODES (R82)
  ⟨0x48, 4, 1, [⟨4, 4, .w1c, 0x0⟩, ⟨3, 3, .w1c, 0x0⟩, ⟨2, 2, .w1c, 0x0⟩, ⟨1, 1, .w1c, 0x0⟩, ⟨0, 0, .w1c, 0x0⟩]⟩,  -- PLY_FLAGS (R82)
  ⟨0x4C, 4, 1, [⟨13, 8, .ro, 0x0⟩, ⟨5, 0, .rw, 0x0⟩]⟩,  -- PLY_SEQ (R82)
  ⟨0x50, 4, 1, [⟨31, 0, .rw, 0x0⟩]⟩,  -- SR_SEED_LO (R82)
  ⟨0x54, 4, 1, [⟨31, 0, .rw, 0x0⟩]⟩,  -- SR_SEED_HI (R82)
  ⟨0x60, 8, 6, [⟨31, 16, .rw, 0x0⟩, ⟨15, 0, .rw, 0x0⟩]⟩,  -- CTR_k_CFG (R82)
  ⟨0x64, 8, 6, [⟨15, 0, .rw, 0x0⟩]⟩,  -- CTR_k_VAL (R82)
  ⟨0x90, 16, 3, [⟨31, 0, .rw, 0x0⟩]⟩,  -- AG_a_BASE (R82)
  ⟨0x94, 16, 3, [⟨31, 16, .rw, 0x0⟩, ⟨15, 0, .rw, 0x0⟩]⟩,  -- AG_a_S01 (R82)
  ⟨0x98, 16, 3, [⟨31, 16, .rw, 0x0⟩, ⟨15, 0, .rw, 0x0⟩]⟩,  -- AG_a_S23 (R82)
  ⟨0x9C, 16, 3, [⟨31, 16, .rw, 0x0⟩, ⟨15, 0, .rw, 0x0⟩]⟩,  -- AG_a_S45 (R82)
  ⟨0x100, 32, 8, [⟨31, 31, .rw, 0x0⟩, ⟨30, 30, .rw, 0x0⟩, ⟨29, 29, .rw, 0x0⟩, ⟨28, 28, .rw, 0x0⟩, ⟨27, 24, .rw, 0x0⟩, ⟨18, 16, .rw, 0x0⟩, ⟨15, 0, .rw, 0x0⟩]⟩,  -- RQ_q_D0 (R191)
  ⟨0x104, 32, 8, [⟨26, 16, .rw, 0x0⟩, ⟨10, 0, .rw, 0x0⟩]⟩,  -- RQ_q_D1 (R191)
  ⟨0x108, 32, 8, [⟨26, 16, .rw, 0x0⟩, ⟨10, 0, .rw, 0x0⟩]⟩,  -- RQ_q_D2 (R191)
  ⟨0x10C, 32, 8, [⟨26, 16, .rw, 0x0⟩, ⟨10, 0, .rw, 0x0⟩]⟩,  -- RQ_q_D3 (R191)
  ⟨0x110, 32, 8, [⟨26, 16, .rw, 0x0⟩, ⟨10, 0, .rw, 0x0⟩]⟩,  -- RQ_q_D4 (R191)
  ⟨0x114, 32, 8, [⟨26, 16, .rw, 0x0⟩, ⟨10, 0, .rw, 0x0⟩]⟩,  -- RQ_q_D5 (R191)
  ⟨0x118, 32, 8, [⟨31, 31, .rw, 0x0⟩, ⟨30, 0, .rw, 0x0⟩]⟩,  -- RQ_q_D6 (R191)
  ⟨0x11C, 32, 8, []⟩,  -- RQ_q_D7 (R191)
  ⟨0x200, 16, 4, [⟨31, 31, .rw, 0x0⟩, ⟨30, 30, .rw, 0x0⟩, ⟨29, 29, .rw, 0x0⟩, ⟨28, 25, .rw, 0x0⟩, ⟨24, 22, .rw, 0x0⟩, ⟨21, 17, .rw, 0x0⟩, ⟨16, 12, .rw, 0x0⟩, ⟨7, 0, .rw, 0x0⟩]⟩,  -- CQ_q_D0 (R197)
  ⟨0x204, 16, 4, [⟨31, 16, .rw, 0x0⟩, ⟨15, 0, .rw, 0x0⟩]⟩,  -- CQ_q_D1 (R197)
  ⟨0x208, 16, 4, [⟨31, 16, .rw, 0x0⟩, ⟨15, 15, .rw, 0x0⟩, ⟨14, 14, .rw, 0x0⟩]⟩,  -- CQ_q_D2 (R197)
  ⟨0x20C, 16, 4, [⟨31, 31, .rw, 0x0⟩, ⟨30, 0, .rw, 0x0⟩]⟩,  -- CQ_q_D3 (R197)
  ⟨0x240, 16, 2, [⟨31, 31, .rw, 0x0⟩, ⟨30, 27, .rw, 0x0⟩, ⟨26, 25, .rw, 0x0⟩, ⟨24, 16, .rw, 0x0⟩, ⟨15, 0, .rw, 0x0⟩]⟩,  -- HQ_q_D0 (R258)
  ⟨0x244, 16, 2, [⟨31, 23, .rw, 0x0⟩, ⟨22, 0, .rw, 0x0⟩]⟩,  -- HQ_q_D1 (R258)
  ⟨0x248, 16, 2, [⟨31, 0, .rw, 0x0⟩]⟩,  -- HQ_q_D2 (R258)
  ⟨0x24C, 16, 2, [⟨31, 0, .rw, 0x0⟩]⟩,  -- HQ_q_D3 (R258)
  ⟨0x300, 16, 16, [⟨31, 31, .rw, 0x0⟩, ⟨30, 29, .rw, 0x0⟩, ⟨26, 24, .rw, 0x0⟩, ⟨23, 23, .rw, 0x0⟩, ⟨20, 0, .rw, 0x0⟩]⟩,  -- RT_k_DEST (R83)
  ⟨0x304, 16, 16, [⟨31, 31, .rw, 0x0⟩, ⟨27, 24, .rw, 0x0⟩, ⟨15, 0, .rw, 0x0⟩]⟩,  -- RT_k_TAG (R83)
  ⟨0x308, 16, 16, [⟨31, 5, .rw, 0x0⟩]⟩,  -- RT_k_EA_LO (R83)
  ⟨0x30C, 16, 16, [⟨15, 0, .rw, 0x0⟩]⟩,  -- RT_k_EA_HI (R83)
  ⟨0x400, 4, 256, [⟨31, 0, .rw, 0x0⟩]⟩,  -- CQ_q_ACC_l_Wj (R85)
  ⟨0x800, 4, 512, [⟨31, 0, .rw, 0x0⟩]⟩   -- ACT_a_Wi (R85)
]

/-- Registers of win5 pages. -/
def rows_win5 : List RRow := [
  ⟨0x40, 4, 1, [⟨31, 30, .ro, 0x0⟩, ⟨29, 24, .ro, 0x0⟩, ⟨19, 16, .ro, 0x0⟩, ⟨0, 0, .ro, 0x0⟩]⟩,  -- SQ_STATUS (R86)
  ⟨0x44, 4, 1, [⟨5, 5, .ro, 0x0⟩, ⟨4, 4, .w1c, 0x0⟩, ⟨3, 3, .w1c, 0x0⟩, ⟨2, 2, .w1c, 0x0⟩, ⟨1, 1, .w1c, 0x0⟩, ⟨0, 0, .w1c, 0x0⟩]⟩,  -- SP_FLAGS (R86)
  ⟨0x48, 4, 1, [⟨31, 31, .w1c, 0x0⟩, ⟨30, 0, .ro, 0x0⟩]⟩,  -- CLAPPER_COUNT (R86)
  ⟨0x4C, 4, 1, [⟨3, 0, .ro, 0x0⟩]⟩,  -- SHADOW_PTR (R86)
  ⟨0x50, 4, 1, [⟨31, 31, .w1c, 0x0⟩, ⟨30, 0, .ro, 0x0⟩]⟩,  -- STORE_CORR_COUNT (R86)
  ⟨0x54, 4, 1, [⟨31, 31, .w1c, 0x0⟩, ⟨30, 0, .ro, 0x0⟩]⟩,  -- STORE_UNCORR_COUNT (R86)
  ⟨0x58, 4, 1, [⟨31, 31, .w1c, 0x0⟩, ⟨30, 30, .ro, 0x0⟩, ⟨10, 0, .ro, 0x0⟩]⟩,  -- STORE_ERR_LAST (R86)
  ⟨0x60, 4, 8, [⟨31, 16, .rw, 0x0⟩, ⟨15, 0, .rw, 0x0⟩]⟩,  -- TAP_PAIR_j (R86)
  ⟨0x80, 4, 1, [⟨31, 0, .ro, 0x0⟩]⟩,  -- ACTIONS_FIRED_LO (R86)
  ⟨0x84, 4, 1, [⟨31, 31, .w1c, 0x0⟩, ⟨15, 0, .ro, 0x0⟩]⟩,  -- ACTIONS_FIRED_HI (R86)
  ⟨0x88, 4, 1, [⟨31, 0, .ro, 0x0⟩]⟩,  -- STALL_CYCLES_LO (R86)
  ⟨0x8C, 4, 1, [⟨31, 31, .w1c, 0x0⟩, ⟨15, 0, .ro, 0x0⟩]⟩   -- STALL_CYCLES_HI (R86)
]

/-- Registers of win7 pages. -/
def rows_win7 : List RRow := [
  ⟨0x40, 4, 1, [⟨5, 0, .rw, 0x0⟩]⟩,  -- VRF_SELECT (R88)
  ⟨0x44, 4, 1, [⟨31, 24, .rw, 0x0⟩, ⟨23, 16, .rw, 0x0⟩, ⟨15, 8, .rw, 0x0⟩, ⟨7, 0, .rw, 0x0⟩]⟩,  -- LA_SCALE (R88)
  ⟨0x80, 4, 16, [⟨31, 0, .rw, 0x0⟩]⟩,  -- VRF_LANE_l (R88)
  ⟨0x400, 4, 256, [⟨31, 0, .rw, 0x0⟩]⟩   -- LA_i_LANE_l_Wj (R88)
]

/-- Registers of ringer pages. -/
def rows_ringer : List RRow := [
  ⟨0x40, 4, 1, [⟨27, 24, .rw, 0x0⟩, ⟨23, 22, .rw, 0x0⟩, ⟨21, 21, .rw, 0x0⟩, ⟨15, 0, .rw, 0x0⟩]⟩,  -- RG_CALL (R168)
  ⟨0x44, 4, 1, [⟨26, 16, .rw, 0x0⟩, ⟨10, 0, .rw, 0x0⟩]⟩,  -- RG_X (R168)
  ⟨0x48, 4, 1, [⟨25, 16, .rw, 0x0⟩, ⟨9, 0, .rw, 0x0⟩]⟩,  -- RG_Y (R168)
  ⟨0x4C, 4, 1, [⟨0, 0, .ws, 0x0⟩]⟩,  -- RG_GO (R168)
  ⟨0x50, 4, 1, [⟨4, 0, .ro, 0x0⟩]⟩,  -- RG_STATUS (R168)
  ⟨0x58, 4, 1, [⟨31, 0, .ro, 0x0⟩]⟩,  -- RG_ACCEPTED_LO (R168)
  ⟨0x5C, 4, 1, [⟨31, 31, .w1c, 0x0⟩, ⟨15, 0, .ro, 0x0⟩]⟩,  -- RG_ACCEPTED_HI (R168)
  ⟨0x60, 4, 1, [⟨31, 0, .ro, 0x0⟩]⟩,  -- RG_LAST_TB_LO (R168)
  ⟨0x64, 4, 1, [⟨31, 0, .ro, 0x0⟩]⟩   -- RG_LAST_TB_HI (R168)
]

/-- Registers of chime0 pages. -/
def rows_chime0 : List RRow := [
  ⟨0x40, 4, 1, [⟨31, 31, .w1c, 0x0⟩, ⟨30, 29, .ro, 0x0⟩, ⟨24, 9, .ro, 0x0⟩, ⟨8, 0, .ro, 0x0⟩]⟩,  -- OVR_LAST_0 (R244)
  ⟨0x44, 4, 1, [⟨20, 0, .ro, 0x0⟩]⟩,  -- OVR_LAST_1 (R244)
  ⟨0x48, 4, 1, [⟨31, 0, .w1c, 0x0⟩]⟩,  -- WATCH_FIRED_LO (R244)
  ⟨0x4C, 4, 1, [⟨31, 0, .w1c, 0x0⟩]⟩,  -- WATCH_FIRED_HI (R244)
  ⟨0x50, 4, 1, [⟨31, 0, .ro, 0x0⟩]⟩,  -- INCREMENTS_LO (R244)
  ⟨0x54, 4, 1, [⟨31, 31, .w1c, 0x0⟩, ⟨15, 0, .ro, 0x0⟩]⟩,  -- INCREMENTS_HI (R244)
  ⟨0x58, 4, 1, [⟨31, 0, .ro, 0x0⟩]⟩,  -- ROUNDS_LO (R244)
  ⟨0x5C, 4, 1, [⟨31, 31, .w1c, 0x0⟩, ⟨15, 0, .ro, 0x0⟩]⟩,  -- ROUNDS_HI (R244)
  ⟨0x60, 4, 1, [⟨6, 0, .ro, 0x0⟩]⟩   -- CB_HELD (R244)
]

/-- Registers of chimeK pages. -/
def rows_chimeK : List RRow := [
  ⟨0x100, 16, 128, [⟨31, 0, .rw, 0x0⟩]⟩,  -- CH_k_VALUE (R245)
  ⟨0x104, 16, 128, [⟨31, 31, .rw, 0x0⟩, ⟨30, 30, .ro, 0x0⟩, ⟨15, 0, .rw, 0x0⟩]⟩,  -- CH_k_CFG (R245)
  ⟨0x108, 16, 128, [⟨31, 16, .ro, 0x0⟩, ⟨15, 0, .ro, 0x0⟩]⟩,  -- CH_k_SLOTS (R245)
  ⟨0x10C, 16, 128, [⟨31, 0, .ro, 0x0⟩]⟩   -- CH_k_SAVE (R245)
]

/-- Registers of chimeW pages. -/
def rows_chimeW : List RRow := [
  ⟨0x100, 32, 64, [⟨31, 30, .rw, 0x0⟩, ⟨29, 29, .rw, 0x0⟩, ⟨28, 28, .ro, 0x0⟩, ⟨8, 0, .rw, 0x0⟩]⟩,  -- W_w_CFG (R246)
  ⟨0x104, 32, 64, [⟨31, 0, .rw, 0x0⟩]⟩,  -- W_w_THRESH (R246)
  ⟨0x108, 32, 64, [⟨31, 0, .rw, 0x0⟩]⟩,  -- W_w_STEP (R246)
  ⟨0x10C, 32, 64, [⟨27, 24, .rw, 0x0⟩, ⟨23, 22, .rw, 0x0⟩, ⟨21, 21, .rw, 0x0⟩, ⟨15, 0, .rw, 0x0⟩]⟩,  -- W_w_CALL (R246)
  ⟨0x110, 32, 64, [⟨26, 16, .rw, 0x0⟩, ⟨10, 0, .rw, 0x0⟩]⟩,  -- W_w_X (R246)
  ⟨0x114, 32, 64, [⟨25, 16, .rw, 0x0⟩, ⟨9, 0, .rw, 0x0⟩]⟩,  -- W_w_Y (R246)
  ⟨0x118, 32, 64, [⟨31, 0, .ro, 0x0⟩]⟩   -- W_w_SAVE (R246)
]

/-- Registers of bob0 pages. -/
def rows_bob0 : List RRow := [
  ⟨0x40, 4, 1, [⟨16, 16, .rwp, 0x1⟩, ⟨7, 0, .rwp, 0x40⟩]⟩,  -- BB_CTRL (R288)
  ⟨0x44, 4, 1, [⟨23, 20, .ro, 0x0⟩, ⟨19, 16, .ro, 0x0⟩, ⟨15, 15, .ro, 0x0⟩, ⟨13, 8, .ro, 0x0⟩, ⟨3, 0, .ro, 0x0⟩]⟩,  -- BB_STATUS (R288)
  ⟨0x48, 4, 1, [⟨31, 31, .rwp, 0x0⟩, ⟨3, 0, .rwp, 0x0⟩]⟩,  -- CO_CTRL (R288)
  ⟨0x50, 4, 1, [⟨31, 31, .w1c, 0x0⟩, ⟨30, 30, .ro, 0x0⟩, ⟨29, 28, .ro, 0x0⟩, ⟨0, 0, .ro, 0x0⟩]⟩,  -- ERR_LAST_0 (R288)
  ⟨0x54, 4, 1, [⟨29, 0, .ro, 0x0⟩]⟩,  -- ERR_LAST_1 (R288)
  ⟨0x58, 4, 1, [⟨24, 0, .ro, 0x0⟩]⟩,  -- SCRUB_POS (R288)
  ⟨0x60, 4, 1, [⟨31, 0, .ro, 0x0⟩]⟩,  -- SCRUB_PASSES_LO (R288)
  ⟨0x64, 4, 1, [⟨31, 31, .w1c, 0x0⟩, ⟨15, 0, .ro, 0x0⟩]⟩,  -- SCRUB_PASSES_HI (R288)
  ⟨0x68, 4, 1, [⟨31, 0, .ro, 0x0⟩]⟩,  -- MERGED_LO (R288)
  ⟨0x6C, 4, 1, [⟨31, 31, .w1c, 0x0⟩, ⟨15, 0, .ro, 0x0⟩]⟩,  -- MERGED_HI (R288)
  ⟨0x70, 4, 1, [⟨31, 0, .ro, 0x0⟩]⟩,  -- READS_LO (R288)
  ⟨0x74, 4, 1, [⟨31, 31, .w1c, 0x0⟩, ⟨15, 0, .ro, 0x0⟩]⟩,  -- READS_HI (R288)
  ⟨0x78, 4, 1, [⟨31, 0, .ro, 0x0⟩]⟩,  -- WRITES_LO (R288)
  ⟨0x7C, 4, 1, [⟨31, 31, .w1c, 0x0⟩, ⟨15, 0, .ro, 0x0⟩]⟩,  -- WRITES_HI (R288)
  ⟨0x100, 8, 9, [⟨31, 31, .w1c, 0x0⟩, ⟨30, 0, .ro, 0x0⟩]⟩,  -- SLOT_s_CORR (R288)
  ⟨0x104, 8, 9, [⟨31, 31, .w1c, 0x0⟩, ⟨30, 0, .ro, 0x0⟩]⟩   -- SLOT_s_UNCORR (R288)
]

/-- Registers of bob1 pages. -/
def rows_bob1 : List RRow := [
  ⟨0x40, 4, 32, [⟨23, 16, .ro, 0x0⟩, ⟨1, 1, .ro, 0x0⟩, ⟨0, 0, .ro, 0x0⟩]⟩,  -- CH_c_STATUS (R290)
  ⟨0x100, 4, 1, [⟨31, 0, .ro, 0x0⟩]⟩,  -- RETRAIN_SLOTS_LO (R290)
  ⟨0x104, 4, 1, [⟨31, 31, .w1c, 0x0⟩, ⟨15, 0, .ro, 0x0⟩]⟩   -- RETRAIN_SLOTS_HI (R290)
]

/-- Registers of bob2 pages. -/
def rows_bob2 : List RRow := [
  ⟨0x100, 16, 64, [⟨31, 0, .ro, 0x0⟩]⟩,  -- GW_g_MSG_LO (R290)
  ⟨0x104, 16, 64, [⟨31, 31, .w1c, 0x0⟩, ⟨15, 0, .ro, 0x0⟩]⟩,  -- GW_g_MSG_HI (R290)
  ⟨0x108, 16, 64, [⟨31, 0, .ro, 0x0⟩]⟩,  -- GW_g_STALL_LO (R290)
  ⟨0x10C, 16, 64, [⟨31, 31, .w1c, 0x0⟩, ⟨15, 0, .ro, 0x0⟩]⟩   -- GW_g_STALL_HI (R290)
]

/-- Registers of a reel channel's block (R296). -/
def rows_chan : List RRow := [
  ⟨0x0, 4, 1, [⟨31, 5, .rw, 0x0⟩]⟩,  -- CH_SRC_LO (R296)
  ⟨0x4, 4, 1, [⟨15, 0, .rw, 0x0⟩]⟩,  -- CH_SRC_HI (R296)
  ⟨0x8, 4, 1, [⟨31, 5, .rw, 0x0⟩]⟩,  -- CH_DST_LO (R296)
  ⟨0xC, 4, 1, [⟨15, 0, .rw, 0x0⟩]⟩,  -- CH_DST_HI (R296)
  ⟨0x10, 4, 1, [⟨31, 0, .rw, 0x0⟩]⟩,  -- CH_COUNT (R296)
  ⟨0x14, 4, 1, [⟨16, 16, .ro, 0x0⟩, ⟨15, 15, .rwp, 0x0⟩, ⟨14, 14, .rw, 0x0⟩, ⟨13, 13, .rw, 0x0⟩, ⟨12, 12, .rw, 0x0⟩, ⟨9, 8, .rw, 0x0⟩, ⟨1, 1, .ws, 0x0⟩, ⟨0, 0, .ws, 0x0⟩]⟩,  -- CH_CTRL (R296)
  ⟨0x18, 4, 1, [⟨19, 19, .ro, 0x0⟩, ⟨18, 16, .ro, 0x0⟩, ⟨10, 8, .ro, 0x0⟩, ⟨3, 0, .ro, 0x0⟩]⟩,  -- CH_STATUS (R296)
  ⟨0x1C, 4, 1, [⟨31, 31, .rw, 0x0⟩, ⟨30, 29, .rw, 0x0⟩, ⟨26, 24, .rw, 0x0⟩, ⟨20, 0, .rw, 0x0⟩]⟩,  -- CH_DQ (R296)
  ⟨0x20, 4, 1, [⟨15, 0, .rw, 0x0⟩]⟩,  -- CH_DQ_TAG (R296)
  ⟨0x24, 4, 1, [⟨14, 0, .rw, 0x0⟩]⟩,  -- DONE_CHIME (R296)
  ⟨0x28, 4, 1, [⟨29, 0, .rw, 0x0⟩]⟩,  -- DONE_ADD (R296)
  ⟨0x2C, 4, 1, [⟨8, 0, .rw, 0x0⟩]⟩,  -- TRIG_CHIME (R296)
  ⟨0x30, 4, 1, [⟨31, 0, .rw, 0x0⟩]⟩,  -- TRIG_THRESH (R296)
  ⟨0x34, 4, 1, [⟨31, 0, .rw, 0x0⟩]⟩,  -- TRIG_STEP (R296)
  ⟨0x38, 4, 1, [⟨31, 0, .rw, 0x0⟩]⟩,  -- TRIG_COUNT (R296)
  ⟨0x40, 16, 5, [⟨31, 16, .ro, 0x0⟩, ⟨15, 0, .rw, 0x0⟩]⟩,  -- CH_EXT_d (R296)
  ⟨0x44, 16, 5, [⟨31, 0, .rw, 0x0⟩]⟩,  -- CH_SSTR_d (R296)
  ⟨0x48, 16, 5, [⟨31, 0, .rw, 0x0⟩]⟩,  -- CH_DSTR_d (R296)
  ⟨0x90, 4, 1, [⟨31, 0, .ro, 0x0⟩]⟩,  -- CH_LINES_LO (R296)
  ⟨0x94, 4, 1, [⟨31, 31, .w1c, 0x0⟩, ⟨15, 0, .ro, 0x0⟩]⟩,  -- CH_LINES_HI (R296)
  ⟨0x98, 4, 1, [⟨31, 0, .ro, 0x0⟩]⟩,  -- CH_STARTS_LO (R296)
  ⟨0x9C, 4, 1, [⟨31, 31, .w1c, 0x0⟩, ⟨15, 0, .ro, 0x0⟩]⟩,  -- CH_STARTS_HI (R296)
  ⟨0xA0, 4, 1, [⟨31, 31, .w1c, 0x0⟩, ⟨30, 0, .ro, 0x0⟩]⟩   -- CH_STALE (R296)
]

/-- Registers of reelStat pages. -/
def rows_reelStat : List RRow := [
  ⟨0x40, 4, 1, [⟨21, 16, .ro, 0x0⟩, ⟨4, 0, .ro, 0x0⟩]⟩   -- REEL_STATUS (R297)
]

/-- Registers of run pages. -/
def rows_run : List RRow := [
  ⟨0x40, 4, 1, [⟨15, 15, .ro, 0x0⟩, ⟨14, 14, .ro, 0x0⟩, ⟨13, 13, .ro, 0x0⟩, ⟨12, 12, .ro, 0x0⟩, ⟨2, 0, .ro, 0x0⟩]⟩,  -- RUN_STATE (R346)
  ⟨0x44, 4, 1, [⟨31, 0, .ro, 0x0⟩]⟩,  -- RUN_ABORTS (R346)
  ⟨0x48, 4, 1, [⟨31, 0, .ro, 0x0⟩]⟩,  -- RUN_SERIAL (R346)
  ⟨0x4C, 4, 1, [⟨4, 0, .ro, 0x14⟩]⟩,  -- RUN_WATCHDOG (R346)
  ⟨0x50, 4, 1, [⟨31, 0, .ro, 0x0⟩]⟩,  -- RUN_NEXT_ID (R346)
  ⟨0x54, 4, 1, [⟨31, 0, .ro, 0x0⟩]⟩,  -- RUN_ADMIT_ID (R346)
  ⟨0x58, 4, 1, [⟨6, 0, .ro, 0x0⟩]⟩,  -- RUN_OUTSTANDING (R346)
  ⟨0x60, 4, 1, [⟨31, 31, .ro, 0x0⟩, ⟨30, 30, .ro, 0x0⟩, ⟨15, 8, .ro, 0x0⟩, ⟨7, 7, .ro, 0x0⟩, ⟨5, 0, .ro, 0x0⟩]⟩,  -- RUN_FAULT_0 (R346)
  ⟨0x64, 4, 1, [⟨20, 0, .ro, 0x0⟩]⟩,  -- RUN_FAULT_1 (R346)
  ⟨0x68, 4, 1, [⟨31, 0, .ro, 0x0⟩]⟩,  -- RUN_FAULT_TB_LO (R346)
  ⟨0x6C, 4, 1, [⟨31, 0, .ro, 0x0⟩]⟩,  -- RUN_FAULT_TB_HI (R346)
  ⟨0x70, 4, 1, [⟨31, 0, .ro, 0x0⟩]⟩,  -- RUN_FAULT_STROKE (R346)
  ⟨0x78, 4, 1, [⟨31, 0, .ro, 0x0⟩]⟩,  -- PEAL_ID_LO (R346)
  ⟨0x7C, 4, 1, [⟨31, 0, .ro, 0x0⟩]⟩,  -- PEAL_ID_HI (R346)
  ⟨0x80, 4, 1, [⟨26, 16, .ro, 0x0⟩, ⟨10, 0, .ro, 0x0⟩]⟩,  -- PEAL_SHAPE (R346)
  ⟨0x88, 4, 1, [⟨31, 0, .ro, 0x0⟩]⟩,  -- FIELDS_USED_LO (R346)
  ⟨0x8C, 4, 1, [⟨31, 0, .ro, 0x0⟩]⟩,  -- FIELDS_USED_HI (R346)
  ⟨0x90, 4, 1, [⟨31, 0, .ro, 0x0⟩]⟩,  -- BOBBINS_USED_LO (R346)
  ⟨0x94, 4, 1, [⟨31, 0, .ro, 0x0⟩]⟩,  -- BOBBINS_USED_HI (R346)
  ⟨0x98, 4, 1, [⟨31, 0, .ro, 0x0⟩]⟩,  -- STROKES_DONE_LO (R346)
  ⟨0x9C, 4, 1, [⟨31, 31, .w1c, 0x0⟩, ⟨15, 0, .ro, 0x0⟩]⟩,  -- STROKES_DONE_HI (R346)
  ⟨0xA0, 4, 1, [⟨31, 0, .ro, 0x0⟩]⟩,  -- RUN_FAULTS_LO (R346)
  ⟨0xA4, 4, 1, [⟨31, 31, .w1c, 0x0⟩, ⟨15, 0, .ro, 0x0⟩]⟩,  -- RUN_FAULTS_HI (R346)
  ⟨0xA8, 4, 1, [⟨31, 0, .ro, 0x0⟩]⟩,  -- CMD_REFUSED_LO (R346)
  ⟨0xAC, 4, 1, [⟨31, 31, .w1c, 0x0⟩, ⟨15, 0, .ro, 0x0⟩]⟩   -- CMD_REFUSED_HI (R346)
]

/-- Registers of nirdor0 pages. -/
def rows_nirdor0 : List RRow := [
  ⟨0x40, 4, 1, [⟨3, 3, .ws, 0x0⟩, ⟨2, 2, .rwp, 0x0⟩, ⟨1, 1, .rwp, 0x1⟩, ⟨0, 0, .rwp, 0x1⟩]⟩,  -- PORT_CTRL (R375)
  ⟨0x44, 4, 1, [⟨31, 30, .ro, 0x0⟩, ⟨29, 29, .ro, 0x0⟩, ⟨28, 28, .ro, 0x0⟩, ⟨21, 16, .ro, 0x0⟩, ⟨15, 8, .ro, 0x0⟩]⟩,  -- PORT_STATUS (R375)
  ⟨0x48, 4, 1, [⟨31, 31, .ro, 0x0⟩, ⟨30, 30, .ro, 0x0⟩, ⟨19, 16, .ro, 0x0⟩, ⟨15, 0, .ro, 0x0⟩]⟩,  -- PARTNER (R375)
  ⟨0x4C, 4, 1, [⟨15, 0, .rwp, 0x3E8⟩]⟩,  -- REMOTE_TIMEOUT (R375)
  ⟨0x50, 4, 1, [⟨31, 31, .w1c, 0x0⟩, ⟨30, 28, .ro, 0x0⟩, ⟨27, 16, .ro, 0x0⟩, ⟨15, 0, .ro, 0x0⟩]⟩,  -- LOSS_LAST_0 (R375)
  ⟨0x54, 4, 1, [⟨9, 0, .ro, 0x0⟩]⟩,  -- LOSS_LAST_1 (R375)
  ⟨0x58, 4, 1, [⟨31, 0, .ro, 0x0⟩]⟩,  -- FRAMES_TX_LO (R375)
  ⟨0x5C, 4, 1, [⟨31, 31, .w1c, 0x0⟩, ⟨15, 0, .ro, 0x0⟩]⟩,  -- FRAMES_TX_HI (R375)
  ⟨0x60, 4, 1, [⟨31, 0, .ro, 0x0⟩]⟩,  -- FRAMES_RX_LO (R375)
  ⟨0x64, 4, 1, [⟨31, 31, .w1c, 0x0⟩, ⟨15, 0, .ro, 0x0⟩]⟩,  -- FRAMES_RX_HI (R375)
  ⟨0x68, 4, 1, [⟨31, 0, .ro, 0x0⟩]⟩,  -- REPLAYS_LO (R375)
  ⟨0x6C, 4, 1, [⟨31, 31, .w1c, 0x0⟩, ⟨15, 0, .ro, 0x0⟩]⟩,  -- REPLAYS_HI (R375)
  ⟨0x70, 4, 1, [⟨31, 0, .ro, 0x0⟩]⟩,  -- PACKETS_OUT_LO (R375)
  ⟨0x74, 4, 1, [⟨31, 31, .w1c, 0x0⟩, ⟨15, 0, .ro, 0x0⟩]⟩,  -- PACKETS_OUT_HI (R375)
  ⟨0x78, 4, 1, [⟨31, 0, .ro, 0x0⟩]⟩,  -- PACKETS_IN_LO (R375)
  ⟨0x7C, 4, 1, [⟨31, 31, .w1c, 0x0⟩, ⟨15, 0, .ro, 0x0⟩]⟩,  -- PACKETS_IN_HI (R375)
  ⟨0x80, 4, 1, [⟨31, 0, .ro, 0x0⟩]⟩,  -- REMOTE_STALE_LO (R375)
  ⟨0x84, 4, 1, [⟨31, 31, .w1c, 0x0⟩, ⟨15, 0, .ro, 0x0⟩]⟩,  -- REMOTE_STALE_HI (R375)
  ⟨0x88, 4, 1, [⟨31, 0, .ro, 0x0⟩]⟩,  -- DROPPED_LO (R375)
  ⟨0x8C, 4, 1, [⟨31, 31, .w1c, 0x0⟩, ⟨15, 0, .ro, 0x0⟩]⟩,  -- DROPPED_HI (R375)
  ⟨0x90, 4, 1, [⟨31, 0, .ro, 0x0⟩]⟩,  -- TRAIN_FAILS_LO (R375)
  ⟨0x94, 4, 1, [⟨31, 31, .w1c, 0x0⟩, ⟨15, 0, .ro, 0x0⟩]⟩,  -- TRAIN_FAILS_HI (R375)
  ⟨0xA0, 4, 1, [⟨9, 0, .rwp, 0x0⟩]⟩,  -- EXP_SEL (R375)
  ⟨0xA4, 4, 1, [⟨11, 0, .rwp, 0x0⟩]⟩   -- IMP_SEL (R375)
]

/-- Registers of an export entry (R376). -/
def rows_exp : List RRow := [
  ⟨0x0, 4, 1, [⟨31, 31, .rwp, 0x0⟩, ⟨30, 30, .rwp, 0x0⟩, ⟨29, 29, .rwp, 0x0⟩, ⟨28, 26, .rwp, 0x0⟩, ⟨25, 22, .rwp, 0x0⟩, ⟨21, 19, .rwp, 0x0⟩, ⟨11, 0, .rwp, 0x0⟩]⟩,  -- EXP_W0 (R376)
  ⟨0x4, 4, 1, [⟨31, 16, .rwp, 0x0⟩, ⟨15, 0, .rwp, 0x0⟩]⟩,  -- EXP_W1 (R376)
  ⟨0x8, 4, 1, [⟨31, 5, .rwp, 0x0⟩]⟩,  -- EXP_W2 (R376)
  ⟨0xC, 4, 1, [⟨31, 24, .rwp, 0x0⟩, ⟨15, 0, .rwp, 0x0⟩]⟩,  -- EXP_W3 (R376)
  ⟨0x10, 4, 1, [⟨31, 16, .ro, 0x0⟩, ⟨15, 0, .ro, 0x0⟩]⟩,  -- EXP_W4 (R376)
  ⟨0x14, 4, 1, [⟨7, 0, .ro, 0x0⟩]⟩,  -- EXP_W5 (R376)
  ⟨0x18, 4, 2, []⟩   -- EXP_W6 (R376)
]

/-- Registers of an import entry (R376). -/
def rows_imp : List RRow := [
  ⟨0x0, 4, 1, [⟨31, 31, .rwp, 0x0⟩, ⟨30, 30, .rwp, 0x0⟩, ⟨29, 29, .rwp, 0x0⟩, ⟨27, 16, .rwp, 0x0⟩, ⟨15, 0, .rwp, 0x0⟩]⟩,  -- IMP_W0 (R376)
  ⟨0x4, 4, 1, [⟨31, 16, .ro, 0x0⟩, ⟨11, 0, .ro, 0x0⟩]⟩   -- IMP_W1 (R376)
]

/-- Registers of nirdor1 pages. -/
def rows_nirdor1 : List RRow := [
  ⟨0x40, 4, 42, [⟨31, 30, .ro, 0x0⟩, ⟨21, 16, .ro, 0x0⟩, ⟨7, 0, .ro, 0x0⟩]⟩,  -- LANE_l_STATUS (R376)
  ⟨0x100, 4, 1, [⟨31, 0, .ro, 0x0⟩]⟩,  -- LANE_SWAPS_LO (R376)
  ⟨0x104, 4, 1, [⟨31, 31, .w1c, 0x0⟩, ⟨15, 0, .ro, 0x0⟩]⟩   -- LANE_SWAPS_HI (R376)
]

/-- Registers of edgeRing pages. -/
def rows_edgeRing : List RRow := [
  ⟨0x40, 4, 1, [⟨0, 0, .rwp, 0x0⟩]⟩,  -- ER_CTRL (R377)
  ⟨0x44, 4, 1, [⟨15, 0, .ro, 0x0⟩]⟩,  -- ER_STATUS (R377)
  ⟨0x48, 4, 1, [⟨31, 0, .rwp, 0x0⟩]⟩,  -- VIA_SEED_LO (R377)
  ⟨0x4C, 4, 1, [⟨31, 0, .rwp, 0x0⟩]⟩,  -- VIA_SEED_HI (R377)
  ⟨0x50, 4, 1, [⟨18, 16, .rwp, 0x0⟩, ⟨5, 0, .rwp, 0x0⟩]⟩,  -- VIA_SEL (R377)
  ⟨0x54, 4, 1, [⟨15, 0, .rwp, 0x0⟩]⟩,  -- VIA_DATA (R377)
  ⟨0x60, 4, 8, [⟨6, 0, .rwp, 0x0⟩]⟩,  -- VIA_SIZE_s (R377)
  ⟨0x80, 4, 1, [⟨15, 0, .rwp, 0x0⟩]⟩,  -- RELAY_SEL (R377)
  ⟨0x84, 4, 1, [⟨15, 0, .rwp, 0x0⟩]⟩,  -- RELAY_DATA (R377)
  ⟨0x88, 4, 1, [⟨31, 0, .ro, 0x0⟩]⟩,  -- RELAYED_LO (R377)
  ⟨0x8C, 4, 1, [⟨31, 31, .w1c, 0x0⟩, ⟨15, 0, .ro, 0x0⟩]⟩,  -- RELAYED_HI (R377)
  ⟨0x90, 4, 1, [⟨31, 0, .ro, 0x0⟩]⟩,  -- RELAY_DROPS_LO (R377)
  ⟨0x94, 4, 1, [⟨31, 31, .w1c, 0x0⟩, ⟨15, 0, .ro, 0x0⟩]⟩,  -- RELAY_DROPS_HI (R377)
  ⟨0x98, 4, 1, [⟨31, 31, .w1c, 0x0⟩, ⟨30, 29, .ro, 0x0⟩, ⟨15, 0, .ro, 0x0⟩]⟩   -- DROP_LAST (R377)
]

/-- Registers of hpRing pages. -/
def rows_hpRing : List RRow := [
  ⟨0x40, 4, 1, [⟨2, 2, .ws, 0x0⟩, ⟨1, 1, .rw, 0x0⟩, ⟨0, 0, .rw, 0x0⟩]⟩,  -- RING_CTRL (R387)
  ⟨0x44, 4, 1, [⟨31, 6, .rw, 0x0⟩]⟩,  -- CMD_BASE_LO (R387)
  ⟨0x48, 4, 1, [⟨31, 0, .rw, 0x0⟩]⟩,  -- CMD_BASE_HI (R387)
  ⟨0x4C, 4, 1, [⟨15, 0, .rw, 0x0⟩]⟩,  -- CMD_TAIL (R387)
  ⟨0x50, 4, 1, [⟨15, 0, .ro, 0x0⟩]⟩,  -- CMD_HEAD (R387)
  ⟨0x54, 4, 1, [⟨31, 5, .rw, 0x0⟩]⟩,  -- CPL_BASE_LO (R387)
  ⟨0x58, 4, 1, [⟨31, 0, .rw, 0x0⟩]⟩,  -- CPL_BASE_HI (R387)
  ⟨0x5C, 4, 1, [⟨15, 0, .rw, 0x0⟩]⟩,  -- CPL_HEAD (R387)
  ⟨0x60, 4, 1, [⟨16, 16, .ro, 0x1⟩, ⟨15, 0, .ro, 0x0⟩]⟩,  -- CPL_TAIL (R387)
  ⟨0x64, 4, 1, [⟨12, 8, .rw, 0x0⟩, ⟨4, 0, .rw, 0x0⟩]⟩,  -- RING_SIZE (R387)
  ⟨0x68, 4, 1, [⟨31, 31, .ro, 0x0⟩, ⟨19, 16, .ro, 0x0⟩, ⟨15, 0, .ro, 0x0⟩]⟩,  -- RING_STATUS (R387)
  ⟨0x70, 4, 1, [⟨31, 0, .ro, 0x0⟩]⟩,  -- CMDS_TAKEN_LO (R387)
  ⟨0x74, 4, 1, [⟨31, 31, .w1c, 0x0⟩, ⟨15, 0, .ro, 0x0⟩]⟩   -- CMDS_TAKEN_HI (R387)
]

/-- Registers of clock pages. -/
def rows_clock : List RRow := [
  ⟨0x40, 4, 1, [⟨16, 16, .rwp, 0x1⟩, ⟨12, 12, .ws, 0x0⟩, ⟨11, 8, .rwp, 0x0⟩, ⟨7, 7, .rwp, 0x0⟩, ⟨6, 4, .rwp, 0x2⟩, ⟨2, 0, .rwp, 0x2⟩]⟩,  -- CLK_CTRL (R421)
  ⟨0x44, 4, 1, [⟨31, 31, .ro, 0x0⟩, ⟨30, 30, .ro, 0x0⟩, ⟨29, 29, .w1c, 0x0⟩, ⟨28, 28, .ro, 0x0⟩, ⟨27, 27, .ro, 0x0⟩, ⟨26, 26, .ro, 0x1⟩, ⟨25, 24, .ro, 0x0⟩, ⟨23, 20, .ro, 0x0⟩, ⟨19, 19, .ro, 0x0⟩, ⟨18, 18, .ro, 0x0⟩, ⟨14, 12, .ro, 0x4⟩, ⟨10, 8, .ro, 0x4⟩]⟩,  -- CLK_STATUS (R421)
  ⟨0x50, 4, 1, [⟨31, 0, .ro, 0x0⟩]⟩,  -- HOLDOVERS_LO (R421)
  ⟨0x54, 4, 1, [⟨31, 31, .w1c, 0x0⟩, ⟨15, 0, .ro, 0x0⟩]⟩,  -- HOLDOVERS_HI (R421)
  ⟨0x58, 4, 1, [⟨31, 0, .ro, 0x0⟩]⟩,  -- FORCED_LO (R421)
  ⟨0x5C, 4, 1, [⟨31, 31, .w1c, 0x0⟩, ⟨15, 0, .ro, 0x0⟩]⟩,  -- FORCED_HI (R421)
  ⟨0x60, 4, 1, [⟨31, 0, .ro, 0x0⟩]⟩,  -- LOSS_TB_LO (R421)
  ⟨0x64, 4, 1, [⟨31, 0, .ro, 0x0⟩]⟩   -- LOSS_TB_HI (R421)
]

/-- Registers of timebase pages. -/
def rows_timebase : List RRow := [
  ⟨0x40, 4, 1, [⟨31, 0, .ro, 0x0⟩]⟩,  -- TB_LO (R423)
  ⟨0x44, 4, 1, [⟨31, 0, .ro, 0x0⟩]⟩,  -- TB_HI (R423)
  ⟨0x48, 4, 1, [⟨2, 2, .ro, 0x1⟩, ⟨1, 0, .ro, 0x1⟩]⟩,  -- TB_STATUS (R423)
  ⟨0x50, 4, 1, [⟨31, 0, .rwp, 0x0⟩]⟩,  -- TB_LOAD_LO (R423)
  ⟨0x54, 4, 1, [⟨31, 0, .rwp, 0x0⟩]⟩,  -- TB_LOAD_HI (R423)
  ⟨0x58, 4, 1, [⟨0, 0, .ws, 0x0⟩]⟩   -- TB_LOAD_GO (R423)
]

/-- Registers of reset pages. -/
def rows_reset : List RRow := [
  ⟨0x40, 4, 1, [⟨31, 31, .ws, 0x0⟩, ⟨9, 8, .rwp, 0x0⟩, ⟨5, 0, .rwp, 0x0⟩]⟩,  -- RST_CMD (R428)
  ⟨0x44, 4, 1, [⟨31, 31, .ro, 0x0⟩, ⟨9, 8, .ro, 0x0⟩, ⟨5, 0, .ro, 0x0⟩]⟩,  -- RST_STATUS (R428)
  ⟨0x48, 4, 1, [⟨31, 30, .ro, 0x0⟩, ⟨29, 26, .ro, 0x0⟩, ⟨25, 20, .ro, 0x0⟩]⟩,  -- LAST_RESET (R428)
  ⟨0x50, 4, 1, [⟨31, 0, .ro, 0x0⟩]⟩,  -- RESETS_LO (R428)
  ⟨0x54, 4, 1, [⟨31, 31, .w1c, 0x0⟩, ⟨15, 0, .ro, 0x0⟩]⟩   -- RESETS_HI (R428)
]

/-- Registers of fuseSheet pages. -/
def rows_fuseSheet : List RRow := [
  ⟨0x40, 4, 1, [⟨23, 16, .ro, 0x0⟩, ⟨15, 8, .ro, 0x0⟩, ⟨7, 0, .ro, 0x0⟩]⟩,  -- FS_INFO (R452)
  ⟨0x44, 4, 1, [⟨12, 0, .ro, 0x0⟩]⟩,  -- FS_COUNT (R452)
  ⟨0x48, 4, 1, [⟨31, 31, .ro, 0x0⟩, ⟨12, 0, .ro, 0x0⟩]⟩,  -- SM_COUNT (R452)
  ⟨0x4C, 4, 1, [⟨31, 31, .ro, 0x0⟩, ⟨23, 16, .ro, 0x0⟩, ⟨15, 8, .ro, 0x0⟩, ⟨3, 0, .ro, 0x0⟩]⟩,  -- MAP_STATUS (R452)
  ⟨0x100, 4, 64, [⟨31, 24, .ro, 0x0⟩, ⟨23, 16, .ro, 0x0⟩, ⟨15, 8, .ro, 0x0⟩, ⟨1, 0, .ro, 0x0⟩]⟩   -- FM_f (R452)
]

/-- Registers of power pages. -/
def rows_power : List RRow := [
  ⟨0x40, 4, 8, [⟨16, 16, .ro, 0x0⟩, ⟨15, 0, .ro, 0x0⟩]⟩,  -- PT_TEMP_j (R484)
  ⟨0x60, 4, 1, [⟨31, 16, .ro, 0x0⟩, ⟨15, 0, .ro, 0x0⟩]⟩,  -- PT_RAIL (R484)
  ⟨0x64, 4, 1, [⟨15, 0, .ro, 0x0⟩]⟩,  -- PT_POWER (R484)
  ⟨0x68, 4, 1, [⟨11, 8, .ro, 0x0⟩, ⟨2, 0, .ro, 0x4⟩]⟩,  -- PT_STATE (R484)
  ⟨0x6C, 4, 1, [⟨15, 0, .ro, 0x0⟩]⟩,  -- PT_TMAX (R484)
  ⟨0x70, 4, 1, [⟨31, 0, .ro, 0x0⟩]⟩,  -- PT_HOT_OUTS_LO (R484)
  ⟨0x74, 4, 1, [⟨31, 31, .w1c, 0x0⟩, ⟨15, 0, .ro, 0x0⟩]⟩,  -- PT_HOT_OUTS_HI (R484)
  ⟨0x78, 4, 1, [⟨31, 0, .ro, 0x0⟩]⟩,  -- PT_FUSE_TRIPS_LO (R484)
  ⟨0x7C, 4, 1, [⟨31, 31, .w1c, 0x0⟩, ⟨15, 0, .ro, 0x0⟩]⟩   -- PT_FUSE_TRIPS_HI (R484)
]

/-- Registers of mbox0 pages. -/
def rows_mbox0 : List RRow := [
  ⟨0x40, 4, 1, [⟨31, 31, .ro, 0x0⟩, ⟨30, 30, .ro, 0x0⟩, ⟨29, 29, .ro, 0x0⟩, ⟨28, 28, .ro, 0x0⟩, ⟨27, 27, .ro, 0x0⟩, ⟨26, 26, .ro, 0x0⟩]⟩,  -- BF_STATUS (R494)
  ⟨0x44, 4, 1, [⟨31, 0, .ro, 0x0⟩]⟩,  -- BF_VERSION (R494)
  ⟨0x48, 4, 1, [⟨31, 0, .ro, 0x0⟩]⟩,  -- BF_HEARTBEAT (R494)
  ⟨0x4C, 4, 1, [⟨31, 16, .ro, 0x0⟩, ⟨15, 0, .ro, 0x0⟩]⟩,  -- MOD_INPUT (R494)
  ⟨0x50, 4, 1, [⟨15, 0, .ro, 0x0⟩]⟩,  -- MOD_POWER (R494)
  ⟨0x54, 4, 1, [⟨31, 16, .ro, 0x0⟩, ⟨15, 0, .ro, 0x0⟩]⟩,  -- MOD_COOLANT (R494)
  ⟨0x58, 4, 1, [⟨31, 16, .ro, 0x0⟩, ⟨15, 0, .ro, 0x0⟩]⟩,  -- MOD_TRANSIT (R494)
  ⟨0x5C, 4, 1, [⟨21, 16, .ro, 0x0⟩, ⟨15, 0, .ro, 0x0⟩]⟩,  -- MOD_TMAX (R494)
  ⟨0x60, 4, 1, [⟨12, 8, .ro, 0x0⟩, ⟨4, 0, .ro, 0x0⟩]⟩,  -- POLICY_STATE (R494)
  ⟨0x64, 4, 1, [⟨31, 0, .ro, 0x0⟩]⟩,  -- LOG_SEQ (R494)
  ⟨0x68, 4, 1, [⟨31, 0, .ro, 0x0⟩]⟩,  -- BOOTS_LO (R494)
  ⟨0x6C, 4, 1, [⟨31, 31, .w1c, 0x0⟩, ⟨15, 0, .ro, 0x0⟩]⟩   -- BOOTS_HI (R494)
]

/-- Registers of mboxCh pages. -/
def rows_mboxCh : List RRow := [
  ⟨0x40, 4, 1, [⟨0, 0, .ws, 0x0⟩]⟩,  -- MB_CTRL (R495)
  ⟨0x44, 4, 1, [⟨1, 1, .w1c, 0x0⟩, ⟨0, 0, .ro, 0x0⟩]⟩,  -- MB_STATUS (R495)
  ⟨0x100, 4, 64, [⟨31, 0, .rw, 0x0⟩]⟩,  -- MB_REQ_i (R495)
  ⟨0x200, 4, 64, [⟨31, 0, .ro, 0x0⟩]⟩   -- MB_RSP_i (R495)
]

/-- Registers of win6 pages. -/
def rows_win6 : List RRow := [
  ⟨0x100, 8, 112, [⟨31, 0, .ro, 0x0⟩]⟩,  -- QUEUE_COUNTERS_LO (R87)
  ⟨0x104, 8, 112, [⟨31, 31, .w1c, 0x0⟩, ⟨15, 0, .ro, 0x0⟩]⟩,  -- QUEUE_COUNTERS_HI (R87)
  ⟨0x500, 8, 10, [⟨31, 0, .ro, 0x0⟩]⟩,  -- PORT_COUNTERS_LO (R87)
  ⟨0x504, 8, 10, [⟨31, 31, .w1c, 0x0⟩, ⟨15, 0, .ro, 0x0⟩]⟩   -- PORT_COUNTERS_HI (R87)
]

/-- The channel registers of a page: one block at +0x100, or four blocks 0x100 apart (R295). -/
def chanRows (four : Bool) : List RRow :=
  let at_ : Nat → List RRow := fun b => rows_chan.map (fun r => { r with off := r.off + 0x100 + b * 0x100 })
  if four then at_ 0 ++ at_ 1 ++ at_ 2 ++ at_ 3 else at_ 0

/-- The block registers of a page, from +0x40. -/
def kindRows : PKind → List RRow
  | .global => rows_global | .fuseSheet => rows_fuseSheet | .run => rows_run
  | .mbox0 => rows_mbox0 | .mboxCh => rows_mboxCh | .clock => rows_clock | .reset => rows_reset
  | .timebase => rows_timebase | .hpCtrl => rows_hpCtrl | .hpRing => rows_hpRing
  | .hpMsix => [] | .hpPba => []
  | .hostReel first => (if first then rows_reelStat else []) ++ chanRows true
  | .nirdor0 => rows_nirdor0 ++ rows_exp.map (fun r => { r with off := r.off + 0xC0 })
      ++ rows_imp.map (fun r => { r with off := r.off + 0xE0 })
  | .nirdor1 => rows_nirdor1 | .edgeRing => rows_edgeRing
  | .fieldCtrl => rows_fieldCtrl | .ringer => rows_ringer
  | .chime0 => rows_chime0 | .chimeK => rows_chimeK | .chimeW => rows_chimeW
  | .bob0 => rows_bob0 | .bob1 => rows_bob1 | .bob2 => rows_bob2
  | .reel first => (if first then rows_reelStat else []) ++ chanRows false
  | .swSel => rows_swSel | .ply => rows_ply | .win5 => rows_win5 | .win6 => rows_win6
  | .win7 => rows_win7 | .power => rows_power

/-- Whether a row holds a register at this offset. -/
def RRow.hits (r : RRow) (off : Nat) : Bool :=
  r.off ≤ off && (off - r.off) % r.stride = 0 && (off - r.off) / r.stride < r.count

/-- The fields of the register at an offset of a row list. -/
def findRow : List RRow → Nat → Option (List RField)
  | [], _ => none
  | r :: rs, off => if r.hits off then some r.fields else findRow rs off

/-- The fields of the register at an offset within a page: header, then block registers. -/
def regFields (k : PKind) (off : Nat) : Option (List RField) :=
  if off < 0x40 then findRow rows_hdr off else findRow (kindRows k) off

/-- How many BLOCK_EVENTS a page defines, from bit 0 upwards (R52, R207, R233, R241, R243, R259, R287, R289, R297, R347,
R375, R377, R383, R387, R422, R423, R428, R466 and the tables of chapters 6, 9, 16 and 18); the others are RSV. -/
def evtCount : PKind → Nat
  | .global => 4 | .fuseSheet => 3 | .run => 4 | .mbox0 => 5 | .mboxCh => 2 | .clock => 6 | .reset => 2
  | .timebase => 2 | .hpCtrl => 4 | .hpRing => 1 | .hostReel _ => 20 | .nirdor0 => 6 | .edgeRing => 1
  | .fieldCtrl => 11 | .ringer => 3 | .chime0 => 3 | .bob0 => 7 | .reel _ => 5 | .power => 5
  | .hpMsix | .hpPba | .nirdor1 | .chimeK | .chimeW | .bob1 | .bob2 | .swSel | .ply | .win5 | .win6 | .win7 => 0

/-- The fields of a register that software sees: `regFields`, with the RSV events of the page left out. -/
def pageFields (k : PKind) (off : Nat) : Option (List RField) :=
  match regFields k off with
  | some fs =>
    if off = 0x18 || off = 0x1C || off = 0x20 || off = 0x24 then
      some (fs.filterMap (fun f => if f.lo = 0 then (if evtCount k = 0 then none else some { f with hi := evtCount k - 1 }) else some f))
    else some fs
  | none => none

/-- The bits of a field list whose access code satisfies `p`. -/
def accMask (p : Acc → Bool) (fs : List RField) : Word :=
  fs.foldl (fun a f => if p f.acc then a ||| BitVec.ofNat 32 (maskF f.hi f.lo) else a) 0#32

/-- The reset value that a field list gives (R11). -/
def fieldsReset (fs : List RField) : Nat := fs.foldl (fun a f => a + f.rst <<< f.lo) 0

/-- Whether a register is the _LO half of a counter pair: its next register is the _HI half with
WRAPPED in bit 31 and COUNT_HI in [15:0] (R42). -/
def isPairHi (fs : List RField) : Bool :=
  fs = [⟨31, 31, .w1c, 0⟩, ⟨15, 0, .ro, 0⟩]

/-- Whether a register is a 31-bit error count with WRAPPED in bit 31 (R37). -/
def isCount31 (fs : List RField) : Bool :=
  fs = [⟨31, 31, .w1c, 0⟩, ⟨30, 0, .ro, 0⟩]

end Sys2Proof.Machine
end

