-- ==== Sys2Proof/Machine/Pages.lean ====
section
/-! DEFINITION. The page map of R32 and R33, page identities and capabilities (R37), and the reset
value of every register. -/
namespace Sys2Proof.Machine

/-- A mapped page: its kind, base offset in BAR0, block type, block instance n and page number k
(R32). -/
structure Page where
  kind : PKind
  base : Nat
  typ : Nat
  n : Nat
  k : Nat
  deriving DecidableEq, Repr

/-- The BAR0 offset of field f's block (R32). -/
def fieldBase (f : Nat) : Nat := 0x1000000 + f * 0x40000

def pGlobal : Nat := 0
def pFuse : Nat := 0x1000
def pRun : Nat := 0x2000
def pMbox (k : Nat) : Nat := 0x10000 + k * 0x1000
def pClock : Nat := 0x20000
def pReset : Nat := 0x21000
def pTb : Nat := 0x22000
def pHost (h k : Nat) : Nat := 0x40000 + h * 0x10000 + k * 0x1000
def pNirdor (p k : Nat) : Nat := 0x80000 + p * 0x10000 + k * 0x1000
def pRing : Nat := 0x180000
def pField (f : Nat) : Nat := fieldBase f
def pRinger (f : Nat) : Nat := fieldBase f + 0x1000
def pChime (f k : Nat) : Nat := fieldBase f + 0x2000 + k * 0x1000
def pBob (f k : Nat) : Nat := fieldBase f + 0x10000 + k * 0x1000
def pReel (f k : Nat) : Nat := fieldBase f + 0x20000 + k * 0x1000
def pWin (f k : Nat) : Nat := fieldBase f + 0x30000 + k * 0x1000
def pPower (f : Nat) : Nat := fieldBase f + 0x38000

/-- The page of a field block at an offset within the block. -/
def fieldPage (f off : Nat) : Option Page :=
  let pg := off / 0x1000
  let mk := fun (kind : PKind) (typ first : Nat) =>
    some (⟨kind, fieldBase f + pg * 0x1000, typ, f, pg - first⟩ : Page)
  if pg = 0 then mk .fieldCtrl 0x20 0
  else if pg = 1 then mk .ringer 0x21 1
  else if pg = 2 then mk .chime0 0x22 2
  else if pg ≤ 6 then mk .chimeK 0x22 2
  else if pg = 7 then mk .chimeW 0x22 2
  else if pg = 0x10 then mk .bob0 0x23 0x10
  else if pg = 0x11 then mk .bob1 0x23 0x10
  else if pg = 0x12 then mk .bob2 0x23 0x10
  else if 0x20 ≤ pg ∧ pg < 0x30 then mk (.reel (pg = 0x20)) 0x24 0x20
  else if pg = 0x30 then mk .swSel 0x25 0x30
  else if 0x31 ≤ pg ∧ pg ≤ 0x34 then mk .ply 0x25 0x30
  else if pg = 0x35 then mk .win5 0x25 0x30
  else if pg = 0x36 then mk .win6 0x25 0x30
  else if pg = 0x37 then mk .win7 0x25 0x30
  else if pg = 0x38 then mk .power 0x26 0x38
  else none

/-- The mapped page that holds a BAR0 offset, if there is one (R32, R33). -/
def locate (off : Nat) : Option Page :=
  let pg := off / 0x1000
  if 0x1000000 ≤ off then
    if off < 0x2000000 then fieldPage ((off - 0x1000000) / 0x40000) (off % 0x40000) else none
  else if pg = 0 then some ⟨.global, pGlobal, 1, 0, 0⟩
  else if pg = 1 then some ⟨.fuseSheet, pFuse, 2, 0, 0⟩
  else if pg = 2 then some ⟨.run, pRun, 3, 0, 0⟩
  else if pg = 0x10 then some ⟨.mbox0, pMbox 0, 4, 0, 0⟩
  else if 0x11 ≤ pg ∧ pg ≤ 0x18 then some ⟨.mboxCh, pMbox (pg - 0x10), 4, 0, pg - 0x10⟩
  else if pg = 0x20 then some ⟨.clock, pClock, 5, 0, 0⟩
  else if pg = 0x21 then some ⟨.reset, pReset, 6, 0, 0⟩
  else if pg = 0x22 then some ⟨.timebase, pTb, 7, 0, 0⟩
  else if 0x40 ≤ pg ∧ pg < 0x80 then
    let h := (pg - 0x40) / 16
    let k := pg % 16
    let mk := fun (kind : PKind) => some (⟨kind, pHost h k, 0x10, h, k⟩ : Page)
    if k = 0 then mk .hpCtrl
    else if k = 1 ∨ k = 2 then mk .hpRing
    else if k = 3 then mk .hpMsix
    else if k = 4 then mk .hpPba
    else if 8 ≤ k then mk (.hostReel (k = 8))
    else none
  else if 0x80 ≤ pg ∧ pg < 0x180 then
    let p := (pg - 0x80) / 16
    let k := pg % 16
    if k = 0 then some ⟨.nirdor0, pNirdor p 0, 0x11, p, 0⟩
    else if k = 1 then some ⟨.nirdor1, pNirdor p 1, 0x11, p, 1⟩
    else none
  else if pg = 0x180 then some ⟨.edgeRing, pRing, 0x12, 0, 0⟩
  else none

/-- PAGE_CAPS.PRIV_ONLY (R37). -/
def PKind.privOnly : PKind → Bool
  | .fuseSheet | .clock | .reset | .edgeRing | .power | .nirdor0 | .nirdor1 => true
  | _ => false

/-- PAGE_CAPS.EA_ISSUER (R71, R297, R346, R375, R383). R375 states it and PROTECTED beside page 0 of a Nirdor port; page 1 reads them 0 (DESIGN
CHOICE, assumption log 9). -/
def PKind.eaIssuer : PKind → Bool
  | .fieldCtrl | .run | .nirdor0 | .hpCtrl | .hpRing | .reel _ | .hostReel _ => true
  | _ => false

/-- PAGE_CAPS.PROTECTED (R37, R287, R297, R346, R383): the page's block holds or moves B16 lines.
The FIELD_CTRL and CHIME_BANK page 0 error counters count, so they read 1 as well. -/
def PKind.protected_ : PKind → Bool
  | .fieldCtrl | .chime0 | .bob0 | .bob1 | .bob2 | .run | .nirdor0 | .hpCtrl | .hpRing | .reel _
  | .hostReel _ => true
  | _ => false

/-- The reset value of the register at offset `o` of a page (R11, R37). BLOCK_CAPS of bobbin page 0
depends on the grade and is formed when it is read (R287). PAGE_READY is OUT with REASON 0x1 until a block has been
tested (R435). -/
def pageReset (p : Page) (o : Nat) : Word :=
  if o = 0x00 then BitVec.ofNat 32 (p.typ * 65536 + p.n * 16 + p.k)
  else if o = 0x08 then BitVec.ofNat 32
    (p.kind.privOnly.toNat + 2 * p.kind.protected_.toNat + 4 * p.kind.eaIssuer.toNat)
  else if o = 0x0C then 0x100#32
  else if o = 0x30 then (if p.kind = .global then 1#32 else 0#32)
  else match regFields p.kind o with
    | some fs => BitVec.ofNat 32 (fieldsReset fs)
    | none => 0#32

/-- The reset value of the register at a BAR0 offset. -/
def resetOf (off : Nat) : Word :=
  match locate off with
  | some p => pageReset p (off - p.base)
  | none => 0#32

/-- The reset value of a spindle-window register, by page × 4096 + offset (R82 to R88). -/
def winReset (_ : Nat) : Word := 0#32

end Sys2Proof.Machine
end

