-- ==== Sys2Proof/Config.lean ====
section
/-! DEFINITION. What the spec leaves open: constants without a body. Nothing in Lean can evaluate
one of them, so every statement holds for every value of it (assumption log 2). -/
namespace Sys2Proof.Config

/-- FREE VALUE. The arbitrary content of R3 and R4: the `k`-th arbitrary bit pattern of width `w`.
State counts how many were drawn (`freeCtr`). -/
opaque arbitrary (w : Nat) (k : Nat) : BitVec w

/-- Whether an update image's or a boot image's ECDSA signature verifies (R498, R500). The spec
names the scheme and not the key. -/
opaque signatureValid (image : List (BitVec 8)) : Bool

/-- The vectors of the base probe set that the Belfry firmware carries (R474), ten lines each: the spec does
not print them. -/
opaque baseProbeSet : List (List (BitVec 256))

/-- The 12 bytes of DATA of a log entry (R492), from its code and the items that the table names for it: the spec
gives the items and not their places. -/
opaque logData (code : Nat) (items : List Nat) : BitVec 96

/-- Whether the run controller stamps with the South half's copy of the timebase (R492): the spec does not say
which. -/
opaque runStampSouth : Bool

/-- Whether the loss of a root clock is stamped with the South half's copy of the timebase (R408, R492): the spec does not say
which. -/
opaque lossStampSouth : Bool

/-- FREE VALUE. The `i`-th draw by which a North field's spare in-service equator crossings are dealt out to its columns (R225): the spec has
each of them serve one column, at most one a column, and does not say which. -/
opaque crossingDraw (field i : Nat) : Nat

/-- FREE VALUE. Which bits of the content that a line held before its unit went out of service still read, by line number (R3, R4): such a line
reads marked, and holds still because every write to it is discarded (R63, R280, R284, R285, R517). -/
opaque heldBits (line : Nat) : BitVec 256

end Sys2Proof.Config
end

