-- ==== Sys2Proof/Machine/Numbers.lean ====
section
/-! DEFINITION. The number formats of chapter "Number formats": format codes, exact values,
rounding, conversion, the stochastic-rounding generator and the long-accumulator grid. -/
namespace Sys2Proof.Machine

/-- The formats of R89. `rsv` stands for every reserved code. -/
inductive Fmt where
  | fp32 | fp19 | bf16 | fp16 | e4m3 | e5m2 | e3m2 | e2m3 | e2m1
  | int32 | int16 | int8 | uint8 | int4 | tern2 | skn5 | la128 | rsv
  deriving DecidableEq, Repr

/-- The format of a five-bit code (R89). -/
def Fmt.ofCode : Nat → Fmt
  | 0x00 => .fp32 | 0x01 => .fp19 | 0x02 => .bf16 | 0x03 => .fp16
  | 0x04 => .e4m3 | 0x05 => .e5m2 | 0x06 => .e3m2 | 0x07 => .e2m3 | 0x08 => .e2m1
  | 0x09 => .int32 | 0x0A => .int16 | 0x0B => .int8 | 0x0C => .uint8 | 0x0D => .int4
  | 0x0E => .tern2 | 0x0F => .skn5 | 0x10 => .la128 | _ => .rsv

/-- Container width in bits of one element (R91); a reserved code counts as 32 bits (R90). -/
def Fmt.cont : Fmt → Nat
  | .fp32 | .fp19 | .int32 | .rsv | .la128 => 32
  | .bf16 | .fp16 | .int16 => 16
  | .e4m3 | .e5m2 | .e3m2 | .e2m3 | .int8 | .uint8 | .skn5 => 8
  | .e2m1 | .int4 => 4
  | .tern2 => 2

/-- Elements per 32-bit lane (R89). -/
def Fmt.perLane (f : Fmt) : Nat := 32 / f.cont

/-- Elements per register (R91). -/
def Fmt.perReg (f : Fmt) : Nat := 16 * f.perLane

/-- The integer formats of R97. -/
def Fmt.isInt : Fmt → Bool
  | .int32 | .int16 | .int8 | .uint8 | .int4 => true
  | _ => false

/-- The formats to which R89 allows block scaling. -/
def Fmt.allowsBlk : Fmt → Bool
  | .e4m3 | .e5m2 | .e3m2 | .e2m3 | .e2m1 | .int8 => true
  | _ => false

/-- MAC rate per cycle of a format (R136; R90 for reserved codes). -/
def Fmt.macRate : Fmt → Nat
  | .fp32 | .int32 | .rsv | .la128 => 4
  | .fp19 | .int16 => 8
  | .bf16 | .fp16 => 16
  | .e4m3 | .e5m2 | .e3m2 | .e2m3 | .skn5 | .int8 | .uint8 => 32
  | .e2m1 | .int4 | .tern2 => 64

/-- The parameters of a floating-point format (R95): exponent bits, mantissa bits, bias, whether
it has infinities, the largest finite code, and the canonical NaN when it has one. -/
structure FParams where
  eb : Nat
  mb : Nat
  bias : Nat
  hasInf : Bool
  maxCode : Nat
  nan : Option Nat
  deriving DecidableEq, Repr

/-- R95. FP19 is described by its upper 19 bits; `store` and `load` shift it into its lane (R92). -/
def Fmt.fparams : Fmt → Option FParams
  | .fp32 => some ⟨8, 23, 127, true, 0x7F7FFFFF, some 0x7FC00000⟩
  | .fp19 => some ⟨8, 10, 127, true, 0x3FBFF, some 0x3FE00⟩
  | .bf16 => some ⟨8, 7, 127, true, 0x7F7F, some 0x7FC0⟩
  | .fp16 => some ⟨5, 10, 15, true, 0x7BFF, some 0x7E00⟩
  | .e4m3 => some ⟨4, 3, 7, false, 0x7E, some 0x7F⟩
  | .e5m2 => some ⟨5, 2, 15, true, 0x7B, some 0x7E⟩
  | .e3m2 => some ⟨3, 2, 3, false, 0x1F, none⟩
  | .e2m3 => some ⟨2, 3, 1, false, 0x1F, none⟩
  | .e2m1 => some ⟨2, 1, 1, false, 0x7, none⟩
  | _ => none

/-- The formats that FTZ_IN and FTZ_OUT flush (R114). -/
def Fmt.flushes : Fmt → Bool
  | .fp32 | .fp19 | .bf16 | .fp16 => true
  | _ => false

/-- An exact value: a NaN, an infinity, or ± m × 2^e (m = 0 is a signed zero). -/
inductive XVal where
  | nan
  | inf (neg : Bool)
  | fin (neg : Bool) (m : Nat) (e : Int)
  deriving DecidableEq, Repr

/-- The sticky flags an operation sets (R122). -/
structure Flags where
  invalid : Bool := false
  overflow : Bool := false
  underflow : Bool := false
  laRange : Bool := false
  ternRsv : Bool := false
  deriving DecidableEq, Repr

/-- All flags of two parts of one operation. -/
def Flags.or (a b : Flags) : Flags :=
  ⟨a.invalid || b.invalid, a.overflow || b.overflow, a.underflow || b.underflow,
   a.laRange || b.laRange, a.ternRsv || b.ternRsv⟩

/-- The flags as PLY_FLAGS bits [4:0] (R82). -/
def Flags.bits (f : Flags) : Nat :=
  f.invalid.toNat + 2 * f.overflow.toNat + 4 * f.underflow.toNat + 8 * f.laRange.toNat
    + 16 * f.ternRsv.toNat

def noFlags : Flags := {}
def flInvalid : Flags := { invalid := true }
def flOverflow : Flags := { overflow := true }

/-- Integer i as an exact value. -/
def XVal.ofInt (i : Int) : XVal := .fin (decide (i < 0)) i.natAbs 0

/-- 2^k for an integer exponent, as a pair numerator and denominator. -/
def pow2 (k : Int) : Nat × Nat := if 0 ≤ k then (2 ^ k.toNat, 1) else (1, 2 ^ (-k).toNat)

/-- Negation, exact. -/
def XVal.neg : XVal → XVal
  | .nan => .nan
  | .inf n => .inf (!n)
  | .fin n m e => .fin (!n) m e

def XVal.isZero : XVal → Bool
  | .fin _ 0 _ => true
  | _ => false

def XVal.isNan : XVal → Bool
  | .nan => true
  | _ => false

/-- The sign of a value. -/
def XVal.sign : XVal → Bool
  | .nan => false
  | .inf n => n
  | .fin n _ _ => n

/-- Product of two exact values; 0 × ∞ is the invalid product of R146. -/
def XVal.mul : XVal → XVal → XVal × Flags
  | .nan, _ => (.nan, noFlags)
  | _, .nan => (.nan, noFlags)
  | .inf a, .inf b => (.inf (a != b), noFlags)
  | .inf a, .fin b m _ => if m = 0 then (.nan, flInvalid) else (.inf (a != b), noFlags)
  | .fin a m _, .inf b => if m = 0 then (.nan, flInvalid) else (.inf (a != b), noFlags)
  | .fin a m e, .fin b m' e' => (.fin (a != b) (m * m') (e + e'), noFlags)

/-- Numerator of a finite value on the grid 2^e0, for e0 at most its exponent. -/
def XVal.intAt (e0 : Int) : XVal → Int
  | .fin n m e => let v := (m * 2 ^ (e - e0).toNat : Nat); if n then -(v : Int) else v
  | _ => 0

/-- The least exponent of a list of exact values, at most 0. -/
def minExp (l : List XVal) : Int :=
  l.foldl (fun a v => match v with | .fin _ _ e => min a e | _ => a) 0

/-- The exact sum of terms (R131): infinities of both signs are invalid (R146); the sign of an
exact zero follows the terms, with `rdn` the ply's mode being RDN. -/
def XVal.sum (rdn : Bool) (l : List XVal) : XVal × Flags :=
  let pos := l.any (fun v => v = .inf false)
  let negi := l.any (fun v => v = .inf true)
  if pos && negi then (.nan, flInvalid)
  else if l.any XVal.isNan then (.nan, noFlags)
  else if pos then (.inf false, noFlags)
  else if negi then (.inf true, noFlags)
  else
    let e0 := minExp l
    let t : Int := l.foldl (fun a v => a + v.intAt e0) 0
    if t = 0 then
      let zp := l.all (fun v => v.isZero && !v.sign)
      let zn := l.all (fun v => v.isZero && v.sign)
      (.fin (if zp then false else if zn then (!l.isEmpty) else rdn) 0 0, noFlags)
    else (.fin (decide (t < 0)) t.natAbs e0, noFlags)

/-- Compare two finite values or infinities: -1, 0 or 1; zeros are equal here. -/
def XVal.cmp : XVal → XVal → Int
  | .inf a, .inf b => if a = b then 0 else if a then -1 else 1
  | .inf a, _ => if a then -1 else 1
  | _, .inf b => if b then 1 else -1
  | a, b =>
    let e0 := minExp [a, b]
    let x := a.intAt e0; let y := b.intAt e0
    if x < y then -1 else if x = y then 0 else 1

/-- floor(log2) of (m × 2^e) / d for m, d > 0. -/
def ilog2 (m : Nat) (e : Int) (d : Nat) : Int :=
  let k : Int := (Nat.log2 m : Int) - (Nat.log2 d : Int) + e
  -- the exponent is k or k - 1
  let (pn, pd) := pow2 (e - k)
  if d * pd ≤ m * pn then k else k - 1

/-- The rounding modes of R106. -/
inductive RMode where
  | rne | rtz | rup | rdn | sr
  deriving DecidableEq, Repr

/-- PLY_MODES.ROUND (R82): 0b101 to 0b111 round as RNE. -/
def RMode.ofCode : Nat → RMode
  | 1 => .rtz | 2 => .rup | 3 => .rdn | 4 => .sr | _ => .rne

/-- A ply's rounding state: mode, flush modes (R114). -/
structure Modes where
  round : RMode := .rne
  ftzIn : Bool := false
  ftzOut : Bool := false
  deriving DecidableEq, Repr

/-- Whether a quotient Q with remainder R of divisor D rounds away from zero (R106, R111); `draw`
is the 24-bit draw of R112. -/
def roundUp (md : RMode) (neg : Bool) (draw Q R D : Nat) : Bool :=
  match md with
  | .rne => if 2 * R = D then Q % 2 = 1 else D < 2 * R
  | .rtz => false
  | .rup => !neg && R != 0
  | .rdn => neg && R != 0
  | .sr => 2 ^ 24 ≤ R * 2 ^ 24 / D + draw

/-- The overflow result of R110: whether it is an infinity. -/
def ovfInf (md : RMode) (neg : Bool) : Bool :=
  match md with
  | .rne | .sr => true
  | .rtz => false
  | .rup => !neg
  | .rdn => neg

/-- Round the exact non-zero magnitude (m × 2^e) / d of the given sign into a floating-point
format (R107 to R114). Answers the element code, FP19 as its upper 19 bits. -/
def roundFloatMag (p : FParams) (flush : Bool) (md : Modes) (draw : Nat) (neg : Bool)
    (m : Nat) (e : Int) (d : Nat) : Nat × Flags :=
  let signBit := neg.toNat * 2 ^ (p.eb + p.mb)
  let emin : Int := 1 - (p.bias : Int)
  let lg := ilog2 m e d
  let k := max lg emin
  let q : Int := k - p.mb
  let (pn, pd) := pow2 (e - q)
  let num := m * pn
  let den := d * pd
  let Q := num / den
  let R := num % den
  let Q' := if roundUp md.round neg draw Q R den then Q + 1 else Q
  let code := (k - emin).toNat * 2 ^ p.mb + Q'
  let tiny := decide (lg < emin)
  let uf : Flags := { underflow := tiny && R != 0 }
  if p.maxCode < code then
    let c := if p.hasInf then
        (if ovfInf md.round neg then p.maxCode + 1 else p.maxCode) else p.maxCode
    (signBit + c, { overflow := true })
  else if flush && md.ftzOut && code != 0 && decide (code < 2 ^ p.mb) then
    (signBit, { underflow := true })
  else (signBit + code, uf)

/-- Round onto the integers (R107): the signed integer result. -/
def roundIntMag (md : RMode) (draw : Nat) (neg : Bool) (m : Nat) (e : Int) (d : Nat) : Int :=
  let (pn, pd) := pow2 e
  let num := m * pn
  let den := d * pd
  let Q := num / den
  let R := num % den
  let Q' := if roundUp md neg draw Q R den then Q + 1 else Q
  if neg then -(Q' : Int) else Q'

/-- The range of an integer format (R97). -/
def Fmt.intRange : Fmt → Int × Int
  | .int32 => (-2147483648, 2147483647)
  | .int16 => (-32768, 32767)
  | .int8 => (-128, 127)
  | .uint8 => (0, 255)
  | .int4 => (-8, 7)
  | _ => (0, 0)

/-- Clamp into a range. -/
def clampI (r : Int × Int) (i : Int) : Int := if i < r.1 then r.1 else if r.2 < i then r.2 else i

/-- FP19 stands in bits [31:13] of its lane (R92). -/
def Fmt.toLane (f : Fmt) (code : Nat) : Nat := if f = .fp19 then code * 2 ^ 13 else code

/-- Write an infinity into a float format (R110). -/
def floatInf (f : Fmt) (p : FParams) (neg : Bool) : Nat × Flags :=
  let s := neg.toNat * 2 ^ (p.eb + p.mb)
  if p.hasInf then (f.toLane (s + p.maxCode + 1), noFlags) else (f.toLane (s + p.maxCode), flOverflow)

/-- Rule RF of R120, of the value v / d with d > 0. -/
def toFloat (f : Fmt) (p : FParams) (md : Modes) (draw : Nat) (v : XVal) (d : Nat) : Nat × Flags :=
  match v with
  | .nan => match p.nan with
    | some c => (f.toLane c, noFlags)
    | none => (0, flInvalid)
  | .inf n => floatInf f p n
  | .fin n m e =>
    if m = 0 then (f.toLane (n.toNat * 2 ^ (p.eb + p.mb)), noFlags)
    else
      let (c, fl) := roundFloatMag p f.flushes md draw n m e d
      (f.toLane c, fl)

/-- Rule RI of R120. -/
def toIntRI (f : Fmt) (md : RMode) (draw : Nat) (v : XVal) (d : Nat) : Nat × Flags :=
  let r := f.intRange
  match v with
  | .nan => (0, flInvalid)
  | .inf n => (wrapInt f.cont (if n then r.1 else r.2), flInvalid)
  | .fin n m e =>
    let i := roundIntMag md draw n m e d
    let c := clampI r i
    (wrapInt f.cont c, if c = i then noFlags else flInvalid)

/-- Rule II of R120: saturation sets OVERFLOW. -/
def toIntII (f : Fmt) (i : Int) : Nat × Flags :=
  let c := clampI f.intRange i
  (wrapInt f.cont c, if c = i then noFlags else flOverflow)

/-- The TERN2 code of -1, 0 or 1 (R98). -/
def ternCode (i : Int) : Nat := if i < 0 then 3 else if i = 0 then 0 else 1

/-- Rule RT of R120. -/
def toTern (md : RMode) (draw : Nat) (v : XVal) (d : Nat) : Nat × Flags :=
  match v with
  | .nan => (0, flInvalid)
  | .inf n => (if n then 3 else 1, noFlags)
  | .fin n m e => (ternCode (roundIntMag md draw n m e d), noFlags)

/-- Write the exact value v / d into a destination by the rule of its class (R119, R131), the
source taken as floating-point. A destination that no rule allows is written zero with INVALID
(R90, R129). -/
def writeVal (f : Fmt) (md : Modes) (draw : Nat) (v : XVal) (d : Nat := 1) : Nat × Flags :=
  match f.fparams with
  | some p => toFloat f p md draw v d
  | none =>
    if f.isInt then toIntRI f md.round draw v d
    else if f = .tern2 then toTern md.round draw v d
    else (0, flInvalid)

/-- The exact value of a float code (R94, R95), FP19 given by its upper 19 bits. -/
def floatVal (p : FParams) (code : Nat) : XVal :=
  let neg := code.testBit (p.eb + p.mb)
  let mag := code % 2 ^ (p.eb + p.mb)
  let ex := mag / 2 ^ p.mb
  let m := mag % 2 ^ p.mb
  let emin : Int := 1 - (p.bias : Int)
  if p.hasInf && ex = 2 ^ p.eb - 1 then (if m = 0 then .inf neg else .nan)
  else if !p.hasInf && p.nan.isSome && p.maxCode < mag then .nan
  else if ex = 0 then .fin neg m (emin - p.mb)
  else .fin neg (2 ^ p.mb + m) (emin + (ex : Int) - 1 - p.mb)

/-- The element value of raw container bits, without block scale (R91 to R98). SKN5, LA128 and
reserved codes read as zero here; their rules stand with the operand forms. -/
def elemVal (f : Fmt) (ftzIn : Bool) (raw : Nat) : XVal × Flags :=
  match f.fparams with
  | some p =>
    let code := match f with
      | .fp19 => (raw / 2 ^ 13) % 2 ^ 19
      | .e3m2 | .e2m3 => raw % 64
      | _ => raw % 2 ^ f.cont
    let v := floatVal p code
    let mag := code % 2 ^ (p.eb + p.mb)
    if ftzIn && f.flushes && decide (0 < mag) && decide (mag < 2 ^ p.mb) then (.fin v.sign 0 0, noFlags)
    else (v, noFlags)
  | none =>
    match f with
    | .int32 | .int16 | .int8 | .int4 => (.ofInt (sext f.cont raw), noFlags)
    | .uint8 => (.ofInt (raw % 256 : Nat), noFlags)
    | .tern2 => match raw % 4 with
      | 1 => (.ofInt 1, noFlags)
      | 3 => (.ofInt (-1), noFlags)
      | 2 => (.fin false 0 0, { ternRsv := true })
      | _ => (.fin false 0 0, noFlags)
    | _ => (.fin false 0 0, noFlags)

/-- The parameters of an E4M3 byte, for codebooks and FS16 scales. -/
def pE4M3 : FParams := ⟨4, 3, 7, false, 0x7E, some 0x7F⟩

/-- Block schemes (R89); 0b11 is treated as none (R90). -/
inductive Blk where
  | none | mx | fs16
  deriving DecidableEq, Repr

def Blk.ofCode : Nat → Blk
  | 1 => .mx | 2 => .fs16 | _ => .none

/-- Elements per block (R101). -/
def Blk.size : Blk → Nat
  | .none => 1 | .mx => 32 | .fs16 => 16

/-- The value of a scale byte (R102): NaN, or a magnitude. -/
def Blk.scaleVal (b : Blk) (byte : Nat) : XVal :=
  match b with
  | .none => .fin false 1 0
  | .mx => if byte % 256 = 0xFF then .nan else .fin false 1 ((byte % 256 : Nat) - 127)
  | .fs16 => floatVal pE4M3 (byte % 128)

/-- A scaled element (R103); an INT8 element under MX counts 2^-6 (R97). -/
def scaleElem (b : Blk) (f : Fmt) (v : XVal) (byte : Nat) : XVal × Flags :=
  let v := if b = .mx && f = .int8 then (v.mul (.fin false 1 (-6))).1 else v
  match b with
  | .none => (v, noFlags)
  | _ => match b.scaleVal byte with
    | .nan => (.nan, flInvalid)
    | sc => v.mul sc

/-- SKN5 encoding under a codebook of 32 bytes (R100) of the value v: index and flags. -/
def sknEncode (book : List Nat) (v : XVal) : Nat × Flags :=
  let ents := (book.zip (List.range 32)).map (fun (b, i) => (floatVal pE4M3 (b % 256), i))
  let good := ents.filter (fun x => !x.1.isNan)
  match v with
  | .nan => match ents.find? (fun x => x.1.isNan) with
    | some (_, i) => (i, noFlags)
    | none => (0, flInvalid)
  | .inf n =>
    match good with
    | [] => (0, flInvalid)
    | g :: gs => ((gs.foldl (fun (b : XVal × Nat) x =>
        let c := x.1.cmp b.1
        if (if n then c < 0 else 0 < c) then x else b) g).2, noFlags)
  | x =>
    match good with
    | [] => (0, flInvalid)
    | g :: gs =>
      let e0 := minExp (x :: good.map (·.1))
      let dist := fun (y : XVal) => (y.intAt e0 - x.intAt e0).natAbs
      ((gs.foldl (fun (b : XVal × Nat) y => if dist y.1 < dist b.1 then y else b) g).2, noFlags)

/-- The LA128 grid integer of an exact finite value under scale exponent sc, by RNE (R108, R116). -/
def laRound (sc : Int) (v : XVal) : Int :=
  match v with
  | .fin n m e => roundIntMag .rne 0 n m (e - sc) 1
  | _ => 0

/-- A contribution (R116): the integer to add and the flags. -/
def laContrib (sc : Int) (v : XVal) : Int × Flags :=
  match v with
  | .fin _ m _ =>
    let n := laRound sc v
    (n, { underflow := m != 0 && n = 0,
          laRange := decide (n < -(2 ^ 127 : Int)) || decide ((2 ^ 127 : Int) - 1 < n) })
  | _ => (0, flInvalid)

/-- N + n modulo 2^128 (R116). -/
def laAdd (N : BitVec 128) (n : Int) : BitVec 128 := N + BitVec.ofInt 128 n

/-- The exact value N × 2^sc of an accumulator (R115). -/
def laVal (N : BitVec 128) (sc : Int) : XVal := .fin (decide (N.toInt < 0)) N.toInt.natAbs sc

/-- Rule LF (R118): LA_RANGE stands in place of OVERFLOW and INVALID; a TERN2 clamp sets none. -/
def laConvert (f : Fmt) (md : Modes) (draw : Nat) (N : BitVec 128) (sc : Int) : Nat × Flags :=
  let (c, fl) := writeVal f md draw (laVal N sc)
  if f.fparams.isSome || f.isInt then
    (c, { fl with invalid := false, overflow := false, laRange := fl.overflow || fl.invalid })
  else (c, fl)

/-- Re-gridding by RNE to a new scale, saturating with LA_RANGE (R118, rule LR). -/
def laRegrid (N : BitVec 128) (sc sc' : Int) : BitVec 128 × Flags :=
  let n := laRound sc' (laVal N sc)
  let c := clampI (-(2 ^ 127 : Int), (2 ^ 127 : Int) - 1) n
  -- a value that vanishes on the new grid has been changed by rounding; R122 sets no flag for it
  (BitVec.ofInt 128 c, { laRange := c != n })

/-- The mixing function of R112. -/
def srMix (z : BitVec 64) : BitVec 64 :=
  let z := (z ^^^ (z >>> 30)) * 0xBF58476D1CE4E5B9#64
  let z := (z ^^^ (z >>> 27)) * 0x94D049BB133111EB#64
  z ^^^ (z >>> 31)

/-- What a firing action fixes for its draws (R112): seed, SID, ply, action, counters; a probe vector gives the
draw itself (R471). -/
structure SrCtx where
  seed : BitVec 64 := 0#64
  sid : Nat := 0
  ply : Nat := 0
  act : Nat := 0
  c : List Nat := [0, 0, 0, 0, 0, 0]
  fixed : Option Nat := none
  deriving DecidableEq, Repr

/-- The 24-bit draw D for lane L, element position E (R112). -/
def srDraw (x : SrCtx) (L E : Nat) : Nat :=
  let c := fun i => nth 0 x.c i
  let w0 := c 0 + c 1 * 2 ^ 16 + c 2 * 2 ^ 32 + c 3 * 2 ^ 48
  let w1 := c 4 + c 5 * 2 ^ 16 + x.sid * 2 ^ 32 + x.ply * 2 ^ 53 + x.act * 2 ^ 55
  let w2 := L + E * 2 ^ 4
  let h := srMix (x.seed ^^^ BitVec.ofNat 64 w0)
  let h := srMix (h ^^^ BitVec.ofNat 64 w1)
  let h := srMix (h ^^^ BitVec.ofNat 64 w2)
  x.fixed.getD (h >>> 40).toNat

/-- emax of R104. -/
def Fmt.emax : Fmt → Int
  | .e4m3 => 8 | .e5m2 => 15 | .e3m2 => 4 | .e2m3 | .e2m1 => 2 | _ => 0

/-- emaxval of R105, doubled so that 7.5 is an integer. -/
def Fmt.emaxval2 : Fmt → Nat
  | .e4m3 => 896 | .e5m2 => 114688 | .e3m2 => 56 | .e2m3 => 15 | .e2m1 => 12 | _ => 254

/-- The block scale of a block of values (steps 1 to 4 of R104, R105) and the flags of its rounding (R122). -/
def blockScale (b : Blk) (f : Fmt) (vals : List XVal) : Nat × Flags :=
  let fins := vals.filter (fun v => match v with | .fin _ _ _ => true | _ => false)
  if vals.any XVal.isNan then ((if b = .mx then 0xFF else 0x7F), noFlags)
  else
    let e0 := minExp fins
    let amax := fins.foldl (fun a v => max a (v.intAt e0).natAbs) 0
    if amax = 0 then (0, noFlags)
    else match b with
      | .mx =>
        let x := clampI (-127, 127) (ilog2 amax e0 1 - f.emax)
        ((x + 127).toNat, noFlags)
      | _ =>
        -- amax / emaxval, rounded upwards into E4M3; the flags are those of R122 for that rounding
        roundFloatMag pE4M3 false { round := .rup } 0 false (2 * amax) e0 f.emaxval2

/-- One element of a block-scaled result: the value over its scale, by step 5 of R104 and R105
(R142). Under a zero scale a NaN sets INVALID like any value that is not zero (DESIGN CHOICE, assumption log 13). -/
def writeScaled (b : Blk) (f : Fmt) (md : Modes) (draw : Nat) (v : XVal) (byte : Nat) : Nat × Flags :=
  match b.scaleVal byte with
  | .fin _ m e =>
    if m = 0 then (0, if v.isZero then noFlags else flInvalid)
    else
      -- v / (m × 2^e)
      let v' := match v with
        | .fin n vm ve => XVal.fin n vm (ve - e)
        | w => w
      if f = .int8 then
        let v'' := if b = .mx then (match v' with | .fin n vm ve => XVal.fin n vm (ve + 6) | w => w) else v'
        match v'' with
        | .nan => (0, flInvalid)
        | .inf n => (wrapInt 8 (if n then -128 else 127), flOverflow)
        | .fin n vm ve =>
          let i := roundIntMag md.round draw n vm ve m
          let c := clampI (-128, 127) i
          (wrapInt 8 c, if c = i then noFlags else flOverflow)
      else writeVal f md draw v' m
  | _ => (0, flInvalid)

end Sys2Proof.Machine
end

