-- ==== Sys2Proof/Machine/Fn.lean ====
section
/-! DEFINITION. The elementary functions of R140, correctly rounded. An irrational result is
enclosed between two dyadic numbers at rising precision until both round to one code with one set
of flags; a result that can be formed exactly (RCP, SQRT, RSQRT, whole powers of two) is. -/
namespace Sys2Proof.Machine

/-- floor(sqrt n), by `fuel` Newton steps from an upper start. -/
def isqrtGo : Nat → Nat → Nat → Nat
  | 0, _, x => x
  | k + 1, n, x => let y := (x + n / x) / 2; if y < x then isqrtGo k n y else x

def isqrt (n : Nat) : Nat :=
  if n = 0 then 0 else isqrtGo (Nat.log2 n + 8) n (2 ^ (Nat.log2 n / 2 + 1))

/-- Σ t^(2k+1) / (2k+1), k from `k`, with the sign alternating when `alt`; t and result × 2^P.
`tp` is the current odd power of t and `t2` its square. -/
def atSeries (P : Nat) (alt : Bool) (t2 : Nat) : Nat → Nat → Nat → Int → Int
  | 0, _, _, acc => acc
  | fuel + 1, k, tp, acc =>
    if tp = 0 then acc
    else
      let c : Int := (tp / (2 * k + 1) : Nat)
      atSeries P alt t2 fuel (k + 1) (tp * t2 / 2 ^ P) (if alt && k % 2 = 1 then acc - c else acc + c)

/-- ln 2 × 2^P, within a few thousand units. -/
def ln2Fix (P : Nat) : Nat :=
  (2 * atSeries P false (2 ^ P / 9) (P + 4) 0 (2 ^ P / 3) 0).toNat

/-- π × 2^P, within a few thousand units. -/
def piFix (P : Nat) : Nat :=
  (16 * atSeries P true (2 ^ P / 25) (P + 4) 0 (2 ^ P / 5) 0
    - 4 * atSeries P true (2 ^ P / 57121) (P + 4) 0 (2 ^ P / 239) 0).toNat

/-- Σ g^k / k! × 2^P for 0 ≤ g < 2^P. -/
def expSeries (P g : Nat) : Nat → Nat → Nat → Nat → Nat
  | 0, _, _, acc => acc
  | fuel + 1, k, t, acc =>
    if t = 0 then acc else
      let t' := t * g / 2 ^ P / (k + 1)
      expSeries P g fuel (k + 1) t' (acc + t')

/-- 2^y for y = Y × 2^-P: (A, n) with the result A × 2^(n - P), A in [2^P, 2^(P+1)]. -/
def exp2Fix (P : Nat) (Y : Int) : Nat × Int :=
  let n := Y / (2 ^ P : Nat)
  let f := (Y % (2 ^ P : Nat)).toNat
  let g := f * ln2Fix P / 2 ^ P
  (expSeries P g (P + 4) 0 (2 ^ P) (2 ^ P), n)

/-- Units of error that every fixed-point result below stays within. -/
def errUnits : Nat := 2 ^ 40

/-- The signed value m × 2^e as an integer × 2^-P, rounded down in magnitude. -/
def toFix (P : Nat) (neg : Bool) (m : Nat) (e : Int) : Int :=
  let (pn, pd) := pow2 (e + P)
  let v : Int := (m * pn / pd : Nat)
  if neg then -v else v

/-- e^x × 2^P for x = X × 2^-P ≤ 0. -/
def expNegFix (P : Nat) (X : Int) : Nat :=
  let (A, n) := exp2Fix P (X * (2 ^ P : Nat) / (ln2Fix P : Int))
  A / 2 ^ (-n).toNat

/-- The erf series Σ (-1)^n x^(2n+1) / (2^n n! (2n+1)) × 2^W, for x = X × 2^-W ≥ 0. -/
def erfSeries (W X2 : Nat) : Nat → Nat → Nat → Int → Int
  | 0, _, _, acc => acc
  | fuel + 1, n, t, acc =>
    if t = 0 then acc else
      let c : Int := (t / (2 * n + 1) : Nat)
      erfSeries W X2 fuel (n + 1) (t * X2 / 2 ^ W / (2 * (n + 1)))
        (if n % 2 = 1 then acc - c else acc + c)

/-- An enclosure of a positive or negative result: sign, lower and upper magnitude, exponent. -/
structure Encl where
  neg : Bool
  lo : Nat
  hi : Nat
  e : Int

/-- An enclosure around A × 2^e. -/
def enclAt (neg : Bool) (A : Nat) (e : Int) : Encl := ⟨neg, A - errUnits, A + errUnits, e⟩

/-- A value so close to its limit that only the side matters: exact stand-in. -/
def enclExact (neg : Bool) (m : Nat) (e : Int) : Encl := ⟨neg, m, m, e⟩

/-- An enclosure of function k (R140) at the finite non-zero value ±m × 2^e, at precision P. Only
the functions with irrational results stand here. -/
def fnEncl (P k : Nat) (neg : Bool) (m : Nat) (e : Int) : Encl :=
  let lg := ilog2 m e 1
  let X := toFix P neg m e
  let one := 2 ^ P
  let tiny := fun (n : Bool) => enclExact n 1 (-300)
  match k with
  | 0 => -- EXP2
    if 9 ≤ lg then enclExact false 1 (if neg then -300 else 300)
    else let (A, n) := exp2Fix P X; enclAt false A (n - P)
  | 1 => -- EXP
    if 8 ≤ lg then enclExact false 1 (if neg then -300 else 300)
    else let (A, n) := exp2Fix P (X * (one : Nat) / (ln2Fix P : Int)); enclAt false A (n - P)
  | 2 => -- LOG2 of a positive value that is no power of two
    let M := m * 2 ^ P / 2 ^ Nat.log2 m           -- in [1, 2) × 2^P
    let t := (M - one) * one / (M + one)
    let ln := 2 * atSeries P false (t * t / one) (P + 4) 0 t 0
    let L : Int := ln * (one : Nat) / (ln2Fix P : Int) + lg * (one : Nat)
    enclAt (decide (L < 0)) L.natAbs (-(P : Int))
  | 6 => -- SIGMOID
    if 8 ≤ lg then (if neg then tiny false else enclExact false (2 ^ 300 - 1) (-300))
    else
      let E := expNegFix P (-(X.natAbs : Int))
      enclAt false ((if neg then E else one) * one / (one + E)) (-(P : Int))
  | 7 => -- TANH
    if 7 ≤ lg then enclExact neg (2 ^ 300 - 1) (-300)
    else
      let E := expNegFix P (-(2 * X.natAbs : Int))
      enclAt neg ((one - E) * one / (one + E)) (-(P : Int))
  | 8 => -- SILU
    if 8 ≤ lg then (if neg then tiny true else enclExact false (m * (2 ^ 300 - 1)) (e - 300))
    else
      let E := expNegFix P (-(X.natAbs : Int))
      enclAt neg (X.natAbs * ((if neg then E else one) * one / (one + E)) / one) (-(P : Int))
  | _ => -- GELU
    if 5 ≤ lg then (if neg then tiny true else enclExact false (m * (2 ^ 300 - 1)) (e - 300))
    else
      let W := P + 1600
      let oneW := 2 ^ W
      let XW := (toFix W false m e).natAbs
      let S := erfSeries W (XW * XW / oneW) (4 * W) 0 XW 0
      let c := isqrt (2 * oneW * oneW / piFix W * oneW)       -- sqrt(2/π) × 2^W
      let er : Int := S * (c : Int) / (oneW : Nat)
      let f : Int := if neg then (oneW : Int) - er else (oneW : Int) + er
      enclAt neg ((XW : Int) * f / (oneW : Nat) / 2 / (2 ^ 1600 : Nat)).toNat (-(P : Int))

/-- Round an enclosure: some result when both ends agree. -/
def roundEncl (f : Fmt) (md : Modes) (draw : Nat) (x : Encl) : Option (Nat × Flags) :=
  if x.lo = 0 then none
  else
    let a := writeVal f md draw (.fin x.neg x.lo x.e)
    let b := writeVal f md draw (.fin x.neg x.hi x.e)
    if a.1 = b.1 ∧ a.2 = b.2 then some a else none

/-- The result at the first precision that decides it. The function value is irrational, so it lies on no boundary between two codes and
some precision does; the middle of the last enclosure stands for it beyond the list (assumption log 13). -/
def fnSearch (k : Nat) (f : Fmt) (md : Modes) (draw : Nat) (neg : Bool) (m : Nat) (e : Int) :
    List Nat → Nat × Flags
  | [] => let x := fnEncl 4096 k neg m e; writeVal f md draw (.fin x.neg ((x.lo + x.hi) / 2) x.e)
  | P :: Ps => match roundEncl f md draw (fnEncl P k neg m e) with
    | some r => r
    | none => fnSearch k f md draw neg m e Ps

/-- The exact power of two 2^k of a value that is a whole number, if it is one. -/
def wholeVal (neg : Bool) (m : Nat) (e : Int) : Option Int :=
  let v : Option Nat := if 0 ≤ e then some (m * 2 ^ e.toNat)
    else if m % 2 ^ (-e).toNat = 0 then some (m / 2 ^ (-e).toNat) else none
  v.map (fun n => if neg then -(n : Int) else n)

/-- The canonical NaN of a float format with INVALID or without (R140). -/
def fnNan (f : Fmt) (inv : Bool) : Nat × Flags :=
  ((writeVal f {} 0 .nan).1, if inv then flInvalid else noFlags)

/-- FN (R140): function number `k`, destination format `f`, one of FP32, FP19, BF16 and FP16. -/
def fnEval (k : Nat) (f : Fmt) (md : Modes) (draw : Nat) (v : XVal) : Nat × Flags :=
  let w := fun v => writeVal f md draw v
  if 10 ≤ k then fnNan f true
  else match v with
  | .nan => fnNan f false
  | .inf n =>
    match k with
    | 0 | 1 => w (if n then .fin false 0 0 else .inf false)
    | 2 | 4 => if n then fnNan f true else w (.inf false)
    | 3 => w (.fin n 0 0)
    | 5 => if n then fnNan f true else w (.fin false 0 0)
    | 6 => w (.fin false (if n then 0 else 1) 0)
    | 7 => w (.fin n 1 0)
    | _ => w (if n then .fin true 0 0 else .inf false)
  | .fin n 0 _ =>
    match k with
    | 0 | 1 => w (.fin false 1 0)
    | 2 => w (.inf true)
    | 3 | 5 => w (.inf n)
    | 6 => w (.fin false 1 (-1))
    | _ => w (.fin n 0 0)
  | .fin n m e =>
    match k with
    | 3 => writeVal f md draw (.fin n 1 (-e)) m
    | 4 =>
      if n then fnNan f true
      else
        let sh : Nat := 2 * 64 + (e % 2).toNat
        let r := m * 2 ^ sh
        let q := isqrt r
        w (.fin false (2 * q + (if q * q = r then 0 else 1)) ((e - sh) / 2 - 1))
    | 5 =>
      if n then fnNan f true
      else
        -- (2^(2s + r) / m) under the root, with -e - r even
        let r : Nat := (-e % 2).toNat
        let s : Nat := 96 + Nat.log2 m
        let q := isqrt (2 ^ (2 * s + r) / m)
        w (.fin false (2 * q + (if q * q * m = 2 ^ (2 * s + r) then 0 else 1)) ((-e - r) / 2 - s - 1))
    | _ =>
      let exact : Option XVal :=
        match k with
        | 0 => if decide (ilog2 m e 1 < 12) then (wholeVal n m e).map (fun i => .fin false 1 i) else none
        | 2 => if n then none else
            if m = 2 ^ Nat.log2 m then some (.ofInt (Nat.log2 m + e)) else none
        | _ => none
      if k = 2 && n then fnNan f true
      else match exact with
      | some x => w x
      | none => fnSearch k f md draw n m e [192, 512, 1024, 2048]

end Sys2Proof.Machine
end

