-- ==== Sys2Proof/Machine/VuOps.lean ====
section
/-! DEFINITION. The operations of the vector unit (chapter "Vector operations and rates") as
functions of their operand registers: operand forms (R126 to R129), results, flags, and the
timing figures of R133. Registers are numbers of 512 bits here. -/
namespace Sys2Proof.Machine

/-- The VU field of an action word (R124). -/
structure VuW where
  op : Nat
  dst : Nat
  srcA : Nat
  srcB : Nat
  srcC : Nat
  fA : Nat
  fB : Nat
  fD : Nat
  blkA : Nat
  blkB : Nat
  bcast : Bool
  blane : Nat
  lai : Nat
  neg : Bool
  sat : Bool
  part : Nat
  deriving DecidableEq, Repr

/-- R124. -/
def vuDecode (w : Nat) : VuW :=
  { op := fld w 63 58, dst := fld w 57 52, srcA := fld w 51 46, srcB := fld w 45 40,
    srcC := fld w 39 34, fA := fld w 33 29, fB := fld w 28 24, fD := fld w 23 19,
    blkA := fld w 18 17, blkB := fld w 16 15, bcast := w.testBit 14, blane := fld w 13 10,
    lai := fld w 9 8, neg := w.testBit 7, sat := w.testBit 6, part := fld w 5 2 }

/-- The OP codes that the table of R130 assigns. -/
def vuAssigned (op : Nat) : Bool :=
  [0x00, 0x01, 0x02, 0x03, 0x04, 0x05, 0x06, 0x08, 0x09, 0x0A, 0x0B, 0x0C, 0x0D, 0x0E, 0x10, 0x11,
   0x12, 0x13, 0x14, 0x15, 0x16, 0x20, 0x21, 0x22, 0x23, 0x24, 0x28, 0x29, 0x2A, 0x2B, 0x2C, 0x30,
   0x31, 0x32, 0x33].contains op

/-- The operations that take no side data from SRCC because SRCC is addend or mask (R129). -/
def vuNoSide (op : Nat) : Bool := op = 0x21 || op = 0x22 || op = 0x06

/-- What an operation reads as an element operand. -/
structure Opnd where
  reg : Nat
  fmt : Fmt
  blk : Blk
  side : Nat
  bc : Option Nat

/-- The format an operand field names for reading (R90, R129). -/
def readFmt (op code : Nat) : Fmt :=
  match Fmt.ofCode code with
  | .la128 => .rsv
  | .skn5 => if vuNoSide op then .rsv else .skn5
  | f => f

/-- The block scheme that applies (R90, R129). -/
def effBlk (op code : Nat) (f : Fmt) : Blk :=
  if vuNoSide op then .none else if f.allowsBlk then Blk.ofCode code else .none

/-- The destination format: LA128 is reserved outside LRD, and SKN5 in FMA, DOTF and SEL (R129). -/
def destFmt (op code : Nat) : Fmt :=
  match Fmt.ofCode code with
  | .la128 => .rsv
  | .skn5 => if vuNoSide op then .rsv else .skn5
  | f => f

/-- Half A or half B of the side-data register (R128). -/
def sideA (C : Nat) : Nat := C % 2 ^ 256
def sideB (C : Nat) : Nat := C / 2 ^ 256 % 2 ^ 256

/-- Element `idx` of an operand: its exact value and the flags of reading it (R91, R99, R103, R127). -/
def Opnd.elem (o : Opnd) (md : Modes) (idx : Nat) : XVal × Flags :=
  let e := o.fmt.perLane
  let idx' := match o.bc with
    | some l => l * e + idx % e
    | none => idx
  let raw := (o.reg >>> (idx' * o.fmt.cont)) % 2 ^ o.fmt.cont
  match o.fmt with
  | .rsv => (.fin false 0 0, flInvalid)
  | .skn5 => (floatVal pE4M3 (byteOf o.side (raw % 32)), noFlags)
  | f =>
    let (v, fl) := elemVal f md.ftzIn raw
    let (v', fl') := scaleElem o.blk f v (byteOf o.side (idx' / o.blk.size))
    (v', fl.or fl')

/-- The element index of position k when n positions are worked on (R126). -/
def partIdx (count n part k : Nat) : Nat :=
  if n < count then (part % (count / n)) * n + k else k

/-- What an accumulating operation does to the long accumulators when its result is written. -/
inductive LaEff where
  | none
  | add (i : Nat) (vals : List (BitVec 128))
  | clr (i : Nat)
  | scl (i : Nat) (sc : BitVec 8)
  | regrid (i : Nat) (sc : BitVec 8) (vals : List (BitVec 128))
  deriving DecidableEq, Repr

/-- The result of an operation: the bits it writes into DST, its flags, its accumulator effect, and the flags by lane, which a
capture shows (R464). -/
structure VuRes where
  mask : Nat := 0
  val : Nat := 0
  fl : Flags := {}
  la : LaEff := .none
  lf : List (Nat × Flags) := []
  deriving DecidableEq, Repr

def fullMask : Nat := 2 ^ 512 - 1

/-- The flags that lane l of a result sets. -/
def VuRes.laneFlags (r : VuRes) (l : Nat) : Flags := (r.lf.filter (fun e => e.1 = l)).foldl (fun a e => a.or e.2) noFlags

/-- A whole-register result. -/
def fullRes (v : Nat) (fl : Flags := {}) : VuRes :=
  { mask := fullMask, val := v % 2 ^ 512, fl := fl, lf := tab 16 (fun l => (l, fl)) }

/-- Add one written element of width `w` at bit `off`. -/
def VuRes.put (r : VuRes) (off w v : Nat) (fl : Flags) : VuRes :=
  { r with mask := r.mask ||| ((2 ^ w - 1) <<< off), val := r.val ||| ((v % 2 ^ w) <<< off),
           fl := r.fl.or fl, lf := (off / 32, fl) :: r.lf }

/-- Everything an operation reads besides its word. -/
structure VuIn where
  A : Nat
  B : Nat
  C : Nat
  la : Nat → Nat → BitVec 128       -- index, lane
  sc : Nat → Int                    -- scale exponent of an index
  md : Modes
  sr : SrCtx

/-- Write an exact value into FMT_D: by R132 when every format is an integer format, else by R131. -/
def vuFinish (allInt sat : Bool) (f : Fmt) (md : Modes) (draw : Nat) (v : XVal) : Nat × Flags :=
  if allInt then
    let i := v.intAt 0
    if sat then toIntII f i else (wrapInt f.cont i, noFlags)
  else writeVal f md draw v

/-- Conversion by R119 from a source of the given format and scheme. -/
def vuConvert (src : Fmt) (blk : Blk) (f : Fmt) (md : Modes) (draw : Nat) (v : XVal) : Nat × Flags :=
  if (src.isInt || src = .tern2) && blk = .none && f.isInt then toIntII f (v.intAt 0)
  else writeVal f md draw v

/-- The draw for the element of format f that starts at element index `idx` of DST (R112). -/
def drawAt (x : SrCtx) (f : Fmt) (idx : Nat) : Nat := srDraw x (idx / f.perLane) (idx % f.perLane)

/-- All ones at the width of a format's element, its ignored container bits zero (R92, R130). -/
def onesOf (f : Fmt) : Nat :=
  match f with
  | .fp19 => 0xFFFFE000
  | .e3m2 | .e2m3 => 0x3F
  | .skn5 => 0x1F
  | _ => 2 ^ f.cont - 1

/-- An element-wise operation over n positions: `g k` gives the value and flags of position k,
with its element index in DST. -/
def elementwise (f : Fmt) (n part : Nat) (g : Nat → Nat → Nat × Flags) : VuRes :=
  (List.range n).foldl (fun r k =>
    let idx := partIdx f.perReg n part k
    let (v, fl) := g k idx
    r.put (idx * f.cont) f.cont v fl) {}

/-- The larger (or smaller) of two values under R139. -/
def pickMax (mx : Bool) (a b : XVal) : XVal :=
  if a.isNan || b.isNan then .nan
  else
    let c := a.cmp b
    let aBigger := if c = 0 then (a.sign = false || b.sign) else 0 < c
    if aBigger = mx then a else b

/-- The value of the dot product of one lane: exact sum and flags; `terms` holds the products. -/
def dotLane (md : Modes) (a b : Opnd) (neg : Bool) (n part l : Nat) : List XVal × Flags :=
  let ea := a.fmt.perLane
  let eb := b.fmt.perLane
  (List.range n).foldl (fun (acc : List XVal × Flags) j =>
    let (x, f1) := a.elem md (l * ea + partIdx ea n part j)
    let (y, f2) := b.elem md (l * eb + partIdx eb n part j)
    let (p, f3) := x.mul y
    (acc.1 ++ [if neg then p.neg else p], acc.2.or (f1.or (f2.or f3)))) ([], noFlags)

/-- A sum of terms, the flags of its products included: an invalid product or infinities of both
signs set INVALID (R146). -/
def sumTerms (md : Modes) (t : List XVal) (fl : Flags) : XVal × Flags :=
  let (v, f) := XVal.sum (md.round = .rdn) t
  (v, fl.or f)

/-- One contribution as an addend modulo 2^128 (R116). -/
def contrib (sc : Int) (v : XVal) : BitVec 128 × Flags :=
  let (n, fl) := laContrib sc v
  (BitVec.ofInt 128 n, fl)

/-- The operand descriptors of a word. -/
def opndA (w : VuW) (x : VuIn) : Opnd :=
  let f := readFmt w.op w.fA
  ⟨x.A, f, effBlk w.op w.blkA f, sideA x.C, none⟩

/-- Operand B; BCAST is ignored by DOTX, QSC and the reductions (R127). UNPACK and the lookups take SRCB as a whole register (assumption
log 13). -/
def opndB (w : VuW) (x : VuIn) : Opnd :=
  let f := readFmt w.op w.fB
  ⟨x.B, f, effBlk w.op w.blkB f, sideB x.C,
    if w.bcast && w.op != 0x24 && w.op != 0x11 then some w.blane else none⟩

/-- SRCB as the bitwise operations and SHUF read it: lane BLANE in every lane under BCAST (R127). -/
def rawB (w : VuW) (x : VuIn) : Nat :=
  if w.bcast then
    let l := (x.B >>> (32 * w.blane)) % 2 ^ 32
    (List.range 16).foldl (fun a i => a + l <<< (32 * i)) 0
  else x.B

/-- ADD, SUB, MAX, MIN and MUL (R130, R131, R132, R139): two operands, element by element. -/
def vuBinary (w : VuW) (x : VuIn) (g : XVal → XVal → XVal × Flags) : VuRes :=
  let a := opndA w x
  let b := opndB w x
  let f := destFmt w.op w.fD
  let n := min (min a.fmt.perReg b.fmt.perReg) f.perReg
  let allInt := a.fmt.isInt && b.fmt.isInt && f.isInt && a.blk = .none && b.blk = .none
  elementwise f n w.part (fun k idx =>
    let (u, f1) := a.elem x.md (partIdx a.fmt.perReg n w.part k)
    let (v, f2) := b.elem x.md (partIdx b.fmt.perReg n w.part k)
    let (r, f3) := g u v
    let (c, f4) := vuFinish allInt w.sat f x.md (drawAt x.sr f idx) r
    (c, (f1.or f2).or (f3.or f4)))

/-- The comparisons (R130, R139): they set no flag but TERN_RSV and, for a reserved format, INVALID
(R146). -/
def vuCompare (w : VuW) (x : VuIn) (p : Int → Bool) : VuRes :=
  let a := opndA w x
  let b := opndB w x
  let f := destFmt w.op w.fD
  let n := min (min a.fmt.perReg b.fmt.perReg) f.perReg
  let keep := fun (o : Opnd) (fl : Flags) => if o.fmt = .rsv then fl else { fl with invalid := false }
  elementwise f n w.part (fun k _ =>
    let (u, f1) := a.elem x.md (partIdx a.fmt.perReg n w.part k)
    let (v, f2) := b.elem x.md (partIdx b.fmt.perReg n w.part k)
    let fl := (keep a f1).or (keep b f2)
    if f = .rsv || f = .skn5 then (0, fl.or flInvalid)
    else (if !u.isNan && !v.isNan && p (u.cmp v) then onesOf f else 0, fl))

/-- FMA (R130): C is SRCC read in FMT_D at the positions written. -/
def vuFma (w : VuW) (x : VuIn) : VuRes :=
  let a := opndA w x
  let b := opndB w x
  let f := destFmt w.op w.fD
  let c : Opnd := ⟨x.C, readFmt w.op w.fD, .none, 0, none⟩
  let n := min (min a.fmt.perReg b.fmt.perReg) f.perReg
  let allInt := a.fmt.isInt && b.fmt.isInt && f.isInt
  elementwise f n w.part (fun k idx =>
    let (u, f1) := a.elem x.md (partIdx a.fmt.perReg n w.part k)
    let (v, f2) := b.elem x.md (partIdx b.fmt.perReg n w.part k)
    let (p, f3) := u.mul v
    let (d, f4) := c.elem x.md idx
    let (r, f5) := sumTerms x.md [if w.neg then p.neg else p, d] f3
    let (e, f6) := vuFinish allInt w.sat f x.md (drawAt x.sr f idx) r
    (e, ((f1.or f2).or (f4.or f5)).or f6))

/-- DOTF (R137). -/
def vuDotf (w : VuW) (x : VuIn) : VuRes :=
  let a := opndA w x
  let b := opndB w x
  let f := destFmt w.op w.fD
  let n := min a.fmt.perLane b.fmt.perLane
  if f = .fp32 || f = .fp19 || f = .int32 then
    let c : Opnd := ⟨x.C, f, .none, 0, none⟩
    let allInt := a.fmt.isInt && b.fmt.isInt && f.isInt
    (List.range 16).foldl (fun r l =>
      let (t, f1) := dotLane x.md a b w.neg n w.part l
      let (d, f2) := c.elem x.md l
      let (v, f3) := sumTerms x.md (d :: t) f1
      let (e, f4) := vuFinish allInt w.sat f x.md (drawAt x.sr f l) v
      r.put (32 * l) 32 e ((f2.or f3).or f4)) {}
  else fullRes 0 flInvalid

/-- DOTL and DOTX (R137): the addends of every lane. -/
def vuDotLa (w : VuW) (x : VuIn) (cross : Bool) : VuRes :=
  let a := opndA w x
  let b := opndB w x
  let n := min a.fmt.perLane b.fmt.perLane
  let sc := x.sc w.lai
  let lanes := tab 16 (fun l => dotLane x.md a b w.neg n w.part l)
  if cross then
    let fl := lanes.foldl (fun f t => f.or t.2) noFlags
    let (v, f2) := XVal.sum false (lanes.flatMap (·.1))
    let (d, f3) := contrib sc v
    { fl := (fl.or f2).or f3, lf := [(w.blane, (fl.or f2).or f3)],
      la := .add w.lai (tab 16 (fun l => if l = w.blane then d else 0#128)) }
  else
    let rs := lanes.map (fun t =>
      let (v, f2) := XVal.sum false t.1
      let (d, f3) := contrib sc v
      (d, (t.2.or f2).or f3))
    { fl := rs.foldl (fun f t => f.or t.2) noFlags, lf := (List.range 16).zip (rs.map (·.2)), la := .add w.lai (rs.map (·.1)) }

/-- LADD (R145). -/
def vuLadd (w : VuW) (x : VuIn) : VuRes :=
  if Fmt.ofCode w.fA = .la128 then
    { la := .add w.lai (tab 16 (fun l =>
        if l / 4 = w.part % 4 then BitVec.ofNat 128 (x.A >>> (128 * (l % 4))) else 0#128)) }
  else
    let a := opndA w x
    let sc := x.sc w.lai
    let rs := tab 16 (fun l =>
      (List.range a.fmt.perLane).foldl (fun (acc : BitVec 128 × Flags) j =>
        let (v, f1) := a.elem x.md (l * a.fmt.perLane + j)
        let (d, f2) := contrib sc (if w.neg then v.neg else v)
        (acc.1 + d, acc.2.or (f1.or f2))) (0#128, noFlags))
    { fl := rs.foldl (fun f t => f.or t.2) noFlags, lf := (List.range 16).zip (rs.map (·.2)), la := .add w.lai (rs.map (·.1)) }

/-- LRD (R145). -/
def vuLrd (w : VuW) (x : VuIn) : VuRes :=
  match Fmt.ofCode w.fD with
  | .la128 =>
    fullRes ((List.range 4).foldl (fun a j => a + (x.la w.lai (4 * (w.part % 4) + j)).toNat <<< (128 * j)) 0)
  | f =>
    (List.range 16).foldl (fun r l =>
      let (c, fl) := laConvert f x.md (srDraw x.sr l 0) (x.la w.lai l) (x.sc w.lai)
      r.put (32 * l) f.cont c fl) {}

/-- The elements of A that a reduction reads, with their flags (R138). -/
def vuElems (w : VuW) (x : VuIn) : List XVal × Flags :=
  let a := opndA w x
  let l := tab a.fmt.perReg (fun i => a.elem x.md i)
  (l.map (·.1), l.foldl (fun f t => f.or t.2) noFlags)

/-- RSUM, RMAX and RMIN (R138): one element at position 0 of lane BLANE. -/
def vuReduce (w : VuW) (x : VuIn) : VuRes :=
  let a := opndA w x
  let f := destFmt w.op w.fD
  let (es, fl) := vuElems w x
  let draw := srDraw x.sr w.blane 0
  let (c, f2) :=
    if w.op = 0x30 then
      let (v, f1) := XVal.sum (x.md.round = .rdn) es
      let (c, f2) := vuFinish (a.fmt.isInt && a.blk = .none && f.isInt) w.sat f x.md draw v
      (c, f1.or f2)
    else
      match es with
      | [] => (0, noFlags)
      | e :: es => vuConvert a.fmt a.blk f x.md draw (es.foldl (pickMax (w.op = 0x31)) e)
  ({} : VuRes).put (32 * w.blane) f.cont c (fl.or f2)

/-- RARG (R138). -/
def vuArg (w : VuW) (x : VuIn) : VuRes :=
  let (es, fl) := vuElems w x
  let ix := es.zip (List.range es.length)
  let i := match ix.find? (fun t => t.1.isNan) with
    | some (_, i) => i
    | none => match ix with
      | [] => 0
      | e :: r => (r.foldl (fun (b : XVal × Nat) t => if 0 < t.1.cmp b.1 then t else b) e).2
  ({} : VuRes).put (32 * w.blane) 32 i fl

/-- CVT (R142). -/
def vuCvt (w : VuW) (x : VuIn) : VuRes :=
  let a := opndA w x
  let f := destFmt w.op w.fD
  let n := min a.fmt.perReg f.perReg
  let bk : Blk := if f.allowsBlk then Blk.ofCode w.blkB else .none
  let book := tab 32 (byteOf (sideB x.C))
  elementwise f n w.part (fun k idx =>
    let (v, f1) := a.elem x.md (partIdx a.fmt.perReg n w.part k)
    let draw := drawAt x.sr f idx
    let (c, f2) :=
      if f = .skn5 then sknEncode book v
      else if bk = .none then vuConvert a.fmt a.blk f x.md draw v
      else writeScaled bk f x.md draw v (byteOf (sideB x.C) (idx / bk.size))
    (c, f1.or f2))

/-- QSC (R143). -/
def vuQsc (w : VuW) (x : VuIn) : VuRes :=
  let f := destFmt w.op w.fD
  let bk := Blk.ofCode w.blkB
  if bk = .none || !f.allowsBlk then { fl := flInvalid }
  else
    let a := opndA w x
    let b : Opnd := { a with reg := x.B, side := sideB x.C }
    let m := a.fmt.perReg
    let es := tab m (fun i => a.elem x.md i) ++ tab m (fun i => b.elem x.md i)
    let fl := es.foldl (fun g t => g.or t.2) noFlags
    let r := (List.range (2 * m / bk.size)).foldl (fun (r : VuRes) j =>
      let (c, f2) := blockScale bk f (((es.drop (j * bk.size)).take bk.size).map (·.1))
      let byte := 4 * w.blane + w.part + j
      if byte < 64 then r.put (8 * byte) 8 c f2 else { r with fl := r.fl.or f2 }) {}
    { r with fl := r.fl.or fl }

/-- Bits per element of the dense form (R93), for the formats that have one. -/
def denseBits (f : Fmt) : Option Nat :=
  match f with
  | .e3m2 | .e2m3 => some 6
  | .skn5 => some 5
  | _ => none

/-- PACK (R144). -/
def vuPack (w : VuW) (x : VuIn) : VuRes :=
  match denseBits (Fmt.ofCode w.fA) with
  | none => fullRes 0 flInvalid
  | some b => fullRes ((List.range 64).foldl (fun a k => a + (byteOf x.A k % 2 ^ b) <<< (b * k)) 0)

/-- UNPACK (R144). -/
def vuUnpack (w : VuW) (x : VuIn) : VuRes :=
  match denseBits (Fmt.ofCode w.fD) with
  | none => fullRes 0 flInvalid
  | some b =>
    let seq := (x.A + x.B <<< 512) >>> (64 * w.part)
    fullRes ((List.range 64).foldl (fun a k => a + ((seq >>> (b * k)) % 2 ^ b) <<< (8 * k)) 0)

/-- LUTB and LUTW (R141): raw indices, no flag; the table is the whole of SRCB. -/
def vuLut (w : VuW) (x : VuIn) (bytes : Bool) : VuRes :=
  let f : Fmt := if Fmt.ofCode w.fA = .la128 then .rsv else Fmt.ofCode w.fA
  let d : Fmt := if bytes then .uint8 else .int32
  let n := min f.perReg d.perReg
  elementwise d n w.part (fun k _ =>
    let raw := (x.A >>> (partIdx f.perReg n w.part k * f.cont)) % 2 ^ f.cont
    (if bytes then byteOf x.B (raw % 64) else (x.B >>> (32 * (raw % 16))) % 2 ^ 32, noFlags))

/-- FN (R140): PART selects the function and BLANE stands in its place in R126. With a reserved PART and a forbidden FMT_D the result is zero, of
the two that R140 names (DESIGN CHOICE, assumption log 13). -/
def vuFn (w : VuW) (x : VuIn) : VuRes :=
  let a := opndA w x
  let f := destFmt w.op w.fD
  let n := min a.fmt.perReg f.perReg
  elementwise f n w.blane (fun k idx =>
    let (v, f1) := a.elem x.md (partIdx a.fmt.perReg n w.blane k)
    if !f.flushes then (0, f1.or flInvalid)
    else
      let (c, f2) := fnEval w.part f x.md (drawAt x.sr f idx) v
      (c, f1.or f2))

/-- SHUF (R130). -/
def vuShuf (w : VuW) (x : VuIn) : VuRes :=
  let b := rawB w x
  fullRes ((List.range 16).foldl (fun a l =>
    let i := (b >>> (32 * l)) % 16
    a + ((x.A >>> (32 * i)) % 2 ^ 32) <<< (32 * l)) 0)

/-- SEL (R130): raw elements of FMT_D width. -/
def vuSel (w : VuW) (x : VuIn) : VuRes :=
  let f := destFmt w.op w.fD
  let b := rawB w x
  if f = .rsv then fullRes 0 flInvalid
  else elementwise f f.perReg 0 (fun k _ =>
    let at_ := fun (r : Nat) => (r >>> (k * f.cont)) % 2 ^ f.cont
    (if at_ x.C != 0 then at_ x.A else at_ b, noFlags))

/-- LSCL and LRGD read bits [7:0] of lane 0 of A (R130). -/
def scaleArg (x : VuIn) : BitVec 8 := BitVec.ofNat 8 x.A

/-- LRGD (R145). -/
def vuLrgd (w : VuW) (x : VuIn) : VuRes :=
  let sc' := scaleArg x
  let rs := tab 16 (fun l => laRegrid (x.la w.lai l) (x.sc w.lai) sc'.toInt)
  { fl := rs.foldl (fun f t => f.or t.2) noFlags, lf := (List.range 16).zip (rs.map (·.2)),
    la := .regrid w.lai sc' (rs.map (·.1)) }

/-- The operation table of R130. -/
def vuCompute (w : VuW) (x : VuIn) : VuRes :=
  match w.op with
  | 0x00 => {}
  | 0x01 => fullRes x.A
  | 0x02 => fullRes (x.A &&& rawB w x)
  | 0x03 => fullRes (x.A ||| rawB w x)
  | 0x04 => fullRes (x.A ^^^ rawB w x)
  | 0x05 => vuShuf w x
  | 0x06 => vuSel w x
  | 0x08 => vuBinary w x (fun a b => XVal.sum (x.md.round = .rdn) [a, b])
  | 0x09 => vuBinary w x (fun a b => XVal.sum (x.md.round = .rdn) [a, b.neg])
  | 0x0A => vuBinary w x (fun a b => (pickMax true a b, noFlags))
  | 0x0B => vuBinary w x (fun a b => (pickMax false a b, noFlags))
  | 0x0C => vuCompare w x (fun c => c = 0)
  | 0x0D => vuCompare w x (fun c => c < 0)
  | 0x0E => vuCompare w x (fun c => c ≤ 0)
  | 0x10 => vuCvt w x
  | 0x11 => vuQsc w x
  | 0x12 => vuPack w x
  | 0x13 => vuUnpack w x
  | 0x14 => vuLut w x true
  | 0x15 => vuLut w x false
  | 0x16 => vuFn w x
  | 0x20 => vuBinary w x (fun a b => let (p, fl) := a.mul b; (if w.neg then p.neg else p, fl))
  | 0x21 => vuFma w x
  | 0x22 => vuDotf w x
  | 0x23 => vuDotLa w x false
  | 0x24 => vuDotLa w x true
  | 0x28 => vuLadd w x
  | 0x29 => { la := .clr w.lai }
  | 0x2A => { la := .scl w.lai (scaleArg x) }
  | 0x2B => vuLrgd w x
  | 0x2C => vuLrd w x
  | 0x30 | 0x31 | 0x32 => vuReduce w x
  | 0x33 => vuArg w x
  | _ => { fl := flInvalid }

/-- Whether the side data of SRCC is read (R128). -/
def vuSideRead (w : VuW) : Bool :=
  let blkd := fun (bc fc : Nat) => (Fmt.ofCode fc).allowsBlk && (bc = 1 || bc = 2)
  let a := blkd w.blkA w.fA || w.fA = 0x0F
  let b := blkd w.blkB w.fB || w.fB = 0x0F
  match w.op with
  | 0x10 => a || blkd w.blkB w.fD || w.fD = 0x0F
  | 0x11 | 0x16 | 0x28 | 0x30 | 0x31 | 0x32 | 0x33 => a
  | 0x08 | 0x09 | 0x0A | 0x0B | 0x0C | 0x0D | 0x0E | 0x20 | 0x23 | 0x24 => a || b
  | _ => false

/-- The registers an operation reads as operands (R130), without the partial-write rule of R58. -/
def vuReads (w : VuW) : List Nat :=
  let side := if vuSideRead w then [w.srcC] else []
  match w.op with
  | 0x01 | 0x12 | 0x2A | 0x2B => [w.srcA]
  | 0x02 | 0x03 | 0x04 | 0x05 | 0x13 | 0x14 | 0x15 => [w.srcA, w.srcB]
  | 0x06 | 0x21 | 0x22 => [w.srcA, w.srcB, w.srcC]
  | 0x08 | 0x09 | 0x0A | 0x0B | 0x0C | 0x0D | 0x0E | 0x11 | 0x20 | 0x23 | 0x24 => [w.srcA, w.srcB] ++ side
  | 0x10 | 0x16 | 0x28 | 0x30 | 0x31 | 0x32 | 0x33 => w.srcA :: side
  | _ => []

/-- Whether ADD, SUB, MAX or MIN belongs to class A (R130). -/
def vuClassA (w : VuW) : Bool :=
  let blkd := fun (bc fc : Nat) => (Fmt.ofCode fc).allowsBlk && (bc = 1 || bc = 2)
  (Fmt.ofCode w.fA).isInt && (Fmt.ofCode w.fB).isInt && (Fmt.ofCode w.fD).isInt
    && !blkd w.blkA w.fA && !blkd w.blkB w.fB

/-- k of R133. -/
def vuK (w : VuW) : Nat :=
  let a := readFmt w.op w.fA
  let b := readFmt w.op w.fB
  let R := min a.macRate b.macRate
  let P := match w.op with
    | 0x20 | 0x21 => min (min a.perReg b.perReg) (destFmt w.op w.fD).perReg
    | _ => 16 * min a.perLane b.perLane
  max 1 ((P + R - 1) / R)

/-- The latency L of R133: the result is written at the end of e + L. -/
def vuLatency (w : VuW) : Nat :=
  match w.op with
  | 0x01 | 0x02 | 0x03 | 0x04 | 0x05 | 0x06 | 0x0C | 0x0D | 0x0E => 1
  | 0x08 | 0x09 | 0x0A | 0x0B => if vuClassA w then 1 else 2
  | 0x10 | 0x11 | 0x12 | 0x13 | 0x14 | 0x15 => 2
  | 0x16 => 4
  | 0x20 | 0x21 | 0x22 | 0x24 => vuK w + 2
  | 0x23 => vuK w + 4
  | 0x28 => if w.fA = 0x10 then 1 else 4
  | 0x29 | 0x2A => 1
  | 0x2B => 4
  | 0x2C => 2
  | 0x30 | 0x31 | 0x32 | 0x33 => 3
  | _ => 0

/-- Whether an operation occupies the multiplier arrays (R133). -/
def vuUsesMul (op : Nat) : Bool := [0x20, 0x21, 0x22, 0x23, 0x24].contains op

/-- The LA adder cycles an operation needs, bit j for e + j (R133). -/
def vuLaCycles (w : VuW) : Nat :=
  match w.op with
  | 0x23 => 0xF <<< (vuK w + 1)
  | 0x24 => 1 <<< (vuK w + 2)
  | 0x28 => if w.fA = 0x10 then 2 else 0x1E
  | 0x29 | 0x2A => 2
  | 0x2B => 0x1E
  | _ => 0

/-- Whether an operation accumulates into LA[LAI] (R134). -/
def vuAccum (op : Nat) : Bool := op = 0x23 || op = 0x24 || op = 0x28

/-- Whether an operation is one on LA[LAI] (R134, R145): it accumulates, sets, re-grids or reads. -/
def vuOnLa (op : Nat) : Bool := [0x23, 0x24, 0x28, 0x29, 0x2A, 0x2B, 0x2C].contains op

/-- Whether an operation sets or re-grids LA[LAI] (R134). -/
def vuLaSets (op : Nat) : Bool := op = 0x29 || op = 0x2A || op = 0x2B

end Sys2Proof.Machine
end

