-- ==== Sys2Proof/Machine/State.lean ====
section
/-! DEFINITION. The state of the engine. -/
namespace Sys2Proof.Machine

/-- Where a message leaves the mesh: a spindle's LOCAL port, a bobbin controller or chime bank
behind a BANK port (R218), a reel's port router (R293; field reels 0 to 63, host reels 64 to 67), a
Nirdor port (R359) or a host port's window (R384). -/
inductive Dest where
  | spindle (sid : Nat)
  | bobbin (f : Nat)
  | chimes (f : Nat)
  | reel (r : Nat)
  | nirdor (p : Nat)
  | host (h : Nat)
  deriving DecidableEq, Repr

/-- A message in the mesh: the header fields of R181 and the payload lines. `waiting` says that the
EP refused it for now, so it stands at the LOCAL port (R188); `isAck` marks the write
acknowledgements of R271 and R304, `cut` a message of which only the first lines travel (R228, R460). `via` is the
gateway by which an answer of a BANK port leaves: the one through which its request arrived (R218, R230). -/
structure Msg where
  dst : Dest
  vc : Nat
  kind : Nat := 0
  req : Bool := false
  len : Nat := 0
  dest : SID := 0#21
  src : SID := 0#21
  tag : BitVec 16 := 0#16
  ea : EA := 0#48
  seq : Nat := 0
  arg : Word := 0#32
  payload : List Line := []
  isAck : Bool := false
  waiting : Bool := false
  cut : Bool := false
  via : Option Nat := none
  deriving DecidableEq, Repr

/-- A message started in the IP (R68): its header with the payload read so far, the payload lines
still to read, the next store line to read (none: the rest of the payload is `regs`), the tap to
raise when it has left, and whether its last line has been injected. -/
structure IpMsg where
  hdr : Msg
  todo : Nat
  store : Option Nat
  regs : List Line
  tap : Option Nat
  sent : Bool
  deriving DecidableEq, Repr

/-- A VU operation whose result is not yet written (R133): cycles left, the ply and action that
fired it, its OP, its destination, and what it will write; the lane that the shadow lane repeats (R75),
and the operand registers, word, modes and draw inputs that a capture needs (R464). -/
structure VuFly where
  left : Nat
  ply : Nat
  act : Nat
  op : Nat
  dst : Nat
  lai : Nat
  res : VuRes
  lane : Nat := 0
  word : Nat := 0
  a : Nat := 0
  b : Nat := 0
  c : Nat := 0
  modes : Nat := 0
  sr : SrCtx := {}
  deriving DecidableEq, Repr

/-- MP read data on its way to a register (R59). -/
structure MpFly where
  left : Nat
  reg : Nat
  val : BitVec 512
  deriving DecidableEq, Repr

/-- A ply load in progress (R174): ply, base line, number of image lines read, whether one was
uncorrectable, their data in order, and the words of the ply's page before the load, by offset (R4). -/
structure Loading where
  ply : Nat
  base : Nat
  next : Nat
  bad : Bool
  data : List (BitVec 256) := []
  old : SMap Word := []
  deriving DecidableEq, Repr

/-- What the EP formed and no guard sees yet (R73, R187, R210): a record of the ring of queue q of ply k at a ring
offset, a released sum, an increment of a tap, or handles published into a hank queue (R259). -/
inductive Formed where
  | record (k q off : Nat)
  | sum (k q : Nat)
  | tap (t n : Nat)
  | handle (k q n : Nat)
  deriving DecidableEq, Repr

/-- A queue message whose lines the EP still passes (R187): EP cycles left up to its last line, its number of lines, and its header. -/
structure EpArrival where
  due : Nat
  lines : Nat
  hdr : Msg
  deriving DecidableEq, Repr

/-- The skew watch of one queue (R202, R205): consecutive cycles in skew, whether STALL_SKEW was
raised in this spell, the deadlock count, whether DEADLOCK_SUSPECT was raised in this spell, and
whether the queue spills. -/
structure Skew where
  cyc : Nat := 0
  raised : Bool := false
  dead : Nat := 0
  deadRaised : Bool := false
  spilling : Bool := false
  deriving DecidableEq, Repr

/-- One spindle. `win` holds the registers of window pages 1 to 7 (R81) by page × 4096 + offset.
`cur` is the current action of each ply, `ran` whether the ply was active since its load (R163).
The bank masks serve R57: `ep` the banks of the lines that the EP has still to pass, one a cycle (R56, no bank for a line
that touches no store line), `busy` those used in the current cycle, `carry` and `carry2` those that MP writes hold in the next
two. `fresh` is what the EP formed, each with the EP cycles left before its cycle ends (R187), and `arriving` the messages whose lines it
still passes (R210); `ipDone` says that the IP has
injected its line of the cycle (R56, R68), and `was` is the ply that the sequencer evaluated last (R172). `loadWait` is the
waiting load request, as ply, base line, and whether it starts although its ply is active (R172, R176). `dead` says that a
parity failure stopped the spindle (R460); `holes` are queue places, as (queue, ring line), of messages
that were cut short and never become tokens (R228, R460); a place in a spill region counts from 4096. -/
structure Spindle where
  win : SMap Word := []
  vregs : SMap (BitVec 512) := []
  la : SMap (BitVec 128) := []
  ply : Nat := 0
  cur : SMap Nat := []
  ran : SMap Bool := []
  stall : Nat := 0
  hold : Bool := false
  ep : List (BitVec 8) := []
  busy : BitVec 8 := 0#8
  carry : BitVec 8 := 0#8
  carry2 : BitVec 8 := 0#8
  ip : List IpMsg := []
  vu : List VuFly := []
  mp : List MpFly := []
  mulBusy : Nat := 0
  laBusy : Nat := 0
  load : Option Loading := none
  loadWait : Option (Nat × Nat × Bool) := none
  skew : SMap Skew := []
  freed : SMap Nat := []
  seqs : SMap Nat := []
  wback : List Nat := []
  dead : Bool := false
  holes : List (Nat × Nat) := []
  fresh : List (Nat × Formed) := []
  arriving : List EpArrival := []
  ipDone : Bool := false
  was : Nat := 0
  deriving DecidableEq, Repr

/-- A call (R167): code, ply, wafer scope, argument and range. -/
structure Call where
  code : Nat := 0
  ply : Nat := 0
  wafer : Bool := false
  arg : Nat := 0
  xlo : Nat := 0
  xhi : Nat := 0
  ylo : Nat := 0
  yhi : Nat := 0
  deriving DecidableEq, Repr

/-- A field's ringer: calls waiting in its entries (R166), calls issued into the broadcast tree
and not yet in effect (R170), wafer calls that the call tree has still to deliver, each with
whether this ringer accepted it (R171), and the watch calls held at the chime bank (R249). -/
structure Ringer where
  calls : List Call := []
  issued : List Call := []
  tree : List (Call × Bool) := []
  held : List (Nat × Call) := []
  deriving DecidableEq, Repr

/-- A merge entry (R275): granule, first controller cycle after its window, requesters, and whether a
write or its sixteenth requester closed it. -/
structure Merge where
  granule : Nat
  ends : Nat
  count : Nat
  closed : Bool
  deriving DecidableEq, Repr

/-- An access that a bobbin controller accepted: granule, gateway (64 for a scrub access), and whether it wrote. -/
structure Taken where
  granule : Nat
  gate : Nat
  write : Bool
  deriving DecidableEq, Repr

/-- An arrival at a barrier chime (R241): count, round tag, source, and the gateway it came through. -/
structure Arrival where
  count : Nat
  tag : Nat
  src : SID
  gate : Nat
  deriving DecidableEq, Repr

/-- A bobbin controller's state beside its registers: merge entries, write-backs due, the
changeover (waiting, running), the dies serving the slots (slot s is served by die s where no pair is
listed), lost slots (R284), dies found bad, the last controller cycle in which accesses were accepted, with them (R291), and the lines, by offset / 32, that
were written since the changeover's copy began (R282). -/
structure Bobbin where
  merges : List Merge := []
  wback : List Nat := []
  coWaiting : Bool := false
  coCopying : Bool := false
  dies : SMap Nat := []
  lost : BitVec 16 := 0#16
  failedDie : BitVec 16 := 0#16
  now : Nat := 0
  taken : List Taken := []
  written : List Nat := []
  deriving DecidableEq, Repr

/-- One read request of a reel channel: its place among the reads of the start, address, lines, whether it was issued, and
the lines of it taken so far. -/
structure ReelRead where
  seq : Nat
  ea : EA
  n : Nat
  issued : Bool
  taken : List Line
  deriving DecidableEq, Repr

/-- A burst or queue message of a channel (R300): first destination, lines, and its reads. -/
structure Burst where
  dst : EA
  n : Nat
  reads : List ReelRead
  deriving DecidableEq, Repr

/-- The copy START_RUN makes of a claimed channel (R312): registers, indices, origins. -/
structure ChanCopy where
  regs : List (Nat × Word)
  idx : List Nat
  os : EA
  od : EA
  deriving DecidableEq, Repr

/-- A reel channel's state beside its registers (R298 to R305): indices and origins of the walk,
GEN, lines of the current start, messages sent in it (R182), reads formed in it, order of its start, bursts not yet injected,
writes without acknowledgement, the offset in the host window of the last line written there while a flush is owed, whether the flush is issued, which of
the five registers have been written since a DISABLE, and the run-start copy. -/
structure Chan where
  idx : List Nat := [0, 0, 0, 0, 0]
  os : EA := 0#48
  od : EA := 0#48
  gen : Nat := 0
  total : Nat := 0
  seq : Nat := 0
  rseq : Nat := 0
  order : Nat := 0
  bursts : List Burst := []
  acks : Nat := 0
  flush : Option Nat := none
  flushing : Bool := false
  inband : Bool := false
  wrote : BitVec 5 := 0#5
  copy : Option ChanCopy := none
  deriving DecidableEq, Repr

/-- A reel: the channel that took the last beat, the channel that injected last, and a running
number that orders starts (R308, R309). Before any grant channel 0 counts as granted last (DESIGN CHOICE, assumption log 19). -/
structure Reel where
  lastBeat : Nat := 0
  lastInj : Nat := 0
  starts : Nat := 0
  deriving DecidableEq, Repr

/-- Who issued a request: host port, and whether through function 1 (R45). -/
structure Req where
  port : Fin 4
  fn1 : Bool
  deriving DecidableEq, Repr

/-- A command taken from a ring (R388): issuer, its 64-byte entry, and whether its completion entry may still
be posted; a reset of the ring or of the port discards it (R387, R402). -/
structure Cmd where
  rq : Req
  entry : BitVec 512
  live : Bool := true
  deriving DecidableEq, Repr

/-- The stages of a stroke (R331, R520). -/
inductive Stage where
  | reserved
  | accepted
  | copyingIn
  | admitted
  | copyingOut
  | recorded
  | failed
  deriving DecidableEq, Repr

/-- A stroke: its ID, the command that issued it, its descriptors, the targets T_p of its ports
(R331), whether copies into the host window await their flush, whether a copy was lost on a link that is down (R228), so that its
acknowledgement never comes, the cause code of a FAULTED entry that waits for the OK entries of lower IDs (R336, R395), and whether an ENGINE
reset has ended its run, whose RUN page then counts it no more (R426). -/
structure Stroke where
  id : Word
  cmd : Cmd
  stage : Stage
  descs : List Line
  targets : List (Nat × Word)
  flush : Bool := false
  lost : Bool := false
  owed : Option Nat := none
  ended : Bool := false
  deriving DecidableEq, Repr

/-- A PORT record (R322). -/
structure PortRec where
  kind : Nat
  ea : EA
  limit : Nat
  done : Nat
  deriving DecidableEq, Repr

/-- An ENTRY record (R322). -/
structure EntryRec where
  admitChime : Nat
  add : Nat
  ports : Nat
  deriving DecidableEq, Repr

/-- A REGION record (R322). -/
structure RegionRec where
  ea : EA
  lines : Nat
  ro : Bool
  deriving DecidableEq, Repr

/-- A ply still to be loaded by LOAD_PEAL or FAULT_ACK (R324, R338). -/
structure PlyJob where
  sid : Nat
  ply : Nat
  base : Nat
  image : List Line
  deriving DecidableEq, Repr

/-- The run controller beside the RUN page: what the loaded peal claims, its records, the commands
taken and not yet judged (R318), those whose work continues, whether LOAD_PEAL has still to read its peal, the fields and bobbins that
the peal being loaded uses, its lines as read the second time, the strokes, those whose OK entry is posted and which RUN_NEXT_ID has not passed (R333), the fields and bobbins lost since LOAD_PEAL (R325), whether
FAULT_ACK has applied its steps, and the spindle whose fence waits for a stroke boundary (R469). -/
structure Run where
  taken : List Cmd := []
  loadCmd : Option Cmd := none
  stopCmd : Option Cmd := none
  ackCmds : List Cmd := []
  digests : List Cmd := []
  reading : Bool := false
  fields : Nat := 0
  bobbins : Nat := 0
  plies : List (Nat × Nat × Nat) := []          -- (SID, ply, base) of every PLY record
  starts : List (Nat × Nat) := []               -- (SID, START ply)
  chimes : List Nat := []
  watches : List (Nat × Nat) := []              -- (field, watch)
  chans : List (Nat × Nat) := []                -- (reel, channel)
  ports : SMap (Option PortRec) := []
  entries : SMap (Option EntryRec) := []
  regions : List RegionRec := []
  pealEa : EA := 0#48
  pealLines : Nat := 0
  peal : List Line := []
  jobs : List PlyJob := []
  expect : SMap Word := []
  strokes : List Stroke := []
  lostFields : BitVec 64 := 0#64
  lostBobbins : BitVec 64 := 0#64
  newFault : Bool := false
  posted : List (Word × Req) := []
  acking : Bool := false
  ackApplied : Bool := false
  fenceAt : Option Nat := none
  deriving DecidableEq, Repr

/-- A completion entry that is due (R394). -/
structure Cpl where
  opcode : Nat
  tag : Word
  status : Nat
  detail : Nat
  stroke : Word
  result : BitVec 128
  deriving DecidableEq, Repr

/-- One ring of a host port beside its page: entries due, the MSI-X table of its function (word
number to word) and pending bits, and whether a vector-0 message is still unsent (R397). -/
structure Ring where
  due : List Cpl := []
  msix : SMap Word := []
  pba : BitVec 128 := 0#128
  unsent : BitVec 128 := 0#128
  level : BitVec 128 := 0#128
  deriving DecidableEq, Repr

/-- A host port: its two rings (functions 0 and 1), whether PORT_RESET is raised once the link returns (R402), and the channels of its reel whose
reads and flushes were outstanding when they stopped, one entry each (R310, R401). -/
structure HostPort where
  ring0 : Ring := {}
  ring1 : Ring := {}
  resetPending : Bool := false
  lateReads : List Nat := []
  lateFlushes : List Nat := []
  deriving DecidableEq, Repr

/-- What the engine hands to the outside: the model's own record of bus and pin activity. -/
inductive Output where
  | bar0 (rq : Req) (off : Nat) (v : Word)
  | bar2 (rq : Req) (data : List Byte) (poisoned : Bool)
  | hostWrite (port : Nat) (fn1 : Bool) (addr : Nat) (data : List Byte) (poisoned relaxed : Bool)
  | hostRead (port : Nat) (fn1 : Bool) (addr len : Nat)
  | msix (port : Nat) (fn1 : Bool) (vector : Nat) (addr : Nat) (data : Word)
  | smbus (cmd : Nat) (data : List Byte)
  | frame (port seq : Nat) (bytes : List Byte)
  | frameAck (port seq : Nat)
  | frameNak (port seq : Nat)
  | network (session : Nat) (data : List Word)
  deriving DecidableEq, Repr

/-- One direction of a link (R226 to R229): corrected codewords in the running window of 2^20 cycles,
whether a refused codeword awaits its replay, the failed replays of it, and whether the count of this window has
requested its calibration slot. -/
structure LinkDir where
  corr : Nat := 0
  nak : Bool := false
  fails : Nat := 0
  asked : Bool := false
  deriving DecidableEq, Repr

/-- A link of the mesh (R211): its two directions, whether it is down (R228), and whether a
calibration slot runs on it (R229). -/
structure Link where
  fwd : LinkDir := {}
  bwd : LinkDir := {}
  down : Bool := false
  active : Bool := false
  deriving DecidableEq, Repr

/-- A router output (R214): consecutive cycles each VC has been ready with credit and not granted, the input whose message
holds the output on each VC, the input granted last on each VC, and the VC granted last. -/
structure RouterOut where
  waits : List Nat := [0, 0, 0, 0]
  held : List (Option Nat) := [none, none, none, none]
  last : List Nat := [0, 0, 0, 0]
  granted : Option Nat := none
  deriving DecidableEq, Repr

/-- The map of one field: the rows of the shift map (R443, R444) as physical row and the physical
columns of the logical columns (empty: no defect, every shift 0), gateways whose BANK port is out of
service (R219), the column count mapped (0: none), links requesting a calibration slot, and the cycle in which
the last slot started (R222). `skips` are the positions, as LOC, that routes cross by skip links (R444). `bad` are the defect
records of the units found bad (R441), `chimesGood` and `reelGood` the good chimes and reel channels, `fail` says that the
field is mapped out whole, and `gatesOut` that no map keeps a gateway in every take-over group of it (R446). -/
structure FieldMap where
  rows : List (Nat × List Nat) := []
  bankOut : List Nat := []
  c : Nat := 0
  calWait : List Nat := []
  lastSlot : Option Nat := none
  skips : List Nat := []
  bad : List Word := []
  chimesGood : Nat := 512
  reelGood : Nat := 16
  fail : Bool := false
  gatesOut : Bool := false
  deriving DecidableEq, Repr

/-- A Nirdor packet (R357): the header fields and the payload lines, whose marks are POISON. -/
structure Packet where
  destEngine : Nat := 0
  srcEngine : Nat := 0
  via : Nat := 0xFFFF
  flowSeq : Nat := 0
  orderKey : Nat := 0
  attempt : Nat := 0
  destPort : Nat := 0
  pkind : Nat := 0
  ordered : Bool := false
  phase : Bool := false
  ackReq : Bool := false
  ea : EA := 0#48
  tag : BitVec 16 := 0#16
  srcSid : SID := 0#21
  seq : Nat := 0
  arg : Word := 0#32
  hops : Nat := 0
  srcExport : Nat := 0
  srcPort : Nat := 0
  payload : List Line := []
  deriving DecidableEq, Repr

/-- A frame in the replay buffer (R354): its sequence number, the packet, consecutive resends. -/
structure Frame where
  seq : Nat
  pkt : Packet
  resent : Nat := 0
  deriving DecidableEq, Repr

/-- The send record of a packet that awaits its acknowledgement (R360, R365): export entry, flow
sequence number, the source's SID, TAG, SEQ and the cookie. -/
structure SendRec where
  exp : Nat
  flowSeq : Nat
  src : SID
  tag : BitVec 16
  seq : Nat
  cookie : EA
  deriving DecidableEq, Repr

/-- A Nirdor port beside its pages (R349 to R376): the words of its export entries (8 an entry) and
passed by NEXT_SEQ by import entry, held packets by import entry, packets waiting to be delivered into the
mesh, own and relayed packets waiting to be sent and whether a relayed one was sent last (R370), the replay buffer, frame sequence numbers sent and expected, whether a NAK
is outstanding, send records, busy ack slots, the NEXT_SEQ last reported by import entry, the last packet of
each flow (it tells where credits go), the import entries and export entries stalled by a loss, whether
frames wait in a lane-swap slot, and the lanes good in each direction (R350, R351). -/
structure Nirdor where
  exp : SMap Word := []
  imp : SMap Word := []
  arrived : List Packet := []
  seen : SMap (List Nat) := []
  held : List (Nat × Packet) := []
  rx : List Packet := []
  tx : List Packet := []
  transit : List Packet := []
  turn : Bool := false
  replay : List Frame := []
  txSeq : Nat := 0
  rxSeq : Nat := 0
  nak : Bool := false
  sends : List SendRec := []
  slots : List (Nat × Packet) := []
  reported : SMap Nat := []
  flows : SMap (Option Packet) := []
  impLost : List Nat := []
  expLost : List Nat := []
  swap : Bool := false
  rxGood : Nat := 0
  txGood : Nat := 0
  deriving DecidableEq, Repr

/-- A source of the root clock (R405). -/
inductive ClkSrc where
  | none
  | xo
  | port (p : Nat)
  deriving DecidableEq, Repr

/-- The root mux beside the CLOCK page (R405 to R411): the source that a switch in progress heads for, the source
it leaves and whether that one still runs (R409), whether the loops are closed on the new root and not yet locked, whether the mux has selected the
designated port since REF_SEL or REF_PORT was written, and whether it has fallen back from it to the XO since, a write of CLK_CTRL's REF_SEL and REF_PORT that waits for RELOCKED, and whether the designated port is
eligible. -/
structure Clocks where
  target : Option ClkSrc := none
  leaving : ClkSrc := .none
  oldRuns : Bool := false
  relocking : Bool := false
  hadPort : Bool := false
  fellBack : Bool := false
  waitSel : Option Word := none
  eligible : Bool := false
  deriving DecidableEq, Repr

/-- The progress of start-up (R430): input off, Belfry booting, Belfry up, transit rails on, fuse
sheet read, fields mapped. -/
inductive StartStep where
  | off
  | booting
  | belfryUp
  | transitOn
  | testing
  | done
  | recovery
  deriving DecidableEq, Repr

/-- The fuse sheet and what is set at manufacture (R439): grade, module identifier, anti-rollback
steps, records, and whether the check code verifies. -/
structure Fuses where
  grade : Nat := 1
  id : BitVec 64 := 0#64
  ar : Nat := 0
  records : List Word := []
  ok : Bool := true
  deriving DecidableEq, Repr

/-- A firmware image in a slot (R498): VERSION, SEC_VERSION, whether its signature verifies. -/
structure Firmware where
  version : Word := 0#32
  sec : Nat := 0
  signed : Bool := true
  deriving DecidableEq, Repr

/-- A probe vector (R473): its ten lines. -/
abbrev ProbeVec := List (BitVec 256)

/-- An installed probe set (R474). -/
structure ProbeSet where
  id : Nat
  version : Nat
  bytes : Nat
  vectors : List ProbeVec
  deriving DecidableEq, Repr

/-- The suspect policy (R470). -/
structure Policy where
  fence : Bool := false
  fenceAt : Bool := false
  hits : Nat := 3
  probeS : Nat := 60
  windowH : Nat := 24
  sweepMin : Nat := 1440
  sweepEn : Bool := false
  deriving DecidableEq, Repr

/-- The die policy (R490). -/
structure DiePolicy where
  autoCo : Bool := true
  corrLim : Nat := 1000000
  uncorrLim : Nat := 4
  deriving DecidableEq, Repr

/-- The suspect record of a physical spindle (R467): state (0 CLEAR, 1 SUSPECT, 2 FENCED) and hits as
(timebase, probe). -/
structure Suspect where
  state : Nat := 0
  hits : List (Nat × Bool) := []
  deriving DecidableEq, Repr

/-- A log entry (R492). -/
structure LogEntry where
  data : BitVec 96 := 0#96
  seq : Word
  code : Nat
  typ : Nat := 0
  inst : Nat := 0
  severity : Nat
  origin : Nat := 2
  tb : Nat
  deriving DecidableEq, Repr

/-- An open update session (R499): number, image length, bytes staged so far. -/
structure Session where
  num : Nat
  len : Nat
  bytes : SMap Nat := []
  deriving DecidableEq, Repr

/-- The Belfry beside its pages (R480 to R501). The first group is in flash and survives every reset:
slots A and B, the preferred and the trial slot, the slot whose image awaits activation, the
soft map (and the records that a full one did not take, lost at a COLD reset, R440), logs, policies, suspect records by physical spindle, captures with the number of the
oldest, the trip record, the management credential, the installed probe sets. Then follow the RAM log,
the open session and number of the last, messages being handled by channel, consecutive samples that met each
condition (R485), failed sensors, switch-off times by field (R488), fields held (R488, R497), those that a fourth switch-off holds (R488), fields
off for heat and fields on their way back (R488), the counts of each slot over the last 24 h, as timebase and the words of SLOT_s_CORR and
SLOT_s_UNCORR (R490), the page events found by the last poll, hourly counts, the capture buffers of the
fields (R463), hits that wait to be judged, as physical spindle, probe and timebase, and a reset to request
after a response, as class, source and field. -/
structure Belfry where
  slotA : Option Firmware := some {}
  slotB : Option Firmware := none
  preferred : Bool := false
  trial : Option Bool := none
  pending : Option Bool := none
  softMap : List (Word × Word) := []
  unrecorded : List Word := []
  flashLog : List LogEntry := []
  policy : Policy := {}
  die : DiePolicy := {}
  suspects : SMap Suspect := []
  captures : List (List (BitVec 256)) := []
  firstCapture : Nat := 0
  tripRecord : Bool := false
  credential : Option (List Byte) := none
  probes : List ProbeSet := []
  boots : Nat := 0
  ramLog : List LogEntry := []
  seq : Word := 0#32
  session : Option Session := none
  sessions : Nat := 0
  busy : List (Nat × List Word) := []
  counts : SMap Nat := []
  failed : List Nat := []
  hotTimes : SMap (List Nat) := []
  held : List Nat := []
  heatHeld : List Nat := []
  hot : List Nat := []
  back : List Nat := []
  slotHist : SMap (List (Nat × Word × Word)) := []
  polled : SMap Word := []
  hourly : SMap Nat := []
  buffers : SMap (Option (List (BitVec 256))) := []
  hitsDue : List (Nat × Bool × Nat) := []
  resetAfter : Option (Nat × Nat × Nat) := none
  deriving DecidableEq, Repr

/-- Power of a field's domains beside the POWER_THERMAL page (R22, R508): compute and memory switches open, the fuse tripped, and whether the
memory domain has been off since the bobbin's last test (R285, R437). -/
structure FieldPow where
  computeOff : Bool := false
  memOff : Bool := false
  fuse : Bool := false
  memWasOff : Bool := false
  deriving DecidableEq, Repr

/-- The state of one Furotis W1 engine, and the queue of commands that wait. `regs` holds the registers of
the BAR0 pages by absolute offset, `latches` the eight _HI latches of each counter pair (R43) by
offset × 8 + requester, `mem` the bytes of bobbin and store lines by engine address, `marks` the marked
lines by address / 32, `arrivals` the arrivals kept for a barrier chime in a cycle that is not over (R241), by engine chime, `straps` the SMBus header's address straps, 1 where grounded (R504). Spindle-window
pages 1 to 7 stand in `spindles`, export and import entries in `nirdors`, MSI-X pages in `hosts`. -/
@[ext]
structure State where
  regs : SMap Word
  latches : SMap (Option Word)
  mem : List Host.Cell
  marks : SMap Bool
  spindles : SMap Spindle
  mesh : List Msg
  links : SMap Link
  outputs : SMap RouterOut
  maps : SMap FieldMap
  ringers : SMap Ringer
  arrivals : List (Nat × List Arrival)
  bobbins : SMap Bobbin
  chans : SMap Chan
  reels : SMap Reel
  run : Run
  hosts : SMap HostPort
  nirdors : SMap Nirdor
  via : SMap Word
  relay : SMap Word
  clocks : Clocks
  rstSource : Nat
  start : StartStep
  fuses : Fuses
  belfry : Belfry
  power : SMap FieldPow
  inputOn : Bool
  straps : BitVec 3
  out : List Output
  freeCtr : Nat
  pending : List Instr
  deriving DecidableEq, Repr

/-- The state right after a COLD reset at power-on (R424, R425): every register at its reset value (R11),
every page OUT, memory zero (R286), nothing waiting. The fuse sheet and the flash hold what a
W1-X without a defect left manufacture with (DESIGN CHOICE, assumption log 3). -/
def State.reset : State where
  regs := [(0x21044, 0x80000000#32)]                      -- RST_STATUS: the COLD reset is BUSY (R427, R428)
  latches := []
  mem := []
  marks := []
  spindles := []
  mesh := []
  links := []
  outputs := []
  maps := []
  ringers := []
  arrivals := []
  bobbins := []
  chans := []
  reels := []
  run := {}
  hosts := []
  nirdors := []
  via := []
  relay := []
  clocks := {}
  rstSource := 0
  start := .booting
  fuses := {}
  belfry := {}
  power := []
  inputOn := true
  straps := 0#3
  out := []
  freeCtr := 0
  pending := []

/-- Why the model would stop. No command of this block stops: a command whose happening is not due
changes nothing, and an access to an unmapped address is answered as R26 and R33 say, so nothing raises
this. It is safe: a stop proves nothing about what the hardware does next. -/
inductive Fault where
  | stuck
  deriving DecidableEq, Repr

/-- A command that the model does not have. The only constructor names it by its mnemonic; every
command of the table has its meaning, so nothing raises it. Safe. -/
inductive Refusal where
  | notModelled (mnemonic : String)
  deriving DecidableEq, Repr

end Sys2Proof.Machine
end

