-- ==== Sys2Proof/Machine/Ops.lean ====
section
/-! DEFINITION. The shared operations: registers, events and counters (chapter "Register pages and
the two views"), free values, memory lines, engine addresses, messages, the parts of State by key,
and the run fault (R336). -/
namespace Sys2Proof.Machine

/-- The outcomes of a command. -/
abbrev Out := Host.Outcome State Fault Refusal

namespace State

/-! ### Registers -/

/-- The register at a BAR0 offset. -/
def reg (s : State) (off : Nat) : Word := SMap.get resetOf s.regs off

/-- Store a register. -/
def setReg (s : State) (off : Nat) (v : Word) : State := { s with regs := SMap.set resetOf s.regs off v }

/-- Field [hi:lo] of a register. -/
def fget (s : State) (off hi lo : Nat) : Nat := getF (s.reg off) hi lo

/-- Store field [hi:lo] of a register. -/
def fset (s : State) (off hi lo v : Nat) : State := s.setReg off (putF (s.reg off) hi lo v)

/-- Bit i of a register. -/
def bget (s : State) (off i : Nat) : Bool := getB (s.reg off) i

/-- Every register of the page at `base` takes its reset value (R11); registers for which `keep`
holds are left out. -/
def resetPage (s : State) (base : Nat) (keep : Nat → Bool := fun _ => false) : State :=
  { s with regs := s.regs.filter (fun e => !(decide (base ≤ e.1) && decide (e.1 < base + 0x1000)) || keep (e.1 - base)) }

/-! ### Free values -/

/-- Draw an arbitrary value (R3). -/
def free (s : State) (w : Nat) : BitVec w × State :=
  (Config.arbitrary w s.freeCtr, { s with freeCtr := s.freeCtr + 1 })

/-- Arbitrary content of a region that held `old` and was to hold `new` (R4): each bit is one of the two. -/
def mix {w : Nat} (s : State) (old new : BitVec w) : BitVec w × State :=
  let (m, s) := s.free w
  ((old &&& ~~~m) ||| (new &&& m), s)

/-- n marked lines of arbitrary data. -/
def freeLines (s : State) : Nat → List Line × State
  | 0 => ([], s)
  | n + 1 =>
    let (d, s) := s.free 256
    let (ls, s) := s.freeLines n
    (⟨d, true⟩ :: ls, s)

/-- Record something handed to the outside. -/
def emit (s : State) (o : Output) : State := { s with out := s.out ++ [o] }

/-! ### Events and counters -/

/-- An occurrence of event `bit` of the page at `pg` (R39). -/
def raise (s : State) (pg bit : Nat) : State :=
  let s' := if s.bget (pg + 0x18) bit then s.setReg (pg + 0x1C) (putB (s.reg (pg + 0x1C)) bit true) else s
  s'.setReg (pg + 0x18) (putB (s'.reg (pg + 0x18)) bit true)

/-- Raise an event when a condition holds. -/
def raiseIf (s : State) (b : Bool) (pg bit : Nat) : State := if b then s.raise pg bit else s

/-- Add n to the 48-bit counter whose _LO stands at `lo`, in the page at `pg` (R42, R44). -/
def bump48 (s : State) (pg lo n : Nat) : State :=
  let cur := (s.reg lo).toNat + 2 ^ 32 * s.fget (lo + 4) 15 0
  let t := cur + n
  let s' := (s.setReg lo (BitVec.ofNat 32 t)).setReg (lo + 4) (putF (s.reg (lo + 4)) 15 0 (t / 2 ^ 32))
  if 2 ^ 48 ≤ t then (s'.setReg (lo + 4) (putB (s'.reg (lo + 4)) 31 true)).raise pg 31 else s'

/-- Add n to the 31-bit count at `off`, in the page at `pg` (R37, R44). -/
def bump31 (s : State) (pg off n : Nat) : State :=
  let t := s.fget off 30 0 + n
  let s' := s.setReg off (putF (s.reg off) 30 0 t)
  if 2 ^ 31 ≤ t then (s'.setReg off (putB (s'.reg off) 31 true)).raise pg 31 else s'

/-- One more corrected error of a page (R37). -/
def errCorr (s : State) (pg : Nat) : State := (s.bump31 pg (pg + 0x28) 1).raise pg 30

/-- One more uncorrectable error of a page (R37). -/
def errUncorr (s : State) (pg : Nat) : State := (s.bump31 pg (pg + 0x2C) 1).raise pg 29

/-- An access to an unmapped EA issued by the block of a page (R26). -/
def eaUnmapped (s : State) (pg : Nat) : State := (s.errUncorr pg).raise pg 28

/-- PAGE_READY.STATE of a page: 0 OUT, 1 TESTING, 2 DEGRADED, 3 READY (R37). -/
def readyState (s : State) (pg : Nat) : Nat := s.fget (pg + 0xC) 1 0
def readyReason (s : State) (pg : Nat) : Nat := s.fget (pg + 0xC) 11 8

/-- Set STATE and REASON of a page; a change of STATE raises READY_CHANGE (R37). -/
def setReady (s : State) (pg st reason : Nat) : State :=
  let old := s.readyState pg
  let s' := (s.fset (pg + 0xC) 1 0 st).fset (pg + 0xC) 11 8 reason
  s'.raiseIf (old != st) pg 27

/-! ### Parts of State by key -/

def spin (s : State) (sid : Nat) : Spindle := SMap.get (fun _ => {}) s.spindles sid
def setSpin (s : State) (sid : Nat) (p : Spindle) : State :=
  { s with spindles := SMap.set (fun _ => {}) s.spindles sid p }
def modSpin (s : State) (sid : Nat) (f : Spindle → Spindle) : State := s.setSpin sid (f (s.spin sid))
def ringer (s : State) (f : Nat) : Ringer := SMap.get (fun _ => {}) s.ringers f
def setRinger (s : State) (f : Nat) (r : Ringer) : State :=
  { s with ringers := SMap.set (fun _ => {}) s.ringers f r }
def bobbin (s : State) (f : Nat) : Bobbin := SMap.get (fun _ => {}) s.bobbins f
def setBobbin (s : State) (f : Nat) (b : Bobbin) : State :=
  { s with bobbins := SMap.set (fun _ => {}) s.bobbins f b }
/-- Channel c of reel r (field reels 0 to 63, host reels 64 to 67). -/
def chan (s : State) (r c : Nat) : Chan := SMap.get (fun _ => {}) s.chans (r * 32 + c)
def setChan (s : State) (r c : Nat) (x : Chan) : State :=
  { s with chans := SMap.set (fun _ => {}) s.chans (r * 32 + c) x }
def reel (s : State) (r : Nat) : Reel := SMap.get (fun _ => {}) s.reels r
def setReel (s : State) (r : Nat) (x : Reel) : State :=
  { s with reels := SMap.set (fun _ => {}) s.reels r x }
def host (s : State) (h : Nat) : HostPort := SMap.get (fun _ => {}) s.hosts h
def setHost (s : State) (h : Nat) (x : HostPort) : State :=
  { s with hosts := SMap.set (fun _ => {}) s.hosts h x }
def pow (s : State) (f : Nat) : FieldPow := SMap.get (fun _ => {}) s.power f
def setPow (s : State) (f : Nat) (x : FieldPow) : State :=
  { s with power := SMap.set (fun _ => {}) s.power f x }

def link (s : State) (k : Nat) : Link := SMap.get (fun _ => {}) s.links k
def setLink (s : State) (k : Nat) (l : Link) : State := { s with links := SMap.set (fun _ => {}) s.links k l }
def fmap (s : State) (f : Nat) : FieldMap := SMap.get (fun _ => {}) s.maps f
def setFmap (s : State) (f : Nat) (m : FieldMap) : State := { s with maps := SMap.set (fun _ => {}) s.maps f m }
def nir (s : State) (p : Nat) : Nirdor := SMap.get (fun _ => {}) s.nirdors p
def setNir (s : State) (p : Nat) (n : Nirdor) : State := { s with nirdors := SMap.set (fun _ => {}) s.nirdors p n }
def modNir (s : State) (p : Nat) (f : Nirdor → Nirdor) : State := s.setNir p (f (s.nir p))
def modBel (s : State) (f : Belfry → Belfry) : State := { s with belfry := f s.belfry }
def modClk (s : State) (f : Clocks → Clocks) : State := { s with clocks := f s.clocks }

/-- The ring of a function of a host port. -/
def ring (s : State) (rq : Req) : Ring := if rq.fn1 then (s.host rq.port).ring1 else (s.host rq.port).ring0
def setRing (s : State) (rq : Req) (r : Ring) : State :=
  let h := s.host rq.port
  s.setHost rq.port (if rq.fn1 then { h with ring1 := r } else { h with ring0 := r })

/-! ### The shape, fields and readiness -/

/-- Columns per field of the offered shape (R16, R17): OFFERED_SHAPE.X_SIZE / 8. -/
def cols (s : State) : Nat := s.fget (pGlobal + 0x50) 10 0 / 8
/-- Logical rows of the offered shape. -/
def rows (s : State) : Nat := s.fget (pGlobal + 0x50) 26 16

/-- Whether a SID names a logical spindle of the offered shape (R17, R26). -/
def validSid (s : State) (sid : Nat) : Bool :=
  decide (sid % 2048 < 8 * s.cols) && decide (sid / 2048 < s.rows) && decide (sid < 2 ^ 21)

/-- The field of a logical spindle (R17). -/
def fieldOf (s : State) (sid : Nat) : Nat := (sid / 2048) / 128 * 8 + (sid % 2048) / max 1 s.cols

/-- Bobbin capacity in bytes by grade (R19, R25): 36, 32 or 24 GiB; 0 before the grade is read. -/
def capacity (s : State) : Nat :=
  match s.fget (pGlobal + 0x48) 7 0 with
  | 1 => 36 * 2 ^ 30 | 2 => 32 * 2 ^ 30 | 3 => 24 * 2 ^ 30 | _ => 0

/-- Die slots by grade (R263). -/
def gradeSlots (s : State) : Nat :=
  match s.fget (pGlobal + 0x48) 7 0 with
  | 1 => 9 | 2 => 8 | 3 => 6 | _ => 0

/-- The timebase (R423). -/
def tb (s : State) : Nat := (s.reg (pTb + 0x40)).toNat + 2 ^ 32 * (s.reg (pTb + 0x44)).toNat

/-! ### The run -/

/-- RUN_STATE.STATE (R346). -/
def runState (s : State) : Nat := s.fget (pRun + 0x40) 2 0
/-- RUNNING or DRAINING. -/
def running (s : State) : Bool := s.runState = 3 || s.runState = 4
/-- Whether a spindle belongs to the placement (chapter "Peals, strokes and runs"). -/
def placed (s : State) (sid : Nat) : Bool := s.run.starts.any (fun p => p.1 = sid)
/-- Whether a spindle belongs to the placement of a run in RUNNING or DRAINING. -/
def live (s : State) (sid : Nat) : Bool := s.running && s.placed sid
/-- Change the run controller's records. -/
def modRun (s : State) (f : Run → Run) : State := { s with run := f s.run }
/-- The abort count K (R177), 0 outside a placement. -/
def abortK (s : State) : Nat := (s.reg (pRun + 0x44)).toNat

end State

/-! ### Engine addresses -/

/-- What an EA names (R25). -/
inductive Target where
  | bobbin (f off : Nat)
  | store (sid off : Nat)
  | chime (c byte : Nat)
  | host (h off : Nat)
  | unmapped
  deriving DecidableEq, Repr

/-- The decode of R25 with R26's unmapped cases. -/
def decodeEA (s : State) (ea : Nat) : Target :=
  if ea < 0x40000000000 then
    (let f := ea / 0x1000000000
     let o := ea % 0x1000000000
     if o < s.capacity then .bobbin f o else .unmapped)
  else if ea < 0x400000000000 then .unmapped
  else if ea < 0x402000000000 then
    (let sid := (ea - 0x400000000000) / 65536
     if s.validSid sid then .store sid (ea % 65536) else .unmapped)
  else if ea < 0x500000000000 then .unmapped
  else if ea < 0x500000040000 then .chime ((ea - 0x500000000000) / 8) (ea % 8)
  else if ea < 0x800000000000 then .unmapped
  else if ea < 0x1000000000000 then
    .host ((ea - 0x800000000000) / 0x200000000000) (ea % 0x200000000000)
  else .unmapped

/-- Whether window h maps an access of `bytes` bytes at offset w (R384). -/
def windowMaps (s : State) (h w bytes : Nat) : Bool :=
  s.bget (pHost h 0 + 0x54) 0 && decide (w + bytes ≤ min (s.fget (pHost h 0 + 0x50) 25 0) 0x2000000 * 2 ^ 20)
    && decide (0 < bytes)

/-- The host bus address of window offset w (R384). -/
def hostAddr (s : State) (h w : Nat) : Nat :=
  ((s.fget (pHost h 0 + 0x48) 31 12) * 4096 + (s.reg (pHost h 0 + 0x4C)).toNat * 2 ^ 32 + w) % 2 ^ 64

/-- Whether an access of n lines from `ea` is mapped as a whole (R26, R267, R384, R521); `win` is
the only host window the issuer may name, if any (R292). An access within a store wraps there
(R62). -/
def mappedLines (s : State) (win : Option Nat) (ea n : Nat) : Bool :=
  match decodeEA s ea with
  | .unmapped => false
  | .bobbin _ o => decide (o + 32 * n ≤ s.capacity)
  | .store _ _ => true
  | .chime c _ => decide (c / 512 = (c + 4 * (n - 1)) / 512) && decide (c + 4 * (n - 1) < 32768)
  | .host h w => win = some h && windowMaps s h w (32 * n)

/-! ### Memory lines -/

/-- One byte of bobbin or store space; the tests leave every line zero (R80, R286). -/
def readByte (s : State) (a : Nat) : Byte := SMap.get (fun _ => 0#8) s.mem a
def writeByte (s : State) (a : Nat) (b : Byte) : State := { s with mem := SMap.set (fun _ => 0#8) s.mem a b }

/-- The canonical form of the memory: addresses strictly rising, and no listed byte equal to what an unlisted address reads as. -/
def Memory.wf (m : List Host.Cell) : Bool := SMap.wf (fun _ => 0#8) m

/-- The mark of the line with number a / 32 (R457). -/
def markOf (s : State) (line : Nat) : Bool := SMap.get (fun _ => false) s.marks line
def setMark (s : State) (line : Nat) (b : Bool) : State :=
  { s with marks := SMap.set (fun _ => false) s.marks line b }

/-- `n` bytes from address a, little-endian (R8). -/
def readBytes (s : State) (a n : Nat) : Nat := ofBytesLE (tab n (fun i => readByte s (a + i)))

/-- Write `n` bytes of w from address a. -/
def writeBytes (s : State) (a n w : Nat) : State :=
  iter n (fun i t => writeByte t (a + i) (BitVec.ofNat 8 (byteOf w i))) s

/-- The stored line at a line-aligned address. -/
def readLine (s : State) (a : Nat) : Line := ⟨BitVec.ofNat 256 (readBytes s a 32), markOf s (a / 32)⟩

/-- Store a whole line with its mark (R269, R457). -/
def writeLine (s : State) (a : Nat) (l : Line) : State :=
  setMark (writeBytes s a 32 l.data.toNat) (a / 32) l.bad

/-- The address of store line L of a spindle (R25, R55). -/
def storeAddr (sid L : Nat) : Nat := 0x400000000000 + sid * 65536 + (L % 2048) * 32

/-- The address of a bobbin offset (R25). -/
def bobAddr (f o : Nat) : Nat := f * 0x1000000000 + o

/-- What a read of a line finds: its mark, or what the decoder reports (R456). -/
def effCond (l : Line) (c : Cond) : Cond := if l.bad then .bad else c

/-- A line as a unit takes it from a buffer (R456, R457): what the decoder finds counts in the unit's page `pg`. A line that is not correctable
becomes marked, with data made of what it held. `counts` says whether one counts here that is found marked, or not correctable. -/
def bufferLine (s : State) (pg : Nat) (counts : Bool → Bool) (l : Line) (c : Cond) : Line × State :=
  match effCond l c with
  | .clean => (l, s)
  | .corr => (l, s.errCorr pg)
  | .wrong => (let (d, s) := (s.errCorr pg).free 256; (⟨d, false⟩, s))
  | .bad =>
    let s := if counts l.bad then s.errUncorr pg else s
    if l.bad then (l, s) else (let (d, s) := s.mix l.data 0#256; (⟨d, true⟩, s))

/-- Lines as a unit takes them from a buffer; `conds` is what the decoder finds in each. -/
def bufferLines (s : State) (pg : Nat) (counts : Bool → Bool) (ls : List Line) (conds : List Cond) : List Line × State :=
  ((List.range ls.length).zip ls).foldl (fun (st : List Line × State) il =>
    let (l, s) := bufferLine st.2 pg counts il.2 (nth .clean conds il.1)
    (st.1 ++ [l], s)) ([], s)

/-! ### Page addresses used often -/

/-- The FIELD_CTRL page of a spindle's field. -/
def fcPage (s : State) (sid : Nat) : Nat := pField (s.fieldOf sid)

/-! ### Spindle registers -/

/-- A window register of a spindle, by page 1 to 7 and offset (R81). -/
def Spindle.wreg (p : Spindle) (page off : Nat) : Word := SMap.get winReset p.win (page * 4096 + off)
def Spindle.setW (p : Spindle) (page off : Nat) (v : Word) : Spindle :=
  { p with win := SMap.set winReset p.win (page * 4096 + off) v }
def Spindle.wf_ (p : Spindle) (page off hi lo : Nat) : Nat := getF (p.wreg page off) hi lo
def Spindle.setWf (p : Spindle) (page off hi lo v : Nat) : Spindle :=
  p.setW page off (putF (p.wreg page off) hi lo v)
def Spindle.vreg (p : Spindle) (r : Nat) : BitVec 512 := SMap.get (fun _ => 0#512) p.vregs r
def Spindle.setV (p : Spindle) (r : Nat) (v : BitVec 512) : Spindle :=
  { p with vregs := SMap.set (fun _ => 0#512) p.vregs r v }
/-- LA index i, lane l (R66). -/
def Spindle.lacc (p : Spindle) (i l : Nat) : BitVec 128 := SMap.get (fun _ => 0#128) p.la (i * 16 + l)
def Spindle.setLa (p : Spindle) (i l : Nat) (v : BitVec 128) : Spindle :=
  { p with la := SMap.set (fun _ => 0#128) p.la (i * 16 + l) v }
/-- SCALE_i of LA_SCALE (R88). -/
def Spindle.scale (p : Spindle) (i : Nat) : Int := sext 8 (p.wf_ 7 0x44 (8 * i + 7) (8 * i))
def Spindle.setScale (p : Spindle) (i v : Nat) : Spindle := p.setWf 7 0x44 (8 * i + 7) (8 * i) v

/-- LOADED of ply p (R82). -/
def Spindle.loaded (p : Spindle) (k : Nat) : Bool := getB (p.wreg (1 + k) 0x40) 0
def Spindle.setLoaded (p : Spindle) (k : Nat) (b : Bool) : Spindle :=
  p.setW (1 + k) 0x40 (putB (p.wreg (1 + k) 0x40) 0 b)
/-- EPOCH of ply p (R82). -/
def Spindle.epoch (p : Spindle) (k : Nat) : Nat := p.wf_ (1 + k) 0x40 7 4
def Spindle.setEpoch (p : Spindle) (k e : Nat) : Spindle := p.setWf (1 + k) 0x40 7 4 e
/-- SAVED and ENTRY of ply p (R82). -/
def Spindle.saved (p : Spindle) (k : Nat) : Nat := p.wf_ (1 + k) 0x4C 13 8
def Spindle.setSaved (p : Spindle) (k a : Nat) : Spindle := p.setWf (1 + k) 0x4C 13 8 a
def Spindle.entry (p : Spindle) (k : Nat) : Nat := p.wf_ (1 + k) 0x4C 5 0
/-- The current action of ply p. -/
def Spindle.curAct (p : Spindle) (k : Nat) : Nat := SMap.get (fun _ => 0) p.cur k
def Spindle.setCur (p : Spindle) (k a : Nat) : Spindle := { p with cur := SMap.set (fun _ => 0) p.cur k a }
def Spindle.wasActive (p : Spindle) (k : Nat) : Bool := SMap.get (fun _ => false) p.ran k
def Spindle.setActive (p : Spindle) (k : Nat) (b : Bool) : Spindle :=
  { p with ran := SMap.set (fun _ => false) p.ran k b }
/-- Loop counter i of ply p (R82). -/
def Spindle.ctr (p : Spindle) (k i : Nat) : Nat := p.wf_ (1 + k) (0x64 + 8 * i) 15 0
def Spindle.setCtr (p : Spindle) (k i v : Nat) : Spindle := p.setWf (1 + k) (0x64 + 8 * i) 15 0 v
/-- Tap t (R72, R86). -/
def Spindle.tap (p : Spindle) (t : Nat) : Nat :=
  p.wf_ 5 (0x60 + 4 * (t / 2)) (16 * (t % 2) + 15) (16 * (t % 2))
def Spindle.setTap (p : Spindle) (t v : Nat) : Spindle :=
  p.setWf 5 (0x60 + 4 * (t / 2)) (16 * (t % 2) + 15) (16 * (t % 2)) v
/-- Add flags to PLY_FLAGS of ply p (R123). -/
def Spindle.addFlags (p : Spindle) (k : Nat) (f : Flags) : Spindle :=
  p.setW (1 + k) 0x48 (p.wreg (1 + k) 0x48 ||| BitVec.ofNat 32 f.bits)
/-- Set bit i of SP_FLAGS (R86). -/
def Spindle.spFlag (p : Spindle) (i : Nat) : Spindle := p.setW 5 0x44 (putB (p.wreg 5 0x44) i true)
/-- Action word a of ply p (R85, R151). -/
def Spindle.action (p : Spindle) (k a : Nat) : Nat :=
  (List.range 8).foldl (fun acc i => acc + (p.wreg (1 + k) (0x800 + a * 0x20 + 4 * i)).toNat <<< (32 * i)) 0
/-- Rounding and flush modes of ply p (R82). -/
def Spindle.modes (p : Spindle) (k : Nat) : Modes :=
  let w := p.wreg (1 + k) 0x44
  ⟨RMode.ofCode (getF w 2 0), getB w 4, getB w 5⟩

/-- A spindle with n added to a 48-bit counter pair of its window page, and whether the count wrapped (R42, R44, R87). -/
def Spindle.bump48 (p : Spindle) (page lo n : Nat) : Spindle × Bool :=
  let t := (p.wreg page lo).toNat + 2 ^ 32 * p.wf_ page (lo + 4) 15 0 + n
  let p' := (p.setW page lo (BitVec.ofNat 32 t)).setWf page (lo + 4) 15 0 (t / 2 ^ 32)
  if 2 ^ 48 ≤ t then (p'.setW page (lo + 4) (putB (p'.wreg page (lo + 4)) 31 true), true) else (p', false)

/-- Add n to such a pair of a spindle; a count that wraps raises its page's event. -/
def wbump48 (s : State) (sid page lo n : Nat) : State :=
  let r := (s.spin sid).bump48 page lo n
  if r.2 then (s.setSpin sid r.1).raise (pWin (s.fieldOf sid) page) 31 else s.setSpin sid r.1

/-- Add n to a 31-bit count of a spindle window page (R44, R86, R191, R197). -/
def wbump31 (s : State) (sid page off n : Nat) : State :=
  let p := s.spin sid
  let t := p.wf_ page off 30 0 + n
  let p' := p.setWf page off 30 0 t
  if 2 ^ 31 ≤ t then
    (s.setSpin sid (p'.setW page off (putB (p'.wreg page off) 31 true))).raise (pWin (s.fieldOf sid) page) 31
  else s.setSpin sid p'

/-! ### Hank queues and taps (R259) -/

/-- Whether hank queue q of ply k is open (R258). -/
def Spindle.hqOpen (p : Spindle) (k q : Nat) : Bool :=
  let d0 := p.wreg (1 + k) (0x240 + 16 * q)
  let d1 := p.wreg (1 + k) (0x244 + 16 * q)
  getB d0 31 && decide (1 ≤ getF d0 24 16) && decide (getF d0 24 16 ≤ 256) && decide (getF d1 31 23 ≤ getF d0 24 16)

/-- The hank queues, as (ply, queue), that an increment of tap t publishes to (R259). -/
def Spindle.hqOfTap (p : Spindle) (t : Nat) : List (Nat × Nat) :=
  [(0, 0), (0, 1), (1, 0), (1, 1), (2, 0), (2, 1), (3, 0), (3, 1)].filter (fun kq =>
    p.loaded kq.1 && p.hqOpen kq.1 kq.2 && p.wf_ (1 + kq.1) (0x240 + 16 * kq.2) 30 27 = t)

/-- What the EP forms in a cycle is seen by no guard until that cycle has ended; `due` counts the EP cycles up to it (R73, R187, R210).
What forms at the end of a cycle anyway has no `due`. -/
def Spindle.form (p : Spindle) (due : Option Nat) (x : Formed) : Spindle :=
  match due with
  | some d => { p with fresh := p.fresh ++ [(d, x)] }
  | none => p

/-- What is pending on a tap: the increments that form in a later EP cycle. -/
def Spindle.tapPending (p : Spindle) (t : Nat) : Nat :=
  p.fresh.foldl (fun a e => match e.2 with | .tap u n => if u = t then a + n else a | _ => a) 0

/-- Tap t becomes zero; what has not formed yet is still added when it does (R73). -/
def Spindle.clearTap (p : Spindle) (t : Nat) : Spindle := p.setTap t (p.tapPending t)

/-- Add n to tap t of a spindle: the tap (R73) and every hank queue it publishes to (R259). HANK_OVERRUN is judged in the order of the commands: of
an increment that the EP brings before a pop of the same cycle, of an action's own after it (DESIGN CHOICE, assumption log 17). -/
def tapAdd (s : State) (sid t n : Nat) (due : Option Nat := none) : State :=
  let p := s.spin sid
  let s := s.setSpin sid ((p.setTap t (p.tap t + n)).form due (.tap t n))
  if n = 0 then s
  else forEach (p.hqOfTap t) (fun kq s =>
    let p := s.spin sid
    let o := 0x240 + 16 * kq.2
    let prod := p.wreg (1 + kq.1) (o + 8) + BitVec.ofNat 32 n
    let s := s.setSpin sid ((p.setW (1 + kq.1) (o + 8) prod).form due (.handle kq.1 kq.2 n))
    s.raiseIf (decide (p.wf_ (1 + kq.1) o 24 16 < (prod - p.wreg (1 + kq.1) (o + 12)).toNat)) (fcPage s sid) 6) s

/-! ### Messages -/

/-- Two messages are on one ordered path (R186): one source, one destination, one VC; a bobbin and
the chime bank behind the same gateways count as one place on VC0 (R256). -/
def samePath (a b : Msg) : Bool :=
  let place : Dest → Dest := fun d => match d with
    | .chimes f => if a.vc = 0 then .bobbin f else .chimes f
    | d => d
  a.src = b.src && a.vc = b.vc && place a.dst = place b.dst

/-- The first message that satisfies `p` and has none before it on its path: the message with the
messages before and after it. -/
def takeMsg (p : Msg → Bool) : List Msg → List Msg → Option (List Msg × Msg × List Msg)
  | _, [] => none
  | pre, m :: ms =>
    if p m && !(pre.any (fun x => samePath x m)) then some (pre, m, ms)
    else takeMsg p (pre ++ [m]) ms

/-- A message joins the messages in the mesh. -/
def State.enqueue (s : State) (m : Msg) : State := { s with mesh := s.mesh ++ [m] }

/-- Source code in bits [20:11] with bits [10:0] = 0x7FF (R183). -/
def srcCode (c : Nat) : SID := BitVec.ofNat 21 (c * 2048 + 0x7FF)

/-- The non-spindle destination that a DEST_SID with bits [10:0] = 0x7FF names (R183, R359). -/
def codeDest (c : Nat) : Option Dest :=
  if c < 0x40 then some (.reel c)
  else if 0x80 ≤ c ∧ c < 0x84 then some (.reel (c - 0x80 + 64))
  else if 0xC0 ≤ c ∧ c < 0xD0 then some (.nirdor (c - 0xC0))
  else none

/-- Whether a SID is the port code of a Nirdor port (R359). -/
def portCode (d : SID) : Bool :=
  decide (d.toNat % 2048 = 0x7FF) && (match codeDest (d.toNat / 2048) with | some (.nirdor _) => true | _ => false)

/-- Whether a message is its header alone (R182): a read request or a chime increment. To a port code a KIND of 0b11 is no chime
increment (R359). -/
def Msg.single (m : Msg) : Bool := m.req || (m.kind = 3 && !portCode m.dest)

/-- Whether Nirdor port p is populated in the module's grade (R20, R21). -/
def populated (s : State) (p : Nat) : Bool :=
  decide (p < 16) && !(s.fuses.grade = 3 && (p = 3 || p = 7 || p = 11 || p = 15))

/-- Where a queue message or a response to a DEST_SID goes; none where R518 calls it unmapped.
`self` is the issuing reel, for read requests. -/
def sidDest (s : State) (self : Option Nat) (d : SID) : Option Dest :=
  let n := d.toNat
  if n % 2048 = 0x7FF then
    match codeDest (n / 2048) with
    | some (.nirdor p) => if populated s p then some (.nirdor p) else none
    | some (.reel r) => if self = some r then some (.reel r) else none
    | _ => none
  else if s.validSid n then some (.spindle n) else none

/-- The acknowledgement of a write message (R271, R304). -/
def ackOf (m : Msg) (src : SID) (stale : Bool) (d : Dest) : Msg :=
  { dst := d, vc := 3, kind := 2, req := false, len := m.len, dest := m.src, src := src, tag := m.tag,
    ea := m.ea, seq := m.seq, arg := if stale then 1#32 else 0#32, payload := [], isAck := true }

/-- The header line of a message as stored in a ring record (R181, R194). -/
def headerLine (m : Msg) (record : Nat) : Nat :=
  m.dest.toNat + m.kind <<< 21 + m.req.toNat <<< 23 + m.len <<< 24 + m.vc <<< 27 + record <<< 29
    + m.tag.toNat <<< 32 + m.src.toNat <<< 48 + m.seq <<< 72 + m.ea.toNat <<< 80 + m.arg.toNat <<< 128

/-! ### The log (R491, R492) -/

/-- The Belfry records a log entry, while it is up. `stamp` is a timestamp that hardware recorded, with its
origin; else the Belfry reads the timebase. -/
def addLog (s : State) (code severity : Nat) (items : List Nat) (typ inst : Nat := 0)
    (stamp : Option (Nat × Nat) := none) : State :=
  if !s.bget (pMbox 0 + 0x40) 31 then s
  else
    let b := s.belfry
    let (tb, origin) := stamp.getD (s.tb, 2)
    let e : LogEntry := ⟨Config.logData code items, b.seq + 1#32, code, typ, inst, severity, origin, tb⟩
    let ring := fun (n : Nat) (l : List LogEntry) => (l ++ [e]).drop (l.length + 1 - n)
    let s := s.modBel (fun b => { b with seq := b.seq + 1#32, ramLog := ring 2048 b.ramLog,
                                         flashLog := if 1 ≤ severity then ring 65536 b.flashLog else b.flashLog })
    let s := s.setReg (pMbox 0 + 0x64) s.belfry.seq
    s.raiseIf (decide (2 ≤ severity)) (pMbox 0) 4

/-! ### Completion entries -/

/-- A completion entry falls due in the ring of the function that issued the command (R395). -/
def postCpl (s : State) (c : Cmd) (status detail : Nat) (stroke : Word := 0#32)
    (result : BitVec 128 := 0#128) : State :=
  let r := s.ring c.rq
  if !c.live then s else
  s.setRing c.rq { r with due := r.due ++ [⟨fld c.entry.toNat 7 0, BitVec.ofNat 32 (fld c.entry.toNat 63 32),
    status, detail, stroke, result⟩] }

/-! ### Reel channels -/

/-- The register block of channel c of reel r (R295). -/
def chanBase (r c : Nat) : Nat :=
  if r < 64 then pReel r c + 0x100 else pHost (r - 64) (8 + c / 4) + 0x100 + (c % 4) * 0x100

/-- The page that carries channel c of reel r, and the bit of its first event (R297). -/
def chanPage (r c : Nat) : Nat := if r < 64 then pReel r c else pHost (r - 64) (8 + c / 4)
def chanEvt (r c i : Nat) : Nat := if r < 64 then i else 5 * (c % 4) + i
def chanEvent (s : State) (r c i : Nat) : State := s.raise (chanPage r c) (chanEvt r c i)

/-- CH_STATUS.STATE (R296): 0 IDLE, 1 QUEUED, 2 ACTIVE, 3 ACK_WAIT, 4 STOPPED. -/
def chState (s : State) (r c : Nat) : Nat := s.fget (chanBase r c + 0x18) 18 16
def setChState (s : State) (r c v : Nat) : State := s.fset (chanBase r c + 0x18) 18 16 v

/-- The page of a reel's REEL_STATUS (R295), and its number of channels (R292). -/
def reelPage (r : Nat) : Nat := if r < 64 then pReel r 0 else pHost (r - 64) 8
def reelChans (r : Nat) : Nat := if r < 64 then 16 else 32

/-- CH_CTRL.RUN (R296). -/
def chClaimed (s : State) (r c : Nat) : Bool := s.bget (chanBase r c + 0x14) 16

/-- The reads of host memory that channel c of a host reel has issued and nothing has answered, and its flush, are outstanding still when the
channel stops (R310, R401). -/
def noteLate (s : State) (r c : Nat) : State :=
  if r < 64 then s
  else
    let x := s.chan r c
    let open_ := fun (q : ReelRead) => q.issued && q.taken = [] && decide (0x800000000000 ≤ q.ea.toNat)
      && !s.mesh.any (fun m => m.dst = .reel r && !m.isAck && m.tag.toNat = x.gen % 1024 * 64 + c && m.ea = q.ea)
    let n := ((x.bursts.map (fun b => b.reads)).flatten.filter open_).length
    let h := s.host (r - 64)
    s.setHost (r - 64) { h with lateReads := h.lateReads ++ List.replicate n c,
                                lateFlushes := h.lateFlushes ++ (if x.flush.isSome && x.flushing then [c] else []) }

/-- Stop an ACTIVE or ACK_WAIT channel (R310): lines in flight are lost, the address registers and
COUNT take arbitrary values, made of what they held and of the transfer's first position (R4), indices read zero, GEN advances (R302). -/
def chanStop (s : State) (r c : Nat) : State :=
  let b := chanBase r c
  let s := noteLate s r c
  let x := s.chan r c
  let (a, s) := s.mix (BitVec.ofNat 48 (s.fget b 31 5 * 32 + 2 ^ 32 * s.fget (b + 4) 15 0)) x.os
  let (d, s) := s.mix (BitVec.ofNat 48 (s.fget (b + 8) 31 5 * 32 + 2 ^ 32 * s.fget (b + 0xC) 15 0)) x.od
  let (n, s) := s.mix (s.reg (b + 0x10)) (BitVec.ofNat 32 x.total)
  let s := (s.fset b 31 5 (a.toNat / 32)).fset (b + 4) 15 0 (a.toNat / 2 ^ 32)
  let s := (s.fset (b + 8) 31 5 (d.toNat / 32)).fset (b + 0xC) 15 0 (d.toNat / 2 ^ 32)
  let s := s.setReg (b + 0x10) n
  let s := s.setReg (b + 0x18) 0xC0000#32        -- ARB_REGS 1, STATE STOPPED, no reads, no lines
  let s := iter 5 (fun d s => s.fset (b + 0x40 + 0x10 * d) 31 16 0) s
  let s := s.setChan r c { x with idx := [0, 0, 0, 0, 0], gen := (x.gen + 1) % 1024, bursts := [],
                                  acks := 0, flush := none, flushing := false, wrote := 0#5 }
  chanEvent s r c 1

/-- A stop of a claimed channel at a run fault, as R310 gives whichever of the busy states it is in (R313). -/
def chanFaultStop (s : State) (r c : Nat) : State :=
  let st := chState s r c
  if st = 1 || st = 2 || st = 3 then chanStop s r c else s

/-! ### The run fault -/

/-- What a run fault records of its cause (R335, R346). -/
structure Cause where
  code : Nat
  field : Option Nat := none
  sid : Option Nat := none
  deriving DecidableEq, Repr

/-- RUN_FAULT_0 to RUN_FAULT_STROKE (R336, R346). -/
def recordFault (s : State) (c : Cause) : State :=
  let w := 2 ^ 31 + c.sid.isSome.toNat * 2 ^ 30 + c.code * 256 + c.field.isSome.toNat * 128 + (c.field.getD 0) % 64
  let s := s.setReg (pRun + 0x60) (BitVec.ofNat 32 w)
  let s := s.setReg (pRun + 0x64) (BitVec.ofNat 32 (c.sid.getD 0))
  let s := s.setReg (pRun + 0x68) (s.reg (pTb + 0x40))
  let s := s.setReg (pRun + 0x6C) (s.reg (pTb + 0x44))
  s.setReg (pRun + 0x70) (s.reg (pRun + 0x50))

/-- Set RUN_STATE.STATE; a change raises STATE_CHANGE (R347). -/
def setRunState (s : State) (v : Nat) : State :=
  let old := s.runState
  (s.fset (pRun + 0x40) 2 0 v).raiseIf (old != v) pRun 1

/-- A stroke is accepted and has no record (R331, R346). -/
def Stroke.open_ (k : Stroke) : Bool :=
  match k.stage with
  | .accepted | .copyingIn | .admitted | .copyingOut | .failed => true
  | _ => false

/-- Strokes that a fault ends: accepted, without a record, not yet ended (R336). -/
def Stroke.faultable (k : Stroke) : Bool := k.open_ && k.stage != .failed

/-- Whether a stroke's OK entry is still to be posted: its record is issued, and not lost on a link that is down (R228, R333). -/
def Stroke.entryDue (k : Stroke) : Bool := k.stage = .recorded && !k.lost

/-- The FAULTED entries are posted in ID order, once no stroke of lower ID waits for its OK entry (R336, R395). -/
def postOwed (s : State) : State :=
  if s.run.strokes.any Stroke.entryDue then s
  else
    let owing := s.run.strokes.filter (fun k => k.owed.isSome)
    let first := owing.foldl (fun (a : Word) k => if (k.id - a).toNat < 2 ^ 31 then a else k.id) ((owing.map (·.id)).headD 0#32)
    let byId := (tab 64 (fun i => owing.filter (fun k => k.id = first + BitVec.ofNat 32 i))).flatten
      ++ owing.filter (fun k => decide (64 ≤ (k.id - first).toNat))
    let s := forEach byId (fun k s => postCpl s k.cmd 6 (k.owed.getD 0) k.id) s
    s.modRun (fun r => { r with strokes := r.strokes.map (fun k => { k with owed := none }) })

/-- Whether a watch call is held for a claimed chime (R253). -/
def heldClaimed (s : State) (f : Nat) (h : Nat × Call) : Bool :=
  s.bget (pChime f (1 + (s.fget (pChime f 5 + 0x100 + h.1 * 0x20) 8 0) / 128) + 0x104
    + (s.fget (pChime f 5 + 0x100 + h.1 * 0x20) 8 0 % 128) * 16) 30

/-- A run fault (R336): the state, the record, the events, the holds, the channels, the held watch
calls, and the FAULTED entries. -/
def runFault (s : State) (c : Cause) : State :=
  let st := s.runState
  let s := if st = 0 then s else
    addLog s 0x101 3 [c.code, c.field.getD 0, c.sid.getD 0, (s.reg (pRun + 0x50)).toNat] 3 0 (some (s.tb, Config.runStampSouth.toNat))
  if st = 0 then s
  else if st = 5 then
    let s := s.bump48 pRun (pRun + 0xA0) 1
    let s := if s.run.acking then (recordFault s c).modRun (fun r => { r with newFault := true })
             else if s.bget (pRun + 0x60) 31 then s else recordFault s c
    s.raise pRun 0
  else
    let s := if st = 1 then s.setReg (pRun + 0x40) (putB (s.reg (pRun + 0x40)) 12 true) else s
    let s := s.bump48 pRun (pRun + 0xA0) 1
    let s := if s.bget (pRun + 0x60) 31 then s else recordFault s c
    let s := (setRunState s 5).raise pRun 0
    let s := forEach s.run.starts (fun p s => s.modSpin p.1 (fun q => { q with hold := true })) s
    let s := forEach s.run.chans (fun rc s => chanFaultStop s rc.1 rc.2) s
    let s := forEach (List.range 64) (fun f s =>
      let r := s.ringer f
      s.setRinger f { r with held := r.held.filter (fun h => !heldClaimed s f h) }) s
    let s := postOwed (s.modRun (fun r => { r with strokes := r.strokes.map (fun k =>
      if k.faultable then { k with stage := .failed, owed := some c.code } else k) }))
    let s := match s.run.stopCmd with
      | some cmd => postCpl s cmd 6 c.code
      | none => s
    let s := match s.run.loadCmd with
      | some cmd => postCpl s cmd 6 c.code
      | none => s
    s.modRun (fun r => { r with stopCmd := none, loadCmd := none, jobs := [], peal := [], reading := false, fenceAt := none })

/-- A run fault only while the run is RUNNING or DRAINING. -/
def faultIfRunning (s : State) (c : Cause) : State := if s.running then runFault s c else s

end Sys2Proof.Machine
end

