-- ==== Sys2Proof/Machine/Mesh.lean ====
section
/-! DEFINITION. The wafer mesh (chapter "The wafer mesh"): routes, gateways, links, and the commands
that act on links. A message in the mesh is one entry of `State.mesh`; where it stands on its route is
timing and is left to the commands. -/
namespace Sys2Proof.Machine

/-! ### Positions -/

/-- Logical x and y of a SID (R17). -/
def xOf (sid : Nat) : Nat := sid % 2048
def yOf (sid : Nat) : Nat := sid / 2048
def sidAt (x y : Nat) : Nat := y * 2048 + x

/-- Field column and row of a field number. -/
def fieldAt (fx fy : Nat) : Nat := fy * 8 + fx

/-- The physical row and column of the local position (lx, r) of a field (R443, R444). A field without
a listed map has no defect, so every shift is 0. -/
def physOf (s : State) (f lx r : Nat) : Nat × Nat :=
  match (s.fmap f).rows[r]? with
  | some (pr, pcs) => (pr, nth lx pcs lx)
  | none => (r, lx)

/-- The LOC code of a logical spindle's physical position (R438). -/
def locOf (s : State) (sid : Nat) : Nat :=
  let f := s.fieldOf sid
  let p := physOf s f (xOf sid - (f % 8) * s.cols) (yOf sid % 128)
  p.1 * 152 + p.2

/-- The logical row of a field that lies on physical row `pr`. -/
def logRow (s : State) (f pr : Nat) : Option Nat :=
  (List.range 128).find? (fun r => (physOf s f 0 r).1 = pr)

/-- The logical spindle on a physical position, if one is mapped there. -/
def spindleAt (s : State) (f pr pc : Nat) : Option Nat :=
  match logRow s f pr with
  | some r =>
    match (List.range s.cols).find? (fun lx => (physOf s f lx r).2 = pc) with
    | some lx => if (s.fmap f).fail then none else some (sidAt ((f % 8) * s.cols + lx) ((f / 8) * 128 + r))
    | none => none
  | none => none

/-! ### Gateways (R218, R219) -/

/-- The logical host of gateway g of field f. -/
def gatewayHost (s : State) (f g : Nat) : Option Nat := spindleAt s f (64 + g / 32) (14 + 4 * (g % 32))

/-- Whether gateway g of field f is in service (R219). -/
def gatewayUp (s : State) (f g : Nat) : Bool := !(s.fmap f).bankOut.contains g && (gatewayHost s f g).isSome

/-- The gateway of field f that a source uses (R218). -/
def gatewayFor (s : State) (f : Nat) (src : SID) : Option Nat :=
  let n := src.toNat
  let g := if n % 2048 = 0x7FF then n / 2048 % 64 else xOf n % 32 + 32 * (yOf n % 2)
  [g, g ^^^ 1, g ^^^ 32, g ^^^ 33].find? (gatewayUp s f)

/-! ### Routes (R216, R217) -/

/-- The two fields an edge port attaches to (R20), and whether it lies on the North or South edge. -/
def nirdorFields : Nat → Nat × Nat × Bool
  | 0 => (0, 1, true) | 1 => (2, 3, true) | 2 => (4, 5, true) | 3 => (6, 7, true)
  | 4 => (7, 15, false) | 5 => (23, 31, false) | 6 => (39, 47, false) | 7 => (55, 63, false)
  | 8 => (56, 57, true) | 9 => (58, 59, true) | 10 => (60, 61, true) | 11 => (62, 63, true)
  | 12 => (0, 8, false) | 13 => (16, 24, false) | 14 => (32, 40, false) | _ => (48, 56, false)

/-- The field of a host port (R20). -/
def hostField : Nat → Nat
  | 0 => 3 | 1 => 4 | 2 => 59 | _ => 60

/-- Clamp a coordinate into lo … hi. -/
def clampN (lo hi v : Nat) : Nat := max lo (min hi v)

/-- The edge router of a port (R217), for the other end's x and y. -/
def edgeRouter (s : State) (a b : Nat) (ns : Bool) (x y : Nat) : Nat :=
  let C := s.cols
  if ns then sidAt (clampN (a % 8 * C) (b % 8 * C + C - 1) x) (if a < 32 then 0 else s.rows - 1)
  else sidAt (if a % 8 = 0 then 0 else 8 * C - 1) (clampN (a / 8 * 128) (b / 8 * 128 + 127) y)

/-- The router at which a block that is no spindle joins the mesh, for the other end's coordinates. -/
def portRouter (s : State) (d : Dest) (x y : Nat) : Nat :=
  match d with
  | .spindle n => n
  | .bobbin f | .chimes f => (gatewayHost s f 0).getD 0
  | .reel r => if r < 64 then ((gatewayFor s r (srcCode r)).bind (gatewayHost s r)).getD 0 else
      (let f := hostField (r - 64); edgeRouter s f f true x y)
  | .nirdor p => let (a, b, ns) := nirdorFields p; edgeRouter s a b ns x y
  | .host h => let f := hostField h; edgeRouter s f f true x y

/-- The block that a source code names (R183). -/
def srcBlock (src : SID) : Dest :=
  let n := src.toNat
  if n % 2048 = 0x7FF then
    (let c := n / 2048
     if c < 0x40 then .reel c else if c < 0x80 then .bobbin (c - 0x40)
     else if c < 0xC0 then .reel (c - 0x80 + 64) else .nirdor (c - 0xC0))
  else .spindle n

/-- First and last router of a message's route (R216 to R218). An answer of a BANK port starts at the gateway through which its request
arrived. Where both ends are edge ports, the destination's router is taken for the origin (assumption log 16). -/
def routeEnds (s : State) (m : Msg) : Nat × Nat :=
  let d0 := match m.dst with
    | .bobbin f | .chimes f => ((gatewayFor s f m.src).bind (gatewayHost s f)).getD 0
    | d => portRouter s d 0 0
  let s0 := match srcBlock m.src with
    | .bobbin f => (m.via.bind (gatewayHost s f)).getD 0
    | b => portRouter s b (xOf d0) (yOf d0)
  let d1 := match m.dst with
    | .bobbin _ | .chimes _ => d0
    | d => portRouter s d (xOf s0) (yOf s0)
  (s0, d1)

/-- The hops of a route between two routers as (router, output port): along the row, then along the column (R216, R78). -/
def routeHops (a b : Nat) : List (Nat × Nat) :=
  let xa := xOf a; let ya := yOf a; let xb := xOf b; let yb := yOf b
  (if xa ≤ xb then tab (xb - xa) (fun i => (sidAt (xa + i) ya, 1)) else tab (xa - xb) (fun i => (sidAt (xa - i) ya, 3)))
  ++ (if ya ≤ yb then tab (yb - ya) (fun i => (sidAt xb (ya + i), 2)) else tab (ya - yb) (fun i => (sidAt xb (ya - i), 0)))

/-- The router port of R87 by which a message leaves its last router: LOCAL to a spindle, the port of its wafer edge to an edge port
(R20). BANK ports are counted in BOBBIN_CTRL, and a field reel's port is none of R87's. -/
def exitPort : Dest → Option Nat
  | .spindle _ => some 4
  | .bobbin _ | .chimes _ => none
  | .reel r => if r < 64 then none else if hostField (r - 64) < 32 then some 0 else some 2
  | .host h => if hostField h < 32 then some 0 else some 2
  | .nirdor p =>
    let (a, _, ns) := nirdorFields p
    some (if ns then (if a < 32 then 0 else 2) else if a % 8 = 0 then 3 else 1)

/-- Count a header at router outputs, each of a router of its own (R87). A count that wraps raises its page's event (R44). -/
def countHops (s : State) (hops : List (Nat × Nat)) : State :=
  let pass := fun (h : Nat × Nat) => (s.spin h.1).bump48 6 (0x500 + 0x10 * h.2) 1
  forEach (hops.filter (fun h => (pass h).2)) (fun h s => s.raise (pWin (s.fieldOf h.1) 6) 31)
    { s with spindles := hops.foldl (fun m h => SMap.set (fun _ => {}) m h.1 (pass h).1) s.spindles }

/-- Count the message's header at every router output it passed (R87), for one that stood at its last router already only there; `out` says that
it also left its last router. -/
def countRoute (s : State) (m : Msg) (out : Bool := true) : State :=
  let e := routeEnds s m
  let last := match exitPort m.dst with
    | some p => if out then [(e.2, p)] else []
    | none => []
  countHops s ((if m.waiting then [] else routeHops e.1 e.2) ++ last)

/-! ### Links (R211, R226 to R229) -/

/-- A link, named as a LINK record names it (R438): field, position of its west or north end, kind. -/
structure LinkId where
  field : Nat
  loc : Nat
  detail : Nat
  deriving DecidableEq, Repr

def LinkId.key (l : LinkId) : Nat := (l.field * 32768 + l.loc) * 16 + l.detail
def LinkId.ofKey (k : Nat) : LinkId := ⟨k / 16 / 32768, k / 16 % 32768, k % 16⟩

/-- What a link separates on the logical array: columns x and x + 1 of row y, rows y and y + 1 of
column x for messages of the VCs it carries, or a gateway from its bobbin. -/
inductive Cut where
  | row (x y : Int)
  | col (x y : Nat) (vcs : List Nat)
  | bank (f g : Nat)
  | unused
  deriving DecidableEq, Repr

/-- Physical row and column of the position `drow` rows below and `dcol` columns right of logical row r and column lx of
field f, where row 128 of a field is row 0 of the one below it. Rows count on from row to row across a seam. -/
def physBelow (s : State) (f lx r : Nat) : Nat × Nat :=
  if r + 1 < 128 then physOf s f lx (r + 1)
  else
    let p := physOf s (f + 8) lx 0
    (p.1 + 130, p.2)

/-- Deal n crossings out of `xs` to columns of `cs`, each crossing and each column once (R225): column, physical column, link kind. -/
def dealCrossings (f : Nat) : Nat → List Nat → List Nat → List (Nat × Nat × Nat)
  | 0, _, _ => []
  | n + 1, cs, xs =>
    let i := Config.crossingDraw f (3 * n) % max 1 cs.length
    let j := Config.crossingDraw f (3 * n + 1) % max 1 xs.length
    match cs[i]?, xs[j]? with
    | some c, some x => (c, x, 2 + Config.crossingDraw f (3 * n + 2) % 6) :: dealCrossings f n (cs.eraseIdx i) (xs.eraseIdx j)
    | _, _ => []

/-- The second crossings of a field whose last row borders the equator: in a grade of C columns, 144 − C crossings that no column has as its
first, each the second of one column (R225). -/
def secondCrossings (s : State) (f : Nat) : List (Nat × Nat × Nat) :=
  if f / 8 != 3 then []
  else
    let first := (List.range s.cols).map (fun j => (physOf s f j 127).2)
    dealCrossings f (144 - s.cols) (List.range s.cols) ((List.range 152).filter (fun x => !first.contains x))

/-- The second crossing of local column lx, as physical column and link kind. -/
def secondCrossing (s : State) (f lx : Nat) : Option (Nat × Nat) :=
  ((secondCrossings s f).find? (fun c => c.1 = lx)).map (·.2)

/-- The VCs that the first crossing of a column carries (R225); every other vertical link carries all. -/
def colVcs (s : State) (f lx r : Nat) : List Nat :=
  if r = 127 && (secondCrossing s f lx).isSome then [2, 3] else [0, 1, 2, 3]

/-- The cut of a link under the shift map: a link that no route takes cuts nothing (R225, R442, R444, R445). -/
def linkCut (s : State) (l : LinkId) : Cut :=
  let pr := l.loc / 152
  let pc := l.loc % 152
  let skipped := fun c => (s.fmap l.field).skips.contains (pr * 152 + c)
  match logRow s l.field pr with
  | none => .unused
  | some r =>
    if l.detail ≤ 1 then
      let taken := if l.detail = 0 then !skipped pc && !skipped (pc + 1) else skipped (pc + 1)
      let j := ((List.range s.cols).filter (fun lx => decide ((physOf s l.field lx r).2 ≤ pc))).length
      if taken then .row (((l.field % 8) * s.cols + j : Nat) - 1) ((l.field / 8) * 128 + r : Nat) else .unused
    else if l.detail ≤ 7 then
      match (List.range s.cols).find? (fun lx => (physOf s l.field lx r).2 = pc) with
      | some lx =>
        let p := physBelow s l.field lx r
        let rows := if l.detail ≤ 4 then 1 else 2
        let off : Int := (l.detail : Int) - (if l.detail ≤ 4 then 3 else 6)
        if p.1 = pr + rows && decide ((p.2 : Int) = pc + off) then
          .col ((l.field % 8) * s.cols + lx) ((l.field / 8) * 128 + r) (colVcs s l.field lx r)
        else .unused
      | none =>
        match (List.range s.cols).find? (fun lx => r = 127 && secondCrossing s l.field lx = some (pc, l.detail)) with
        | some lx => .col ((l.field % 8) * s.cols + lx) ((l.field / 8) * 128 + r) [0, 1]
        | none => .unused
    else .bank l.field ((pr - 64) * 32 + (pc - 14) / 4)

/-- Where a message's route crosses a cut, counted in hops from its first router, if it does: along the row, then along the column, and
a BANK link first for an answer of the bank and last for what goes to it (R216, R218). -/
def crossAt (m : Msg) (a b : Nat) (gate : Option Nat) : Cut → Option Nat
  | .row x y =>
    if y = (yOf a : Int) && decide ((min (xOf a) (xOf b) : Nat) ≤ x) && decide (x < (max (xOf a) (xOf b) : Nat)) then
      some (if xOf a ≤ xOf b then (x - xOf a).toNat + 1 else (xOf a - x).toNat)
    else none
  | .col x y vcs =>
    if x = xOf b && vcs.contains m.vc && decide (min (yOf a) (yOf b) ≤ y) && decide (y < max (yOf a) (yOf b)) then
      some ((if xOf a ≤ xOf b then xOf b - xOf a else xOf a - xOf b) + (if yOf a ≤ yOf b then y - yOf a + 1 else yOf a - y))
    else none
  | .bank f g =>
    match m.dst, srcBlock m.src with
    | .bobbin f', _ | .chimes f', _ => if f' = f && gate = some g then some 8192 else none
    | _, .bobbin f' => if f' = f && m.via = some g then some 0 else none
    | _, _ => none
  | .unused => none

/-- The gateway by which a message enters a bank (R218). -/
def gateInto (s : State) (m : Msg) : Option Nat :=
  match m.dst with
  | .bobbin f | .chimes f => gatewayFor s f m.src
  | _ => none

/-- Whether a message's route crosses a cut. -/
def crosses (s : State) (m : Msg) (a b : Nat) (c : Cut) : Bool := (crossAt m a b (gateInto s m) c).isSome

/-- The physical position of the east or south end of a link: field, row, column (R438), where field columns and rows count on
across a seam. -/
def farEnd (l : LinkId) : Nat × Nat × Nat :=
  let pr := l.loc / 152
  let pc := l.loc % 152
  if l.detail ≤ 1 then
    let c := pc + 1 + l.detail
    if c < 152 then (l.field, pr, c) else (l.field + 1, pr, c - 152)
  else
    let r := pr + (if l.detail ≤ 4 then 1 else 2)
    let c := pc + l.detail - (if l.detail ≤ 4 then 3 else 6)
    if r < 130 then (l.field, r, c) else (l.field + 8, r - 130, c)

/-- The logical spindle at the east or south end of a link, if one is mapped there. Across an east-west seam the ends lie in one logical
row, whose physical rows differ by at most 1 (R443). -/
def farSpindle (s : State) (l : LinkId) : Option Nat :=
  let e := farEnd l
  if decide (64 ≤ e.1) || (decide (l.detail ≤ 1) && decide (l.field % 8 = 7) && e.1 != l.field) then none
  else if l.detail ≤ 1 && e.1 != l.field then
    (logRow s l.field (l.loc / 152)).bind (fun r => spindleAt s e.1 (physOf s e.1 0 r).1 e.2.2)
  else spindleAt s e.1 e.2.1 e.2.2

/-- The spindle and port by which LINK_EVT_LAST names a link (R232): the logical spindle at its west or north end where there is one,
else the one at its other end; a link with neither keeps the port of its west or north end (assumption log 16). -/
def linkName (s : State) (l : LinkId) : Nat × Nat :=
  if l.detail = 8 then (0x1FFF80 + (l.loc / 152 - 64) * 32 + (l.loc % 152 - 14) / 4, 5)
  else match spindleAt s l.field (l.loc / 152) (l.loc % 152), farSpindle s l with
    | some n, _ => (n, if l.detail ≤ 1 then 1 else 2)
    | none, some n => (n, if l.detail ≤ 1 then 3 else 0)
    | none, none => (0x1FFFFF, if l.detail ≤ 1 then 1 else 2)

/-- The fields a route touches. -/
def routeFields (s : State) (a b : Nat) : List Nat :=
  let fa := s.fieldOf a
  let fb := s.fieldOf b
  let lo := min (fa % 8) (fb % 8)
  let lo' := min (fa / 8) (fb / 8)
  tab (max (fa % 8) (fb % 8) - lo + 1) (fun i => fieldAt (lo + i) (fa / 8))
  ++ tab (max (fa / 8) (fb / 8) - lo' + 1) (fun i => fieldAt (fb % 8) (lo' + i))

/-- The first down link on a message's route (R228), if there is one: the hop that crosses it, and the field that owns it. Of two in one hop along a
row, the route meets that of the field it comes from first. -/
def downOn (s : State) (m : Msg) : Option (Nat × Nat) :=
  let e := routeEnds s m
  let hits := s.links.filterMap (fun kl =>
    if kl.2.down then (crossAt m e.1 e.2 (gateInto s m) (linkCut s (LinkId.ofKey kl.1))).map (fun n => (n, (LinkId.ofKey kl.1).field)) else none)
  match hits with
  | [] => none
  | h :: hs =>
    let west := decide (xOf e.2 < xOf e.1)
    some (hs.foldl (fun a x => if x.1 < a.1 || (west && x.1 = a.1) then x else a) h)

/-- Where a message's route is cut, as the hop it does not make, and the field that counts it: the owner of the first down link on it (R228), or
a field that is mapped out whole (R437). -/
def cutOn (s : State) (m : Msg) : Option (Nat × Nat) :=
  match downOn s m with
  | some nf => some nf
  | none =>
    let e := routeEnds s m
    if s.maps.any (fun fm => fm.2.fail) then
      ((routeFields s e.1 e.2).find? (fun f => (s.fmap f).fail)).map (fun f =>
        (((routeHops e.1 e.2).takeWhile (fun h => s.fieldOf h.1 != f)).length + 1, f))
    else none

/-- The field that counts a message whose route is cut. -/
def cutField (s : State) (m : Msg) : Option Nat := (cutOn s m).map (·.2)

/-- Count the header of a message at the router outputs before hop n of its route (R87). -/
def countBefore (s : State) (m : Msg) (n : Nat) : State :=
  let e := routeEnds s m
  countHops s ((routeHops e.1 e.2).take (n - 1))

/-- Whether one end of a message lies in the placement of a running run. -/
def endsLive (s : State) (m : Msg) : Bool :=
  (match m.dst with | .spindle n => s.live n | _ => false)
    || (decide (m.src.toNat % 2048 ≠ 0x7FF) && s.live m.src.toNat)

/-- Discard `lines` lines of a message on a cut route (R228). -/
def discardLines (s : State) (f : Nat) (m : Msg) (lines : Nat) : State :=
  let s := (s.bump31 (pField f) (pField f + 0x2C) lines).raiseIf (decide (lines ≠ 0)) (pField f) 29
  if endsLive s m && s.running then runFault s ⟨3, some f, none⟩ else s

/-- A message meets the cut of its route at hop n (R228, R437): its header has left the routers before it (R87), and its lines are discarded. -/
def loseAt (s : State) (m : Msg) (n f : Nat) : State := discardLines (countBefore s m n) f m (m.payload.length + 1)

/-- A message enters the mesh; one whose route is cut is discarded there (R228, R437). -/
def send (s : State) (m : Msg) : State :=
  match cutOn s m with
  | some nf => loseAt s m nf.1 nf.2
  | none => s.enqueue m

/-- Record a link event (R232). -/
def linkEvent (s : State) (l : LinkId) (ev : Nat) : State :=
  let pg := pField l.field
  if s.bget (pg + 0x188) 31 then s
  else
    let (n, p) := linkName s l
    s.setReg (pg + 0x188) (BitVec.ofNat 32 (2 ^ 31 + ev * 2 ^ 29 + p * 2 ^ 21 + n))

/-- MESH_STATUS shows the links of field f: how many are down, how many wait for a slot, and whether one is in its slot (R232). -/
def meshStatus (s : State) (f : Nat) : State :=
  let mine := s.links.filter (fun kl => (LinkId.ofKey kl.1).field = f)
  s.setReg (pField f + 0x184) (BitVec.ofNat 32 (min 255 (mine.filter (·.2.down)).length
    + min 255 (s.fmap f).calWait.length * 2 ^ 8 + (mine.any (·.2.active)).toNat * 2 ^ 16))

/-- A message that a link going down cuts short after its header: `n` lines are discarded, and what had passed goes on (R228). -/
def cutShort (m : Msg) (n : Nat) : Msg := { m with payload := m.payload.take (m.payload.length - n), cut := true }

/-- A link goes down (R228). `past` are the messages of the mesh, by position in the list, that have
wholly passed the link; `partly` is the one part-way across it, with its lines still to cross: its header and the lines before them
go on to its destination, where a queue place allocated to it never becomes a token. The headers of the others have left the routers
before the link (R87). -/
def linkDown (s : State) (l : LinkId) (past : List Nat) (partly : Option (Nat × Nat)) : State :=
  let x := s.link l.key
  if x.down then s else
  let pg := pField l.field
  let s := s.setLink l.key { x with down := true, active := false, fwd := {}, bwd := {} }
  let s := (meshStatus s l.field).raise pg 4
  let s := linkEvent s l 1
  let cut := linkCut s l
  let idx := (List.range s.mesh.length).zip s.mesh
  let part := fun (im : Nat × Msg) => (partly.map (·.1)) = some im.1
  let lines := fun (im : Nat × Msg) => if part im then min im.2.payload.length ((partly.map (·.2)).getD 0) else im.2.payload.length + 1
  let hit := fun (im : Nat × Msg) =>
    let e := routeEnds s im.2
    !past.contains im.1 && !im.2.waiting && (crosses s im.2 e.1 e.2 cut || part im)
  let stays := fun (im : Nat × Msg) => if part im then some (if lines im = 0 then im.2 else cutShort im.2 (lines im)) else none
  let count := fun (s : State) (im : Nat × Msg) =>
    let e := routeEnds s im.2
    if part im then s else countBefore s im.2 ((crossAt im.2 e.1 e.2 (gateInto s im.2) cut).getD 0)
  let gone := idx.filter hit
  let s := { s with mesh := idx.filterMap (fun im => if hit im then stays im else some im.2) }
  forEach gone (fun im s => discardLines (count s im) l.field im.2 (lines im)) s

/-- Whether the corrected codewords of a direction's window have reached CAL_THRESH, 0 standing for 256 (R229, R232). -/
def calDue (s : State) (f : Nat) (d : LinkDir) : Bool :=
  let th := s.fget (pField f + 0x180) 7 0
  s.bget (pField f + 0x180) 16 && !d.asked && decide ((if th = 0 then 256 else th) ≤ d.corr)

/-- One more corrected codeword in a direction of a link (R226, R229): counts, and the request for a slot once the window's count
reaches CAL_THRESH; a link with a request waiting adds none. -/
def linkCorr (s : State) (l : LinkId) (back : Bool) (d : LinkDir) : State :=
  let d := { d with corr := d.corr + 1 }
  let due := calDue s l.field d
  let d := { d with asked := d.asked || due }
  let x := s.link l.key
  let pg := pField l.field
  let s := ((s.setLink l.key (if back then { x with bwd := d } else { x with fwd := d })).bump48 pg (pg + 0x190) 1).errCorr pg
  let m := s.fmap l.field
  if due && !m.calWait.contains l.key then meshStatus (s.setFmap l.field { m with calWait := m.calWait ++ [l.key] }) l.field else s

/-- A codeword that the receiver corrected to the wrong data (R454): a payload line of a message on the link's route stands with data that nothing
bounds. Which one is drawn. -/
def wrongLine (s : State) (l : LinkId) : State :=
  let cut := linkCut s l
  let on := (List.range s.mesh.length).filter (fun i => match s.mesh[i]? with
    | some m => m.payload != [] && !m.waiting && crosses s m (routeEnds s m).1 (routeEnds s m).2 cut
    | none => false)
  let (i, s) := s.free 32
  let (j, s) := s.free 32
  let (d, s) := s.free 256
  let at_ := nth s.mesh.length on (i.toNat % max 1 on.length)
  { s with mesh := ((List.range s.mesh.length).zip s.mesh).map (fun im =>
      if im.1 = at_ then
        { im.2 with payload := ((List.range im.2.payload.length).zip im.2.payload).map (fun jl =>
            if jl.1 = j.toNat % im.2.payload.length then { jl.2 with data := d } else jl.2) }
      else im.2) }

/-- LINK_CODEWORD_RECEIVE (R226): what the receiver of one direction decodes. A link in its calibration slot carries no line (R229). -/
def linkReceive (s : State) (l : LinkId) (back : Bool) (c : Cond) : State :=
  let x := s.link l.key
  let d := if back then x.bwd else x.fwd
  if x.down || x.active || d.nak then s
  else match c with
    | .clean => s
    | .corr => linkCorr s l back d
    | .wrong => wrongLine (linkCorr s l back d) l
    | .bad => s.setLink l.key (if back then { x with bwd := { d with nak := true } } else { x with fwd := { d with nak := true } })

/-- LINK_REPLAY (R227): the resend from the refused codeword, and how it decodes. -/
def linkReplay (s : State) (l : LinkId) (back : Bool) (c : Cond) (past : List Nat) (partly : Option (Nat × Nat)) : State :=
  let x := s.link l.key
  let d := if back then x.bwd else x.fwd
  if x.down || !d.nak then s
  else
    let pg := pField l.field
    let s := (s.bump48 pg (pg + 0x198) 1).raise pg 5
    let s := linkEvent s l 0
    let put := fun (s : State) (d : LinkDir) => s.setLink l.key (if back then { x with bwd := d } else { x with fwd := d })
    match c with
    | .bad => if 4 ≤ d.fails + 1 then linkDown (put s { d with fails := d.fails + 1 }) l past partly
              else put s { d with fails := d.fails + 1 }
    | .corr => linkCorr s l back { d with nak := false, fails := 0 }
    | .wrong => wrongLine (linkCorr s l back { d with nak := false, fails := 0 }) l
    | .clean => put s { d with nak := false, fails := 0 }

/-- CAL_WINDOW_EXPIRY (R229): the counts of a link's window of 2^20 cycles begin again. -/
def calWindow (s : State) (l : LinkId) : State :=
  let x := s.link l.key
  s.setLink l.key { x with fwd := { x.fwd with corr := 0, asked := false }, bwd := { x.bwd with corr := 0, asked := false } }

/-- Whether a link of field f is in its slot. -/
def calRunning (s : State) (f : Nat) : Bool := s.links.any (fun kl => kl.2.active && (LinkId.ofKey kl.1).field = f)

/-- CAL_SLOT_START (R222, R229): the field grants its oldest request, in core cycle `cycle`. The request of a link that went down while it waited
keeps its place and is dropped at its turn (DESIGN CHOICE, assumption log 16). -/
def calStart (s : State) (f cycle : Nat) : State :=
  let m := s.fmap f
  let pg := pField f
  match m.calWait with
  | [] => s
  | k :: rest =>
    let x := s.link k
    if calRunning s f || (match m.lastSlot with | some t => decide (cycle < t + 4096) | none => false)
        || x.fwd.nak || x.bwd.nak then s
    else if x.down then meshStatus (s.setFmap f { m with calWait := rest }) f
    else
      let s := s.setFmap f { m with calWait := rest, lastSlot := some cycle }
      let s := (s.setLink k { x with active := true }).bump48 pg (pg + 0x1A0) 1
      linkEvent (meshStatus s f) (LinkId.ofKey k) 2

/-- CAL_SLOT_END (R229): the slot of a field's link ends; `ok` is what retraining found. -/
def calEnd (s : State) (f : Nat) (ok : Bool) (past : List Nat) (partly : Option (Nat × Nat)) : State :=
  match s.links.find? (fun kl => kl.2.active && (LinkId.ofKey kl.1).field = f) with
  | none => s
  | some kl =>
    if ok then meshStatus (s.setLink kl.1 { kl.2 with active := false }) f else linkDown s (LinkId.ofKey kl.1) past partly

/-! ### Arbitration (R214, R234) -/

/-- The input that an output would grant on a VC (R214): the one whose message holds it, else the next in round-robin order over
the inputs that are ready; with it, whether its line is its message's last. The order is that of the inputs' numbers, and before any grant input 0
counts as granted last (DESIGN CHOICE, assumption log 16). -/
def vcInput (o : RouterOut) (v : Nat) (ready : List (Nat × Bool)) : Option (Nat × Bool) :=
  match nth none o.held v with
  | some i => ready.find? (fun r => r.1 = i)
  | none =>
    let order := tab 8 (fun j => (nth 0 o.last v + 1 + j) % 8)
    order.findSome? (fun i => ready.find? (fun r => r.1 = i))

/-- AGEING_GRANT (R214, R234): one cycle of a router output. `ready` lists, for VC0 to VC3, the inputs with a line ready and credit for
it, each with whether that line is the last of its message; `starved` says that a ready line found no credit. A VC that has waited 28
cycles is granted, else the one of highest priority (VC3, VC2, VC0, VC1); an output whose ready line lacks credit counts in PORT_i_STALL
or GW_g_STALL (R87, R290; the LOCAL port's count is SEQUENCER_CYCLE's). -/
def ageGrant (s : State) (sid port : Nat) (ready : List (List (Nat × Bool))) (starved : Bool) : State :=
  let o := SMap.get (fun _ => {}) s.outputs (sid * 8 + port)
  let cand := fun v => vcInput o v (nth [] ready v)
  let order := [3, 2, 0, 1].filter (fun v => (cand v).isSome)
  let pick := match order.find? (fun v => decide (28 ≤ nth 0 o.waits v)) with
    | some v => some v
    | none => order.head?
  let waits := tab 4 (fun u => if (cand u).isNone || pick = some u then 0 else nth 0 o.waits u + 1)
  let o := match pick with
    | some v =>
      let i := (cand v).getD (0, true)
      { o with waits := waits, granted := some v, last := tab 4 (fun u => if u = v then i.1 else nth 0 o.last u),
               held := tab 4 (fun u => if u = v then (if i.2 then none else some i.1) else nth none o.held u) }
    | none => { o with waits := waits, granted := none }
  let s := { s with outputs := SMap.set (fun _ => {}) s.outputs (sid * 8 + port) o }
  if !starved || !s.validSid sid then s
  else if port ≤ 3 then wbump48 s sid 6 (0x508 + 0x10 * port) 1
  else if port = 5 then
    let f := s.fieldOf sid
    match (List.range 64).find? (fun g => gatewayHost s f g = some sid) with
    | some g => s.bump48 (pBob f 2) (pBob f 2 + 0x108 + g * 0x10) 1
    | none => s
  else s

/-- Send the acknowledgement of a message whose source is no spindle; one to a spindle is absorbed
at its router (R271), and only sources with bits [10:0] = 0x7FF receive one from an EP (R304). -/
def sendAck (s : State) (m : Msg) (src : SID) (stale : Bool) : State :=
  if m.src.toNat % 2048 = 0x7FF then
    match codeDest (m.src.toNat / 2048) with
    | some d => send s (ackOf m src stale d)
    | none => s
  else s

/-- Count n headers through the BANK port of field f that a source uses (R290). -/
def countGate (s : State) (f : Nat) (src : SID) (n : Nat) : State :=
  match gatewayFor s f src with
  | some g => s.bump48 (pBob f 2) (pBob f 2 + 0x100 + g * 0x10) n
  | none => s

/-- The source code of bobbin f (R183), which the BANK ports of field f name in their answers. -/
def bankSrc (f : Nat) : SID := srcCode (0x40 + f)

/-- The acknowledgement that a BANK port of field f sends (R271, R304). The router of a spindle absorbs the
one addressed to it, which leaves by no port there. -/
def bankAck (s : State) (f : Nat) (m : Msg) : State :=
  let s := countGate s f m.src 1
  let via := gatewayFor s f m.src
  if m.src.toNat % 2048 = 0x7FF then
    match codeDest (m.src.toNat / 2048) with
    | some d => send s { ackOf m (bankSrc f) false d with via := via }
    | none => s
  else countRoute s { ackOf m (bankSrc f) false (.spindle m.src.toNat) with via := via } false

/-! ### The commands of the mesh -/

/-- LINK_CODEWORD_RECEIVE (R226). -/
def execLinkCodewordReceive (field : Fin 64) (loc : Fin 32768) (detail : Fin 16) (back : Bool) (c : Cond) (s : State) : Out :=
  .next (linkReceive s ⟨field.val, loc.val, detail.val⟩ back c)

/-- LINK_REPLAY (R227, R228). -/
def execLinkReplay (field : Fin 64) (loc : Fin 32768) (detail : Fin 16) (back : Bool) (c : Cond) (past : List Nat)
    (partly : Option (Nat × Nat)) (s : State) : Out :=
  .next (linkReplay s ⟨field.val, loc.val, detail.val⟩ back c past partly)

/-- AGEING_GRANT (R214). -/
def execAgeingGrant (sid : SID) (port : Fin 8) (ready : List (List (Nat × Bool))) (starved : Bool) (s : State) : Out :=
  .next (ageGrant s sid.toNat port.val ready starved)

/-- CAL_WINDOW_EXPIRY (R229). -/
def execCalWindowExpiry (field : Fin 64) (loc : Fin 32768) (detail : Fin 16) (s : State) : Out :=
  .next (calWindow s ⟨field.val, loc.val, detail.val⟩)

/-- CAL_SLOT_START (R222, R229). -/
def execCalSlotStart (field : Fin 64) (cycle : Nat) (s : State) : Out :=
  .next (calStart s field.val cycle)

/-- CAL_SLOT_END (R229). -/
def execCalSlotEnd (field : Fin 64) (ok : Bool) (past : List Nat) (partly : Option (Nat × Nat)) (s : State) : Out :=
  .next (calEnd s field.val ok past partly)

end Sys2Proof.Machine
end

