-- ==== Sys2Proof/Machine/Spindle.lean ====
section
/-! DEFINITION. One spindle (chapters "The spindle" and "Plies, calls and the sequencer"): store reads
and writes, address generators, counters and conditions, queue tokens and pops, sends, the vector
unit's operands and write-back, and the sequencer's cycle (R161). -/
namespace Sys2Proof.Machine

/-! ### Store lines (R55 to R61) -/

/-- Bit mask of the bank of line L (R55). -/
def bankOf (L : Nat) : BitVec 8 := 1#8 <<< (L % 8)

/-- STORE_ERR_LAST takes a line while it holds none (R61, R86). -/
def Spindle.errLast (p : Spindle) (L : Nat) (unc : Bool) : Spindle :=
  if getB (p.wreg 5 0x58) 31 then p
  else p.setW 5 0x58 (BitVec.ofNat 32 (2 ^ 31 + unc.toNat * 2 ^ 30 + L % 2048))

/-- Record a store error (R61, R86). -/
def storeErr (s : State) (sid L : Nat) (unc : Bool) : State :=
  let s := s.modSpin sid (fun p => (p.spFlag (if unc then 3 else 2)).errLast L unc)
  let s := wbump31 s sid 5 (if unc then 0x54 else 0x50) 1
  if unc then s.errUncorr (fcPage s sid) else s.errCorr (fcPage s sid)

/-- Read store line L (R61): what the decoder delivers. A marked line, or one that decodes as
uncorrectable, is delivered with its mark; a line that is not marked and decodes as uncorrectable holds
arbitrary data (R4: of what it held and the zero of the tests, R80) and stays so until it is written (R457, R462). One that is corrected to the
wrong data is delivered and written back with data that nothing bounds (R454). -/
def storeRead (s : State) (sid L : Nat) (c : Cond) : Line × State :=
  let l := readLine s (storeAddr sid L)
  match effCond l c with
  | .clean => (l, s)
  | .corr => (l, (storeErr s sid L false).modSpin sid (fun p => { p with wback := p.wback ++ [L % 2048] }))
  | .wrong =>
    let (d, s) := ((storeErr s sid L false).modSpin sid (fun p => { p with wback := p.wback ++ [L % 2048] })).free 256
    (⟨d, false⟩, writeLine s (storeAddr sid L) ⟨d, false⟩)
  | .bad =>
    let s := storeErr s sid L true
    if l.bad then (l, s) else (let (d, s) := s.mix l.data 0#256; (⟨d, true⟩, writeLine s (storeAddr sid L) ⟨d, true⟩))

/-- The MW_MASK bits of the lines of a write, low nibble for line L, high nibble for L + 1 (R151). -/
def mwLanes (size mask : Nat) : Nat × Nat :=
  match size with
  | 0 => (15, 0)
  | 1 => (15, 0)
  | 2 => (15, 15)
  | _ => (mask % 16, mask / 16 % 16)

/-- The bits of a line that a nibble of MW_MASK selects: two lanes of 32 bits a bit. -/
def laneMask (nib : Nat) : Nat :=
  (List.range 4).foldl (fun a i => if nib.testBit i then a + (2 ^ 64 - 1) <<< (64 * i) else a) 0

/-- Write the lanes that `nib` selects of one line, by read–modify–write when some are left out (R60). -/
def storeWrite (s : State) (sid L nib : Nat) (d : BitVec 256) (c : Cond) : State :=
  let a := storeAddr sid L
  if nib = 0 then s
  else if nib = 15 then writeLine s a ⟨d, false⟩
  else
    let l := readLine s a
    let new := fun (old : BitVec 256) => BitVec.ofNat 256 (blend old.toNat d.toNat (laneMask nib))
    match effCond l c with
    | .clean => writeLine s a ⟨new l.data, false⟩
    | .corr => writeLine (storeErr s sid L false) a ⟨new l.data, false⟩
    | .wrong => (let (d', s) := (storeErr s sid L false).free 256; writeLine s a ⟨new d', false⟩)
    | .bad =>
      let s := storeErr s sid L true
      if l.bad then writeLine s a ⟨new l.data, true⟩
      else (let (d', s) := s.mix l.data 0#256; writeLine s a ⟨new d', true⟩)

/-! ### Address generators, counters and conditions (R69, R157 to R159) -/

/-- Result A of address generator a of ply k (R69); code 3 gives 0. -/
def agVal (p : Spindle) (k a : Nat) : Nat :=
  if 3 ≤ a then 0
  else
    let base : Int := (p.wreg (1 + k) (0x90 + 0x10 * a)).toNat
    let stride := fun i => sext 16 (p.wf_ (1 + k) (0x94 + 0x10 * a + 4 * (i / 2)) (16 * (i % 2) + 15) (16 * (i % 2)))
    wrapInt 32 ((List.range 6).foldl (fun (acc : Int) i => acc + stride i * (p.ctr k i : Int)) base)

/-- Bound B and stride S of counter i (R157). -/
def ctrBound (p : Spindle) (k i : Nat) : Nat :=
  let b := p.wf_ (1 + k) (0x60 + 8 * i) 31 16
  if b = 0 then 65536 else b
def ctrStride (p : Spindle) (k i : Nat) : Nat := p.wf_ (1 + k) (0x60 + 8 * i) 15 0

/-- Whether the next step of counter i wraps: v + S ≥ B (R157). -/
def ctrLast (p : Spindle) (k i : Nat) : Bool := decide (ctrBound p k i ≤ p.ctr k i + ctrStride p k i)

/-- One step (R157). -/
def ctrStep (p : Spindle) (k i : Nat) : Spindle :=
  p.setCtr k i (if ctrLast p k i then 0 else p.ctr k i + ctrStride p k i)

/-- COND of an action word (R159). -/
def condOf (p : Spindle) (k w : Nat) : Bool :=
  let c := fld w 243 241
  if 6 ≤ c then true
  else match fld w 240 239 with
  | 0 => true
  | 1 => (List.range (c + 1)).all (ctrLast p k)
  | 2 => !(List.range (c + 1)).all (ctrLast p k)
  | _ => p.ctr k c = 0

/-- The counter updates of the codes CU0 to CU5 (R158). The flag carried along says whether counter
i − 1 stepped and wrapped. -/
def ctrUpdate (p : Spindle) (k w : Nat) : Spindle :=
  ((List.range 6).foldl (fun (st : Spindle × Bool) i =>
    let q := st.1
    match fld w (173 + 2 * i) (172 + 2 * i) with
    | 1 => (ctrStep q k i, ctrLast p k i)
    | 2 => (q.setCtr k i 0, false)
    | 3 => if st.2 then (ctrStep q k i, ctrLast p k i) else (q, false)
    | _ => (q, false)) (p, false)).1

/-! ### Queues seen by the sequencer (R152, R155, R195, R199, R260) -/

def rqOff (q : Nat) : Nat := 0x100 + 0x20 * q
def cqOff (q : Nat) : Nat := 0x200 + 0x10 * q
def hqOff (q : Nat) : Nat := 0x240 + 0x10 * q

/-- BASE, SIZE, HEAD, TAIL and USED of receive queue q of ply k (R191). -/
def rqBase (p : Spindle) (k q : Nat) : Nat := p.wf_ (1 + k) (rqOff q + 4) 10 0
def rqSize (p : Spindle) (k q : Nat) : Nat := p.wf_ (1 + k) (rqOff q + 4) 26 16
def rqHead (p : Spindle) (k q : Nat) : Nat := p.wf_ (1 + k) (rqOff q + 0xC) 10 0
def rqTail (p : Spindle) (k q : Nat) : Nat := p.wf_ (1 + k) (rqOff q + 0xC) 26 16
def rqUsed (p : Spindle) (k q : Nat) : Nat := p.wf_ (1 + k) (rqOff q + 0x14) 10 0

/-- The stored line at a ring offset of a queue. -/
def ringLine (s : State) (sid k q off : Nat) : Nat :=
  (readLine s (storeAddr sid (rqBase (s.spin sid) k q + off))).data.toNat

/-- The offset of the head message record, and the skipped lines in front of it (R195): HEAD may hold
a skip record when the ring was empty as the skip was written. -/
def rqHeadRec (s : State) (sid k q : Nat) : Nat × Nat :=
  let h := rqHead (s.spin sid) k q
  let l := ringLine s sid k q h
  if fld l 31 29 = 2 then (0, fld l 42 32) else (h, 0)

/-- Whether a queue code's queue holds a token (R152). A place whose message was cut short holds none, and
the tokens behind it wait (R228). -/
def holdsToken (s : State) (sid k code : Nat) : Bool :=
  let p := s.spin sid
  if code ≤ 1 then true
  else if code ≤ 3 then
    let d := (p.wreg (1 + k) (hqOff (code - 2) + 8) - p.wreg (1 + k) (hqOff (code - 2) + 12)).toNat
    decide (1 ≤ d) && decide (d < 2 ^ 31)
  else if code ≤ 7 then getB (p.wreg (1 + k) (cqOff (code - 4) + 8)) 15
  else
    let q := code - 8
    rqUsed p k q != 0 && !p.holes.contains (k * 8 + q, (rqHeadRec s sid k q).1)

/-- Pop receive queue q (R195). -/
def popRq (s : State) (sid k q : Nat) : State :=
  let p := s.spin sid
  let (h, skip) := rqHeadRec s sid k q
  let n := fld (ringLine s sid k q h) 26 24 + 2
  let size := max 1 (rqSize p k q)
  let h' := (h + n) % size
  let used := rqUsed p k q - n - skip
  let l' := ringLine s sid k q h'
  let (h'', used', n') :=
    if used != 0 && fld l' 31 29 = 2 then (0, used - fld l' 42 32, n + skip + fld l' 42 32) else (h', used, n + skip)
  let p := (p.setWf (1 + k) (rqOff q + 0xC) 10 0 h'').setWf (1 + k) (rqOff q + 0x14) 10 0 used'
  s.setSpin sid { p with freed := SMap.set (fun _ => 0) p.freed (k * 8 + q) n' }

/-- Lane l of combining queue q's accumulator (R85). -/
def cqAcc (p : Spindle) (k q l : Nat) : BitVec 128 :=
  BitVec.ofNat 128 ((List.range 4).foldl (fun a j => a + (p.wreg (1 + k) (0x400 + 0x100 * q + 0x10 * l + 4 * j)).toNat <<< (32 * j)) 0)
def setCqAcc (p : Spindle) (k q l : Nat) (v : BitVec 128) : Spindle :=
  iter 4 (fun j p => p.setW (1 + k) (0x400 + 0x100 * q + 0x10 * l + 4 * j) (BitVec.ofNat 32 (v.toNat >>> (32 * j)))) p
def clearCqAcc (p : Spindle) (k q : Nat) : Spindle := iter 16 (fun l p => setCqAcc p k q l 0#128) p

/-- Pop combining queue q (R199, R519). -/
def popCq (p : Spindle) (k q : Nat) : Spindle :=
  let o := cqOff q + 8
  (clearCqAcc p k q).setW (1 + k) o (putF (p.wreg (1 + k) o) 15 14 0)

/-- Pop hank queue q (R260). -/
def popHq (s : State) (sid k q : Nat) : State :=
  let p := s.spin sid
  let o := hqOff q
  let d0 := p.wreg (1 + k) o
  let cons := p.wreg (1 + k) (o + 12)
  let h := cons.toNat % max 1 (getF d0 24 16)
  let base := wrapInt 32 ((p.wf_ (1 + k) (o + 4) 22 0 : Int) + (h : Int) * sext 16 (getF d0 15 0))
  let p := if getF d0 26 25 = 3 then p else p.setW (1 + k) (0x90 + 0x10 * getF d0 26 25) (BitVec.ofNat 32 base)
  let p := p.setW (1 + k) (o + 12) (cons + 1#32)
  wbump48 (s.setSpin sid p) sid 6 (0x400 + 0x20 * k + 0x10 * q) 1

/-- Consume one token of the queue that a code names (R155). -/
def popCode (s : State) (sid k code : Nat) : State :=
  if code ≤ 1 then s
  else if code ≤ 3 then popHq s sid k (code - 2)
  else if code ≤ 7 then s.modSpin sid (fun p => popCq p k (code - 4))
  else popRq s sid k (code - 8)

/-! ### MP reads (R153, R199) -/

/-- The store lines an MP read loads; `none` reads as a zero line. -/
def mpLines (s : State) (sid k src qag : Nat) : List (Option Nat) :=
  let p := s.spin sid
  if src ≤ 2 then (let A := agVal p k src; [some (A % 2048), some ((A + 1) % 2048)])
  else if 8 ≤ src then
    let q := src - 8
    let h := (rqHeadRec s sid k q).1
    let len := fld (ringLine s sid k q h) 26 24
    let o := agVal p k qag % 8
    [o, o + 1].map (fun j => if j ≤ len then some ((rqBase p k q + h + 1 + j) % 2048) else none)
  else []

/-- What an action loads into register r when what it read is uncorrectable: arbitrary content, of the register's and the read's (R4), and
a run fault in a running placement (R61). -/
def spoiled (s : State) (sid r : Nat) (v : BitVec 512) : BitVec 512 × State :=
  let (d, s) := s.mix ((s.spin sid).vreg r) v
  (d, if s.live sid then runFault s ⟨2, some (s.fieldOf sid), some sid⟩ else s)

/-- Read the two lines that an action loads into register r (R61). -/
def mpReadVal (s : State) (sid r : Nat) (lines : List (Option Nat)) (conds : List Cond) : BitVec 512 × State :=
  let rd := fun (s : State) (i : Nat) => match nth none lines i with
    | some L => storeRead s sid L (nth .clean conds i)
    | none => ({}, s)
  let (lo, s) := rd s 0
  let (hi, s) := rd s 1
  let v := hi.data ++ lo.data
  if lo.bad || hi.bad then spoiled s sid r v else (v, s)

/-- The register value and flags of combining queue q's sum (R199): converted by RNE, with the active ply's FTZ_OUT (R114), or four raw
lanes. -/
def cqSum (p : Spindle) (k q qag : Nat) : BitVec 512 × Flags :=
  let d0 := p.wreg (1 + k) (cqOff q)
  let sc := sext 8 (getF d0 7 0)
  match Fmt.ofCode (getF d0 16 12) with
  | .la128 =>
    let j := agVal p k qag % 4
    (cqAcc p k q (4 * j + 3) ++ cqAcc p k q (4 * j + 2) ++ cqAcc p k q (4 * j + 1) ++ cqAcc p k q (4 * j), noFlags)
  | f =>
    if f = .fp32 || f = .fp19 || f = .int32 then
      let rs := tab 16 (fun l => laConvert f { ftzOut := (p.modes p.ply).ftzOut } 0 (cqAcc p k q l) sc)
      (BitVec.ofNat 512 ((List.range 16).foldl (fun a l => a + (nth (0, noFlags) rs l).1 <<< (32 * l)) 0),
        rs.foldl (fun a r => a.or r.2) noFlags)
    else (0#512, flInvalid)

/-- What a read of combining queue q's released token loads into register r (R199). A poisoned sum is handled as an uncorrectable store
line (R61, R519); the line number that STORE_ERR_LAST then takes is free. -/
def cqReadVal (s : State) (sid r k q qag : Nat) : BitVec 512 × State :=
  let p := s.spin sid
  let (v, fl) := cqSum p k q qag
  if getB (p.wreg (1 + k) (cqOff q + 8)) 14 then
    let (L, s) := s.free 11
    let s := s.modSpin sid (fun p => (p.spFlag 3).errLast L.toNat true)
    spoiled ((wbump31 s sid 5 0x54 1).errUncorr (fcPage s sid)) sid r v
  else (v, s.modSpin sid (fun p => p.addFlags p.ply fl))

/-! ### Sends (R83, R84, R154, R182) -/

/-- Whether route entry rt may be used (R83, R184). -/
def routeOk (p : Spindle) (k rt : Nat) : Bool :=
  let d := p.wreg (1 + k) (0x300 + 0x10 * rt)
  getB d 31 && !(getB d 23 && decide (2 ≤ getF d 30 29))

/-- The message that a send starts (R182). `w` is the action word. -/
def buildMsg (s : State) (sid k w : Nat) : IpMsg :=
  let p := s.spin sid
  let rt := fld w 126 123
  let o := 0x300 + 0x10 * rt
  let d := p.wreg (1 + k) o
  let t := p.wreg (1 + k) (o + 4)
  let kind := getF d 30 29
  let req := getB d 23
  let dest := getF d 20 0
  let isPort := portCode (BitVec.ofNat 21 dest)
  let chime := decide (kind = 3) && !isPort
  let A := agVal p k (fld w 121 120)
  let rea := (p.wreg (1 + k) (o + 8)).toNat / 32 * 32 + 2 ^ 32 * p.wf_ (1 + k) (o + 12) 15 0
  let ea := if req || chime || isPort then rea + A * 32
            else if kind = 2 then storeAddr dest A else 0
  let K := if s.placed sid then s.abortK else 0
  let tag := BitVec.ofNat 16 (putF (BitVec.ofNat 32 (getF t 15 0)) 13 10 (getF t 13 10 + K)).toNat
  let fromReg := w.testBit 122
  let reg := p.vreg (fld w 119 114)
  let regs : List Line := if fromReg && !req then [⟨reg.setWidth 256, false⟩, ⟨(reg >>> 256).setWidth 256, false⟩] else []
  { hdr := { dst := .spindle dest, vc := if req then 1 else if kind = 3 then 3 else 0, kind := kind, req := req,
             len := getF d 26 24, dest := BitVec.ofNat 21 dest, src := BitVec.ofNat 21 sid, tag := tag,
             ea := BitVec.ofNat 48 ea, seq := SMap.get (fun _ => 0) p.seqs (k * 16 + rt) % 256,
             arg := if chime && fromReg then reg.setWidth 32 else 0#32 }
    todo := if req || chime then 1 else getF d 26 24 + 2
    store := if fromReg || req then none else some (A % 2048)
    regs := regs
    tap := if getB t 31 then some (getF t 27 24) else none
    sent := false }

/-- Start a send (R154): the IP takes the message; the entry's message count rises (R182). -/
def startSend (s : State) (sid k w : Nat) : State :=
  let m := buildMsg s sid k w
  s.modSpin sid (fun p =>
    { p with ip := p.ip ++ [m],
             seqs := SMap.set (fun _ => 0) p.seqs (k * 16 + fld w 126 123)
               ((SMap.get (fun _ => 0) p.seqs (k * 16 + fld w 126 123) + 1) % 256) })

/-- The store lines that started messages have still to read (R58). -/
def ipLines (p : Spindle) : List Nat :=
  (p.ip.map (fun m =>
    match m.store with
    | some L => if m.sent then [] else
        tab (if m.hdr.single then 1 else if m.todo = m.hdr.len + 2 then m.hdr.len + 1 else m.todo) (fun i => (L + i) % 2048)
    | none => [])).flatten

/-! ### The vector unit -/

/-- The inputs of an operation that ply k fires as action `act` (R112, R126 to R129). -/
def vuInputs (p : Spindle) (sid k act : Nat) (w : VuW) : VuIn :=
  { A := (p.vreg w.srcA).toNat, B := (p.vreg w.srcB).toNat, C := (p.vreg w.srcC).toNat,
    la := p.lacc, sc := p.scale, md := p.modes k,
    sr := { seed := p.wreg (1 + k) 0x54 ++ p.wreg (1 + k) 0x50, sid := sid, ply := k, act := act,
            c := tab 6 (p.ctr k) } }

/-- Write the result of an operation: register bits, accumulators, flags of its ply (R123, R133). -/
def vuCommit (p : Spindle) (x : VuFly) : Spindle :=
  let p := if x.res.mask = 0 then p
    else p.setV x.dst (BitVec.ofNat 512 (blend (p.vreg x.dst).toNat x.res.val x.res.mask))
  let p := match x.res.la with
    | .none => p
    | .add i vals => iter 16 (fun l p => p.setLa i l (p.lacc i l + nth 0#128 vals l)) p
    | .clr i => iter 16 (fun l p => p.setLa i l 0#128) p
    | .scl i sc => (iter 16 (fun l (p : Spindle) => p.setLa i l 0#128) p).setScale i sc.toNat
    | .regrid i sc vals => (iter 16 (fun l (p : Spindle) => p.setLa i l (nth 0#128 vals l)) p).setScale i sc.toNat
  p.addFlags x.ply x.res.fl

/-- The operation an action fires, as it stands in the VU until its result is written. -/
def vuStart (p : Spindle) (sid k act word : Nat) : VuFly :=
  let w := vuDecode word
  let x := vuInputs p sid k act w
  { left := vuLatency w, ply := k, act := act, op := w.op, dst := w.dst, lai := w.lai, res := vuCompute w x,
    lane := p.wf_ 5 0x4C 3 0, word := word, a := x.A, b := x.B, c := x.C,
    modes := p.wf_ (1 + k) 0x44 5 0, sr := x.sr }

/-- Whether a register is still being written by an earlier VU operation or MP load (R58). -/
def regBusy (p : Spindle) (r : Nat) : Bool :=
  p.vu.any (fun x => x.res.mask != 0 && x.dst = r) || p.mp.any (fun x => x.reg = r)

/-- The VU hold of an operation (R58, R134). -/
def vuHold (p : Spindle) (sid k act word : Nat) : Bool :=
  let w := vuDecode word
  if !vuAssigned w.op || w.op = 0 then false
  else
    let y := vuStart p sid k act word
    let onIdx := fun (x : VuFly) => vuOnLa x.op && x.lai = w.lai
    (vuReads w).any (regBusy p)
    || (y.res.mask != 0 && y.res.mask != fullMask && regBusy p y.dst)
    || (vuUsesMul w.op && p.mulBusy != 0)
    || ((p.laBusy &&& vuLaCycles w) != 0)
    || (y.res.mask != 0 && p.vu.any (fun x => x.res.mask != 0 && x.dst = y.dst && decide (y.left < x.left)))
    || ((w.op = 0x2C || vuLaSets w.op) && p.vu.any onIdx)
    || (vuAccum w.op && p.vu.any (fun x => onIdx x && vuLaSets x.op))

/-! ### Loads by request (R173) -/

/-- Whether ply k is loading. -/
def Spindle.loading (p : Spindle) (k : Nat) : Bool := match p.load with | some l => l.ply = k | none => false

/-- A load is requested; the caller has checked that none waits. A request for a ply that is not active, or that is EMPTY, starts
(R176); so does one that meets the switch into its ply (R172): `act` is the ply that was active in the cycle of the request. -/
def requestLoad (s : State) (sid ply base act : Nat) : State :=
  s.modSpin sid (fun p => { p with loadWait := some (ply, base % 2048, ply != act || !(p.loaded ply || p.loading ply)) })

/-! ### Switching (R163) -/

/-- Ply q becomes active at its SAVED action, or at ENTRY when it has not been active since its load (R163, R325). -/
def enterPly (p : Spindle) (q : Nat) : Spindle :=
  let p := { p with ply := q }
  (p.setCur q (if p.wasActive q then p.saved q else p.entry q)).setActive q true

/-- Make ply q the active ply; `next` is where the ply left resumes. -/
def switchPly (p : Spindle) (q next : Nat) : Spindle := enterPly (p.setSaved p.ply next) q

/-! ### The cycle -/

/-- The queue, as a code of R152, that an action must find a token in. -/
def tokenCodes (w : Nat) : List Nat :=
  let src := fld w 94 91
  [fld w 223 220, fld w 219 216, fld w 113 110, fld w 109 106]
    ++ (if w.testBit 95 && decide (4 ≤ src) then [src] else [])

/-- Whether tap guard g holds (R160, R74). -/
def guardOk (p : Spindle) (k w : Nat) (second : Bool) : Bool :=
  let (en, t, ag, ofs) := if second then (w.testBit 200, fld w 199 196, fld w 195 194, fld w 191 184)
    else (w.testBit 215, fld w 214 211, fld w 210 209, fld w 208 201)
  let b := wrapInt 16 ((agVal p k ag % 65536 : Nat) + sext 8 ofs)
  !en || decide ((p.tap t + 65536 - b) % 65536 < 32768)

/-- What an MP write touches: per line, the line, its MW_MASK nibble. -/
def mwTargets (p : Spindle) (k w : Nat) : List (Nat × Nat) :=
  if w.testBit 84 && fld w 83 82 != 3 then
    let A := agVal p k (fld w 83 82)
    let n := mwLanes (fld w 75 74) (fld w 73 66)
    ([(A % 2048, n.1), ((A + 1) % 2048, n.2)]).filter (fun t => t.2 != 0)
  else []

/-- Banks that lines occupy. -/
def banksOf (ls : List Nat) : BitVec 8 := ls.foldl (fun m L => m ||| bankOf L) 0#8

/-- The wait codes that hold for an action (R161). `busy` are the banks taken in this cycle. -/
def waitCodes (s : State) (sid k act w : Nat) (busy : BitVec 8) : List Nat :=
  let p := s.spin sid
  let codes := (tokenCodes w).filter (fun c => decide (2 ≤ c))
  let send := w.testBit 127
  let tokens := codes.all (holdsToken s sid k)
  let rd := if w.testBit 95 && tokens then (mpLines s sid k (fld w 94 91) (fld w 105 104)).filterMap id else []
  let wr := mwTargets p k w
  let rb := banksOf rd
  let wnow := banksOf (wr.map (·.1)) &&& ~~~rb
  let loadLines := match p.load with
    | some l => tab (87 - l.next) (fun i => (l.base + l.next + i) % 2048)
    | none => []
  (if !tokens then [2] else [])
  ++ (if send && decide (4 ≤ p.ip.length) then [3] else [])
  ++ (if !(guardOk p k w false && guardOk p k w true) then [4] else [])
  ++ (if (busy &&& (rb ||| wnow)) != 0#8 then [5] else [])
  ++ (if vuHold p sid k act (w % 2 ^ 64)
        || (w.testBit 84 && fld w 83 82 != 3 && regBusy p (fld w 81 76))
        || (send && w.testBit 122 && regBusy p (fld w 119 114))
        || wr.any (fun t => (ipLines p).contains t.1 || loadLines.contains t.1)
        || (w.testBit 233 && p.loadWait.isSome)
      then [6] else [])
  ++ (if send && !routeOk p k (fld w 126 123) then [7] else [])

/-- A spindle without one thing that the EP formed. -/
def Spindle.unform (p : Spindle) : Formed → Spindle
  | .record k q off => { p with holes := p.holes ++ [(k * 8 + q, off)] }
  | .sum k q => p.setW (1 + k) (cqOff q + 8) (putB (p.wreg (1 + k) (cqOff q + 8)) 15 false)
  | .tap t n => p.setTap t (p.tap t + 65536 - n % 65536)
  | .handle k q n => p.setW (1 + k) (hqOff q + 8) (p.wreg (1 + k) (hqOff q + 8) - BitVec.ofNat 32 n)

/-- What the guards of a cycle see of a spindle: without what the EP has formed since the last cycle ended (R73, R187, R201, R210). -/
def Spindle.seen (p : Spindle) : Spindle := p.fresh.foldl (fun p e => p.unform e.2) p

/-- The state that the guards of spindle sid see. -/
def seenBy (s : State) (sid : Nat) : State := s.modSpin sid Spindle.seen

/-- Close the last cycle: MP loads due are written, latencies count down, the ply load takes its pair
from the banks left over (R174). -/
def closeCycle (s : State) (sid : Nat) (conds : List Cond) : State :=
  let p := s.spin sid
  let p := (p.mp.filter (fun m => m.left = 0)).foldl (fun p m => p.setV m.reg m.val) p
  let p := { p with mp := (p.mp.filter (fun m => m.left != 0)).map (fun m => { m with left := m.left - 1 }),
                    vu := p.vu.map (fun x => { x with left := x.left - 1 }),
                    mulBusy := p.mulBusy - 1, laBusy := p.laBusy >>> 1 }
  let s := s.setSpin sid p
  match p.load with
  | none => s
  | some l =>
    let need := if l.next < 86 then [l.base + l.next, l.base + l.next + 1] else [l.base + l.next]
    if 87 ≤ l.next || (banksOf need &&& p.busy) != 0#8 then s
    else
      let ic := (List.range need.length).zip need
      let r := ic.foldl (fun (st : (List Line) × State) (il : Nat × Nat) =>
        let (ln, s) := storeRead st.2 sid il.2 (nth .clean conds (4 + il.1))
        (st.1 ++ [ln], s)) ([], s)
      r.2.modSpin sid (fun p => { p with load := some { l with
        next := l.next + need.length, bad := l.bad || r.1.any (·.bad), data := l.data ++ r.1.map (·.data) } })

/-- Hold the current action: STALL, STALL_CYCLES and the hank queues' STALL counts (R86, R260). -/
def stallCycle (s : State) (sid k code w : Nat) : State :=
  let s := s.modSpin sid (fun p => { p with stall := code })
  let s := if s.live sid then wbump48 s sid 5 0x88 1 else s
  if code = 2 then
    forEach [2, 3] (fun c s =>
      if (tokenCodes w).contains c && !holdsToken (seenBy s sid) sid k c then wbump48 s sid 6 (0x400 + 0x20 * k + 0x10 * (c - 2) + 8) 1 else s) s
  else s

/-- The MP read of a firing action (R153, R59). -/
def fireRead (s : State) (sid k w : Nat) (conds : List Cond) : State :=
  let src := fld w 94 91
  if w.testBit 95 && src != 3 then
    let (v, s) := if 4 ≤ src ∧ src ≤ 7 then cqReadVal s sid (fld w 90 85) k (src - 4) (fld w 105 104)
      else mpReadVal s sid (fld w 90 85) (mpLines s sid k src (fld w 105 104)) conds
    s.modSpin sid (fun p => { p with mp := p.mp ++ [⟨2, fld w 90 85, v⟩] })
  else s

/-- The MP write of a firing action, reading MW_REG of `p0` (R153, R60). -/
def fireWrite (s : State) (p0 : Spindle) (sid k w : Nat) (conds : List Cond) : State :=
  let v := p0.vreg (fld w 81 76)
  let size := fld w 75 74
  let half := fun (hi : Bool) => if hi then (v >>> 256).setWidth 256 else v.setWidth 256
  let L0 := agVal p0 k (fld w 83 82) % 2048
  forEach (mwTargets p0 k w) (fun t s =>
    let second := t.1 != L0
    storeWrite s sid t.1 t.2 (half (size = 1 || second)) (nth .clean conds (if second then 3 else 2))) s

/-- Whether the VU executes an operation for an OP: an assigned one, and not NOP. -/
def vuRuns (op : Nat) : Bool := vuAssigned op && op != 0

/-- SHADOW_PTR.LANE moves on after a cycle with an operation (R75). -/
def nextLane (p : Spindle) : Spindle := p.setWf 5 0x4C 3 0 (p.wf_ 5 0x4C 3 0 + 1)

/-- The VU operation of a firing action (R133, R75). -/
def fireVu (s : State) (p0 : Spindle) (sid k act word : Nat) : State :=
  let w := vuDecode word
  if w.op = 0 then s
  else if !vuAssigned w.op then s.modSpin sid (fun p => p.addFlags k flInvalid)
  else
    let x := vuStart p0 sid k act word
    s.modSpin sid (fun p =>
      let p := { p with vu := p.vu ++ [x],
                        mulBusy := if vuUsesMul w.op then vuK w else p.mulBusy,
                        laBusy := p.laBusy ||| vuLaCycles w }
      nextLane p)

/-- TINC0 and TINC1 (R156). -/
def fireTaps (s : State) (sid w : Nat) : State :=
  let t0 := fld w 171 168
  let n0 := fld w 167 164
  let t1 := fld w 163 160
  let n1 := fld w 159 156
  if t0 = t1 then tapAdd s sid t0 (n0 + n1) else tapAdd (tapAdd s sid t0 n0) sid t1 n1

/-- POP_A and POP_B (R155). -/
def firePops (s : State) (sid k w : Nat) : State :=
  let a := fld w 113 110
  let b := fld w 109 106
  let s := popCode s sid k a
  if b = a then s else popCode s sid k b

/-- Fire action `act` (R161, R162): every effect uses the state at the start of the cycle; the pops read their records before the write. -/
def fireAction (s : State) (sid k act w : Nat) (conds : List Cond) : State :=
  let p0 := s.spin sid
  let cond := condOf p0 k w
  let rd := (mpLines s sid k (fld w 94 91) (fld w 105 104)).filterMap id
  let rb := if w.testBit 95 then banksOf rd else 0#8
  let wr := mwTargets p0 k w
  let later := banksOf (wr.map (·.1)) &&& rb
  let now := banksOf (wr.map (·.1)) &&& ~~~rb
  let rmw := if fld w 75 74 = 3 && fld w 73 66 != 0xFF then banksOf (wr.map (·.1)) else 0#8
  let s := if w.testBit 127 then startSend s sid k w else s
  let s := fireRead s sid k w conds
  let s := firePops s sid k w
  let s := fireWrite s p0 sid k w conds
  let s := fireVu s p0 sid k act (w % 2 ^ 64)
  let s := s.modSpin sid (fun p => ctrUpdate p k w)
  let s := fireTaps s sid w
  let s := if w.testBit 233 then requestLoad s sid (fld w 232 231) (agVal p0 k (fld w 230 229)) k else s
  let s := wbump48 s sid 5 0x80 1
  let next := if w.testBit 238 || cond then fld w 255 250 else fld w 249 244
  let sw := match fld w 237 236 with
    | 1 => true
    | 2 => cond
    | _ => false
  s.modSpin sid (fun p =>
    let p := { p with busy := p.busy ||| rb ||| now,
                      carry := p.carry ||| later ||| (rmw &&& now), carry2 := p.carry2 ||| (rmw &&& later) }
    let p := { p with stall := 0 }
    if sw && fld w 235 234 != k then switchPly p (fld w 235 234) next else p.setCur k next)

/-- The sequencer's evaluation of the current action (R161). -/
def sequence (s : State) (sid : Nat) (conds : List Cond) : State :=
  let p := s.spin sid
  let k := p.ply
  let act := p.curAct k
  let w := p.action k act
  if !s.live sid || p.hold || p.dead || !p.loaded k then stallCycle s sid k 7 0
  else if w.testBit 238 && !condOf p k w then
    (stallCycle s sid k 1 w).modSpin sid (fun p => p.setCur k (fld w 249 244))
  else
    match (waitCodes (seenBy s sid) sid k act w p.busy) with
    | [] => fireAction s sid k act w conds
    | c :: _ => stallCycle s sid k c w

/-- Whether the spindles of a field do not work: its compute domain is off, or its page is OUT or TESTING, as through a
reset (R22, R231). -/
def fieldIdle (s : State) (f : Nat) : Bool := (s.pow f).computeOff || decide (s.readyState (pField f) < 2)

/-- Whether a spindle exists and its field works. -/
def spinOn (s : State) (sid : Nat) : Bool := s.validSid sid && !fieldIdle s (s.fieldOf sid)

/-- The word that a step of one operation acts on: `w` with its OP replaced. -/
def withOp (w op : Nat) : Nat := w % 2 ^ 58 + op * 2 ^ 58

/-- One VU operation by itself, on the active ply and its current action: result and flags at once, and the shadow lane's step. -/
def vuRow (s : State) (sid : Nat) (word : Nat) : State :=
  if spinOn s sid then
    let p := s.spin sid
    let q := vuCommit p (vuStart p sid p.ply (p.curAct p.ply) word)
    s.setSpin sid (if vuRuns (vuDecode word).op then nextLane q else q)
  else s

end Sys2Proof.Machine
end

