-- ==== Sys2Proof/Machine/Queues.lean ====
section
/-! DEFINITION. The EP (chapters "Messages, queues and combining" and "The spindle"): acceptance, stale
deliveries, receive rings, combining queues, spills, skew, and store accesses from outside. A message is
delivered whole in one step (95_what_each_step_holds.md); the EP cycles of its lines follow in `Spindle.ep`. -/
namespace Sys2Proof.Machine

/-- Whether a spindle's field does not work (R63, R189, R231). -/
def spOff (s : State) (sid : Nat) : Bool := fieldIdle s (s.fieldOf sid)

/-- What stands in for the line at address a of a unit that is out of service: marked uncorrectable, of its earlier content (R4), and the same
at every read (R3). -/
def goneLine (s : State) (a : Nat) : Line := ⟨(readLine s a).data &&& Config.heldBits (a / 32), true⟩

/-- Where a response addressed to a SID goes. -/
def respDest (d : SID) : Option Dest :=
  if d.toNat % 2048 = 0x7FF then codeDest (d.toNat / 2048) else some (.spindle d.toNat)

/-- The response to a read request (R184), from source `src`, leaving by the gateway `via` of a BANK port if any. Its SEQ is the
request's (assumption log 15). -/
def respond (s : State) (m : Msg) (src : SID) (lines : List Line) (via : Option Nat := none) : State :=
  match respDest m.dest with
  | some d => send s { dst := d, vc := 2, kind := m.kind, req := false, len := m.len, dest := m.dest, src := src,
                       tag := m.tag, ea := m.ea, seq := m.seq, payload := lines, via := via }
  | none => s

/-- The message at a spindle's LOCAL port on a VC: one that waits there, else the next of `src` (R188). -/
def takeAt (s : State) (sid vc : Nat) (src : SID) (p : Msg → Bool) : Option (List Msg × Msg × List Msg) :=
  let here := fun (m : Msg) => m.dst = .spindle sid && m.vc = vc
  if s.mesh.any (fun m => here m && m.waiting) then
    takeMsg (fun m => here m && m.waiting && p m) [] s.mesh
  else takeMsg (fun m => here m && m.src = src && p m) [] s.mesh

/-! ### Placement (R192, R193) -/

/-- How a record of n lines finds its place. -/
inductive Place where
  | full
  | fits
  | skips
  deriving DecidableEq, Repr

/-- The rule of R193 for a ring of `size` lines with `used` in use and TAIL at `tail`. -/
def placeIn (size used tail n : Nat) : Place :=
  let free := size - used
  let before := size - tail
  if n ≤ before then (if free < n then .full else .fits)
  else if free < before + n then .full else .skips

/-- Whether ring or spill dimensions obey R192. -/
def dimsOk (size base : Nat) : Bool := decide (9 ≤ size) && decide (size ≤ 1024) && decide (base + size ≤ 2048)

/-- Whether receive queue q of ply k is open (R192). -/
def rqOpen (p : Spindle) (k q : Nat) : Bool :=
  getB (p.wreg (1 + k) (rqOff q)) 31 && dimsOk (rqSize p k q) (rqBase p k q)

def spBase (p : Spindle) (k q : Nat) : Nat := p.wf_ (1 + k) (rqOff q + 8) 10 0
def spSize (p : Spindle) (k q : Nat) : Nat := p.wf_ (1 + k) (rqOff q + 8) 26 16
def spHead (p : Spindle) (k q : Nat) : Nat := p.wf_ (1 + k) (rqOff q + 0x10) 10 0
def spTail (p : Spindle) (k q : Nat) : Nat := p.wf_ (1 + k) (rqOff q + 0x10) 26 16
def spUsed (p : Spindle) (k q : Nat) : Nat := p.wf_ (1 + k) (rqOff q + 0x14) 26 16

/-- Whether a queue may spill (R192). -/
def maySpill (p : Spindle) (k q : Nat) : Bool :=
  getB (p.wreg (1 + k) (rqOff q)) 29 && dimsOk (spSize p k q) (spBase p k q)

/-- The place of a record in the ring; places freed by a pop in the last cycle are not yet available (R195). -/
def ringPlace (p : Spindle) (k q n : Nat) : Place :=
  if spUsed p k q != 0 then .full
  else placeIn (rqSize p k q) (rqUsed p k q + SMap.get (fun _ => 0) p.freed (k * 8 + q)) (rqTail p k q) n

def spillPlace (p : Spindle) (k q n : Nat) : Place := placeIn (spSize p k q) (spUsed p k q) (spTail p k q) n

def cqExpect (p : Spindle) (k q : Nat) : Nat := p.wf_ (1 + k) (cqOff q + 4) 15 0
def cqReleased (p : Spindle) (k q : Nat) : Bool := getB (p.wreg (1 + k) (cqOff q + 8)) 15

/-- Whether a combining queue is open (R197). -/
def cqOpen (p : Spindle) (k q : Nat) : Bool := getB (p.wreg (1 + k) (cqOff q)) 31 && cqExpect p k q != 0

/-- PLY, EPOCH and QUEUE of a tag (R185). -/
def tagPly (t : BitVec 16) : Nat := fld t.toNat 15 14
def tagEpoch (t : BitVec 16) : Nat := fld t.toNat 13 10
def tagQueue (t : BitVec 16) : Nat := fld t.toNat 9 7

/-- The key of a queue's skew watch: receive queues 0 to 7, combining queues 8 to 11, by ply. -/
def skewKey (k q : Nat) (cq : Bool) : Nat := k * 16 + q + 8 * cq.toNat

def Spindle.skewOf (p : Spindle) (key : Nat) : Skew := SMap.get (fun _ => {}) p.skew key
def Spindle.setSkew (p : Spindle) (key : Nat) (x : Skew) : Spindle :=
  { p with skew := SMap.set (fun _ => {}) p.skew key x }

/-! ### Records and contributions -/

/-- The lines that pass through the EP, one a cycle from the coming one on, each with its bank (R56, R57). -/
def Spindle.epPass (p : Spindle) (banks : List (BitVec 8)) : Spindle := { p with ep := p.ep ++ banks }

/-- Lines of a message that touch no store line. -/
def noBanks (n : Nat) : List (BitVec 8) := List.replicate n 0#8

/-- The lines of a message's record (R194): the header as received with RECORD 1, then the payload. -/
def recordLines (m : Msg) : List Line := ⟨BitVec.ofNat 256 (headerLine m 1), false⟩ :: m.payload

/-- The region offset at which a record begins. -/
def placeAt (tail : Nat) (pl : Place) : Nat := if pl = .skips then 0 else tail

/-- Write a record into a region of the store that starts at line `base` (R194). -/
def writeRecord (s : State) (sid base size tail : Nat) (pl : Place) (lines : List Line) : State :=
  let put := fun (s : State) (off : Nat) (l : Line) => writeLine s (storeAddr sid (base + off)) l
  let s := if pl = .skips then put s tail ⟨BitVec.ofNat 256 (2 * 2 ^ 29 + (size - tail) * 2 ^ 32), false⟩ else s
  forEach ((List.range lines.length).zip lines) (fun il s => put s (placeAt tail pl + il.1) il.2) s

/-- The banks of the lines that a record of n lines takes, a skip record's first (R193). -/
def recordBanks (base tail : Nat) (pl : Place) (n : Nat) : List (BitVec 8) :=
  (if pl = .skips then [bankOf (base + tail)] else []) ++ tab n (fun i => bankOf (base + placeAt tail pl + i))

/-- A record of receive queue q at a ring offset becomes a token when the EP has passed its last line (R187, R195, R209), unless it waits
behind a place of the ring that never becomes one (R228). -/
def tokenMade (s : State) (sid k q off : Nat) : State :=
  let p := s.spin sid
  if p.holes.any (fun h => h.1 = k * 8 + q && decide (h.2 < 4096)) then s else
  let due := some p.ep.length
  let s := s.setSpin sid (p.form due (.record k q off))
  let d0 := p.wreg (1 + k) (rqOff q)
  let s := wbump48 s sid 6 (0x100 + 0x80 * k + 0x10 * q) 1
  if getB d0 28 then tapAdd s sid (getF d0 27 24) 1 due else s

/-- Place a record of n lines, of which `lines` arrived, in the ring (R193 to R195): the EP passes the lines `banks` for it. A record of a message cut
short is a place that never becomes a token. -/
def ringDeliver (s : State) (sid k q : Nat) (pl : Place) (n : Nat) (lines : List Line) (cut : Bool) (banks : List (BitVec 8)) : State :=
  let p := s.spin sid
  let size := rqSize p k q
  let tail := rqTail p k q
  let s := writeRecord s sid (rqBase p k q) size tail pl lines
  let s := s.modSpin sid (fun p =>
    let used := rqUsed p k q + n + (if pl = .skips then size - tail else 0)
    let t := if pl = .skips then n else (tail + n) % size
    let p := (p.setWf (1 + k) (rqOff q + 0x14) 10 0 used).setWf (1 + k) (rqOff q + 0xC) 26 16 t
    { p.epPass banks with holes := if cut then p.holes ++ [(k * 8 + q, placeAt tail pl)] else p.holes })
  tokenMade s sid k q (placeAt tail pl)

/-- Place a record in the spill region (R203). -/
def spillDeliver (s : State) (sid k q : Nat) (pl : Place) (m : Msg) : State :=
  let p := s.spin sid
  let n := m.len + 2
  let size := spSize p k q
  let tail := spTail p k q
  let s := writeRecord s sid (spBase p k q) size tail pl (recordLines m)
  s.modSpin sid (fun p =>
    let used := spUsed p k q + n + (if pl = .skips then size - tail else 0)
    let t := if pl = .skips then n else (tail + n) % size
    let p := (p.setWf (1 + k) (rqOff q + 0x14) 26 16 used).setWf (1 + k) (rqOff q + 0x10) 26 16 t
    { p.epPass (recordBanks (spBase p k q) tail pl (m.payload.length + 1)) with
      holes := if m.cut then p.holes ++ [(k * 8 + q, 4096 + placeAt tail pl)] else p.holes })

/-- The contributions that a combining-queue message makes to each lane, with their flags (R198). -/
def cqContribs (fmtCode : Nat) (sc : Int) (payload : List Line) : List (BitVec 128) × Flags :=
  let word := fun j => (nth ({} : Line) payload j).data
  match Fmt.ofCode fmtCode with
  | .la128 => (tab 16 (fun l => ((word (l / 2)) >>> (128 * (l % 2))).setWidth 128), noFlags)
  | f =>
    if f = .rsv || f = .skn5 then (tab 16 (fun _ => 0#128), flInvalid)
    else
      let o : Opnd := ⟨(word 1 ++ word 0).toNat, f, .none, 0, none⟩
      let lanes := tab 16 (fun l =>
        (List.range f.perLane).foldl (fun (a : BitVec 128 × Flags) e =>
          let (v, f1) := o.elem {} (l * f.perLane + e)
          let (n, f2) := contrib sc v
          (a.1 + n, (a.2.or f1).or f2)) (0#128, noFlags))
      (lanes.map (·.1), lanes.foldl (fun a r => a.or r.2) noFlags)

/-- Add a contribution (R198, R519). -/
def cqDeliver (s : State) (sid k q : Nat) (m : Msg) : State :=
  let p := s.spin sid
  let d0 := p.wreg (1 + k) (cqOff q)
  let fc := getF d0 21 17
  let used := m.payload.take (if Fmt.ofCode fc = .la128 then 8 else 2)
  let bad := (used.filter (·.bad)).length
  let (vals, fl) := cqContribs fc (sext 8 (getF d0 7 0)) m.payload
  let p := iter 16 (fun l p => setCqAcc p k q l (cqAcc p k q l + nth 0#128 vals l)) p
  let p := p.addFlags k fl
  let p := if bad = 0 then p else p.setW (1 + k) (cqOff q + 8) (putB (p.wreg (1 + k) (cqOff q + 8)) 14 true)
  let cnt := p.wf_ (1 + k) (cqOff q + 4) 31 16 + 1
  let full := cnt = cqExpect p k q
  let p := p.setWf (1 + k) (cqOff q + 4) 31 16 (if full then 0 else cnt)
  let p := if full then p.setW (1 + k) (cqOff q + 8) (putB (p.wreg (1 + k) (cqOff q + 8)) 15 true) else p
  let p := p.epPass (noBanks (m.payload.length + 1))
  let due := some p.ep.length
  let p := if full then p.form due (.sum k q) else p
  let s := iter bad (fun _ s => s.errUncorr (fcPage s sid)) (s.setSpin sid p)
  let s := wbump48 s sid 6 (0x300 + 0x40 * k + 0x10 * q) 1
  if full && getB d0 29 then tapAdd s sid (getF d0 28 25) 1 due else s

/-! ### Stale deliveries (R190, R208, R345) -/

/-- Record a queue event (R208). -/
def queueEvent (s : State) (sid ev tag : Nat) (cq : Bool) (reason src : Nat) : State :=
  let pg := fcPage s sid
  if s.bget (pg + 0x100) 31 then s
  else
    let s := s.setReg (pg + 0x100) (BitVec.ofNat 32 (2 ^ 31 + ev * 2 ^ 28 + sid % 2 ^ 21))
    let s := s.setReg (pg + 0x104) (BitVec.ofNat 32 (tag * 65536 + cq.toNat * 4 + reason))
    s.setReg (pg + 0x108) (BitVec.ofNat 32 src)

/-- A message is absorbed as stale (R190): what it counts, raises and records, and the acknowledgement of one not yet acknowledged. -/
def staleMark (s : State) (sid reason : Nat) (m : Msg) (acked : Bool) : State :=
  let k := tagPly m.tag
  let q := tagQueue m.tag
  let cq := m.kind = 1
  let counted := !cq || decide (q < 4)
  let o := if cq then cqOff q else rqOff q
  let dOff := if cq then o + 12 else o + 0x18
  let s := if !counted then s
    else s.modSpin sid (fun p =>
      let c := p.wf_ (1 + k) dOff 30 0 + 1
      let p := p.setWf (1 + k) dOff 30 0 c
      if 2 ^ 31 ≤ c then p.setW (1 + k) dOff (putB (p.wreg (1 + k) dOff) 31 true) else p)
  let s := if counted && getF ((s.spin sid).wreg (1 + k) dOff) 31 0 = 2 ^ 31 then s.raise (pWin (s.fieldOf sid) (1 + k)) 31 else s
  let s := queueEvent (s.raise (fcPage s sid) 0) sid 0 m.tag.toNat cq reason m.src.toNat
  let s := if s.live sid && s.bget (pRun + 0x40) 15 then
      (s.setReg (pRun + 0x40) (putB (s.reg (pRun + 0x40)) 14 true)).raise pRun 3 else s
  let s := if acked then s else sendAck s m (BitVec.ofNat 21 sid) true
  if counted && getB ((s.spin sid).wreg (1 + k) o) 30 && s.live sid then
    runFault s ⟨4, some (s.fieldOf sid), some sid⟩
  else s

/-- Absorb a stale message (R190), one line an EP cycle. -/
def stale (s : State) (sid reason : Nat) (m : Msg) : State :=
  staleMark (s.modSpin sid (fun p => p.epPass (noBanks (m.payload.length + 1)))) sid reason m false

/-- The EP passes n more lines for a message (R210). -/
def Spindle.arrive (p : Spindle) (n : Nat) (m : Msg) : Spindle :=
  { p with arriving := p.arriving ++ [⟨p.ep.length, n, { m with payload := [] }⟩] }

/-- Take 1 from a 48-bit count pair of window page 6. -/
def Spindle.uncount (p : Spindle) (lo : Nat) : Spindle :=
  let t := (p.wreg 6 lo).toNat + 2 ^ 32 * p.wf_ 6 (lo + 4) 15 0 - 1
  (p.setW 6 lo (BitVec.ofNat 32 t)).setWf 6 (lo + 4) 15 0 (t / 2 ^ 32)

/-- Whether something formed is a token of ply k. -/
def Formed.ofPly (k : Nat) : Formed → Bool
  | .record j _ _ | .sum j _ => j = k
  | _ => false

/-- A load or an abort reaches ply k while the EP still passes lines into its queues (R210): those records and sums never form, with the taps
and handles they would raise, their lines touch no bank any more, and each message is absorbed as stale. -/
def stopArrivals (s : State) (sid k : Nat) : State :=
  let p := s.spin sid
  let mine := p.arriving.filter (fun a => tagPly a.hdr.tag = k)
  let dues := mine.map (·.due) ++ (p.fresh.filter (fun e => e.2.ofPly k)).map (·.1)
  let p := (p.fresh.filter (fun e => dues.contains e.1)).foldl (fun (p : Spindle) e =>
    match e.2 with
    | .record k q _ => (p.unform e.2).uncount (0x100 + 0x80 * k + 0x10 * q)
    | x => p.unform x) p
  let p := (mine.filter (fun a => a.hdr.kind = 1)).foldl (fun (p : Spindle) a =>
    p.uncount (0x300 + 0x40 * k + 0x10 * tagQueue a.hdr.tag)) p
  let gone := fun i => mine.any (fun a => decide (a.due ≤ i + a.lines) && decide (i < a.due))
  let p := { p with fresh := p.fresh.filter (fun e => !dues.contains e.1), arriving := p.arriving.filter (fun a => tagPly a.hdr.tag != k),
                    ep := ((List.range p.ep.length).zip p.ep).map (fun ib => if gone ib.1 then 0#8 else ib.2) }
  forEach mine (fun a s => staleMark s sid 0 a.hdr true) (s.setSpin sid p)

/-- What the EP decides about a queue message (R189, R188). -/
inductive Verdict where
  | stale (reason : Nat)
  | wait
  | ring (pl : Place)
  | spill (pl : Place)
  | sum
  deriving DecidableEq, Repr

/-- The checks of R189 behind the compute domain's, then the place (R175, R193, R198, R203): a message for which the ring has no room, or
whose queue holds a spilled record, goes to the spill region of a queue that spills, and else waits. -/
def judge (p : Spindle) (m : Msg) : Verdict :=
  let k := tagPly m.tag
  let q := tagQueue m.tag
  let loading := match p.load with | some l => l.ply = k | none => false
  if !(p.loaded k || loading) then .stale 2
  else if p.epoch k != tagEpoch m.tag then .stale 0
  else if loading then .wait
  else if m.kind = 1 then
    if 4 ≤ q || !cqOpen p k q then .stale 1
    else if cqReleased p k q then .wait else .sum
  else if !rqOpen p k q then .stale 1
  else match ringPlace p k q (m.len + 2) with
    | .full =>
      if maySpill p k q && ((p.skewOf (skewKey k q false)).spilling || spUsed p k q != 0) then
        match spillPlace p k q (m.len + 2) with
        | .full => .wait
        | pl => .spill pl
      else .wait
    | pl => .ring pl

/-- A queue whose spill region holds no record spills no longer (R204). -/
def unspill (p : Spindle) (k q : Nat) : Spindle :=
  if spUsed p k q = 0 then p.setSkew (skewKey k q false) { p.skewOf (skewKey k q false) with spilling := false } else p

/-- EP_QUEUE_MESSAGE (R187 to R190, R195, R198): the EP of a spindle takes the queue message at its LOCAL port; `conds` is what its decoder
finds in the payload lines (R456, R458). A combining queue counts a line that is marked or not correctable as it adds it. -/
def epQueue (s : State) (sid vc : Nat) (src : SID) (conds : List Cond) : State :=
  match takeAt s sid vc src (fun m => decide (m.kind ≤ 1) && !m.req && !m.isAck) with
  | none => s
  | some (pre, m, post) =>
    let gone := countRoute { s with mesh := pre ++ post } m (!spOff s sid)
    if spOff s sid then sendAck (gone.errUncorr (fcPage s sid)) m (BitVec.ofNat 21 sid) false
    else
      let k := tagPly m.tag
      let q := tagQueue m.tag
      let verdict := judge (s.spin sid) m
      let (ls, taken) := bufferLines gone (fcPage s sid) (fun marked => !marked && verdict != .sum) m.payload conds
      let asked := m
      let m := { m with payload := ls }
      match verdict with
      | .stale r => stale gone sid r asked
      | .wait =>
        let s := if m.waiting then s else countRoute s m false
        { s with mesh := pre ++ { asked with waiting := true } :: post }
      | .ring pl =>
        let gone := taken
        let p := gone.spin sid
        let banks := recordBanks (rqBase p k q) (rqTail p k q) pl (m.payload.length + 1)
        let s := ringDeliver (gone.setSpin sid (unspill p k q)) sid k q pl (m.len + 2) (recordLines m) m.cut banks
        sendAck (s.modSpin sid (fun p => p.arrive banks.length m)) m (BitVec.ofNat 21 sid) false
      | .spill pl =>
        let gone := taken
        let n := (recordBanks (spBase (gone.spin sid) k q) (spTail (gone.spin sid) k q) pl (m.payload.length + 1)).length
        sendAck ((spillDeliver gone sid k q pl m).modSpin sid (fun p => p.arrive n m)) m (BitVec.ofNat 21 sid) false
      | .sum =>
        let gone := taken
        if m.cut then gone.modSpin sid (fun p => p.epPass (noBanks (m.payload.length + 1)))
        else sendAck ((cqDeliver gone sid k q m).modSpin sid (fun p => p.arrive (m.payload.length + 1) m)) m (BitVec.ofNat 21 sid) false

/-! ### Store accesses from outside (R62, R63) -/

/-- The store lines that a message names (R62). -/
def namedLines (m : Msg) : List Nat := tab (m.len + 1) (fun j => (m.ea.toNat % 65536 / 32 + j) % 2048)

/-- EP_STORE_WRITE (R62). -/
def epWrite (s : State) (sid vc : Nat) (src : SID) : State :=
  match takeAt s sid vc src (fun m => m.kind = 2 && !m.req && !m.isAck) with
  | none => s
  | some (pre, m, post) =>
    if spOff s sid then s
    else
      let s := countRoute { s with mesh := pre ++ post } m
      let s := forEach ((namedLines m).zip m.payload) (fun Ll s => writeLine s (storeAddr sid Ll.1) Ll.2) s
      let s := s.modSpin sid (fun p => p.epPass (0#8 :: ((namedLines m).zip m.payload).map (fun Ll => bankOf Ll.1)))
      sendAck s m (BitVec.ofNat 21 sid) false

/-- EP_STORE_READ (R62): `conds` are the decoder's findings, line by line. -/
def epRead (s : State) (sid vc : Nat) (src : SID) (conds : List Cond) : State :=
  match takeAt s sid vc src (fun m => m.req) with
  | none => s
  | some (pre, m, post) =>
    if spOff s sid then s
    else
      let s := countRoute { s with mesh := pre ++ post } m
      let Ls := namedLines m
      let r := ((List.range Ls.length).zip Ls).foldl (fun (st : List Line × State) (iL : Nat × Nat) =>
        let (l, s) := storeRead st.2 sid iL.2 (nth .clean conds iL.1)
        (st.1 ++ [l], s)) ([], s)
      let s := r.2.modSpin sid (fun p => p.epPass (0#8 :: Ls.map bankOf))
      respond s m (BitVec.ofNat 21 sid) r.1

/-- COMPUTE_OFF_STORE_ACCESS (R63). -/
def offAccess (s : State) (sid vc : Nat) (src : SID) : State :=
  match takeAt s sid vc src (fun m => (m.req || m.kind = 2) && !m.isAck) with
  | none => s
  | some (pre, m, post) =>
    if !spOff s sid then s
    else
      let s := (countRoute { s with mesh := pre ++ post } m false).errUncorr (fcPage s sid)
      if m.req then respond s m (BitVec.ofNat 21 sid) ((namedLines m).map (fun L => goneLine s (storeAddr sid L)))
      else sendAck s m (BitVec.ofNat 21 sid) false

/-! ### Skew (R201 to R205) -/

/-- The message that blocks a queue in this cycle (R201): it waits in the router for ring room or for the
release of a sum. -/
def blocker (s : State) (sid k q : Nat) (cq : Bool) : Option Msg :=
  let p := s.spin sid
  s.mesh.find? (fun m => m.dst = .spindle sid && m.waiting && m.kind = cq.toNat && tagPly m.tag = k && tagQueue m.tag = q
    && p.loaded k && p.epoch k = tagEpoch m.tag && judge p m = .wait)

/-- JOIN and SKEW_WATCH of a queue. -/
def joinOf (p : Spindle) (k q : Nat) (cq : Bool) : Nat :=
  if cq then p.wf_ (1 + k) (cqOff q) 24 22 else p.wf_ (1 + k) (rqOff q) 18 16
def skewWatch (p : Spindle) (k q : Nat) (cq : Bool) : Nat :=
  if cq then p.wf_ (1 + k) (cqOff q + 8) 31 16 else p.wf_ (1 + k) (rqOff q) 15 0

/-- Whether some sibling holds no token (R201). -/
def emptySibling (s : State) (sid k q : Nat) (cq : Bool) : Bool :=
  let p := s.spin sid
  let j := joinOf p k q cq
  j != 0 && ((List.range 12).any (fun i =>
    let icq := decide (8 ≤ i)
    let iq := if icq then i - 8 else i
    !(icq = cq && iq = q) && joinOf p k iq icq = j && !holdsToken s sid k (if icq then 4 + iq else 8 + iq)))

/-- Whether a queue is in skew (R201): a sibling whose token forms in the cycle itself is still empty at its start. -/
def inSkew (s : State) (sid k q : Nat) (cq : Bool) : Bool :=
  (blocker s sid k q cq).isSome && skewWatch (s.spin sid) k q cq != 0 && emptySibling (seenBy s sid) sid k q cq

/-- Count one cycle of every queue's watch and STALL counter (R202, R205, R209), and of the LOCAL port's (R87). The deadlock count runs after
STALL_SKEW, and for a queue that spills already from the cycle in which its spill has no room. -/
def watchCycle (s : State) (sid : Nat) : State :=
  if !s.mesh.any (fun m => m.dst = .spindle sid && m.waiting) && (s.spin sid).skew = [] then s
  else
  let s := forEach (List.range 4) (fun k s => forEach (List.range 12) (fun i s =>
    let cq := decide (8 ≤ i)
    let q := if cq then i - 8 else i
    let key := skewKey k q cq
    let x := (s.spin sid).skewOf key
    let b := (blocker s sid k q cq).isSome
    let s := if b then wbump48 s sid 6 ((if cq then 0x300 + 0x40 * k + 0x10 * q else 0x100 + 0x80 * k + 0x10 * q) + 8) 1 else s
    let x' := if inSkew s sid k q cq then { x with cyc := x.cyc + 1, dead := if x.raised || x.spilling then x.dead + 1 else 0 }
              else { x with cyc := 0, raised := false, dead := 0, deadRaised := false }
    s.modSpin sid (fun p => p.setSkew key x')) s) s
  if s.mesh.any (fun m => m.dst = .spindle sid && m.waiting) then wbump48 s sid 6 0x548 1 else s

/-- STALL_SKEW (R202, R203). -/
def stallSkew (s : State) (sid k q : Nat) (cq : Bool) : State :=
  let p := s.spin sid
  let key := skewKey k q cq
  let x := p.skewOf key
  if x.raised || skewWatch p k q cq = 0 || !decide (skewWatch p k q cq + 1 ≤ x.cyc) then s
  else
    let tag := k * 2 ^ 14 + p.epoch k * 2 ^ 10 + q * 2 ^ 7
    let spill := !cq && maySpill p k q
    let s := s.modSpin sid (fun p => p.setSkew key { x with raised := true, spilling := spill, dead := if x.spilling then x.dead else 0 })
    let s := queueEvent (s.raise (fcPage s sid) 1) sid 1 tag cq 0 0
    if spill && !x.spilling then queueEvent (s.raise (fcPage s sid) 2) sid 2 tag cq 0 0 else s

/-- DEADLOCK_SUSPECT (R205). -/
def deadlock (s : State) (sid k q : Nat) (cq : Bool) : State :=
  let p := s.spin sid
  let key := skewKey k q cq
  let x := p.skewOf key
  if !(x.raised || x.spilling) || x.deadRaised || !decide (2 ^ s.fget (pRun + 0x4C) 4 0 ≤ x.dead) then s
  else
    let s := s.modSpin sid (fun p => p.setSkew key { x with deadRaised := true })
    let s := queueEvent (s.raise (fcPage s sid) 3) sid 3 (k * 2 ^ 14 + p.epoch k * 2 ^ 10 + q * 2 ^ 7) cq 0 0
    if s.live sid then runFault s ⟨6, some (s.fieldOf sid), some sid⟩ else s

/-- SPILL_COPY (R204): the oldest spilled record moves into the ring, each line with its mark (R457), in two EP cycles a line. -/
def spillCopy (s : State) (sid k q : Nat) (conds : List Cond) : State :=
  let p := s.spin sid
  if !maySpill p k q || spUsed p k q = 0 || spOff s sid || !p.loaded k then s
  else
    let base := spBase p k q
    let size := spSize p k q
    let line := fun off => (readLine s (storeAddr sid (base + off))).data.toNat
    let h0 := spHead p k q
    let skip0 := if fld (line h0) 31 29 = 2 then fld (line h0) 42 32 else 0
    let h := if skip0 = 0 then h0 else 0
    if p.holes.contains (k * 8 + q, 4096 + h) then s else
    let hd := line h
    let n := fld hd 26 24 + 2
    match placeIn (rqSize p k q) (rqUsed p k q + SMap.get (fun _ => 0) p.freed (k * 8 + q)) (rqTail p k q) n with
    | .full => s
    | pl =>
      let r := (List.range n).foldl (fun (st : List Line × State) i =>
        let (l, s) := storeRead st.2 sid (base + h + i) (nth .clean conds i)
        (st.1 ++ [l], s)) ([], s)
      let s := r.2.modSpin sid (fun p =>
        let used := spUsed p k q - n - skip0
        let h' := (h + n) % max 1 size
        let skip := if used != 0 && fld (line h') 31 29 = 2 then fld (line h') 42 32 else 0
        let p := (p.setWf (1 + k) (rqOff q + 0x14) 26 16 (used - skip)).setWf (1 + k) (rqOff q + 0x10) 10 0 (if skip = 0 then h' else 0)
        unspill p k q)
      let from_ := tab n (fun i => bankOf (base + h + i))
      let to_ := recordBanks (rqBase p k q) (rqTail p k q) pl n
      ringDeliver s sid k q pl n r.1 false (to_.take (to_.length - n) ++ (from_.zip (to_.drop (to_.length - n))).flatMap (fun b => [b.1, b.2]))

/-! ### The commands of the EP -/

/-- EP_QUEUE_MESSAGE (R189). -/
def execEpQueueMessage (sid : SID) (vc : Fin 4) (src : SID) (conds : List Cond) (s : State) : Out :=
  .next (epQueue s sid.toNat vc.val src conds)
/-- EP_STORE_WRITE (R62). -/
def execEpStoreWrite (sid : SID) (vc : Fin 4) (src : SID) (s : State) : Out := .next (epWrite s sid.toNat vc.val src)
/-- EP_STORE_READ (R62). -/
def execEpStoreRead (sid : SID) (vc : Fin 4) (src : SID) (conds : List Cond) (s : State) : Out :=
  .next (epRead s sid.toNat vc.val src conds)
/-- COMPUTE_OFF_STORE_ACCESS (R63). -/
def execComputeOffStoreAccess (sid : SID) (vc : Fin 4) (src : SID) (s : State) : Out := .next (offAccess s sid.toNat vc.val src)
/-- STALL_SKEW (R202). -/
def execStallSkew (sid : SID) (ply : Fin 4) (queue : Fin 8) (cq : Bool) (s : State) : Out := .next (stallSkew s sid.toNat ply.val queue.val cq)
/-- SPILL_COPY (R204). -/
def execSpillCopy (sid : SID) (ply : Fin 4) (queue : Fin 8) (conds : List Cond) (s : State) : Out :=
  .next (spillCopy s sid.toNat ply.val queue.val conds)
/-- DEADLOCK_SUSPECT (R205). -/
def execDeadlockSuspect (sid : SID) (ply : Fin 4) (queue : Fin 8) (cq : Bool) (s : State) : Out := .next (deadlock s sid.toNat ply.val queue.val cq)

end Sys2Proof.Machine
end

