-- ==== Sys2Proof/Machine/Plies.lean ====
section
/-! DEFINITION. Plies, the sequencer's commands, the IP and VU write-back (chapters "Plies, calls and the
sequencer", "The spindle" and "Error handling and silent-error defence"). -/
namespace Sys2Proof.Machine

/-- Whether a step of a spindle can happen: it exists, and its field works (R63, R231). -/
def spinUp (s : State) (sid : Nat) : Bool := spinOn s sid && !spOff s sid

/-- The EP's line of a cycle takes its bank, unless an earlier MP write holds it, when the EP waits too (R57); what it forms is due one EP
cycle sooner (R187). -/
def epCycle (p : Spindle) : Spindle :=
  match p.ep with
  | b :: rest =>
    if (b &&& p.carry) != 0#8 then { p with busy := p.carry }
    else
      { p with busy := b ||| p.carry, ep := rest, fresh := p.fresh.map (fun e => (e.1 - 1, e.2)),
               arriving := (p.arriving.map (fun a => { a with due := a.due - 1 })).filter (fun a => a.due != 0) }
  | [] => { p with busy := p.carry }

/-- What comes before the sequencer's evaluation in a cycle: the last cycle closes (R59, R133, R174), the skew watches count (R202), and
the banks that the EP and earlier writes hold are taken (R57). -/
def cycleStart (s : State) (sid : Nat) (conds : List Cond) : State :=
  (watchCycle (closeCycle s sid conds) sid).modSpin sid (fun p =>
    { epCycle p with carry := p.carry2, carry2 := 0#8, freed := [], ipDone := false, was := p.ply })

/-- The end of a cycle: what was due in it is seen from the next one on. -/
def cycleEnd (p : Spindle) : Spindle := { p with fresh := p.fresh.filter (fun e => e.1 != 0) }

/-- SEQUENCER_CYCLE (R161). `conds` says how the lines read in the cycle decode: 0 and 1 for the MP read,
2 and 3 for the lines of a read–modify–write, 4 and 5 for the pair of a ply load. -/
def seqCycle (s : State) (sid : Nat) (conds : List Cond) : State :=
  if !spinUp s sid then s else (sequence (cycleStart s sid conds) sid conds).modSpin sid cycleEnd

/-! ### The parts of a firing action as single steps -/

/-- PLY_SWITCH (R163): the switch that an action's SW_MODE asks for. -/
def plySwitch (s : State) (sid w : Nat) : State :=
  if !spinUp s sid then s
  else
    let p := s.spin sid
    let k := p.ply
    let cond := condOf p k w
    let next := if w.testBit 238 || cond then fld w 255 250 else fld w 249 244
    let sw := match fld w 237 236 with
      | 1 => true
      | 2 => cond
      | _ => false
    if sw && fld w 235 234 != k then s.setSpin sid (switchPly p (fld w 235 234) next) else s

/-- LOAD_REQUEST (R173): an action's LD_EN. -/
def loadRequest (s : State) (sid w : Nat) : State :=
  let p := s.spin sid
  if !spinUp s sid || !w.testBit 233 || p.loadWait.isSome then s
  else requestLoad s sid (fld w 232 231) (agVal p p.ply (fld w 230 229)) p.ply

/-- COUNTER_UPDATE (R158). -/
def counterUpdate (s : State) (sid w : Nat) : State :=
  if !spinUp s sid then s else s.modSpin sid (fun p => ctrUpdate p p.ply w)

/-- TAP_INCREMENT (R156). -/
def tapIncrement (s : State) (sid w : Nat) : State := if !spinUp s sid then s else fireTaps s sid w

/-- MP_STORE_READ, MP_RQ_READ and MP_CQ_READ (R153, R199): the register takes what the MP loads. The read
is one of the kind that `ok` names, and a queue read needs a token that the guards see (R187). -/
def mpRead (s : State) (sid w : Nat) (ok : Nat → Bool) (conds : List Cond) : State :=
  let k := (s.spin sid).ply
  let src := fld w 94 91
  if !spinUp s sid || !w.testBit 95 || !ok src || (decide (4 ≤ src) && !holdsToken (seenBy s sid) sid k src) then s
  else
    let (v, s) := if 4 ≤ src ∧ src ≤ 7 then cqReadVal s sid (fld w 90 85) k (src - 4) (fld w 105 104)
      else mpReadVal s sid (fld w 90 85) (mpLines s sid k src (fld w 105 104)) conds
    s.modSpin sid (fun p => p.setV (fld w 90 85) v)

/-- MP_WRITE (R153, R60). -/
def mpWrite (s : State) (sid w : Nat) (conds : List Cond) : State :=
  if !spinUp s sid then s else fireWrite s (s.spin sid) sid (s.spin sid).ply w conds

/-- SEND (R154): a send through a route entry that may be used, while the IP has room (R68). -/
def sendRow (s : State) (sid w : Nat) : State :=
  let p := s.spin sid
  if !spinUp s sid || !w.testBit 127 || !routeOk p p.ply (fld w 126 123) || decide (4 ≤ p.ip.length) then s
  else startSend s sid p.ply w

/-- POP (R155): POP_A and POP_B, when every queue they name holds a token that the guards see (R187, R262). -/
def popRow (s : State) (sid w : Nat) : State :=
  let k := (s.spin sid).ply
  if !spinUp s sid || !([fld w 113 110, fld w 109 106].all (holdsToken (seenBy s sid) sid k)) then s
  else firePops s sid k w

/-- STORE_CORRECTED_WRITE_BACK (R61): the oldest corrected line whose bank is idle in this cycle. -/
def writeBack (s : State) (sid : Nat) : State :=
  let p := s.spin sid
  let loadBanks := match p.load with
    | some l => banksOf [l.base + l.next, l.base + l.next + 1]
    | none => 0#8
  let free := fun L => (bankOf L &&& (p.busy ||| loadBanks)) = 0#8
  match p.wback.find? free with
  | none => s
  | some L =>
    if !spinUp s sid then s
    else s.setSpin sid { p with wback := dropFirst (fun x => x = L) p.wback, busy := p.busy ||| bankOf L }

/-! ### The IP (R68, R71, R182) -/

/-- Record an unmapped access of a spindle (R71). -/
def eaRecord (s : State) (sid kind ea : Nat) : State :=
  let pg := fcPage s sid
  let s := s.eaUnmapped pg
  if s.bget (pg + 0x140) 31 then s
  else
    let s := s.setReg (pg + 0x140) (BitVec.ofNat 32 (2 ^ 31 + kind * 2 ^ 21 + sid % 2 ^ 21))
    let s := s.setReg (pg + 0x144) (BitVec.ofNat 32 ea)
    s.setReg (pg + 0x148) (BitVec.ofNat 32 (ea / 2 ^ 32 % 65536))

/-- Whether a page reads OUT with REASON 0x5, so that R517 applies. -/
def outFive (s : State) (pg : Nat) : Bool := s.readyState pg = 0 && s.readyReason pg = 5

/-- The unit of R517 that serves an EA is out: what stands in for n lines from there, marked lines for a bobbin's and zero words for a
chime bank's. -/
def unitOut (s : State) (ea n : Nat) : Option (List Line) :=
  match decodeEA s ea with
  | .bobbin f _ => if outFive s (pBob f 0) then some (tab n (fun i => goneLine s (ea / 32 * 32 + 32 * i))) else none
  | .chime c _ => if outFive s (pChime (c / 512) 0) then some (List.replicate n {}) else none
  | _ => none

/-- The destination that an EA gives a message, for a mapped EA (R218, R25). -/
def eaDest (t : Target) : Dest :=
  match t with
  | .bobbin f _ => .bobbin f
  | .store sid _ => .spindle sid
  | .chime c _ => .chimes (c / 512)
  | .host h _ => .host h
  | .unmapped => .host 0

/-- The message is complete: it enters the mesh, or is refused (R26, R71, R517, R518). -/
def ipFinish (s : State) (sid : Nat) (m : Msg) : State :=
  let ea := m.ea.toNat
  let me : SID := BitVec.ofNat 21 sid
  if m.single && !m.req then
    match decodeEA s ea with
    | .chime c _ =>
      match unitOut s ea 1 with
      | some _ => s.errUncorr (fcPage s sid)
      | none => send s { m with dst := .chimes (c / 512) }
    | _ => eaRecord s sid 2 ea
  else
    let q := m.req || decide (m.kind ≠ 2)
    match sidDest s none m.dest with
    | none => if m.req then eaRecord s sid 0 ea else if q then eaRecord s sid 3 0 else eaRecord s sid 1 ea
    | some d =>
      match d with
      | .nirdor p => send s { m with dst := .nirdor p }
      | _ =>
        if m.req then
          if mappedLines s none ea (m.len + 1) then
            match unitOut s ea (m.len + 1) with
            | some ls => respond (s.errUncorr (fcPage s sid)) m me ls
            | none => send s { m with dst := eaDest (decodeEA s ea) }
          else respond (eaRecord s sid 0 ea) m me (List.replicate (m.len + 1) {})
        else send s { m with dst := d }

/-- IP_MESSAGE_INJECT (R68): the IP injects the next line of its oldest message that has not left, one a cycle (R56); `c`
says how a payload line read in this cycle decodes. -/
def ipInject (s : State) (sid : Nat) (c : Cond) : State :=
  let p := s.spin sid
  if !spinUp s sid || p.ipDone then s else
  match p.ip.find? (fun m => !m.sent) with
  | none => s
  | some m =>
    let s0 := s
    let s := s.modSpin sid (fun p => { p with ipDone := true })
    let single := m.hdr.single
    let header := !single && m.todo = m.hdr.len + 2
    let put := fun (s : State) (m' : IpMsg) => s.modSpin sid (fun p => { p with ip := mapFirst (fun x => !x.sent) (fun _ => m') p.ip })
    let done := fun (s : State) (m' : IpMsg) =>
      if m'.todo = 0 then ipFinish (put s { m' with sent := true }) sid m'.hdr else put s m'
    if header then put s { m with todo := m.todo - 1 }
    else match m.store with
      | some L =>
        if (bankOf L &&& p.busy) != 0#8 then s0
        else
          let (l, s) := storeRead s sid L c
          let s := s.modSpin sid (fun p => { p with busy := p.busy ||| bankOf L })
          if single then
            done s { m with todo := 0, hdr := { m.hdr with arg := l.data.setWidth 32, payload := if l.bad then [⟨0#256, true⟩] else [] } }
          else done s { m with todo := m.todo - 1, store := some ((L + 1) % 2048), hdr := { m.hdr with payload := m.hdr.payload ++ [l] } }
      | none =>
        if single then done s { m with todo := 0 }
        else
          let l := nth ({} : Line) m.regs 0
          done s { m with todo := m.todo - 1, regs := m.regs.drop 1, hdr := { m.hdr with payload := m.hdr.payload ++ [l] } }

/-- IP_MESSAGE_LEFT (R73): the oldest message, wholly injected, has left the IP. -/
def ipLeft (s : State) (sid : Nat) : State :=
  if !spinUp s sid then s else
  match (s.spin sid).ip with
  | [] => s
  | m :: rest =>
    if !m.sent then s
    else
      let s := s.modSpin sid (fun p => { p with ip := rest })
      match m.tap with
      | some t => tapAdd s sid t 1
      | none => s

/-! ### VU results and the clapper (R65, R75 to R77, R133, R463, R464) -/

/-- The lane that a check concerns: the one that the shadow lane repeats, or the one whose residue or comparison failed (R75, R147). -/
def laneOf (x : VuFly) (mm : Mismatch) : Nat := if mm.kind = 0 then x.lane else mm.lane % 16

/-- The capture record of R464 for the checked lane of an operation. `p` is the spindle before the write. -/
def captureRecord (s : State) (sid : Nat) (p : Spindle) (x : VuFly) (mm : Mismatch) : List (BitVec 256) :=
  let l := laneOf x mm
  let lanes := fun (v : Nat) => [BitVec.ofNat 256 v, BitVec.ofNat 256 (v / 2 ^ 256)]
  let old := p.lacc x.lai l
  let isLa := match x.res.la with | .none => false | _ => true
  let newLa := (vuCommit p x).lacc x.lai l
  let regRes := (blend (p.vreg x.dst).toNat x.res.val x.res.mask >>> (32 * l)) % 2 ^ 32
  [BitVec.ofNat 256 (x.word % 2 ^ 64 + x.modes % 64 * 2 ^ 64 + mm.kind % 8 * 2 ^ 70 + l * 2 ^ 73 + x.ply % 4 * 2 ^ 77
     + x.act % 64 * 2 ^ 79 + srDraw x.sr l 0 % 2 ^ 24 * 2 ^ 85 + sid % 2 ^ 21 * 2 ^ 109 + s.tb * 2 ^ 192)]
  ++ lanes x.a ++ lanes x.b ++ lanes x.c
  ++ [BitVec.ofNat 256 ((if isLa then newLa.toNat else regRes) + (if mm.kind = 0 then mm.check.toNat else mm.check.toNat % 16) * 2 ^ 128),
      BitVec.ofNat 256 ((if vuOnLa x.op then old.toNat else 0) + wrapInt 8 (p.scale x.lai) * 2 ^ 128 + (x.res.laneFlags l).bits % 32 * 2 ^ 136
        + mm.checkFlags.toNat * 2 ^ 141)]

/-- The SP_FLAGS bit of a failed check (R77): RESIDUE_MISMATCH for the residue kinds, else SHADOW_MISMATCH. -/
def clapperFlag (mm : Mismatch) : Nat := if mm.kind = 1 || mm.kind = 2 || mm.kind = 3 then 1 else 0

/-- What a failed check records (R77, R463); `p` holds the accumulators, the scales and the destination that the operation met. -/
def clapperRecord (s : State) (sid : Nat) (p : Spindle) (x : VuFly) (mm : Mismatch) : State :=
  let pg := fcPage s sid
  let f := s.fieldOf sid
  let s := s.modSpin sid (fun p => (p.spFlag (clapperFlag mm)).spFlag 5)
  let s := (wbump31 s sid 5 0x48 1).raise pg 7
  let s := s.bump48 pg (pg + 0x218) 1
  let free := (SMap.get (fun _ => none) s.belfry.buffers f).isNone
  let s := if free then
      (s.modBel (fun b => { b with buffers := SMap.set (fun _ => none) b.buffers f (some (captureRecord s sid p x mm)) })).fset
        (pg + 0x214) 0 0 1 else s
  if s.bget (pg + 0x200) 31 then s
  else
    let s := s.setReg (pg + 0x200) (BitVec.ofNat 32 (2 ^ 31 + mm.kind % 8 * 2 ^ 28 + laneOf x mm % 16 * 2 ^ 24 + x.ply % 4 * 2 ^ 21 + sid % 2 ^ 21))
    let s := s.setReg (pg + 0x204) (BitVec.ofNat 32 (x.op % 64 * 2 ^ 26 + x.act % 64 * 2 ^ 20 + free.toNat))
    let s := s.setReg (pg + 0x208) (s.reg (pTb + 0x40))
    s.setReg (pg + 0x20C) (s.reg (pTb + 0x44))

/-- A hit of a spindle waits for the Belfry to judge it (R467). -/
def makeHit (s : State) (sid : Nat) (probe : Bool) : State :=
  s.modBel (fun b => { b with hitsDue := b.hitsDue ++ [(s.fieldOf sid * 32768 + locOf s sid, probe, s.tb)] })

/-- A clapper mismatch of an action: its record and its hit. -/
def clapper (s : State) (sid : Nat) (x : VuFly) (mm : Mismatch) : State := makeHit (clapperRecord s sid (s.spin sid) x mm) sid false

/-- The checks of one operation that fail in one cycle: each sets its flag, and together they make one mismatch, recorded as the shadow
check when it is among them, else as the lowest KIND (R77, R479). -/
def clapperChecks (s : State) (sid : Nat) (x : VuFly) : List Mismatch → State
  | [] => s
  | m :: rest =>
    let s := forEach rest (fun y s => s.modSpin sid (fun p => p.spFlag (clapperFlag y))) s
    let s := s.modSpin sid (fun p => p.spFlag (clapperFlag m))
    clapper s sid x (rest.foldl (fun a b => if b.kind < a.kind then b else a) m)

/-- Whether a check can find a fault in an operation in this cycle (R147), `j` cycles after it fired: the shadow lane's comparison in the cycle
that writes the result, the residue of a multiplier array while the arrays work, that of the integer sum of DOTX and RSUM after them, that of
the LA adder in its cycles, and the duplicate comparator of RMAX, RMIN and RARG after the operand read. -/
def checkable (x : VuFly) (mm : Mismatch) : Bool :=
  let w := vuDecode (x.word % 2 ^ 64)
  let j := vuLatency w - x.left
  match mm.kind with
  | 0 => x.left = 0
  | 1 => vuUsesMul w.op && decide (j < vuK w)
  | 2 => (w.op = 0x24 && decide (vuK w ≤ j)) || (w.op = 0x30 && decide (1 ≤ j))
  | 3 => (vuLaCycles w).testBit j
  | 4 => (w.op = 0x31 || w.op = 0x32 || w.op = 0x33) && decide (1 ≤ j)
  | _ => false

/-- VU_RESULT_WRITE (R133): one cycle's clapper checks, then the operations whose latency has passed write their results and flags; an MP
load due in the same cycle for one of their registers is dropped (R65). `found` is what the checks found, each with the place of its
operation among those in the VU, oldest first; those of one operation count once, in the cycle in which they are found (R147, R479). -/
def vuResultWrite (s : State) (sid : Nat) (found : List (Nat × Mismatch)) : State :=
  if !spinUp s sid then s else
  let fly := (s.spin sid).vu
  let due := fly.filter (fun x => x.left = 0)
  let s := forEach (found.map (·.1)).eraseDups (fun i s => match fly[i]? with
    | some x => clapperChecks s sid x ((found.filter (fun im => im.1 = i && checkable x im.2)).map (·.2))
    | none => s) s
  s.modSpin sid (fun p =>
    let p := due.foldl vuCommit p
    let clash := fun (m : MpFly) => m.left = 0 && due.any (fun y => y.res.mask != 0 && y.dst = m.reg)
    let p := if p.mp.any clash then p.spFlag 4 else p
    { p with vu := p.vu.filter (fun x => x.left != 0), mp := p.mp.filter (fun m => !clash m) })

/-! ### Ply loads (R150, R174, R176) -/

/-- Empty every queue of ply k (R174, R80, R261): rings, spills, sums and hank queues. -/
def emptyQueues (p : Spindle) (k : Nat) : Spindle :=
  let p := iter 8 (fun q (p : Spindle) =>
    ((((p.setWf (1 + k) (rqOff q + 0xC) 10 0 0).setWf (1 + k) (rqOff q + 0xC) 26 16 0).setWf (1 + k) (rqOff q + 0x10) 10 0 0).setWf
      (1 + k) (rqOff q + 0x10) 26 16 0 |>.setWf (1 + k) (rqOff q + 0x14) 10 0 0).setWf (1 + k) (rqOff q + 0x14) 26 16 0) p
  let p := iter 4 (fun q (p : Spindle) =>
    ((clearCqAcc p k q).setWf (1 + k) (cqOff q + 4) 31 16 0).setWf (1 + k) (cqOff q + 8) 15 14 0) p
  let p := iter 2 (fun q (p : Spindle) =>
    (p.setW (1 + k) (hqOff q + 12) 0#32).setW (1 + k) (hqOff q + 8) (BitVec.ofNat 32 (p.wf_ (1 + k) (hqOff q + 4) 31 23))) p
  let mine := fun (x : Formed) => match x with
    | .record j _ _ | .sum j _ | .handle j _ _ => j = k
    | .tap _ _ => false
  { p with holes := p.holes.filter (fun h => h.1 / 8 != k), fresh := p.fresh.filter (fun e => !mine e.2), freed := p.freed.filter (fun h => h.1 / 8 != k),
           skew := p.skew.filter (fun h => h.1 / 16 != k) }

/-- The words of ply k's page, by offset. -/
def plyWords (p : Spindle) (k : Nat) : SMap Word :=
  (p.win.filter (fun e => e.1 / 4096 = 1 + k)).map (fun e => (e.1 % 4096, e.2))

/-- A load of ply k from line `base` begins (R174): LOADED 0, EPOCH + 1, queues emptied. -/
def startLoad (p : Spindle) (k base : Nat) : Spindle :=
  let old := plyWords p k
  let p := emptyQueues ((p.setLoaded k false).setEpoch k (p.epoch k + 1)) k
  { p with load := some { ply := k, base := base % 2048, next := 0, bad := false, old := old }, seqs := p.seqs.filter (fun e => e.1 / 16 != k) }

/-- A load that the run controller makes (R324, R338): the image is written at its BASE and the load begins. -/
def startJob (s : State) (j : PlyJob) : State :=
  let s := forEach ((List.range j.image.length).zip j.image) (fun il s => writeLine s (storeAddr j.sid (j.base + il.1)) il.2) s
  (stopArrivals s j.sid j.ply).modSpin j.sid (fun p => startLoad p j.ply j.base)

/-- PLY_LOAD_START (R173, R174, R176): the waiting request starts when no load runs, and for a ply that was active when it was made
only when that ply is active no longer, holds no image, or the spindle's run is not RUNNING or DRAINING; with no request waiting, the next
load that the run controller makes for the spindle starts. -/
def plyLoadStart (s : State) (sid : Nat) : State :=
  let p := s.spin sid
  if !spinUp s sid || p.load.isSome then s
  else match p.loadWait with
    | some (k, base, now) =>
      if p.ply = k && p.loaded k && !now && s.live sid then s
      else (stopArrivals s sid k).modSpin sid (fun p => startLoad { p with loadWait := none } k base)
    | none =>
      match s.run.jobs.find? (fun j => j.sid = sid) with
      | some j => startJob s j
      | none => s

/-- Offsets of a ply page that image line i holds (R150), or none. -/
def imageOff (i : Nat) : Nat :=
  if i < 64 then 0x800 + 0x20 * i
  else if i < 68 then 0x40 + 0x20 * (i - 64)
  else if i < 76 then 0x100 + 0x20 * (i - 68)
  else if i < 78 then 0x200 + 0x20 * (i - 76)
  else if i = 78 then 0x240
  else 0x300 + 0x20 * (i - 79)

/-- The bits of a register of a ply page whose fields satisfy `ok`. -/
def plyMask (off : Nat) (ok : RField → Bool) : Nat :=
  match regFields .ply off with
  | some fs => fs.foldl (fun m f => if ok f then m ||| maskF f.hi f.lo else m) 0
  | none => 0

/-- The RW bits of a register of a ply page. -/
def plyRwMask (off : Nat) : Nat := plyMask off (fun f => f.acc = .rw)

/-- Take the RW bits of the word at `off` of ply k from `v` (R150). -/
def takeWord (p : Spindle) (k off : Nat) (v : Nat) : Spindle :=
  let m := plyRwMask off
  if m = 0 then p else p.setW (1 + k) off (BitVec.ofNat 32 (blend (p.wreg (1 + k) off).toNat v m))

/-- Install an image (R150, R174): RW fields from the image, PLY_FLAGS zero, taps of TAP_CLEAR zero, SAVED
from ENTRY, LOADED 1. -/
def installPly (p : Spindle) (k : Nat) (img : List (BitVec 256)) : Spindle :=
  let p := iter 87 (fun i p => iter 8 (fun j p =>
    takeWord p k (imageOff i + 4 * j) (((nth 0#256 img i).toNat >>> (32 * j)) % 2 ^ 32)) p) p
  let p := p.setW (1 + k) 0x48 0#32
  let clr := p.wf_ (1 + k) 0x40 31 16
  let p := iter 16 (fun t (p : Spindle) => if clr.testBit t then p.clearTap t else p) p
  let p := (p.setSaved k (p.entry k)).setLoaded k true
  let p := p.setActive k (p.ply = k)
  if p.ply = k then p.setCur k (p.entry k) else p

/-- The image word for the word at an offset of a ply page, if an image holds one (R150). -/
def imageWord (img : List (BitVec 256)) (off : Nat) : Option Word :=
  ((List.range 87).find? (fun i => decide (imageOff i ≤ off) && decide (off < imageOff i + 32))).map (fun i =>
    BitVec.ofNat 32 ((nth 0#256 img i).toNat >>> (8 * (off - imageOff i))))

/-- Every field of a ply but LOADED and EPOCH takes arbitrary content: of what it holds and held before the load, and of the image (R4, R174).
Bits that no field names read zero throughout (R9). -/
def scramblePly (s : State) (sid : Nat) (l : Loading) : State :=
  iter 1008 (fun j s =>
    let off := 0x40 + 4 * j
    if (regFields .ply off).isNone then s
    else
      let now := (s.spin sid).wreg (1 + l.ply) off
      let (v, s) := s.mix now (SMap.get (fun o => winReset ((1 + l.ply) * 4096 + o)) l.old off)
      let (v, s) := s.mix v ((imageWord l.data off).getD v)
      let v := if off = 0x40 then putF (putB v 0 (getB now 0)) 7 4 (getF now 7 4) else v
      let v := v &&& BitVec.ofNat 32 (plyMask off (fun _ => true))
      s.modSpin sid (fun p => p.setW (1 + l.ply) off v)) s

/-- PLY_LOAD_DONE (R174): the cycle after the last image line was read. -/
def plyLoadDone (s : State) (sid : Nat) : State :=
  let p := s.spin sid
  match p.load with
  | none => s
  | some l =>
    if !spinUp s sid || l.next < 87 then s
    else if l.bad then
      let live := s.live sid
      let s := (scramblePly s sid l).modSpin sid (fun p => { p with load := none })
      let s := { s with run := { s.run with jobs := s.run.jobs.filter (fun j => !(j.sid = sid && j.ply = l.ply)) } }
      let used := (s.runState = 1 || s.run.acking) && s.run.plies.any (fun r => r.1 = sid && r.2.1 = l.ply)
      if live || used then runFault s ⟨2, some (s.fieldOf sid), some sid⟩ else s
    else
      let s := s.setSpin sid { installPly p l.ply l.data with load := none }
      { s with run := { s.run with jobs := s.run.jobs.filter (fun j => !(j.sid = sid && j.ply = l.ply)) } }

/-! ### The commands -/

/-- SEQUENCER_CYCLE (R161). -/
def execSequencerCycle (sid : SID) (conds : List Cond) (s : State) : Out := .next (seqCycle s sid.toNat conds)
/-- PLY_SWITCH (R163). -/
def execPlySwitch (sid : SID) (act : BitVec 256) (s : State) : Out := .next (plySwitch s sid.toNat act.toNat)
/-- LOAD_REQUEST (R173). -/
def execLoadRequest (sid : SID) (act : BitVec 256) (s : State) : Out := .next (loadRequest s sid.toNat act.toNat)
/-- COUNTER_UPDATE (R158). -/
def execCounterUpdate (sid : SID) (act : BitVec 256) (s : State) : Out := .next (counterUpdate s sid.toNat act.toNat)
/-- TAP_INCREMENT (R156). -/
def execTapIncrement (sid : SID) (act : BitVec 256) (s : State) : Out := .next (tapIncrement s sid.toNat act.toNat)
/-- MP_STORE_READ (R153): MR_SRC 0x0 to 0x2. -/
def execMpStoreRead (sid : SID) (act : BitVec 256) (conds : List Cond) (s : State) : Out :=
  .next (mpRead s sid.toNat act.toNat (fun src => decide (src ≤ 2)) conds)
/-- MP_RQ_READ (R153): MR_SRC 0x8 to 0xF. -/
def execMpRqRead (sid : SID) (act : BitVec 256) (conds : List Cond) (s : State) : Out :=
  .next (mpRead s sid.toNat act.toNat (fun src => decide (8 ≤ src)) conds)
/-- MP_CQ_READ (R199): MR_SRC 0x4 to 0x7. -/
def execMpCqRead (sid : SID) (act : BitVec 256) (s : State) : Out :=
  .next (mpRead s sid.toNat act.toNat (fun src => decide (4 ≤ src) && decide (src ≤ 7)) [])
/-- MP_WRITE (R153). -/
def execMpWrite (sid : SID) (act : BitVec 256) (conds : List Cond) (s : State) : Out :=
  .next (mpWrite s sid.toNat act.toNat conds)
/-- STORE_CORRECTED_WRITE_BACK (R61). -/
def execStoreCorrectedWriteBack (sid : SID) (s : State) : Out := .next (writeBack s sid.toNat)
/-- SEND (R154). -/
def execSend (sid : SID) (act : BitVec 256) (s : State) : Out := .next (sendRow s sid.toNat act.toNat)
/-- POP (R155). -/
def execPop (sid : SID) (act : BitVec 256) (s : State) : Out := .next (popRow s sid.toNat act.toNat)
/-- IP_MESSAGE_INJECT (R68). -/
def execIpMessageInject (sid : SID) (c : Cond) (s : State) : Out := .next (ipInject s sid.toNat c)
/-- IP_MESSAGE_LEFT (R73). -/
def execIpMessageLeft (sid : SID) (s : State) : Out := .next (ipLeft s sid.toNat)
/-- VU_RESULT_WRITE (R133, R147): `found` is what the clapper found. -/
def execVuResultWrite (sid : SID) (found : List (Nat × Mismatch)) (s : State) : Out :=
  .next (vuResultWrite s sid.toNat found)
/-- PLY_LOAD_START (R174). -/
def execPlyLoadStart (sid : SID) (s : State) : Out := .next (plyLoadStart s sid.toNat)
/-- PLY_LOAD_DONE (R174). -/
def execPlyLoadDone (sid : SID) (s : State) : Out := .next (plyLoadDone s sid.toNat)

end Sys2Proof.Machine
end

