-- ==== Sys2Proof/Machine/Calls.lean ====
section
/-! DEFINITION. Ringer calls (chapter "Plies, calls and the sequencer", R166 to R172). A ringer's entries
are `Ringer.calls`; a call that CALL_ISSUE takes from them stands in `Ringer.issued` until the command of
its code brings its effect at the boundary. -/
namespace Sys2Proof.Machine

/-- A call from the layout of RG_CALL, RG_X and RG_Y (R168, R246). -/
def callOf (c x y : Word) : Call :=
  { code := getF c 27 24, ply := getF c 23 22, wafer := getB c 21, arg := getF c 15 0,
    xlo := getF x 10 0, xhi := getF x 26 16, ylo := getF y 9 0, yhi := getF y 25 16 }

/-- Whether the range of a call made at field f selects a spindle (R167). -/
def selects (s : State) (f : Nat) (c : Call) (sid : Nat) : Bool :=
  s.validSid sid && (c.wafer || s.fieldOf sid = f)
    && decide (c.xlo ≤ xOf sid) && decide (xOf sid ≤ c.xhi) && decide (c.ylo ≤ yOf sid) && decide (yOf sid ≤ c.yhi)

/-- The spindles of field f that an issued call selects and that do not ignore calls (R167). -/
def selected (s : State) (f : Nat) (c : Call) : List Nat :=
  let x0 := max c.xlo ((f % 8) * s.cols)
  let x1 := min (c.xhi + 1) ((f % 8 + 1) * s.cols)
  let y0 := max c.ylo ((f / 8) * 128)
  let y1 := min (c.yhi + 1) ((f / 8 + 1) * 128)
  (tab (y1 - y0) (fun j => tab (x1 - x0) (fun i => sidAt (x0 + i) (y0 + j)))).flatten.filter (spinUp s)

/-- Whether R169 refuses a call: its range selects a spindle of a placement whose run is RUNNING or
DRAINING. -/
def callRefused (s : State) (f : Nat) (c : Call) : Bool :=
  s.running && s.run.starts.any (fun p => selects s f c p.1)

/-- Ringer f accepts a call (R166, R171). A wafer call goes to the tree towards all 64 ringers. -/
def acceptCall (s : State) (f : Nat) (c : Call) : State :=
  let s := s.bump48 (pRinger f) (pRinger f + 0x58) 1
  if c.wafer then
    forEach (List.range 64) (fun g s =>
      let r := s.ringer g
      s.setRinger g { r with tree := r.tree ++ [(c, decide (g = f))] }) s
  else
    let r := s.ringer f
    s.setRinger f { r with calls := r.calls ++ [c] }

/-- A call submitted through RG_GO (R166, R169, R170). -/
def ringerGo (s : State) (f : Nat) : State :=
  let pg := pRinger f
  let c := callOf (s.reg (pg + 0x40)) (s.reg (pg + 0x44)) (s.reg (pg + 0x48))
  if 16 ≤ (s.ringer f).calls.length then s.raise pg 0
  else if callRefused s f c then s.raise pg 1
  else acceptCall s f c

/-- Whether the chime of watch w of field f is claimed by the loaded peal (R249). -/
def watchClaimed (s : State) (f w : Nat) : Bool :=
  let k := s.fget (pChime f 5 + 0x100 + w * 0x20) 8 0
  s.bget (pChime f (1 + k / 128) + 0x104 + (k % 128) * 16) 30

/-- WATCH_CALL_ACCEPT (R249): the first call held at the bank, once fewer than 16 calls wait. -/
def watchCallAccept (s : State) (f : Nat) : State :=
  let r := s.ringer f
  match r.held with
  | [] => s
  | (w, c) :: rest =>
    if 16 ≤ r.calls.length then s
    else
      let s' := s.setRinger f { r with held := rest }
      if !watchClaimed s f w && callRefused s f c then s'.raise (pRinger f) 1
      else acceptCall s' f c

/-- WAFER_CALL_DELIVERY (R171): the call tree delivers its next call to ringer f while fewer than 20 calls
wait there. -/
def waferDeliver (s : State) (f : Nat) : State :=
  let r := s.ringer f
  match r.tree with
  | [] => s
  | (c, own) :: rest =>
    if 20 ≤ r.calls.length then s
    else
      let s := s.setRinger f { r with tree := rest, calls := r.calls ++ [c] }
      if own then s else s.bump48 (pRinger f) (pRinger f + 0x58) 1

/-- A LOAD call is delayed while a selected spindle holds a waiting request (R173). -/
def loadDelayed (s : State) (f : Nat) (c : Call) : Bool :=
  c.code = 2 && (selected s f c).any (fun n => (s.spin n).loadWait.isSome)

/-- CALL_ISSUE (R170): the oldest waiting call enters the broadcast tree. -/
def callIssue (s : State) (f : Nat) : State :=
  let r := s.ringer f
  match r.calls with
  | [] => s
  | c :: rest =>
    if loadDelayed s f c then s else s.setRinger f { r with calls := rest, issued := r.issued ++ [c] }

/-- The boundary of the oldest issued call of field f, when its code is one of `codes`: RG_LAST_TB is recorded
and `eff` acts on every selected spindle (R170, R172). -/
def callEffect (s : State) (f : Nat) (codes : Nat → Bool) (eff : Call → Nat → State → State) : State :=
  let r := s.ringer f
  match r.issued with
  | [] => s
  | c :: rest =>
    if !codes c.code || loadDelayed s f c then s
    else
      let sel := selected s f c
      let s := s.setRinger f { r with issued := rest }
      let s := (s.setReg (pRinger f + 0x60) (s.reg (pTb + 0x40))).setReg (pRinger f + 0x64) (s.reg (pTb + 0x44))
      forEach sel (eff c) s

/-- RESTART of ply k (R167): SAVED becomes ENTRY, the counters 0; the current action of the active ply
becomes ENTRY; an EMPTY ply is unchanged. -/
def restartPly (p : Spindle) (k : Nat) : Spindle :=
  if !p.loaded k then p
  else
    let p := iter 6 (fun i p => p.setCtr k i 0) (p.setSaved k (p.entry k))
    if p.ply = k then p.setCur k (p.entry k) else p

/-- SWITCH to ply q by call (R163, R167): a switch to the active ply does not switch. -/
def callSwitch (p : Spindle) (q : Nat) : Spindle :=
  if p.ply = q then p else switchPly p q (p.curAct p.ply)

/-! ### The commands -/

/-- WATCH_CALL_ACCEPT (R249). -/
def execWatchCallAccept (field : Fin 64) (s : State) : Out := .next (watchCallAccept s field.val)
/-- WAFER_CALL_DELIVERY (R171). -/
def execWaferCallDelivery (field : Fin 64) (s : State) : Out := .next (waferDeliver s field.val)
/-- CALL_ISSUE (R170). -/
def execCallIssue (field : Fin 64) (s : State) : Out := .next (callIssue s field.val)
/-- CALL_NOP (R167). -/
def execCallNop (field : Fin 64) (s : State) : Out := .next (callEffect s field.val (fun c => c = 0) (fun _ _ s => s))
/-- SWITCH (R167). -/
def execSwitch (field : Fin 64) (s : State) : Out :=
  .next (callEffect s field.val (fun c => c = 1) (fun c n s => s.modSpin n (fun p => callSwitch p c.ply)))
/-- LOAD (R167, R173). -/
def execLoad (field : Fin 64) (s : State) : Out :=
  .next (callEffect s field.val (fun c => c = 2) (fun c n s => requestLoad s n c.ply (c.arg % 2048) (s.spin n).was))
/-- RESTART (R167). -/
def execRestart (field : Fin 64) (s : State) : Out :=
  .next (callEffect s field.val (fun c => c = 3) (fun c n s => s.modSpin n (fun p => restartPly p c.ply)))
/-- TAP_ADD (R167, R259). -/
def execTapAdd (field : Fin 64) (s : State) : Out :=
  .next (callEffect s field.val (fun c => c = 4) (fun c n s => tapAdd s n (fld c.arg 15 12) (fld c.arg 11 0)))
/-- HOLD (R167). -/
def execHold (field : Fin 64) (s : State) : Out :=
  .next (callEffect s field.val (fun c => c = 5) (fun _ n s => s.modSpin n (fun p => { p with hold := true })))
/-- RELEASE (R167). -/
def execRelease (field : Fin 64) (s : State) : Out :=
  .next (callEffect s field.val (fun c => c = 6) (fun _ n s => s.modSpin n (fun p => { p with hold := false })))
/-- CALL_BAD (R167): a reserved code; the event once per call. -/
def execCallBad (field : Fin 64) (s : State) : Out :=
  match (s.ringer field.val).issued with
  | c :: _ => if 7 ≤ c.code then .next ((callEffect s field.val (fun c => decide (7 ≤ c)) (fun _ _ s => s)).raise (pRinger field.val) 2)
              else .next s
  | [] => .next s

end Sys2Proof.Machine
end

