-- ==== Sys2Proof/Machine/Chimes.lean ====
section
/-! DEFINITION. Chime banks and watches (chapter "Chimes, taps and hank queues", R235 to R256, R450). -/
namespace Sys2Proof.Machine

/-- The register block of local chime k of field f (R243, R245), and that of watch w (R246). -/
def chBase (f k : Nat) : Nat := pChime f (1 + k / 128) + 0x100 + (k % 128) * 0x10
def wBase (f w : Nat) : Nat := pChime f 5 + 0x100 + w * 0x20

def chValue (s : State) (f k : Nat) : Nat := (s.reg (chBase f k)).toNat
def chBarrier (s : State) (f k : Nat) : Bool := s.bget (chBase f k + 4) 31
def chRun (s : State) (f k : Nat) : Bool := s.bget (chBase f k + 4) 30
def chExpect (s : State) (f k : Nat) : Nat := s.fget (chBase f k + 4) 15 0
def chCur (s : State) (f k : Nat) : Nat := s.fget (chBase f k + 8) 15 0
def chNext (s : State) (f k : Nat) : Nat := s.fget (chBase f k + 8) 31 16
def setSlots (s : State) (f k cur nxt : Nat) : State :=
  s.setReg (chBase f k + 8) (BitVec.ofNat 32 (cur % 65536 + nxt % 65536 * 65536))

/-- Whether a good physical chime serves local chime k of field f (R450). -/
def chPresent (s : State) (f k : Nat) : Bool := decide (k < (s.fmap f).chimesGood)

/-- `reached` of R238. -/
def reached (a b : Nat) : Bool := decide ((2 ^ 32 + a % 2 ^ 32 - b % 2 ^ 32) % 2 ^ 32 < 2 ^ 31)

/-- The chime word of R237; that of a missing chime is zero (R450). -/
def chimeWord (s : State) (f k : Nat) : Nat :=
  if !chPresent s f k then 0
  else if chBarrier s f k then chValue s f k + chCur s f k * 2 ^ 32 + chNext s f k * 2 ^ 48
  else chValue s f k

/-- Add an amount to a counter-mode chime (R240). -/
def counterAdd (s : State) (f k amount : Nat) : State :=
  if amount = 0 then s
  else (s.setReg (chBase f k) (BitVec.ofNat 32 (chValue s f k + amount))).bump48 (pChime f 0) (pChime f 0 + 0x50) 1

/-- A round of a barrier chime completes (R241). -/
def roundDone (s : State) (f k : Nat) : State :=
  (setSlots (s.setReg (chBase f k) (BitVec.ofNat 32 (chValue s f k + 1))) f k (chNext s f k) 0).bump48
    (pChime f 0) (pChime f 0 + 0x58) 1

/-- The arrival from the lowest-numbered gateway (R244). -/
def firstArrival : List Arrival → Option Arrival
  | [] => none
  | a :: l => match firstArrival l with
    | some b => if b.gate < a.gate then some b else some a
    | none => some a

/-- A barrier overrun (R242). -/
def overrun (s : State) (f k reason : Nat) (a : Arrival) : State :=
  let pg := pChime f 0
  let s := s.raise pg 1
  let s := if s.bget (pg + 0x40) 31 then s
    else (s.setReg (pg + 0x40) (BitVec.ofNat 32 (2 ^ 31 + reason * 2 ^ 29 + a.tag % 65536 * 512 + k % 512))).setReg
      (pg + 0x44) (BitVec.ofNat 32 a.src.toNat)
  if chRun s f k && s.running then runFault s ⟨5, some f, none⟩ else s

/-- The arrivals that reach a barrier chime in one cycle (R241); in a cycle in which its VALUE or CFG was written (`written`) no round
completes (R262). -/
def arrive (s : State) (f k : Nat) (all : List Arrival) (written : Bool := false) : State :=
  let arr := all.filter (fun a => a.count != 0)
  if arr = [] then s
  else
    let round := chValue s f k % 65536
    let nextR := (round + 1) % 65536
    let sum := fun (l : List Arrival) => l.foldl (fun n a => n + a.count) 0
    let cur := arr.filter (fun a => a.tag = round)
    let nxt := arr.filter (fun a => a.tag = nextR)
    let bad := arr.filter (fun a => a.tag != round && a.tag != nextR)
    let overC := decide (chExpect s f k < chCur s f k + sum cur)
    let overN := decide (chExpect s f k < chNext s f k + sum nxt)
    match firstArrival bad with
    | some a => overrun s f k (if (65536 + a.tag - round) % 65536 < 0x8000 then 0 else 1) a
    | none =>
      if overC || overN then
        match firstArrival (arr.filter (fun a => (overC && a.tag = round) || (overN && a.tag = nextR))) with
        | some a => overrun s f k 2 a
        | none => s
      else
        let s := (setSlots s f k (chCur s f k + sum cur) (chNext s f k + sum nxt)).bump48 (pChime f 0) (pChime f 0 + 0x50) arr.length
        if chCur s f k = chExpect s f k && !written then roundDone s f k else s

/-- The arrivals kept of chime c in a cycle that is not over (R241), if there is such a cycle. -/
def keptArrivals (s : State) (c : Nat) : Option (List Arrival) := (s.arrivals.find? (fun x => x.1 = c)).map (·.2)

/-- Keep arrivals at chime c for the end of their cycle. -/
def keepArrivals (s : State) (c : Nat) (arr : List Arrival) : State :=
  { s with arrivals := (c, (keptArrivals s c).getD [] ++ arr) :: s.arrivals.filter (fun x => x.1 != c) }

/-- Arrivals reach barrier chime k of field f: they are judged, or wait for the rest of their cycle's. -/
def reach (s : State) (f k : Nat) (arr : List Arrival) : State :=
  match keptArrivals s (f * 512 + k) with
  | some _ => keepArrivals s (f * 512 + k) arr
  | none => arrive s f k arr

/-- One increment of local chime k by operand bits [29:0] (R236, R450); `meets` are the arrivals that reach a barrier chime in the same
cycle (R241). -/
def chimeApply (s : State) (f k operand : Nat) (src : SID) (gate : Nat) (meets : List Arrival := []) : State :=
  if !chPresent s f k then s.errUncorr (pChime f 0)
  else if chBarrier s f k then reach s f k (meets ++ [⟨fld operand 29 16, fld operand 15 0, src, gate⟩])
  else counterAdd s f k (fld operand 29 0)

/-- The chime, within its bank, that an increment message names (R236). -/
def incChime (m : Msg) : Nat := ((m.ea.toNat - 0x500000000000) / 8 + m.arg.toNat / 2 ^ 30) % 512

/-- Whether a message is an increment for the bank of field f. -/
def isInc (f : Nat) (m : Msg) : Bool := m.dst = .chimes f && m.kind = 3 && !m.req && !m.isAck

/-- CHIME_INCREMENT (R240, R254): the next increment of `src` on `vc` that reaches the bank of field f, when it names a
counter-mode chime or a missing one. One that carries a marked operand line is discarded (R237, R450). -/
def chimeIncrement (s : State) (f vc : Nat) (src : SID) : State :=
  match takeMsg (fun m => isInc f m && m.vc = vc && m.src = src) [] s.mesh with
  | none => s
  | some (pre, m, post) =>
    let k := incChime m
    if chPresent s f k && chBarrier s f k && m.payload = [] then s
    else
      let s := countGate (countRoute { s with mesh := pre ++ post } m) f m.src 1
      if m.payload != [] then s.errUncorr (pChime f 0) else chimeApply s f k m.arg.toNat m.src 0

/-- The gateway through which an increment reaches the bank of field f. -/
def incGate (s : State) (f : Nat) (src : SID) : Nat := (gatewayFor s f src).getD 64

/-- Take the next increments of barrier chime k that the sources `srcs`, each on its VC, have on their way: one through each gateway, for
one cycle (R240). -/
def takeArrivals (s : State) (f k : Nat) : List (SID × Fin 4) → List Arrival → State × List Arrival
  | [], acc => (s, acc)
  | sv :: rest, acc =>
    let ok := fun (m : Msg) => isInc f m && m.payload = [] && incChime m = k && m.src = sv.1 && m.vc = sv.2.val
      && !acc.any (fun a => a.gate = incGate s f m.src)
    match takeMsg ok [] s.mesh with
    | none => takeArrivals s f k rest acc
    | some (pre, m, post) =>
      takeArrivals (countGate (countRoute { s with mesh := pre ++ post } m) f m.src 1) f k rest
        (acc ++ [⟨fld m.arg.toNat 29 16, fld m.arg.toNat 15 0, m.src, incGate s f m.src⟩])

/-- BARRIER_ARRIVAL (R241, R254): the arrivals of `srcs` reach barrier chime k of field f in one cycle; `written` says that its VALUE or
CFG was written in that cycle (R262). `more` says that the cycle brings the chime further arrivals, by increments, by writes of chime space or
by BAR2: they are kept with these, and the BARRIER_ARRIVAL without `more` that ends the cycle judges them all. -/
def barrierArrival (s : State) (f k : Nat) (srcs : List (SID × Fin 4)) (written more : Bool) : State :=
  if !chPresent s f k || !chBarrier s f k then s
  else
    let c := f * 512 + k
    let (s, arr) := takeArrivals s f k srcs ((keptArrivals s c).getD [])
    if more then { s with arrivals := (c, arr) :: s.arrivals.filter (fun x => x.1 != c) }
    else arrive { s with arrivals := s.arrivals.filter (fun x => x.1 != c) } f k arr written

/-- BARRIER_ROUND_COMPLETE (R241): a current slot that is already full. -/
def barrierRound (s : State) (f k : Nat) : State :=
  if chPresent s f k && chBarrier s f k && chExpect s f k != 0 && chCur s f k = chExpect s f k then roundDone s f k else s

/-- Write one line into chime space from chime k upwards: `mask` has a bit for each byte written (R237), and `meets` lists, by chime, the
arrivals that reach it in the same cycle (R241). -/
def chimeLine (s : State) (f k : Nat) (l : Line) (mask : Nat) (src : SID) (gate : Nat) (meets : List (Nat × Arrival) := []) : State :=
  if l.bad then
    let s := s.errUncorr (pChime f 0)
    if s.running && (List.range 4).any (fun j => chRun s f (k + j) && fld mask (8 * j + 7) (8 * j) != 0)
    then runFault s ⟨2, some f, none⟩ else s
  else iter 4 (fun j s =>
    let mk := fld mask (8 * j + 7) (8 * j)
    if mk = 0 then s
    else if mk = 255 then chimeApply s f (k + j) (fld l.data.toNat (64 * j + 29) (64 * j)) src gate
      ((meets.filter (fun m => m.1 = k + j)).map (·.2))
    else s.errUncorr (pChime f 0)) s

/-- The lines of chime words from chime k upwards (R237). -/
def chimeLines (s : State) (f k n : Nat) : List Line :=
  tab n (fun i => ⟨(List.range 4).foldl (fun (a : BitVec 256) j =>
    a ||| ((BitVec.ofNat 256 (chimeWord s f (k + 4 * i + j))) <<< (64 * j))) 0#256, false⟩)

/-- The arrivals of increments that reach barrier chimes in the cycles in which a write's words reach them: each of `meets` names a chime and
the source and VC of an increment (R241). -/
def meetArrivals (s : State) (f gate : Nat) : List (Nat × SID × Fin 4) → List (Nat × Arrival) → State × List (Nat × Arrival)
  | [], acc => (s, acc)
  | c :: rest, acc =>
    if !chPresent s f c.1 || !chBarrier s f c.1 || acc.any (fun a => a.1 = c.1 && a.2.gate = incGate s f c.2.1) || gate = incGate s f c.2.1 then
      meetArrivals s f gate rest acc
    else
      let (s, arr) := takeArrivals s f c.1 [c.2] []
      meetArrivals s f gate rest (acc ++ arr.map (fun a => (c.1, a)))

/-- First local chime of a message's lines. -/
def lineChime (m : Msg) : Nat := (m.ea.toNat - 0x500000000000) / 8 % 512

/-- Whether a write's unmarked lines bring a word to local chime k. -/
def writeCovers (m : Msg) (k : Nat) : Bool :=
  let c := lineChime m
  decide (c ≤ k) && decide (k < c + 4 * m.payload.length) && !((m.payload[(k - c) / 4]?).any (·.bad))

/-- CHIME_SPACE_WRITE (R237, R254, R304): the next write of `src` on `vc` to the chime space of field f. -/
def chimeWrite (s : State) (f vc : Nat) (src : SID) (meets : List (Nat × SID × Fin 4)) : State :=
  match takeMsg (fun m => m.dst = .chimes f && m.kind = 2 && !m.req && !m.isAck && m.vc = vc && m.src = src) [] s.mesh with
  | none => s
  | some (pre, m, post) =>
    let g := incGate s f m.src
    let s := countGate (countRoute { s with mesh := pre ++ post } m) f m.src 1
    let (s, arr) := meetArrivals s f g (meets.filter (fun c => writeCovers m c.1)) []
    let s := forEach ((List.range m.payload.length).zip m.payload) (fun il s =>
      chimeLine s f (lineChime m + 4 * il.1) il.2 (2 ^ 32 - 1) m.src g arr) s
    if m.cut then s else bankAck s f m

/-- CHIME_SPACE_READ (R237, R254): the next read of `src` on `vc`. -/
def chimeRead (s : State) (f vc : Nat) (src : SID) : State :=
  match takeMsg (fun m => m.dst = .chimes f && m.req && m.vc = vc && m.src = src) [] s.mesh with
  | none => s
  | some (pre, m, post) =>
    let s := countGate (countRoute { s with mesh := pre ++ post } m) f m.src 2
    respond s m (bankSrc f) (chimeLines s f (lineChime m) (m.len + 1)) (gatewayFor s f m.src)

/-! ### Register writes (R245 to R247) -/

/-- Whether R247 refuses a write to a chime's or its watch's registers. -/
def chimeLocked (s : State) (f k : Nat) : Bool := s.running && chRun s f k

/-- CH_k_VALUE is written (R245). -/
def writeChValue (s : State) (f k : Nat) (v : Word) : State :=
  if !chPresent s f k then s
  else if chimeLocked s f k then s.raise (pChime f 0) 2
  else setSlots (s.setReg (chBase f k) v) f k 0 0

/-- CH_k_CFG is written (R245). -/
def writeChCfg (s : State) (f k : Nat) (v : Word) : State :=
  if !chPresent s f k then s
  else if chimeLocked s f k then s.raise (pChime f 0) 2
  else
    let w := putF (putB (s.reg (chBase f k + 4)) 31 (getB v 31)) 15 0 (getF v 15 0)
    setSlots (s.setReg (chBase f k + 4) w) f k 0 0

/-! ### Watches (R248, R249) -/

/-- WATCH_FIRE (R248). -/
def watchFire (s : State) (f w : Nat) : State :=
  let b := wBase f w
  let cfg := s.reg b
  let k := getF cfg 8 0
  let th := (s.reg (b + 4)).toNat
  if getF cfg 31 30 = 0 || !getB cfg 29 || (s.ringer f).held.any (fun h => h.1 = w) || !chPresent s f k
      || !reached (chValue s f k) th || decide (64 ≤ w) then s
  else
    let pg := pChime f 0
    let s := if 2 ≤ getF cfg 31 30 then
        (let o := pg + 0x48 + 4 * (w / 32)
         (s.setReg o (putB (s.reg o) (w % 32) true)).raise pg 0)
      else s
    let r := s.ringer f
    let s := if getF cfg 31 30 % 2 = 1 then
        s.setRinger f { r with held := r.held ++ [(w, callOf (s.reg (b + 0xC)) (s.reg (b + 0x10)) (s.reg (b + 0x14)))] }
      else s
    let step := (s.reg (b + 8)).toNat
    if step = 0 then s.setReg b (putB (s.reg b) 29 false) else s.setReg (b + 4) (BitVec.ofNat 32 (th + step))

/-! ### A chime across a run (R251, R252) -/

/-- START_RUN's copies of a claimed chime and of the watches on it (R251). -/
def saveChime (s : State) (c : Nat) : State :=
  let f := c / 512
  let k := c % 512
  let s := s.setReg (chBase f k + 0xC) (s.reg (chBase f k))
  iter 64 (fun w s =>
    let b := wBase f w
    if s.fget b 8 0 = k then (s.setReg (b + 0x18) (s.reg (b + 4))).setReg b (putB (s.reg b) 28 (s.bget b 29)) else s) s

/-- FAULT_ACK's restore of a claimed chime and of the watches on it (R252). -/
def restoreChime (s : State) (c : Nat) : State :=
  let f := c / 512
  let k := c % 512
  let s := setSlots (s.setReg (chBase f k) (s.reg (chBase f k + 0xC))) f k 0 0
  iter 64 (fun w s =>
    let b := wBase f w
    if s.fget b 8 0 = k then
      (let s := (s.setReg (b + 4) (s.reg (b + 0x18))).setReg b (putB (s.reg b) 29 (s.bget b 28))
       let r := s.ringer f
       s.setRinger f { r with held := r.held.filter (fun h => h.1 != w) })
    else s) s

/-! ### The commands -/

/-- CHIME_INCREMENT (R240). -/
def execChimeIncrement (field : Fin 64) (vc : Fin 4) (src : SID) (s : State) : Out := .next (chimeIncrement s field.val vc.val src)
/-- BARRIER_ARRIVAL (R241). -/
def execBarrierArrival (field : Fin 64) (chime : Fin 512) (srcs : List (SID × Fin 4)) (written more : Bool) (s : State) : Out :=
  .next (barrierArrival s field.val chime.val srcs written more)
/-- BARRIER_ROUND_COMPLETE (R241). -/
def execBarrierRoundComplete (field : Fin 64) (chime : Fin 512) (s : State) : Out := .next (barrierRound s field.val chime.val)
/-- CHIME_SPACE_WRITE (R237). -/
def execChimeSpaceWrite (field : Fin 64) (vc : Fin 4) (src : SID) (meets : List (Nat × SID × Fin 4)) (s : State) : Out :=
  .next (chimeWrite s field.val vc.val src meets)
/-- CHIME_SPACE_READ (R237). -/
def execChimeSpaceRead (field : Fin 64) (vc : Fin 4) (src : SID) (s : State) : Out := .next (chimeRead s field.val vc.val src)
/-- WATCH_FIRE (R248). -/
def execWatchFire (field watch : Fin 64) (s : State) : Out := .next (watchFire s field.val watch.val)

end Sys2Proof.Machine
end

