-- ==== Sys2Proof/Machine/ShiftMap.lean ====
section
/-! DEFINITION. Defect records and the shift map (chapter "Start-up, defect maps and grades", R438, R441 to R448): which positions are
bad, what a map must meet, and the column count that the records allow. -/
namespace Sys2Proof.Machine

/-! ### Records (R438) -/

/-- The records of the soft map, oldest first, and those that a full soft map did not take, which count until a COLD reset (R440). -/
def softRecords (s : State) : List Word := s.belfry.softMap.map (·.1) ++ s.belfry.unrecorded
/-- The defect records in force (R438, R440). -/
def records (s : State) : List Word := s.fuses.records ++ softRecords s
def recKind (r : Word) : Nat := getF r 31 28
def recField (r : Word) : Nat := getF r 27 22
def recLoc (r : Word) : Nat := getF r 21 6
def recDetail (r : Word) : Nat := getF r 5 0

/-- Whether a record puts the whole of field f out (R438). -/
def fieldRecord (s : State) (f : Nat) : Bool := (records s).any (fun r => recKind r = 9 && recField r = f)

/-! ### Bad positions (R441, R442) -/

/-- Whether a position is a bad router of the shift map, given the records in force: a router found bad, or the east or south
end of a bad link between two good positions. -/
def routerBad (rs : List Word) (f pr pc : Nat) : Bool :=
  let rec_ := fun (k g r c : Nat) => rs.any (fun x => recKind x = k && recField x = g && recLoc x = r * 152 + c)
  let out := fun g r c => rec_ 1 g r c || rec_ 2 g r c
  let link := fun (g r c d : Nat) => rs.any (fun x => recKind x = 3 && recField x = g && recLoc x = r * 152 + c && recDetail x = d)
  let fx := f % 8
  -- west: (field, column) of the position k columns to the left
  let west := fun (k : Nat) => if k ≤ pc then some (f, pc - k) else if fx = 0 then none else some (f - 1, pc + 152 - k)
  let north := fun (k : Nat) => if k ≤ pr then some (f, pr - k) else if f < 8 then none else some (f - 8, pr + 130 - k)
  let hit := fun (o : Option (Nat × Nat)) (d : Nat) => match o with
    | some (g, c) => link g pr c d && !out g pr c
    | none => false
  let hitN := fun (k : Nat) (off : Int) (d : Nat) => match north k with
    | some (g, r) =>
      let c : Int := (pc : Int) - off
      if 0 ≤ c && c < 152 then link g r c.toNat d && !out g r c.toNat else false
    | none => false
  rec_ 2 f pr pc || (!out f pr pc && (hit (west 1) 0 || hit (west 2) 1
    || hitN 1 (-1) 2 || hitN 1 0 3 || hitN 1 1 4 || hitN 2 (-1) 5 || hitN 2 0 6 || hitN 2 1 7))

/-- Whether the spindle of a position is bad. -/
def spindleBad (rs : List Word) (f pr pc : Nat) : Bool :=
  routerBad rs f pr pc || rs.any (fun x => recKind x = 1 && recField x = f && recLoc x = pr * 152 + pc)

/-- Whether the link named by a record is bad. -/
def linkBad (rs : List Word) (f pr pc d : Nat) : Bool :=
  rs.any (fun x => recKind x = 3 && recField x = f && recLoc x = pr * 152 + pc && recDetail x = d)

/-! ### The shift map (R443 to R446) -/

/-- A shift map: the physical row of each logical row, and the physical columns of its logical columns (none: every shift is 0). -/
abbrev ShiftMap := List (Nat × List Nat)

def smRow (m : ShiftMap) (r : Nat) : Nat := (nth (r, []) m r).1
def smCol (m : ShiftMap) (r lx : Nat) : Nat := nth lx (nth (r, []) m r).2 lx

/-- R444 for one row: columns rising and good, every other position passable, the end columns' routers good, every link used
good. -/
def rowOk (rs : List Word) (f c : Nat) (m : ShiftMap) (r : Nat) : Bool :=
  let pr := smRow m r
  let bad := routerBad rs f pr
  decide (pr < 130) && !rs.any (fun x => recKind x = 4 && recField x = f && recLoc x = pr)
  && (List.range c).all (fun lx => decide (smCol m r lx < 152) && !spindleBad rs f pr (smCol m r lx)
      && (lx = 0 || decide (smCol m r (lx - 1) < smCol m r lx)))
  && !bad 0 && !bad 151
  && (List.range 152).all (fun pc =>
    if bad pc then !bad (pc - 1) && !bad (pc + 1) && !linkBad rs f pr (pc - 1) 1
    else (decide (pc < 151) && bad (pc + 1)) || !linkBad rs f pr pc 0)

/-- R443 and R445 between a logical row at (pr, columns) and the next at (pr', columns'), and the links of that crossing. `f` owns
the links; rows count on across a seam. -/
def stepOk (rs : List Word) (f c pr pr' : Nat) (col col' : Nat → Nat) : Bool :=
  decide (pr < pr') && decide (pr' ≤ pr + 2) && (List.range c).all (fun lx =>
    let s0 := col lx
    let s1 := col' lx
    decide (s0 ≤ s1 + 1) && decide (s1 ≤ s0 + 1) && !linkBad rs f pr s0 ((if pr' = pr + 1 then 3 else 6) + s1 - s0))

/-- The map of a field that is mapped. -/
def mapOf (s : State) (f : Nat) : Option ShiftMap :=
  if decide (f < 64) && (s.fmap f).c != 0 && !(s.fmap f).fail then some (s.fmap f).rows else none

/-- Whether a shift map of field f for c columns meets R443 to R445, against its mapped neighbours, in the columns that both have. -/
def mapOk (s : State) (rs : List Word) (f c : Nat) (m : ShiftMap) : Bool :=
  let beside := fun (g : Option ShiftMap) => match g with
    | some n => (List.range 128).all (fun r => decide (smRow m r ≤ smRow n r + 1) && decide (smRow n r ≤ smRow m r + 1))
    | none => true
  decide (m.length = 128) && (List.range 128).all (rowOk rs f c m)
  && (List.range 127).all (fun r => stepOk rs f c (smRow m r) (smRow m (r + 1)) (smCol m r) (smCol m (r + 1)))
  && (if f % 8 = 0 then true else beside (mapOf s (f - 1))) && (if f % 8 = 7 then true else beside (mapOf s (f + 1)))
  && (if f < 8 then true else match mapOf s (f - 8) with
      | some n => stepOk rs (f - 8) (min c (s.fmap (f - 8)).c) (smRow n 127) (smRow m 0 + 130) (smCol n 127) (smCol m 0)
      | none => true)
  && (match mapOf s (f + 8) with
      | some n => stepOk rs f (min c (s.fmap (f + 8)).c) (smRow m 127) (smRow n 0 + 130) (smCol m 127) (smCol n 0)
      | none => true)

/-- Map field f at c columns (R442, R444): the map, the gateways whose BANK port is bad, and the positions crossed by skip links. -/
def placeMap (s : State) (rs : List Word) (f c : Nat) (m : ShiftMap) : State :=
  let bank := (rs.filter (fun x => recKind x = 3 && recField x = f && recDetail x = 8)).map
    (fun x => (recLoc x / 152 - 64) * 32 + (recLoc x % 152 - 14) / 4)
  let skips := (m.map (fun row => ((List.range 152).filter (fun pc => routerBad rs f row.1 pc)).map (fun pc => row.1 * 152 + pc))).flatten
  s.setFmap f { s.fmap f with rows := m, c := c, fail := false, bankOut := bank, skips := skips }

/-- Whether a shift map of c columns puts a logical spindle on a physical position. -/
def mapsOnto (m : ShiftMap) (c pr pc : Nat) : Bool :=
  (List.range 128).any (fun r => smRow m r = pr && (List.range c).any (fun lx => smCol m r lx = pc))

/-- Whether every take-over group of gateways of field f holds one in service under the field's map (R219, R446). -/
def gatesOk (s : State) (f : Nat) : Bool :=
  let x := s.fmap f
  (List.range 64).all (fun g => [g, g ^^^ 1, g ^^^ 32, g ^^^ 33].any (fun h =>
    !x.bankOut.contains h && mapsOnto x.rows x.c (64 + h / 32) (14 + 4 * (h % 32))))

/-! ### What the records allow (R434, R447, R448) -/

/-- The grade's column count. -/
def gradeCols (s : State) : Nat := match s.fuses.grade with | 1 => 144 | 2 => 128 | 3 => 112 | _ => 0

/-- The rising lists of n numbers from `lo` on, below `hi`. -/
def risings (hi : Nat) : Nat → Nat → List (List Nat)
  | 0, _ => [[]]
  | n + 1, lo => ((List.range (hi - lo)).map (fun d => (risings hi n (lo + d + 1)).map ((lo + d) :: ·))).flatten

/-- Every way to take one item of each list. -/
def choices {α : Type} : List (List α) → List (List α)
  | [] => [[]]
  | l :: ls => (l.map (fun a => (choices ls).map (a :: ·))).flatten

/-- Every map of c logical columns that rises in rows and in columns, as R443 and R444 ask first. -/
def risingMaps (c : Nat) : List ShiftMap :=
  ((risings 130 128 0).map (fun prs => choices (prs.map (fun pr => (risings 152 c 0).map (fun cols => (pr, cols)))))).flatten

/-- Whether the bad BANK ports of field f leave some take-over group without a gateway whatever the map (R446). -/
def bankless (s : State) (f : Nat) : Bool :=
  (List.range 64).any (fun g => [g, g ^^^ 1, g ^^^ 32, g ^^^ 33].all (s.fmap f).bankOut.contains)

/-- Whether the fields of a list all have maps of c columns that meet R443 to R446 with the fields already mapped. -/
def mapsExist (rs : List Word) (c : Nat) : List Nat → State → Bool
  | [], _ => true
  | f :: fs, s => (risingMaps c).any (fun m =>
      let t := placeMap s rs f c m
      mapOk s rs f c m && (gatesOk t f || bankless t f) && mapsExist rs c fs t)

/-- Whether a record bears on the map: a SPINDLE, ROUTER, LINK, ROW or FIELD record. -/
def mapRecord (r : Word) : Bool := (decide (1 ≤ recKind r) && decide (recKind r ≤ 4)) || recKind r = 9

/-- Whether enough rows of field f can hold c logical spindles: a field bypasses at most two (R443, R447). -/
def rowsHold (rs : List Word) (f c : Nat) : Bool :=
  decide (128 ≤ ((List.range 130).filter (fun pr => !rs.any (fun x => recKind x = 4 && recField x = f && recLoc x = pr)
    && decide (c ≤ ((List.range 152).filter (fun pc => !spindleBad rs f pr pc)).length))).length)

/-- Whether a map of c columns exists for field f beside the fields that are mapped (R447). With no record that bears on a map, there is one. -/
def colsExist (s : State) (rs : List Word) (f c : Nat) : Bool :=
  !rs.any mapRecord || (rowsHold rs f c && (risingMaps c).any (fun m =>
    let t := placeMap s rs f c m
    mapOk s rs f c m && (gatesOk t f || bankless t f)))

/-- Whether C_MAX of field f is `cmax` (R447): no map exists for a larger count of the grade; one exists for this count, where the offered count does
not already make the field's map show it. -/
def colsOk (s : State) (rs : List Word) (f cmax : Nat) : Bool :=
  decide (cmax ≤ gradeCols s) && (cmax = 0 || decide (cmax ≤ s.cols) || colsExist s rs f cmax)
  && [144, 128, 112].all (fun c => decide (c ≤ cmax) || decide (gradeCols s < c) || !colsExist s rs f c)

/-- The column count of the provisional shape (R434): the largest of R448 that the fuse sheet and the soft map allow in every field.
No record that bears on the map leaves the grade's; a fuse sheet whose check fails offers no shape (R439). -/
def provisionalCols (s : State) : Nat :=
  let rs := records s
  if !s.fuses.ok then 0
  else if !rs.any mapRecord then gradeCols s
  else
    ([144, 128, 112].filter (fun c => decide (c ≤ gradeCols s) && !(List.range 64).any (fieldRecord s)
      && mapsExist rs c (List.range 64) State.reset)).headD 0

end Sys2Proof.Machine
end

