-- ==== Sys2Proof/Machine/Bobbins.lean ====
section
/-! DEFINITION. Bobbin memory (chapter "Bobbin memory", R263 to R291). A read is answered and a write stored
in the step that accepts it; the order of accesses to one granule is the order of acceptance (R270). -/
namespace Sys2Proof.Machine

/-! ### The soft map (R438, R440) -/

/-- A defect record (R438). -/
def defect (kind field loc detail : Nat) : Word :=
  BitVec.ofNat 32 (kind % 16 * 2 ^ 28 + field % 64 * 2 ^ 22 + loc % 65536 * 64 + detail % 64)

/-- The Belfry adds a soft-map entry; a full map takes none, and the defect counts until a COLD reset (R440, R452). -/
def addSoft (s : State) (record : Word) (cause : Nat) : State :=
  let m := s.belfry.softMap
  if 4096 ≤ m.length then (s.modBel (fun b => { b with unrecorded := b.unrecorded ++ [record] })).raise pFuse 1
  else
    let s := s.modBel (fun b => { b with softMap := m ++ [(record, BitVec.ofNat 32 (cause * 2 ^ 28))] })
    let s := addLog s 0x300 2 [record.toNat, cause * 2 ^ 28]
    let n := m.length + 1
    s.setReg (pFuse + 0x48) (putB (putF (s.reg (pFuse + 0x48)) 12 0 n) 31 (decide (4096 ≤ n)))

/-! ### Address decode (R266) -/

def slotOf (o : Nat) : Nat := o / 2 ^ 32
/-- The channel of a bobbin offset. -/
def channelOf (o : Nat) : Nat := fld o 10 6 ^^^ fld o 15 11
def granuleOf (o : Nat) : Nat := o / 64

/-- The offset of the granule with index `i` of channel c in slot sl (R278). -/
def granuleAt (sl c i : Nat) : Nat :=
  let col := i % 32
  let bank := i / 32 % 16
  sl * 2 ^ 32 + (i / 512) * 2 ^ 20 + col * 2 ^ 15 + bank * 2 ^ 11 + (c ^^^ (bank + 16 * (col % 2))) * 64

def chanDown (s : State) (f c : Nat) : Bool := s.bget (pBob f 1 + 0x40 + 4 * c) 0
def inSlot (s : State) (f c : Nat) : Bool := s.bget (pBob f 1 + 0x40 + 4 * c) 1
def slotLost (s : State) (f sl : Nat) : Bool := (s.bobbin f).lost.getLsbD sl

/-- Whether a line of bobbin f cannot be reached: its channel is down or its slot lost (R280, R284). -/
def lineGone (s : State) (f o : Nat) : Bool := chanDown s f (channelOf o) || slotLost s f (slotOf o)

/-- Whether the controller of bobbin f takes accesses: its page is neither OUT nor TESTING. -/
def bobbinOn (s : State) (f : Nat) : Bool := decide (2 ≤ s.readyState (pBob f 0))

/-! ### Reading and writing lines -/

/-- Record an error of a line (R277, R288). `source` is 0 read, 1 scrub, 2 changeover copy. -/
def bobErr (s : State) (f o source : Nat) (unc : Bool) : State :=
  let pg := pBob f 0
  let s := s.bump31 pg (pg + 0x100 + 8 * slotOf o + 4 * unc.toNat) 1
  let s := if unc then s.errUncorr pg else s.errCorr pg
  if s.bget (pg + 0x50) 31 then s
  else (s.setReg (pg + 0x50) (BitVec.ofNat 32 (2 ^ 31 + unc.toNat * 2 ^ 30 + source * 2 ^ 28 + o / 32 % 2))).setReg
    (pg + 0x54) (BitVec.ofNat 32 (granuleOf o % 2 ^ 30))

/-- Read a line from its die (R277). -/
def bobLine (s : State) (f o source : Nat) (c : Cond) : Line × State :=
  let l := readLine s (bobAddr f o)
  match effCond l c with
  | .clean => (l, s)
  | .corr =>
    let s := bobErr s f o source false
    let b := s.bobbin f
    (l, s.setBobbin f { b with wback := b.wback ++ [o / 32] })
  | .wrong =>
    let s := bobErr s f o source false
    let b := s.bobbin f
    let (d, s) := (s.setBobbin f { b with wback := b.wback ++ [o / 32] }).free 256
    (⟨d, false⟩, writeLine s (bobAddr f o) ⟨d, false⟩)
  | .bad =>
    let s := bobErr s f o source true
    if l.bad then (l, s) else (let (d, s) := s.mix l.data 0#256; (⟨d, true⟩, writeLine s (bobAddr f o) ⟨d, true⟩))

/-- Whether the read of a granule in controller cycle t joins an open merge entry, and the entries after it
(R275); the boolean says whether it joined. A write that closes the entry in the same cycle closes it first (`closing`, R291). -/
def mergeRead (window t g : Nat) (closing : Bool) (es : List Merge) : Bool × List Merge :=
  let es := if closing then es.map (fun e => if e.granule = g then { e with closed := true } else e) else es
  let open_ := fun (e : Merge) => e.granule = g && !e.closed && decide (t < e.ends)
  if es.any open_ then
    (true, mapFirst open_ (fun e => { e with count := e.count + 1, closed := decide (16 ≤ e.count + 1) }) es)
  else if window = 0 || 512 ≤ (es.filter (fun e => decide (t < e.ends))).length then (false, es.filter (fun e => decide (t < e.ends)))
  else (false, es.filter (fun e => decide (t < e.ends)) ++ [⟨g, t + window, 1, false⟩])

/-- The granules that n lines from offset o touch. -/
def granules (o n : Nat) : List Nat := tab (granuleOf (o + 32 * n - 1) - granuleOf o + 1) (fun i => granuleOf o + i)

/-- The granules of a read that join an entry, as the merge table takes the reads in cycle t (R275); `closing` lists the granules whose
entry a write closes in that cycle. -/
def joinGranules (s : State) (f t o n : Nat) (closing : List Nat) : List Nat × State :=
  let w := s.fget (pBob f 0 + 0x40) 7 0
  (granules o n).foldl (fun (st : List Nat × State) g =>
    if lineGone st.2 f (g * 64) then st
    else
      let b := st.2.bobbin f
      let (j, es) := mergeRead w t g (closing.contains g) b.merges
      let s := st.2.setBobbin f { b with merges := es }
      let pg := pBob f 0
      if j then (st.1 ++ [g], s.bump48 pg (pg + 0x68) 1) else (st.1, s.bump48 pg (pg + 0x70) 1)) ([], s)

/-- The offsets of the lines of the granules that n lines from offset o touch. -/
def granuleLines (o n : Nat) : List Nat := (granules o n).flatMap (fun g => [g * 64, g * 64 + 32])

/-- The accesses of n lines from offset o, granule by granule, that reach a down channel or a lost slot count (R280, R284). -/
def countGone (s : State) (f o n : Nat) : State :=
  forEach ((granules o n).filter (fun g => lineGone s f (g * 64))) (fun _ s => s.errUncorr (pBob f 0)) s

/-- The lines of a bobbin read (R268, R276, R277, R280, R284): the controller reads every granule that they touch, and checks both its lines;
`conds` are the findings, line by line of the granules. A granule that joined an entry is read from its entry. -/
def readLines (s : State) (f t o n : Nat) (conds : List Cond) (closing : List Nat := []) : List Line × State :=
  let (joined, s) := joinGranules (countGone s f o n) f t o n closing
  let all := granuleLines o n
  let s := forEach ((List.range all.length).zip all) (fun ia s =>
    if lineGone s f ia.2 || joined.contains (granuleOf ia.2) then s else (bobLine s f ia.2 0 (nth .clean conds ia.1)).2) s
  (tab n (fun i =>
    let a := o + 32 * i
    if lineGone s f a then goneLine s (bobAddr f a) else readLine s (bobAddr f a)), s)

/-- Store one line that the controller accepted (R269, R275, R291). A line of a down channel or a lost slot is not written, and what it holds is
never read again unmarked (R280). A write during a changeover's copy supersedes the copy of its line (R282). -/
def storeBobLine (s : State) (f o : Nat) (l : Line) : State :=
  if lineGone s f o then setMark s (bobAddr f o / 32) true
  else
    let b := s.bobbin f
    let s := s.setBobbin f { b with
      written := if b.coCopying && slotOf o = s.fget (pBob f 0 + 0x44) 3 0 then b.written ++ [o / 32] else b.written,
      merges := b.merges.map (fun e => if e.granule = granuleOf o then { e with closed := true } else e),
      wback := b.wback.filter (fun x => x != o / 32) }
    (writeLine s (bobAddr f o) l).bump48 (pBob f 0) (pBob f 0 + 0x78) 1

/-- Store the lines of a write from offset o upwards (R269, R280). -/
def storeLines (s : State) (f o : Nat) (ls : List Line) : State :=
  forEach ((List.range ls.length).zip ls) (fun il s => storeBobLine s f (o + 32 * il.1) il.2) (countGone s f o ls.length)

/-- The offset that a message names in its bobbin (R25). -/
def bobOff (m : Msg) : Nat := m.ea.toNat % 0x1000000000

/-- Whether an access to the granules `gs` through gateway `gate` in controller cycle t has missed its turn: one of a higher gateway has
been accepted in that cycle on one of them, and one of the two writes (R291). A scrub access is accepted after every write. -/
def outOfTurn (s : State) (f t gate : Nat) (gs : List Nat) (write : Bool) : Bool :=
  let b := s.bobbin f
  b.now = t && b.taken.any (fun x => gs.contains x.granule && decide (gate < x.gate) && (write || x.write))

/-- The controller accepts an access to the granules `gs` in cycle t. -/
def noteTaken (s : State) (f t gate : Nat) (gs : List Nat) (write : Bool) : State :=
  let b := s.bobbin f
  s.setBobbin f { b with now := t, taken := (if b.now = t then b.taken else []) ++ gs.map (fun g => ⟨g, gate, write⟩) }

/-- BOBBIN_READ (R268, R272, R285): the next read request of `src` at bobbin f, in controller cycle t. A read
whose channel is in a retraining slot waits (R279). -/
def bobbinRead (s : State) (f : Nat) (src : SID) (t : Nat) (conds : List Cond) (closing : List Nat) : State :=
  match takeMsg (fun m => m.dst = .bobbin f && m.req && m.src = src) [] s.mesh with
  | none => s
  | some (pre, m, post) =>
    let o := bobOff m
    let n := m.len + 1
    let via := gatewayFor s f m.src
    let gone := countGate (countRoute { s with mesh := pre ++ post } m) f m.src 2
    if (s.pow f).memOff then
      respond (gone.errUncorr (pBob f 0)) m (bankSrc f) (tab n (fun i => goneLine s (bobAddr f (o + 32 * i)))) via
    else if !bobbinOn s f || (granules o n).any (fun g => inSlot s f (channelOf (g * 64)))
        || outOfTurn s f t (via.getD 64) (granules o n) false then s
    else
      let (ls, s) := readLines (noteTaken gone f t (via.getD 64) (granules o n) false) f t o n conds closing
      respond s m (bankSrc f) ls via

/-- Whether an access of granules `gs` waits for a channel in its retraining slot (R279). -/
def slotWait (s : State) (f : Nat) (gs : List Nat) : Bool := gs.any (fun g => inSlot s f (channelOf (g * 64)))

/-- BOBBIN_WRITE (R269, R271, R285): the next write of `src` at bobbin f, accepted in controller cycle t. A write of which a link kept the last
lines back is never accepted as a message, and is not acknowledged (R228, R271). -/
def bobbinWrite (s : State) (f : Nat) (src : SID) (t : Nat) : State :=
  match takeMsg (fun m => m.dst = .bobbin f && m.kind = 2 && !m.req && !m.isAck && m.src = src) [] s.mesh with
  | none => s
  | some (pre, m, post) =>
    let gs := granules (bobOff m) m.payload.length
    let gate := (gatewayFor s f m.src).getD 64
    let gone := countGate (countRoute { s with mesh := pre ++ post } m) f m.src 1
    if (s.pow f).memOff then bankAck (gone.errUncorr (pBob f 0)) f m
    else if !bobbinOn s f || slotWait s f gs || outOfTurn s f t gate gs true then s
    else
      let s := storeLines (noteTaken gone f t gate gs true) f (bobOff m) m.payload
      if m.cut then s else bankAck s f m

/-- BOBBIN_WRITE_BACK (R277): the oldest corrected line is written back; its data stand as they are. A channel in a retraining slot performs
no access (R279). It counts in no WRITES counter (DESIGN CHOICE, assumption log 18). -/
def bobbinWriteBack (s : State) (f : Nat) : State :=
  let b := s.bobbin f
  if bobbinOn s f && !inSlot s f (channelOf (b.wback.headD 0 * 32)) then s.setBobbin f { b with wback := b.wback.drop 1 } else s

/-! ### Scrub and retraining (R278 to R280) -/

/-- The slots in service, ascending. -/
def slotsOn (s : State) (f : Nat) : List Nat := (List.range s.gradeSlots).filter (fun sl => !slotLost s f sl)

/-- SCRUB_ACCESS (R278): every channel reads the granule at SCRUB_POS, in controller cycle t; `conds` holds two findings for each
channel, in channel order. The position moves on to the next slot in service. The access waits while a channel is in a retraining slot
(R279). A channel that is down is passed over, and the reads count in no READS counter (DESIGN CHOICE, assumption log 18). -/
def scrub (s : State) (f t : Nat) (conds : List Cond) : State :=
  let pg := pBob f 0
  let slots := slotsOn s f
  if !s.bget (pg + 0x40) 16 || !bobbinOn s f || (s.pow f).memOff || slots = [] || (List.range 32).any (inSlot s f) then s
  else
    let pos := s.fget (pg + 0x58) 24 0
    let sl := pos / 2 ^ 21
    let cur := match slots.find? (fun x => decide (sl ≤ x)) with
      | some x => if x = sl then pos else x * 2 ^ 21
      | none => slots.headD 0 * 2 ^ 21
    let sl := cur / 2 ^ 21
    let s := noteTaken s f t 64 (tab 32 (fun c => granuleOf (granuleAt sl c (cur % 2 ^ 21)))) false
    let s := iter 32 (fun c s =>
      if chanDown s f c then s
      else iter 2 (fun j s =>
        let o := granuleAt sl c (cur % 2 ^ 21) + 32 * j
        let (l, s) := bobLine s f o 1 (nth .clean conds (2 * c + j))
        s.raiseIf l.bad pg 0) s) s
    let nxt := cur + 1
    match slots.find? (fun x => decide (nxt / 2 ^ 21 ≤ x)) with
    | some x => s.fset (pg + 0x58) 24 0 (if x = nxt / 2 ^ 21 then nxt else x * 2 ^ 21)
    | none => (s.fset (pg + 0x58) 24 0 (slots.headD 0 * 2 ^ 21)).bump48 pg (pg + 0x60) 1

/-- RETRAIN_SLOT (R279): channel c starts its slot when no other channel is in one. -/
def retrain (s : State) (f c : Nat) : State :=
  if !bobbinOn s f || decide (32 ≤ c) || (List.range 32).any (inSlot s f) then s
  else
    let r := pBob f 1 + 0x40 + 4 * c
    (s.setReg r (putB (s.reg r) 1 true)).bump48 (pBob f 1) (pBob f 1 + 0x100) 1

/-- Whether the maps meet the grade (R449). -/
def engineFull (s : State) : Bool :=
  s.reg (pGlobal + 0x50) = s.reg (pGlobal + 0x4C) && (s.reg (pGlobal + 0x4C) != 0#32) &&
  (List.range 64).all (fun f =>
    !(s.fmap f).fail && !(s.fmap f).gatesOut && decide ((s.fmap f).c * 8 = s.fget (pGlobal + 0x4C) 10 0)
      && decide (s.fget (pBob f 0 + 0x44) 19 16 = s.gradeSlots) && s.fget (pBob f 0 + 0x44) 13 8 = 0
      && decide (512 ≤ (s.fmap f).chimesGood))

/-- READY.ENGINE and READY.DEGRADED, both 0 until MAP_STATUS.DONE is 1 (R449, R52). -/
def updateReady (s : State) : State :=
  let done := s.bget (pFuse + 0x4C) 31
  let full := done && engineFull s
  let reduced := done && !full
  let old := s.bget (pGlobal + 0x54) 30
  ((s.fset (pGlobal + 0x54) 31 31 full.toNat).fset (pGlobal + 0x54) 30 30 reduced.toNat).raiseIf (old != reduced) pGlobal 3

/-- Page 0 of a bobbin in service reads DEGRADED with REASON 0x8 (R280, R284). -/
def bobDegraded (s : State) (f : Nat) : State :=
  updateReady (if bobbinOn s f then s.setReady (pBob f 0) 2 8 else s)

/-- RETRAIN_SLOT_END (R280). A channel that fails in service is mapped out, so it adds a soft-map entry (R440). -/
def retrainEnd (s : State) (f c : Nat) (ok : Bool) : State :=
  let r := pBob f 1 + 0x40 + 4 * c
  let pg := pBob f 0
  if !inSlot s f c || decide (32 ≤ c) then s
  else
    let s := s.setReg r (putB (s.reg r) 1 false)
    if chanDown s f c then s
    else if ok then s.fset r 23 16 0
    else
      let n := s.fget r 23 16 + 1
      let s := (s.fset r 23 16 n).raise pg 4
      if n < 4 then s
      else
        let s := (s.setReg r (putB (s.reg r) 0 true)).raise pg 5
        bobDegraded (addSoft (s.fset (pg + 0x44) 13 8 (s.fget (pg + 0x44) 13 8 + 1)) (defect 6 f c 0) 5) f

/-! ### Changeover (R281 to R284) -/

/-- Whether the peal of the run is not yet shown in the RUN page (R324). -/
def loadingPeal (s : State) : Bool := s.runState = 1 || s.bget (pRun + 0x40) 12

/-- BOBBINS_USED and FIELDS_USED of the peal that is loaded or being loaded (R321, R346). -/
def usesBobbin (s : State) (f : Nat) : Bool :=
  s.runState != 0 && (if loadingPeal s then s.run.bobbins.testBit f else s.bget (pRun + 0x90 + 4 * (f / 32)) (f % 32))
def usesField (s : State) (f : Nat) : Bool :=
  s.runState != 0 && (if loadingPeal s then s.run.fields.testBit f else s.bget (pRun + 0x88 + 4 * (f / 32)) (f % 32))

/-- A changeover of slot sl is requested (R281). One that only waits takes the new slot and waits on (DESIGN CHOICE, assumption log 18). -/
def requestCo (s : State) (f sl : Nat) : State :=
  let pg := pBob f 0
  let b := s.bobbin f
  let s := s.fset (pg + 0x48) 3 0 sl
  if s.fget (pg + 0x44) 23 20 = 0 || decide (s.fget (pg + 0x44) 19 16 ≤ sl) || b.coCopying then
    (s.fset (pg + 0x48) 31 31 0).raise pg 3
  else (s.fset (pg + 0x48) 31 31 1).setBobbin f { b with coWaiting := true }

/-- CHANGEOVER_START (R281, R282). -/
def coStart (s : State) (f : Nat) : State :=
  let pg := pBob f 0
  let b := s.bobbin f
  if !b.coWaiting || !bobbinOn s f || (s.running && usesBobbin s f) then s
  else ((s.fset (pg + 0x44) 15 15 1).fset (pg + 0x44) 3 0 (s.fget (pg + 0x48) 3 0)).setBobbin f
    { b with coWaiting := false, coCopying := true, written := [] }

/-- The die that serves slot sl. -/
def dieOf (b : Bobbin) (sl : Nat) : Nat := SMap.get (fun x => x) b.dies sl

/-- The dies that the latest SLOT records of a slot name: that of the soft map, then that of the fuse sheet (R451). -/
def namedDies (s : State) (f sl : Nat) : List Nat :=
  let slotRec := fun (l : List Word) => ((l.filter (fun r => recKind r = 0xA && recField r = f && recLoc r = sl)).map recDetail).reverse
  (slotRec (softRecords s)).take 1 ++ (slotRec s.fuses.records).take 1

/-- The die that R451 takes for slot sl in place of its own: a good die that serves no slot, one that a SLOT record names before the
lowest-numbered. -/
def spareDie (s : State) (f sl : Nat) : Option Nat :=
  let b := s.bobbin f
  (namedDies s f sl ++ List.range 10).find? (fun d => decide (d < 10) && !b.failedDie.getLsbD d && !(slotsOn s f).any (fun sl => dieOf b sl = d))

/-- The lines of slot sl of bobbin f that are stored marked, by offset. -/
def markedIn (s : State) (f sl : Nat) : List Nat :=
  let lo := bobAddr f (sl * 2 ^ 32) / 32
  (s.marks.filter (fun e => e.2 && decide (lo ≤ e.1) && decide (e.1 < lo + 2 ^ 27))).map (fun e => sl * 2 ^ 32 + (e.1 - lo) * 32)

/-- What the copy finds at a line: its error counts, and it is copied as found, unless a write superseded the copy (R282). -/
def copyFinding (s : State) (f : Nat) (oc : Nat × Cond) : State :=
  if (s.bobbin f).written.contains (oc.1 / 32) then
    match oc.2 with
    | .clean => s
    | .corr | .wrong => bobErr s f oc.1 2 false
    | .bad => bobErr s f oc.1 2 true
  else (bobLine s f oc.1 2 oc.2).2

/-- CO_DONE (R282, R283): the copy is complete. `found` lists the lines that the copy found in error, as offset within the slot and finding; the
lines that were stored marked before the copy and not written since are among them. A channel in a retraining slot copies nothing (R279). -/
def coDone (s : State) (f : Nat) (found : List (Nat × Cond)) : State :=
  let pg := pBob f 0
  if !(s.bobbin f).coCopying || (List.range 32).any (inSlot s f) then s
  else
    let sl := s.fget (pg + 0x44) 3 0
    let marked := (markedIn s f sl).filter (fun o => !(s.bobbin f).written.contains (o / 32))
    let named := found.map (fun oc => (sl * 2 ^ 32 + oc.1 % 2 ^ 32 / 32 * 32, oc.2))
    let lines := marked.map (fun o => (o, Cond.bad)) ++ named.filter (fun oc => !marked.contains oc.1)
    let s := forEach (lines.filter (fun oc => !chanDown s f (channelOf oc.1))) (fun oc s => copyFinding s f oc) s
    let b := s.bobbin f
    let old := dieOf b sl
    let new := (spareDie s f sl).getD old
    let s := s.setBobbin f { b with coCopying := false, written := [], dies := SMap.set (fun x => x) b.dies sl new,
                                    failedDie := b.failedDie ||| (1#16 <<< old) }
    let s := ((s.fset (pg + 0x44) 23 20 (s.fget (pg + 0x44) 23 20 - 1)).fset (pg + 0x44) 15 15 0).fset (pg + 0x48) 31 31 0
    let s := addSoft (addSoft s (defect 5 f old 0) 4) (defect 0xA f sl new) 4
    s.raise pg 2

/-- SLOT_LOST (R284): the Belfry finds the die of slot sl failed, and no spare is left. The die is mapped out by the policy, which adds a DIE entry
(R440); no CAUSE of R438 names that, so the entry draws it (assumption log 18). -/
def loseSlot (s : State) (f sl : Nat) : State :=
  let pg := pBob f 0
  let b := s.bobbin f
  if s.fget (pg + 0x44) 23 20 != 0 || !(slotsOn s f).contains sl || !bobbinOn s f then s
  else
    let s := s.setBobbin f { b with lost := b.lost ||| (1#16 <<< sl), failedDie := b.failedDie ||| (1#16 <<< dieOf b sl) }
    let (cause, s) := ((s.fset (pg + 0x44) 19 16 (s.fget (pg + 0x44) 19 16 - 1)).raise pg 6).free 4
    bobDegraded (addSoft s (defect 5 f (dieOf b sl) 0) cause.toNat) f

/-- CO_CTRL is written (R281). Writing CO_REQ 0 withdraws a request that waits. -/
def writeCoCtrl (s : State) (f : Nat) (v : Word) : State :=
  if getB v 31 then requestCo s f (getF v 3 0)
  else
    let b := s.bobbin f
    ((s.fset (pBob f 0 + 0x48) 3 0 (getF v 3 0)).fset (pBob f 0 + 0x48) 31 31 0).setBobbin f { b with coWaiting := false }

/-! ### The commands -/

/-- BOBBIN_READ (R268). -/
def execBobbinRead (field : Fin 64) (src : SID) (cycle : Nat) (conds : List Cond) (closing : List Nat) (s : State) : Out :=
  .next (bobbinRead s field.val src cycle conds closing)
/-- BOBBIN_WRITE (R269). -/
def execBobbinWrite (field : Fin 64) (src : SID) (cycle : Nat) (s : State) : Out := .next (bobbinWrite s field.val src cycle)
/-- BOBBIN_WRITE_BACK (R277). -/
def execBobbinWriteBack (field : Fin 64) (s : State) : Out := .next (bobbinWriteBack s field.val)
/-- REFRESH (R274): a refresh only delays accesses, so nothing that State holds changes. -/
def execRefresh (_field : Fin 64) (_bank : Fin 256) (s : State) : Out := .next s
/-- SCRUB_ACCESS (R278). -/
def execScrubAccess (field : Fin 64) (cycle : Nat) (conds : List Cond) (s : State) : Out := .next (scrub s field.val cycle conds)
/-- RETRAIN_SLOT (R279). -/
def execRetrainSlot (field : Fin 64) (channel : Fin 32) (s : State) : Out := .next (retrain s field.val channel.val)
/-- RETRAIN_SLOT_END (R280). -/
def execRetrainSlotEnd (field : Fin 64) (channel : Fin 32) (ok : Bool) (s : State) : Out := .next (retrainEnd s field.val channel.val ok)
/-- CHANGEOVER_START (R282). -/
def execChangeoverStart (field : Fin 64) (s : State) : Out := .next (coStart s field.val)
/-- CO_DONE (R283). -/
def execCoDone (field : Fin 64) (found : List (Nat × Cond)) (s : State) : Out := .next (coDone s field.val found)
/-- SLOT_LOST (R284). -/
def execSlotLost (field : Fin 64) (slot : Fin 16) (s : State) : Out := .next (loseSlot s field.val slot.val)

end Sys2Proof.Machine
end

