-- ==== Sys2Proof/Machine/Reels.lean ====
section
/-! DEFINITION. Reel engines (chapter "Reel engines", R292 to R315). The address registers of a channel hold
the position of the walk, and `Chan` its indices and origins. -/
namespace Sys2Proof.Machine

/-! ### The walk (R298) -/

def chSrc (s : State) (r c : Nat) : Nat := s.fget (chanBase r c) 31 5 * 32 + 2 ^ 32 * s.fget (chanBase r c + 4) 15 0
def chDst (s : State) (r c : Nat) : Nat := s.fget (chanBase r c + 8) 31 5 * 32 + 2 ^ 32 * s.fget (chanBase r c + 0xC) 15 0
def chCount (s : State) (r c : Nat) : Nat := (s.reg (chanBase r c + 0x10)).toNat
def chCtrl (s : State) (r c i : Nat) : Bool := s.bget (chanBase r c + 0x14) i
def chPrio (s : State) (r c : Nat) : Nat := s.fget (chanBase r c + 0x14) 9 8
def chQmode (s : State) (r c : Nat) : Bool := s.bget (chanBase r c + 0x1C) 31
def chLen (s : State) (r c : Nat) : Nat := s.fget (chanBase r c + 0x1C) 26 24

/-- EXTENT_d, 0 read as 65,536. -/
def extent (s : State) (r c d : Nat) : Nat :=
  let e := s.fget (chanBase r c + 0x40 + 0x10 * d) 15 0
  if e = 0 then 65536 else e

/-- src or dst of R298 at the indices `idx`; `col` is 4 for the source strides, 8 for the destination's. -/
def walkEA (s : State) (r c : Nat) (o : EA) (col : Nat) (idx : List Nat) : Nat :=
  wrapInt 48 ((o.toNat : Int) + 32 * (List.range 5).foldl (fun (a : Int) d =>
    a + ((nth 0 idx d : Nat) : Int) * sext 32 (s.reg (chanBase r c + 0x40 + 0x10 * d + col)).toNat) 0)

/-- The indices of the next line of the walk; `es` are the extents from here on (R298). -/
def advance : List Nat → List Nat → List Nat
  | [], _ => []
  | i :: is, es =>
    let e := es.headD 65536
    if i + 1 = e then 0 :: advance is (es.drop 1) else (i + 1) :: is

def extents (s : State) (r c : Nat) : List Nat := tab 5 (extent s r c)

/-- The next n lines of the walk from `idx`, as source and destination EAs. -/
def walkLines (s : State) (r c : Nat) (x : Chan) : Nat → List Nat → List (Nat × Nat)
  | 0, _ => []
  | n + 1, idx => (walkEA s r c x.os 4 idx, walkEA s r c x.od 8 idx) :: walkLines s r c x n (advance idx (extents s r c))

/-- Put the walk's position into the address registers (R298) and the indices into IDX. -/
def showWalk (s : State) (r c : Nat) : State :=
  let x := s.chan r c
  let b := chanBase r c
  let a := walkEA s r c x.os 4 x.idx
  let d := walkEA s r c x.od 8 x.idx
  let s := (s.fset b 31 5 (a / 32)).fset (b + 4) 15 0 (a / 2 ^ 32)
  let s := (s.fset (b + 8) 31 5 (d / 32)).fset (b + 0xC) 15 0 (d / 2 ^ 32)
  iter 5 (fun d s => s.fset (b + 0x40 + 0x10 * d) 31 16 (nth 0 x.idx d)) s

/-- Advance the walk by n lines (R298); COUNT falls by n. -/
def walkBy (s : State) (r c n : Nat) : State :=
  let x := s.chan r c
  let es := extents s r c
  let s := s.setChan r c { x with idx := iter n (fun _ i => advance i es) x.idx }
  showWalk (s.setReg (chanBase r c + 0x10) (BitVec.ofNat 32 (chCount s r c - n))) r c

/-! ### Bursts (R300) -/

/-- Whether a unit boundary lies between a line and the one behind it. -/
def boundary (s : State) (a : Nat) : Bool :=
  let b := a + 32
  if b < 0x40000000000 then decide (a % 0x1000000000 + 32 = s.capacity)
  else if 0x400000000000 ≤ a ∧ b < 0x402000000000 then decide (a / 65536 ≠ b / 65536)
  else if 0x500000000000 ≤ a ∧ b < 0x500000040000 then decide (a / 4096 ≠ b / 4096)
  else false

/-- The length of the greatest run at the front whose addresses ascend by a line and cross no boundary. -/
def runLen (s : State) (both : Bool) : List (Nat × Nat) → Nat
  | [] => 0
  | [_] => 1
  | a :: b :: l =>
    if b.1 = a.1 + 32 && !boundary s a.1 && (!both || (b.2 = a.2 + 32 && !boundary s a.2))
    then 1 + runLen s both (b :: l) else 1

/-- Divide a message's lines into reads (R300). The first argument bounds the number of reads. -/
def splitReads (s : State) : Nat → List (Nat × Nat) → List (Nat × Nat)
  | 0, _ => []
  | _, [] => []
  | fuel + 1, l =>
    let n := runLen s false l
    ((l.headD (0, 0)).1, n) :: splitReads s fuel (l.drop n)

/-- The lines of a start that no formed burst holds: COUNT lines, less those of reads not yet issued. -/
def unissued (x : Chan) : Nat := (x.bursts.map (fun b => (b.reads.filter (fun q => !q.issued)).foldl (fun a q => a + q.n) 0)).foldl (· + ·) 0

/-- Form the next burst or message (R300), when every formed one has had its reads issued. -/
def formBurst (s : State) (r c : Nat) : State :=
  let x := s.chan r c
  let left := chCount s r c
  if unissued x != 0 || left = 0 then s
  else
    let lines := walkLines s r c x (min left (if chQmode s r c then chLen s r c + 1 else 8)) x.idx
    let lines := if chQmode s r c then lines else lines.take (runLen s true lines)
    let rs := if chQmode s r c then splitReads s 8 lines else [((lines.headD (0, 0)).1, lines.length)]
    let reads := ((List.range rs.length).zip rs).map (fun iq =>
      (⟨x.rseq + iq.1, BitVec.ofNat 48 iq.2.1, iq.2.2, false, []⟩ : ReelRead))
    s.setChan r c { x with bursts := x.bursts ++ [⟨BitVec.ofNat 48 (lines.headD (0, 0)).2, lines.length, reads⟩],
                           rseq := x.rseq + rs.length }

/-! ### States of a channel (R305 to R308) -/

/-- Whether a reel works: a field reel needs its compute domain, and its page to be in service. -/
def reelOn (s : State) (r : Nat) : Bool :=
  decide (r < 68) && decide (2 ≤ s.readyState (reelPage r)) && (decide (64 ≤ r) || !(s.pow r).computeOff)

/-- Logical channels present (R294). -/
def chansPresent (s : State) (r : Nat) : Nat := if r < 64 then min 16 (s.fmap r).reelGood else 32

/-- Channels in ACTIVE or ACK_WAIT. -/
def inFlight (s : State) (r : Nat) : Nat :=
  ((List.range (reelChans r)).filter (fun c => chState s r c = 2 || chState s r c = 3)).length
def reelSlots (r : Nat) : Nat := if r < 64 then 8 else 16
def reelReadMax (r : Nat) : Nat := if r < 64 then 32 else 64

/-- The source code in SRC_SID of a reel (R183), and the window it may name (R292). -/
def reelSrc (r : Nat) : SID := srcCode (if r < 64 then r else r - 64 + 0x80)
def reelWin (r : Nat) : Option Nat := if r < 64 then none else some (r - 64)

/-- ID of R302. -/
def chanId (s : State) (r c : Nat) : Nat := (s.chan r c).gen % 1024 * 64 + c

/-- A channel is admitted (R305). -/
def admitChan (s : State) (r c : Nat) : State :=
  let x := s.chan r c
  let s := setChState s r c 2
  let s := s.setChan r c { x with gen := (x.gen + 1) % 1024, total := chCount s r c, seq := 0, rseq := 0,
                                  bursts := [], acks := 0, flush := none, flushing := false, inband := true }
  s.bump48 (chanPage r c) (chanBase r c + 0x98) 1

/-- Send the completion increment (R311). -/
def sendDone (s : State) (r c vc : Nat) : State :=
  let b := chanBase r c
  let ch := s.fget (b + 0x24) 14 0
  let m : Msg := { dst := .chimes (ch / 512), vc := vc, kind := 3, src := reelSrc r, tag := BitVec.ofNat 16 (chanId s r c),
                   ea := BitVec.ofNat 48 (0x500000000000 + ch / 4 * 32),
                   seq := (s.chan r c).seq, arg := BitVec.ofNat 32 (ch % 4 * 2 ^ 30 + s.fget (b + 0x28) 29 0) }
  if outFive s (pChime (ch / 512) 0) then s.errUncorr (chanPage r c) else send s m

/-- A start completes (R311); `vc` is the channel of the completion increment. -/
def complete (s : State) (r c vc lines : Nat) : State :=
  let s := if chCtrl s r c 12 then sendDone s r c vc else s
  let s := (setChState s r c 0).bump48 (chanPage r c) (chanBase r c + 0x90) lines
  chanEvent s r c 0

/-- A start is judged by R306 and made (R305). `byHost` says that a host wrote START. -/
def startChan (s : State) (r c : Nat) (byHost : Bool) : State :=
  let b := chanBase r c
  let st := chState s r c
  let n := chCount s r c
  if st = 1 || st = 2 || st = 3 || s.bget (b + 0x18) 19
      || (chQmode s r c && (decide (2 ≤ s.fget (b + 0x1C) 30 29) || n % (chLen s r c + 1) != 0))
      || (byHost && chClaimed s r c && s.running) then chanEvent s r c 2
  else if n = 0 then complete (s.setChan r c { s.chan r c with seq := 0 }) r c (if chCtrl s r c 15 then 0 else 3) 0
  else
    let q := s.reel r
    let x := s.chan r c
    let s' := (s.setReel r { q with starts := q.starts + 1 }).setChan r c { x with order := q.starts }
    if inFlight s r < reelSlots r && !(List.range (reelChans r)).any (fun k => chState s r k = 1) then admitChan s' r c
    else setChState s' r c 1

/-- The VALUE of the chime that a channel's trigger watches (R296). -/
def trigValue (s : State) (r c : Nat) : Nat :=
  let f := if r < 64 then r else hostField (r - 64)
  let k := s.fget (chanBase r c + 0x2C) 8 0
  if chPresent s f k then chValue s f k else 0

/-- Whether a channel's trigger fires in the present cycle (R307). At a run fault the triggers of claimed channels stop firing (R313). -/
def trigDue (s : State) (r c : Nat) : Bool :=
  let st := chState s r c
  reelOn s r && chCtrl s r c 13 && (st = 0 || st = 4) && decide (c < chansPresent s r)
    && reached (trigValue s r c) (s.reg (chanBase r c + 0x30)).toNat && !(s.runState = 5 && chClaimed s r c)

/-- TRIGGER_FIRE (R307). -/
def trigger (s : State) (r c : Nat) : State :=
  let b := chanBase r c
  if !trigDue s r c then s
  else
    let step := s.reg (b + 0x34)
    let s := startChan (s.setReg (b + 0x10) (s.reg (b + 0x38))) r c false
    if step = 0#32 then s.setReg (b + 0x14) (putB (s.reg (b + 0x14)) 13 false)
    else s.setReg (b + 0x30) (s.reg (b + 0x30) + step)

/-- The best of the channels that satisfy `p`: highest PRIO, then the first by `rank`. -/
def bestChan (s : State) (r : Nat) (p : Nat → Bool) (rank : Nat → Nat) : Option Nat :=
  (List.range (reelChans r)).foldl (fun (best : Option Nat) c =>
    if !p c then best
    else match best with
      | none => some c
      | some b =>
        if chPrio s r b < chPrio s r c || (chPrio s r b = chPrio s r c && decide (rank c < rank b)) then some c else best) none

/-- The rank of channel c in channel-number order after `last` (R309). -/
def after (r last c : Nat) : Nat := (c + reelChans r - last - 1) % reelChans r

/-- CHANNEL_ADMIT (R308). -/
def channelAdmit (s : State) (r : Nat) : State :=
  if !reelOn s r || reelSlots r ≤ inFlight s r then s
  else match bestChan s r (fun c => chState s r c = 1) (fun c => (s.chan r c).order) with
    | some c => admitChan s r c
    | none => s

/-! ### The reel's port (R301, R302, R309) -/

/-- Reads outstanding of a channel and of a reel (R301). -/
def chanReads (x : Chan) : Nat :=
  (x.bursts.map (fun b => (b.reads.filter (fun q => q.issued && decide (q.taken.length < q.n))).length)).foldl (· + ·) 0
def reelReads (s : State) (r : Nat) : Nat :=
  ((List.range (reelChans r)).map (fun c => chanReads (s.chan r c))).foldl (· + ·) 0

/-- Lines in the line buffer: those taken of the first burst (R301). -/
def bufLines (x : Chan) : Nat :=
  match x.bursts with
  | b :: _ => (b.reads.map (fun q => q.taken.length)).foldl (· + ·) 0
  | [] => 0

/-- Whether an EA lies in host-window space, and whether port h's data link is down (R402). -/
def hostEa (ea : Nat) : Bool := decide (0x800000000000 ≤ ea) && decide (ea < 0x1000000000000)
def hostDown (s : State) (h : Nat) : Bool := !s.bget (pHost h 0 + 0x40) 31

/-- Whether an access of n lines is a request into the window of a host reel's port whose link is down; it waits for the link (R314, R402). -/
def waitsLink (s : State) (r ea n : Nat) : Bool :=
  decide (64 ≤ r) && hostEa ea && mappedLines s (reelWin r) ea n && hostDown s (r - 64)

/-- Whether a channel can issue a read request (R301): the next read, formed if need be. -/
def nextRead (s : State) (r c : Nat) : Option (State × ReelRead) :=
  if chState s r c != 2 || 4 ≤ chanReads (s.chan r c) || reelReadMax r ≤ reelReads s r then none
  else
    let s := formBurst s r c
    match ((s.chan r c).bursts.map (fun b => b.reads)).flatten.find? (fun q => !q.issued) with
    | some q => if waitsLink s r q.ea.toNat q.n then none else some (s, q)
    | none => none

/-- Whether a channel's first burst is complete in its line buffer and may be injected. -/
def bufferFull (s : State) (r c : Nat) : Bool :=
  chState s r c = 2 &&
  (match (s.chan r c).bursts with
   | b :: _ => bufLines (s.chan r c) = b.n && (chQmode s r c || !waitsLink s r b.dst.toNat b.n)
   | [] => false)

/-- The channel whose message the reel's port injects next (R309). -/
def nextPort (s : State) (r : Nat) : Option Nat :=
  bestChan s r (fun c => (nextRead s r c).isSome || bufferFull s r c) (after r (s.reel r).lastInj)

/-- Change one read of a channel, by its number. -/
def modRead (x : Chan) (n : Nat) (f : ReelRead → ReelRead) : Chan :=
  { x with bursts := x.bursts.map (fun b => { b with reads := b.reads.map (fun q => if q.seq = n then f q else q) }) }

/-- The channel has sent a message in its start (R182). -/
def countSent (s : State) (r c : Nat) : State :=
  let x := s.chan r c
  s.setChan r c { x with seq := (x.seq + 1) % 256 }

/-- Lines answer a read at once: those of an unmapped EA, of a unit that is out, or of host memory. They wait in
the reel as a response does. -/
def answerRead (s : State) (r c : Nat) (q : ReelRead) (lines : List Line) : State :=
  s.enqueue { dst := .reel r, vc := 2, kind := 2, len := q.n - 1, dest := reelSrc r, src := reelSrc r,
              tag := BitVec.ofNat 16 (chanId s r c), ea := q.ea, seq := q.seq, payload := lines }

/-- REEL_READ_REQUEST (R301, R26, R267, R292, R517): the port's next channel issues its next read. `data` are the
lines of host memory that a read of the port's window returns; none: the read fails or its data come with
HOST_RD_ERR. -/
def reelRead (s : State) (r : Nat) (data : List (BitVec 256)) : State :=
  if !reelOn s r then s else
  match nextPort s r with
  | none => s
  | some c =>
    match nextRead s r c with
    | none => s
    | some (s, q) =>
      let q' := s.reel r
      let s := s.setReel r { q' with lastInj := c }
      let s := walkBy (s.setChan r c (modRead (s.chan r c) q.seq (fun q => { q with issued := true }))) r c q.n
      let pg := chanPage r c
      let ea := q.ea.toNat
      if !mappedLines s (reelWin r) ea q.n then answerRead (s.eaUnmapped pg) r c q (List.replicate q.n {})
      else match decodeEA s ea with
        | .host h w =>
          let fn1 := s.bget (pHost h 0 + 0x54) 1
          let s := (countSent s r c).emit (.hostRead h fn1 (hostAddr s h w) (32 * q.n))
          if data.length = q.n then answerRead s r c q (data.map (fun d => ⟨d, false⟩)) else s
        | t =>
          match unitOut s ea q.n with
          | some ls => answerRead (s.errUncorr pg) r c q ls
          | none => send (countSent s r c) { dst := eaDest t, vc := 1, kind := 2, req := true, len := q.n - 1, dest := reelSrc r,
                                             src := reelSrc r, tag := BitVec.ofNat 16 (chanId s r c), ea := q.ea, seq := (s.chan r c).seq }

/-- A response in the mesh for a read of channel c's first burst, which carries the ID, the EA and the length of its request (R184). -/
def responseFor (s : State) (r c : Nat) (m : Msg) : Option ReelRead :=
  if m.dst = .reel r && !m.req && !m.isAck && m.tag.toNat = chanId s r c && (chState s r c = 2) then
    match (s.chan r c).bursts with
    | b :: _ => b.reads.find? (fun q => q.issued && q.ea = m.ea && q.n = m.len + 1
        && (if m.cut then m.payload != [] && decide (q.taken.length + m.payload.length < q.n) else decide (q.taken.length + m.payload.length = q.n)))
    | [] => none
  else none

/-- A response that no channel waits for is absorbed (R310), and so is the header of one whose lines a link kept back (R228). -/
def strayResponse (s : State) (r : Nat) (m : Msg) : Bool :=
  m.dst = .reel r && !m.req && !m.isAck && ((m.cut && m.payload = []) ||
  !((List.range (reelChans r)).any (fun c => m.tag.toNat = chanId s r c && (chState s r c = 2))))

/-- A marked line read by a channel (R303, R461). -/
def markedRead (s : State) (r c : Nat) : State :=
  let s := chanEvent (s.errUncorr (chanPage r c)) r c 3
  if !chQmode s r c then s
  else
    let claimed := chClaimed s r c
    let s := chanStop s r c
    if claimed && s.running then runFault s ⟨2, if r < 64 then some r else none, none⟩ else s

/-- REEL_BEAT (R309): one line moves into a line buffer; `cond` is what its decoder finds (R456, R458). One that is marked or not correctable
counts as `markedRead` says. -/
def reelBeat (s : State) (r : Nat) (cond : Cond) : State :=
  if !reelOn s r then s else
  let s := { s with mesh := s.mesh.filter (fun m => !strayResponse s r m) }
  match bestChan s r (fun c => s.mesh.any (fun m => (responseFor s r c m).isSome)) (after r (s.reel r).lastBeat) with
  | none => s
  | some c =>
    match s.mesh.find? (fun m => (responseFor s r c m).isSome) with
    | none => s
    | some m =>
      match responseFor s r c m with
      | none => s
      | some q =>
        let l0 := m.payload.headD {}
        let here := fun (y : Msg) => y = m
        let s := if m.payload.length ≤ 1 then
            (let s := { s with mesh := dropFirst here s.mesh }
             if m.src = reelSrc r then s else countRoute s m)
          else { s with mesh := mapFirst here (fun m => { m with payload := m.payload.drop 1 }) s.mesh }
        let q' := s.reel r
        let s := s.setReel r { q' with lastBeat := c }
        let (l, s) := bufferLine s (chanPage r c) (fun _ => false) l0 cond
        let s := s.setChan r c (modRead (s.chan r c) q.seq (fun q => { q with taken := q.taken ++ [l] }))
        if l.bad then markedRead s r c else s

/-- Whether a burst meets R256's condition for its channel's completion chime. -/
def inbandBurst (s : State) (r c : Nat) (b : Burst) : Bool :=
  let f := s.fget (chanBase r c + 0x24) 14 0 / 512
  !chQmode s r c &&
  (match decodeEA s b.dst.toNat with
   | .bobbin g _ => f = g && decide (b.dst.toNat % 0x1000000000 + 32 * b.n ≤ s.capacity)
   | _ => false)

/-- The last message of a start has been injected (R305). -/
def lastInjected (s : State) (r c : Nat) : State :=
  let x := s.chan r c
  if x.bursts != [] || chCount s r c != 0 || chState s r c != 2 then s
  else if chCtrl s r c 15 && chCtrl s r c 12 && x.inband then complete s r c 0 x.total
  else setChState s r c 3

/-- Write lines into host window h for a host reel (R398). -/
def hostLines (s : State) (h : Nat) (fn1 : Bool) (w : Nat) (lines : List Line) (relaxed : Bool) : State :=
  forEach ((List.range lines.length).zip lines) (fun il s =>
    s.emit (.hostWrite h fn1 (hostAddr s h (w + 32 * il.1)) (toBytesLE 32 il.2.data.toNat) il.2.bad relaxed)) s

/-- The flush that a start of a host reel owes after its last write is issued; it waits while the link is down (R314, R398, R402). -/
def flushOwed (s : State) (r c : Nat) : State :=
  let x := s.chan r c
  match x.flush with
  | some w =>
    if chState s r c != 3 || x.flushing || hostDown s (r - 64) then s
    else (s.setChan r c { x with flushing := true }).emit (.hostRead (r - 64) (s.bget (pHost (r - 64) 0 + 0x54) 1) (hostAddr s (r - 64) w) 0)
  | none => s

/-- REEL_WRITE_INJECT (R302): the port's next channel injects its complete burst or message; `conds` is what the decoder finds in the lines as
they leave the line buffers (R456, R458). -/
def reelInject (s : State) (r : Nat) (conds : List Cond) : State :=
  if !reelOn s r then s else
  match nextPort s r with
  | none => s
  | some c =>
    let x := s.chan r c
    match x.bursts with
    | [] => s
    | b :: rest =>
      if !bufferFull s r c then s
      else
        let q' := s.reel r
        let s := s.setReel r { q' with lastInj := c }
        let base := chanBase r c
        let pg := chanPage r c
        let (lines, s) := bufferLines s pg (fun marked => !marked) (b.reads.map (fun q => q.taken)).flatten conds
        let id := chanId s r c
        let x' := { x with bursts := rest, inband := x.inband && inbandBurst s r c b }
        let acked := fun (s : State) => s.setChan r c x'
        let waits := fun (s : State) => countSent (s.setChan r c { x' with acks := x'.acks + 1 }) r c
        let s := if chQmode s r c then
            (let d := BitVec.ofNat 21 (s.fget (base + 0x1C) 20 0)
             let tag := s.fget (base + 0x20) 15 0
             let tag := if chCtrl s r c 14 then putF (BitVec.ofNat 32 tag) 13 10 (fld tag 13 10 + s.abortK) else BitVec.ofNat 32 tag
             let m : Msg := { dst := .host 0, vc := 0, kind := s.fget (base + 0x1C) 30 29, len := b.n - 1, dest := d, src := reelSrc r,
                              tag := tag.setWidth 16, ea := BitVec.ofNat 48 (id * 32), seq := x.seq, payload := lines }
             match sidDest s none d with
             | some t => send (waits s) { m with dst := t }
             | none => (acked s).eaUnmapped pg)
          else if !mappedLines s (reelWin r) b.dst.toNat b.n then (acked s).eaUnmapped pg
          else match decodeEA s b.dst.toNat with
            | .host h w =>
              let s := hostLines s h (s.bget (pHost h 0 + 0x54) 1) w lines (s.bget (pHost h 0 + 0x54) 2)
              countSent (s.setChan r c { x' with flush := some (w + 32 * (b.n - 1)) }) r c
            | t =>
              match unitOut s b.dst.toNat b.n with
              | some _ => (acked s).errUncorr pg
              | none =>
                send (waits s) { dst := eaDest t, vc := 0, kind := 2, len := b.n - 1,
                                 dest := (match t with | .store sid _ => BitVec.ofNat 21 sid | _ => 0#21), src := reelSrc r,
                                 tag := BitVec.ofNat 16 id, ea := b.dst, seq := x.seq, payload := lines }
        flushOwed (lastInjected s r c) r c

/-! ### Acknowledgement (R304) -/

/-- REEL_ACK_RECEIVE (R304): the next acknowledgement for reel r from `src`. A queue-mode message carries its ID
in the EA, every other write in its TAG (R302). -/
def reelAck (s : State) (r : Nat) (src : SID) : State :=
  match takeMsg (fun m => m.dst = .reel r && m.isAck && m.src = src) [] s.mesh with
  | none => s
  | some (pre, m, post) =>
    let s := countRoute { s with mesh := pre ++ post } m
    let bank := decide (m.src.toNat % 2048 = 0x7FF) && decide (m.src.toNat / 2048 / 64 = 1)
    let id := if decide (m.ea.toNat < 2 ^ 21) && !bank then m.ea.toNat / 32 % 65536 else m.tag.toNat
    let c := id % 64
    let st := chState s r c
    if decide (reelChans r ≤ c) || !(st = 2 || st = 3) || chanId s r c != id || !reelOn s r then s
    else
      let x := s.chan r c
      let s := s.setChan r c { x with acks := x.acks - 1 }
      if getB m.arg 0 then chanEvent (s.bump31 (chanPage r c) (chanBase r c + 0xA0) 1) r c 4 else s

/-- Count a failed host memory read; a poisoned completion counts as such too (R382, R401). -/
def hostReadError (s : State) (h : Nat) (poisoned : Bool) : State :=
  let p := pHost h 0
  let s := (s.bump48 p (p + 0x60) 1).raise p 1
  if poisoned then (s.bump48 p (p + 0x68) 1).raise p 2 else s

/-- HOST_FLUSH_DONE (R398, R304): the flush read of a host reel's channel completes; it waits while the link is down (R403). One that ends in
an error (`ok` false) counts (R401), that of a channel stopped meanwhile too. -/
def flushDone (s : State) (h c : Nat) (ok : Bool) : State :=
  let r := 64 + h
  let x := s.chan r c
  let y := s.host h
  if !decide (h < 4) || hostDown s h then s
  else if y.lateFlushes.contains c then
    (let s := s.setHost h { y with lateFlushes := dropFirst (fun k => k = c) y.lateFlushes }
     if ok then s else hostReadError s h false)
  else if chState s r c = 3 && x.flush.isSome && x.flushing then
    (let s := s.setChan r c { x with flush := none, flushing := false }
     if ok then s else hostReadError s h false)
  else s

/-- XFER_DONE (R311): every write of the start has been acknowledged. -/
def xferDone (s : State) (r c : Nat) : State :=
  let x := s.chan r c
  if reelOn s r && chState s r c = 3 && x.acks = 0 && x.flush.isNone then complete s r c 3 x.total else s

/-! ### Register writes (R299, R310, R312) -/

/-- DISABLE (R305, R310). -/
def disable (s : State) (r c : Nat) : State :=
  match chState s r c with
  | 1 =>
    let x := s.chan r c
    chanEvent ((setChState s r c 4).setChan r c { x with gen := (x.gen + 1) % 1024 }) r c 1
  | 2 | 3 => chanStop s r c
  | _ => s

/-- After a write to a walk register: indices zero, origins from the address registers (R299). -/
def rebase (s : State) (r c : Nat) : State :=
  let x := s.chan r c
  let s := s.setChan r c { x with idx := [0, 0, 0, 0, 0], os := BitVec.ofNat 48 (chSrc s r c), od := BitVec.ofNat 48 (chDst s r c) }
  iter 5 (fun d s => s.fset (chanBase r c + 0x40 + 0x10 * d) 31 16 0) s

/-- Note a write to one of the five registers that a DISABLE leaves arbitrary; the last one clears ARB_REGS
(R310). -/
def noteWrite (s : State) (r c i : Nat) : State :=
  let x := s.chan r c
  let w := x.wrote ||| (1#5 <<< i)
  let s := s.setChan r c { x with wrote := w }
  if w = 31#5 then s.setReg (chanBase r c + 0x18) (putB (s.reg (chanBase r c + 0x18)) 19 false) else s

/-- Whether a channel is QUEUED, ACTIVE or in ACK_WAIT. -/
def chBusy (s : State) (r c : Nat) : Bool := chState s r c = 1 || chState s r c = 2 || chState s r c = 3

/-- A host writes register `o` of a channel's block; `v` is what the register takes by R9, `ws` the WS bits
written 1. A trigger that fires in the cycle of the write makes the start: a START write makes no second one, any other write is refused
(R315). Counters of a claimed channel are written as R42 gives (R312); CH_STATUS takes no write. -/
def writeChan (s : State) (r c o : Nat) (v ws : Word) : State :=
  let b := chanBase r c
  let busy := fun (s : State) => chBusy s r c
  let fixed := chClaimed s r c && s.running
  if fixed && decide (o < 0x90) then chanEvent s r c 2
  else if 0x90 ≤ o then (if busy s && !fixed then chanEvent s r c 2 else s.setReg (b + o) v)
  else if trigDue s r c && !(o = 0x14 && getB ws 1) then
    (let s := trigger s r c
     if o = 0x14 && getB ws 0 then s else chanEvent s r c 2)
  else if o = 0x18 then (if busy s then chanEvent s r c 2 else s)
  else if o = 0x14 then
    let s := if getB ws 1 then disable s r c else s
    if busy s then chanEvent s r c 2
    else
      let s := s.setReg (b + 0x14) v
      if getB ws 0 then startChan s r c true else s
  else if busy s then chanEvent s r c 2
  else
    let s := s.setReg (b + o) v
    let walk := decide (o < 0x10) || decide (0x40 ≤ o)
    let s := if walk then rebase s r c else s
    if o ≤ 0x10 && s.bget (b + 0x18) 19 then noteWrite s r c (o / 4) else s

/-! ### A channel across a run (R312, R313) -/

/-- The offsets of the registers that START_RUN copies. -/
def copyOffs : List Nat := tab 6 (fun i => 4 * i) ++ tab 8 (fun i => 0x1C + 4 * i)
  ++ (tab 5 (fun d => tab 3 (fun i => 0x40 + 0x10 * d + 4 * i))).flatten

/-- START_RUN's copy of a claimed channel. -/
def saveChan (s : State) (r c : Nat) : State :=
  let x := s.chan r c
  s.setChan r c { x with copy := some ⟨copyOffs.map (fun o => (o, s.reg (chanBase r c + o))), x.idx, x.os, x.od⟩ }

/-- FAULT_ACK's restore of a claimed channel (R313); one whose run never started has no copy and keeps its registers. -/
def restoreChan (s : State) (r c : Nat) : State :=
  let x := s.chan r c
  let x' := { x with gen := (x.gen + 1) % 1024, bursts := [], acks := 0, flush := none, flushing := false, wrote := 0#5 }
  let s := match x.copy with
    | none => s.setChan r c x'
    | some k => forEach k.regs (fun ov s => s.setReg (chanBase r c + ov.1) ov.2) (s.setChan r c { x' with idx := k.idx, os := k.os, od := k.od })
  s.setReg (chanBase r c + 0x18) 0#32

/-- Every channel of a reel loses what is in flight and takes its reset values (R314). GEN goes on, so late
acknowledgements are absorbed. -/
def resetReel (s : State) (r : Nat) : State :=
  let s := iter (reelChans r) (fun c s =>
    let s := noteLate s r c
    let x := s.chan r c
    s.setChan r c { gen := (x.gen + 1) % 1024 }) s
  let s := { s with mesh := s.mesh.filter (fun m => !(decide (m.src = reelSrc r) && decide (m.dst = Dest.reel r))) }
  s.setReel r {}

/-! ### The commands -/

/-- TRIGGER_FIRE (R307). -/
def execTriggerFire (reel : Fin 68) (channel : Fin 32) (s : State) : Out := .next (trigger s reel.val channel.val)
/-- CHANNEL_ADMIT (R308). -/
def execChannelAdmit (reel : Fin 68) (s : State) : Out := .next (channelAdmit s reel.val)
/-- REEL_READ_REQUEST (R301). -/
def execReelReadRequest (reel : Fin 68) (data : List (BitVec 256)) (s : State) : Out := .next (reelRead s reel.val data)
/-- REEL_BEAT (R309). -/
def execReelBeat (reel : Fin 68) (cond : Cond) (s : State) : Out := .next (reelBeat s reel.val cond)
/-- REEL_WRITE_INJECT (R302). -/
def execReelWriteInject (reel : Fin 68) (conds : List Cond) (s : State) : Out := .next (reelInject s reel.val conds)
/-- REEL_ACK_RECEIVE (R304). -/
def execReelAckReceive (reel : Fin 68) (src : SID) (s : State) : Out := .next (reelAck s reel.val src)
/-- XFER_DONE (R311). -/
def execXferDone (reel : Fin 68) (channel : Fin 32) (s : State) : Out := .next (xferDone s reel.val channel.val)

end Sys2Proof.Machine
end

