-- ==== Sys2Proof/Machine/HostPorts.lean ====
section
/-! DEFINITION. Host ports (chapter "Host ports", R379 to R403) and BAR2 (R47, R48): apertures, command rings,
completion entries, MSI-X, link and port resets. -/
namespace Sys2Proof.Machine

/-! ### Accesses that a port makes (R213, R217, R218) -/

/-- The message of n lines by which host port h accesses a mapped EA of the engine: a read request, or a write of the lines `ls`. -/
def portMsg (s : State) (h ea n : Nat) (req : Bool) (ls : List Line) : Msg :=
  { dst := eaDest (decodeEA s ea), vc := if req then 1 else 0, kind := 2, req := req, len := n - 1, src := srcCode (0x80 + h),
    ea := BitVec.ofNat 48 ea, payload := ls }

/-- What the unit sends back to host port h: a response of `back` lines, or an acknowledgement. -/
def portAnswer (s : State) (h : Nat) (m : Msg) (back : List Line) : Msg :=
  let src : SID := match m.dst with
    | .spindle n => BitVec.ofNat 21 n
    | .bobbin f | .chimes f => bankSrc f
    | _ => m.src
  { dst := .host h, vc := if m.req then 2 else 3, kind := 2, len := m.len, dest := m.src, src := src, ea := m.ea, payload := back,
    isAck := !m.req, via := gateInto s m }

/-- A message travels to its destination within the step, unless its route is cut (R228): whether it arrived, and the state with its
header counted, at the routers and at the BANK port of its gateway if it has one (R87, R290). -/
def carry (s : State) (m : Msg) : Bool × State :=
  match cutOn s m with
  | some nf => (false, loseAt s m nf.1 nf.2)
  | none =>
    let s := countRoute s m
    (true, match m.dst, srcBlock m.src with
      | .bobbin f, _ | .chimes f, _ => countGate s f m.src 1
      | _, .bobbin f => match m.via with
        | some g => s.bump48 (pBob f 2) (pBob f 2 + 0x100 + g * 0x10) 1
        | none => s
      | _, _ => s)

/-- The gateway through which a source's accesses reach bobbin f. -/
def gateOf (s : State) (f : Nat) (src : SID) : Nat := (gatewayFor s f src).getD 64

/-- Whether an access of n lines that port h makes to a bobbin in service must wait: for a channel in its retraining slot (R279), or, in
controller cycle t, for the turn of its gateway (R291). -/
def bankHeld (s : State) (h : Nat) (t : Option Nat) (write : Bool) (ea n : Nat) : Bool :=
  (List.range n).any (fun i =>
    match decodeEA s (ea / 32 * 32 + 32 * i) with
    | .bobbin f o =>
      !(s.pow f).memOff && bobbinOn s f && (inSlot s f (channelOf o)
        || (match t with
            | some t => outOfTurn s f t (gateOf s f (srcCode (0x80 + h))) [granuleOf o] write
            | none => false))
    | _ => false)

/-- The EP of a spindle serves an access to store lines: its header, then a line a cycle (R62). -/
def epServe (s : State) (sid : Nat) (ls : List Nat) : State := s.modSpin sid (fun p => p.epPass (0#8 :: ls.map bankOf))

/-- The lines that a unit in service or its stand-in answers to a read of `src` (R62, R63, R237, R268, R285); `t` is the controller cycle of
bobbin reads, `conds` the findings line by line. -/
def unitLines (s : State) (src : SID) (t ea n : Nat) (conds : List Cond) : List Line × State :=
  let gone := tab n (fun i => goneLine s (ea / 32 * 32 + 32 * i))
  match decodeEA s ea with
  | .bobbin f o =>
    if (s.pow f).memOff then (gone, s.errUncorr (pBob f 0))
    else if !bobbinOn s f then (gone, s)
    else readLines (noteTaken s f t (gateOf s f src) (granules o n) false) f t o n conds
  | .store sid o =>
    if spOff s sid then (gone, s.errUncorr (fcPage s sid))
    else (List.range n).foldl (fun (st : List Line × State) i =>
      let (l, s) := storeRead st.2 sid (o / 32 + i) (nth .clean conds i)
      (st.1 ++ [l], s)) ([], epServe s sid (tab n (fun i => (o / 32 + i) % 2048)))
  | .chime c _ => (chimeLines s (c / 512) (c % 512) n, s)
  | _ => (List.replicate n {}, s)

/-- The marked lines that a block reads count in its page (R456, R461). -/
def consumed (s : State) (pg : Nat) (ls : List Line) : State := forEach (ls.filter (·.bad)) (fun _ s => s.errUncorr pg) s

/-- Port h reads n lines of one unit for the block whose page is `pg` (R26, R461, R517). Lines whose request or response is lost on a link that is
down come marked, with what stands in for a unit that is out (assumption log 38). -/
def chunkLines (s : State) (pg h t ea n : Nat) (conds : List Cond) : List Line × State :=
  match unitOut s ea n with
  | some ls => (ls, s.errUncorr pg)
  | none =>
    let m := portMsg s h ea n true []
    let lost := fun (s : State) => (tab n (fun i => goneLine s (ea / 32 * 32 + 32 * i)), s)
    match carry s m with
    | (false, s) => lost s
    | (true, s) =>
      let (ls, s) := unitLines s m.src t ea n conds
      match carry s (portAnswer s h m ls) with
      | (false, s) => lost s
      | (true, s) => (ls, consumed s pg ls)

/-- Consecutive lines from `ea` as EAs. -/
def eaRun (ea n : Nat) : List (Nat × Nat) := tab n (fun i => (ea + 32 * i, ea + 32 * i))

/-- The runs of at most 8 lines within one unit that n lines from `ea` make up (R300). -/
def runsFrom (s : State) : Nat → Nat → Nat → List (Nat × Nat)
  | 0, _, _ => []
  | fuel + 1, ea, n =>
    if n = 0 then []
    else
      let k := max 1 (runLen s false (eaRun ea (min n 8)))
      (ea, k) :: runsFrom s fuel (ea + 32 * k) (n - k)

/-- Findings that one such run takes at most: its lines, or the lines of its granules (R268). -/
def runConds : Nat := 10

/-- Port h reads n consecutive lines; `conds` are the findings, `runConds` a run. -/
def eaLines (s : State) (pg h t ea n : Nat) (conds : List Cond) : List Line × State :=
  let runs := runsFrom s n ea n
  ((List.range runs.length).zip runs).foldl (fun (st : List Line × State) ic =>
    let (ls, s) := chunkLines st.2 pg h t ic.2.1 ic.2.2 (conds.drop (runConds * ic.1))
    (st.1 ++ ls, s)) ([], s)

/-- A unit takes lines at `ea`, each with the bytes that it writes of a chime-space line (R62, R63, R237, R269, R285); `t` is the controller
cycle of a bobbin write, where the command names it. -/
def unitStore (s : State) (t : Option Nat) (ea : Nat) (src : SID) (ls : List (Line × Nat)) : State :=
  match decodeEA s ea with
  | .bobbin f o =>
    if (s.pow f).memOff then s.errUncorr (pBob f 0)
    else if bobbinOn s f then
      (let s := match t with
         | some t => noteTaken s f t (gateOf s f src) (granules o ls.length) true
         | none => s
       storeLines s f o (ls.map (·.1)))
    else s
  | .store sid o =>
    if spOff s sid then s.errUncorr (fcPage s sid)
    else forEach ((List.range ls.length).zip ls) (fun il s => writeLine s (storeAddr sid (o / 32 + il.1)) il.2.1)
      (epServe s sid (tab ls.length (fun i => (o / 32 + i) % 2048)))
  | .chime c _ =>
    forEach ((List.range ls.length).zip ls) (fun il s =>
      chimeLine s (c / 512) (c % 512 + 4 * il.1) il.2.1 il.2.2 src (incGate s (c / 512) src)) s
  | _ => s

/-- Port h writes lines of one unit for the block whose page is `pg`; whether the write was acknowledged (R228, R271, R304, R517). -/
def chunkStore (s : State) (t : Option Nat) (pg h ea : Nat) (ls : List (Line × Nat)) : Bool × State :=
  match unitOut s ea ls.length with
  | some _ => (true, s.errUncorr pg)
  | none =>
    let m := portMsg s h ea ls.length false (ls.map (·.1))
    match carry s m with
    | (false, s) => (false, s)
    | (true, s) => carry (unitStore s t ea m.src ls) (portAnswer s h m [])

/-- Port h writes consecutive lines from `ea` upwards; whether every write was acknowledged. -/
def eaStore (s : State) (t : Option Nat) (pg h ea : Nat) (ls : List (Line × Nat)) : Bool × State :=
  (runsFrom s ls.length ea ls.length).foldl (fun (st : Bool × State) c =>
    let (ok, s) := chunkStore st.2 t pg h c.1 ((ls.drop ((c.1 - ea) / 32)).take c.2)
    (st.1 && ok, s)) (true, s)

/-- Lines written whole. -/
def wholeLines (ls : List Line) : List (Line × Nat) := ls.map (fun l => (l, 2 ^ 32 - 1))

/-- Whether every line from `ea` on is mapped outside host windows, chime lines within one bank (R26, R385,
R521). -/
def linesMapped (s : State) (ea n : Nat) : Bool :=
  (List.range n).all (fun i =>
    match decodeEA s (ea + 32 * i) with
    | .unmapped => false
    | .host _ _ => false
    | .chime c _ => decide (c / 512 = ((ea - 0x500000000000) / 8) / 512)
    | _ => true)

/-! ### Denials (R45, R48) -/

/-- Count and record a denial: host port, space (0 BAR0, 1 BAR2), offset. -/
def deny (s : State) (port space off : Nat) : State :=
  let s := (s.bump48 pGlobal (pGlobal + 0x70) 1).raise pGlobal 0
  if s.bget (pGlobal + 0x6C) 29 then s
  else s.setReg (pGlobal + 0x6C) (BitVec.ofNat 32 (port % 4 * 2 ^ 30 + 2 ^ 29 + space * 2 ^ 28 + off % 2 ^ 26))

/-! ### BAR2 (R47, R48, R385, R386) -/

/-- The row of R25's table, and host window, that an EA lies in. -/
def eaRow (ea : Nat) : Nat :=
  if ea < 0x40000000000 then 0 else if ea < 0x400000000000 then 1 else if ea < 0x402000000000 then 2
  else if ea < 0x500000000000 then 3 else if ea < 0x500000040000 then 4 else if ea < 0x800000000000 then 5
  else 6 + (ea - 0x800000000000) / 0x200000000000

/-- Base, size in bytes and control of grant window n of port h (R47). -/
def grantBase (s : State) (h n : Nat) : Nat :=
  s.fget (pHost h 0 + 0x100 + n * 0x10) 31 12 * 4096 + 2 ^ 32 * s.fget (pHost h 0 + 0x104 + n * 0x10) 15 0
def grantPages (s : State) (h n : Nat) : Nat := s.fget (pHost h 0 + 0x108 + n * 0x10) 22 0
def grantInvalid (s : State) (h n : Nat) : Bool :=
  let b := grantBase s h n
  let z := grantPages s h n * 4096
  decide (0x400000 < grantPages s h n) || (decide (0 < z) && (decide (2 ^ 48 < b + z) || eaRow b != eaRow (b + z - 1)))
def grantOn (s : State) (h n : Nat) : Bool := s.bget (pHost h 0 + 0x10C + n * 0x10) 0 && !grantInvalid s h n

/-- The bytes of a request, whatever its kind. -/
def bar2Len : Bar2 → Nat
  | .read n => n
  | .write bs _ => bs.length

/-- The line at a BAR2 write's line i, with the bytes that the write covers: its data, and the line's other bytes as the port reads them, in
chime space none (R386). -/
def bar2Line (s : State) (h t ea : Nat) (bs : List (Option Byte)) (poisoned : Bool) (i : Nat) (conds : List Cond) : (Line × Nat) × State :=
  let a := ea / 32 * 32 + 32 * i
  let at_ := fun (j : Nat) => if a + j < ea then none else nth none bs (a + j - ea)
  let mask := (List.range 32).foldl (fun m j => if (at_ j).isSome then m + 2 ^ j else m) 0
  let data := (List.range 32).foldl (fun m j => m + ((at_ j).getD 0#8).toNat * 256 ^ j) 0
  let bits := (List.range 32).foldl (fun m j => if (at_ j).isSome then m + 255 * 256 ^ j else m) 0
  match decodeEA s a with
  | .chime _ _ => ((⟨BitVec.ofNat 256 data, poisoned⟩, mask), s)
  | _ =>
    if mask = 2 ^ 32 - 1 || mask = 0 then ((⟨BitVec.ofNat 256 data, poisoned⟩, mask), s)
    else
      let (ls, s) := chunkLines s (pHost h 0) h t a 1 (conds.drop (runConds * i))
      let old := ls.headD {}
      ((⟨BitVec.ofNat 256 (blend old.data.toNat data bits), old.bad || poisoned⟩, mask), s)

/-- A BAR2 access of EA `ea` through port h (R386). One that meets a channel in its retraining slot, or has missed its turn at a bobbin, happens
when it need not wait: before that the command changes nothing (R279, R291). -/
def bar2Access (s : State) (rq : Req) (ea t : Nat) (a : Bar2) (conds : List Cond) : State :=
  let h := rq.port.val
  let pg := pHost h 0
  let n := bar2Len a
  let ea := ea % 2 ^ 48
  let first := ea / 32 * 32
  let k := (ea % 32 + n + 31) / 32
  let held := fun (w : Bool) => linesMapped s first k && bankHeld s h (some t) w first k
  let s := match a with
    | .write _ true => if held true then s else (s.bump48 pg (pg + 0x68) 1).raise pg 2
    | _ => s
  if n = 0 || held (match a with | .read _ => false | .write _ _ => true) then s
  else match a with
    | .read _ =>
      if !linesMapped s first k then (s.eaUnmapped pg).emit (.bar2 rq (List.replicate n 0#8) false)
      else
        let (ls, s) := eaLines s pg h t first k conds
        let bytes := (ls.map (fun l => toBytesLE 32 l.data.toNat)).flatten
        s.emit (.bar2 rq ((bytes.drop (ea % 32)).take n) (ls.any (·.bad)))
    | .write bs poisoned =>
      if !linesMapped s first k then s.eaUnmapped pg
      else
        let r := (List.range k).foldl (fun (st : List (Line × Nat) × State) i =>
          let (l, s) := bar2Line st.2 h t ea bs poisoned i conds
          (st.1 ++ [l], s)) ([], s)
        if r.1.all (fun l => l.2 != 0) then (eaStore r.2 (some t) pg h first r.1).2
        else iter k (fun i s => match r.1[i]? with
          | some l => if l.2 = 0 then s else (eaStore s (some t) pg h (first + 32 * i) [l]).2
          | none => s) r.2

/-- BAR2_FUNCTION0_REQUEST (R385). -/
def bar2Fn0 (s : State) (port : Fin 4) (off t : Nat) (a : Bar2) (conds : List Cond) : State :=
  let h := port.val
  let base := s.fget (pHost h 0 + 0x58) 31 12 * 4096 + 2 ^ 32 * s.fget (pHost h 0 + 0x5C) 15 0
  bar2Access s ⟨port, false⟩ (base + off) t a conds

/-- BAR2_FUNCTION1_REQUEST (R48). -/
def bar2Fn1 (s : State) (port : Fin 4) (off t : Nat) (a : Bar2) (conds : List Cond) : State :=
  let h := port.val
  let n := off / 2 ^ 34
  let w := off % 2 ^ 34
  let kind := match a with | .read _ => 1 | .write _ _ => 2
  let ok := decide (n < 4) && grantOn s h n && decide (w + bar2Len a ≤ grantPages s h n * 4096) && s.bget (pHost h 0 + 0x10C + n * 0x10) kind
  if ok then bar2Access s ⟨port, true⟩ (grantBase s h n + w) t a conds
  else
    let s := deny s h 1 (off / 4096)
    match a with
    | .read len => s.emit (.bar2 ⟨port, true⟩ (List.replicate len 0#8) false)
    | .write _ p => if p then (s.bump48 (pHost h 0) (pHost h 0 + 0x68) 1).raise (pHost h 0) 2 else s

/-! ### Command rings (R387 to R389) -/

/-- The ring page of a requester's function. -/
def ringPage (rq : Req) : Nat := pHost rq.port.val (if rq.fn1 then 2 else 1)
def cmdLog (s : State) (rq : Req) : Nat := s.fget (ringPage rq + 0x64) 4 0
def cplLog (s : State) (rq : Req) : Nat := s.fget (ringPage rq + 0x64) 12 8
def cmdHead (s : State) (rq : Req) : Nat := s.fget (ringPage rq + 0x50) 15 0
def cmdTail (s : State) (rq : Req) : Nat := s.fget (ringPage rq + 0x4C) 15 0
def cplHead (s : State) (rq : Req) : Nat := s.fget (ringPage rq + 0x5C) 15 0
def cplTail (s : State) (rq : Req) : Nat := s.fget (ringPage rq + 0x60) 15 0
def ringPending (s : State) (rq : Req) : Nat := s.fget (ringPage rq + 0x68) 15 0

/-- The ring halts on an error (R389). -/
def haltRing (s : State) (rq : Req) (err : Nat) : State :=
  let p := ringPage rq
  ((s.fset (p + 0x68) 31 31 1).fset (p + 0x68) 19 16 err).raise p 0

/-- Whether the completion ring has a slot that is neither filled nor reserved (R388). -/
def cplRoom (s : State) (rq : Req) : Bool :=
  let z := 2 ^ cplLog s rq
  decide ((z + cplTail s rq % z - cplHead s rq % z) % z + ringPending s rq < z - 1)

/-- Commands of a requester that are in the engine post no entry any more (R387, R402). -/
def dropCmds (s : State) (p : Req → Bool) : State :=
  let q := fun (c : Cmd) => if p c.rq then { c with live := false } else c
  s.modRun (fun r => { r with taken := r.taken.map q, loadCmd := r.loadCmd.map q, stopCmd := r.stopCmd.map q,
                              ackCmds := r.ackCmds.map q, digests := r.digests.map q, strokes := r.strokes.map (fun k => { k with cmd := q k.cmd }) })

/-- Whether an entry is the OK entry of a stroke. -/
def Cpl.isStrokeOk (c : Cpl) : Bool := c.opcode = 7 && c.status = 0

/-- A stroke is done with: RUN_NEXT_ID and STROKES_DONE advance (R333). -/
def strokeDone (s : State) (id : Word) : State :=
  let s := if s.reg (pRun + 0x50) = id then s.setReg (pRun + 0x50) (id + 1#32) else s
  s.bump48 pRun (pRun + 0x98) 1

/-- Whether the posted OK entry of a stroke still has to be written, or the vector-0 message after it to be sent. While the port's link is down
both wait, and the strokes of other ports do not wait for them (R333, R402; assumption log 24). -/
def entryWaits (s : State) (x : Word × Req) : Bool :=
  !hostDown s x.2.port && ((s.ring x.2).due.any (fun c => c.isStrokeOk && c.stroke = x.1) || (s.ring x.2).unsent.getLsbD 0)

/-- The strokes whose posted OK entries wait no more are done, in ID order (R333). -/
def settle (s : State) : State :=
  iter s.run.posted.length (fun _ s =>
    match s.run.posted with
    | x :: rest => if entryWaits s x then s else strokeDone (s.modRun (fun r => { r with posted := rest })) x.1
    | [] => s) s

/-- The entries due to a ring are discarded (R387, R402); a stroke whose OK entry is among them is done all the same. -/
def dropDue (s : State) (rq : Req) : State := settle (s.setRing rq { s.ring rq with due := [] })

/-- RING_CTRL.RESET with ENABLE 0 (R387). -/
def resetRing (s : State) (rq : Req) : State :=
  let p := ringPage rq
  let s := ((s.setReg (p + 0x4C) 0#32).setReg (p + 0x50) 0#32).setReg (p + 0x5C) 0#32
  let s := (s.setReg (p + 0x60) 0x10000#32).setReg (p + 0x68) 0#32
  dropCmds (dropDue s rq) (fun x => x = rq)

/-- RING_CTRL is written (R387, R389). -/
def writeRingCtrl (s : State) (rq : Req) (v ws : Word) : State :=
  let p := ringPage rq
  let was := s.bget (p + 0x40) 0
  let s := if getB ws 2 && !was then resetRing s rq else s
  let s := s.setReg (p + 0x40) v
  let ok := fun n => decide (4 ≤ n) && decide (n ≤ 16)
  if getB v 0 && !was && !(ok (cmdLog s rq) && ok (cplLog s rq)) then haltRing s rq 5 else s

/-- CMD_TAIL is written (R388, R389). -/
def writeCmdTail (s : State) (rq : Req) (v : Word) : State :=
  let s := s.fset (ringPage rq + 0x4C) 15 0 (getF v 15 0)
  if 2 ^ cmdLog s rq ≤ getF v 15 0 then haltRing s rq 3 else s

/-- CPL_HEAD is written (R389): the host frees the slots up to it. -/
def writeCplHead (s : State) (rq : Req) (v : Word) : State :=
  let z := 2 ^ cplLog s rq
  let old := cplHead s rq
  let new := getF v 15 0
  let bad := decide (z ≤ new) || decide ((z + cplTail s rq % z - old % z) % z < (z + new % z - old % z) % z)
  let s := s.fset (ringPage rq + 0x5C) 15 0 new
  if bad then haltRing s rq 4 else s

/-- COMMAND_TAKE (R388, R389, R401): `entry` is the entry read from host memory; none when the read failed, or came poisoned. -/
def commandTake (s : State) (rq : Req) (entry : Option (BitVec 512)) (poisoned : Bool) : State :=
  let p := ringPage rq
  let h := rq.port.val
  if !s.bget (p + 0x40) 0 || s.bget (p + 0x68) 31 || cmdHead s rq = cmdTail s rq || !cplRoom s rq || hostDown s h then s
  else
    let base := s.fget (p + 0x44) 31 6 * 64 + 2 ^ 32 * (s.reg (p + 0x48)).toNat
    let s := s.emit (.hostRead h rq.fn1 ((base + cmdHead s rq * 64) % 2 ^ 64) 64)
    match entry with
    | none => haltRing (hostReadError s h poisoned) rq 1
    | some e =>
      if 0xB < fld e.toNat 7 0 then haltRing s rq 2
      else
        let s := s.fset (p + 0x50) 15 0 ((cmdHead s rq + 1) % 2 ^ cmdLog s rq)
        let s := (s.fset (p + 0x68) 15 0 (ringPending s rq + 1)).bump48 p (p + 0x70) 1
        s.modRun (fun r => { r with taken := r.taken ++ [⟨rq, e, true⟩] })

/-- The 32 bytes of a completion entry (R394). -/
def cplEntry (c : Cpl) (phase : Bool) (sqHead : Nat) : Nat :=
  c.tag.toNat + c.opcode % 256 * 2 ^ 32 + c.status % 256 * 2 ^ 40 + c.detail % 65536 * 2 ^ 48 + c.stroke.toNat * 2 ^ 64
    + sqHead % 65536 * 2 ^ 96 + phase.toNat * 2 ^ 127 + c.result.toNat * 2 ^ 128

/-- A word of a function's MSI-X table; vectors are masked until software clears the mask (R381). -/
def msixWord (r : Ring) (i : Nat) : Word := SMap.get (fun i => if i % 4 = 3 then 1#32 else 0#32) r.msix i
def msixMasked (r : Ring) (v : Nat) : Bool := getB (msixWord r (4 * v + 3)) 0

/-- The masked vectors of a function, vector 0 in bit 0. -/
def maskedBits (r : Ring) : BitVec 128 :=
  (List.range 128).foldl (fun (a : BitVec 128) v => if msixMasked r v then a ||| (1#128 <<< v) else a) 0#128

/-- Vectors are due (R397): the message of an unmasked one will be sent, a masked one sets its pending bit. -/
def Ring.due_ (r : Ring) (vs : BitVec 128) : Ring :=
  let m := maskedBits r
  { r with unsent := r.unsent ||| (vs &&& ~~~m), pba := r.pba ||| (vs &&& m) }

/-- COMPLETION_ENTRY_WRITE (R333, R395, R397): the oldest due entry of a ring. -/
def cplWrite (s : State) (rq : Req) : State :=
  let p := ringPage rq
  let h := rq.port.val
  let r := s.ring rq
  match r.due with
  | [] => s
  | c :: rest =>
    if hostDown s h then s
    else
      let base := s.fget (p + 0x54) 31 5 * 32 + 2 ^ 32 * (s.reg (p + 0x58)).toNat
      let phase := s.bget (p + 0x60) 16
      let tail := cplTail s rq
      let s := s.emit (.hostWrite h rq.fn1 ((base + tail * 32) % 2 ^ 64) (toBytesLE 32 (cplEntry c phase (cmdHead s rq))) false false)
      let t := (tail + 1) % 2 ^ cplLog s rq
      let s := (s.fset (p + 0x60) 15 0 t).fset (p + 0x60) 16 16 (if t = 0 then !phase else phase).toNat
      let s := s.fset (p + 0x68) 15 0 (ringPending s rq - 1)
      let irq := s.bget (p + 0x40) 1
      settle (s.setRing rq (if irq then Ring.due_ { r with due := rest } 1#128 else { r with due := rest }))

/-! ### Summary bits and MSI-X (R39, R396, R397) -/

/-- Whether a page is pending and its IRQ_EN is 1 (R39); `mask` leaves events out. -/
def pageIrq (s : State) (pg : Nat) (mask : Word := 0xFFFFFFFF#32) : Bool :=
  ((s.reg (pg + 0x18) &&& s.reg (pg + 0x20)) &&& mask) != 0#32 && s.bget (pg + 0x10) 0

/-- The pages of the block behind summary bit i of EVT_SUM_TOP (R51). -/
def topPages (i : Nat) : List Nat :=
  match i with
  | 0 => [pGlobal] | 1 => [pFuse] | 2 => [pRun]
  | 3 => tab 9 pMbox
  | 4 => [pClock] | 5 => [pReset] | 6 => [pTb]
  | i => if i < 11 then (tab 5 (pHost (i - 7))) ++ (tab 8 (fun k => pHost (i - 7) (8 + k)))
         else if i < 27 then [pNirdor (i - 11) 0, pNirdor (i - 11) 1] else []

/-- The pages of field f's block (R32). -/
def fieldPages (f : Nat) : List Nat :=
  [pField f, pRinger f] ++ tab 6 (pChime f) ++ tab 3 (pBob f) ++ tab 16 (pReel f) ++ tab 8 (pWin f) ++ [pPower f]

/-- Whether the pending state of a page reaches a function (R396): that of a channel page only its own function (R495). -/
def reaches (s : State) (rq : Req) (pg : Nat) : Bool :=
  if (tab 8 (fun k => pMbox (k + 1))).contains pg then decide (pg = pMbox (1 + 2 * rq.port.val + rq.fn1.toNat))
  else !rq.fn1 || s.bget (pg + 0x30) 2

/-- Whether a vector of function `fn1` is asserted (R396). -/
def vectorOn (s : State) (rq : Req) (v : Nat) : Bool :=
  let shared := fun pg => reaches s rq pg
  let on := fun pg mask => pageIrq s pg mask && shared pg
  let all := 0xFFFFFFFF#32
  s.bget (pHost rq.port.val 0 + 0x44) 0 &&
  (if v = 0 then false
   else if v ≤ 27 then (topPages (v - 1)).any (fun pg => on pg all)
   else if v < 32 then false
   else if v < 96 then (fieldPages (v - 32)).any (fun pg => on pg (if pg = pChime (v - 32) 0 then 0xFFFFFFFE#32 else all))
   else if v < 128 then on (pChime (v - 96) 0) 1#32 || on (pChime (v - 64) 0) 1#32
   else false)

/-- Bring the asserted vectors of a function up to date (R397): a vector that becomes asserted is due, one that
stops being asserted loses its pending bit. -/
def syncRing (s : State) (rq : Req) : State :=
  let r := s.ring rq
  let lv := (List.range 128).foldl (fun (a : BitVec 128) v => if vectorOn s rq v then a ||| (1#128 <<< v) else a) 0#128
  s.setRing rq (Ring.due_ { r with level := lv, pba := r.pba &&& (lv ||| 1#128) } (lv &&& ~~~r.level))

/-- Every function of every port. -/
def allReqs : List Req := (tab 4 (fun h => [⟨⟨h % 4, Nat.mod_lt _ (by decide)⟩, false⟩, ⟨⟨h % 4, Nat.mod_lt _ (by decide)⟩, true⟩])).flatten

/-- Bring the vectors of every function up to date. -/
def syncVectors (s : State) : State := forEach allReqs (fun rq s => syncRing s rq) s

/-- The vectors that a page feeds. -/
def vectorsOf (pg : Nat) : List Nat :=
  (List.range 128).filter (fun v =>
    if v = 0 then false else if v ≤ 27 then (topPages (v - 1)).contains pg
    else if v < 32 then false
    else if v < 96 then (fieldPages (v - 32)).contains pg
    else pg = pChime (v - 96) 0 || pg = pChime (v - 64) 0)

/-- A write to EVT_STATUS or EVT_AGAIN of a page completes: vectors it feeds that stay asserted are due
again (R397), of the functions that the page reaches. -/
def evtWritten (s : State) (pg : Nat) : State :=
  let mask := (vectorsOf pg).foldl (fun (a : BitVec 128) v => a ||| (1#128 <<< v)) 0#128
  forEach allReqs (fun rq s =>
    if !reaches s rq pg then s
    else s.setRing rq ((s.ring rq).due_ ((s.ring rq).level &&& mask))) (syncVectors s)

/-- MSIX_SEND (R397): a due vector's message is sent, or, where its mask was set meanwhile, its pending bit (R403) while it stays
asserted. -/
def msixSend (s : State) (rq : Req) (v : Nat) : State :=
  let s := syncVectors s
  let r := s.ring rq
  let h := rq.port.val
  if 128 ≤ v || !(r.unsent.getLsbD v || (r.pba.getLsbD v && !msixMasked r v)) || hostDown s h then s
  else
    let bit : BitVec 128 := 1#128 <<< v
    if msixMasked r v then
      settle (s.setRing rq { r with unsent := r.unsent &&& ~~~bit, pba := r.pba ||| (bit &&& (r.level ||| 1#128)) })
    else
      let s := settle (s.setRing rq { r with unsent := r.unsent &&& ~~~bit, pba := r.pba &&& ~~~bit })
      s.emit (.msix h rq.fn1 v ((msixWord r (4 * v)).toNat + 2 ^ 32 * (msixWord r (4 * v + 1)).toNat) (msixWord r (4 * v + 2)))

/-! ### Host memory reads, the link, resets (R401, R402) -/

/-- HOST_RD_ERR (R401): the oldest host-window read of channel c of host reel h fails, or comes poisoned; its lines come marked. `late` says that
the read was outstanding when its channel stopped (R310): its lines are lost, and it counts all the same. -/
def hostRdErr (s : State) (h c : Nat) (poisoned late : Bool) : State :=
  let r := 64 + h
  let y := s.host h
  if late then
    (if 4 ≤ h || !y.lateReads.contains c then s
     else hostReadError (s.setHost h { y with lateReads := dropFirst (fun k => k = c) y.lateReads }) h poisoned)
  else
  let here := fun (q : ReelRead) => q.issued && q.taken = [] && hostEa q.ea.toNat
    && !s.mesh.any (fun m => m.dst = Dest.reel r && !m.isAck && m.tag.toNat = chanId s r c && m.ea = q.ea)
  match ((s.chan r c).bursts.map (fun b => b.reads)).flatten.find? here with
  | some q =>
    if 4 ≤ h || chState s r c != 2 then s
    else
      let (ls, s) := (hostReadError s h poisoned).freeLines q.n
      answerRead s r c q ls
  | none => s

/-- HOST_LINK_CHANGE (R402, R435): the data link of port h goes up or down. -/
def linkChange (s : State) (port : Fin 4) (up : Bool) (width speed : Nat) : State :=
  let h := port.val
  let p := pHost h 0
  if s.bget (p + 0x40) 31 = up || (s.start = .off || s.start = .booting || s.start = .belfryUp) then s
  else
    let s := s.setReg (p + 0x40) (if up then BitVec.ofNat 32 (2 ^ 31 + width % 256 * 65536 + speed % 16) else 0#32)
    let s := if up then iter 5 (fun k s => s.setReady (pHost h k) 3 0) s else s
    let s := settle (s.raise p 0)
    let x := s.host h
    let s := if up && x.resetPending then (s.setHost h { x with resetPending := false }).raise p 3 else s
    if up then iter 32 (fun c s => flushOwed s (64 + h) c) s else s

/-- The registers of a host reel take their reset values (R402, R314); PAGE_READY stays. -/
def resetHostReel (s : State) (h : Nat) : State :=
  let n := s.readyState (pHost h 8)
  resetReel (iter 8 (fun k s => (s.resetPage (pHost h (8 + k)) (fun o => o = 0xC))) s) (64 + h)
  |> fun s => if n = 0 then s else s.fset (pHost h 8 + 0x40) 21 16 32

/-- The oldest stroke of port h whose copies into the window await their flush has them flushed (R331, R398). -/
def strokeFlushed (s : State) (port : Fin 4) : State :=
  let due := fun (k : Stroke) => k.flush && k.cmd.rq.port = port
  s.modRun (fun r => { r with strokes := mapFirst due (fun k => { k with flush := false }) r.strokes })

/-- HOST_FLUSH_DONE for the port's stroke mover: it waits while the link is down (R403); one that ends in an error counts (R401). -/
def moverFlushDone (s : State) (port : Fin 4) (ok : Bool) : State :=
  if hostDown s port.val || !s.run.strokes.any (fun k => k.flush && k.cmd.rq.port = port) then s
  else (let s := strokeFlushed s port
        if ok then s else hostReadError s port.val false)

/-- Whether an ACTIVE start of host reel h has a request that waits for window h: its next read, or the burst in its line buffer (R402). -/
def startWaits (s : State) (h c : Nat) : Bool :=
  let r := 64 + h
  chState s r c = 2 &&
    (let t := formBurst s r c
     (match ((t.chan r c).bursts.map (fun b => b.reads)).flatten.find? (fun q => !q.issued) with
      | some q => waitsLink t r q.ea.toNat q.n
      | none => false)
     || (match (s.chan r c).bursts with
         | b :: _ => bufLines (s.chan r c) = b.n && !chQmode s r c && waitsLink s r b.dst.toNat b.n
         | [] => false))

/-- A start of host reel h that waits for its window, or for the flush of its writes there, completes as an unmapped access does
(R402, R403). -/
def flushUnmapped (s : State) (h c : Nat) : State :=
  let r := 64 + h
  let x := s.chan r c
  if (chState s r c = 3 && x.flush.isSome) || startWaits s h c then complete (s.eaUnmapped (chanPage r c)) r c 3 x.total else s

/-- PORT_RESET (R402): hot reset, link disable or fundamental reset of port h. Accesses that waited for the
window complete as unmapped ones. -/
def portReset (s : State) (port : Fin 4) : State :=
  let h := port.val
  let s := syncVectors s
  let s := iter s.run.strokes.length (fun _ s => strokeFlushed s port) s
  let s := iter 32 (fun c s => flushUnmapped s h c) s
  let s := dropDue (dropDue s ⟨port, false⟩) ⟨port, true⟩
  let s := iter 5 (fun k s => s.resetPage (pHost h k)) s
  let s := resetHostReel s h
  syncVectors (dropCmds (settle (s.setHost h { ring0 := {}, ring1 := {}, resetPending := true })) (fun r => r.port = port))

/-- FUNCTION_LEVEL_RESET (R402). -/
def flr (s : State) (rq : Req) : State :=
  let s := (dropDue (syncVectors s) rq).resetPage (ringPage rq) (fun o => o = 0xC)
  syncVectors ((dropCmds (settle (s.setRing rq {})) (fun r => r = rq)).raise (pHost rq.port.val 0) 3)

/-! ### The commands -/

/-- BAR2_FUNCTION0_REQUEST (R386). -/
def execBar2Function0Request (port : Fin 4) (off cycle : Nat) (a : Bar2) (conds : List Cond) (s : State) : Out :=
  .next (bar2Fn0 s port off cycle a conds)
/-- BAR2_FUNCTION1_REQUEST (R48). -/
def execBar2Function1Request (port : Fin 4) (off cycle : Nat) (a : Bar2) (conds : List Cond) (s : State) : Out :=
  .next (bar2Fn1 s port off cycle a conds)
/-- COMMAND_TAKE (R388). -/
def execCommandTake (port : Fin 4) (fn1 : Bool) (entry : Option (BitVec 512)) (poisoned : Bool) (s : State) : Out :=
  .next (commandTake s ⟨port, fn1⟩ entry poisoned)
/-- COMPLETION_ENTRY_WRITE (R395). -/
def execCompletionEntryWrite (port : Fin 4) (fn1 : Bool) (s : State) : Out := .next (cplWrite s ⟨port, fn1⟩)
/-- MSIX_SEND (R397). -/
def execMsixSend (port : Fin 4) (fn1 : Bool) (vector : Fin 128) (s : State) : Out := .next (msixSend s ⟨port, fn1⟩ vector.val)
/-- HOST_RD_ERR (R401). -/
def execHostRdErr (port : Fin 4) (channel : Fin 32) (poisoned late : Bool) (s : State) : Out :=
  .next (hostRdErr s port.val channel.val poisoned late)
/-- HOST_FLUSH_DONE (R398). -/
def execHostFlushDone (port : Fin 4) (channel : Fin 64) (ok : Bool) (s : State) : Out :=
  .next (if channel.val = 63 then moverFlushDone s port ok else flushDone s port.val channel.val ok)
/-- HOST_LINK_CHANGE (R402). -/
def execHostLinkChange (port : Fin 4) (up : Bool) (width speed : Nat) (s : State) : Out :=
  .next (linkChange s port up width speed)
/-- PORT_RESET (R402). -/
def execPortReset (port : Fin 4) (s : State) : Out := .next (portReset s port)
/-- FUNCTION_LEVEL_RESET (R402). -/
def execFunctionLevelReset (port : Fin 4) (fn1 : Bool) (s : State) : Out := .next (flr s ⟨port, fn1⟩)

end Sys2Proof.Machine
end

