-- ==== Sys2Proof/Machine/Nirdor.lean ====
section
/-! DEFINITION. Nirdor ports and the edge ring (chapter "Nirdor ports and the multi-engine fabric", R349 to
R378). PORT_STATUS.LINK is the link state of R352; the live set is the ports in UP. -/
namespace Sys2Proof.Machine

/-! ### Packet headers (R357) -/

/-- The header line of a packet (R357). -/
def Packet.header (k : Packet) : Nat :=
  let poison := (List.range 8).foldl (fun a j => if (nth {} k.payload j).bad then a + 2 ^ j else a) 0
  k.destEngine <<< 240 + k.srcEngine <<< 224 + k.via <<< 208 + k.flowSeq <<< 192 + k.orderKey <<< 180 + k.attempt <<< 176
    + k.destPort <<< 172 + k.pkind <<< 169 + k.ordered.toNat <<< 168 + k.phase.toNat <<< 167 + k.ackReq.toNat <<< 166
    + (k.payload.length - 1) <<< 163 + poison <<< 155 + k.ea.toNat <<< 107 + k.tag.toNat <<< 91 + k.srcSid.toNat <<< 70
    + k.seq <<< 62 + k.arg.toNat <<< 30 + k.hops <<< 25 + k.srcExport <<< 15 + k.srcPort <<< 11

/-- The packet of a header line and the payload data that follow it (R354, R357). -/
def packetOf (h : Nat) (data : List (BitVec 256)) : Packet :=
  let kind := fld h 171 169
  let n := if kind ≤ 2 then fld h 165 163 + 1 else 0
  { destEngine := fld h 255 240, srcEngine := fld h 239 224, via := fld h 223 208, flowSeq := fld h 207 192,
    orderKey := fld h 191 180, attempt := fld h 179 176, destPort := fld h 175 172, pkind := kind,
    ordered := h.testBit 168, phase := h.testBit 167, ackReq := h.testBit 166, ea := BitVec.ofNat 48 (fld h 154 107),
    tag := BitVec.ofNat 16 (fld h 106 91), srcSid := BitVec.ofNat 21 (fld h 90 70), seq := fld h 69 62,
    arg := BitVec.ofNat 32 (fld h 61 30), hops := fld h 29 25, srcExport := fld h 24 15, srcPort := fld h 14 11,
    payload := tab n (fun j => ⟨nth 0#256 data j, h.testBit (155 + j)⟩) }

/-- The bytes of a frame: the header line and the payload lines (R354). -/
def Packet.bytes (k : Packet) : List Byte :=
  toBytesLE 32 k.header ++ (k.payload.map (fun l => toBytesLE 32 l.data.toNat)).flatten

/-! ### Registers and tables -/

/-- PORT_STATUS.LINK: 0 DOWN, 1 TRAINING, 2 HELD, 3 UP (R375). -/
def linkState (s : State) (p : Nat) : Nat := s.fget (pNirdor p 0 + 0x44) 31 30
def setLinkState (s : State) (p v : Nat) : State := s.fset (pNirdor p 0 + 0x44) 31 30 v

/-- Whether the transit domain is powered (R22, R430). -/
def transitUp (s : State) : Bool :=
  s.inputOn && (match s.start with | .off | .booting | .belfryUp => false | _ => true)

def engineNumber (s : State) : Nat := s.fget (pGlobal + 0x68) 15 0
def engineValid (s : State) : Bool := s.bget (pGlobal + 0x68) 31

/-- Word i of export entry e and of import entry e of port p. -/
def expW (s : State) (p e i : Nat) : Word := SMap.get (fun _ => 0#32) (s.nir p).exp (e * 8 + i)
def impW (s : State) (p e i : Nat) : Word := SMap.get (fun _ => 0#32) (s.nir p).imp (e * 2 + i)
def setExpW (s : State) (p e i : Nat) (v : Word) : State :=
  s.modNir p (fun n => { n with exp := SMap.set (fun _ => 0#32) n.exp (e * 8 + i) v })
def setImpW (s : State) (p e i : Nat) (v : Word) : State :=
  s.modNir p (fun n => { n with imp := SMap.set (fun _ => 0#32) n.imp (e * 2 + i) v })

/-- Whether an export entry is VALID (R376). -/
def expValid (s : State) (p e : Nat) : Bool :=
  getB (expW s p e 0) 31 && decide (getF (expW s p e 0) 28 26 ≤ 3) && getF (expW s p e 3) 31 24 != 0
def expRun (s : State) (p e : Nat) : Bool := getB (expW s p e 0) 29
def impRun (s : State) (p e : Nat) : Bool := getB (impW s p e 0) 29
/-- NEXT_SEQ and DONE_SEQ of an export entry, NEXT_SEQ of an import entry. -/
def expNext (s : State) (p e : Nat) : Nat := getF (expW s p e 4) 31 16
def expDone (s : State) (p e : Nat) : Nat := getF (expW s p e 4) 15 0
def impNext (s : State) (p e : Nat) : Nat := getF (impW s p e 1) 31 16

/-- PACKET_BAD of port p. -/
def packetBad (s : State) (p : Nat) : State := s.raise (pNirdor p 0) 5
def countPort (s : State) (p off n : Nat) : State := s.bump48 (pNirdor p 0) (pNirdor p 0 + off) n
/-- PORT_STATUS.ACK_SLOTS shows the busy slots. -/
def showSlots (s : State) (p : Nat) : State := s.fset (pNirdor p 0 + 0x44) 15 8 (s.nir p).slots.length

/-- Record a loss in LOSS_LAST and raise REMOTE_LOSS (R356, R371). -/
def loss (s : State) (p cause key engine exp : Nat) : State :=
  let pg := pNirdor p 0
  let s := if s.bget (pg + 0x50) 31 then s
    else (s.setReg (pg + 0x50) (BitVec.ofNat 32 (2 ^ 31 + cause * 2 ^ 28 + key % 4096 * 65536 + engine % 65536))).setReg
      (pg + 0x54) (BitVec.ofNat 32 (exp % 1024))
  s.raise pg 3

/-! ### Frames (R354) -/

/-- Send one frame. -/
def emitFrame (s : State) (p seq : Nat) (k : Packet) : State :=
  (countPort s p 0x58 1).emit (.frame p seq k.bytes)

/-- The packet that a port sends next, and the port without it: its own packets and those it relays take turns (R370). -/
def Nirdor.nextTx (x : Nirdor) : Option (Packet × Nirdor) :=
  match x.tx, x.transit with
  | [], [] => none
  | k :: ks, [] => some (k, { x with tx := ks, turn := false })
  | [], t :: ts => some (t, { x with transit := ts, turn := true })
  | k :: ks, t :: ts => some (if x.turn then (k, { x with tx := ks, turn := false }) else (t, { x with transit := ts, turn := true }))

/-- Port p sends the packets that wait, while its link is UP, no lane-swap slot runs and its replay buffer has
room. The first argument bounds their number. -/
def pump : Nat → State → Nat → State
  | 0, s, _ => s
  | n + 1, s, p =>
    match (s.nir p).nextTx with
    | none => s
    | some (k, x) =>
      if linkState s p != 3 || x.swap || 4096 ≤ x.replay.length then s
      else
        let s := s.setNir p { x with replay := x.replay ++ [⟨x.txSeq, k, 0⟩], txSeq := (x.txSeq + 1) % 65536 }
        pump n (emitFrame s p x.txSeq k) p

def pumpAll (s : State) (p : Nat) : State := pump ((s.nir p).tx.length + (s.nir p).transit.length) s p

/-- The payload lines of a packet as port q takes them from its buffers (R353, R456): `conds` is what the decoder finds in each. -/
def takeLines (s : State) (q : Nat) (ls : List Line) (conds : List Cond) : List Line × State := bufferLines s (pNirdor q 0) (fun _ => true) ls conds

/-- The header line of a packet as port q takes it from its buffers (R353, R456). No header field marks it (R357): one that is not correctable goes
on with arbitrary fields, made of what it held (DESIGN CHOICE, assumption log 31). -/
def takeHeader (s : State) (q : Nat) (k : Packet) (cond : Cond) : Packet × State :=
  match cond with
  | .clean => (k, s)
  | .corr => (k, s.errCorr (pNirdor q 0))
  | .wrong =>
    let (h, s) := (s.errCorr (pNirdor q 0)).free 256
    ({ packetOf h.toNat [] with payload := k.payload }, s)
  | .bad =>
    let (h, s) := (s.errUncorr (pNirdor q 0)).mix (BitVec.ofNat 256 k.header) 0#256
    ({ packetOf h.toNat [] with payload := k.payload }, s)

/-- A packet as port q takes it from its buffers, header line first. -/
def takePacket (s : State) (q : Nat) (k : Packet) (conds : List Cond) : Packet × State :=
  let (k, s) := takeHeader s q k (conds.headD .clean)
  let (ls, s) := takeLines s q k.payload (conds.drop 1)
  ({ k with payload := ls }, s)

/-! ### Routing (R367, R368) -/

/-- VIA of a packet (R367). -/
def chooseVia (s : State) (p e flowSeq key dest : Nat) : Nat :=
  let set := getF (expW s p e 0) 21 19
  let n := min 64 (s.fget (pRing + 0x60 + 4 * set) 6 0)
  if n = 0 then 0xFFFF
  else
    let w := flowSeq ||| (key <<< 16) ||| (dest <<< 28) ||| (p <<< 44)
    let seed := (s.reg (pRing + 0x48)).toNat + 2 ^ 32 * (s.reg (pRing + 0x4C)).toNat
    let i := (((srMix (BitVec.ofNat 64 (seed ^^^ w))).toNat >>> 32) * n) >>> 32
    getF (SMap.get (fun _ => 0#32) s.via (set * 64 + i)) 15 0

/-- The candidates for a target engine, ascending (R368). -/
def candidates (s : State) (target : Nat) : List Nat :=
  let ports := SMap.get (fun _ => 0#32) s.relay target
  (List.range 16).filter (fun q => getB ports q && linkState s q = 3)

/-- Drop a packet under R368; cause 0 no candidate, 1 HOPS, 2 misdelivered. -/
def relayDrop (s : State) (cause target : Nat) : State :=
  let s := s.bump48 pRing (pRing + 0x90) 1
  let s := if s.bget (pRing + 0x98) 31 then s
    else s.setReg (pRing + 0x98) (BitVec.ofNat 32 (2 ^ 31 + cause * 2 ^ 29 + target % 65536))
  s.raise pRing 0

/-- Route a packet (R368); `relayed` says that it arrived from a link, `conds` what the port that transmits it finds in its lines, header line first. One
for this engine crosses the edge ring to its DEST_PORT. -/
def routePacket (s : State) (relayed : Bool) (k : Packet) (conds : List Cond := []) : State :=
  let me := engineNumber s
  let direct := !s.bget (pRing + 0x40) 0
  if !relayed && k.destEngine = me then s.modNir k.destPort (fun n => { n with arrived := n.arrived ++ [k] })
  else if relayed && !direct then relayDrop s 2 k.destEngine
  else
    let phase := k.phase || (direct && k.via = me)
    let target := if direct && !phase && k.via != 0xFFFF && k.via != k.destEngine then k.via else k.destEngine
    let cs := candidates s target
    let hops := k.hops + relayed.toNat
    if cs = [] then relayDrop s 0 target
    else if 31 < hops then relayDrop s 1 target
    else
      let q := nth 0 cs ((k.flowSeq + k.orderKey) % cs.length)
      let s := if relayed then s.bump48 pRing (pRing + 0x88) 1 else s
      let (k, s) := takePacket s q { k with phase := phase, hops := hops } conds
      pumpAll (s.modNir q (fun n => if relayed then { n with transit := n.transit ++ [k] } else { n with tx := n.tx ++ [k] })) q

/-! ### Link states and lanes (R350 to R352, R355, R356) -/

/-- Set PAGE_READY of both pages of a port (R37, R435). -/
def portReady (s : State) (p st reason : Nat) : State :=
  (s.setReady (pNirdor p 0) st reason).setReady (pNirdor p 1) st reason

/-- Whether a packet that a port discards belongs to an entry with SCOPE_RUN 1 of this engine: a data packet to
its export entry, a credit or acknowledgement to the import entry of its flow. -/
def scopeRunPacket (s : State) (k : Packet) : Bool :=
  k.srcEngine = engineNumber s && (if k.pkind ≤ 3 then expRun s k.srcPort k.srcExport else impRun s k.srcPort k.orderKey)

/-- Port p provides no reference any more (R374, R405). -/
def dropRef (s : State) (p : Nat) : State :=
  let s := if s.fget (pClock + 0x40) 11 8 = p then s.modClk (fun c => { c with eligible := false }) else s
  s.fset (pNirdor p 0 + 0x44) 29 29 0

/-- A port leaves HELD or UP (R356). -/
def portDown (s : State) (p : Nat) : State :=
  if linkState s p < 2 then s
  else
    let x := s.nir p
    let gone := x.replay.map (·.pkt) ++ x.tx ++ x.transit
    let s := s.setNir p { x with replay := [], tx := [], transit := [], nak := false, swap := false, txSeq := 0, rxSeq := 0 }
    let s := setLinkState s p 0
    let s := (dropRef s p).fset (pNirdor p 0 + 0x44) 28 28 0
    let s := countPort s p 0x88 gone.length
    let s := match gone.find? (scopeRunPacket s) with
      | some k => if s.running then runFault (loss s p 0 k.orderKey k.destEngine 0) ⟨3, none, none⟩ else s
      | none => s
    portReady (s.raise (pNirdor p 0) 0) p 0 7

/-- Whether a port may train (R352): populated, its transit domain powered, enabled and not held down. -/
def mayTrain (s : State) (p : Nat) : Bool :=
  populated s p && transitUp s && s.bget (pNirdor p 0 + 0x40) 0 && !s.bget (pNirdor p 0 + 0x40) 2

/-- A port leaves DOWN for TRAINING (R352); `asked` says that RETRAIN was written. -/
def startTraining (s : State) (p : Nat) (asked : Bool) : State :=
  if linkState s p = 0 && mayTrain s p && (asked || s.bget (pNirdor p 0 + 0x40) 1) then setLinkState s p 1 else s

/-- The lane status register of lane l. -/
def laneReg (p l : Nat) : Nat := pNirdor p 1 + 0x40 + 4 * l

/-- Place the good lanes in service in ascending order; the rest of them are spares (R350). -/
def placeLanes (s : State) (p width : Nat) (good : Nat → Bool) : State :=
  (iter 42 (fun l (st : State × Nat) =>
    let r := laneReg p l
    let w := (st.1.reg r)
    if !good l then (st.1.setReg r (putF (putF w 31 30 3) 21 16 0), st.2)
    else if st.2 < width then (st.1.setReg r (putF (putF w 31 30 2) 21 16 st.2), st.2 + 1)
    else (st.1.setReg r (putF (putF w 31 30 1) 21 16 0), st.2 + 1)) (s, 0)).1

/-- TRAINING_DONE (R350, R352): lanes found good in each direction, the margins measured, whether training ended
within 50 ms, and what the partner told: switch or engine, port, number. -/
def trainingDone (s : State) (p : Nat) (rx tx : BitVec 42) (margins : List Nat) (inTime : Bool)
    (partner : Bool × Nat × Nat) : State :=
  if linkState s p != 1 then s
  else
    let ones := fun (m : BitVec 42) => ((List.range 42).filter (fun l => m.getLsbD l)).length
    let n := min (ones rx) (ones tx)
    let width := if 40 ≤ n then 40 else 32
    let s := (s.fset (pNirdor p 0 + 0x44) 21 16 n).modNir p (fun x => { x with rxGood := ones rx, txGood := ones tx })
    let s := placeLanes s p (if 32 ≤ n then width else 0) (fun l => rx.getLsbD l)
    let s := iter 42 (fun l s => s.fset (laneReg p l) 7 0 (nth 0 margins l)) s
    if n < 32 || !inTime then portReady (countPort (setLinkState s p 0) p 0x90 1) p 0 7
    else
      let s := (setLinkState s p 2).fset (pNirdor p 0 + 0x44) 28 28 (decide (width = 32)).toNat
      let (sw, port, num) := partner
      (s.setReg (pNirdor p 0 + 0x48) (BitVec.ofNat 32 (2 ^ 31 + sw.toNat * 2 ^ 30 + port % 16 * 65536 + num % 65536))).modNir p
        (fun x => { x with txSeq := 0, rxSeq := 0, nak := false, swap := false })

/-- PORT_UP (R352, R29): both ends hold a valid engine number; `partner` says so of a partner that is no switch. -/
def portUp (s : State) (p : Nat) (partner : Bool) : State :=
  if linkState s p != 2 || !engineValid s || !(partner || s.bget (pNirdor p 0 + 0x48) 30) then s
  else
    let s := (setLinkState s p 3).raise (pNirdor p 0) 1
    pumpAll (if s.bget (pNirdor p 0 + 0x44) 28 then portReady s p 2 8 else portReady s p 3 0) p

/-- PORT_DOWN (R352): FORCE_DOWN or ENABLE 0 takes effect; in TRAINING it is a training failure. -/
def portDownDue (s : State) (p : Nat) : State :=
  if s.bget (pNirdor p 0 + 0x40) 0 && !s.bget (pNirdor p 0 + 0x40) 2 then s
  else if linkState s p = 1 then countPort (setLinkState s p 0) p 0x90 1
  else portDown s p

/-- LINK_FAILURE (R355): a lost lane lock or a partner that signals DOWN (`seen`), or a frame resent 8 times. -/
def linkFailure (s : State) (p : Nat) (seen : Bool) : State :=
  if seen || (s.nir p).replay.any (fun f => decide (8 ≤ f.resent)) then portDown s p else s

/-- A lane of one direction is given up (R351): its count of good lanes falls, and LANES_GOOD shows the lower of the two (R375). -/
def loseLane (s : State) (p : Nat) (tx : Bool) : State :=
  let s := s.modNir p (fun x => if tx then { x with txGood := x.txGood - 1 } else { x with rxGood := x.rxGood - 1 })
  (s.fset (pNirdor p 0 + 0x44) 21 16 (min (s.nir p).rxGood (s.nir p).txGood)).raise (pNirdor p 0) 2

/-- Both ends hold a lane-swap slot (R351): frames wait. -/
def swapSlot (s : State) (p : Nat) : State :=
  (s.bump48 (pNirdor p 1) (pNirdor p 1 + 0x100) 1).modNir p (fun x => { x with swap := true })

/-- No spare is left: the port narrows to 32 lanes, which leave the receive lanes `good`, or goes down (R351, R352). -/
def narrowPort (s : State) (p : Nat) (good : Nat → Bool) : State :=
  if s.bget (pNirdor p 0 + 0x44) 28 then portDown s p
  else
    let s := swapSlot ((placeLanes s p 32 good).fset (pNirdor p 0 + 0x44) 28 28 1) p
    if linkState s p = 3 then portReady s p 2 8 else s

/-- LANE_SPARED (R351, R378): the receiver, adapting on live data, has found the margin of in-service lane l for 10 ms. Below 0x20, the lane's
traffic moves to the first good spare, or the port narrows to 32 lanes, or goes down. `tx` says that the partner's receiver found it, of a lane
on which this end transmits: the slot is the same, and this end's own lane registers stay, but where the port narrows. -/
def laneSpared (s : State) (p l margin : Nat) (tx : Bool) : State :=
  let st := fun j => s.fget (laneReg p j) 31 30
  if linkState s p < 2 || decide (42 ≤ l) || (!tx && st l != 2) then s
  else
  let s := if tx then s else s.fset (laneReg p l) 7 0 margin
  if 0x20 ≤ margin || (s.nir p).nak || (s.nir p).swap then s
  else if tx then
    let width := if s.bget (pNirdor p 0 + 0x44) 28 then 32 else 40
    let spare := decide (width < (s.nir p).txGood)
    let s := loseLane s p true
    if spare then swapSlot s p else narrowPort s p (fun j => st j = 1 || st j = 2)
  else
    let pos := s.fget (laneReg p l) 21 16
    let spare := (List.range 42).find? (fun j => st j = 1)
    let s := loseLane s p false
    let s := s.setReg (laneReg p l) (putF (putF (s.reg (laneReg p l)) 31 30 3) 21 16 0)
    match spare with
    | some j => swapSlot (s.setReg (laneReg p j) (putF (putF (s.reg (laneReg p j)) 31 30 2) 21 16 pos)) p
    | none => narrowPort s p (fun j => decide (j ≠ l) && st j = 2)

/-- LANE_SWAP_SLOT_END (R351): the frames that waited are sent. -/
def laneSwapEnd (s : State) (p : Nat) : State :=
  if (s.nir p).swap then pumpAll (s.modNir p (fun x => { x with swap := false })) p else s

/-- FRAME_RECEIVE (R353, R354): what port p receives: a frame, as its sequence number, whether its link code is
correctable, and its lines; and the sequence number up to which the partner acknowledges frames. The port acknowledges the frame that it
expects, and returns a NAK for that one when it finds the first frame it refuses. -/
def frameReceive (s : State) (p : Nat) (rx : Option (Nat × Bool × BitVec 256 × List (BitVec 256))) (ack : Option Nat) : State :=
  if linkState s p != 3 then s
  else
    let x := s.nir p
    let s := match ack with
      | some a =>
        if x.replay.any (fun f => f.seq = a) then
          s.setNir p { x with replay := (x.replay.dropWhile (fun f => f.seq != a)).drop 1 }
        else s
      | none => s
    let s := match rx with
      | some (seq, ok, h, data) =>
        let x := s.nir p
        if ok && seq = x.rxSeq then
          (countPort (s.setNir p { x with rxSeq := (x.rxSeq + 1) % 65536, nak := false, arrived := x.arrived ++ [packetOf h.toNat data] }) p
            0x60 1).emit (.frameAck p seq)
        else if x.nak then s
        else (s.setNir p { x with nak := true }).emit (.frameNak p x.rxSeq)
      | none => s
    pumpAll s p

/-- FRAME_REPLAY (R354): a NAK names the frame, or the oldest frame has waited 2 µs (none). Frames from it on are
resent in order; a lane-swap slot makes them wait. `conds` is what the port finds in the lines of each as it takes them again, header line first
(R353). -/
def frameReplay (s : State) (p : Nat) (from_ : Option Nat) (conds : List (List Cond)) : State :=
  let x := s.nir p
  let again := match from_ with
    | some a => x.replay.dropWhile (fun f => f.seq != a)
    | none => x.replay
  if linkState s p != 3 || x.swap || again = [] then s
  else
    let keep := x.replay.take (x.replay.length - again.length)
    let s := s.setNir p { x with replay := keep }
    forEach ((List.range again.length).zip again) (fun jf s =>
      let (k, s) := takePacket s p jf.2.pkt (nth [] conds jf.1)
      let f := { jf.2 with resent := jf.2.resent + 1, pkt := k }
      countPort (emitFrame (s.modNir p (fun x => { x with replay := x.replay ++ [f] })) p f.seq f.pkt) p 0x68 1) s

/-! ### Sending (R359 to R361, R364, R365) -/

/-- The messages at port p's mesh side on a channel that wait in the port (R361). -/
def portWaits (s : State) (p vc : Nat) : Bool := s.mesh.any (fun m => m.dst = .nirdor p && m.vc = vc && m.waiting)

/-- What stands in for the lines that a message to a port names and does not carry: arbitrary content, made of what its EA's lines hold (R4). -/
def namedByEa (s : State) (m : Msg) : List Line := tab (m.len + 1) (fun j => goneLine s (m.ea.toNat / 32 * 32 + 32 * j))

/-- The payload lines that a packet takes from a message (R360). A message without payload, whose KIND the port ignores (R359), gives
lines of arbitrary data. -/
def packetLines (s : State) (m : Msg) : List Line :=
  if m.payload = [] then (namedByEa s m).map (fun l => ⟨l.data, false⟩) else m.payload

/-- PACKET_BUILD (R359 to R361): the message at the head of channel `vc` of port p's mesh side, the next of `src` when none waits there.
`conds` is what the port that transmits the packet finds in its lines, header line first. -/
def packetBuild (s : State) (p : Nat) (src : SID) (vc : Nat) (conds : List Cond) : State :=
  if !populated s p || !transitUp s then s else
  let waits := portWaits s p vc
  match takeMsg (fun m => m.dst = .nirdor p && !m.isAck && m.vc = vc && (if waits then m.waiting else m.src = src)) [] s.mesh with
  | none => s
  | some (pre, m, post) =>
    let gone := countRoute { s with mesh := pre ++ post } m
    let code := srcCode (0xC0 + p)
    if m.req then respond gone { m with dest := m.src } code (namedByEa gone m)
    else if m.cut then gone
    else
      let e := fld m.tag.toNat 9 0
      let fromBlock := decide (m.src.toNat % 2048 = 0x7FF)
      if !expValid s p e then
        let s := packetBad (countPort gone p 0x88 1) p
        sendAck s m code true
      else
        let next := expNext s p e
        if getF (expW s p e 3) 31 24 ≤ (65536 + next - expDone s p e) % 65536 || (s.nir p).expLost.contains e then
          { s with mesh := pre ++ { m with waiting := true } :: post }
        else
          let w0 := expW s p e 0
          let w1 := expW s p e 1
          let rtag := getF w1 15 0
          let kind := getF w0 28 26
          let rea := getF (expW s p e 2) 31 5 * 32 + 2 ^ 32 * getF (expW s p e 3) 15 0
          let dest := getF w1 31 16
          let key := getF w0 11 0
          let s := gone
          let ls := packetLines s m
          let k : Packet :=
            { destEngine := dest, srcEngine := engineNumber s, via := chooseVia s p e next key dest, flowSeq := next,
              orderKey := key, attempt := s.abortK % 16, destPort := getF w0 25 22, pkind := kind,
              ordered := getB w0 30, phase := false, ackReq := fromBlock,
              ea := BitVec.ofNat 48 (if fromBlock then rea else rea + m.ea.toNat),
              tag := (putF (BitVec.ofNat 32 rtag) 13 10 (fld rtag 13 10 + fld m.tag.toNat 13 10)).setWidth 16,
              srcSid := m.src, seq := m.seq,
              arg := if kind = 3 then (ls.headD {}).data.setWidth 32 else 0#32,
              srcExport := e, srcPort := p, payload := if kind = 3 then [] else ls }
          let s := countPort s p 0x70 1
          let s := setExpW s p e 4 (putF (expW s p e 4) 31 16 (next + 1))
          let s := if fromBlock then
              (let s := s.modNir p (fun x => { x with sends := x.sends ++ [⟨e, next, m.src, m.tag, m.seq, m.ea⟩] })
               setExpW s p e 5 (putF (expW s p e 5) 7 0 (getF (expW s p e 5) 7 0 + 1)))
            else s
          routePacket s false k conds

/-- A credit or acknowledgement packet back to the source of a flow (R364, R365), whose unstated header fields are
arbitrary. -/
def replyPacket (s : State) (p key : Nat) (k : Packet) : Packet × State :=
  let (h, s) := s.free 256
  let x := packetOf h.toNat []
  ({ x with destEngine := k.srcEngine, srcEngine := engineNumber s, via := 0xFFFF, orderKey := key,
            attempt := s.abortK % 16, destPort := k.srcPort, ordered := false, phase := false, ackReq := false,
            hops := 0, srcExport := k.srcExport, srcPort := p, payload := [] }, s)

/-- CREDIT_SEND (R364): port p reports NEXT_SEQ of import entry e, or repeats it while a packet of the flow is held
or waits for the mesh. -/
def creditSend (s : State) (p e : Nat) (cond : Cond) : State :=
  let x := s.nir p
  match SMap.get (fun _ => none) x.flows e with
  | none => s
  | some k =>
    let next := impNext s p e
    if next = SMap.get (fun _ => 0) x.reported e && !x.held.any (fun h => h.1 = e) && !x.rx.any (fun y => y.orderKey = e) then s
    else
      let s := s.setNir p { x with reported := SMap.set (fun _ => 0) x.reported e next }
      let (y, s) := replyPacket s p e k
      routePacket s false { y with pkind := 5, arg := BitVec.ofNat 32 next } [cond]

/-- The send record of a packet, in the port that sent it, when that is a port of this engine. -/
def ownRecord (s : State) (k : Packet) : Option SendRec :=
  if k.srcEngine = engineNumber s then
    (s.nir k.srcPort).sends.find? (fun r => r.exp = k.srcExport && r.flowSeq = k.flowSeq && r.src = k.srcSid && r.seq = k.seq)
  else none

/-- Send the acknowledgement packet of a packet (R365). The original TAG and the cookie stand in the sending port's record (R360) and in no
field of the packet (R357): of a packet that another engine sent, `sent` gives them (assumption log 31). `cond` is what the transmitting port
finds in the packet's line. -/
def ackPacket (s : State) (p : Nat) (k : Packet) (stale : Bool) (sent : BitVec 16 × EA) (cond : Cond) : State :=
  let (y, s) := replyPacket s p k.orderKey k
  let (tag, ea) := match ownRecord s k with
    | some r => (r.tag, r.cookie)
    | none => sent
  routePacket s false { y with pkind := 4, srcSid := k.srcSid, tag := tag, seq := k.seq, ea := ea,
                               arg := if stale then 1#32 else 0#32 } [cond]

/-- ACK_PACKET_SEND (R365): the next mesh acknowledgement of `src` at port p frees its slot; it stays behind a message that waits on its
channel (R361). -/
def ackPacketSend (s : State) (p : Nat) (src : SID) (sent : BitVec 16 × EA) (cond : Cond) : State :=
  if portWaits s p 3 then s else
  match takeMsg (fun m => m.dst = .nirdor p && m.isAck && m.src = src) [] s.mesh with
  | none => s
  | some (pre, m, post) =>
    let s := countRoute { s with mesh := pre ++ post } m
    match (s.nir p).slots.find? (fun k => k.1 = m.seq) with
    | none => s
    | some k =>
      let s := showSlots (s.modNir p (fun x => { x with slots := x.slots.filter (fun y => y.1 != m.seq) })) p
      ackPacket s p k.2 (getB m.arg 0) sent cond

/-! ### Receiving (R362 to R365) -/

/-- IMP_W1.HELD shows the packets held. -/
def showHeld (s : State) (p e : Nat) : State :=
  setImpW s p e 1 (putF (impW s p e 1) 11 0 ((s.nir p).held.filter (fun h => h.1 = e)).length)

/-- NEXT_SEQ passes every sequence number that has been seen and delivered; an ordered packet that follows without a
gap goes to the mesh side (R362). The first argument bounds the number of steps. -/
def advanceFlow : Nat → State → Nat → Nat → State
  | 0, s, _, _ => s
  | n + 1, s, p, e =>
    let x := s.nir p
    let next := impNext s p e
    let seen := SMap.get (fun _ => []) x.seen e
    if !seen.contains next || x.rx.any (fun k => k.orderKey = e && k.flowSeq = next) then s
    else match x.held.find? (fun h => h.1 = e && h.2.flowSeq = next) with
      | some h =>
        showHeld (s.setNir p { x with held := x.held.filter (fun y => !(y.1 = e && y.2.flowSeq = next)), rx := x.rx ++ [h.2] }) p e
      | none =>
        let s := s.setNir p { x with seen := SMap.set (fun _ => []) x.seen e (seen.filter (fun q => q != next)) }
        advanceFlow n (setImpW s p e 1 (putF (impW s p e 1) 31 16 (next + 1))) p e

/-- Take the first packet at port p that satisfies a predicate. -/
def takeArrived (s : State) (p : Nat) (f : Packet → Bool) : Option (Packet × State) :=
  match (s.nir p).arrived.find? f with
  | some k => some (k, s.modNir p (fun x => { x with arrived := dropFirst f x.arrived }))
  | none => none

/-- PACKET_RECEIVE (R358, R362): port p's next packet for this engine, checked at its DEST_PORT. -/
def packetReceive (s : State) (p : Nat) : State :=
  match takeArrived s p (fun k => k.destEngine = engineNumber s && k.pkind != 4 && k.pkind != 5) with
  | none => s
  | some (k, s) =>
    let q := k.destPort
    let e := k.orderKey
    if 6 ≤ k.pkind || !populated s q then packetBad s p
    else if !(getB (impW s q e 0) 31 && getF (impW s q e 0) 15 0 = k.srcEngine) then packetBad s q
    else if impRun s q e && k.attempt != s.abortK % 16 then (countPort s q 0x80 1).raise (pNirdor q 0) 4
    else
      let next := impNext s q e
      let d := (65536 + k.flowSeq - next) % 65536
      let x := s.nir q
      let seen := SMap.get (fun _ => []) x.seen e
      if 256 ≤ d || seen.contains k.flowSeq then packetBad s q
      else
        let x := { x with seen := SMap.set (fun _ => []) x.seen e (seen ++ [k.flowSeq]),
                          flows := SMap.set (fun _ => none) x.flows e (some k) }
        if k.ordered && d != 0 then showHeld (s.setNir q { x with held := x.held ++ [(e, k)] }) q e
        else s.setNir q { x with rx := x.rx ++ [k] }

/-- The first packet that may go to the mesh: none before it of its flow, its flow not stalled, and a slot free if it
needs one (R362, R365, R371). -/
def nextDeliver (x : Nirdor) : List Nat → List Packet → Option Packet
  | _, [] => none
  | before, k :: ks =>
    if before.contains k.orderKey || x.impLost.contains k.orderKey || (k.ackReq && decide (255 ≤ x.slots.length))
    then nextDeliver x (k.orderKey :: before) ks else some k

/-- The lowest free ack slot. -/
def freeSlot (x : Nirdor) : Nat := ((List.range 255).find? (fun i => !x.slots.any (fun k => k.1 = i))).getD 0xFF

/-- PACKET_DELIVER (R363, R365, R517, R518): port p's next packet becomes a message of the mesh. A discarded one counts as
acknowledged: `sent` and `cond` are those of its acknowledgement packet. -/
def packetDeliver (s : State) (p : Nat) (sent : BitVec 16 × EA) (cond : Cond) : State :=
  let x := s.nir p
  match nextDeliver x [] x.rx with
  | none => s
  | some k =>
    let pg := pNirdor p 0
    let code := srcCode (0xC0 + p)
    let ea := k.ea.toNat
    let s := s.setNir p { x with rx := dropFirst (fun y => y = k) x.rx }
    let out := fun (s : State) => if k.ackReq then ackPacket s p k false sent cond else s
    let slot := if k.ackReq then freeSlot x else 0xFF
    let put := fun (s : State) (m : Msg) =>
      let s := if k.ackReq then showSlots (s.modNir p (fun x => { x with slots := x.slots ++ [(slot, k)] })) p else s
      let dest : SID := match m.dst with | .spindle n => BitVec.ofNat 21 n | _ => 0#21
      send (countPort s p 0x78 1)
        { m with dest := dest, src := code, tag := k.tag, ea := k.ea, seq := slot, arg := k.arg, len := k.payload.length - 1, payload := k.payload }
    let s :=
      if k.pkind ≤ 1 then
        (match decodeEA s ea with
         | .store sid _ => put s { dst := .spindle sid, vc := 0, kind := k.pkind }
         | _ => out (s.eaUnmapped pg))
      else if k.pkind = 2 then
        (if !mappedLines s none ea k.payload.length then out (s.eaUnmapped pg)
         else
           let t := decodeEA s ea
           match unitOut s ea k.payload.length with
           | some _ => out (s.errUncorr pg)
           | none => put s { dst := eaDest t, vc := 0, kind := 2 })
      else match decodeEA s ea with
        | .chime c _ =>
          (match unitOut s ea 1 with
           | some _ => out (s.errUncorr pg)
           | none => put s { dst := .chimes (c / 512), vc := 3, kind := 3 })
        | _ => out (s.eaUnmapped pg)
    advanceFlow 256 s p k.orderKey

/-- CREDIT_RECEIVE (R364): a credit packet at port p moves DONE_SEQ of its export entry forward. -/
def creditReceive (s : State) (p : Nat) : State :=
  match takeArrived s p (fun k => k.destEngine = engineNumber s && k.pkind = 5) with
  | none => s
  | some (k, s) =>
    let q := k.destPort
    let e := k.srcExport
    let v := getF k.arg 15 0
    if !populated s q then packetBad s p
    else if (65536 + v - expDone s q e) % 65536 < 32768 then setExpW s q e 4 (putF (expW s q e 4) 15 0 v) else s

/-- ACK_PACKET_RECEIVE (R365, R271): an acknowledgement packet at port p goes to its reel, and the send record that it answers ends. -/
def ackPacketReceive (s : State) (p : Nat) : State :=
  match takeArrived s p (fun k => k.destEngine = engineNumber s && k.pkind = 4) with
  | none => s
  | some (k, s) =>
    let q := k.destPort
    let e := k.srcExport
    let mine := fun (r : SendRec) => r.exp = e && r.src = k.srcSid && r.tag = k.tag && r.seq = k.seq && r.cookie = k.ea
    if !populated s q then packetBad s p else
    let s := match (s.nir q).sends.find? mine with
      | some _ =>
        setExpW (s.modNir q (fun x => { x with sends := dropFirst mine x.sends })) q e 5
          (putF (expW s q e 5) 7 0 (getF (expW s q e 5) 7 0 - 1))
      | none => s
    if k.srcSid.toNat % 2048 != 0x7FF then s
    else match codeDest (k.srcSid.toNat / 2048) with
      | some d => send s { dst := d, vc := 3, kind := 2, dest := k.srcSid, src := srcCode (0xC0 + q), tag := k.tag, ea := k.ea,
                           seq := k.seq, arg := if getB k.arg 0 then 1#32 else 0#32, isAck := true }
      | none => s

/-- PACKET_RELAY (R368, R370): port p's next packet for another engine. -/
def packetRelay (s : State) (p : Nat) (conds : List Cond) : State :=
  match takeArrived s p (fun k => k.destEngine != engineNumber s) with
  | none => s
  | some (k, s) => routePacket s true k conds

/-! ### Losses and resets of flows (R371, R372) -/

/-- The packets that have arrived at some port of the engine for its port p and are not yet judged. -/
def arrivedFor (s : State) (p : Nat) : List Packet :=
  (tab 16 (fun q => (s.nir q).arrived)).flatten.filter (fun k => k.destEngine = engineNumber s && k.destPort = p)

/-- Whether a sequence number below the highest seen is missing at import entry e; one whose packet has arrived is not (R378). -/
def gapAt (s : State) (p e : Nat) : Bool :=
  let next := impNext s p e
  let seen := SMap.get (fun _ => []) (s.nir p).seen e
  let come := ((arrivedFor s p).filter (fun k => k.pkind ≤ 3 && k.orderKey = e && k.srcEngine = getF (impW s p e 0) 15 0
    && (!impRun s p e || k.attempt = s.abortK % 16))).map (·.flowSeq)
  seen.any (fun q => (List.range ((65536 + q - next) % 65536)).any (fun d =>
    !seen.contains ((next + d) % 65536) && !come.contains ((next + d) % 65536)))

/-- Whether a credit (cause 2) or an acknowledgement (cause 3) for export entry e has arrived: it applies before the timer (R371, R378). -/
def answered (s : State) (p cause e : Nat) : Bool :=
  (arrivedFor s p).any (fun k => k.pkind = (if cause = 2 then 5 else 4) && k.srcExport = e)

/-- REMOTE_LOSS (R371): REMOTE_TIMEOUT has passed for entry e of port p under the condition of `cause`. -/
def remoteLoss (s : State) (p cause e : Nat) : State :=
  let x := s.nir p
  if s.fget (pNirdor p 0 + 0x4C) 15 0 = 0 || !populated s p then s
  else if cause = 1 then
    if !gapAt s p e || x.impLost.contains e then s
    else
      let s := loss (s.setNir p { x with impLost := x.impLost ++ [e] }) p 1 e (getF (impW s p e 0) 15 0) 0
      if impRun s p e then faultIfRunning s ⟨0xA, none, none⟩ else s
  else if cause = 2 || cause = 3 then
    if x.expLost.contains e || answered s p cause e || (if cause = 2 then expNext s p e = expDone s p e else !x.sends.any (fun r => r.exp = e)) then s
    else
      let s := loss (s.setNir p { x with expLost := x.expLost ++ [e] }) p cause (getF (expW s p e 0) 11 0) (getF (expW s p e 1) 31 16) e
      if expRun s p e then faultIfRunning s ⟨0xA, none, none⟩ else s
  else s

/-- Whether a message waits in port p, for the window of an export entry with SCOPE_RUN 1 or behind such a one on its VC (R361): a packet that is
not transmitted (R372). -/
def waitsForFlow (s : State) (p : Nat) (m : Msg) : Bool :=
  m.dst = .nirdor p && !m.isAck && expRun s p (fld m.tag.toNat 9 0)
    && s.mesh.any (fun x => x.dst = m.dst && x.vc = m.vc && x.waiting && expRun s p (fld x.tag.toNat 9 0))

/-- Reset the flows with SCOPE_RUN 1 of one port (R372). -/
def resetPortFlows (s : State) (p : Nat) : State :=
  let s := { s with mesh := s.mesh.filter (fun m => !waitsForFlow s p m) }
  let x := s.nir p
  let exps := (List.range 1024).filter (expRun s p)
  let imps := (List.range 4096).filter (impRun s p)
  let me := engineNumber s
  let own := fun (k : Packet) => k.srcEngine = me && k.srcPort = p && (if k.pkind ≤ 3 then exps.contains k.srcExport else imps.contains k.orderKey)
  let s := s.setNir p { x with
    seen := x.seen.filter (fun e => !imps.contains e.1), held := x.held.filter (fun h => !imps.contains h.1),
    rx := x.rx.filter (fun k => !imps.contains k.orderKey), sends := x.sends.filter (fun r => !exps.contains r.exp),
    slots := x.slots.filter (fun k => !imps.contains k.2.orderKey),
    reported := x.reported.filter (fun e => !imps.contains e.1),
    flows := x.flows.filter (fun e => !imps.contains e.1), impLost := x.impLost.filter (fun e => !imps.contains e),
    expLost := x.expLost.filter (fun e => !exps.contains e) }
  let s := forEach (List.range 16) (fun q s => s.modNir q (fun y =>
    { y with tx := y.tx.filter (fun k => !own k), transit := y.transit.filter (fun k => !own k) })) s
  let s := forEach exps (fun e s => setExpW (setExpW s p e 4 0#32) p e 5 0#32) s
  showSlots (forEach imps (fun e s => setImpW s p e 1 0#32) s) p

/-- The reset of R372, at the completion of LOAD_PEAL and at step 2 of FAULT_ACK. -/
def resetFlows (s : State) : State := forEach (List.range 16) (fun p s => resetPortFlows s p) s

/-! ### Register writes (R29, R375, R376) -/

/-- The bits of an export or import entry's word that software writes (R376). -/
def entryMask (imp : Bool) (i : Nat) : Word :=
  match imp, i with
  | false, 0 => 0xFFF80FFF#32
  | false, 1 => 0xFFFFFFFF#32
  | false, 2 => 0xFFFFFFE0#32
  | false, 3 => 0xFF00FFFF#32
  | true, 0 => 0xEFFFFFFF#32
  | _, _ => 0#32

/-- A write of word i of the selected export or import entry of port p (R376). -/
def writeEntry (s : State) (p : Nat) (imp : Bool) (i : Nat) (v : Word) : State :=
  let e := if imp then s.fget (pNirdor p 0 + 0xA4) 11 0 else s.fget (pNirdor p 0 + 0xA0) 9 0
  if s.running && (if imp then impRun s p e else expRun s p e) then packetBad s p
  else
    let m := entryMask imp i
    if imp then setImpW s p e i ((impW s p e i &&& ~~~m) ||| (v &&& m))
    else setExpW s p e i ((expW s p e i &&& ~~~m) ||| (v &&& m))

/-- A privileged write of ENGINE_NUMBER (R29, R51). -/
def writeEngineNumber (s : State) (v : Word) : State :=
  s.setReg (pGlobal + 0x68) (BitVec.ofNat 32 (2 ^ 31 + getF v 15 0))

/-- PORT_CTRL is written (R352, R375). -/
def writePortCtrl (s : State) (p : Nat) (v ws : Word) : State :=
  let s := s.setReg (pNirdor p 0 + 0x40) v
  if getB ws 3 then startTraining s p true else s

/-- REF_LOCK_CHANGE (R374): the recovered clock gains or loses lock. -/
def refLock (s : State) (p : Nat) (locked : Bool) : State :=
  if !populated s p || (locked && decide (linkState s p < 2)) then s
  else
    if locked then s.fset (pNirdor p 0 + 0x44) 29 29 1 else dropRef s p

/-! ### The commands -/

/-- NIRDOR_RETRAIN (R352). -/
def execNirdorRetrain (port : Fin 16) (s : State) : Out := .next (startTraining s port.val false)
/-- TRAINING_DONE (R352). -/
def execTrainingDone (port : Fin 16) (rx tx : BitVec 42) (margins : List Nat) (inTime : Bool) (switch : Bool)
    (partnerPort partnerNumber : Nat) (s : State) : Out :=
  .next (trainingDone s port.val rx tx margins inTime (switch, partnerPort, partnerNumber))
/-- PORT_UP (R352). -/
def execPortUp (port : Fin 16) (partnerValid : Bool) (s : State) : Out := .next (portUp s port.val partnerValid)
/-- ENGINE_NUMBER_WRITE (R29). -/
def execEngineNumberWrite (v : Word) (s : State) : Out := .next (writeEngineNumber s v)
/-- PORT_DOWN (R356). -/
def execPortDown (port : Fin 16) (s : State) : Out := .next (portDownDue s port.val)
/-- LINK_FAILURE (R355). -/
def execLinkFailure (port : Fin 16) (seen : Bool) (s : State) : Out := .next (linkFailure s port.val seen)
/-- LANE_SPARED (R351). -/
def execLaneSpared (port : Fin 16) (lane : Fin 42) (margin : Byte) (tx : Bool) (s : State) : Out :=
  .next (laneSpared s port.val lane.val margin.toNat tx)
/-- LANE_SWAP_SLOT_END (R351). -/
def execLaneSwapSlotEnd (port : Fin 16) (s : State) : Out := .next (laneSwapEnd s port.val)
/-- FRAME_RECEIVE (R354). -/
def execFrameReceive (port : Fin 16) (rx : Option (Nat × Bool × BitVec 256 × List (BitVec 256))) (ack : Option Nat)
    (s : State) : Out := .next (frameReceive s port.val rx ack)
/-- FRAME_REPLAY (R354). -/
def execFrameReplay (port : Fin 16) (nak : Option Nat) (conds : List (List Cond)) (s : State) : Out :=
  .next (frameReplay s port.val nak conds)
/-- PACKET_BUILD (R360). -/
def execPacketBuild (port : Fin 16) (src : SID) (vc : Fin 4) (conds : List Cond) (s : State) : Out :=
  .next (packetBuild s port.val src vc.val conds)
/-- PACKET_RECEIVE (R362). -/
def execPacketReceive (port : Fin 16) (s : State) : Out := .next (packetReceive s port.val)
/-- PACKET_DELIVER (R363). -/
def execPacketDeliver (port : Fin 16) (sent : BitVec 16 × EA) (cond : Cond) (s : State) : Out := .next (packetDeliver s port.val sent cond)
/-- CREDIT_SEND (R364). -/
def execCreditSend (port : Fin 16) (entry : Fin 4096) (cond : Cond) (s : State) : Out := .next (creditSend s port.val entry.val cond)
/-- CREDIT_RECEIVE (R364). -/
def execCreditReceive (port : Fin 16) (s : State) : Out := .next (creditReceive s port.val)
/-- ACK_PACKET_SEND (R365). -/
def execAckPacketSend (port : Fin 16) (src : SID) (sent : BitVec 16 × EA) (cond : Cond) (s : State) : Out :=
  .next (ackPacketSend s port.val src sent cond)
/-- ACK_PACKET_RECEIVE (R365). -/
def execAckPacketReceive (port : Fin 16) (s : State) : Out := .next (ackPacketReceive s port.val)
/-- PACKET_RELAY (R368). -/
def execPacketRelay (port : Fin 16) (conds : List Cond) (s : State) : Out := .next (packetRelay s port.val conds)
/-- REMOTE_LOSS (R371). -/
def execRemoteLoss (port : Fin 16) (cause : Fin 8) (entry : Fin 4096) (s : State) : Out := .next (remoteLoss s port.val cause.val entry.val)
/-- EXPORT_ENTRY_WRITE (R376): a privileged write of word i of the selected export (or import) entry. -/
def execExportEntryWrite (port : Fin 16) (imp : Bool) (i : Fin 8) (v : Word) (s : State) : Out :=
  .next (if 2 ≤ s.readyState (pNirdor port.val 0) then writeEntry s port.val imp i.val v else s)
/-- REF_LOCK_CHANGE (R374). -/
def execRefLockChange (port : Fin 16) (locked : Bool) (s : State) : Out := .next (refLock s port.val locked)

end Sys2Proof.Machine
end

