-- ==== Sys2Proof/Machine/Errors.lean ====
section
/-! DEFINITION. Errors and the silent-error defence (chapter "Error handling and silent-error defence", R454 to R479):
SEC-DED words, control parity, hits and fences, probes, captures. The digest and the command PROBE stand with the
commands of the run controller. -/
namespace Sys2Proof.Machine

/-- Whether the Belfry's firmware runs (R494). -/
def belfryUp (s : State) : Bool := s.bget (pMbox 0 + 0x40) 31

/-- Ticks of the timebase in a second (R417). -/
def tickHz : Nat := 625000000

/-! ### SEC-DED and parity (R459, R460) -/

/-- The page that counts the errors of a SEC-DED word (R461). -/
def secPage (s : State) : SecWord → Nat
  | .vreg sid _ _ | .lacc sid _ _ _ | .scale sid => fcPage s sid
  | .chime c _ => pChime (c / 512) 0

/-- Whether a SEC-DED word exists. -/
def secExists (s : State) : SecWord → Bool
  | .vreg sid r l => spinUp s sid && decide (r < 64) && decide (l < 16)
  | .lacc sid i l w => spinUp s sid && decide (i < 4) && decide (l < 16) && decide (w < 4)
  | .scale sid => spinUp s sid
  | .chime c _ => decide (c < 32768) && chPresent s (c / 512) (c % 512)

/-- The register that holds a word of chime c (R245). -/
def chimeWordReg (c : Nat) (part : ChimePart) : Nat :=
  chBase (c / 512) (c % 512) + match part with | .value => 0 | .slots => 8 | .save => 0xC

/-- What a SEC-DED word holds. -/
def secValue (s : State) : SecWord → Word
  | .vreg sid r l => (((s.spin sid).vreg r) >>> (32 * l)).setWidth 32
  | .lacc sid i l w => (((s.spin sid).lacc i l) >>> (32 * w)).setWidth 32
  | .scale sid => (s.spin sid).wreg 7 0x44
  | .chime c part => s.reg (chimeWordReg c part)

/-- Store a value in a SEC-DED word. -/
def secScramble (s : State) (v : Word) : SecWord → State
  | .vreg sid r l => s.modSpin sid (fun p =>
      p.setV r (BitVec.ofNat 512 (blend (p.vreg r).toNat (v.toNat <<< (32 * l)) ((2 ^ 32 - 1) <<< (32 * l)))))
  | .lacc sid i l w => s.modSpin sid (fun p =>
      p.setLa i l (BitVec.ofNat 128 (blend (p.lacc i l).toNat (v.toNat <<< (32 * w)) ((2 ^ 32 - 1) <<< (32 * w)))))
  | .scale sid => s.modSpin sid (fun p => p.setW 7 0x44 v)
  | .chime c part => s.setReg (chimeWordReg c part) v

/-- SECDED_ERROR (R459): a word is found with one bit in error, or with two (`double`): it then reads as arbitrary content, of what it held and
the zero of the tests (R4, R80). -/
def secded (s : State) (w : SecWord) (double : Bool) : State :=
  if !secExists s w then s
  else if !double then s.errCorr (secPage s w)
  else
    let (v, s) := (s.errUncorr (secPage s w)).mix (secValue s w) 0#32
    let s := secScramble s v w
    match w with
    | .vreg sid _ _ | .lacc sid _ _ _ | .scale sid => if s.live sid then runFault s ⟨2, some (s.fieldOf sid), some sid⟩ else s
    | .chime c _ => if s.running && chRun s (c / 512) (c % 512) then runFault s ⟨2, some (c / 512), none⟩ else s

/-- The messages that a spindle's IP had started and not finished are cut short (R460): the lines injected travel on, the
rest is counted; what was not begun is discarded. -/
def cutIp (s : State) (sid : Nat) : State :=
  let p := s.spin sid
  let s := s.setSpin sid { p with ip := p.ip.filter (fun m => m.sent) }
  forEach (p.ip.filter (fun m => !m.sent)) (fun m s =>
    if m.hdr.single || m.todo = m.hdr.len + 2 then s
    else
      let s := ipFinish s sid { m.hdr with cut := true }
      iter m.todo (fun _ s => s.errUncorr (fcPage s sid)) s) s

/-- PARITY_FAILURE (R460): cause and ply as LOST_LAST records them (R465). A spindle that a failure has stopped may fail again. -/
def parity (s : State) (sid cause ply : Nat) : State :=
  if !spinUp s sid then s
  else
    let f := s.fieldOf sid
    let pg := pField f
    let s := cutIp s sid
    let s := iter 4 (fun k s => scramblePly s sid { ply := k, base := 0, next := 0, bad := true }) s
    let s := s.modSpin sid (fun p =>
      let p := iter 4 (fun k (p : Spindle) => p.setLoaded k false) p
      { p with dead := true, load := none, loadWait := none })
    let s := if s.bget (pg + 0x210) 31 then s
      else s.setReg (pg + 0x210) (BitVec.ofNat 32 (2 ^ 31 + cause % 4 * 2 ^ 28 + (if cause < 2 then ply % 4 else 0) * 2 ^ 21 + sid % 2 ^ 21))
    let s := (s.raise pg 8).setReady pg 2 5
    if s.placed sid && (s.runState = 1 || s.running) then runFault s ⟨1, some f, some sid⟩ else s

/-! ### Hits and fences (R467 to R470) -/

def Belfry.suspect (b : Belfry) (key : Nat) : Suspect := SMap.get (fun _ => {}) b.suspects key
def setSuspect (s : State) (key : Nat) (x : Suspect) : State :=
  s.modBel (fun b => { b with suspects := SMap.set (fun _ => {}) b.suspects key x })

/-- The logical spindle of a suspect record's position, when one is mapped there. -/
def suspectSid (s : State) (key : Nat) : Option Nat := spindleAt s (key / 32768) (key % 32768 / 152) (key % 32768 % 152)

/-- The suspect record's key of a logical spindle. -/
def suspectKey (s : State) (sid : Nat) : Nat := s.fieldOf sid * 32768 + locOf s sid

/-- Whether some stroke is admitted and has no record. -/
def strokeAdmitted (s : State) : Bool :=
  s.run.strokes.any (fun k => k.stage = .admitted || k.stage = .copyingOut)

/-- A spindle is fenced (R468, R469). -/
def fence (s : State) (key : Nat) (probe : Bool) : State :=
  let f := key / 32768
  let pg := pField f
  let s := addSoft s (defect 1 f (key % 32768) 0) (if probe then 7 else 2)
  let s := if 2 ≤ s.readyState pg then s.setReady pg 2 5 else s
  let s := (s.raise pg 10).fset (pg + 0x214) 15 8 (min 255 (s.fget (pg + 0x214) 15 8 + 1))
  match suspectSid s key with
  | some sid =>
    if !s.live sid then s
    else if s.belfry.policy.fenceAt && strokeAdmitted s then s.modRun (fun r => { r with fenceAt := some sid })
    else runFault s ⟨9, some f, some sid⟩
  | none => s

/-- Whether a hit still counts under WINDOW_H. -/
def hitFresh (s : State) (h : Nat × Bool) : Bool := decide (s.tb ≤ h.1 + s.belfry.policy.windowH * 3600 * tickHz)

/-- HIT (R467): the Belfry judges the oldest hit that waits. -/
def hit (s : State) : State :=
  match s.belfry.hitsDue with
  | [] => s
  | (key, probe, tb) :: rest =>
    if !belfryUp s then s
    else
      let s := s.modBel (fun b => { b with hitsDue := rest })
      let pol := s.belfry.policy
      let x := s.belfry.suspect key
      if x.state = 2 then s
      else
        let hits := x.hits ++ [(tb, probe)]
        let fenced := pol.fence || decide (pol.hits ≤ (hits.filter (hitFresh s)).length)
        let s := setSuspect s key ⟨if fenced then 2 else 1, hits⟩
        let origin := if probe then 2 else if key / 32768 < 32 then 0 else 1
        let s := addLog s 0x401 2 [(suspectSid s key).getD 0x1FFFFF, if fenced then 2 else 1, hits.length] 0 0 (some (tb, origin))
        if fenced then fence s key probe else s

/-- HIT_EXPIRY (R467): the oldest hit of a suspect spindle is older than WINDOW_H hours. -/
def hitExpiry (s : State) (sid : Nat) : State :=
  let key := suspectKey s sid
  let x := s.belfry.suspect key
  match x.hits with
  | [] => s
  | h :: rest =>
    if x.state != 1 || hitFresh s h || !belfryUp s then s
    else setSuspect s key ⟨if rest = [] then 0 else 1, rest⟩

/-- FENCE_STROKE_BOUNDARY (R469): every admitted stroke has been recorded. -/
def fenceBoundary (s : State) : State :=
  match s.run.fenceAt with
  | some sid =>
    if strokeAdmitted s || !s.running then s
    else runFault (s.modRun (fun r => { r with fenceAt := none })) ⟨9, some (s.fieldOf sid), some sid⟩
  | none => s

/-! ### Probes (R471 to R475) -/

/-- The probe sets installed, the base set first (R474). -/
def probeSets (s : State) : List (Nat × List ProbeVec) :=
  (0, Config.baseProbeSet) :: s.belfry.probes.map (fun p => (p.id, p.vectors))

/-- Line i of a vector, and the register in lines i and i + 1 (R473). -/
def vecLine (v : ProbeVec) (i : Nat) : Nat := (nth 0#256 v i).toNat
def vecReg (v : ProbeVec) (i : Nat) : Nat := vecLine v i + 2 ^ 256 * vecLine v (i + 1)

/-- What a vector makes a healthy spindle compute (R471). `ply` and `act` name the operation in a capture. -/
def probeFly (v : ProbeVec) (sid ply act : Nat) : VuFly :=
  let h := vecLine v 0
  let w := vuDecode (h % 2 ^ 64)
  let md := fld h 69 64
  let sr : SrCtx := { sid := sid, fixed := some (fld h 99 76) }
  let x : VuIn := { A := vecReg v 1, B := vecReg v 3, C := vecReg v 5, la := fun _ _ => BitVec.ofNat 128 (vecLine v 9),
                    sc := fun _ => sext 8 (fld h 107 100), md := ⟨RMode.ofCode (md % 8), md.testBit 4, md.testBit 5⟩, sr := sr }
  { left := 0, ply := ply, act := act, op := w.op, dst := w.dst, lai := w.lai, res := vuCompute w x, lane := fld h 75 72,
    word := h % 2 ^ 64, a := x.A, b := x.B, c := x.C, modes := md, sr := sr }

/-- Whether a healthy spindle passes a vector (R471, R473). -/
def probePass (v : ProbeVec) : Bool :=
  let h := vecLine v 0
  let x := probeFly v 0 0 0
  let old := BitVec.ofNat 128 (vecLine v 9)
  let d := blend 0 x.res.val x.res.mask
  let laneOk := fun l => !(fld h 123 108).testBit l || (d >>> (32 * l)) % 2 ^ 32 = (vecReg v 7 >>> (32 * l)) % 2 ^ 32
  let newN := match x.res.la with
    | .none => old
    | .add _ vals => old + nth 0#128 vals x.lane
    | .clr _ | .scl _ _ => 0#128
    | .regrid _ _ vals => nth 0#128 vals x.lane
  let la := decide (0x28 ≤ x.op ∧ x.op ≤ 0x2C) || x.op = 0x23 || x.op = 0x24
  (List.range 16).all laneOk && (!la || newN.toNat = vecLine v 9 / 2 ^ 128) && x.res.fl.bits = fld h 128 124

/-- The accumulators, scales and destination that a vector gives its operation (R464, R473): the vector's accumulator and SCALE, and a
destination that holds nothing. -/
def probeSpindle (v : ProbeVec) (x : VuFly) : Spindle :=
  (({} : Spindle).setLa x.lai x.lane (BitVec.ofNat 128 (vecLine v 9))).setScale x.lai (fld (vecLine v 0) 107 100)

/-- What a run of probe sets found: vectors run, failures as (spindle, set, vector), spindle by spindle and then in the order of the sets and
of their vectors. -/
abbrev Probed := Nat × List (Nat × Nat × Nat)

/-- Run probe sets on spindles (R471): counters, events, clapper records and one hit for every spindle with a failure. A
spindle fails the vectors that a healthy one fails, and those of its flaws; what a clapper check finds during either is recorded. -/
def probeRun (s : State) (sets : List (Nat × List ProbeVec)) (sids : List Nat) (flaws : List Flaw) : Probed × State :=
  let all := (sets.map (fun st => ((List.range st.2.length).zip st.2).map (fun iv => (st.1, iv.1, iv.2, probePass iv.2)))).flatten
  sids.foldl (fun (a : Probed × State) sid =>
    let pg := fcPage a.2 sid
    let flaw := fun (y : Nat × Nat × ProbeVec × Bool) => flaws.find? (fun x => x.sid = sid && x.set = y.1 && x.vector = y.2.1)
    let failed := all.filter (fun y => (flaw y).isSome || !y.2.2.2)
    let s := a.2.bump48 pg (pg + 0x220) all.length
    let s := forEach failed (fun y s =>
      let s := (s.bump48 pg (pg + 0x228) 1).raise pg 9
      match (flaw y).bind (·.found) with
      | some mm =>
        let (r, s) := s.free 8
        let x := probeFly y.2.2.1 sid (r.toNat % 4) (r.toNat / 4)
        clapperRecord s sid (probeSpindle y.2.2.1 x) x mm
      | none => s) s
    let s := if failed = [] then s else makeHit s sid true
    ((a.1.1 + all.length, a.1.2 ++ failed.map (fun y => (sid, y.1, y.2.1))), s)) ((0, []), s)

/-- SUSPECT_PROBE (R467): every installed set on a suspect spindle. -/
def suspectProbe (s : State) (sid : Nat) (flaws : List Flaw) : State :=
  if (s.belfry.suspect (suspectKey s sid)).state != 1 || s.live sid || !spinUp s sid || !belfryUp s then s
  else (probeRun s (probeSets s) [sid] flaws).2

/-- The logical spindles of a rectangle, row by row. -/
def rectSids (s : State) (xlo xhi ylo yhi : Nat) : List Nat :=
  let x1 := min (xhi + 1) (8 * s.cols)
  let y1 := min (yhi + 1) s.rows
  (tab (y1 - ylo) (fun j => tab (x1 - xlo) (fun i => sidAt (xlo + i) (ylo + j)))).flatten

/-- SWEEP (R475): every installed set on every spindle that R471 allows. -/
def sweep (s : State) (flaws : List Flaw) : State :=
  if !s.belfry.policy.sweepEn || !belfryUp s then s
  else (probeRun s (probeSets s) ((rectSids s 0 2047 0 1023).filter (fun n => !s.live n && spinUp s n)) flaws).2

/-! ### Captures (R463) -/

/-- CAPTURE_READ_BY_BELFRY (R463, R480): the capture buffer of field f is stored and freed; the newest 2,048 captures
are kept. -/
def captureStore (s : State) (f : Nat) : State :=
  match SMap.get (fun _ => none) s.belfry.buffers f with
  | none => s
  | some rec =>
    if !belfryUp s then s
    else
      let n := s.belfry.captures.length + 1
      let num := s.belfry.firstCapture + s.belfry.captures.length
      let s := s.modBel (fun b => { b with captures := (b.captures ++ [rec]).drop (n - 2048), firstCapture := b.firstCapture + (n - 2048),
                                           buffers := SMap.set (fun _ => none) b.buffers f none })
      let s := s.fset (pField f + 0x214) 0 0 0
      addLog s 0x400 2 [num, fld (nth 0#256 rec 0).toNat 129 109] 0 0 (some (fld (nth 0#256 rec 0).toNat 255 192, if f < 32 then 0 else 1))

/-! ### The commands -/

/-- PARITY_FAILURE (R460). -/
def execParityFailure (sid : SID) (cause ply : Fin 4) (s : State) : Out := .next (parity s sid.toNat cause.val ply.val)
/-- SECDED_ERROR (R459). -/
def execSecdedError (word : SecWord) (double : Bool) (s : State) : Out := .next (secded s word double)
/-- HIT (R467). -/
def execHit (s : State) : Out := .next (hit s)
/-- HIT_EXPIRY (R467). -/
def execHitExpiry (sid : SID) (s : State) : Out := .next (hitExpiry s sid.toNat)
/-- FENCE_STROKE_BOUNDARY (R469). -/
def execFenceStrokeBoundary (s : State) : Out := .next (fenceBoundary s)
/-- SUSPECT_PROBE (R467). -/
def execSuspectProbe (sid : SID) (flaws : List Flaw) (s : State) : Out :=
  .next (suspectProbe s sid.toNat flaws)
/-- SWEEP (R475). -/
def execSweep (flaws : List Flaw) (s : State) : Out := .next (sweep s flaws)
/-- CAPTURE_READ_BY_BELFRY (R463). -/
def execCaptureReadByBelfry (field : Fin 64) (s : State) : Out := .next (captureStore s field.val)

end Sys2Proof.Machine
end

