-- ==== Sys2Proof/Machine/Views.lean ====
section
/-! DEFINITION. What a register reads (chapter "Register pages and the two views"): registers that show other
state of the engine, the spindle window, and the reset values that a page shows before it is in service
(R38). -/
namespace Sys2Proof.Machine

/-- The number whose bits i < n are those for which `p` holds. -/
def bitsOf (n : Nat) (p : Nat → Bool) : Nat := (List.range n).foldl (fun a i => if p i then a + 2 ^ i else a) 0

/-- Whether the registers of a page from +0x40 are out of service (R38). PORT_CTRL of a Nirdor port whose transit domain is powered stays in service
while its link is DOWN: there RETRAIN, FORCE_DOWN and ENABLE act (R352, R375; DEDUCED, assumption log 21). -/
def pageOut (s : State) (pg : Page) (o : Nat) : Bool :=
  decide (0x40 ≤ o) && decide (s.readyState pg.base < 2) && !(pg.kind = .nirdor0 && o = 0x40 && transitUp s)

/-! ### The spindle window (R49, R50, R81 to R88) -/

/-- SW_SELECT of field f, whether it names no spindle of the field, and whether the window is off. -/
def swSid (s : State) (f : Nat) : Nat := s.fget (pWin f 0 + 0x40) 20 0
def badSid (s : State) (f : Nat) : Bool := !s.validSid (swSid s f) || s.fieldOf (swSid s f) != f
def windowOff (s : State) (f : Nat) : Bool := badSid s f || (s.pow f).computeOff

/-- A vector-register lane, and word j of lane l of LAi. -/
def laneWord (v : Nat) (l : Nat) : Word := BitVec.ofNat 32 (v >>> (32 * l))

/-- A register of window page k of field f. -/
def windowReg (s : State) (f k o : Nat) : Word :=
  let sid := swSid s f
  let p := s.spin sid
  if windowOff s f then 0#32
  else if k ≤ 4 && o = 0x40 then putB (p.wreg k o) 1 (decide (p.ply = k - 1) && p.wasActive (k - 1))
  else if k = 5 && o = 0x40 then
    BitVec.ofNat 32 (p.ply % 4 * 2 ^ 30 + p.curAct p.ply % 64 * 2 ^ 24 + p.stall % 16 * 2 ^ 16 + (s.live sid).toNat)
  else if k = 7 && o = 0x40 then s.reg (pWin f 7 + 0x40)
  else if k = 7 && 0x80 ≤ o && o < 0xC0 then laneWord (p.vreg (s.fget (pWin f 7 + 0x40) 5 0)).toNat ((o - 0x80) / 4)
  else if k = 7 && 0x400 ≤ o && o < 0x800 then
    laneWord (p.lacc ((o - 0x400) / 0x100) ((o - 0x400) / 0x10 % 16)).toNat (o / 4 % 4)
  else p.wreg k o

/-! ### Computed registers -/

/-- Whether a page reads READY. -/
def isReady (s : State) (pg : Nat) : Bool := s.readyState pg = 3

/-- Whether some page of a list is pending with IRQ_EN 1 (R39). -/
def anyIrq (s : State) (l : List Nat) : Bool := l.any (fun pg => pageIrq s pg)

/-- GLOBAL registers (R51). -/
def globalReg (s : State) (o : Nat) : Word :=
  let v := s.reg (pGlobal + o)
  if o = 0x54 then
    putF (putF v 19 16 (bitsOf 4 (fun h => isReady s (pHost h 0)))) 15 0 (bitsOf 16 (fun p => isReady s (pNirdor p 0)))
  else if o = 0x58 then BitVec.ofNat 32 (bitsOf 32 (fun f => isReady s (pField f)))
  else if o = 0x5C then BitVec.ofNat 32 (bitsOf 32 (fun f => isReady s (pField (f + 32))))
  else if o = 0x60 then BitVec.ofNat 32 (bitsOf 32 (fun f => isReady s (pBob f 0)))
  else if o = 0x64 then BitVec.ofNat 32 (bitsOf 32 (fun f => isReady s (pBob (f + 32) 0)))
  else if o = 0x78 then BitVec.ofNat 32 (bitsOf 27 (fun i => anyIrq s (topPages i)))
  else if o = 0x80 then BitVec.ofNat 32 (bitsOf 32 (fun f => anyIrq s (fieldPages f)))
  else if o = 0x84 then BitVec.ofNat 32 (bitsOf 32 (fun f => anyIrq s (fieldPages (f + 32))))
  else v

/-- Accepted strokes without a record (R346). -/
def outstanding (s : State) : Nat := (s.run.strokes.filter Stroke.open_).length

/-- EDGE_RING registers that show other state (R377): the live set and the selected table entries. -/
def ringReg (s : State) (o : Nat) : Word :=
  if o = 0x44 then BitVec.ofNat 32 (bitsOf 16 (fun p => linkState s p = 3))
  else if o = 0x54 then SMap.get (fun _ => 0#32) s.via (s.fget (pRing + 0x50) 18 16 * 64 + s.fget (pRing + 0x50) 5 0)
  else if o = 0x84 then SMap.get (fun _ => 0#32) s.relay (s.fget (pRing + 0x80) 15 0)
  else s.reg (pRing + o)

/-- Spindles of field f whose SP_FLAGS.SUSPECT is 1. -/
def suspectCount (s : State) (f : Nat) : Nat :=
  (s.spindles.filter (fun e => getB (e.2.wreg 5 0x44) 5 && s.fieldOf e.1 = f)).length

/-- Switch-offs of field f in the last hour (R484, R488). -/
def hotHour (s : State) (f : Nat) : Nat :=
  ((SMap.get (fun _ => []) s.belfry.hotTimes f).filter (fun t => decide (s.tb ≤ t + 3600 * tickHz))).length

/-- CH_STATUS of channel c of reel r (R296). -/
def chanStatus (s : State) (r c : Nat) : Word :=
  let x := s.chan r c
  putF (putF (s.reg (chanBase r c + 0x18)) 10 8 (chanReads x)) 3 0 (bufLines x)

/-- PAGE_STATUS.IN_RESET (R424, R427): whether a page lies in the scope of the reset in progress; that of RUN_ABORT are the fields of the peal that
is loaded or being loaded. -/
def inReset (s : State) (pg : Page) : Bool :=
  let here := match pg.kind with
    | .fieldCtrl | .swSel | .ply | .win5 | .win6 | .win7 | .reel _ => true
    | _ => false
  let bob := pg.kind = .bob0 || pg.kind = .bob1 || pg.kind = .bob2
  let host := match pg.kind with | .hostReel _ => true | _ => false
  s.bget (pReset + 0x44) 31 &&
  (match s.fget (pReset + 0x44) 9 8 with
  | 0 => true
  | 1 => here || bob || host || pg.kind = .run
  | 2 => (here || bob) && pg.n = s.fget (pReset + 0x44) 5 0
  | _ => (here && usesField s pg.n) || host || pg.kind = .run)

/-- What the register at offset `o` of a page in service reads. -/
def liveReg (s : State) (pg : Page) (o : Nat) : Word :=
  let v := s.reg (pg.base + o)
  if o < 0x40 then
    if pg.kind = .bob0 && o = 8 then
      putF v 31 16 (0xA000 + s.gradeSlots * 256 + s.capacity / 2 ^ 30)
    else if o = 0x14 then BitVec.ofNat 32 (inReset s pg).toNat
    else v
  else match pg.kind with
    | .global => globalReg s o
    | .run => if o = 0x58 then BitVec.ofNat 32 (outstanding s) else v
    | .hpCtrl =>
      if 0x100 ≤ o && o % 0x10 = 0xC then putB v 31 (grantInvalid s pg.n ((o - 0x100) / 0x10)) else v
    | .nirdor0 =>
      if 0xC0 ≤ o && o < 0xE0 then expW s pg.n (s.fget (pg.base + 0xA0) 9 0) ((o - 0xC0) / 4)
      else if 0xE0 ≤ o && o < 0xE8 then impW s pg.n (s.fget (pg.base + 0xA4) 11 0) ((o - 0xE0) / 4)
      else v
    | .edgeRing => ringReg s o
    | .fieldCtrl => if o = 0x214 then putF v 23 16 (min 255 (suspectCount s pg.n)) else v
    | .ringer => if o = 0x50 then BitVec.ofNat 32 (s.ringer pg.n).calls.length else v
    | .chime0 => if o = 0x60 then BitVec.ofNat 32 (s.ringer pg.n).held.length else v
    | .chimeK =>
      -- chimes that failed their test read zero (assumption log 22)
      if 0x100 ≤ o && o < 0x900 && !chPresent s pg.n ((pg.k - 1) * 128 + (o - 0x100) / 0x10) then 0#32 else v
    | .chimeW =>
      if 0x100 ≤ o && !chPresent s pg.n (s.fget (wBase pg.n ((o - 0x100) / 0x20)) 8 0) then 0#32 else v
    | .reel first =>
      if first && o = 0x40 then putF v 4 0 (inFlight s pg.n)
      else if o = 0x118 then chanStatus s pg.n pg.k else v
    | .hostReel first =>
      if first && o = 0x40 then putF v 4 0 (inFlight s (64 + pg.n))
      else if 0x100 ≤ o && o % 0x100 = 0x18 then chanStatus s (64 + pg.n) ((pg.k - 8) * 4 + (o - 0x100) / 0x100)
      else v
    | .swSel =>
      if o = 0x44 then putB (putB v 0 (badSid s pg.n)) 1 (s.pow pg.n).computeOff else v
    | .power => if o = 0x68 then putF v 11 8 (min 15 (hotHour s pg.n)) else v
    | .ply | .win5 | .win6 | .win7 => windowReg s pg.n pg.k o
    | _ => v

/-- A page of a port that the grade does not have (R21). -/
def absent (s : State) (pg : Page) : Bool := (pg.kind = .nirdor0 || pg.kind = .nirdor1) && !populated s pg.n

/-- What a read of the register at offset `o` of a page finds (R33, R38); MSI-X pages are read apart. A page of an absent port reads its reset
values, with STATE OUT and REASON 0x6 (R21). -/
def pageReg (s : State) (pg : Page) (o : Nat) : Word :=
  match regFields pg.kind o with
  | none => 0#32
  | some _ =>
    if absent s pg then (if o = 0xC then 0x600#32 else pageReset pg o)
    else if pageOut s pg o then
      (if pg.kind = .swSel && o = 0x44 && pg.n != 0 then 1#32 else pageReset pg o)
    else liveReg s pg o

/-- What a read of the register at a BAR0 offset finds. -/
def readReg (s : State) (off : Nat) : Word :=
  match locate off with
  | some pg => pageReg s pg (off - pg.base)
  | none => 0#32

end Sys2Proof.Machine
end

