-- ==== Sys2Proof/Machine/Peals.lean ====
section
/-! DEFINITION. Peals (chapter "Peals, strokes and runs", R321 to R324): the image, its checks, the CRC-64 of
R476, and the accesses that a command makes through its host port. -/
namespace Sys2Proof.Machine

/-! ### CRC-64 (R476) -/

/-- One bit of the CRC's shift register. -/
def crcBit (c : BitVec 64) : BitVec 64 :=
  if c.getMsbD 0 then (c <<< 1) ^^^ 0x42F0E1EBA9EA3693#64 else c <<< 1

/-- One byte, most significant bit first. -/
def crcByte (c : BitVec 64) (b : Byte) : BitVec 64 := iter 8 (fun _ c => crcBit c) (c ^^^ (b.setWidth 64 <<< 56))

/-- The CRC-64 of a byte stream. -/
def crc64 (l : List Byte) : BitVec 64 := l.foldl crcByte 0#64

/-- The bytes of a line, in EA order (R8). -/
def lineBytes (d : BitVec 256) : List Byte := toBytesLE 32 d.toNat

/-! ### Accesses of a command through its port (R392, R398) -/

/-- Whether a line is mapped for host port h: engine memory, or window h (R26, R392). -/
def portLine (s : State) (h ea : Nat) : Bool :=
  match decodeEA s ea with
  | .unmapped => false
  | .host h' w => h' = h && windowMaps s h w 32
  | _ => true

def portMapped (s : State) (h ea n : Nat) : Bool := (List.range n).all (fun i => portLine s h (ea + 32 * i))

/-- Whether function 1 of a port may name the lines: window h or an enabled grant window (R317). -/
def granted (s : State) (rq : Req) (ea n : Nat) : Bool :=
  let h := rq.port.val
  let within := fun b z a => decide (b ≤ a) && decide (a + 32 ≤ b + z)
  !rq.fn1 || (List.range n).all (fun i =>
    within (0x800000000000 + h * 0x200000000000) 0x200000000000 (ea + 32 * i)
    || (List.range 4).any (fun g => grantOn s h g && within (grantBase s h g) (grantPages s h g * 4096) (ea + 32 * i)))

/-- The page that counts what a command's accesses meet: REEL_STATUS's page of the host reel that makes
them (R328, R478). -/
def moverPage (rq : Req) : Nat := reelPage (64 + rq.port.val)

/-- Whether an access of n lines must wait: for the data link of its port (R402), or at a bobbin (R279, R291), in controller cycle t where the
command names it. -/
def mustWait (s : State) (rq : Req) (t : Option Nat) (write : Bool) (ea n : Nat) : Bool :=
  decide (n ≠ 0) && portMapped s rq.port.val ea n
    && (if hostEa ea then hostDown s rq.port.val else bankHeld s rq.port.val t write ea n)

/-- The first n lines of host memory that reads return, marked where a read failed; for every read that failed, whether it came poisoned; and the
reads left. -/
def takeReads : Nat → List HostRead → List Line × List Bool × List HostRead
  | _, [] => ([], [], [])
  | 0, rs => ([], [], rs)
  | n + 1, r :: rs =>
    let ls : List Line := (r.lines.take (n + 1)).map (fun d => ⟨d, r.failed.isSome⟩)
    let rest := takeReads (n + 1 - ls.length) rs
    (ls ++ rest.1, r.failed.toList ++ rest.2.1, rest.2.2)

/-- The findings left after a read of n lines of engine memory. -/
def condsLeft (s : State) (ea n : Nat) (conds : List Cond) : List Cond :=
  if hostEa ea then conds else conds.drop (runConds * (runsFrom s n (ea / 32 * 32) n).length)

/-- Read n lines for a command, and the host reads left; each read of host memory that fails counts (R401), and lines that no read returns
are those of one that failed. -/
def portRead (s : State) (rq : Req) (t ea n : Nat) (host : List HostRead) (conds : List Cond) : (List Line × List HostRead) × State :=
  let h := rq.port.val
  if n = 0 then (([], host), s)
  else if !portMapped s h ea n then ((List.replicate n {}, host), s.eaUnmapped (moverPage rq))
  else if hostEa ea then
    let s := s.emit (.hostRead h rq.fn1 (hostAddr s h (ea % 0x200000000000)) (32 * n))
    let r := takeReads n host
    let s := forEach r.2.1 (fun p s => hostReadError s h p) s
    if r.1.length = n then ((r.1, r.2.2), s)
    else (let (ls, s) := (hostReadError s h false).freeLines (n - r.1.length); ((r.1 ++ ls, r.2.2), s))
  else
    let (ls, s) := eaLines s (moverPage rq) h t (ea / 32 * 32) n conds
    ((ls, host), s)

/-- Write lines for a command; `relaxed` says whether relaxed ordering may apply (R398). Whether the write is acknowledged, a write to the host
window by its flush (R304, R228). -/
def portWrite (s : State) (rq : Req) (t : Option Nat) (ea : Nat) (lines : List Line) (relaxed : Bool) : Bool × State :=
  let h := rq.port.val
  if lines = [] then (true, s)
  else if !portMapped s h ea lines.length then (true, s.eaUnmapped (moverPage rq))
  else if hostEa ea then
    (true, hostLines s h rq.fn1 (ea % 0x200000000000) lines (relaxed && s.bget (pHost h 0 + 0x54) 2))
  else eaStore s t (moverPage rq) h (ea / 32 * 32) (wholeLines lines)

/-- Whether a write of n lines goes to the window of the command's port, and so needs a flush (R304). -/
def toWindow (s : State) (rq : Req) (ea n : Nat) : Bool := n != 0 && hostEa ea && portMapped s rq.port.val ea n

/-- The flush of a stroke's copies: a zero-length read of the last line written to the window (R398). -/
def flushRead (s : State) (rq : Req) (last : Nat) : State :=
  s.emit (.hostRead rq.port.val rq.fn1 (hostAddr s rq.port.val (last % 0x200000000000)) 0)

/-! ### Records (R322) -/

/-- A record of a peal. A PLY record keeps the peal line at which its image starts. -/
inductive Rec where
  | data (ea : Nat) (body : List Line)
  | ply (sid ply : Nat) (start : Bool) (base at_ : Nat) (image : List Line)
  | chime (c : Nat) (barrier : Bool) (expect value : Nat)
  | watch (f w : Nat) (regs : List Nat)
  | chan (r c : Nat) (body : List Line)
  | port (p : Nat) (x : PortRec)
  | entry (e : Nat) (x : EntryRec)
  | region (x : RegionRec)
  deriving DecidableEq, Repr

/-- The header lines of a peal (R321). -/
structure PealHead where
  id : Nat
  crc : Nat
  lines : Nat
  nrec : Nat
  xs : Nat
  ys : Nat
  wd : Nat
  strict : Bool
  reloads : Bool
  format : Nat
  fields : Nat
  bobbins : Nat
  deriving DecidableEq, Repr

def pealHead (l0 l1 : Nat) : PealHead :=
  { id := fld l0 255 192, crc := fld l0 191 128, lines := fld l0 127 96, nrec := fld l0 95 80, xs := fld l0 79 69,
    ys := fld l0 68 58, wd := fld l0 57 53, strict := l0.testBit 52, reloads := l0.testBit 51, format := fld l0 31 16,
    fields := fld l1 63 0, bobbins := fld l1 127 64 }

/-- The field of a spindle in the shape that a peal is compiled for. -/
def pealField (h : PealHead) (sid : Nat) : Option Nat :=
  if h.xs < 8 || h.xs ≤ sid % 2048 || h.ys ≤ sid / 2048 then none
  else some ((sid / 2048) / 128 * 8 + (sid % 2048) / (h.xs / 8))

/-- Whether a DATA record may write a line (R322). -/
def dataLineOk (s : State) (h : PealHead) (ea : Nat) : Bool :=
  if ea < 0x40000000000 then h.bobbins.testBit (ea / 0x1000000000) && decide (ea % 0x1000000000 < s.capacity)
  else if 0x400000000000 ≤ ea && ea < 0x402000000000 then
    (match pealField h ((ea - 0x400000000000) / 65536) with
     | some f => h.fields.testBit f
     | none => false)
  else false

/-- The counters of an image, which must be zero (R322). -/
def imageCounters (img : List Line) : List Nat :=
  tab 6 (fun k => let o := 0x24 + 8 * k
                  ((nth ({} : Line) img (64 + o / 32)).data.toNat >>> (8 * (o % 32))) % 2 ^ 32)

/-- The record that a header line and its body make; none where it is not well formed. -/
def mkRec (s : State) (h : PealHead) (w at_ : Nat) (body : List Line) : Option Rec :=
  let kind := fld w 7 0
  let n := body.length
  if kind = 1 then
    (let ea := fld w 79 32
     if ea % 32 = 0 && (List.range n).all (fun i => dataLineOk s h (ea + 32 * i)) then some (.data ea body) else none)
  else if kind = 2 then
    (let sid := fld w 52 32
     match pealField h sid with
     | some f =>
       if n = 87 && h.fields.testBit f && imageCounters body = [0, 0, 0, 0, 0, 0] then
         some (.ply sid (fld w 54 53) (w.testBit 55) (fld w 66 56) at_ body) else none
     | none => none)
  else if kind = 5 then
    (let host := w.testBit 32
     let i := fld w 38 33
     let c := fld w 43 39
     if n = 5 && (if host then decide (i < 4) else decide (c < 16)) then
       some (.chan (if host then 64 + i else i) c body) else none)
  else if n ≠ 0 then none
  else if kind = 3 then some (.chime (fld w 46 32) (w.testBit 47) (fld w 63 48) (fld w 95 64))
  else if kind = 4 then some (.watch (fld w 37 32) (fld w 43 38) (tab 6 (fun i => fld w (95 + 32 * i) (64 + 32 * i))))
  else if kind = 6 then
    (if fld w 39 37 < 4 && fld w 87 40 % 32 = 0 then
       some (.port (fld w 36 32) ⟨fld w 39 37, BitVec.ofNat 48 (fld w 87 40), fld w 119 88, fld w 134 120⟩) else none)
  else if kind = 7 then some (.entry (fld w 39 32) ⟨fld w 54 40, fld w 93 64, fld w 127 96⟩)
  else if kind = 8 then some (.region ⟨BitVec.ofNat 48 (fld w 79 32), fld w 111 80, w.testBit 112⟩)
  else none

/-- The records from peal line `at_` on, up to the first that is not well formed, and whether all were. -/
def parseRecs (s : State) (h : PealHead) : Nat → Nat → List Line → List Rec × Bool
  | 0, _, ls => ([], ls.isEmpty)
  | _ + 1, _, [] => ([], false)
  | n + 1, at_, l :: ls =>
    let body := fld l.data.toNat 31 8
    if ls.length < body then ([], false)
    else match mkRec s h l.data.toNat (at_ + 1) (ls.take body) with
      | none => ([], false)
      | some r =>
        let rest := parseRecs s h n (at_ + 1 + body) (ls.drop body)
        (r :: rest.1, rest.2)

def Rec.chimeOf? : Rec → Option Nat | .chime c _ _ _ => some c | _ => none
def Rec.plyOf? : Rec → Option (Nat × Nat) | .ply sid p _ _ _ _ => some (sid, p) | _ => none
def Rec.startOf? : Rec → Option (Nat × Nat) | .ply sid p true _ _ _ => some (sid, p) | _ => none
def Rec.watchOf? : Rec → Option (Nat × Nat) | .watch f w _ => some (f, w) | _ => none
def Rec.chanOf? : Rec → Option (Nat × Nat) | .chan r c _ => some (r, c) | _ => none
def Rec.portOf? : Rec → Option Nat | .port p _ => some p | _ => none
def Rec.entryOf? : Rec → Option Nat | .entry e _ => some e | _ => none

/-- No element stands twice. -/
def distinct {α : Type} [DecidableEq α] : List α → Bool
  | [] => true
  | a :: l => !l.contains a && distinct l

/-- The chimes that a record needs claimed (R322). -/
def Rec.needs : Rec → List Nat
  | .watch f _ regs => [f * 512 + nth 0 regs 0 % 512]
  | .port _ x => [x.done]
  | .entry _ x => [x.admitChime]
  | _ => []

/-- What R322 asks of the records together. -/
def recsOk (rs : List Rec) : Bool :=
  let plies := rs.filterMap Rec.plyOf?
  let starts := (rs.filterMap Rec.startOf?).map (·.1)
  let chimes := rs.filterMap Rec.chimeOf?
  let ports := rs.filterMap Rec.portOf?
  distinct plies && distinct starts && plies.all (fun p => starts.contains p.1)
    && distinct chimes && distinct (rs.filterMap Rec.watchOf?) && distinct (rs.filterMap Rec.chanOf?)
    && distinct ports && distinct (rs.filterMap Rec.entryOf?)
    && rs.all (fun r => r.needs.all chimes.contains)
    && rs.all (fun r => match r with
      | .entry _ x => (List.range 32).all (fun p => !x.ports.testBit p || ports.contains p)
      | _ => true)

/-- The lines of a peal as a head and records, with whether check 3 of R323 passes. -/
def parsePeal (s : State) (ea : Nat) (ls : List Line) : PealHead × List Rec × Bool :=
  let line := fun i => (nth ({} : Line) ls i).data.toNat
  let h := pealHead (line 0) (line 1)
  let rs := parseRecs s h h.nrec 2 (ls.drop 2)
  let wdOk := h.wd = 0 || (decide (16 ≤ h.wd) && decide (h.wd ≤ 30))
  let inBobbin := (List.range ls.length).all (fun i => decide (ea + 32 * i < 0x40000000000))
  (h, rs.1, decide (2 ≤ ls.length) && h.format = 1 && h.lines = ls.length && wdOk && rs.2 && recsOk rs.1
    && (!h.reloads || inBobbin))

/-- The CRC of a peal, its CRC field read as zero (R321). -/
def pealCrc (ls : List Line) : Nat :=
  let l0 := (nth ({} : Line) ls 0).data
  let l0' := l0 &&& ~~~(BitVec.ofNat 256 ((2 ^ 64 - 1) * 2 ^ 128))
  (crc64 (((l0' :: (ls.drop 1).map (·.data)).map lineBytes).flatten)).toNat

/-- Check 6 of R323: used fields and bobbins, the banks of claimed chimes and the pages of claimed channels. -/
def unitsReady (s : State) (fields bobbins : Nat) (chimes : List Nat) (chans : List (Nat × Nat)) : Bool :=
  (List.range 64).all (fun f => (!fields.testBit f || isReady s (pField f)) && (!bobbins.testBit f || isReady s (pBob f 0)))
    && chimes.all (fun c => isReady s (pChime (c / 512) 0)) && chans.all (fun rc => isReady s (chanPage rc.1 rc.2))

end Sys2Proof.Machine
end

