-- ==== Sys2Proof/Machine/Runs.lean ====
section
/-! DEFINITION. The run controller (chapter "Peals, strokes and runs", R316 to R348): its commands, strokes, run
faults, and the commands DIGEST, PROBE and SET_POLICY (R470 to R478). A command row acts on the command that was taken
first and waits (R318). -/
namespace Sys2Proof.Machine

/-! ### Commands (R317 to R320, R390, R391) -/

/-- Bits [hi:lo] of a command's entry. -/
def Cmd.arg (c : Cmd) (hi lo : Nat) : Nat := fld c.entry.toNat hi lo
def Cmd.op (c : Cmd) : Nat := c.arg 7 0

/-- Judge the command taken first when its opcode is `op`. -/
def takeCmd (s : State) (op : Nat) (f : Cmd → State → State) : State :=
  match s.run.taken with
  | c :: rest => if c.op = op then f c (s.modRun (fun r => { r with taken := rest })) else s
  | [] => s

/-- The stroke ID that a command's entries carry (R394). -/
def Cmd.stroke (c : Cmd) : Word := if c.op = 7 then BitVec.ofNat 32 (c.arg 95 64) else 0#32

/-- End a command with a status and detail of R320. -/
def endCmd (s : State) (c : Cmd) (status detail : Nat) (result : BitVec 128 := 0#128) : State :=
  postCpl s c status detail c.stroke result
def endOk (s : State) (c : Cmd) (result : BitVec 128 := 0#128) : State := endCmd s c 0 0 result
def denyCmd (s : State) (c : Cmd) (ea : Bool) : State := endCmd s c 5 (if ea then 0x302 else 0x301)
def badArg (s : State) (c : Cmd) (detail : Nat) : State := endCmd s c 2 detail
def notReady (s : State) (c : Cmd) (detail : Nat) : State := endCmd s c 4 detail

/-- STATE_REFUSED (R319). -/
def stateRefused (s : State) (c : Cmd) : State :=
  let st := s.runState
  let s := endCmd s c 1 st
  let s := (s.bump48 pRun (pRun + 0xA8) 1).raise pRun 2
  addLog s 0x100 1 [c.op, c.rq.port.val, c.rq.fn1.toNat, st, c.arg 63 32] 3

/-- A command legal in the states that `ok` names; privileged ones are denied to function 1 (R317, R320). -/
def legal (s : State) (c : Cmd) (privileged : Bool) (ok : Nat → Bool) (f : State → State) : State :=
  if privileged && c.rq.fn1 then denyCmd s c false
  else if !ok s.runState then stateRefused s c
  else f s

/-- NOP (R390). -/
def cmdNop (s : State) : State := takeCmd s 0 (fun c s => endOk s c)

/-- QUERY (R393). -/
def query (s : State) : State := takeCmd s 0xB (fun c s =>
  let p := ringPage c.rq
  let offs := match c.arg 71 64 with
    | 0 => [pRun + 0x40, pRun + 0x50, pRun + 0x54, pRun + 0x44]
    | 1 => [pGlobal + 0x54, pGlobal + 0x50, pGlobal + 0x58, pGlobal + 0x5C]
    | 2 => [p + 0x68, p + 0x50, p + 0x60, pRun + 0x58]
    | _ => []
  endOk s c (offs.foldr (fun o (a : BitVec 128) => (a <<< 32) ||| (readReg s o).setWidth 128) 0#128))

/-- The policy in force, laid out as ARGS bits [120:64] (R470). -/
def policyWord (p : Policy) : Nat :=
  p.fence.toNat * 2 + p.fenceAt.toNat * 8 + p.hits % 16 * 2 ^ 4 + p.probeS % 65536 * 2 ^ 8 + p.windowH % 65536 * 2 ^ 24
    + p.sweepMin % 65536 * 2 ^ 40 + p.sweepEn.toNat * 2 ^ 56

/-- SET_POLICY (R470). -/
def setPolicy (s : State) : State := takeCmd s 0xA (fun c s => legal s c true (fun _ => true) (fun s =>
  let keep := fun v old => if v = 0 then old else v
  let s := if c.arg 64 64 = 0 then s else s.modBel (fun b =>
    let p := b.policy
    { b with policy := {
        fence := (match c.arg 66 65 with | 0 => false | 1 => true | _ => p.fence)
        fenceAt := c.arg 67 67 = 1
        hits := keep (c.arg 71 68) p.hits
        probeS := keep (c.arg 87 72) p.probeS
        windowH := keep (c.arg 103 88) p.windowH
        sweepMin := keep (c.arg 119 104) p.sweepMin
        sweepEn := c.arg 120 120 = 1 } })
  endOk s c (BitVec.ofNat 128 (policyWord s.belfry.policy))))

/-- PROBE (R472). `flaws` are the vectors that flawed spindles of the range fail. -/
def probeCmd (s : State) (flaws : List Flaw) : State := takeCmd s 9 (fun c s => legal s c true (fun _ => true) (fun s =>
  let rect := rectSids s (c.arg 74 64) (c.arg 90 80) (c.arg 105 96) (c.arg 121 112)
  let id := c.arg 143 128
  let sets := (probeSets s).filter (fun x => id = 0xFFFF || x.1 = id)
  if rect.any s.live then endCmd s c 3 0x103
  else if sets = [] then notReady s c 0x201
  else
    let (r, s) := probeRun s sets (rect.filter (spinUp s)) flaws
    let tail := match r.2.head? with
      | some x => x.1 % 2 ^ 21 * 2 ^ 64 + x.2.1 % 65536 * 2 ^ 96 + x.2.2 % 65536 * 2 ^ 112
      | none => 0
    endOk s c (BitVec.ofNat 128 (r.1 % 2 ^ 32 + r.2.length % 2 ^ 32 * 2 ^ 32 + tail))))

/-! ### DIGEST (R476 to R478) -/

/-- The stretches of lines, as (EA, lines), that a descriptor names; none where it breaks R477. -/
def digestRuns (d : Nat) : Option (List (Nat × Nat)) :=
  if fld d 7 0 = 1 then
    (let ea := fld d 63 16
     let n := fld d 95 64
     let inside := fun a => eaRow a = 0 || eaRow a = 2
     if ea % 32 = 0 && n != 0 && inside ea && inside (ea + 32 * n - 1) then some [(ea, n)] else none)
  else if fld d 7 0 = 2 then
    (let xlo := fld d 18 8
     let xhi := fld d 29 19
     let ylo := fld d 39 30
     let yhi := fld d 49 40
     let ofs := fld d 60 50
     let n := fld d 72 61
     if xlo ≤ xhi && ylo ≤ yhi && 1 ≤ n && ofs + n ≤ 2048 then
       some ((tab (yhi + 1 - ylo) (fun j => tab (xhi + 1 - xlo) (fun i =>
         (storeAddr (sidAt (xlo + i) (ylo + j)) ofs, n)))).flatten)
     else none)
  else none

/-- Whether a line lies in a region declared read-only (R317). -/
def inRo (s : State) (ea : Nat) : Bool :=
  s.run.regions.any (fun r => r.ro && decide (r.ea.toNat ≤ ea) && decide (ea + 32 ≤ r.ea.toNat + 32 * r.lines))

/-- The bytes of a stretch in the stream, and how many of its lines were marked (R478). -/
def digestLines (ls : List Line) : List Byte × Nat :=
  ((ls.map (fun l => if l.bad then List.replicate 32 0#8 else lineBytes l.data)).flatten, (ls.filter (·.bad)).length)

/-- Arguments DESC_EA and DESC_LINES of DIGEST (R476). -/
def Cmd.descEa (c : Cmd) : Nat := c.arg 111 64
def Cmd.descLines (c : Cmd) : Nat := c.arg 117 112

/-- DIGEST at taking: the checks that need no descriptor; its work follows (R318). -/
def digestTake (s : State) : State := takeCmd s 8 (fun c s =>
  let ea := c.descEa
  let n := c.descLines
  if !granted s c.rq ea n then denyCmd s c true
  else if s.runState = 1 then stateRefused s c
  else if ea % 32 != 0 || n = 0 || decide (32 < n) then badArg s c 5
  else if !portMapped s c.rq.port.val ea n then badArg s c 7
  else s.modRun (fun r => { r with digests := r.digests ++ [c] }))

/-- Whether a DIGEST's descriptor need not wait for a link or at a bobbin (R279, R291, R402). -/
def digestReady (s : State) (t : Nat) (c : Cmd) : Bool := !mustWait s c.rq (some t) false c.descEa c.descLines

/-- The work of the first DIGEST taken that need not wait: the descriptors are read and judged, then their lines (R477, R478). It waits while
one of those lines must. -/
def digestWork (s : State) (c : Cmd) (t : Nat) (host : List HostRead) (conds : List Cond) : State :=
  let before := s
  let s := s.modRun (fun r => { r with digests := dropFirst (digestReady before t) r.digests })
  let ea := c.descEa
  let n := c.descLines
  let left := condsLeft s ea n conds
  let ((descs, _), s) := portRead s c.rq t ea n host conds
  let parsed := descs.map (fun l => if l.bad then none else digestRuns l.data.toNat)
  let runs := (parsed.filterMap id).flatten
  let eas := (runs.map (fun r => tab r.2 (fun i => r.1 + 32 * i))).flatten
  let named := ((descs.filter (fun l => !l.bad && fld l.data.toNat 7 0 = 1)).filterMap (fun l => digestRuns l.data.toNat)).flatten
  if named.any (fun r => !granted s c.rq r.1 r.2) then denyCmd s c true
  else if s.running && eas.any (fun a => !inRo s a) then stateRefused s c
  else if parsed.any Option.isNone then badArg s c 5
  else if eas.any (fun a => decodeEA s a = .unmapped) then badArg s c 7
  else if runs.any (fun r => bankHeld before c.rq.port.val (some t) false r.1 r.2) then before
  else
    let r := runs.foldl (fun (a : (BitVec 64 × Nat × List Cond) × State) x =>
      let left := condsLeft a.2 x.1 x.2 a.1.2.2
      let (ls, s) := eaLines a.2 (moverPage c.rq) c.rq.port.val t x.1 x.2 a.1.2.2
      let (bytes, bad) := digestLines ls
      ((bytes.foldl crcByte a.1.1, a.1.2.1 + bad, left), s)) ((0#64, 0, left), s)
    endOk r.2 c (BitVec.ofNat 128 (r.1.1.toNat + eas.length % 2 ^ 32 * 2 ^ 64 + r.1.2.1 % 2 ^ 32 * 2 ^ 96))

/-- DIGEST (R477, R478): the command is taken; the first one taken whose descriptors need not wait for a link does its work (R402). `host` are the
reads of host memory, `conds` how the lines read decode, descriptors in engine memory first; `t` is the controller cycle of bobbin reads. -/
def digest (s : State) (t : Nat) (host : List HostRead) (conds : List Cond) : State :=
  let s := digestTake s
  match s.run.digests.find? (digestReady s t) with
  | none => s
  | some c => digestWork s c t host conds

/-! ### Loading and unloading (R323, R324, R327) -/

/-- The bits of a register that software writes with RW or RWP access (R9). -/
def takeMask (off : Nat) : Word :=
  match locate off with
  | some pg =>
    (match regFields pg.kind (off - pg.base) with
     | some fs => BitVec.ofNat 32 (fs.foldl (fun m f => if f.acc = .rw || f.acc = .rwp then m ||| maskF f.hi f.lo else m) 0)
     | none => 0#32)
  | none => 0#32

/-- A register takes the RW and RWP bits of a word. -/
def takeReg (s : State) (off : Nat) (v : Word) : State :=
  let m := takeMask off
  s.setReg off ((s.reg off &&& ~~~m) ||| (v &&& m))

/-- Every ply of a spindle becomes EMPTY; `clear` sets EPOCH to 0 as well (R177, R324, R327). -/
def emptyPlies (clear : Bool) (p : Spindle) : Spindle :=
  iter 4 (fun k p => let p := p.setLoaded k false; if clear then p.setEpoch k 0 else p) p

/-- The RUN page shows the peal, and what an earlier one left is cleared (R324, R346). -/
def showPeal (s : State) (h : PealHead) : State :=
  let put := fun (o v : Nat) (s : State) => s.setReg (pRun + o) (BitVec.ofNat 32 v)
  let s := s.fset (pRun + 0x40) 15 12 (h.strict.toNat * 8 + h.reloads.toNat * 2)
  let s := put 0x4C (if h.wd = 0 then 20 else h.wd) s
  let s := put 0x7C (h.id / 2 ^ 32) (put 0x78 h.id s)
  let s := put 0x80 (h.ys * 65536 + h.xs) s
  let s := put 0x8C (h.fields / 2 ^ 32) (put 0x88 h.fields s)
  put 0x94 (h.bobbins / 2 ^ 32) (put 0x90 h.bobbins s)

/-- Checks 3 to 6 of R323: status and detail of the first that fails. -/
def pealRefusal (s : State) (h : PealHead) (rs : List Rec) (ok : Bool) (ls : List Line) : Option (Nat × Nat) :=
  if !ok then some (2, 1)
  else if h.crc != pealCrc ls then some (2, 2)
  else if s.reg (pGlobal + 0x50) = 0#32 || s.reg (pGlobal + 0x50) != BitVec.ofNat 32 (h.ys * 65536 + h.xs) then some (3, 0x101)
  else if !unitsReady s h.fields h.bobbins (rs.filterMap Rec.chimeOf?) (rs.filterMap Rec.chanOf?) then some (4, 0x201)
  else none

/-- Arguments PEAL_EA and PEAL_LINES of LOAD_PEAL (R321). -/
def Cmd.pealEa (c : Cmd) : Nat := c.arg 111 64
def Cmd.pealLines (c : Cmd) : Nat := c.arg 159 128

/-- LOAD_PEAL at taking: checks 1 and 2 of R323; then the run is LOADING. -/
def loadTake (s : State) : State := takeCmd s 1 (fun c s => legal s c true (fun st => st = 0) (fun s =>
  let ea := c.pealEa
  let n := c.pealLines
  if ea % 32 != 0 then badArg s c 1
  else if !portMapped s c.rq.port.val ea (max 1 n) then badArg s c 7
  else
    let s := (setRunState s 1).modRun (fun r => { r with loadCmd := some c, reading := true, fields := 0, bobbins := 0, starts := [],
                                                         plies := [], chimes := [], watches := [], chans := [], lostFields := 0#64,
                                                         lostBobbins := 0#64, fenceAt := none })
    (s.fset (pRun + 0x40) 15 12 0).fset (pRun + 0x60) 31 31 0))

/-- A check of the peal fails (R316): nothing is claimed. -/
def loadFails (s : State) (c : Cmd) (rs : List Rec) (st d : Nat) : State :=
  let s := forEach (rs.filterMap Rec.plyOf?) (fun x s => s.modSpin x.1 (emptyPlies false)) s
  endCmd ((setRunState s 0).modRun (fun r => { r with loadCmd := none, reading := false })) c st d

/-- Steps 1 and 2 of R324 for a peal whose checks passed with records `rs`; `ls` are its lines as read the second time, up to the first that
is uncorrectable. The loads of step 3 follow. -/
def loadApply (s : State) (c : Cmd) (t : Nat) (h : PealHead) (rs : List Rec) (ls : List Line) : State :=
  let starts := rs.filterMap Rec.startOf?
  let again := (parsePeal s c.pealEa ls).2.1
  let jobs := again.filterMap (fun r => match r with
    | .ply sid p _ base _ img => some (⟨sid, p, base, img⟩ : PlyJob)
    | _ => none)
  let plies := rs.filterMap (fun r => match r with
    | .ply sid p _ base _ _ => some (sid, p, base)
    | _ => none)
  let s := s.modRun (fun r => { r with starts := starts, plies := plies, jobs := jobs, peal := ls, pealEa := BitVec.ofNat 48 c.pealEa,
                                       pealLines := c.pealLines, fields := h.fields, bobbins := h.bobbins, reading := false })
  let s := forEach starts (fun x s => s.modSpin x.1 (fun p => { emptyPlies true p with load := none, loadWait := none })) s
  forEach again (fun r s => match r with
    | .data a body => (eaStore s (some t) pRun c.rq.port.val a (wholeLines body)).2
    | _ => s) s

/-- LOAD_PEAL reads its peal twice (R323, R324): checks 3 to 6, then steps 1 and 2. It waits while a line that it writes must (R279, R291). -/
def loadRead (s : State) (c : Cmd) (t : Nat) (host : List HostRead) (conds : List Cond) : State :=
  let before := s
  let ea := c.pealEa
  let n := c.pealLines
  let left := condsLeft s ea n conds
  let ((ls, host), s) := portRead s c.rq t ea n host conds
  if ls.any (·.bad) then runFault s ⟨2, none, none⟩
  else
    let (h, rs, ok) := parsePeal s ea ls
    match pealRefusal s h rs ok ls with
    | some (st, d) => loadFails s c rs st d
    | none =>
      let waits := fun (r : Rec) => match r with
        | .data a body => bankHeld before c.rq.port.val (some t) true a body.length
        | _ => false
      if rs.any waits then before else
      let ((ls, _), s) := portRead s c.rq t ea n host left
      let s := loadApply s c t h rs (ls.takeWhile (fun l => !l.bad))
      if ls.any (·.bad) then runFault s ⟨2, none, none⟩ else s

/-- LOAD_PEAL (R323, R324): the command is taken; its reading waits while it needs a link that is down, and holds up no later command
(R318, R402). -/
def loadPeal (s : State) (t : Nat) (host : List HostRead) (conds : List Cond) : State :=
  let s := loadTake s
  match s.run.loadCmd with
  | none => s
  | some c => if !s.run.reading || mustWait s c.rq (some t) false c.pealEa c.pealLines then s else loadRead s c t host conds

/-- A CHIME record sets CFG, VALUE and RUN and clears CUR and NEXT (R324). -/
def claimChime (s : State) (c : Nat) (barrier : Bool) (expect value : Nat) : State :=
  let f := c / 512
  let k := c % 512
  let s := s.setReg (chBase f k + 4) (BitVec.ofNat 32 (barrier.toNat * 2 ^ 31 + 2 ^ 30 + expect % 65536))
  setSlots (s.setReg (chBase f k) (BitVec.ofNat 32 value)) f k 0 0

/-- A CHANNEL record writes a channel's registers, which a channel at work refuses (R299), and sets RUN (R312). -/
def claimChan (s : State) (r c : Nat) (body : List Line) : State :=
  let b := chanBase r c
  let s := s.setChan r c { s.chan r c with copy := none }
  let s := if chBusy s r c then chanEvent s r c 2
    else
      let word := fun o => BitVec.ofNat 32 (((nth ({} : Line) body (o / 32)).data.toNat >>> (8 * (o % 32))) % 2 ^ 32)
      let s := iter 40 (fun i s => takeReg s (b + 4 * i) (word (4 * i))) s
      let s := s.setReg (b + 0x18) (putB (s.reg (b + 0x18)) 19 false)
      rebase s r c
  s.setReg (b + 0x14) (putB (s.reg (b + 0x14)) 16 true)

/-- LOAD_PEAL_DONE (R324): every ply is loaded; steps 4 and 5, at whose end the RUN page shows the peal. -/
def loadPealDone (s : State) : State :=
  match s.run.loadCmd with
  | none => s
  | some c =>
    if s.runState != 1 || s.run.reading || s.run.jobs != [] then s
    else
      let (h, rs, _) := parsePeal s s.run.pealEa.toNat s.run.peal
      let s := forEach rs (fun r s => match r with
        | .chime k b e v => claimChime s k b e v
        | _ => s) s
      let s := forEach rs (fun r s => match r with
        | .watch f w regs => iter 6 (fun i s => takeReg s (wBase f w + 4 * i) (BitVec.ofNat 32 (nth 0 regs i))) s
        | .chan r c body => claimChan s r c body
        | _ => s) s
      let ports := rs.foldl (fun (m : SMap (Option PortRec)) r => match r with
        | .port p x => SMap.set (fun _ => none) m p (some x)
        | _ => m) []
      let entries := rs.foldl (fun (m : SMap (Option EntryRec)) r => match r with
        | .entry e x => SMap.set (fun _ => none) m e (some x)
        | _ => m) []
      let regions := rs.filterMap (fun r => match r with | .region x => some x | _ => none)
      let s := s.modRun (fun r => { r with chimes := rs.filterMap Rec.chimeOf?, watches := rs.filterMap Rec.watchOf?,
                                           chans := rs.filterMap Rec.chanOf?, ports := ports, entries := entries,
                                           regions := regions, peal := [], loadCmd := none })
      let s := (s.setReg (pRun + 0x44) 0#32).setReg (pRun + 0x48) (s.reg (pRun + 0x48) + 1#32)
      endOk (setRunState (resetFlows (showPeal s h)) 2) c

/-- Everything claimed is released (R327). -/
def release (s : State) : State :=
  let s := forEach s.run.chimes (fun c s =>
    let o := chBase (c / 512) (c % 512) + 4
    s.setReg o (putB (s.reg o) 30 false)) s
  let s := forEach s.run.chans (fun rc s =>
    let o := chanBase rc.1 rc.2 + 0x14
    s.setReg o (putB (s.reg o) 16 false)) s
  let s := forEach s.run.starts (fun x s => s.modSpin x.1 (emptyPlies false)) s
  s.modRun (fun r => { r with plies := [], starts := [], chimes := [], watches := [], chans := [], ports := [], entries := [],
                              regions := [], jobs := [], peal := [], expect := [] })

/-- UNLOAD_PEAL (R327). -/
def unloadPeal (s : State) : State :=
  takeCmd s 2 (fun c s => legal s c true (fun st => st = 2) (fun s => endOk (setRunState (release s) 0) c))

/-! ### Starting and stopping (R325, R326) -/

/-- FIELDS_USED and BOBBINS_USED. -/
def fieldsUsed (s : State) : Nat := (s.reg (pRun + 0x88)).toNat + 2 ^ 32 * (s.reg (pRun + 0x8C)).toNat
def bobbinsUsed (s : State) : Nat := (s.reg (pRun + 0x90)).toNat + 2 ^ 32 * (s.reg (pRun + 0x94)).toNat

/-- The taps become zero, and the START ply becomes active at its SAVED action or ENTRY; nothing is saved of the ply left. -/
def startPly (p : Spindle) (k : Nat) : Spindle :=
  { enterPly (iter 16 (fun t (p : Spindle) => p.clearTap t) p) k with hold := false }

/-- START_RUN (R325). -/
def startRun (s : State) : State := takeCmd s 3 (fun c s => legal s c false (fun st => st = 2) (fun s =>
  let first := BitVec.ofNat 32 (c.arg 95 64)
  let bobs := bobbinsUsed s
  if s.run.lostFields.toNat &&& fieldsUsed s != 0 || s.run.lostBobbins.toNat &&& bobs != 0 then notReady s c 0x203
  else if (List.range 64).any (fun f => bobs.testBit f && s.bget (pBob f 0 + 0x44) 15) then notReady s c 0x202
  else if !unitsReady s (fieldsUsed s) bobs s.run.chimes s.run.chans then notReady s c 0x201
  else
    let s := (s.fset (pRun + 0x40) 14 14 0).fset (pRun + 0x60) 31 31 0
    let s := forEach s.run.chimes (fun k s => saveChime s k) s
    let s := forEach s.run.chans (fun rc s => saveChan s rc.1 rc.2) s
    let s := forEach s.run.starts (fun x s => s.modSpin x.1 (fun p => startPly p x.2)) s
    let s := (s.setReg (pRun + 0x50) first).setReg (pRun + 0x54) first
    let expect := s.run.ports.foldl (fun (m : SMap Word) p => match p.2 with
      | some x => SMap.set (fun _ => 0#32) m p.1 (BitVec.ofNat 32 (chValue s (x.done / 512) (x.done % 512)))
      | none => m) []
    let keep := fun (k : Stroke) => k.stage = .reserved || k.entryDue
    let s := iter s.run.posted.length (fun _ s => s.bump48 pRun (pRun + 0x98) 1) s
    let s := s.modRun (fun r => { r with expect := expect, strokes := r.strokes.filter keep, posted := [], fenceAt := none })
    endOk (setRunState s 3) c))

/-- STOP_RUN (R326). -/
def stopRun (s : State) : State := takeCmd s 4 (fun c s => legal s c false (fun st => st = 3) (fun s =>
  (setRunState s 4).modRun (fun r => { r with stopCmd := some c })))

/-- DRAIN_DONE (R316): every accepted stroke is recorded and every claimed channel reads IDLE. A fence that waited for the last record
faults the run first (R469, R479). -/
def drainDone (s : State) : State :=
  let idle := fun (rc : Nat × Nat) => chState s rc.1 rc.2 = 0
  if s.runState != 4 || s.run.strokes.any Stroke.open_ || !s.run.chans.all idle || s.run.fenceAt.isSome then s
  else
    let cmd := s.run.stopCmd
    let s := (setRunState s 2).modRun (fun r => { r with stopCmd := none, fenceAt := none })
    match cmd with
    | some c => endOk s c
    | none => s

/-- ABORT_RUN (R339). -/
def abortRun (s : State) : State := takeCmd s 5 (fun c s => legal s c false (fun st => 1 ≤ st && st ≤ 4) (fun s =>
  endOk (runFault s ⟨0xB, none, none⟩) c))

/-! ### FAULT_ACK (R338) -/

/-- Whether a message was sent by the placement, a claimed channel or a stroke mover. -/
def runMsg (s : State) (m : Msg) : Bool :=
  !m.isAck &&
  (if m.src.toNat % 2048 != 0x7FF then s.placed m.src.toNat
   else match codeDest (m.src.toNat / 2048) with
    | some (.reel r) =>
      let c := if m.kind ≤ 1 && !m.req then m.ea.toNat / 32 % 64 else m.tag.toNat % 64
      s.run.chans.contains (r, c) || (decide (64 ≤ r) && c = 63)
    | _ => false)

/-- Whether a message stands at a spindle's LOCAL port behind a refusal, where only the new epochs can move it (assumption log 23), or waits in a
Nirdor port for a window, where the reset of the flows discards it (R372). -/
def parked (s : State) (m : Msg) : Bool :=
  match m.dst with
  | .spindle _ => s.mesh.any (fun x => x.waiting && x.dst = m.dst && x.vc = m.vc)
  | .nirdor p => waitsForFlow s p m
  | _ => false

/-- Step 1: every message of the attempt has been delivered, absorbed or discarded, or is parked; the movers' record writes among them, each
with its entry (R333, R336). -/
def drained (s : State) : Bool :=
  s.run.posted = [] && s.run.strokes.all (fun k => !k.entryDue && k.owed.isNone) && s.run.starts.all (fun x => (s.spin x.1).ip = []) && s.mesh.all (fun m => !runMsg s m || parked s m)

/-- The spill regions of a spindle's queues that spill keep arbitrary content (R210): of what they hold and the zero of the tests (R4, R80). -/
def scrambleSpills (s : State) (sid : Nat) : State :=
  forEach (List.range 32) (fun kq s =>
    let k := kq / 8
    let q := kq % 8
    let p := s.spin sid
    if dimsOk (spSize p k q) (spBase p k q) && (spUsed p k q != 0 || (p.skewOf (skewKey k q false)).spilling) then
      iter (spSize p k q) (fun i s =>
        let a := storeAddr sid (spBase p k q + i)
        let l := readLine s a
        let (d, s) := s.mix l.data 0#256
        writeLine s a { l with data := d }) s
    else s) s

/-- What a RUN_ABORT reset does to a spindle (R80), and step 3. -/
def abortSpindle (p : Spindle) : Spindle :=
  let p := iter 4 (fun k p =>
    let p := (emptyQueues p k).setEpoch k (p.epoch k + 1)
    let p := iter 6 (fun i p => p.setCtr k i 0) p
    if p.loaded k then p.setSaved k (p.entry k) else p) p
  iter 16 (fun t (p : Spindle) => p.setTap t 0) { p with fresh := [] }

/-- The RUN_ABORT reset of a spindle: what the EP is writing is absorbed as stale, and spills keep arbitrary content (R80, R210). -/
def abortAt (s : State) (sid : Nat) : State :=
  (scrambleSpills (iter 4 (fun k s => stopArrivals s sid k) s) sid).modSpin sid abortSpindle

/-- Where the lines of each PLY record's image stand in a peal: (SID, ply, base, first line). -/
def imagePlaces (rs : List Rec) : List (Nat × Nat × Nat × Nat) :=
  rs.filterMap (fun r => match r with | .ply sid p _ base at_ _ => some (sid, p, base, at_) | _ => none)

/-- The port through which FAULT_ACK reads the peal again: that of the first FAULT_ACK command, port 0 for a RUN_ABORT reset. -/
def ackPort (s : State) : Nat := ((s.run.ackCmds.head?).map (fun c => c.rq.port.val)).getD 0

/-- Steps 2 to 5. `t` and `conds` serve the reads of the peal where RELOADS is 1. -/
def applyAck (s : State) (t : Nat) (conds : List Cond) : State :=
  let s := forEach s.run.starts (fun x s => abortAt s x.1) s
  let s := s.setReg (pRun + 0x44) (s.reg (pRun + 0x44) + 1#32)
  let s := forEach s.run.chimes (fun k s => restoreChime s k) s
  let s := forEach s.run.chans (fun rc s => restoreChan s rc.1 rc.2) s
  let s := resetFlows s
  let keep := fun (k : Stroke) => k.stage = .reserved || k.entryDue
  let s := s.modRun (fun r => { r with strokes := r.strokes.filter keep, ackApplied := true })
  if !s.bget (pRun + 0x40) 13 then s
  else
    let (ls, s) := eaLines s pRun (ackPort s) t s.run.pealEa.toNat s.run.pealLines conds
    let (_, rs, _) := parsePeal s s.run.pealEa.toNat ls
    let mk := fun (x : Nat × Nat × Nat) =>
      let at_ := ((imagePlaces rs).find? (fun y => y.1 = x.1 && y.2.1 = x.2.1)).map (fun y => y.2.2.2)
      (⟨x.1, x.2.1, x.2.2, (ls.drop (at_.getD 0)).take 87⟩ : PlyJob)
    s.modRun (fun r => { r with jobs := r.plies.map mk })

/-- Once the attempt's messages have drained, and the peal can be read where RELOADS is 1, steps 2 to 5 apply. -/
def ackOnceDrained (s : State) (t : Nat) (conds : List Cond) : State :=
  let reload := s.bget (pRun + 0x40) 13 && bankHeld s (ackPort s) (some t) false s.run.pealEa.toNat s.run.pealLines
  if s.run.acking && !s.run.ackApplied && drained s && !reload then applyAck s t conds else s

/-- FAULT_ACK (R338): the command is taken; once the attempt's messages have drained, steps 2 to 5 apply. -/
def faultAck (s : State) (t : Nat) (conds : List Cond) : State :=
  let s := takeCmd s 6 (fun c s => legal s c false (fun st => st = 5) (fun s =>
    s.modRun (fun r => { r with ackCmds := r.ackCmds ++ [c], acking := true })))
  ackOnceDrained s t conds

/-- FAULT_ACK_DONE (R338). -/
def faultAckDone (s : State) : State :=
  if !s.run.acking || !s.run.ackApplied || s.run.jobs != [] || s.mesh.any (runMsg s) then s
  else
    let cmds := s.run.ackCmds
    let failed := s.run.newFault
    let s := if failed then s
      else if s.bget (pRun + 0x40) 12 then setRunState (release s) 0
      else setRunState s 2
    let s := s.modRun (fun r => { r with ackCmds := [], acking := false, ackApplied := false, newFault := false })
    forEach cmds (fun c s => if failed then endCmd s c 6 (s.fget (pRun + 0x60) 15 8) else endOk s c) s

/-! ### Strokes (R328 to R333, R520) -/

def dPort (l : Line) : Nat := fld l.data.toNat 7 0
def dLines (l : Line) : Nat := fld l.data.toNat 47 16
def dEa (l : Line) : Nat := fld l.data.toNat 95 48
def dOfs (l : Line) : Nat := fld l.data.toNat 127 96
/-- The line that a PARAM descriptor writes (R328). -/
def dParam (l : Line) : Line := ⟨BitVec.ofNat 256 (fld l.data.toNat 255 128), false⟩

def portRec (s : State) (p : Nat) : Option PortRec := SMap.get (fun _ => none) s.run.ports p
def entryRec (s : State) (e : Nat) : Option EntryRec := SMap.get (fun _ => none) s.run.entries e

/-- Arguments of ISSUE_STROKE (R391). -/
def Cmd.entryNo (c : Cmd) : Nat := c.arg 103 96
def Cmd.blockLines (c : Cmd) : Nat := c.arg 109 104
def Cmd.blockEa (c : Cmd) : Nat := c.arg 175 128
def Cmd.recordEa (c : Cmd) : Nat := c.arg 239 192

/-- The stroke with an ID at a stage. -/
def strokeAt (s : State) (id : Word) (st : Stage) : Option Stroke := s.run.strokes.find? (fun k => k.id = id && k.stage = st)

/-- Change the stroke with an ID that stands at a stage. -/
def modStroke (s : State) (id : Word) (st : Stage) (f : Stroke → Stroke) : State :=
  s.modRun (fun r => { r with strokes := mapFirst (fun k => k.id = id && k.stage = st) f r.strokes })

/-- ISSUE_STROKE at taking (R520). -/
def issueStroke (s : State) : State := takeCmd s 7 (fun c s =>
  let id := c.stroke
  let h := c.rq.port.val
  let dup := fun (k : Stroke) => k.id = id && k.stage != .failed
  if !granted s c.rq c.blockEa (max 1 c.blockLines) || !granted s c.rq c.recordEa 1 then denyCmd s c true
  else if s.runState != 3 then stateRefused s c
  else if 64 ≤ (id - s.reg (pRun + 0x50)).toNat then badArg s c 3
  else if s.run.strokes.any dup || s.run.posted.any (fun x => x.1 = id) then badArg s c 4
  else if (entryRec s c.entryNo).isNone then badArg s c 6
  else if c.blockEa % 32 != 0 || c.recordEa % 32 != 0 || c.blockLines = 0 || decide (32 < c.blockLines) then badArg s c 5
  else if !portMapped s h c.blockEa c.blockLines || !portMapped s h c.recordEa 1 then badArg s c 7
  else s.modRun (fun r => { r with strokes := r.strokes ++ [{ id := id, cmd := c, stage := .reserved, descs := [], targets := [] }] }))

/-- Whether a block holds exactly one descriptor for each port of the entry, each within its port's limit
(R329). -/
def blockOk (s : State) (e : EntryRec) (descs : List Line) : Bool :=
  let ports := descs.map dPort
  distinct ports && ports.all (fun p => decide (p < 32) && e.ports.testBit p)
    && (List.range 32).all (fun p => !e.ports.testBit p || ports.contains p)
    && descs.all (fun d => match portRec s (dPort d) with
      | some x => decide ((dOfs d) + (dLines d) ≤ x.limit) && (x.kind != 2 || (dLines d) = 1)
      | none => false)

/-- The descriptors whose EA the engine uses: those of IN and OUT ports (R329). -/
def movedDescs (s : State) (descs : List Line) : List Line :=
  descs.filter (fun d => !d.bad && (match portRec s (dPort d) with | some x => x.kind ≤ 1 | none => false))

/-- STROKE_BLOCK_ARRIVAL (R520): the block of a reserved stroke has arrived. -/
def blockArrival (s : State) (id : Word) (t : Nat) (host : List HostRead) (conds : List Cond) : State :=
  match strokeAt s id .reserved with
  | none => s
  | some k =>
    let c := k.cmd
    if mustWait s c.rq (some t) false c.blockEa c.blockLines then s
    else
      let ((descs, _), s) := portRead s c.rq t c.blockEa c.blockLines host conds
      let moved := movedDescs s descs
      let drop := s.modRun (fun r => { r with strokes := dropFirst (fun x => x.id = id && x.stage = .reserved) r.strokes })
      if moved.any (fun d => !granted s c.rq (dEa d) (max 1 (dLines d))) then denyCmd drop c true
      else if s.runState != 3 then stateRefused drop c
      else if descs.any (·.bad) then badArg drop c 5
      else match entryRec s c.entryNo with
        | none => badArg drop c 5
        | some e =>
          if !blockOk s e descs then badArg drop c 5
          else if moved.any (fun d => !portMapped s c.rq.port.val (dEa d) (max 1 (dLines d))) then badArg drop c 7
          else modStroke s id .reserved (fun k => { k with stage := .accepted, descs := descs })

/-- The engine address of a descriptor's part of its port. -/
def partEa (x : PortRec) (d : Line) : Nat := (x.ea.toNat + 32 * (dOfs d)) % 2 ^ 48

/-- What a stroke's copies have come to: the host reads, findings and targets, the last line written to the window, and whether every write is
acknowledged. -/
structure Copying where
  host : List HostRead
  conds : List Cond
  targets : List (Nat × Word) := []
  window : Option Nat := none
  acked : Bool := true
  st : State

/-- Copy n lines from `src` to `dst` (R328). -/
def copyPart (a : Copying) (rq : Req) (t src dst n : Nat) : Copying :=
  let left := condsLeft a.st src n a.conds
  let ((ls, host), s) := portRead a.st rq t src n a.host a.conds
  let w := if toWindow s rq dst n then some (dst + 32 * (n - 1)) else a.window
  let (ok, s) := portWrite s rq (some t) dst ls true
  { a with host := host, conds := left, window := w, acked := a.acked && ok, st := s }

/-- The stroke with its copies made: those into the window await their flush, and one that is lost is never acknowledged. -/
def copied (a : Copying) (id : Word) (rq : Req) (from_ : Stage) (f : Stroke → Stroke) : State :=
  let s := match a.window with
    | some w => flushRead a.st rq w
    | none => a.st
  modStroke s id from_ (fun k => { f k with flush := a.window.isSome, lost := k.lost || !a.acked })

/-- Whether a descriptor belongs to a port of one of the kinds `p`. -/
def isKind (s : State) (p : Nat → Bool) (d : Line) : Bool :=
  match portRec s (dPort d) with
  | some x => p x.kind
  | none => false

/-- The engine side of a descriptor. -/
def engineEa (s : State) (d : Line) : Nat := ((portRec s (dPort d)).map (fun x => partEa x d)).getD 0

/-- STROKE_COPY_IN (R331): the stroke that is next to be admitted copies its IN and PARAM data in descriptor
order. The mover's copies are made in one step (assumption log 24). -/
def copyIn (s : State) (t : Nat) (host : List HostRead) (conds : List Cond) : State :=
  let id := s.reg (pRun + 0x54)
  match strokeAt s id .accepted with
  | none => s
  | some k =>
    let rq := k.cmd.rq
    let wait := fun (d : Line) => (isKind s (· = 0) d && mustWait s rq (some t) false (dEa d) (dLines d))
      || (isKind s (fun x => x = 0 || x = 2) d && mustWait s rq (some t) true (engineEa s d) (dLines d))
    if !s.running || s.run.fenceAt.isSome || k.descs.any wait then s
    else
      let r := k.descs.foldl (fun (a : Copying) d =>
        match portRec a.st (dPort d) with
        | none => a
        | some x =>
          let e := SMap.get (fun _ => 0#32) a.st.run.expect (dPort d) + 1#32
          let a := { a with st := a.st.modRun (fun r => { r with expect := SMap.set (fun _ => 0#32) r.expect (dPort d) e }),
                            targets := a.targets ++ [((dPort d), e)] }
          if x.kind = 0 then copyPart a rq t (dEa d) (partEa x d) (dLines d)
          else if x.kind = 2 then
            let w := if toWindow a.st rq (partEa x d) 1 then some (partEa x d) else a.window
            let (ok, s) := portWrite a.st rq (some t) (partEa x d) [dParam d] true
            { a with window := w, acked := a.acked && ok, st := s }
          else a) { host := host, conds := conds, st := s }
      copied r id rq .accepted (fun k => { k with stage := .copyingIn, targets := r.targets })

/-- STROKE_ADMIT (R331): every copy is acknowledged; the ADMIT chime is incremented. -/
def admitStroke (s : State) : State :=
  let id := s.reg (pRun + 0x54)
  match strokeAt s id .copyingIn with
  | none => s
  | some k =>
    if !s.running || s.run.fenceAt.isSome || k.flush || k.lost then s
    else
      let h := k.cmd.rq.port.val
      let s := match entryRec s k.cmd.entryNo with
        | none => s
        | some e =>
          if outFive s (pChime (e.admitChime / 512) 0) then s.errUncorr (moverPage k.cmd.rq)
          else send s { dst := .chimes (e.admitChime / 512), vc := 3, kind := 3, src := srcCode (0x80 + h), tag := 63#16,
                        ea := BitVec.ofNat 48 (0x500000000000 + e.admitChime / 4 * 32),
                        arg := BitVec.ofNat 32 (e.admitChime % 4 * 2 ^ 30 + e.add % 2 ^ 30) }
      modStroke (s.setReg (pRun + 0x54) (id + 1#32)) id .copyingIn (fun k => { k with stage := .admitted })

/-- STROKE_COPY_OUT (R331): every DONE chime of an OUT or INPLACE port has reached its target. -/
def copyOut (s : State) (id : Word) (t : Nat) (host : List HostRead) (conds : List Cond) : State :=
  match strokeAt s id .admitted with
  | none => s
  | some k =>
    let rq := k.cmd.rq
    let done := fun (pt : Nat × Word) => match portRec s pt.1 with
      | some x => (x.kind != 1 && x.kind != 3) || reached (chValue s (x.done / 512) (x.done % 512)) pt.2.toNat
      | none => true
    let outs := k.descs.filter (isKind s (· = 1))
    let wait := fun (d : Line) => mustWait s rq (some t) true (dEa d) (dLines d) || mustWait s rq (some t) false (engineEa s d) (dLines d)
    if !s.running || !k.targets.all done || outs.any wait then s
    else
      let r := outs.foldl (fun (a : Copying) d => copyPart a rq t (engineEa a.st d) (dEa d) (dLines d)) { host := host, conds := conds, st := s }
      copied r id rq .admitted (fun k => { k with stage := .copyingOut })

/-- The completion record of a stroke (R332). -/
def recordLine (s : State) (k : Stroke) : Line :=
  let strict := s.bget (pRun + 0x40) 15 && !s.bget (pRun + 0x40) 14
  ⟨BitVec.ofNat 256 (0x5A * 2 ^ 248 + (s.reg (pRun + 0x48)).toNat * 2 ^ 96 + s.abortK % 65536 * 2 ^ 80 + strict.toNat * 2 ^ 72
    + k.cmd.entryNo * 2 ^ 64 + k.cmd.arg 287 256 * 2 ^ 32 + k.id.toNat), false⟩

/-- Whether a stroke with a lower ID has no record yet. -/
def earlierOpen (s : State) (id : Word) (p : Stroke → Bool) : Bool :=
  s.run.strokes.any (fun x => p x && x.id != id && decide ((id - x.id).toNat < 2 ^ 31))

/-- STROKE_RECORD (R331 to R333): every output is acknowledged and every earlier stroke recorded. -/
def recordStroke (s : State) (id : Word) : State :=
  match strokeAt s id .copyingOut with
  | none => s
  | some k =>
    let rq := k.cmd.rq
    if !s.running || k.flush || k.lost || earlierOpen s id Stroke.open_ || mustWait s rq none true k.cmd.recordEa 1 then s
    else
      let (ok, s) := portWrite s rq none k.cmd.recordEa [recordLine s k] false
      modStroke s id .copyingOut (fun k => { k with stage := .recorded, lost := !ok })

/-- STROKE_COMPLETION_ENTRY (R333): the record is written; the entry is posted, also after a run fault (R28), and RUN_NEXT_ID advances when it is
written and its message sent, in ID order. A stroke whose command was discarded by a reset (R387, R402) has no entry, and one whose run an ENGINE
reset has ended moves no register of the RUN page (R426). -/
def strokeEntry (s : State) (id : Word) : State :=
  match strokeAt s id .recorded with
  | none => s
  | some k =>
    if k.lost || earlierOpen s id Stroke.entryDue then s
    else
      let s := if k.cmd.live then endOk s k.cmd else s
      let s := s.modRun (fun r => { r with strokes := dropFirst (fun x => x.id = id && x.stage = .recorded) r.strokes,
                                           posted := if k.ended then r.posted else r.posted ++ [(id, k.cmd.rq)] })
      settle (postOwed s)

/-- RUN_FAULT (R335, R336): a cause of R335 arises. ABORTED is ABORT_RUN's own. -/
def causeFault (s : State) (code : Nat) (field : Option (Fin 64)) (sid : Option SID) : State :=
  if code = 0 || 0xA < code then s else runFault s ⟨code, field.map (·.val), sid.map (·.toNat)⟩

/-! ### The commands -/

/-- LOAD_PEAL (R323, R324). -/
def execLoadPeal (cycle : Nat) (host : List HostRead) (conds : List Cond) (s : State) : Out := .next (loadPeal s cycle host conds)
/-- LOAD_PEAL_DONE (R324). -/
def execLoadPealDone (s : State) : Out := .next (loadPealDone s)
/-- UNLOAD_PEAL (R327). -/
def execUnloadPeal (s : State) : Out := .next (unloadPeal s)
/-- START_RUN (R325). -/
def execStartRun (s : State) : Out := .next (startRun s)
/-- STOP_RUN (R326). -/
def execStopRun (s : State) : Out := .next (stopRun s)
/-- DRAIN_DONE (R316). -/
def execDrainDone (s : State) : Out := .next (drainDone s)
/-- ABORT_RUN (R339). -/
def execAbortRun (s : State) : Out := .next (abortRun s)
/-- FAULT_ACK (R338). -/
def execFaultAck (cycle : Nat) (conds : List Cond) (s : State) : Out := .next (faultAck s cycle conds)
/-- FAULT_ACK_DONE (R338). -/
def execFaultAckDone (s : State) : Out := .next (faultAckDone s)
/-- ISSUE_STROKE (R520). -/
def execIssueStroke (s : State) : Out := .next (issueStroke s)
/-- STROKE_BLOCK_ARRIVAL (R520). -/
def execStrokeBlockArrival (id : Word) (cycle : Nat) (host : List HostRead) (conds : List Cond) (s : State) : Out :=
  .next (blockArrival s id cycle host conds)
/-- STROKE_COPY_IN (R331). -/
def execStrokeCopyIn (cycle : Nat) (host : List HostRead) (conds : List Cond) (s : State) : Out :=
  .next (copyIn s cycle host conds)
/-- STROKE_ADMIT (R331). -/
def execStrokeAdmit (s : State) : Out := .next (admitStroke s)
/-- STROKE_COPY_OUT (R331). -/
def execStrokeCopyOut (id : Word) (cycle : Nat) (host : List HostRead) (conds : List Cond) (s : State) : Out :=
  .next (copyOut s id cycle host conds)
/-- STROKE_RECORD (R333). -/
def execStrokeRecord (id : Word) (s : State) : Out := .next (recordStroke s id)
/-- STROKE_COMPLETION_ENTRY (R333). -/
def execStrokeCompletionEntry (id : Word) (s : State) : Out := .next (strokeEntry s id)
/-- RUN_FAULT (R336). -/
def execRunFault (code : Fin 16) (field : Option (Fin 64)) (sid : Option SID) (s : State) : Out := .next (causeFault s code.val field sid)
/-- DIGEST (R478). -/
def execDigest (cycle : Nat) (host : List HostRead) (conds : List Cond) (s : State) : Out := .next (digest s cycle host conds)
/-- PROBE (R472). -/
def execProbe (flaws : List Flaw) (s : State) : Out := .next (probeCmd s flaws)
/-- SET_POLICY (R470). -/
def execSetPolicy (s : State) : Out := .next (setPolicy s)
/-- QUERY (R393). -/
def execQuery (s : State) : Out := .next (query s)
/-- NOP (R390). -/
def execCmdNop (s : State) : Out := .next (cmdNop s)

end Sys2Proof.Machine
end

