-- ==== Sys2Proof/Machine/Clocks.lean ====
section
/-! DEFINITION. Clocks and the timebase (chapter "Clocks, timebase and resets", R404 to R423): the root mux, holdover
and switches, dividers, the timebase and its load. -/
namespace Sys2Proof.Machine

/-! ### The root source (R405) -/

/-- CLK_STATUS.SOURCE: 0 none, 1 XO, 2 a recovered port, 3 switching. -/
def rootSource (s : State) : Nat := s.fget (pClock + 0x44) 25 24
def rootPort (s : State) : Nat := s.fget (pClock + 0x44) 23 20
def xoArmed (s : State) : Bool := s.bget (pClock + 0x44) 30
def refSel (s : State) : Bool := s.bget (pClock + 0x40) 7
def refPort (s : State) : Nat := s.fget (pClock + 0x40) 11 8

/-- The source that the mux has selected. -/
def curSource (s : State) : ClkSrc :=
  match rootSource s with
  | 1 => .xo
  | 2 => .port (rootPort s)
  | _ => .none

/-- Show a source in CLK_STATUS. -/
def showSource (s : State) (c : ClkSrc) : State :=
  match c with
  | .none => s.fset (pClock + 0x44) 25 24 0
  | .xo => s.fset (pClock + 0x44) 25 24 1
  | .port p => (s.fset (pClock + 0x44) 25 24 2).fset (pClock + 0x44) 23 20 p

/-- The source that R405 gives, if one is available. -/
def chooseSource (s : State) : Option ClkSrc :=
  let port := refSel s && s.clocks.eligible && (s.bget (pClock + 0x40) 16 || !s.clocks.fellBack)
  if port then some (.port (refPort s)) else if xoArmed s then some .xo else none

/-- Both loops open (R408, R411): LOCKED falls, HOLDOVER counts, the timebase ticks from the Belfry clock. -/
def openLoops (s : State) : State :=
  let s := (s.fset (pClock + 0x44) 31 31 1).fset (pClock + 0x44) 28 27 0
  (s.bump48 pClock (pClock + 0x50) 1).setReg (pTb + 0x48) 5#32

/-- Leave a source, which still runs or not (R409). -/
def leave (s : State) (c : ClkSrc) (runs : Bool) : State := s.modClk (fun k => { k with leaving := c, oldRuns := runs })

/-- Request a switch to the source that R405 gives, or coast without one (R412). One to the XO, after the designated port had been selected, is a
fall back (R405). -/
def requestSwitch (s : State) : State :=
  let t := chooseSource s
  let port := t != none && t != some .xo
  let s := s.modClk (fun c => { c with target := t, relocking := false, hadPort := c.hadPort || port,
                                       fellBack := if port then false else c.fellBack || (t = some .xo && c.hadPort) })
  s.fset (pClock + 0x44) 25 24 (if t.isSome then 3 else 0)

/-- Whether a switch or a relock is under way. -/
def switching (s : State) : Bool := s.clocks.target.isSome || s.clocks.relocking

/-- Select the source of R405 when it differs from the present one: from no source at once, from a working one by
a planned switch (R411). -/
def reselect (s : State) : State :=
  if switching s then s
  else match chooseSource s with
    | none => s
    | some t =>
      let cur := curSource s
      if cur = t then s
      else if cur = .none then requestSwitch s
      else requestSwitch (leave (openLoops s) cur true)

/-! ### Losses (R406 to R408) -/

/-- XO_ARMED falls for a failure of the XO (R407). -/
def dropXo (s : State) : State :=
  if xoArmed s then (s.fset (pClock + 0x44) 30 30 0).raise pClock 3 else s

/-- A trip of the root monitor (R408); after an out-of-range loss the old clock still runs (R409). -/
def trip (s : State) (range : Bool) : State :=
  let cur := curSource s
  let s := match cur with
    | .xo => dropXo s
    | .port _ => s.modClk (fun c => { c with eligible := false })
    | .none => s
  let s := openLoops s
  let s := (s.setReg (pClock + 0x60) (s.reg (pTb + 0x40))).setReg (pClock + 0x64) (s.reg (pTb + 0x44))
  requestSwitch (leave (s.raise pClock 0) cur range)

/-- A source fails while the mux is between sources: the one that a switch heads for is given up for what R405 now gives, and the one it
leaves runs no more (R405, R409). -/
def lostBetween (s : State) (c : ClkSrc) (range : Bool) : State :=
  let s := if s.clocks.leaving = c && !range then s.modClk (fun k => { k with oldRuns := false }) else s
  if s.clocks.target = some c then requestSwitch s else s

/-- REF_LOST (R405, R406, R408); `range` says that the frequency was out of range, which is judged only against an armed
XO and for a recovered reference. `old` says that, in a switch from one port to another, it is the source being left that is lost (R409). -/
def refLost (s : State) (range old : Bool) : State :=
  match curSource s with
  | .none =>
    if range && !xoArmed s then s
    else match s.clocks.target, s.clocks.leaving with
      | some (.port p), l =>
        if !old then lostBetween (s.modClk (fun c => { c with eligible := false })) (.port p) range
        else (match l with
          | .port q => lostBetween s (.port q) range
          | _ => s)
      | _, .port p => lostBetween s (.port p) range
      | _, _ => s
  | .xo => if range then s else trip s range
  | .port _ => if range && !xoArmed s then s else trip s range

/-- XO_ARMED (R407): 4,096 clean cycles have passed. -/
def xoQualified (s : State) : State :=
  if xoArmed s || !transitUp s then s
  else reselect ((s.fset (pClock + 0x44) 30 30 1).raise pClock 4)

/-- XO_LOST (R407); `range` as in `refLost`, judged against a locked recovered reference. -/
def xoLost (s : State) (range : Bool) : State :=
  let locked := s.fget (pClock + 0x44) 28 27 = 3
  match curSource s with
  | .xo => if range then s else trip s range
  | .port _ => if range && !locked then s else dropXo s
  | .none => if range then s else lostBetween (dropXo s) .xo range

/-- XO_REQUAL (R407). -/
def xoRequal (s : State) : State := s.fset (pClock + 0x44) 30 30 0

/-! ### Switches (R409 to R411) -/

/-- CLK_CTRL's REF_SEL and REF_PORT take the values of a word (R405); no earlier write waits any more (R429). -/
def applySel (s : State) (v : Word) : State :=
  let same := getB v 7 && refSel s && getF v 11 8 = refPort s
  let s := (s.fset (pClock + 0x40) 7 7 (getF v 7 7)).fset (pClock + 0x40) 11 8 (getF v 11 8)
  reselect (s.modClk (fun c => { c with eligible := c.eligible && same, hadPort := same && c.hadPort, fellBack := false, waitSel := none }))

/-- A privileged write of REF_SEL or REF_PORT; during a switch or relock it waits for RELOCKED (R429). -/
def writeRefSel (s : State) (v : Word) : State :=
  if switching s then s.modClk (fun c => { c with waitSel := some v }) else applySel s v

/-- PORT_ELIGIBLE (R405, R411). -/
def portEligible (s : State) (p : Nat) : State :=
  if !refSel s || refPort s != p || !s.bget (pNirdor p 0 + 0x44) 29 || !populated s p then s
  else reselect (s.modClk (fun c => { c with eligible := true }))

/-- A switch completes: both loops close on the new root. -/
def closeLoops (s : State) (t : ClkSrc) : State :=
  (showSource s t).modClk (fun c => { c with target := none, leaving := .none, oldRuns := false, relocking := true })

/-- SOURCE_SWITCH (R409): both handshakes are given, which takes an old clock that runs. -/
def sourceSwitch (s : State) : State :=
  match s.clocks.target with
  | none => s
  | some t => if s.clocks.oldRuns then closeLoops s t else s

/-- FORCED_SWITCH (R409): the old clock gives no handshake; one that still runs always gives it. -/
def forcedSwitch (s : State) : State :=
  match s.clocks.target with
  | none => s
  | some t => if s.clocks.oldRuns then s else ((closeLoops (s.fset (pClock + 0x44) 29 29 1) t).raise pClock 2).bump48 pClock (pClock + 0x58) 1

/-- RELOCKED (R410, R429). -/
def relocked (s : State) : State :=
  if !s.clocks.relocking then s
  else
    let s := ((s.fset (pClock + 0x44) 31 31 0).fset (pClock + 0x44) 28 27 3).raise pClock 1
    let free := match curSource s with | .port _ => 0 | _ => 4
    let s := s.setReg (pTb + 0x48) (BitVec.ofNat 32 free)
    let wait := s.clocks.waitSel
    let s := s.modClk (fun c => { c with relocking := false, waitSel := none })
    match wait with
    | some v => applySel s v
    | none => reselect s

/-! ### Dividers (R415, R416) -/

/-- The effective divider that a half's settings give (R415). -/
def wantDiv (s : State) (south : Bool) : Nat :=
  let div := if south then s.fget (pClock + 0x40) 6 4 else s.fget (pClock + 0x40) 2 0
  let l := if s.bget (pClock + 0x44) 26 then 4 else 2
  let t := s.bget (pClock + 0x44) (if south then 19 else 18)
  min 5 (max div l + t.toNat)

/-- DIV_CHANGE (R416): a half's divider moves to what its settings give. -/
def divChange (s : State) (south : Bool) : State :=
  let hi := if south then 14 else 10
  let lo := if south then 12 else 8
  if s.fget (pClock + 0x44) hi lo = wantDiv s south then s
  else (s.fset (pClock + 0x44) hi lo (wantDiv s south)).raise pClock 5

/-- CLK_CTRL is written: `v` is what the register takes by R9, `ws` the WS bits written 1 (R405, R407, R421). Every write of the register
writes REF_SEL and REF_PORT. -/
def writeClkCtrl (s : State) (v ws : Word) : State :=
  let ok := fun n => decide (2 ≤ n) && decide (n ≤ 5)
  let s := s.fset (pClock + 0x40) 16 16 (getF v 16 16)
  let s := if ok (getF v 6 4) then s.fset (pClock + 0x40) 6 4 (getF v 6 4) else s
  let s := if ok (getF v 2 0) then s.fset (pClock + 0x40) 2 0 (getF v 2 0) else s
  let s := if getB ws 12 then xoRequal s else s
  writeRefSel s v

/-! ### The timebase (R417 to R420) -/

/-- Set the timebase. -/
def setTb (s : State) (t : Nat) : State :=
  (s.setReg (pTb + 0x40) (BitVec.ofNat 32 t)).setReg (pTb + 0x44) (BitVec.ofNat 32 (t / 2 ^ 32))

/-- TIMEBASE_TICK (R417). -/
def tick (s : State) : State :=
  if !transitUp s then s else setTb s (s.tb + if s.fget (pTb + 0x48) 1 0 = 0 then 1 else 2)

/-- TB_LOAD_GO (R420). The load's tick and the command are one step (assumption log 25). -/
def tbLoadGo (s : State) : State :=
  let l := (s.reg (pTb + 0x50)).toNat + 2 ^ 32 * (s.reg (pTb + 0x54)).toNat
  let d := (2 ^ 64 + l - s.tb) % 2 ^ 64
  if 1 ≤ d && d < 2 ^ 63 then (setTb s l).raise pTb 0 else s.raise pTb 1

/-! ### The commands -/

/-- REF_LOST (R408). -/
def execRefLost (range old : Bool) (s : State) : Out := .next (refLost s range old)
/-- XO_ARMED (R407). -/
def execXoArmed (s : State) : Out := .next (xoQualified s)
/-- XO_LOST (R407). -/
def execXoLost (range : Bool) (s : State) : Out := .next (xoLost s range)
/-- XO_REQUAL (R407). -/
def execXoRequal (s : State) : Out := .next (if pageOut s ⟨.clock, pClock, 5, 0, 0⟩ 0x40 then s else xoRequal s)
/-- REF_SELECT_WRITE (R405): a privileged write of CLK_CTRL's REF_SEL and REF_PORT. -/
def execRefSelectWrite (sel : Bool) (port : Fin 16) (s : State) : Out :=
  .next (if pageOut s ⟨.clock, pClock, 5, 0, 0⟩ 0x40 then s
    else writeRefSel s (BitVec.ofNat 32 (port.val * 256 + sel.toNat * 128)))
/-- PORT_ELIGIBLE (R411). -/
def execPortEligible (port : Fin 16) (s : State) : Out := .next (portEligible s port.val)
/-- SOURCE_SWITCH (R409). -/
def execSourceSwitch (s : State) : Out := .next (sourceSwitch s)
/-- FORCED_SWITCH (R409). -/
def execForcedSwitch (s : State) : Out := .next (forcedSwitch s)
/-- RELOCKED (R410). -/
def execRelocked (s : State) : Out := .next (relocked s)
/-- DIV_CHANGE (R416). -/
def execDivChange (south : Bool) (s : State) : Out := .next (divChange s south)
/-- TIMEBASE_TICK (R417). -/
def execTimebaseTick (s : State) : Out := .next (tick s)
/-- TB_LOAD_GO (R420). -/
def execTbLoadGo (s : State) : Out := .next (if pageOut s ⟨.timebase, pTb, 7, 0, 0⟩ 0x58 then s else tbLoadGo s)

end Sys2Proof.Machine
end

