-- ==== Sys2Proof/Machine/Resets.lean ====
section
/-! DEFINITION. Resets (chapter "Clocks, timebase and resets", R424 to R429), and what happens to a field that is reset,
held out, or loses a power domain (R22, R23, R285, R286, R314, R437). -/
namespace Sys2Proof.Machine

/-! ### The pages of a field -/

/-- Pages that a field's compute domain carries: FIELD_CTRL, REEL and SPINDLE_WINDOW. -/
def computePages (f : Nat) : List Nat := [pField f] ++ tab 16 (pReel f) ++ tab 8 (pWin f)
/-- Those that are OUT while the domain is off (R486); the window stays in service and reads SPINDLE_OFF (R49). -/
def gonePages (f : Nat) : List Nat := [pField f] ++ tab 16 (pReel f)
/-- Pages that stay with the transit domain: RINGER and CHIME_BANK. -/
def transitPages (f : Nat) : List Nat := [pRinger f] ++ tab 6 (pChime f)
def bobPages (f : Nat) : List Nat := tab 3 (pBob f)

/-- STATE and REASON of several pages. -/
def setReadyAll (s : State) (pgs : List Nat) (st reason : Nat) : State := forEach pgs (fun pg s => s.setReady pg st reason) s

/-- Whether a field is held out by the Belfry (R488, R489, R497). -/
def fieldHeld (s : State) (f : Nat) : Bool := s.belfry.held.contains f || s.bget (pMbox 0 + 0x40) 30

/-- Why a field is OUT before its test (R37). -/
def outReason (s : State) (f : Nat) : Nat :=
  if fieldHeld s f || !s.fuses.ok then 2 else if (s.pow f).fuse then 1 else if s.belfry.hot.contains f then 3 else 1

/-- Set PT_STATE.STATE of field f (R484). FUSE_OUT ends only with the fuse's trip (R487). -/
def setPt (s : State) (f v : Nat) : State := s.fset (pPower f + 0x68) 2 0 (if (s.pow f).fuse then 2 else v)

/-- The consecutive samples for which a condition must hold (R485): T / 100 µs + 1. -/
def condSamples (k : Nat) : Nat :=
  if 1000 ≤ k then 11 else if 200 ≤ k then 10001 else if 100 ≤ k then 11
  else if k = 20 then 1 else if k = 21 then 11 else if k = 22 then 100001
  else match k % 10 with
    | 0 => 1 | 1 => 1001 | 2 => 10001 | 3 => 100001 | 4 => 10001 | 5 => 100001 | 6 => 11 | 7 => 1001 | 8 => 101 | _ => 1001

/-- Whether a condition has held for its time. -/
def holds (s : State) (k : Nat) : Bool := decide (condSamples k ≤ SMap.get (fun _ => 0) s.belfry.counts k)

/-! ### What a field loses -/

/-- The spindles of field f lose their state (R80); router port counters stay. -/
def resetSpindles (s : State) (f : Nat) : State :=
  let router := fun (e : Nat × Word) => decide (6 * 4096 + 0x500 ≤ e.1) && decide (e.1 < 7 * 4096)
  let clear := fun (e : Nat × Spindle) =>
    if s.fieldOf e.1 = f then (e.1, ({ win := e.2.win.filter router } : Spindle)) else e
  let mine := fun (a : Nat) => decide (0x400000000000 ≤ a) && decide (a < 0x402000000000)
    && decide (s.fieldOf ((a - 0x400000000000) / 65536) = f)
  { s with spindles := (s.spindles.map clear).filter (fun e => e.2 != {}),
           mem := s.mem.filter (fun c => !mine c.1), marks := s.marks.filter (fun e => !mine (e.1 * 32)) }

/-- The field reel of field f loses what it holds and takes its reset values (R314). -/
def resetFieldReel (s : State) (f : Nat) : State :=
  resetReel (iter 16 (fun k s => s.resetPage (pReel f k) (fun o => o = 0xC)) s) f

/-- What the compute domain of field f holds is lost (R23, R80, R314). -/
def loseCompute (s : State) (f : Nat) : State :=
  let s := resetFieldReel (resetSpindles s f) f
  s.modBel (fun b => { b with buffers := SMap.set (fun _ => none) b.buffers f none })

/-- The controller of bobbin f clears its merge entries and its write-backs, and discards the accesses that it has not accepted, with neither
acknowledgement nor response (R286): every message on its way to it (assumption log 33). -/
def quietBobbin (s : State) (f : Nat) : State :=
  let s := { s with mesh := s.mesh.filter (fun m => m.dst != Dest.bobbin f) }
  s.setBobbin f { s.bobbin f with merges := [], wback := [] }

/-- A changeover in progress is abandoned, and the slot stays on its old die (R286). -/
def abandonCo (s : State) (f : Nat) : State :=
  if (s.bobbin f).coCopying then
    (((s.setBobbin f { s.bobbin f with coCopying := false, written := [] }).fset (pBob f 0 + 0x44) 15 15 0).fset (pBob f 0 + 0x48) 31 31 0).raise (pBob f 0) 3
  else s

/-- The memory domain of field f goes off: its contents are lost (R285, R286). -/
def loseMemory (s : State) (f : Nat) : State :=
  let mine := fun (a : Nat) => decide (a / 0x1000000000 = f)
  let s := quietBobbin s f
  let s := { s with mem := s.mem.filter (fun c => !mine c.1), marks := s.marks.filter (fun e => !mine (e.1 * 32)) }
  s.setPow f { s.pow f with memOff := true }

/-- A loaded peal that uses field f cannot start any more (R325). -/
def placementLost (s : State) (f : Nat) (memory : Bool) : State :=
  if s.runState = 0 then s
  else s.modRun (fun r => { r with lostFields := r.lostFields ||| (1#64 <<< f),
                                   lostBobbins := if memory then r.lostBobbins ||| (1#64 <<< f) else r.lostBobbins })

/-- The compute domain of field f goes off, for `reason` of R37. -/
def computeGone (s : State) (f reason : Nat) : State :=
  let s := if (s.pow f).computeOff then s else loseCompute s f
  let s := placementLost (s.setPow f { s.pow f with computeOff := true }) f false
  setReadyAll s (gonePages f) 0 reason

/-- Both domains of field f go off (R22, R508). -/
def fieldGone (s : State) (f reason : Nat) : State :=
  let s := computeGone s f reason
  let s := if (s.pow f).memOff then s else loseMemory s f
  placementLost (setReadyAll s (bobPages f) 0 reason) f true

/-! ### The parts of ENGINE and FIELD resets -/

/-- Every page of field f but POWER_THERMAL is OUT and not yet tested (R435). -/
def fieldUntested (s : State) (f : Nat) : State := setReadyAll s (computePages f ++ transitPages f ++ bobPages f) 0 1

/-- Field f goes into an ENGINE or FIELD reset (R424, R437); `mesh` says that its mesh registers reset too. A fuse whose FIELD record was withdrawn
is whole again after either, so that the field's test brings its memory domain back (DESIGN CHOICE, assumption log 18). -/
def resetField (s : State) (f : Nat) (mesh : Bool) : State :=
  let s := loseCompute s f
  let s := s.resetPage (pField f) (fun o => o = 0xC || (!mesh && decide (0x180 ≤ o) && decide (o < 0x1A8)))
  let s := iter 8 (fun k s => s.resetPage (pWin f k) (fun o => o = 0xC)) s
  let s := abandonCo (quietBobbin (if mesh then meshStatus s f else s) f) f
  let s := placementLost (s.setPow f { s.pow f with computeOff := true }) f false
  let s := s.setPow f { s.pow f with fuse := (s.pow f).fuse && fieldRecord s f }
  let r := outReason s f
  if r = 1 then setPt (fieldUntested s f) f 4
  else setReadyAll (if r = 3 then setPt s f 1 else s) (gonePages f) 0 r

/-- RST_STATUS while a reset runs, and what it records (R425, R428). -/
def setBusy (s : State) (cls source field : Nat) : State :=
  let s := { s with rstSource := source }
  s.setReg (pReset + 0x44) (BitVec.ofNat 32 (2 ^ 31 + cls * 256 + field % 64))

/-- OFFERED_SHAPE and MAP_STATUS.OFFERED_C for C columns a field; a change raises SHAPE_CHANGE (R52, R448). -/
def offer (s : State) (c : Nat) : State :=
  let w := if c = 0 then 0#32 else BitVec.ofNat 32 (1024 * 65536 + 8 * c)
  let old := s.reg (pGlobal + 0x50)
  ((s.setReg (pGlobal + 0x50) w).fset (pFuse + 0x4C) 23 16 c).raiseIf (old != w) pGlobal 3

/-- A COLD reset (R424 to R427): everything takes its reset state; what flash and fuses hold stays, and start-up
begins. -/
def coldReset (s : State) (source : Nat) : State :=
  let b := s.belfry
  let seq := match b.flashLog.getLast? with | some e => e.seq | none => 0#32
  let keep : Belfry := { slotA := b.slotA, slotB := b.slotB, preferred := b.preferred, trial := b.trial, pending := b.pending,
                         softMap := b.softMap, flashLog := b.flashLog, policy := b.policy, die := b.die,
                         suspects := b.suspects, captures := b.captures, firstCapture := b.firstCapture,
                         tripRecord := b.tripRecord, credential := b.credential, probes := b.probes, boots := b.boots,
                         seq := seq, sessions := b.sessions }
  let t : State := { State.reset with fuses := s.fuses, belfry := keep, out := s.out, freeCtr := s.freeCtr,
                                      pending := s.pending, inputOn := s.inputOn, straps := s.straps }
  setBusy t 0 source 0

/-- An ENGINE reset (R426, R437). Only claims set a chime's RUN bit, so the release clears every one. A DIGEST that waits is no part of the run, and
the entries that strokes are owed follow their OK entries (R395). -/
def engineReset (s : State) (source : Nat) : State :=
  let s := syncVectors s
  let s := if s.runState = 0 then s else runFault s ⟨0xB, none, none⟩
  let acks := s.run.ackCmds
  let s := forEach acks (fun c s => endCmd s c 6 0xB) s
  let s := release s
  let keep := fun (k : Stroke) => k.stage = .reserved || k.stage = .recorded || k.owed.isSome
  let s := s.modRun (fun r =>
    { taken := r.taken, digests := r.digests, strokes := (r.strokes.filter keep).map (fun k => { k with ended := k.stage != .reserved }) })
  let s := s.resetPage pRun (fun o => o = 0xC || o = 0x48)
  let s := iter 64 (fun f s => resetField s f false) s
  let s := iter 4 (fun h s => resetHostReel s h) s
  let s := (s.fset (pClock + 0x44) 26 26 1).setReg (pFuse + 0x4C) 0#32
  let s := updateReady { s with start := .testing }
  let s := iter 64 (fun f s => s.setFmap f { s.fmap f with c := 0, fail := false }) s
  offer (setBusy s 1 source 0) (provisionalCols s)

/-- A FIELD reset of field f (R424, R437). A request by software ends the hold of a fourth switch-off; a field that is still hot stays off (R488). The
release of FIELD_HOLD has ended its own hold before (R497). -/
def fieldReset (s : State) (source f : Nat) : State :=
  let s := syncVectors s
  let s := if source = 2 || !s.belfry.heatHeld.contains f then s
    else s.modBel (fun b => { b with held := b.held.filter (fun g => g != f), heatHeld := b.heatHeld.filter (fun g => g != f),
                                     hot := if holds s (200 + f) then b.hot.filter (fun g => g != f) else b.hot })
  setBusy (resetField s f true) 2 source f

/-- A RUN_ABORT reset (R426): ABORT_RUN followed by FAULT_ACK, or FAULT_ACK alone in FAULTED. -/
def runAbort (s : State) (source : Nat) : State :=
  let s := if s.runState = 5 then s else runFault s ⟨0xB, none, none⟩
  setBusy (s.modRun (fun r => { r with acking := true })) 3 source 0

/-- Whether a reset is in progress. -/
def resetBusy (s : State) : Bool := s.bget (pReset + 0x44) 31

/-- A request for a reset (R425, R429): class, source, field. -/
def requestReset (s : State) (cls source f : Nat) : State :=
  let st := s.runState
  match cls with
  | 0 => coldReset s source
  | 1 => if resetBusy s && decide (s.fget (pReset + 0x44) 9 8 ≤ 1) then s else engineReset s source
  | 2 => if resetBusy s || (usesField s f && (st = 1 || st = 3 || st = 4)) then s.raise pReset 1 else fieldReset s source f
  | _ => if resetBusy s || st = 0 then s.raise pReset 1 else runAbort s source

/-- Whether every field has been tested and mapped, or stays out (R430). -/
def allMapped (s : State) : Bool :=
  s.fget (pFuse + 0x4C) 3 0 = 0 && (List.range 64).all (fun f =>
    !(s.readyState (pField f) = 0 && (s.readyReason (pField f) = 1 || s.readyReason (pField f) = 3)) && s.readyState (pField f) != 1)

/-- RESET_DONE (R427, R428). -/
def resetDone (s : State) : State :=
  let cls := s.fget (pReset + 0x44) 9 8
  let f := s.fget (pReset + 0x44) 5 0
  let tested := !(s.readyState (pField f) = 1) && !(s.readyState (pField f) = 0 && s.readyReason (pField f) = 1)
  let due := match cls with
    | 0 | 1 => s.start = .done
    | 2 => tested
    | _ => !s.run.acking
  if !resetBusy s || !due then s
  else
    let s := s.fset (pReset + 0x44) 31 31 0
    let s := s.setReg (pReset + 0x48) (BitVec.ofNat 32 (cls * 2 ^ 30 + s.rstSource % 16 * 2 ^ 26 + f * 2 ^ 20))
    let s := if cls = 0 then s else s.bump48 pReset (pReset + 0x50) 1
    addLog (s.raise pReset 0) 0x600 1 [cls, s.rstSource, f]

/-! ### The commands -/

/-- RESET_DONE (R427). -/
def execResetDone (s : State) : Out := .next (resetDone s)

end Sys2Proof.Machine
end

