-- ==== Sys2Proof/Machine/Startup.lean ====
section
/-! DEFINITION. Start-up and the defect map (chapter "Start-up, defect maps and grades", R430 to R453). What a test finds, the
column count C_MAX that it leaves and the shift map that the Belfry chooses come with the command; the map is checked against
R443 to R446 (assumption log 26). -/
namespace Sys2Proof.Machine

/-! ### Temperatures (R482, R486)

Sensor j of field f is f × 8 + j. -/

def sensorFailed (s : State) (k : Nat) : Bool := s.belfry.failed.contains k

/-- A temperature register as 1/16 °C. -/
def tempOf (w : Nat) : Int := sext 16 w
def celsius (n : Int) : Int := 16 * n

/-- The temperature of sensor j of field f, and the hottest valid sensor of a field (R486). -/
def fieldTemp (s : State) (f j : Nat) : Int := tempOf (s.fget (pPower f + 0x40 + 4 * j) 15 0)
def hottest (s : State) (f : Nat) : Option Int :=
  ((List.range 8).filter (fun j => !sensorFailed s (f * 8 + j))).foldl (fun (a : Option Int) j =>
    match a with
    | some t => some (max t (fieldTemp s f j))
    | none => some (fieldTemp s f j)) none

/-- Whether a field is at 90 °C or above, where its tests stop and do not start (R453, R486). -/
def tooHot (s : State) (f : Nat) : Bool := match hottest s f with | some t => decide (celsius 90 ≤ t) | none => false

/-! ### The first steps (R430, R435, R500) -/

/-- POWER_ON (R430, R507): the 54 V input is back. -/
def powerOn (s : State) : State := if s.inputOn && s.start = .off then coldReset s 0 else s

/-- Whether the ROM may boot a slot (R500). -/
def slotOk (s : State) (f : Option Firmware) : Bool :=
  match f with
  | some f => f.signed && decide (s.fuses.ar ≤ f.sec)
  | none => false
def slotOf? (b : Belfry) (isB : Bool) : Option Firmware := if isB then b.slotB else b.slotA

/-- The running slot: false A, true B. -/
def runSlot (s : State) : Bool := s.bget (pMbox 0 + 0x40) 27

/-- Store a 48-bit count in a counter pair. -/
def setCount (s : State) (lo n : Nat) : State :=
  (s.setReg lo (BitVec.ofNat 32 n)).fset (lo + 4) 15 0 (n / 2 ^ 32)

/-- A trial that failed is logged (R500): the entry names firmware and the VERSION of the trial's slot; no rule gives its DETAIL (assumption log
36). -/
def logTrial (s : State) (b : Belfry) (isB : Bool) : State :=
  let v := match slotOf? b isB with | some f => f.version.toNat | none => 0
  let (d, s) := s.free 16
  addLog s 0x502 2 [1, v, d.toNat]

/-- BELFRY_BOOT (R430, R500): `upA` and `upB` say whether the firmware of a slot sets UP in time. -/
def belfryBoot (s : State) (upA upB : Bool) : State :=
  if s.start != .booting || !s.inputOn then s
  else
    let b := s.belfry
    let first := b.trial.getD b.preferred
    let good := fun isB => slotOk s (slotOf? b isB) && (if isB then upB else upA)
    let run := if good first then some first else if good (!first) then some (!first) else none
    let failedTrial := b.trial.isSome && run != some first
    match run with
    | none =>
      let s := s.fset (pMbox 0 + 0x40) 26 26 1
      let s := { (s.modBel (fun b => { b with trial := none })) with start := .recovery }
      if failedTrial then logTrial s b first else s
    | some isB =>
      let v := match slotOf? b isB with | some f => f.version | none => 0#32
      let waits := if b.pending = some (!isB) && b.trial.isNone then b.pending else none
      let s := s.modBel (fun b => { b with trial := if failedTrial then none else b.trial, boots := b.boots + 1, tripRecord := false, pending := waits })
      let s := s.setReg (pMbox 0 + 0x40) (BitVec.ofNat 32 (2 ^ 31 + waits.isSome.toNat * 2 ^ 28 + isB.toNat * 2 ^ 27))
      let s := setCount (s.setReg (pMbox 0 + 0x44) v) (pMbox 0 + 0x68) s.belfry.boots
      let s := s.setReg (pMbox 0 + 0x64) s.belfry.seq
      let s := iter 64 (fun f s => s.setReady (pPower f) 3 0) s
      let s := s.setReg (pReset + 0x48) (BitVec.ofNat 32 (s.rstSource % 16 * 2 ^ 26))
      let s := addLog { s with start := .belfryUp } 0x500 1 [isB.toNat, v.toNat, (isB != first).toNat]
      if failedTrial then logTrial s b first else s

/-- TRANSIT_ON (R430, R435): the transit rails come on; also in RECOVERY, where host port H0 serves its channel page (R500). -/
def transitOn (s : State) : State :=
  if !s.inputOn || (s.start != .belfryUp && s.start != .recovery) then s
  else
    let s := if s.start = .recovery then s else { s with start := .transitOn }
    setReadyAll s ([pGlobal, pRun] ++ tab 9 pMbox) 3 0

/-- FUSE_SHEET_READ (R430, R434, R435, R439, R440): the 13 s step, once both loops are locked. `softLost` says that both
copies of the soft map are unreadable; the entry that logs it has a code of its own choosing (assumption log 27). -/
def fuseRead (s : State) (softLost : Bool) : State :=
  if s.start != .transitOn || s.fget (pClock + 0x44) 28 27 != 3 then s
  else
    let s := if softLost then
        (let (c, s) := s.free 16
         let (v, s) := s.free 2
         addLog (s.modBel (fun b => { b with softMap := [] })) c.toNat v.toNat []) else s
    let s := setReadyAll s ([pClock, pReset, pTb, pRing] ++ (tab 32 (fun i => pHost (i / 8) (8 + i % 8)))) 3 0
    let s := iter 4 (fun h s => s.fset (pHost h 8 + 0x40) 21 16 32) s
    let s := { s with start := .testing }
    if !s.fuses.ok then
      let s := s.setReady pFuse 0 5
      iter 64 (fun f s => setPt ((setReadyAll s (computePages f ++ transitPages f ++ bobPages f) 0 2).setPow f
        { s.pow f with computeOff := true, memOff := true }) f 3) s
    else
      let g := s.fuses.grade
      let s := s.setReady pFuse 3 0
      let s := s.setReg (pGlobal + 0x48) (BitVec.ofNat 32 g)
      let s := s.setReg (pGlobal + 0x4C) (BitVec.ofNat 32 (1024 * 65536 + 8 * gradeCols s))
      let s := (s.setReg (pGlobal + 0x40) (s.fuses.id.setWidth 32)).setReg (pGlobal + 0x44) ((s.fuses.id >>> 32).setWidth 32)
      let s := s.setReg (pFuse + 0x40) (BitVec.ofNat 32 (2 ^ 16 + s.fuses.ar % 256 * 256 + g))
      let s := s.setReg (pFuse + 0x44) (BitVec.ofNat 32 s.fuses.records.length)
      let n := s.belfry.softMap.length
      let s := s.setReg (pFuse + 0x48) (BitVec.ofNat 32 ((decide (4096 ≤ n)).toNat * 2 ^ 31 + n))
      let s := iter 16 (fun p s => if populated s p then s else portReady s p 0 6) s
      offer s (provisionalCols s)

/-! ### Starting a field's test (R431, R432) -/

/-- The fields in the order of R431. -/
def testOrder : List Nat :=
  (tab 8 (fun g => (List.range 8).map (fun fy => fieldAt ((g + 8 - fy) % 8) fy))).flatten

/-- Change MAP_STATUS.TESTING, and DONE_FIELDS outside a FIELD reset. -/
def countTesting (s : State) (up : Bool) : State :=
  let n := s.fget (pFuse + 0x4C) 3 0
  s.fset (pFuse + 0x4C) 3 0 (if up then n + 1 else n - 1)
def countDone (s : State) : State :=
  if s.start = .testing then s.fset (pFuse + 0x4C) 15 8 (min 64 (s.fget (pFuse + 0x4C) 15 8 + 1)) else s

/-- Field f is out whole (R437, R448): every page but POWER_THERMAL is OUT for `reason`. -/
def mapOut (s : State) (f : Nat) : State :=
  let s := setReadyAll s (computePages f ++ transitPages f ++ bobPages f) 0 5
  s.setFmap f { s.fmap f with rows := [], c := 0, fail := true, skips := [] }

/-- FM_f (R452). -/
def showMap (s : State) (f cmax : Nat) (rs : List Word) : State :=
  let badPos := (List.range (130 * 152)).filter (fun l => spindleBad rs f (l / 152) (l % 152))
  let gw := ((List.range 64).filter (fun g => !gatewayUp s f g)).length
  let byp := if (s.fmap f).fail then 0 else ((List.range 130).filter (fun pr => (logRow s f pr).isNone)).length
  s.setReg (pFuse + 0x100 + 4 * f) (BitVec.ofNat 32 (cmax % 256 * 2 ^ 24 + min 255 badPos.length * 2 ^ 16 + gw * 256 + byp % 4))

/-- Whether a FIELD record of field f names its electronic fuse (R438, R487). -/
def fuseRecord (s : State) (f : Nat) : Bool :=
  s.belfry.softMap.any (fun e => recKind e.1 = 9 && recField e.1 = f && getF e.2 31 28 = 6)

/-- FIELD_TEST_START (R431, R432, R285): the next untested field that is not too hot (R453), while fewer than 8 are in TESTING. A field with a
FIELD record is not started; a fuse that tripped keeps both its domains off (R22, R487). A memory domain that was off is on again after an ENGINE
reset too (DESIGN CHOICE, assumption log 18). -/
def testStart (s : State) : State :=
  let waits := fun f => s.readyState (pField f) = 0 && s.readyReason (pField f) = 1 && !tooHot s f
  match testOrder.find? waits with
  | none => s
  | some f =>
    if !belfryUp s || !(s.start = .testing || s.start = .done) || decide (8 ≤ s.fget (pFuse + 0x4C) 3 0) then s
    else if fieldRecord s f then
      let s := if fuseRecord s f then s.setPow f { s.pow f with computeOff := true, memOff := true, fuse := true } else s
      updateReady (setPt (showMap (countDone (mapOut s f)) f 0 (records s)) f 4)
    else
      let s := if (s.pow f).memOff then
          (iter 3 (fun k s => s.resetPage (pBob f k) (fun o => o = 0xC)) (syncVectors s)).setBobbin f {} else s
      let s := s.setPow f { s.pow f with computeOff := false, memOff := false, memWasOff := (s.pow f).memWasOff || (s.pow f).memOff }
      countTesting (setPt (setReadyAll s (computePages f ++ transitPages f ++ bobPages f) 1 0) f 0) true

/-! ### The outcome of a field's test (R432, R436, R437, R441, R449 to R451) -/

/-- The test's defects that no record holds yet are recorded and logged (R441, R228). -/
def recordNew (s : State) (f : Nat) (bad : List Word) : State :=
  forEach bad (fun r s =>
    if (records s).contains r then s
    else
      let cause := match recKind r with
        | 3 => if (s.link (LinkId.key ⟨f, recLoc r, recDetail r⟩)).down then 3 else 1
        | _ => 1
      let s := (addSoft s r cause).raise pFuse 0
      addLog s 0x301 2 [r.toNat]) s

/-- The die that serves each slot, lowest slot first (R451): the die its latest records name, else its own, when good; then the
lowest good die that no slot uses. -/
def assignDies (s : State) (f slots : Nat) (goodDie : Nat → Bool) : List (Option Nat) :=
  let named := fun (sl : Nat) => (namedDies s f sl ++ [sl]).find? goodDie
  let first := tab slots named
  (first.foldl (fun (a : List (Option Nat) × List Nat) d =>
    match d with
    | some d => (a.1 ++ [some d], a.2)
    | none =>
      match (List.range 10).find? (fun x => goodDie x && !a.2.contains x) with
      | some x => (a.1 ++ [some x], a.2 ++ [x])
      | none => (a.1 ++ [none], a.2)) ([], first.filterMap id)).1

/-- The bobbin's part (R432, R437, R280, R451); a slot for which no good die remains is lost (R284). An ENGINE reset retests no channel that is down,
but one that fails its test is mapped out (R286, R441); a bobbin whose memory domain has been off takes the COLD test (R437). -/
def bobbinTested (s : State) (f : Nat) (rs : List Word) (out : Bool) : State :=
  let pg := pBob f 0
  let goodDie := fun d => decide (d < 10) && !rs.any (fun r => recKind r = 5 && recField r = f && recLoc r = d)
  let dies := assignDies s f s.gradeSlots goodDie
  let b := s.bobbin f
  let lost := BitVec.ofNat 16 (bitsOf s.gradeSlots (fun i => (nth none dies i).isNone))
  let table := (List.range s.gradeSlots).foldl (fun (m : SMap Nat) i => match nth none dies i with
    | some d => SMap.set (fun x => x) m i d
    | none => m) []
  let s := s.setBobbin f { b with dies := table, lost := lost, failedDie := BitVec.ofNat 16 (bitsOf 10 (fun d => !goodDie d)) }
  let s := s.raiseIf (lost &&& ~~~b.lost != 0#16) pg 6
  let used := (dies.filter Option.isSome).length
  let spares := ((List.range 10).filter goodDie).length - used
  let bad := fun c => rs.any (fun r => recKind r = 6 && recField r = f && recLoc r = c)
  let retest := s.fget (pReset + 0x44) 9 8 != 1 || (s.pow f).memWasOff
  let s := s.setPow f { s.pow f with memWasOff := false }
  let s := iter 32 (fun c s =>
    let r := pBob f 1 + 0x40 + 4 * c
    if retest then s.setReg r (BitVec.ofNat 32 (bad c).toNat) else if bad c then s.setReg r (putB (s.reg r) 0 true) else s) s
  let down := ((List.range 32).filter (chanDown s f)).length
  let s := ((s.fset (pg + 0x44) 23 20 spares).fset (pg + 0x44) 19 16 used).fset (pg + 0x44) 13 8 down
  if out || used = 0 then setReadyAll s (bobPages f) 0 5
  else
    let s := if used < s.gradeSlots || 0 < down then s.setReady pg 2 8 else s.setReady pg 3 0
    (s.setReady (pBob f 1) 3 0).setReady (pBob f 2) 3 0

/-- The chime bank's and the reel's parts (R294, R450). -/
def banksTested (s : State) (f : Nat) (rs : List Word) (out : Bool) : State :=
  let bad := fun (kind n : Nat) => ((List.range n).filter (fun i => rs.any (fun r => recKind r = kind && recField r = f && recLoc r = i))).length
  let chimes := min 512 (544 - bad 7 544)
  let reels := min 16 (18 - bad 8 18)
  let s := s.setFmap f { s.fmap f with chimesGood := chimes, reelGood := reels, gatesOut := out }
  let s := setReadyAll s (tab 6 (pChime f)) (if out || chimes = 0 then 0 else if chimes < 512 then 2 else 3)
    (if out || chimes = 0 then 5 else if chimes < 512 then 8 else 0)
  let s := s.fset (pReel f 0 + 0x40) 21 16 reels
  iter 16 (fun k s =>
    if out || reels ≤ k then s.setReady (pReel f k) 0 5
    else if k = 0 && reels < 16 then s.setReady (pReel f 0) 2 8
    else s.setReady (pReel f k) 3 0) s

/-- Whether a mapped field has a gateway in every take-over group: with none, its bobbin, chime bank and reel are OUT (R446). -/
def gatesJudged (s : State) (f : Nat) (out : Bool) : State :=
  let s := s.setFmap f { s.fmap f with gatesOut := out }
  if out then setReadyAll s (bobPages f ++ tab 6 (pChime f) ++ tab 16 (pReel f)) 0 5 else s

/-- What a peal that is loaded or being loaded takes from a change of the offered shape (R436, R453). -/
def shapeFell (s : State) : State :=
  let used := if loadingPeal s then s.run.fields else fieldsUsed s
  let s := if s.runState = 0 then s
    else s.modRun (fun r => { r with lostFields := r.lostFields ||| BitVec.ofNat 64 used })
  faultIfRunning s ⟨1, none, none⟩

/-- The records that a field's map heeds: the fuse sheet, the soft map, the test, and down links in an ENGINE reset (R437). -/
def inForce (s : State) (bad : List Word) : List Word :=
  records s ++ bad ++ (if s.fget (pReset + 0x44) 9 8 = 1 then
    (s.links.filter (fun kl => kl.2.down)).map (fun kl =>
      let l := LinkId.ofKey kl.1
      defect 3 l.field l.loc l.detail) else [])

/-- The field's links have been tested again (R228, R437): a down link that passes is up again. -/
def linksRetested (s : State) (f : Nat) (bad : List Word) : State :=
  if s.fget (pReset + 0x44) 9 8 = 1 then s
  else
    let fails := fun (k : Nat) => bad.any (fun r => recKind r = 3 && LinkId.key ⟨f, recLoc r, recDetail r⟩ = k)
    let up := s.links.filter (fun kl => (LinkId.ofKey kl.1).field = f && kl.2.down && !fails kl.1)
    meshStatus (forEach up (fun kl s => s.setLink kl.1 { kl.2 with down := false }) s) f

/-- Fields that hold no logical spindle, since the engine offers no shape: each counts as mapped out whole (R436, R437, R448; assumption log 26). -/
def allOut (s : State) : State :=
  forEach ((List.range 64).filter (fun f => decide (2 ≤ s.readyState (pField f)))) (fun f s => mapOut s f) s

/-- A field is mapped: its fenced spindles are out of the map, so their count begins again, and FIELD_CTRL is READY unless a parity failure has
stopped one of its spindles (R460, R465, R468). -/
def fieldMapped (s : State) (f : Nat) : State :=
  let s := s.fset (pField f + 0x214) 15 8 0
  if s.spindles.any (fun e => e.2.dead && s.fieldOf e.1 = f) then s else s.setReady (pField f) 3 0

/-- FIELD_TEST_DONE (R432, R436, R437): `bad` are the units that failed, `cmax` the field's C_MAX, `m` its shift map, `noGates` that no
map keeps a gateway in every take-over group, `others` the maps of fields mapped again at a lower column count. A report that
does not meet R443 to R447 is none of the Belfry's and changes nothing. A field that a FIELD reset has once left mapped out whole stays so until an
ENGINE or COLD reset. -/
def testDone (s : State) (f : Nat) (bad : List Word) (cmax : Nat) (m : ShiftMap) (noGates : Bool) (others : List (Nat × ShiftMap)) : State :=
  let cls := s.fget (pReset + 0x44) 9 8
  let ok := fun (r : Word) => recField r = f && decide (1 ≤ recKind r) && decide (recKind r ≤ 8) && (cls != 1 || recKind r != 3)
  let rs := inForce s bad
  let off := s.cols
  let c := min off cmax
  let alone := resetBusy s && decide (cls = 2)
  let whole := c = 0 || (alone && (decide (cmax < off) || (s.fmap f).fail))
  let lower := !whole && decide (c < off)
  let again := if lower then (List.range 64).filter (fun g => (mapOf s g).isSome) else []
  let base := forEach again (fun g s => s.setFmap g { s.fmap g with c := 0 }) s
  let s1 := forEach again (fun g s => placeMap s rs g c ((others.find? (fun x => x.1 = g)).map (·.2) |>.getD [])) base
  let s2 := placeMap s1 rs f c m
  let mapsOk := mapOk s1 rs f c m && again.all (fun g => mapOk s2 rs g c (s2.fmap g).rows && (gatesOk s2 g || bankless s2 g))
  if s.readyState (pField f) != 1 || !bad.all ok || !(cmax = 0 || cmax = 112 || cmax = 128 || cmax = 144)
      || !colsOk s rs f cmax || (!whole && (!mapsOk || (if noGates then !bankless s2 f else !gatesOk s2 f))) then s
  else
    let s := linksRetested (recordNew s f bad) f bad
    let s := if whole then s else forEach (again ++ [f]) (fun g s => s.setFmap g { (s2.fmap g) with calWait := (s.fmap g).calWait, lastSlot := (s.fmap g).lastSlot }) s
    let s := if !alone && decide (cmax < off) then shapeFell (offer s cmax) else s
    let s := if !alone && cmax = 0 then allOut s else s
    let s := countDone (countTesting s false)
    let s := s.setFmap f { s.fmap f with bad := rs.filter (fun r => recField r = f) }
    let s := if whole then showMap (banksTested (bobbinTested s f rs true) f rs true |> (mapOut · f)) f cmax rs
      else
        let s := banksTested (bobbinTested s f rs noGates) f rs noGates
        let s := setReadyAll s ([pField f, pRinger f] ++ tab 8 (pWin f)) 3 0
        showMap (fieldMapped s f) f cmax rs
    let s := forEach again (fun g s => showMap (gatesJudged (fieldMapped s g) g (!gatesOk s2 g)) g (s.fget (pFuse + 0x100 + 4 * g) 31 24) rs) s
    let s := if s.belfry.back.contains f then
        addLog ((s.modBel (fun b => { b with back := b.back.filter (fun g => g != f) })).raise (pPower f) 1) 0x201 2 [f, s.fget (pPower f + 0x6C) 15 0]
      else s
    updateReady s

/-! ### The end of start-up (R430, R448, R449, R500) -/

/-- MAP_DONE (R430, R448): every field has been mapped, or stays out. -/
def mapDone (s : State) : State :=
  if s.start != .testing || !allMapped s then s
  else
    let cOf := fun f => if s.readyState (pField f) < 2 then 0 else s.fget (pFuse + 0x100 + 4 * f) 31 24
    let c := (List.range 64).foldl (fun a f => min a (cOf f)) (gradeCols s)
    let old := s.cols
    let s := offer s c
    let s := if c < old then shapeFell s else s
    let s := if c = 0 then allOut s else s
    let s := (s.fset (pFuse + 0x4C) 31 31 1).raise pFuse 2
    updateReady { (s.fset (pClock + 0x44) 26 26 0) with start := .done }

/-- TRIAL_CONFIRM (R500): a trial slot that runs is confirmed at MAP_DONE (`ok`), or found unconfirmed after 90 s. -/
def trialConfirm (s : State) (ok : Bool) : State :=
  match s.belfry.trial with
  | none => s
  | some isB =>
    if !belfryUp s || runSlot s != isB then s
    else if ok then
      if s.start != .done then s
      else
        let sec := match slotOf? s.belfry isB with | some f => f.sec | none => 0
        let ar := max s.fuses.ar sec
        let s := s.modBel (fun b => { b with preferred := isB, trial := none })
        { (s.fset (pFuse + 0x40) 15 8 ar) with fuses := { s.fuses with ar := ar } }
    else if s.start = .done then s
    else logTrial (s.modBel (fun b => { b with trial := none })) s.belfry isB

/-! ### The commands -/

/-- POWER_ON (R430). -/
def execPowerOn (s : State) : Out := .next (powerOn s)
/-- BELFRY_BOOT (R500). -/
def execBelfryBoot (upA upB : Bool) (s : State) : Out := .next (belfryBoot s upA upB)
/-- TRANSIT_ON (R430). -/
def execTransitOn (s : State) : Out := .next (transitOn s)
/-- FUSE_SHEET_READ (R439). -/
def execFuseSheetRead (softLost : Bool) (s : State) : Out := .next (fuseRead s softLost)
/-- FIELD_TEST_START (R431). -/
def execFieldTestStart (s : State) : Out := .next (testStart s)
/-- FIELD_TEST_DONE (R432). -/
def execFieldTestDone (field : Fin 64) (bad : List Word) (cmax : Nat) (m : List (Nat × List Nat)) (noGates : Bool)
    (others : List (Nat × List (Nat × List Nat))) (s : State) : Out := .next (testDone s field.val bad cmax m noGates others)
/-- MAP_DONE (R430). -/
def execMapDone (s : State) : Out := .next (mapDone s)
/-- TRIAL_CONFIRM (R500). -/
def execTrialConfirm (ok : Bool) (s : State) : Out := .next (trialConfirm s ok)

end Sys2Proof.Machine
end

