-- ==== Sys2Proof/Machine/Belfry.lean ====
section
/-! DEFINITION. The Belfry (chapter "The Belfry management subsystem", R480 to R501): sensors and policies, the log, and the input
power (R505 to R510). -/
namespace Sys2Proof.Machine

/-! ### Sensors (R482, R483)

Sensor j of field f is f × 8 + j; 512 + f is the field's rail; 576 and 577 the transit rails, 578 the input, 579 and 580 coolant
inlet and outlet. -/

/-- Whether the sample of a sensor is within its range (R482). -/
def inRange (k v : Nat) : Bool :=
  if k < 512 then decide (celsius (-40) ≤ tempOf v) && decide (tempOf v ≤ celsius 150)
  else if k = 576 || k = 577 then decide (v ≤ 2000)
  else decide (celsius (-10) ≤ tempOf v) && decide (tempOf v ≤ celsius 100)

/-- Whether a sampling holds a sample of sensor k within range. -/
def sampleOk (x : Samples) (k : Nat) : Bool :=
  let one := fun (o : Option (BitVec 16)) => match o with
    | some v => inRange k v.toNat
    | none => false
  let pair := fun (o : Option (BitVec 16 × BitVec 16)) (vmax imax : Nat) => match o with
    | some (v, i) => decide (v.toNat ≤ vmax) && decide (i.toNat ≤ imax)
    | none => false
  if k < 512 then one (nth none (nth [] x.temps (k / 8)) (k % 8))
  else if k < 576 then pair (nth none x.rails (k - 512)) 1500 10000
  else if k < 578 then one (nth none x.transit (k - 576))
  else if k = 578 then pair x.input 65000 8000
  else one (nth none x.coolant (k - 579))

/-- The registers that show samples (R482, R484, R494). -/
def showSamples (s : State) (x : Samples) : State :=
  let s := iter 64 (fun f s =>
    let s := iter 8 (fun j s => match nth none (nth [] x.temps f) j with
      | some v => s.fset (pPower f + 0x40 + 4 * j) 15 0 v.toNat
      | none => s) s
    let s := match nth none x.rails f with
      | some (v, i) => (s.setReg (pPower f + 0x60) (BitVec.ofNat 32 (i.toNat * 65536 + v.toNat))).fset (pPower f + 0x64) 15 0 (v.toNat * i.toNat / 10000)
      | none => s
    match hottest s f with
    | some t => s.fset (pPower f + 0x6C) 15 0 (wrapInt 16 t)
    | none => s) s
  let s := iter 2 (fun h s => match nth none x.transit h with
    | some v => s.fset (pMbox 0 + 0x58) (16 * h + 15) (16 * h) v.toNat
    | none => s) s
  let s := match x.input with
    | some (v, i) => (s.setReg (pMbox 0 + 0x4C) (BitVec.ofNat 32 (i.toNat * 65536 + v.toNat))).fset (pMbox 0 + 0x50) 15 0 (v.toNat * i.toNat / 10000)
    | none => s
  let s := iter 2 (fun h s => match nth none x.coolant h with
    | some v => s.fset (pMbox 0 + 0x54) (16 * h + 15) (16 * h) v.toNat
    | none => s) s
  let best := (List.range 64).foldl (fun (a : Option (Int × Nat)) f => match hottest s f, a with
    | some t, some (u, g) => if u < t then some (t, f) else some (u, g)
    | some t, none => some (t, f)
    | none, a => a) none
  match best with
  | some (t, f) => s.setReg (pMbox 0 + 0x5C) (BitVec.ofNat 32 (f * 65536 + wrapInt 16 t))
  | none => s

/-! ### Conditions (R485 to R489) -/

/-- The fields of a half (R14). -/
def halfFields (south : Bool) : List Nat := tab 32 (fun i => i + if south then 32 else 0)
def someHot (s : State) (fs : List Nat) (p : Int → Bool) : Bool := fs.any (fun f => match hottest s f with | some t => p t | none => false)
/-- Every valid sensor of the fields satisfies `p`. -/
def allTemps (s : State) (fs : List Nat) (p : Int → Bool) : Bool :=
  fs.all (fun f => (List.range 8).all (fun j => sensorFailed s (f * 8 + j) || p (fieldTemp s f j)))

def inVolts (s : State) : Nat := s.fget (pMbox 0 + 0x4C) 15 0
def inWatts (s : State) : Nat := s.fget (pMbox 0 + 0x50) 15 0
def inlet (s : State) : Int := tempOf (s.fget (pMbox 0 + 0x54) 15 0)
def outlet (s : State) : Int := tempOf (s.fget (pMbox 0 + 0x54) 31 16)

/-- Whether a condition is met in the present sample. Conditions 1000 + k say that sensor k is missing or out of range; 100 + f and
200 + f that field f is above 100 °C and below 80 °C; the others stand in the tables of R486, R487 and R489, a throttle cause c of
half h beginning with 2 × (5h + c) and ending with the next. A failed coolant or input sensor meets the throttle conditions (R483). -/
def condMet (s : State) (x : Samples) (k : Nat) : Bool :=
  if 1000 ≤ k then !sampleOk x (k - 1000)
  else if 200 ≤ k then someHot s [k - 200] (fun t => decide (t < celsius 80))
  else if 100 ≤ k then someHot s [k - 100] (fun t => decide (celsius 100 < t))
  else if k = 20 then someHot s (List.range 64) (fun t => decide (celsius 105 ≤ t))
  else if k = 21 then decide (62000 < inVolts s)
  else if k = 22 then allTemps s (List.range 64) (fun t => decide (t < celsius 60))
    && (sensorFailed s 579 || decide (inlet s < celsius 60)) && (sensorFailed s 580 || decide (outlet s < celsius 60)) && decide (48000 ≤ inVolts s) && decide (inVolts s ≤ 60000)
  else
    let south := decide (10 ≤ k)
    let wet := sensorFailed s 579 || sensorFailed s 580
    match k % 10 with
    | 0 => someHot s (halfFields south) (fun t => decide (celsius 90 ≤ t))
    | 1 => allTemps s (halfFields south) (fun t => decide (t < celsius 85))
    | 2 => sensorFailed s 579 || decide (celsius 40 < inlet s)
    | 3 => !sensorFailed s 579 && decide (inlet s < celsius 38)
    | 4 => wet || decide (celsius 20 < outlet s - inlet s)
    | 5 => !wet && decide (outlet s - inlet s < celsius 16)
    | 6 => sensorFailed s 578 || decide (inVolts s < 48000)
    | 7 => !sensorFailed s 578 && decide (49000 ≤ inVolts s)
    | 8 => sensorFailed s 578 || decide (32000 < inWatts s)
    | _ => !sensorFailed s 578 && decide (inWatts s < 30000)

def allConds : List Nat := tab 23 (fun i => i) ++ tab 64 (fun f => 100 + f) ++ tab 64 (fun f => 200 + f) ++ tab 581 (fun k => 1000 + k)

/-- The tests of a field in TESTING stop (R453). -/
def stopTest (s : State) (f reason : Nat) : State :=
  if s.readyState (pField f) = 1 then
    setReadyAll (countTesting s false) (computePages f ++ transitPages f ++ bobPages f) 0 reason
  else s

/-- What SLOT_s_CORR and SLOT_s_UNCORR of each slot read, kept for the sliding window of the die policy (R490): the values that differ from those
before, back to the last one older than 24 h. -/
def keepCounts (s : State) : State :=
  let old := fun (e : Nat × Word × Word) => decide (e.1 + 24 * 3600 * tickHz ≤ s.tb)
  iter 64 (fun f s => iter s.gradeSlots (fun sl s =>
    let pg := pBob f 0
    let now := (s.reg (pg + 0x100 + 8 * sl), s.reg (pg + 0x104 + 8 * sl))
    let hist := SMap.get (fun _ => []) s.belfry.slotHist (f * 16 + sl)
    let kept := (hist.filter old).reverse.take 1 ++ hist.filter (fun e => !old e)
    let last := match kept.getLast? with | some e => e.2 | none => (0#32, 0#32)
    let next := if last = now then kept else kept ++ [(s.tb, now)]
    if next = hist then s
    else s.modBel (fun b => { b with slotHist := SMap.set (fun _ => []) b.slotHist (f * 16 + sl) next })) s) s

/-- SENSOR_SAMPLE (R482, R485); the tests of a field that passes 90 °C stop without a failure, and start again when it is cooler (R453). -/
def sensorSample (s : State) (x : Samples) : State :=
  if !belfryUp s then s
  else
    let s := showSamples s x
    let s := s.modBel (fun b => { b with counts := allConds.foldl (fun (m : SMap Nat) k =>
      SMap.set (fun _ => 0) m k (if condMet s x k then SMap.get (fun _ => 0) b.counts k + 1 else 0)) [] })
    keepCounts (forEach ((List.range 64).filter (tooHot s)) (fun f s => stopTest s f 1) s)

/-! ### Fields off and held (R486 to R489, R497) -/

/-- Whether the run is LOADING, RUNNING or DRAINING, where the loss of a used unit faults it (R486, R487). -/
def faultState (s : State) : Bool := s.runState = 1 || s.running

/-- The Belfry holds field f out (R488, R497, R508); a run that used it has lost a power domain (R285, R335). -/
def holdField (s : State) (f : Nat) : State :=
  let used := (usesField s f || usesBobbin s f) && faultState s
  let s := fieldGone (stopTest s f 2) f 2
  let s := s.modBel (fun b => { b with held := b.held.filter (fun g => g != f) ++ [f] })
  let s := addLog ((setPt s f 3).raise (pPower f) 4) 0x201 2 [f, s.fget (pPower f + 0x6C) 15 0]
  if used then runFault s ⟨8, some f, none⟩ else s

/-- Whether the condition of an engine trip holds. -/
def tripDue (s : State) : Bool := holds s 20 || holds s 21

/-- Whether an engine trip governs over the other actions of the policy: it is in force, or due (R486, R487, R489, R501). -/
def tripGoverns (s : State) : Bool := s.bget (pMbox 0 + 0x40) 30 || tripDue s

/-- SENSOR_FAIL (R483, R501). -/
def sensorFail (s : State) (k : Nat) : State :=
  if 580 < k || sensorFailed s k || !holds s (1000 + k) || !belfryUp s then s
  else
    let s := s.modBel (fun b => { b with failed := b.failed ++ [k] })
    let s := addLog s 0x204 2 [if k < 576 then (if k < 512 then k / 8 else k - 512) else 0xFF, k]
    let s := if k < 512 then s.setReg (pPower (k / 8) + 0x40 + 4 * (k % 8)) (putB (s.reg (pPower (k / 8) + 0x40 + 4 * (k % 8))) 16 true) else s
    let s := if k < 576 then s.raise (pPower (if k < 512 then k / 8 else k - 512)) 3 else s
    if k < 512 && 3 ≤ ((List.range 8).filter (fun j => sensorFailed s (k / 8 * 8 + j))).length && !s.belfry.held.contains (k / 8) && !tripGoverns s
    then holdField s (k / 8) else s

/-- THROTTLE_CHANGE (R486, R487): cause c of a half begins or ends. -/
def throttle (s : State) (south : Bool) (c : Nat) : State :=
  let lo := if south then 8 else 0
  let on := s.bget (pMbox 0 + 0x60) (lo + c)
  let k := (if south then 10 else 0) + 2 * c
  if 4 < c || !belfryUp s || !holds s (if on then k + 1 else k) then s
  else
    let s := s.fset (pMbox 0 + 0x60) (lo + c) (lo + c) (!on).toNat
    let mask := s.fget (pMbox 0 + 0x60) (lo + 4) lo
    let t := mask != 0
    let bit := if south then 19 else 18
    if s.bget (pClock + 0x44) bit = t then s
    else addLog ((s.fset (pClock + 0x44) bit bit t.toNat).raise (pMbox 0) 0) 0x200 1 [south.toNat, mask, t.toNat]

/-- HOT_OFF (R486, R488, R453, R501): of a field whose compute domain is on, as PT_STATE shows. -/
def hotOff (s : State) (f : Nat) : State :=
  if 64 ≤ f || !belfryUp s || !holds s (100 + f) || (s.pow f).computeOff || tripGoverns s || s.fget (pPower f + 0x68) 2 0 != 0 then s
  else
    let s := setPt (computeGone (stopTest s f 3) f 3) f 1
    let s := s.modBel (fun b => { b with hot := b.hot ++ [f], hotTimes := SMap.set (fun _ => []) b.hotTimes f (SMap.get (fun _ => []) b.hotTimes f ++ [s.tb]) })
    let s := (s.bump48 (pPower f) (pPower f + 0x70) 1).raise (pPower f) 0
    let s := addLog s 0x201 2 [f, s.fget (pPower f + 0x6C) 15 0]
    let s := if usesField s f && faultState s then runFault s ⟨7, some f, none⟩ else s
    if 4 ≤ hotHour s f then holdField (s.modBel (fun b => { b with heatHeld := b.heatHeld.filter (fun g => g != f) ++ [f] })) f else s

/-- HOT_BACK (R488): the Belfry requests the reset of a field that it does not hold out; during start-up the field is started again
(R453). -/
def hotBack (s : State) (f : Nat) : State :=
  if 64 ≤ f || !belfryUp s || !s.belfry.hot.contains f || s.belfry.held.contains f || !holds s (200 + f) || tripGoverns s then s
  else
    let t := s.modBel (fun b => { b with hot := b.hot.filter (fun g => g != f), back := b.back ++ [f] })
    if s.start = .testing then fieldUntested t f
    else if resetBusy s || (usesField s f && faultState s) then requestReset s 2 2 f
    else requestReset t 2 2 f

/-- The hottest valid sensor of the engine, the first of several: its number and what it reads. -/
def hottestSensor (s : State) : Nat × Nat :=
  let all := (List.range 512).filter (fun k => !sensorFailed s k)
  let top := fun k => all.all (fun j => decide (fieldTemp s (j / 8) (j % 8) ≤ fieldTemp s (k / 8) (k % 8)))
  match all.find? top with
  | some k => (k, s.fget (pPower (k / 8) + 0x40 + 4 * (k % 8)) 15 0)
  | none => (0, 0)

/-- ENGINE_TRIP (R489). -/
def engineTrip (s : State) : State :=
  if !belfryUp s || s.bget (pMbox 0 + 0x40) 30 || !tripDue s then s
  else
    let s := iter 64 (fun f s => setPt (fieldGone (stopTest s f 2) f 2) f 3) s
    let s := (s.fset (pMbox 0 + 0x40) 30 30 1).modBel (fun b => { b with tripRecord := true, hot := [] })
    let s := addLog (s.raise (pMbox 0) 1) 0x203 3
      (if holds s 20 then [(hottestSensor s).1, (hottestSensor s).2] else [578, inVolts s])
    if s.runState = 0 then s else runFault s ⟨8, none, none⟩

/-- TRIP_RECOVERY (R489). -/
def tripRecovery (s : State) : State :=
  if belfryUp s && s.bget (pMbox 0 + 0x40) 30 && holds s 22 then requestReset s 0 2 0 else s

/-- Whether a field's fuse trips at these outputs (R508): compute and memory current in 0.1 A, and whether an output has stood below half its
setpoint for 1 µs. -/
def fuseLimit (compute memory : Nat) (low : Bool) : Bool := decide (9500 < compute) || decide (1200 < memory) || low

/-- FUSE_TRIP (R487, R508, R453). -/
def fuseTrip (s : State) (f compute memory : Nat) (low : Bool) : State :=
  let p := s.pow f
  if !fuseLimit compute memory low || 64 ≤ f || !s.inputOn || p.fuse || (p.computeOff && p.memOff) || !belfryUp s then s
  else
    let testing := decide (s.readyState (pField f) = 1)
    let used := (usesField s f || usesBobbin s f) && faultState s
    let s := fieldGone (stopTest s f 4) f 4
    let s := setPt (s.setPow f { s.pow f with fuse := true }) f 2
    let s := addSoft s (defect 9 f 0 0) 6
    let s := (s.bump48 (pPower f) (pPower f + 0x78) 1).raise (pPower f) 2
    let s := addLog s 0x202 3 [f, (s.reg (pPower f + 0x60)).toNat]
    let s := s.modBel (fun b => { b with hot := b.hot.filter (fun g => g != f) })
    let s := if testing && s.start = .testing then allOut (shapeFell (offer (countDone s) 0)) else s
    updateReady (if used then runFault s ⟨8, some f, none⟩ else s)

/-- What a count of 31 bits has risen by between two readings: one that reads less was cleared, or has wrapped and says so in bit 31 (R42). -/
def countRise (was now : Word) : Nat :=
  let a := getF was 30 0
  let b := getF now 30 0
  if a ≤ b then b - a else if getB now 31 && !getB was 31 then 2 ^ 31 + b - a else b

/-- What a slot's count has risen by over the last 24 h (R490): from the reading at the window's start, or zero at the start of the engine. -/
def slotRise (s : State) (f sl : Nat) (pick : Word × Word → Word) : Nat :=
  let hist := SMap.get (fun _ => []) s.belfry.slotHist (f * 16 + sl)
  let old := fun (e : Nat × Word × Word) => decide (e.1 + 24 * 3600 * tickHz ≤ s.tb)
  let first := match (hist.filter old).getLast? with | some e => pick e.2 | none => 0#32
  let now := pick (s.reg (pBob f 0 + 0x100 + 8 * sl), s.reg (pBob f 0 + 0x104 + 8 * sl))
  (((hist.filter (fun e => !old e)).map (fun e => pick e.2) ++ [now]).foldl (fun (a : Nat × Word) w => (a.1 + countRise a.2 w, w)) (0, first)).1

/-- DIE_SUSPECT (R490). -/
def dieSuspect (s : State) (f sl : Nat) : State :=
  let pg := pBob f 0
  let d := s.belfry.die
  let u := slotRise s f sl (·.2)
  let c := slotRise s f sl (·.1)
  if !belfryUp s || !bobbinOn s f || !(slotsOn s f).contains sl || !(decide (d.uncorrLim ≤ u) || decide (d.corrLim ≤ c)) then s
  else
    let failed := decide (4 * d.uncorrLim ≤ u)
    let spares := s.fget (pg + 0x44) 23 20
    let act := if spares != 0 && (d.autoCo || failed) then 1 else if failed && spares = 0 then 2 else 0
    let s := addLog (s.raise pg 1) 0x302 2 [f, sl, act]
    if act = 1 then requestCo s f sl else if act = 2 then loseSlot s f sl else s

/-! ### The log (R491) -/

/-- The timestamp that hardware keeps for an event of a page, and the half whose copy stamped it (R492): RUN_FAULT_TB, CLAP_LAST_TB and
LOSS_TB. The other stamps of R492 are not those of an event of their page (assumption log 36). -/
def eventStamp (s : State) (pg : Page) (i : Nat) : Option (Nat × Nat) :=
  let at_ := fun (o : Nat) => (s.reg (pg.base + o)).toNat + 2 ^ 32 * (s.reg (pg.base + o + 4)).toNat
  match pg.kind, i with
  | .run, 0 => some (at_ 0x68, Config.runStampSouth.toNat)
  | .clock, 0 => some (at_ 0x60, Config.lossStampSouth.toNat)
  | .fieldCtrl, 7 => some (at_ 0x208, if pg.n < 32 then 0 else 1)
  | _, _ => none

/-- LOG_POLL: every bit of EVT_STATUS and EVT_AGAIN that a poll finds newly set. -/
def logPoll (s : State) : State :=
  if !belfryUp s then s
  else
    let seen := s.regs.filter (fun e => (e.1 % 4096 = 0x18 || e.1 % 4096 = 0x1C) && (locate e.1).isSome && e.2 != 0#32)
    let pages := seen.foldl (fun (a : List Nat) e => if a.contains (e.1 / 4096 * 4096) then a else a ++ [e.1 / 4096 * 4096]) []
    let old := s.belfry.polled
    let new := fun (o : Nat) => s.reg o &&& ~~~(SMap.get (fun _ => 0#32) old o)
    let s := forEach pages (fun p t =>
      let bits := new (p + 0x18) ||| new (p + 0x1C)
      match locate (p + 0x18) with
      | some pg => iter 30 (fun i t => if getB bits i then addLog t i 1 [(s.reg (p + 0x18)).toNat] pg.typ (pg.n * 16 + pg.k) (eventStamp s pg i) else t) t
      | none => t) s
    s.modBel (fun b => { b with polled := seen })

/-- HOURLY_SUMMARY (R491): fields whose corrected counts have changed. The split between lines and SEC-DED words is not kept by the
counters, so the entry draws it (assumption log 28). -/
def hourlySummary (s : State) : State :=
  if !belfryUp s then s
  else iter 64 (fun f s =>
    let total := ((fieldPages f).map (fun pg => s.fget (pg + 0x28) 30 0)).foldl (· + ·) 0
    let old := SMap.get (fun _ => 0) s.belfry.hourly f
    if total = old then s
    else
      let (d, s) := s.free 32
      let s := s.modBel (fun b => { b with hourly := SMap.set (fun _ => 0) b.hourly f total })
      addLog s 0x700 0 [f, total, old, d.toNat]) s

/-- BF_HEARTBEAT (R494). -/
def heartbeat (s : State) : State :=
  if belfryUp s then s.setReg (pMbox 0 + 0x48) (s.reg (pMbox 0 + 0x48) + 1#32) else s

/-! ### Input power (R505 to R509) -/

/-- INPUT_SWITCH_CLOSE (R505, R506): once the studs have held `mv` millivolts, within 44 to 62 V, for 100 ms. -/
def switchClose (s : State) (mv : Nat) : State :=
  if s.inputOn || decide (mv < 44000) || decide (62000 < mv) then s else { s with inputOn := true, start := .off }

/-- Every power domain goes off; flash and fuses stay (R507). -/
def inputLost (s : State) : State :=
  if s.inputOn then { coldReset s 0 with regs := [], inputOn := false, start := .off, rstSource := 0 } else s

/-- INPUT_SWITCH_OPEN (R505, R507): the studs stand at `mv` millivolts, below 42 V for 100 µs or above 64 V for 10 µs. -/
def switchOpen (s : State) (mv : Nat) : State := if decide (mv < 42000) || decide (64000 < mv) then inputLost s else s

/-! ### SMBus (R481, R504) -/

/-- Whether the SMBus target answers at an address: 0x58 plus the straps (R504), while the Belfry has power. -/
def smbusHere (s : State) (a : BitVec 7) : Bool := s.inputOn && a = 0x58#7 + s.straps.setWidth 7

/-- The packet error code of SMBus 2.0 (R481): the CRC-8 of x^8 + x^2 + x + 1 over the bytes of a transfer (PRESUMED, assumption log 37). -/
def pecByte (c b : Nat) : Nat := iter 8 (fun _ x => if 128 ≤ x then (2 * x - 256) ^^^ 7 else 2 * x) (c ^^^ b)
def pec (bs : List Nat) : Nat := bs.foldl pecByte 0

/-- Answer an SMBus read of `n` bytes, followed by their packet error code when the reader takes one. -/
def smbusRead (s : State) (a : BitVec 7) (withPec : Bool) (cmd n v : Nat) : State :=
  let data := toBytesLE n v
  let code := pec ([2 * a.toNat, cmd, 2 * a.toNat + 1] ++ data.map (·.toNat))
  if smbusHere s a then s.emit (.smbus cmd (data ++ if withPec then [BitVec.ofNat 8 code] else [])) else s

def smbusStatus (s : State) (a : BitVec 7) (withPec : Bool) : State :=
  let bit := fun (b : Bool) (i : Nat) => b.toNat * 2 ^ i
  smbusRead s a withPec 0 1 (bit (belfryUp s) 0 + bit (s.bget (pMbox 0 + 0x40) 30) 1 + bit (s.bget (pGlobal + 0x54) 31) 2
    + bit (s.bget (pGlobal + 0x54) 30) 3 + bit (s.fget (pClock + 0x44) 19 18 != 0) 4)

/-- SMBus command 0x10; a write with a packet error code that does not match is ignored. -/
def smbusReset (s : State) (a : BitVec 7) (v : Byte) (code : Option Byte) : State :=
  let ok := match code with
    | some c => decide (c.toNat = pec [2 * a.toNat, 0x10, v.toNat])
    | none => true
  if !smbusHere s a || !belfryUp s || !ok then s else if v = 1#8 then requestReset s 0 3 0 else if v = 2#8 then requestReset s 1 3 0 else s

/-! ### The commands -/

/-- SENSOR_SAMPLE (R482). -/
def execSensorSample (x : Samples) (s : State) : Out := .next (sensorSample s x)
/-- SENSOR_FAIL (R483). -/
def execSensorFail (sensor : Fin 581) (s : State) : Out := .next (sensorFail s sensor.val)
/-- THROTTLE_CHANGE (R487). -/
def execThrottleChange (south : Bool) (cause : Fin 5) (s : State) : Out := .next (throttle s south cause.val)
/-- HOT_OFF (R486). -/
def execHotOff (field : Fin 64) (s : State) : Out := .next (hotOff s field.val)
/-- HOT_BACK (R488). -/
def execHotBack (field : Fin 64) (s : State) : Out := .next (hotBack s field.val)
/-- ENGINE_TRIP (R489). -/
def execEngineTrip (s : State) : Out := .next (engineTrip s)
/-- TRIP_RECOVERY (R489). -/
def execTripRecovery (s : State) : Out := .next (tripRecovery s)
/-- FUSE_TRIP (R487). -/
def execFuseTrip (field : Fin 64) (compute memory : Nat) (low : Bool) (s : State) : Out := .next (fuseTrip s field.val compute memory low)
/-- DIE_SUSPECT (R490). -/
def execDieSuspect (field : Fin 64) (slot : Fin 16) (s : State) : Out := .next (dieSuspect s field.val slot.val)
/-- LOG_POLL (R491). -/
def execLogPoll (s : State) : Out := .next (logPoll s)
/-- HOURLY_SUMMARY (R491). -/
def execHourlySummary (s : State) : Out := .next (hourlySummary s)
/-- BF_HEARTBEAT (R494). -/
def execBfHeartbeat (s : State) : Out := .next (heartbeat s)
/-- INPUT_SWITCH_CLOSE (R506). -/
def execInputSwitchClose (mv : Nat) (s : State) : Out := .next (switchClose s mv)
/-- INPUT_SWITCH_OPEN (R507). -/
def execInputSwitchOpen (mv : Nat) (s : State) : Out := .next (switchOpen s mv)
/-- TRANSIT_OVERCURRENT (R509): either half's regulator opens the input switch. -/
def execTransitOvercurrent (_south : Bool) (s : State) : Out := .next (inputLost s)
/-- SMBUS_STATUS_READ (R481). -/
def execSmbusStatusRead (addr : BitVec 7) (withPec : Bool) (s : State) : Out := .next (smbusStatus s addr withPec)
/-- SMBUS_COOLANT_READ (R481). -/
def execSmbusCoolantRead (addr : BitVec 7) (withPec : Bool) (out : Bool) (s : State) : Out :=
  .next (smbusRead s addr withPec (if out then 2 else 1) 2 (if out then s.fget (pMbox 0 + 0x54) 31 16 else s.fget (pMbox 0 + 0x54) 15 0))
/-- SMBUS_INPUT_READ (R481). -/
def execSmbusInputRead (addr : BitVec 7) (withPec : Bool) (power : Bool) (s : State) : Out :=
  .next (smbusRead s addr withPec (if power then 4 else 3) 2 (if power then inWatts s else inVolts s))
/-- SMBUS_TMAX_READ (R481). -/
def execSmbusTmaxRead (addr : BitVec 7) (withPec : Bool) (s : State) : Out := .next (smbusRead s addr withPec 5 2 (s.fget (pMbox 0 + 0x5C) 15 0))
/-- SMBUS_RESET_WRITE (R481). -/
def execSmbusResetWrite (addr : BitVec 7) (v : Byte) (code : Option Byte) (s : State) : Out := .next (smbusReset s addr v code)

end Sys2Proof.Machine
end

