-- ==== Sys2Proof/Machine/Mailbox.lean ====
section
/-! DEFINITION. The Belfry's mailbox and update path (R495 to R501), and the rows that request a reset. The Belfry handles messages in the
order in which it receives them: a command's row acts on the oldest message when that carries its CMD. -/
namespace Sys2Proof.Machine

/-! ### Messages (R495, R496) -/

/-- Where a message came from: channel pages 1 to 8, or a network session with whether its client is authenticated. In
`Belfry.busy` a channel stands as its page number, session n as 1000 + 2n + 1 when authenticated, else 1000 + 2n. -/
def isChannel (k : Nat) : Bool := decide (k < 1000)
def mbPrivileged (k : Nat) : Bool := decide (k % 2 = 1)

/-- Byte i of a message. -/
def mbByte (ws : List Word) (i : Nat) : Nat := byteOf (nth 0#32 ws (i / 4)).toNat (i % 4)
def mbCmd (ws : List Word) : Nat := mbByte ws 0
def mbLen (ws : List Word) : Nat := mbByte ws 2 + 256 * mbByte ws 3
/-- n bytes of the payload from offset `o`, little-endian; bytes beyond LEN are zero. -/
def mbArg (ws : List Word) (o n : Nat) : Nat := ofBytesLE (tab n (fun i => if o + i < mbLen ws then BitVec.ofNat 8 (mbByte ws (16 + o + i)) else 0#8))

/-- The 64 words of a response. -/
def mbWords (ws : List Word) (status detail : Nat) (payload : List Byte) : List Word :=
  let bytes := payload ++ List.replicate (240 - payload.length) 0#8
  [BitVec.ofNat 32 (mbCmd ws + payload.length * 65536), nth 0#32 ws 1, BitVec.ofNat 32 (status + detail * 65536), 0#32]
    ++ tab 60 (fun i => BitVec.ofNat 32 (ofBytesLE ((bytes.drop (4 * i)).take 4)))

/-- Post a response to its channel or session. -/
def mbPost (s : State) (k : Nat) (ws : List Word) (status detail : Nat) (payload : List Byte) : State :=
  let r := mbWords ws status detail payload
  if isChannel k then
    let pg := pMbox k
    let s := forEach ((List.range 64).zip r) (fun iw s => s.setReg (pg + 0x200 + 4 * iw.1) iw.2) s
    (s.setReg (pg + 0x44) 2#32).raise pg 0
  else s.emit (.network ((k - 1000) / 2) r)

/-- What a command answers: status, detail, payload. -/
abbrev Reply := Nat × Nat × List Byte

def mbOk (p : List Byte := []) : Reply := (0, 0, p)
def mbBad (d : Nat := 1) : Reply := (2, d, [])

/-- Whether the Belfry serves a message: in RECOVERY only INFO and the update commands, on the channel page of function 0 of H0
(R500). -/
def mbServed (s : State) (k cmd : Nat) : Bool :=
  belfryUp s || (s.start = .recovery && k = 1 && (cmd = 1 || (decide (0xA ≤ cmd) && decide (cmd ≤ 0xC))))

/-- The oldest message, when it carries `cmd`: an unprivileged one is denied unless `open_` (R497, R481). A reset that a response precedes comes
before the next message, which is judged on the state that it leaves (R501). -/
def handle (s : State) (cmd : Nat) (open_ : Bool) (f : List Word → State → Reply × State) : State :=
  match s.belfry.busy with
  | [] => s
  | (k, ws) :: rest =>
    if mbCmd ws != cmd || !mbServed s k cmd || s.belfry.resetAfter.isSome then s
    else
      let s := s.modBel (fun b => { b with busy := rest })
      if !open_ && !mbPrivileged k then mbPost s k ws 5 0x301 []
      else
        let (r, s) := f ws s
        mbPost s k ws r.1 r.2.1 r.2.2

/-- A message reaches the Belfry; one whose CMD is unknown is refused (R497), and one that is not served in RECOVERY is never handled (R500). -/
def mbReceive (s : State) (k : Nat) (ws : List Word) : State :=
  if !mbServed s k (mbCmd ws) then s
  else if (mbCmd ws = 0 || decide (0xC < mbCmd ws)) && belfryUp s then mbPost s k ws 2 1 []
  else s.modBel (fun b => { b with busy := b.busy ++ [(k, ws)] })

/-- MB_SEND (R495): MB_CTRL.SEND is written 1 through function `fn1` of a port. -/
def mbSend (s : State) (port : Fin 4) (fn1 : Bool) : State :=
  let k := 1 + 2 * port.val + fn1.toNat
  let pg := pMbox k
  if s.readyState pg < 2 then s
  else if s.bget (pg + 0x44) 0 then s.raise pg 1
  else mbReceive (s.fset (pg + 0x44) 0 0 1) k (tab 64 (fun i => s.reg (pg + 0x100 + 4 * i)))

/-! ### Reading commands -/

def word4 (w : Word) : List Byte := toBytesLE 4 w.toNat

/-- INFO (R497). -/
def mbInfo (s : State) : Reply × State :=
  let b := s.belfry
  let run := runSlot s
  let sec := match slotOf? b run with | some f => f.sec | none => 0
  let other := match slotOf? b (!run) with | some f => f.version | none => 0#32
  (mbOk (word4 (s.reg (pMbox 0 + 0x44)) ++ [BitVec.ofNat 8 run.toNat, BitVec.ofNat 8 s.fuses.ar, BitVec.ofNat 8 sec, BitVec.ofNat 8 (b.probes.length + 1)]
    ++ word4 other ++ [BitVec.ofNat 8 b.pending.isSome.toNat, 0#8, 0#8, 0#8] ++ toBytesLE 8 s.fuses.id.toNat), s)

/-- SENSORS (R497). -/
def mbSensors (ws : List Word) (s : State) : Reply × State :=
  let f := mbArg ws 0 1
  let n := mbArg ws 1 1
  if n = 0 || 7 < n || 64 < f + n then (mbBad, s)
  else
    let head := (tab 7 (fun i => word4 (s.reg (pMbox 0 + 0x4C + 4 * i)))).flatten
    let field := fun (g : Nat) =>
      (tab 8 (fun j => toBytesLE 2 (s.fget (pPower g + 0x40 + 4 * j) 15 0))).flatten ++ word4 (s.reg (pPower g + 0x60))
        ++ toBytesLE 2 (s.fget (pPower g + 0x64) 15 0) ++ toBytesLE 2 (s.fget (pPower g + 0x6C) 15 0) ++ word4 (readReg s (pPower g + 0x68))
    (mbOk (head ++ (tab n (fun i => field (f + i))).flatten), s)

/-- The 32 bytes of a log entry (R492). -/
def logBytes (e : LogEntry) : List Byte :=
  toBytesLE 8 e.tb ++ toBytesLE 1 (e.origin % 4) ++ toBytesLE 1 e.severity ++ toBytesLE 2 e.inst ++ toBytesLE 2 e.typ ++ toBytesLE 2 e.code
    ++ word4 e.seq ++ toBytesLE 12 e.data.toNat

/-- LOG_READ (R497): entries from the first whose SEQ is not before the one asked for. With none, the SEQ returned is unstated. -/
def mbLogRead (ws : List Word) (s : State) : Reply × State :=
  let first := BitVec.ofNat 32 (mbArg ws 0 4)
  let n := mbArg ws 4 1
  let which := mbArg ws 5 1
  if n = 0 || 7 < n || 1 < which then (mbBad, s)
  else
    let log := if which = 0 then s.belfry.ramLog else s.belfry.flashLog
    let es := (log.filter (fun e => decide ((e.seq - first).toNat < 2 ^ 31))).take n
    match es with
    | [] =>
      let (w, s) := s.free 32
      (mbOk (word4 w ++ List.replicate 12 0#8), s)
    | e :: _ => (mbOk (word4 e.seq ++ [BitVec.ofNat 8 es.length] ++ List.replicate 11 0#8 ++ (es.map logBytes).flatten), s)

/-- MAP_READ (R497). -/
def mbMapRead (ws : List Word) (s : State) : Reply × State :=
  let which := mbArg ws 0 1
  let first := mbArg ws 2 2
  let n := mbArg ws 4 1
  if n = 0 || 1 < which || (if which = 0 then 56 else 28) < n then (mbBad, s)
  else if which = 0 then
    (mbOk (toBytesLE 2 s.fuses.records.length ++ List.replicate 14 0#8 ++ (((s.fuses.records.drop first).take n).map word4).flatten), s)
  else
    let l := (s.belfry.softMap.drop first).take n
    (mbOk (toBytesLE 2 s.belfry.softMap.length ++ List.replicate 14 0#8 ++ (l.map (fun e => word4 e.1 ++ word4 e.2)).flatten), s)

/-- CAPTURE_READ (R497). -/
def mbCaptureRead (ws : List Word) (s : State) : Reply × State :=
  let n := mbArg ws 0 4
  let part := mbArg ws 4 1
  let b := s.belfry
  if 1 < part || n < b.firstCapture || b.firstCapture + b.captures.length ≤ n then (mbBad, s)
  else
    let rec_ := nth [] b.captures (n - b.firstCapture)
    let lines := if part = 0 then rec_.take 7 else (rec_.drop 7).take 2
    (mbOk (toBytesLE 4 b.firstCapture ++ toBytesLE 4 (b.firstCapture + b.captures.length - 1) ++ List.replicate 8 0#8
      ++ (lines.map (fun d => toBytesLE 32 d.toNat)).flatten), s)

/-- HITS_READ (R497). -/
def mbHitsRead (ws : List Word) (s : State) : Reply × State :=
  let sid := mbArg ws 0 3
  if !s.validSid sid then (mbBad, s)
  else
    let x := s.belfry.suspect (suspectKey s sid)
    let hits := (x.hits.reverse.take 14).reverse
    (mbOk ([BitVec.ofNat 8 x.state, BitVec.ofNat 8 (min 255 x.hits.length)] ++ List.replicate 14 0#8
      ++ (hits.map (fun h => toBytesLE 8 h.1 ++ toBytesLE 8 h.2.toNat)).flatten), s)

/-! ### Acting commands -/

/-- FIELD_HOLD (R497, R501). A hold that it commands lasts until its release, also on a field that a fourth switch-off holds already. -/
def mbFieldHold (ws : List Word) (s : State) : Reply × State :=
  let f := mbArg ws 0 1
  let v := mbArg ws 1 1
  if 63 < f || 1 < v then (mbBad, s)
  else if usesField s f && faultState s then ((1, s.runState, []), s)
  else if v = 1 then
    let s := s.modBel (fun b => { b with heatHeld := b.heatHeld.filter (fun g => g != f) })
    (mbOk, if s.belfry.held.contains f then s else holdField s f)
  else if !s.belfry.held.contains f then (mbOk, s)
  else if s.belfry.hot.contains f && !holds s (200 + f) then
    let s := s.modBel (fun b => { b with held := b.held.filter (fun g => g != f), heatHeld := b.heatHeld.filter (fun g => g != f) })
    (mbOk, setReadyAll (setPt s f 1) (gonePages f) 0 3)
  else if resetBusy s then ((1, s.runState, []), s.raise pReset 1)
  else (mbOk, requestReset (s.modBel (fun b => { b with held := b.held.filter (fun g => g != f), heatHeld := b.heatHeld.filter (fun g => g != f),
                                                        hot := b.hot.filter (fun g => g != f) })) 2 3 f)

/-- RESET (R497): the reset's own row follows the response. -/
def mbReset (ws : List Word) (s : State) : Reply × State :=
  let c := mbArg ws 0 1
  let f := mbArg ws 1 1
  if 2 < c || (c = 2 && 63 < f) then (mbBad, s)
  else (mbOk, s.modBel (fun b => { b with resetAfter := some (c, 3, if c = 2 then f else 0) }))

/-- DIE_POLICY (R490, R497). -/
def mbDiePolicy (ws : List Word) (s : State) : Reply × State :=
  let c := mbArg ws 4 4
  let u := mbArg ws 8 4
  let s := if mbArg ws 0 1 % 2 = 0 then s
    else s.modBel (fun b => { b with die := ⟨mbArg ws 1 1 % 2 = 1, if c = 0 then b.die.corrLim else c, if u = 0 then b.die.uncorrLim else u⟩ })
  let d := s.belfry.die
  (mbOk ([0#8, BitVec.ofNat 8 d.autoCo.toNat, 0#8, 0#8] ++ toBytesLE 4 d.corrLim ++ toBytesLE 4 d.uncorrLim), s)

/-! ### Updates (R498, R499) -/

def setOpen (s : State) (b : Bool) : State := s.fset (pMbox 0 + 0x40) 29 29 b.toNat
/-- The slot whose image awaits activation, shown in PENDING. -/
def setPending (s : State) (b : Option Bool) : State := (s.fset (pMbox 0 + 0x40) 28 28 b.isSome.toNat).modBel (fun x => { x with pending := b })
/-- Store what the slot that is not running holds. -/
def setIdle (s : State) (f : Option Firmware) : State :=
  let run := runSlot s
  s.modBel (fun b => if run then { b with slotA := f } else { b with slotB := f })

def closeSession (s : State) : State := setOpen (s.modBel (fun b => { b with session := none })) false

/-- UPDATE_BEGIN. -/
def updateBegin (ws : List Word) (s : State) : Reply × State :=
  match s.belfry.session with
  | some _ => ((3, 0x405, []), s)
  | none =>
    let n := s.belfry.sessions + 1
    let s := setPending (setIdle s none) none
    let s := setOpen (s.modBel (fun b => { b with session := some ⟨n % 2 ^ 32, mbArg ws 0 4, []⟩, sessions := n })) true
    (mbOk (toBytesLE 4 n), s)

/-- UPDATE_DATA. -/
def updateData (ws : List Word) (s : State) : Reply × State :=
  match s.belfry.session with
  | none => ((3, 0x405, []), s)
  | some x =>
    let o := mbArg ws 4 4
    let n := mbLen ws - 8
    if mbArg ws 0 4 != x.num then ((3, 0x405, []), s)
    else if mbLen ws < 8 || 240 < mbLen ws || x.len < o + n then (mbBad, s)
    else
      let bytes := iter n (fun i m => SMap.set (fun _ => 0) m (o + i) (mbByte ws (24 + i))) x.bytes
      (mbOk, s.modBel (fun b => { b with session := some { x with bytes := bytes } }))

/-- Field [o, o + n) of a staged image. -/
def img (x : Session) (o n : Nat) : Nat := ofBytesLE (tab n (fun i => BitVec.ofNat 8 (SMap.get (fun _ => 0) x.bytes (o + i))))
def imgBytes (x : Session) (o n : Nat) : List Byte := tab n (fun i => BitVec.ofNat 8 (SMap.get (fun _ => 0) x.bytes (o + i)))

def isProbe (x : Session) : Bool := img x 0 4 = 0x50524F42
def imgKind (x : Session) : Nat := img x 6 2
/-- Length, MAGIC and FORMAT as given (R474, R498). -/
def imgShape (x : Session) : Bool :=
  if isProbe x then
    decide (img x 4 2 = 1) && decide (1 ≤ imgKind x) && decide (imgKind x ≤ 0xFFFE) && decide (1 ≤ img x 12 4) && decide (img x 12 4 ≤ 16384)
      && decide (x.len = 64 + 320 * img x 12 4 + 96)
  else decide (img x 0 4 = 0x53485550) && decide (img x 4 2 = 1) && decide (1 ≤ imgKind x) && decide (imgKind x ≤ 3)
      && decide (x.len = 64 + img x 16 4 + 96) && decide (x.len ≤ 8 * 2 ^ 20)

/-- The signature verifies; a credential carries none, and its signature field and KEY are zero (R498). -/
def imgSigned (x : Session) : Bool :=
  if !isProbe x && imgKind x = 3 then decide (img x 20 4 = 0) && (imgBytes x (x.len - 96) 96).all (fun b => b = 0#8)
  else Config.signatureValid (imgBytes x 0 x.len)

/-- The vectors of a staged probe set. -/
def imgVectors (x : Session) : List ProbeVec :=
  tab (img x 12 4) (fun v => tab 10 (fun l => BitVec.ofNat 256 (img x (64 + 320 * v + 32 * l) 32)))

/-- The first check of R499 that an image fails: status and detail. -/
def imgRefusal (s : State) (x : Session) : Option (Nat × Nat) :=
  let same := s.belfry.probes.filter (fun p => p.id = imgKind x)
  let others := s.belfry.probes.filter (fun p => p.id != imgKind x)
  if !imgShape x then some (2, 1)
  else if !imgSigned x then some (2, 0x401)
  else if (if isProbe x then !(img x 16 4).testBit (s.fuses.grade - 1) else img x 24 8 != 0 && img x 24 8 != s.fuses.id.toNat) then some (2, 0x403)
  else if !isProbe x && imgKind x = 1 && (decide (img x 12 1 < s.fuses.ar) || decide (64 < img x 12 1)) then some (2, 0x402)
  else if isProbe x && same.any (fun p => decide (img x 8 4 ≤ p.version)) then some (2, 0x406)
  else if isProbe x && (decide (16 ≤ others.length) || decide (8 * 2 ^ 20 < (others.map (fun p => p.bytes)).foldl (· + ·) 0 + x.len)) then some (3, 0x404)
  else none

/-- UPDATE_END (R499): every outcome is logged, and raises UPDATE_DONE or UPDATE_REFUSED. An activation that the run refuses leaves the session
open. The KIND that the response names for a probe set is unstated. -/
def updateEnd (ws : List Word) (s : State) : Reply × State :=
  match s.belfry.session with
  | none => ((3, 0x405, []), s)
  | some x =>
    if mbArg ws 0 4 != x.num then ((3, 0x405, []), s)
    else
      let act := mbArg ws 4 1 % 2 = 1
      let ver := img x 8 4
      match imgRefusal s x with
      | some (st, d) =>
        let s := addLog ((closeSession s).raise (pMbox 0) 3) 0x502 2 [imgKind x, ver, d]
        ((st, d, []), s)
      | none =>
        if !isProbe x && imgKind x = 1 && act && s.runState != 0 then
          ((1, s.runState, []), addLog (s.raise (pMbox 0) 3) 0x502 2 [imgKind x, ver, s.runState])
        else
          let idle := !runSlot s
          let s := closeSession s
          let (kind, s) := if isProbe x then (let (k, s) := s.free 16; (k.toNat, s)) else (imgKind x, s)
          let s :=
            if isProbe x then s.modBel (fun b => { b with probes := b.probes.filter (fun p => p.id != imgKind x) ++ [⟨imgKind x, ver, x.len, imgVectors x⟩] })
            else if imgKind x = 1 then
              let s := setPending (setIdle s (some ⟨BitVec.ofNat 32 ver, img x 12 1, true⟩)) (some idle)
              if act then s.modBel (fun b => { b with trial := some idle, resetAfter := some (0, 4, 0) }) else s
            else if imgKind x = 2 then
              let gone := tab (img x 16 4 / 4) (fun i => BitVec.ofNat 32 (img x (64 + 4 * i) 4))
              let s := s.modBel (fun b => { b with softMap := b.softMap.filter (fun e => !gone.contains e.1) })
              let n := s.belfry.softMap.length
              s.setReg (pFuse + 0x48) (BitVec.ofNat 32 ((decide (4096 ≤ n)).toNat * 2 ^ 31 + n))
            else s.modBel (fun b => { b with credential := some (imgBytes x 64 (img x 16 4)) })
          let s := addLog (s.raise (pMbox 0) 2) 0x501 1 [kind, ver, 0]
          (mbOk (toBytesLE 2 kind ++ [0#8, 0#8] ++ toBytesLE 4 ver), s)

/-- UPDATE_SESSION_TIMEOUT (R499): a session without data for 60 s is refused and closed. Its image is not complete, so its KIND and VERSION
are those of the bytes staged so far. -/
def sessionTimeout (s : State) : State :=
  match s.belfry.session with
  | some x => addLog ((closeSession s).raise (pMbox 0) 3) 0x502 2 [imgKind x, img x 8 4, 0x405]
  | none => s

/-- MANAGEMENT_NETWORK_MESSAGE (R481): `verified` says that the client's certificate verifies against the installed credential. -/
def networkMessage (s : State) (session : Nat) (verified : Bool) (ws : List Word) : State :=
  if !belfryUp s then s
  else mbReceive s (1000 + 2 * session + (verified && s.belfry.credential.isSome).toNat) (tab 64 (fun i => nth 0#32 ws i))

/-! ### Rows that request a reset -/

/-- A reset row: a host's request through the RESET page (source 1), the Belfry's own under its policy (source 2, R488, R489), or the one
that follows a response (sources 3 and 4). -/
def resetRow (s : State) (cls source f : Nat) : State :=
  if !s.inputOn then s
  else match source with
  | 1 => if 2 ≤ s.readyState pReset then requestReset s cls 1 f else s
  | 2 => if cls = 0 then tripRecovery s else if cls = 2 then hotBack s f else s
  | _ =>
    if s.belfry.resetAfter = some (cls, source, f) then requestReset (s.modBel (fun b => { b with resetAfter := none })) cls source f else s

/-! ### The commands -/

/-- MB_SEND (R495). -/
def execMbSend (port : Fin 4) (fn1 : Bool) (s : State) : Out := .next (mbSend s port fn1)
/-- INFO (R497). -/
def execInfo (s : State) : Out := .next (handle s 1 true (fun _ s => mbInfo s))
/-- SENSORS (R497). -/
def execSensors (s : State) : Out := .next (handle s 2 true mbSensors)
/-- LOG_READ (R497). -/
def execLogRead (s : State) : Out := .next (handle s 3 false mbLogRead)
/-- MAP_READ (R497). -/
def execMapRead (s : State) : Out := .next (handle s 4 false mbMapRead)
/-- CAPTURE_READ (R497). -/
def execCaptureRead (s : State) : Out := .next (handle s 5 false mbCaptureRead)
/-- HITS_READ (R497). -/
def execHitsRead (s : State) : Out := .next (handle s 6 false mbHitsRead)
/-- FIELD_HOLD (R497). -/
def execFieldHold (s : State) : Out := .next (handle s 7 false mbFieldHold)
/-- MAILBOX_RESET (R497). -/
def execMailboxReset (s : State) : Out := .next (handle s 8 false mbReset)
/-- DIE_POLICY (R490). -/
def execDiePolicy (s : State) : Out := .next (handle s 9 false mbDiePolicy)
/-- UPDATE_BEGIN (R499). -/
def execUpdateBegin (s : State) : Out := .next (handle s 0xA false updateBegin)
/-- UPDATE_DATA (R499). -/
def execUpdateData (s : State) : Out := .next (handle s 0xB false updateData)
/-- UPDATE_END (R499). -/
def execUpdateEnd (s : State) : Out := .next (handle s 0xC false updateEnd)
/-- UPDATE_SESSION_TIMEOUT (R499). -/
def execUpdateSessionTimeout (s : State) : Out := .next (sessionTimeout s)
/-- MANAGEMENT_NETWORK_MESSAGE (R481). -/
def execManagementNetworkMessage (session : Nat) (verified : Bool) (ws : List Word) (s : State) : Out :=
  .next (networkMessage s session verified ws)
/-- COLD_RESET (R424). -/
def execColdReset (source : Fin 16) (s : State) : Out := .next (resetRow s 0 source.val 0)
/-- ENGINE_RESET (R426). -/
def execEngineReset (source : Fin 16) (s : State) : Out := .next (resetRow s 1 source.val 0)
/-- FIELD_RESET (R437). -/
def execFieldReset (source : Fin 16) (field : Fin 64) (s : State) : Out := .next (resetRow s 2 source.val field.val)
/-- RUN_ABORT_RESET (R426), which only the RESET page requests; `cycle` and `conds` serve the reads of its FAULT_ACK. -/
def execRunAbortReset (cycle : Nat) (conds : List Cond) (s : State) : Out :=
  .next (ackOnceDrained (resetRow s 3 1 0) cycle conds)

end Sys2Proof.Machine
end

