-- ==== Sys2Proof/Machine/Registers.lean ====
section
/-! DEFINITION. BAR0 (chapter "Register pages and the two views", R32 to R50): reads and writes of 32-bit registers by their
access codes, the view filter, and the registers whose write does something. -/
namespace Sys2Proof.Machine

/-! ### Who sees a page (R37, R38, R45, R381, R495) -/

/-- The function whose own page this is: MSI-X pages of a port belong to whichever function of it accesses them, a channel page to
the one it serves. None where every requester sees the page alike. -/
def ownedBy (pg : Page) (rq : Req) : Option Bool :=
  match pg.kind with
  | .hpMsix | .hpPba => some (rq.port.val = pg.n)
  | .mboxCh => some (1 + 2 * rq.port.val + rq.fn1.toNat = pg.k)
  | _ => none

/-- Whether the registers from +0x40 of a page are closed to a requester (R381, R495). -/
def foreign (pg : Page) (rq : Req) (o : Nat) : Bool := decide (0x40 ≤ o) && ownedBy pg rq = some false

/-- VIEW_MASK.VISIBLE and WRITABLE as the filter reads them (R38, R45); the pages of R381 and R495 are not filtered. -/
def visible (s : State) (pg : Page) (rq : Req) : Bool :=
  !rq.fn1 || (ownedBy pg rq).isSome || pg.kind = .global || (!pg.kind.privOnly && s.bget (pg.base + 0x30) 0)
def writable (s : State) (pg : Page) (rq : Req) : Bool :=
  !rq.fn1 || (ownedBy pg rq).isSome || (visible s pg rq && !pg.kind.privOnly && s.bget (pg.base + 0x30) 1)

/-! ### Access codes (R9, R10) -/

/-- WS registers that act only in the privileged view (R38, R423). -/
def privWs (pg : Page) (o : Nat) : Bool := o = 0x24 || (pg.kind = .timebase && o = 0x58)

/-- The bits that a requester's write can change: RW and RWP, W1C, WS. -/
def rwBits (rq : Req) (fs : List RField) : Word := accMask (fun a => a = .rw || (a = .rwp && !rq.fn1)) fs
def w1cBits (fs : List RField) : Word := accMask (fun a => a = .w1c) fs
def wsBits (fs : List RField) : Word := accMask (fun a => a = .ws) fs

/-- What a register holds after `d` is written to it. -/
def written (rq : Req) (fs : List RField) (cur d : Word) : Word :=
  ((cur &&& ~~~(rwBits rq fs)) &&& ~~~(w1cBits fs &&& d)) ||| (d &&& rwBits rq fs)

/-- Whether the filter ignores a field that the write would have changed (R45): `seen` says that the page is writable. -/
def filtered (rq : Req) (pg : Page) (o : Nat) (fs : List RField) (seen : Bool) (cur d : Word) : Bool :=
  let ign := fun (a : Acc) => match a with
    | .ro => false
    | .rwp => true
    | .ws => !seen || privWs pg o
    | _ => !seen
  rq.fn1 && (((cur ^^^ d) &&& accMask (fun a => ign a && (a = .rw || a = .rwp)) fs)
    ||| (d &&& accMask (fun a => ign a && (a = .w1c || a = .ws)) fs)) != 0#32

/-! ### COUNT_CLEAR (R38, R81) -/

/-- Whether the page is one of the window pages 1 to 7. -/
def isWindow (pg : Page) : Bool := pg.typ = 0x25 && decide (1 ≤ pg.k)

/-- The registers of a page kind at word offsets below 0x1000. -/
def wordOffs : List Nat := tab 1024 (fun i => 4 * i)

/-- What COUNT_CLEAR leaves of a register: 48-bit counters and 31-bit counts become 0 with their WRAPPED bits. `none`: no counter. -/
def cleared (k : PKind) (o : Nat) : Bool :=
  match regFields k o with
  | some fs => isPairHi fs || isCount31 fs || (o % 8 = 0 && (match regFields k (o + 4) with | some g => isPairHi g | none => false))
  | none => false

/-- The counters of spindle-window page k of a spindle (R81): STALE_COUNT of the queue descriptors in a ply page, the counters of
pages 5 and 6. -/
def windowCounters (k : Nat) : List Nat :=
  if k ≤ 4 then tab 8 (fun q => 0x118 + 32 * q) ++ tab 4 (fun q => 0x20C + 16 * q)
  else if k = 5 then [0x48, 0x50, 0x54, 0x80, 0x84, 0x88, 0x8C]
  else if k = 6 then tab 224 (fun i => 0x100 + 4 * i) ++ tab 20 (fun i => 0x500 + 4 * i)
  else []

/-- Every counter of a page becomes 0 (R38). -/
def clearCounts (s : State) (pg : Page) : State :=
  let inPage := fun (e : Nat × Word) => decide (pg.base ≤ e.1) && decide (e.1 < pg.base + 0x1000)
  let s := { s with regs := s.regs.filter (fun e => !(inPage e && cleared pg.kind (e.1 - pg.base))) }
  if isWindow pg && !windowOff s pg.n then
    s.modSpin (swSid s pg.n) (fun p => forEach (windowCounters pg.k) (fun o p => p.setW pg.k o 0#32) p)
  else s

/-- SW_STATUS.WRITE_REFUSED (R50). -/
def refuseWindow (s : State) (f : Nat) : State := s.fset (pWin f 0 + 0x44) 2 2 1

/-- Whether R50 refuses writes through field f's window. -/
def windowLive (s : State) (f : Nat) : Bool := !windowOff s f && s.live (swSid s f)

/-- PAGE_CTRL.COUNT_CLEAR is written 1 (R38, R81). -/
def countClear (s : State) (pg : Page) : State :=
  if isWindow pg && windowLive s pg.n then refuseWindow s pg.n else clearCounts s pg

/-! ### The header registers (R37 to R41) -/

/-- EVT_STATUS or EVT_AGAIN is written `d`; `same` names bits that the engine sets in the same cycle (R40). -/
def clearEvents (s : State) (pg : Page) (o : Nat) (d same : Word) : State :=
  let v := s.reg (pg.base + o)
  let keep := same &&& v
  let s := s.setReg (pg.base + o) (v &&& ~~~(d &&& ~~~keep))
  let s := if o = 0x18 && (d &&& keep) != 0#32 then s.setReg (pg.base + 0x1C) (s.reg (pg.base + 0x1C) ||| (d &&& keep)) else s
  evtWritten s pg.base

/-- A header register is written: `v` is what it takes by R9, `d` the word written. -/
def writeHeader (s : State) (rq : Req) (pg : Page) (o : Nat) (fs : List RField) (v d : Word) : State :=
  let s := syncVectors s
  if o = 0x10 then
    let s := s.setReg (pg.base + o) v
    syncVectors (if getB d 1 then countClear s pg else s)
  else if o = 0x18 || o = 0x1C then clearEvents s pg o (d &&& w1cBits fs) 0#32
  else if o = 0x24 then
    if rq.fn1 then s
    else syncVectors (forEach (List.range 32) (fun i s => s.raiseIf (getB (d &&& wsBits fs) i) pg.base i) s)
  else if o = 0x30 then
    if pg.kind.privOnly then s
    else syncVectors (s.setReg (pg.base + o) (if pg.kind = .global then putB v 0 true else v))
  else syncVectors (s.setReg (pg.base + o) v)

/-! ### The spindle window (R49, R50, R81 to R88) -/

/-- A register of window page k of field f is written: VRF_SELECT of the field, a lane of the selected vector register, a word of a long
accumulator, or a register of the selected spindle. -/
def writeWindow (s : State) (rq : Req) (f k o : Nat) (fs : List RField) (d : Word) : State :=
  let sid := swSid s f
  if windowOff s f then s
  else if s.live sid then refuseWindow s f
  else if k = 7 && o = 0x40 then s.setReg (pWin f 7 + 0x40) (written rq fs (s.reg (pWin f 7 + 0x40)) d)
  else s.modSpin sid (fun p =>
    if k = 7 && 0x80 ≤ o && o < 0xC0 then
      let r := s.fget (pWin f 7 + 0x40) 5 0
      let l := (o - 0x80) / 4
      p.setV r (BitVec.ofNat 512 (blend (p.vreg r).toNat (d.toNat * 2 ^ (32 * l)) ((2 ^ 32 - 1) * 2 ^ (32 * l))))
    else if k = 7 && 0x400 ≤ o && o < 0x800 then
      let i := (o - 0x400) / 0x100
      let l := (o - 0x400) / 0x10 % 16
      let j := o / 4 % 4
      p.setLa i l (BitVec.ofNat 128 (blend (p.lacc i l).toNat (d.toNat * 2 ^ (32 * j)) ((2 ^ 32 - 1) * 2 ^ (32 * j))))
    else p.setW k o (written rq fs (p.wreg k o) d))

/-! ### Registers from +0x40 -/

/-- A watch's register is written (R246, R247, R450). -/
def writeWatch (s : State) (f o : Nat) (v : Word) : State :=
  let k := s.fget (wBase f ((o - 0x100) / 0x20)) 8 0
  if !chPresent s f k then s
  else if chimeLocked s f k then s.raise (pChime f 0) 2
  else s.setReg (pChime f 5 + o) v

/-- A register of a ring page is written (R387 to R389). -/
def writeRing (s : State) (ring : Req) (o : Nat) (v d : Word) : State :=
  if o = 0x40 then writeRingCtrl s ring v d
  else if o = 0x4C then writeCmdTail s ring v
  else if o = 0x5C then writeCplHead s ring v
  else if (o = 0x44 || o = 0x48 || o = 0x54 || o = 0x58 || o = 0x64) && s.bget (ringPage ring + 0x40) 0 then s
  else s.setReg (ringPage ring + o) v

/-- A register of the EDGE_RING page is written (R377). -/
def writeEdgeRing (s : State) (o : Nat) (v : Word) : State :=
  if o = 0x54 then
    { s with via := SMap.set (fun _ => 0#32) s.via (s.fget (pRing + 0x50) 18 16 * 64 + s.fget (pRing + 0x50) 5 0) (v &&& 0xFFFF#32) }
  else if o = 0x84 then
    { s with relay := SMap.set (fun _ => 0#32) s.relay (s.fget (pRing + 0x80) 15 0) (v &&& 0xFFFF#32) }
  else if 0x60 ≤ o && o < 0x80 then s.setReg (pRing + o) (BitVec.ofNat 32 (min 64 (getF v 6 0)))
  else s.setReg (pRing + o) v

/-- RST_CMD is written (R425, R428). -/
def writeRstCmd (s : State) (v d : Word) : State :=
  let s := s.setReg (pReset + 0x40) v
  if getB d 31 then requestReset s (getF v 9 8) 1 (getF v 5 0) else s

/-- The register at offset `o` ≥ 0x40 of a page in service is written: `v` is what it takes by R9, `d` the word written. -/
def writeBlock (s : State) (rq : Req) (pg : Page) (o : Nat) (fs : List RField) (v d : Word) : State :=
  let plain := s.setReg (pg.base + o) v
  match pg.kind with
  | .global => if o = 0x68 then (if rq.fn1 then s else writeEngineNumber s d) else plain
  | .clock => if o = 0x40 then writeClkCtrl s v (d &&& wsBits fs) else plain
  | .reset => if o = 0x40 then writeRstCmd s v (d &&& wsBits fs) else plain
  | .timebase => if o = 0x58 then (if getB d 0 && !rq.fn1 then tbLoadGo s else s) else plain
  | .mboxCh => if o = 0x40 then (if getB d 0 then mbSend s rq.port rq.fn1 else s) else plain
  | .hpCtrl =>
    if o = 0x44 then syncVectors ((syncVectors s).setReg (pg.base + o) v)
    else if o = 0x50 then s.setReg (pg.base + o) (BitVec.ofNat 32 (min 0x2000000 (getF v 25 0)))
    else plain
  | .hpRing => writeRing s ⟨⟨pg.n % 4, Nat.mod_lt _ (by decide)⟩, pg.k = 2⟩ o v (d &&& wsBits fs)
  | .nirdor0 =>
    if o = 0x40 then writePortCtrl s pg.n v (d &&& wsBits fs)
    else if 0xC0 ≤ o && o < 0xE0 then writeEntry s pg.n false ((o - 0xC0) / 4) d
    else if 0xE0 ≤ o && o < 0xE8 then writeEntry s pg.n true ((o - 0xE0) / 4) d
    else plain
  | .edgeRing => writeEdgeRing s o v
  | .ringer => if o = 0x4C then (if getB d 0 then ringerGo s pg.n else s) else plain
  | .chimeK =>
    let k := (pg.k - 1) * 128 + (o - 0x100) / 0x10
    if o % 16 = 0 then writeChValue s pg.n k v else if o % 16 = 4 then writeChCfg s pg.n k v else s
  | .chimeW => writeWatch s pg.n o v
  | .bob0 => if o = 0x48 then (if rq.fn1 then s else writeCoCtrl s pg.n v) else plain
  | .reel _ => if o < 0x100 then plain else writeChan s pg.n pg.k (o - 0x100) v (d &&& wsBits fs)
  | .hostReel _ =>
    if o < 0x100 then plain
    else writeChan s (64 + pg.n) ((pg.k - 8) * 4 + (o - 0x100) / 0x100) ((o - 0x100) % 0x100) v (d &&& wsBits fs)
  | .ply | .win5 | .win6 | .win7 => writeWindow s rq pg.n pg.k o fs d
  | _ => plain

/-! ### Requests (R33, R35, R36, R43) -/

/-- Whether an offset of a page holds a register: the tables', the MSI-X table from +0x800, the pending bits at +0x40 (R381). -/
def isReg (pg : Page) (o : Nat) : Bool :=
  (regFields pg.kind o).isSome || (pg.kind = .hpMsix && decide (0x800 ≤ o)) || (pg.kind = .hpPba && decide (0x40 ≤ o) && decide (o < 0x50))

/-- A word of the requester's MSI-X table is written (R381); of the vector control word only the mask bit. Unmasking a vector whose pending bit is
set makes its message due (R397). -/
def writeMsix (s : State) (rq : Req) (i : Nat) (d : Word) : State :=
  let s := syncRing s rq
  let r := s.ring rq
  let due : BitVec 128 := if i % 4 = 3 && !getB d 0 then r.pba &&& (1#128 <<< (i / 4)) else 0#128
  s.setRing rq { r with unsent := r.unsent ||| due, msix := SMap.set (fun i => if i % 4 = 3 then 1#32 else 0#32) r.msix i (if i % 4 = 3 then d &&& 1#32 else d) }

/-- A write of all four bytes of the register at a BAR0 offset. -/
def writeReg (s : State) (rq : Req) (off : Nat) (d : Word) : State :=
  match locate off with
  | none => s.raise pGlobal 1
  | some pg =>
    let o := off - pg.base
    if pageOut s pg o || absent s pg || foreign pg rq o then s
    else if pg.kind = .hpMsix && 0x800 ≤ o then writeMsix s rq ((o - 0x800) / 4) d
    else match pageFields pg.kind o with
      | none => s
      | some fs =>
        let seen := writable s pg rq
        let dead := isWindow pg && decide (0x40 ≤ o) && windowOff s pg.n
        let s' := if filtered rq pg o fs seen (readReg s off) d && !dead then deny s rq.port.val 0 off else s
        let v := written rq fs (s'.reg off) d
        if !seen then s'
        else if o < 0x40 then writeHeader s' rq pg o fs v d
        else writeBlock s' rq pg o fs v d

/-- A 32-bit part of a write, with its byte enables (R35). One that writes no byte has no effect, on an unmapped page either (DESIGN CHOICE,
assumption log 9). -/
def writePart (s : State) (rq : Req) (off be : Nat) (d : Word) : State :=
  if be % 16 = 15 then writeReg s rq off d
  else if be % 16 = 0 then s
  else match locate off with
    | none => s.raise pGlobal 1
    | some pg =>
      if isReg pg (off - pg.base) && !pageOut s pg (off - pg.base) && !absent s pg then s.raise pGlobal 2 else s

/-- A BAR0 write: one pair of byte enables and data for each 32-bit part, in ascending address order (R35). -/
def bar0Write (s : State) (rq : Req) (off : Nat) : List (Nat × Word) → State
  | [] => s
  | (be, d) :: ws => bar0Write (writePart s rq off be d) rq (off + 4) ws

/-- What a requester finds in the register at a BAR0 offset of a page. -/
def seenReg (s : State) (rq : Req) (pg : Page) (o : Nat) : Word :=
  if foreign pg rq o || !visible s pg rq then 0#32
  else if pg.kind = .hpMsix && 0x800 ≤ o then 
    (if pageOut s pg o then (if o % 16 = 12 then 1#32 else 0#32) else msixWord (s.ring rq) ((o - 0x800) / 4))
  else if pg.kind = .hpPba && 0x40 ≤ o && o < 0x50 then
    (if pageOut s pg o then 0#32 else BitVec.ofNat 32 (((syncRing s rq).ring rq).pba.toNat >>> (8 * (o - 0x40))))
  else pageReg s pg o

/-- Whether the register at offset `o` of a page is the _LO half of a pair that R43 latches: a counter's, or the timebase. -/
def isPairLo (k : PKind) (o : Nat) : Bool :=
  o % 8 = 0 && ((k = .timebase && o = 0x40) || (match regFields k (o + 4) with | some fs => isPairHi fs | none => false))

/-- The latch of a requester for the pair whose _LO lies at a BAR0 offset (R43). -/
def latchKey (rq : Req) (lo : Nat) : Nat := lo * 8 + 2 * rq.port.val + rq.fn1.toNat
def latchOf (s : State) (rq : Req) (lo : Nat) : Option Word := SMap.get (fun _ => none) s.latches (latchKey rq lo)
def setLatch (s : State) (rq : Req) (lo : Nat) (v : Option Word) : State :=
  { s with latches := SMap.set (fun _ => none) s.latches (latchKey rq lo) v }

/-- The bytes of a word that byte enables name. -/
def maskBytes (be : Nat) (w : Word) : Word :=
  w &&& BitVec.ofNat 32 ((List.range 4).foldl (fun a j => if be.testBit j then a + 255 * 256 ^ j else a) 0)

/-- A 32-bit part of a read (R33, R43, R45): one that reads some byte of a register has the read's side effects (R35); one that reads none has no
effect, like a part of a write that writes none (DESIGN CHOICE, assumption log 9). `atomic` says that it is half of an 8-byte read of a pair. -/
def readPart (s : State) (rq : Req) (off be : Nat) (atomic : Bool) : State :=
  match locate off with
  | none => (if be % 16 = 0 then s else s.raise pGlobal 1).emit (.bar0 rq off 0#32)
  | some pg =>
    let o := off - pg.base
    let v := seenReg s rq pg o
    let answer := fun (s : State) (w : Word) => s.emit (.bar0 rq off (maskBytes be w))
    if be % 16 = 0 || atomic || pageOut s pg o || !visible s pg rq then answer s v
    else if isPairLo pg.kind o then answer (setLatch s rq off (some (seenReg s rq pg (o + 4)))) v
    else match latchOf s rq (off - 4) with
      | some h => answer (setLatch s rq (off - 4) none) h
      | none => answer s v

/-- A BAR0 read, by the byte enables of its 32-bit parts in ascending address order (R35). -/
def bar0Read (s : State) (rq : Req) (off : Nat) : List Nat → State
  | [] => s
  | [be] => readPart s rq off be false
  | be :: be' :: bes =>
    let pair := off % 8 = 0 && be % 16 = 15 && be' % 16 = 15
      && (match locate off with | some pg => isPairLo pg.kind (off - pg.base) | none => false)
    if pair then bar0Read (readPart (readPart s rq off 15 true) rq (off + 4) 15 true) rq (off + 8) bes
    else bar0Read (readPart s rq off be false) rq (off + 4) (be' :: bes)

/-! ### The commands -/

/-- A write request to BAR0. A poisoned one counts (R382, R383); the spec does not say whether its registers take it, so that is free (assumption
log 9). -/
def bar0Request (s : State) (rq : Req) (off : Nat) (parts : List (Nat × Word)) (poisoned : Bool) : State :=
  if !poisoned then bar0Write s rq off parts
  else
    let p := pHost rq.port.val 0
    let (taken, s) := ((s.bump48 p (p + 0x68) 1).raise p 2).free 1
    if taken = 1#1 then bar0Write s rq off parts else s

/-- BAR0_REGISTER_WRITE (R35): a write request with the byte enables and data of its 32-bit parts. -/
def execBar0RegisterWrite (port : Fin 4) (fn1 : Bool) (off : Nat) (parts : List (Nat × Word)) (poisoned : Bool) (s : State) : Out :=
  .next (bar0Request s ⟨port, fn1⟩ (off / 4 * 4) parts poisoned)
/-- BAR0_LO_READ_LATCH (R43): a 32-bit read. -/
def execBar0LoReadLatch (port : Fin 4) (fn1 : Bool) (off : Nat) (s : State) : Out :=
  .next (bar0Read s ⟨port, fn1⟩ (off / 4 * 4) [15])
/-- BAR0_HI_READ_RELEASE (R43, R35): a read request with the byte enables of its 32-bit parts. -/
def execBar0HiReadRelease (port : Fin 4) (fn1 : Bool) (off : Nat) (parts : List Nat) (s : State) : Out :=
  .next (bar0Read s ⟨port, fn1⟩ (off / 4 * 4) parts)
/-- UNMAPPED_PAGE_READ (R33). -/
def execUnmappedPageRead (port : Fin 4) (fn1 : Bool) (off : Nat) (parts : List Nat) (s : State) : Out :=
  .next (bar0Read s ⟨port, fn1⟩ (off / 4 * 4) parts)
/-- EVT_STATUS_CLEAR (R40): EVT_STATUS (or EVT_AGAIN) of the page at `base` is written `d`; `same` names the bits that the engine set in the
same cycle. -/
def execEvtStatusClear (port : Fin 4) (fn1 : Bool) (base : Nat) (again : Bool) (d same : Word) (s : State) : Out :=
  let off := base / 0x1000 * 0x1000 + (if again then 0x1C else 0x18)
  .next (match locate off with
    | some pg =>
      let rq : Req := ⟨port, fn1⟩
      if same = 0#32 || !writable s pg rq || absent s pg then writeReg s rq off d
      else clearEvents (syncVectors s) pg (off - pg.base) (d &&& w1cBits ((pageFields pg.kind (off - pg.base)).getD [])) same
    | none => writeReg s ⟨port, fn1⟩ off d)
/-- EVT_FORCE (R41). -/
def execEvtForce (port : Fin 4) (fn1 : Bool) (base : Nat) (d : Word) (s : State) : Out :=
  .next (writeReg s ⟨port, fn1⟩ (base / 0x1000 * 0x1000 + 0x24) d)
/-- COUNT_CLEAR (R37, R38): PAGE_CTRL is written with COUNT_CLEAR 1 and IRQ_EN as it stands. -/
def execCountClear (port : Fin 4) (fn1 : Bool) (base : Nat) (s : State) : Out :=
  let off := base / 0x1000 * 0x1000 + 0x10
  .next (writeReg s ⟨port, fn1⟩ off (readReg s off ||| 2#32))
/-- SPINDLE_WINDOW_WRITE (R50): a register of window page k, 1 to 7, of a field. -/
def execSpindleWindowWrite (port : Fin 4) (fn1 : Bool) (field : Fin 64) (k : Fin 8) (o : Nat) (d : Word) (s : State) : Out :=
  .next (writeReg s ⟨port, fn1⟩ (pWin field.val k.val + o % 0x1000 / 4 * 4) d)
/-- RG_GO (R170). -/
def execRgGo (port : Fin 4) (fn1 : Bool) (field : Fin 64) (s : State) : Out :=
  .next (writeReg s ⟨port, fn1⟩ (pRinger field.val + 0x4C) 1#32)
/-- CH_VALUE_WRITE (R245) of engine chime c. -/
def execChValueWrite (port : Fin 4) (fn1 : Bool) (chime : Fin 32768) (d : Word) (s : State) : Out :=
  .next (writeReg s ⟨port, fn1⟩ (chBase (chime.val / 512) (chime.val % 512)) d)
/-- CH_CFG_WRITE (R245) of engine chime c. -/
def execChCfgWrite (port : Fin 4) (fn1 : Bool) (chime : Fin 32768) (d : Word) (s : State) : Out :=
  .next (writeReg s ⟨port, fn1⟩ (chBase (chime.val / 512) (chime.val % 512) + 4) d)
/-- CO_REQ (R281): CO_CTRL is written with CO_REQ 1. -/
def execCoReq (port : Fin 4) (fn1 : Bool) (field : Fin 64) (target : Fin 16) (s : State) : Out :=
  .next (writeReg s ⟨port, fn1⟩ (pBob field.val 0 + 0x48) (BitVec.ofNat 32 (2 ^ 31 + target.val)))
/-- The channel that a reel number and a channel number name: 64 field reels with 16 channels, 4 host reels with 32. -/
def chanReg (reel : Fin 68) (c : Fin 32) (o : Nat) : Nat := chanBase reel.val (c.val % reelChans reel.val) + o
/-- CH_START (R306): CH_CTRL is written `d` with START 1. -/
def execChStart (port : Fin 4) (fn1 : Bool) (reel : Fin 68) (c : Fin 32) (d : Word) (s : State) : Out :=
  .next (writeReg s ⟨port, fn1⟩ (chanReg reel c 0x14) (d ||| 1#32))
/-- CH_DISABLE (R310): CH_CTRL is written `d` with DISABLE 1. -/
def execChDisable (port : Fin 4) (fn1 : Bool) (reel : Fin 68) (c : Fin 32) (d : Word) (s : State) : Out :=
  .next (writeReg s ⟨port, fn1⟩ (chanReg reel c 0x14) (d ||| 2#32))
/-- CH_DESCRIPTOR_WRITE (R299): a register of a channel's block is written. -/
def execChDescriptorWrite (port : Fin 4) (fn1 : Bool) (reel : Fin 68) (c : Fin 32) (o : Fin 256) (d : Word) (s : State) : Out :=
  .next (writeReg s ⟨port, fn1⟩ (chanReg reel c (o.val / 4 * 4)) d)
/-- DOORBELL (R388): CMD_TAIL of a ring is written. -/
def execDoorbell (port : Fin 4) (fn1 : Bool) (ringPort : Fin 4) (ringFn1 : Bool) (tail : Word) (s : State) : Out :=
  .next (writeReg s ⟨port, fn1⟩ (ringPage ⟨ringPort, ringFn1⟩ + 0x4C) tail)
/-- CPL_HEAD_WRITE (R389). -/
def execCplHeadWrite (port : Fin 4) (fn1 : Bool) (ringPort : Fin 4) (ringFn1 : Bool) (head : Word) (s : State) : Out :=
  .next (writeReg s ⟨port, fn1⟩ (ringPage ⟨ringPort, ringFn1⟩ + 0x5C) head)
/-- RING_ENABLE (R389): RING_CTRL is written with ENABLE and IRQ_EN. -/
def execRingEnable (port : Fin 4) (fn1 : Bool) (ringPort : Fin 4) (ringFn1 : Bool) (enable irq : Bool) (s : State) : Out :=
  .next (writeReg s ⟨port, fn1⟩ (ringPage ⟨ringPort, ringFn1⟩ + 0x40) (BitVec.ofNat 32 (enable.toNat + 2 * irq.toNat)))
/-- RING_RESET (R387): RING_CTRL is written with RESET 1 and the other bits as they stand. -/
def execRingReset (port : Fin 4) (fn1 : Bool) (ringPort : Fin 4) (ringFn1 : Bool) (s : State) : Out :=
  let off := ringPage ⟨ringPort, ringFn1⟩ + 0x40
  .next (writeReg s ⟨port, fn1⟩ off (s.reg off ||| 4#32))

end Sys2Proof.Machine
end

