-- ==== Sys2Proof/Machine/Vector.lean ====
section
/-! DEFINITION. The commands of the vector unit (chapter "Vector operations and rates"): each performs one
operation of the table of R130 on the active ply of a spindle, with the operands of the VU word it
carries (R124). The word's OP, and for FN its PART, are those of the command. -/
namespace Sys2Proof.Machine

/-- The PART of a VU word replaced (R124). -/
def withPart (w part : Nat) : Nat := w - (fld w 5 2) * 4 + (part % 16) * 4

/-- VU_NOP (R130). -/
def execVuNop (sid : SID) (vu : BitVec 64) (s : State) : Out :=
  .next (vuRow s sid.toNat (withOp vu.toNat 0x00))
/-- MOV (R130). -/
def execMov (sid : SID) (vu : BitVec 64) (s : State) : Out :=
  .next (vuRow s sid.toNat (withOp vu.toNat 0x01))
/-- AND (R130). -/
def execAnd (sid : SID) (vu : BitVec 64) (s : State) : Out :=
  .next (vuRow s sid.toNat (withOp vu.toNat 0x02))
/-- OR (R130). -/
def execOr (sid : SID) (vu : BitVec 64) (s : State) : Out :=
  .next (vuRow s sid.toNat (withOp vu.toNat 0x03))
/-- XOR (R130). -/
def execXor (sid : SID) (vu : BitVec 64) (s : State) : Out :=
  .next (vuRow s sid.toNat (withOp vu.toNat 0x04))
/-- SHUF (R130). -/
def execShuf (sid : SID) (vu : BitVec 64) (s : State) : Out :=
  .next (vuRow s sid.toNat (withOp vu.toNat 0x05))
/-- SEL (R130). -/
def execSel (sid : SID) (vu : BitVec 64) (s : State) : Out :=
  .next (vuRow s sid.toNat (withOp vu.toNat 0x06))
/-- ADD (R131). -/
def execAdd (sid : SID) (vu : BitVec 64) (s : State) : Out :=
  .next (vuRow s sid.toNat (withOp vu.toNat 0x08))
/-- SUB (R131). -/
def execSub (sid : SID) (vu : BitVec 64) (s : State) : Out :=
  .next (vuRow s sid.toNat (withOp vu.toNat 0x09))
/-- MAX (R139). -/
def execMax (sid : SID) (vu : BitVec 64) (s : State) : Out :=
  .next (vuRow s sid.toNat (withOp vu.toNat 0x0A))
/-- MIN (R139). -/
def execMin (sid : SID) (vu : BitVec 64) (s : State) : Out :=
  .next (vuRow s sid.toNat (withOp vu.toNat 0x0B))
/-- CMPEQ (R139). -/
def execCmpeq (sid : SID) (vu : BitVec 64) (s : State) : Out :=
  .next (vuRow s sid.toNat (withOp vu.toNat 0x0C))
/-- CMPLT (R139). -/
def execCmplt (sid : SID) (vu : BitVec 64) (s : State) : Out :=
  .next (vuRow s sid.toNat (withOp vu.toNat 0x0D))
/-- CMPLE (R139). -/
def execCmple (sid : SID) (vu : BitVec 64) (s : State) : Out :=
  .next (vuRow s sid.toNat (withOp vu.toNat 0x0E))
/-- CVT (R142). -/
def execCvt (sid : SID) (vu : BitVec 64) (s : State) : Out :=
  .next (vuRow s sid.toNat (withOp vu.toNat 0x10))
/-- QSC (R143). -/
def execQsc (sid : SID) (vu : BitVec 64) (s : State) : Out :=
  .next (vuRow s sid.toNat (withOp vu.toNat 0x11))
/-- PACK (R144). -/
def execPack (sid : SID) (vu : BitVec 64) (s : State) : Out :=
  .next (vuRow s sid.toNat (withOp vu.toNat 0x12))
/-- UNPACK (R144). -/
def execUnpack (sid : SID) (vu : BitVec 64) (s : State) : Out :=
  .next (vuRow s sid.toNat (withOp vu.toNat 0x13))
/-- LUTB (R141). -/
def execLutb (sid : SID) (vu : BitVec 64) (s : State) : Out :=
  .next (vuRow s sid.toNat (withOp vu.toNat 0x14))
/-- LUTW (R141). -/
def execLutw (sid : SID) (vu : BitVec 64) (s : State) : Out :=
  .next (vuRow s sid.toNat (withOp vu.toNat 0x15))
/-- MUL (R131). -/
def execMul (sid : SID) (vu : BitVec 64) (s : State) : Out :=
  .next (vuRow s sid.toNat (withOp vu.toNat 0x20))
/-- FMA (R131). -/
def execFma (sid : SID) (vu : BitVec 64) (s : State) : Out :=
  .next (vuRow s sid.toNat (withOp vu.toNat 0x21))
/-- DOTF (R137). -/
def execDotf (sid : SID) (vu : BitVec 64) (s : State) : Out :=
  .next (vuRow s sid.toNat (withOp vu.toNat 0x22))
/-- DOTL (R137). -/
def execDotl (sid : SID) (vu : BitVec 64) (s : State) : Out :=
  .next (vuRow s sid.toNat (withOp vu.toNat 0x23))
/-- DOTX (R137). -/
def execDotx (sid : SID) (vu : BitVec 64) (s : State) : Out :=
  .next (vuRow s sid.toNat (withOp vu.toNat 0x24))
/-- LADD (R145). -/
def execLadd (sid : SID) (vu : BitVec 64) (s : State) : Out :=
  .next (vuRow s sid.toNat (withOp vu.toNat 0x28))
/-- LCLR (R145). -/
def execLclr (sid : SID) (vu : BitVec 64) (s : State) : Out :=
  .next (vuRow s sid.toNat (withOp vu.toNat 0x29))
/-- LSCL (R145). -/
def execLscl (sid : SID) (vu : BitVec 64) (s : State) : Out :=
  .next (vuRow s sid.toNat (withOp vu.toNat 0x2A))
/-- LRGD (R145). -/
def execLrgd (sid : SID) (vu : BitVec 64) (s : State) : Out :=
  .next (vuRow s sid.toNat (withOp vu.toNat 0x2B))
/-- LRD (R145). -/
def execLrd (sid : SID) (vu : BitVec 64) (s : State) : Out :=
  .next (vuRow s sid.toNat (withOp vu.toNat 0x2C))
/-- RSUM (R138). -/
def execRsum (sid : SID) (vu : BitVec 64) (s : State) : Out :=
  .next (vuRow s sid.toNat (withOp vu.toNat 0x30))
/-- RMAX (R138). -/
def execRmax (sid : SID) (vu : BitVec 64) (s : State) : Out :=
  .next (vuRow s sid.toNat (withOp vu.toNat 0x31))
/-- RMIN (R138). -/
def execRmin (sid : SID) (vu : BitVec 64) (s : State) : Out :=
  .next (vuRow s sid.toNat (withOp vu.toNat 0x32))
/-- RARG (R138). -/
def execRarg (sid : SID) (vu : BitVec 64) (s : State) : Out :=
  .next (vuRow s sid.toNat (withOp vu.toNat 0x33))
/-- EXP2 (R140): FN with PART 0x0. -/
def execExp2 (sid : SID) (vu : BitVec 64) (s : State) : Out :=
  .next (vuRow s sid.toNat (withPart (withOp vu.toNat 0x16) 0x0))
/-- EXP (R140): FN with PART 0x1. -/
def execExp (sid : SID) (vu : BitVec 64) (s : State) : Out :=
  .next (vuRow s sid.toNat (withPart (withOp vu.toNat 0x16) 0x1))
/-- LOG2 (R140): FN with PART 0x2. -/
def execLog2 (sid : SID) (vu : BitVec 64) (s : State) : Out :=
  .next (vuRow s sid.toNat (withPart (withOp vu.toNat 0x16) 0x2))
/-- RCP (R140): FN with PART 0x3. -/
def execRcp (sid : SID) (vu : BitVec 64) (s : State) : Out :=
  .next (vuRow s sid.toNat (withPart (withOp vu.toNat 0x16) 0x3))
/-- SQRT (R140): FN with PART 0x4. -/
def execSqrt (sid : SID) (vu : BitVec 64) (s : State) : Out :=
  .next (vuRow s sid.toNat (withPart (withOp vu.toNat 0x16) 0x4))
/-- RSQRT (R140): FN with PART 0x5. -/
def execRsqrt (sid : SID) (vu : BitVec 64) (s : State) : Out :=
  .next (vuRow s sid.toNat (withPart (withOp vu.toNat 0x16) 0x5))
/-- SIGMOID (R140): FN with PART 0x6. -/
def execSigmoid (sid : SID) (vu : BitVec 64) (s : State) : Out :=
  .next (vuRow s sid.toNat (withPart (withOp vu.toNat 0x16) 0x6))
/-- TANH (R140): FN with PART 0x7. -/
def execTanh (sid : SID) (vu : BitVec 64) (s : State) : Out :=
  .next (vuRow s sid.toNat (withPart (withOp vu.toNat 0x16) 0x7))
/-- SILU (R140): FN with PART 0x8. -/
def execSilu (sid : SID) (vu : BitVec 64) (s : State) : Out :=
  .next (vuRow s sid.toNat (withPart (withOp vu.toNat 0x16) 0x8))
/-- GELU (R140): FN with PART 0x9. -/
def execGelu (sid : SID) (vu : BitVec 64) (s : State) : Out :=
  .next (vuRow s sid.toNat (withPart (withOp vu.toNat 0x16) 0x9))
/-- FN_RESERVED (R140): FN with a reserved PART, 0xA to 0xF; a lower PART stands for 0xA. -/
def execFnReserved (sid : SID) (vu : BitVec 64) (s : State) : Out :=
  .next (vuRow s sid.toNat (withPart (withOp vu.toNat 0x16) (max 0xA (fld vu.toNat 5 2))))
/-- VU_OP_UNASSIGNED (R125): an OP that the table of R130 does not assign; an assigned one stands for 0x3F. -/
def execVuOpUnassigned (sid : SID) (vu : BitVec 64) (s : State) : Out :=
  .next (vuRow s sid.toNat (if vuAssigned (fld vu.toNat 63 58) then withOp vu.toNat 0x3F else vu.toNat))

end Sys2Proof.Machine
end

