-- ==== Sys2Proof/Machine/Dispatch.lean ====
section
/-! DEFINITION. The dispatch of a command to its meaning. -/
namespace Sys2Proof.Machine

/-- The effect of a command on everything but the queue. -/
def exec (i : Instr) (s : State) : Host.Outcome State Fault Refusal :=
  match i with
  | .bar0RegisterWrite port fn1 off parts poisoned => Sys2Proof.Machine.execBar0RegisterWrite port fn1 off parts poisoned s
  | .bar0LoReadLatch port fn1 off => Sys2Proof.Machine.execBar0LoReadLatch port fn1 off s
  | .bar0HiReadRelease port fn1 off parts => Sys2Proof.Machine.execBar0HiReadRelease port fn1 off parts s
  | .evtStatusClear port fn1 base again d same => Sys2Proof.Machine.execEvtStatusClear port fn1 base again d same s
  | .evtForce port fn1 base d => Sys2Proof.Machine.execEvtForce port fn1 base d s
  | .countClear port fn1 base => Sys2Proof.Machine.execCountClear port fn1 base s
  | .bar2Function1Request port off cycle a conds => Sys2Proof.Machine.execBar2Function1Request port off cycle a conds s
  | .bar2Function0Request port off cycle a conds => Sys2Proof.Machine.execBar2Function0Request port off cycle a conds s
  | .spindleWindowWrite port fn1 field k o d => Sys2Proof.Machine.execSpindleWindowWrite port fn1 field k o d s
  | .sequencerCycle sid conds => Sys2Proof.Machine.execSequencerCycle sid conds s
  | .plySwitch sid act => Sys2Proof.Machine.execPlySwitch sid act s
  | .loadRequest sid act => Sys2Proof.Machine.execLoadRequest sid act s
  | .counterUpdate sid act => Sys2Proof.Machine.execCounterUpdate sid act s
  | .tapIncrement sid act => Sys2Proof.Machine.execTapIncrement sid act s
  | .mpStoreRead sid act conds => Sys2Proof.Machine.execMpStoreRead sid act conds s
  | .mpRqRead sid act conds => Sys2Proof.Machine.execMpRqRead sid act conds s
  | .mpCqRead sid act => Sys2Proof.Machine.execMpCqRead sid act s
  | .mpWrite sid act conds => Sys2Proof.Machine.execMpWrite sid act conds s
  | .storeCorrectedWriteBack sid => Sys2Proof.Machine.execStoreCorrectedWriteBack sid s
  | .send sid act => Sys2Proof.Machine.execSend sid act s
  | .pop sid act => Sys2Proof.Machine.execPop sid act s
  | .ipMessageInject sid c => Sys2Proof.Machine.execIpMessageInject sid c s
  | .ipMessageLeft sid => Sys2Proof.Machine.execIpMessageLeft sid s
  | .vuNop sid vu => Sys2Proof.Machine.execVuNop sid vu s
  | .mov sid vu => Sys2Proof.Machine.execMov sid vu s
  | .and sid vu => Sys2Proof.Machine.execAnd sid vu s
  | .or sid vu => Sys2Proof.Machine.execOr sid vu s
  | .xor sid vu => Sys2Proof.Machine.execXor sid vu s
  | .shuf sid vu => Sys2Proof.Machine.execShuf sid vu s
  | .sel sid vu => Sys2Proof.Machine.execSel sid vu s
  | .add sid vu => Sys2Proof.Machine.execAdd sid vu s
  | .sub sid vu => Sys2Proof.Machine.execSub sid vu s
  | .max sid vu => Sys2Proof.Machine.execMax sid vu s
  | .min sid vu => Sys2Proof.Machine.execMin sid vu s
  | .cmpeq sid vu => Sys2Proof.Machine.execCmpeq sid vu s
  | .cmplt sid vu => Sys2Proof.Machine.execCmplt sid vu s
  | .cmple sid vu => Sys2Proof.Machine.execCmple sid vu s
  | .cvt sid vu => Sys2Proof.Machine.execCvt sid vu s
  | .qsc sid vu => Sys2Proof.Machine.execQsc sid vu s
  | .pack sid vu => Sys2Proof.Machine.execPack sid vu s
  | .unpack sid vu => Sys2Proof.Machine.execUnpack sid vu s
  | .lutb sid vu => Sys2Proof.Machine.execLutb sid vu s
  | .lutw sid vu => Sys2Proof.Machine.execLutw sid vu s
  | .exp2 sid vu => Sys2Proof.Machine.execExp2 sid vu s
  | .exp sid vu => Sys2Proof.Machine.execExp sid vu s
  | .log2 sid vu => Sys2Proof.Machine.execLog2 sid vu s
  | .rcp sid vu => Sys2Proof.Machine.execRcp sid vu s
  | .sqrt sid vu => Sys2Proof.Machine.execSqrt sid vu s
  | .rsqrt sid vu => Sys2Proof.Machine.execRsqrt sid vu s
  | .sigmoid sid vu => Sys2Proof.Machine.execSigmoid sid vu s
  | .tanh sid vu => Sys2Proof.Machine.execTanh sid vu s
  | .silu sid vu => Sys2Proof.Machine.execSilu sid vu s
  | .gelu sid vu => Sys2Proof.Machine.execGelu sid vu s
  | .fnReserved sid vu => Sys2Proof.Machine.execFnReserved sid vu s
  | .mul sid vu => Sys2Proof.Machine.execMul sid vu s
  | .fma sid vu => Sys2Proof.Machine.execFma sid vu s
  | .dotf sid vu => Sys2Proof.Machine.execDotf sid vu s
  | .dotl sid vu => Sys2Proof.Machine.execDotl sid vu s
  | .dotx sid vu => Sys2Proof.Machine.execDotx sid vu s
  | .ladd sid vu => Sys2Proof.Machine.execLadd sid vu s
  | .lclr sid vu => Sys2Proof.Machine.execLclr sid vu s
  | .lscl sid vu => Sys2Proof.Machine.execLscl sid vu s
  | .lrgd sid vu => Sys2Proof.Machine.execLrgd sid vu s
  | .lrd sid vu => Sys2Proof.Machine.execLrd sid vu s
  | .rsum sid vu => Sys2Proof.Machine.execRsum sid vu s
  | .rmax sid vu => Sys2Proof.Machine.execRmax sid vu s
  | .rmin sid vu => Sys2Proof.Machine.execRmin sid vu s
  | .rarg sid vu => Sys2Proof.Machine.execRarg sid vu s
  | .vuOpUnassigned sid vu => Sys2Proof.Machine.execVuOpUnassigned sid vu s
  | .vuResultWrite sid mm => Sys2Proof.Machine.execVuResultWrite sid mm s
  | .plyLoadStart sid => Sys2Proof.Machine.execPlyLoadStart sid s
  | .plyLoadDone sid => Sys2Proof.Machine.execPlyLoadDone sid s
  | .rgGo port fn1 field => Sys2Proof.Machine.execRgGo port fn1 field s
  | .watchCallAccept field => Sys2Proof.Machine.execWatchCallAccept field s
  | .waferCallDelivery field => Sys2Proof.Machine.execWaferCallDelivery field s
  | .callIssue field => Sys2Proof.Machine.execCallIssue field s
  | .callNop field => Sys2Proof.Machine.execCallNop field s
  | .switch field => Sys2Proof.Machine.execSwitch field s
  | .load field => Sys2Proof.Machine.execLoad field s
  | .restart field => Sys2Proof.Machine.execRestart field s
  | .tapAdd field => Sys2Proof.Machine.execTapAdd field s
  | .hold field => Sys2Proof.Machine.execHold field s
  | .release field => Sys2Proof.Machine.execRelease field s
  | .callBad field => Sys2Proof.Machine.execCallBad field s
  | .epQueueMessage sid vc src conds => Sys2Proof.Machine.execEpQueueMessage sid vc src conds s
  | .epStoreWrite sid vc src => Sys2Proof.Machine.execEpStoreWrite sid vc src s
  | .epStoreRead sid vc src conds => Sys2Proof.Machine.execEpStoreRead sid vc src conds s
  | .computeOffStoreAccess sid vc src => Sys2Proof.Machine.execComputeOffStoreAccess sid vc src s
  | .stallSkew sid ply queue cq => Sys2Proof.Machine.execStallSkew sid ply queue cq s
  | .spillCopy sid ply queue conds => Sys2Proof.Machine.execSpillCopy sid ply queue conds s
  | .deadlockSuspect sid ply queue cq => Sys2Proof.Machine.execDeadlockSuspect sid ply queue cq s
  | .linkCodewordReceive field loc detail back c => Sys2Proof.Machine.execLinkCodewordReceive field loc detail back c s
  | .linkReplay field loc detail back c past partly => Sys2Proof.Machine.execLinkReplay field loc detail back c past partly s
  | .ageingGrant sid port ready starved => Sys2Proof.Machine.execAgeingGrant sid port ready starved s
  | .calWindowExpiry field loc detail => Sys2Proof.Machine.execCalWindowExpiry field loc detail s
  | .calSlotStart field cycle => Sys2Proof.Machine.execCalSlotStart field cycle s
  | .calSlotEnd field ok past partly => Sys2Proof.Machine.execCalSlotEnd field ok past partly s
  | .chimeIncrement field vc src => Sys2Proof.Machine.execChimeIncrement field vc src s
  | .barrierArrival field chime srcs written more => Sys2Proof.Machine.execBarrierArrival field chime srcs written more s
  | .barrierRoundComplete field chime => Sys2Proof.Machine.execBarrierRoundComplete field chime s
  | .chimeSpaceWrite field vc src meets => Sys2Proof.Machine.execChimeSpaceWrite field vc src meets s
  | .chimeSpaceRead field vc src => Sys2Proof.Machine.execChimeSpaceRead field vc src s
  | .chValueWrite port fn1 chime d => Sys2Proof.Machine.execChValueWrite port fn1 chime d s
  | .chCfgWrite port fn1 chime d => Sys2Proof.Machine.execChCfgWrite port fn1 chime d s
  | .watchFire field watch => Sys2Proof.Machine.execWatchFire field watch s
  | .bobbinRead field src cycle conds closing => Sys2Proof.Machine.execBobbinRead field src cycle conds closing s
  | .bobbinWrite field src cycle => Sys2Proof.Machine.execBobbinWrite field src cycle s
  | .bobbinWriteBack field => Sys2Proof.Machine.execBobbinWriteBack field s
  | .refresh field bank => Sys2Proof.Machine.execRefresh field bank s
  | .scrubAccess field cycle conds => Sys2Proof.Machine.execScrubAccess field cycle conds s
  | .retrainSlot field channel => Sys2Proof.Machine.execRetrainSlot field channel s
  | .coReq port fn1 field target => Sys2Proof.Machine.execCoReq port fn1 field target s
  | .changeoverStart field => Sys2Proof.Machine.execChangeoverStart field s
  | .coDone field found => Sys2Proof.Machine.execCoDone field found s
  | .slotLost field slot => Sys2Proof.Machine.execSlotLost field slot s
  | .chStart port fn1 reel c d => Sys2Proof.Machine.execChStart port fn1 reel c d s
  | .chDisable port fn1 reel c d => Sys2Proof.Machine.execChDisable port fn1 reel c d s
  | .chDescriptorWrite port fn1 reel c o d => Sys2Proof.Machine.execChDescriptorWrite port fn1 reel c o d s
  | .triggerFire reel channel => Sys2Proof.Machine.execTriggerFire reel channel s
  | .channelAdmit reel => Sys2Proof.Machine.execChannelAdmit reel s
  | .reelReadRequest reel data => Sys2Proof.Machine.execReelReadRequest reel data s
  | .reelBeat reel cond => Sys2Proof.Machine.execReelBeat reel cond s
  | .reelWriteInject reel conds => Sys2Proof.Machine.execReelWriteInject reel conds s
  | .reelAckReceive reel src => Sys2Proof.Machine.execReelAckReceive reel src s
  | .xferDone reel channel => Sys2Proof.Machine.execXferDone reel channel s
  | .loadPeal cycle host conds => Sys2Proof.Machine.execLoadPeal cycle host conds s
  | .loadPealDone => Sys2Proof.Machine.execLoadPealDone s
  | .unloadPeal => Sys2Proof.Machine.execUnloadPeal s
  | .startRun => Sys2Proof.Machine.execStartRun s
  | .stopRun => Sys2Proof.Machine.execStopRun s
  | .drainDone => Sys2Proof.Machine.execDrainDone s
  | .abortRun => Sys2Proof.Machine.execAbortRun s
  | .faultAck cycle conds => Sys2Proof.Machine.execFaultAck cycle conds s
  | .faultAckDone => Sys2Proof.Machine.execFaultAckDone s
  | .issueStroke => Sys2Proof.Machine.execIssueStroke s
  | .strokeBlockArrival id cycle host conds => Sys2Proof.Machine.execStrokeBlockArrival id cycle host conds s
  | .strokeCopyIn cycle host conds => Sys2Proof.Machine.execStrokeCopyIn cycle host conds s
  | .strokeAdmit => Sys2Proof.Machine.execStrokeAdmit s
  | .strokeCopyOut id cycle host conds => Sys2Proof.Machine.execStrokeCopyOut id cycle host conds s
  | .strokeRecord id => Sys2Proof.Machine.execStrokeRecord id s
  | .strokeCompletionEntry id => Sys2Proof.Machine.execStrokeCompletionEntry id s
  | .runFault code field sid => Sys2Proof.Machine.execRunFault code field sid s
  | .fenceStrokeBoundary => Sys2Proof.Machine.execFenceStrokeBoundary s
  | .digest cycle host conds => Sys2Proof.Machine.execDigest cycle host conds s
  | .probe flaws => Sys2Proof.Machine.execProbe flaws s
  | .setPolicy => Sys2Proof.Machine.execSetPolicy s
  | .query => Sys2Proof.Machine.execQuery s
  | .cmdNop => Sys2Proof.Machine.execCmdNop s
  | .doorbell port fn1 ringPort ringFn1 tail => Sys2Proof.Machine.execDoorbell port fn1 ringPort ringFn1 tail s
  | .commandTake port fn1 entry poisoned => Sys2Proof.Machine.execCommandTake port fn1 entry poisoned s
  | .cplHeadWrite port fn1 ringPort ringFn1 head => Sys2Proof.Machine.execCplHeadWrite port fn1 ringPort ringFn1 head s
  | .ringEnable port fn1 ringPort ringFn1 enable irq => Sys2Proof.Machine.execRingEnable port fn1 ringPort ringFn1 enable irq s
  | .ringReset port fn1 ringPort ringFn1 => Sys2Proof.Machine.execRingReset port fn1 ringPort ringFn1 s
  | .completionEntryWrite port fn1 => Sys2Proof.Machine.execCompletionEntryWrite port fn1 s
  | .msixSend port fn1 vector => Sys2Proof.Machine.execMsixSend port fn1 vector s
  | .hostRdErr port channel poisoned late => Sys2Proof.Machine.execHostRdErr port channel poisoned late s
  | .hostFlushDone port channel ok => Sys2Proof.Machine.execHostFlushDone port channel ok s
  | .hostLinkChange port up width speed => Sys2Proof.Machine.execHostLinkChange port up width speed s
  | .portReset port => Sys2Proof.Machine.execPortReset port s
  | .functionLevelReset port fn1 => Sys2Proof.Machine.execFunctionLevelReset port fn1 s
  | .nirdorRetrain port => Sys2Proof.Machine.execNirdorRetrain port s
  | .trainingDone port rx tx margins inTime switch partnerPort partnerNumber => Sys2Proof.Machine.execTrainingDone port rx tx margins inTime switch partnerPort partnerNumber s
  | .portUp port partnerValid => Sys2Proof.Machine.execPortUp port partnerValid s
  | .engineNumberWrite v => Sys2Proof.Machine.execEngineNumberWrite v s
  | .portDown port => Sys2Proof.Machine.execPortDown port s
  | .linkFailure port seen => Sys2Proof.Machine.execLinkFailure port seen s
  | .laneSpared port lane margin tx => Sys2Proof.Machine.execLaneSpared port lane margin tx s
  | .frameReceive port rx ack => Sys2Proof.Machine.execFrameReceive port rx ack s
  | .frameReplay port nak conds => Sys2Proof.Machine.execFrameReplay port nak conds s
  | .packetBuild port src vc conds => Sys2Proof.Machine.execPacketBuild port src vc conds s
  | .packetReceive port => Sys2Proof.Machine.execPacketReceive port s
  | .packetDeliver port sent cond => Sys2Proof.Machine.execPacketDeliver port sent cond s
  | .creditSend port entry cond => Sys2Proof.Machine.execCreditSend port entry cond s
  | .creditReceive port => Sys2Proof.Machine.execCreditReceive port s
  | .ackPacketSend port src sent cond => Sys2Proof.Machine.execAckPacketSend port src sent cond s
  | .ackPacketReceive port => Sys2Proof.Machine.execAckPacketReceive port s
  | .packetRelay port conds => Sys2Proof.Machine.execPacketRelay port conds s
  | .remoteLoss port cause entry => Sys2Proof.Machine.execRemoteLoss port cause entry s
  | .exportEntryWrite port imp word v => Sys2Proof.Machine.execExportEntryWrite port imp word v s
  | .refLockChange port locked => Sys2Proof.Machine.execRefLockChange port locked s
  | .refLost range old => Sys2Proof.Machine.execRefLost range old s
  | .xoArmed => Sys2Proof.Machine.execXoArmed s
  | .xoLost range => Sys2Proof.Machine.execXoLost range s
  | .xoRequal => Sys2Proof.Machine.execXoRequal s
  | .refSelectWrite sel port => Sys2Proof.Machine.execRefSelectWrite sel port s
  | .portEligible port => Sys2Proof.Machine.execPortEligible port s
  | .sourceSwitch => Sys2Proof.Machine.execSourceSwitch s
  | .forcedSwitch => Sys2Proof.Machine.execForcedSwitch s
  | .relocked => Sys2Proof.Machine.execRelocked s
  | .divChange south => Sys2Proof.Machine.execDivChange south s
  | .throttleChange south cause => Sys2Proof.Machine.execThrottleChange south cause s
  | .timebaseTick => Sys2Proof.Machine.execTimebaseTick s
  | .tbLoadGo => Sys2Proof.Machine.execTbLoadGo s
  | .coldReset source => Sys2Proof.Machine.execColdReset source s
  | .engineReset source => Sys2Proof.Machine.execEngineReset source s
  | .fieldReset source field => Sys2Proof.Machine.execFieldReset source field s
  | .runAbortReset cycle conds => Sys2Proof.Machine.execRunAbortReset cycle conds s
  | .resetDone => Sys2Proof.Machine.execResetDone s
  | .powerOn => Sys2Proof.Machine.execPowerOn s
  | .belfryBoot upA upB => Sys2Proof.Machine.execBelfryBoot upA upB s
  | .transitOn => Sys2Proof.Machine.execTransitOn s
  | .fuseSheetRead softLost => Sys2Proof.Machine.execFuseSheetRead softLost s
  | .fieldTestStart => Sys2Proof.Machine.execFieldTestStart s
  | .fieldTestDone field bad cmax m noGates others => Sys2Proof.Machine.execFieldTestDone field bad cmax m noGates others s
  | .mapDone => Sys2Proof.Machine.execMapDone s
  | .sensorSample x => Sys2Proof.Machine.execSensorSample x s
  | .sensorFail sensor => Sys2Proof.Machine.execSensorFail sensor s
  | .hotOff field => Sys2Proof.Machine.execHotOff field s
  | .hotBack field => Sys2Proof.Machine.execHotBack field s
  | .engineTrip => Sys2Proof.Machine.execEngineTrip s
  | .tripRecovery => Sys2Proof.Machine.execTripRecovery s
  | .fuseTrip field compute memory low => Sys2Proof.Machine.execFuseTrip field compute memory low s
  | .dieSuspect field slot => Sys2Proof.Machine.execDieSuspect field slot s
  | .logPoll => Sys2Proof.Machine.execLogPoll s
  | .hourlySummary => Sys2Proof.Machine.execHourlySummary s
  | .bfHeartbeat => Sys2Proof.Machine.execBfHeartbeat s
  | .captureReadByBelfry field => Sys2Proof.Machine.execCaptureReadByBelfry field s
  | .hit => Sys2Proof.Machine.execHit s
  | .suspectProbe sid flaws => Sys2Proof.Machine.execSuspectProbe sid flaws s
  | .hitExpiry sid => Sys2Proof.Machine.execHitExpiry sid s
  | .sweep flaws => Sys2Proof.Machine.execSweep flaws s
  | .parityFailure sid cause ply => Sys2Proof.Machine.execParityFailure sid cause ply s
  | .secdedError word double => Sys2Proof.Machine.execSecdedError word double s
  | .mbSend port fn1 => Sys2Proof.Machine.execMbSend port fn1 s
  | .info => Sys2Proof.Machine.execInfo s
  | .sensors => Sys2Proof.Machine.execSensors s
  | .logRead => Sys2Proof.Machine.execLogRead s
  | .mapRead => Sys2Proof.Machine.execMapRead s
  | .captureRead => Sys2Proof.Machine.execCaptureRead s
  | .hitsRead => Sys2Proof.Machine.execHitsRead s
  | .fieldHold => Sys2Proof.Machine.execFieldHold s
  | .mailboxReset => Sys2Proof.Machine.execMailboxReset s
  | .diePolicy => Sys2Proof.Machine.execDiePolicy s
  | .updateBegin => Sys2Proof.Machine.execUpdateBegin s
  | .updateData => Sys2Proof.Machine.execUpdateData s
  | .updateEnd => Sys2Proof.Machine.execUpdateEnd s
  | .updateSessionTimeout => Sys2Proof.Machine.execUpdateSessionTimeout s
  | .trialConfirm ok => Sys2Proof.Machine.execTrialConfirm ok s
  | .smbusStatusRead addr withPec => Sys2Proof.Machine.execSmbusStatusRead addr withPec s
  | .smbusCoolantRead addr withPec out => Sys2Proof.Machine.execSmbusCoolantRead addr withPec out s
  | .smbusInputRead addr withPec power => Sys2Proof.Machine.execSmbusInputRead addr withPec power s
  | .smbusTmaxRead addr withPec => Sys2Proof.Machine.execSmbusTmaxRead addr withPec s
  | .smbusResetWrite addr v code => Sys2Proof.Machine.execSmbusResetWrite addr v code s
  | .inputSwitchClose mv => Sys2Proof.Machine.execInputSwitchClose mv s
  | .inputSwitchOpen mv => Sys2Proof.Machine.execInputSwitchOpen mv s
  | .transitOvercurrent south => Sys2Proof.Machine.execTransitOvercurrent south s
  | .unmappedPageRead port fn1 off parts => Sys2Proof.Machine.execUnmappedPageRead port fn1 off parts s
  | .retrainSlotEnd field channel ok => Sys2Proof.Machine.execRetrainSlotEnd field channel ok s
  | .laneSwapSlotEnd port => Sys2Proof.Machine.execLaneSwapSlotEnd port s
  | .managementNetworkMessage session verified ws => Sys2Proof.Machine.execManagementNetworkMessage session verified ws s

end Sys2Proof.Machine
end

