-- ==== Sys2Proof/Machine/Step.lean ====
section
/-! DEFINITION. The step: the engine takes the command at the front of its queue. -/
namespace Sys2Proof.Machine

/-- One step: the command at the front of the queue takes effect on the engine with the rest of the queue; with nothing waiting the
engine idles (DESIGN CHOICE, assumption log 4: time-driven effects are commands of their own). -/
def step (s : State) : Host.Outcome State Fault Refusal :=
  match s.pending with
  | [] => .next s
  | c :: rest => exec c { s with pending := rest }

/-- The state with the command that a table word spells at the front of the queue; unchanged where the word spells none. -/
def State.withFetchWord (s : State) (nbits w : Nat) : State :=
  match decodeTableWord nbits w with
  | some c => { s with pending := c :: s.pending }
  | none => s

end Sys2Proof.Machine
end

