-- ==== Sys2Proof/Frames.lean ====
section
/-! DEFINITION. What claims and lemmas mean by a part of the engine left alone. -/
namespace Sys2Proof.Machine

/-- `t` is `s` but for its registers. -/
def onlyRegs (s t : State) : Prop := t = { s with regs := t.regs }

/-- Every byte of bobbin and store memory, and every mark, reads as before. -/
def sameMemory (s t : State) : Prop :=
  (∀ a, readByte t a = readByte s a) ∧ (∀ l, markOf t l = markOf s l)

/-- Every register that does not satisfy `p` reads as stored before. -/
def sameRegs (p : Nat → Prop) (s t : State) : Prop := ∀ o, ¬ p o → t.reg o = s.reg o

/-- `t` is `s` but for the registers that satisfy `p`. -/
def onlyRegsAt (p : Nat → Prop) (s t : State) : Prop := onlyRegs s t ∧ sameRegs p s t

end Sys2Proof.Machine
end

