-- ==== Sys2Proof/Safety.lean ====
section
/-! DEFINITION. What the claims mean by a state in good order and by a part of the engine left alone. -/
namespace Sys2Proof.Machine

/-- The tables of a state that hold registers, memory and marks are in canonical form: equal contents are equal data. -/
def State.tablesWf (s : State) : Bool :=
  Memory.wf s.mem && SMap.wf resetOf s.regs && SMap.wf (fun _ => false) s.marks

/-- A command completes on a state, and `P` holds of the next state. -/
def completes (i : Instr) (s : State) (P : State → Prop) : Prop := ∃ t, exec i s = .next t ∧ P t

/-! ### The vector unit -/

/-- The long accumulators, by index and lane, after an accumulator effect (R116, R145). -/
def laAfter (e : LaEff) (la : Nat → Nat → BitVec 128) (i l : Nat) : BitVec 128 :=
  match e with
  | .none => la i l
  | .add j vals => if i = j then la i l + nth 0#128 vals l else la i l
  | .clr j => if i = j then 0#128 else la i l
  | .scl j _ => if i = j then 0#128 else la i l
  | .regrid j _ vals => if i = j then nth 0#128 vals l else la i l

/-- LA_SCALE after an accumulator effect (R145): SCALE_j stands in bits [8j + 7:8j]. -/
def scaleAfter (e : LaEff) (w : Word) : Word :=
  match e with
  | .scl j sc => putF w (8 * j + 7) (8 * j) sc.toNat
  | .regrid j sc _ => putF w (8 * j + 7) (8 * j) sc.toNat
  | _ => w

/-- What a result `r` for register `dst`, fired by ply `k`, leaves of a spindle `p` (R75, R123, R133): the bits of `dst` that `r` names, the
long accumulators, LA_SCALE and PLY_FLAGS of the ply as `r` says, the shadow lane one on where `lane` says that it steps, and every other
register of the spindle as it was. -/
def spinLeaves (p q : Spindle) (k dst : Nat) (r : VuRes) (lane : Bool) : Prop :=
  (∀ v, q.vreg v = if v = dst ∧ r.mask ≠ 0 then BitVec.ofNat 512 (blend (p.vreg v).toNat r.val r.mask) else p.vreg v)
  ∧ (∀ i l, l < 16 → q.lacc i l = laAfter r.la p.lacc i l)
  ∧ q.wreg 7 0x44 = scaleAfter r.la (p.wreg 7 0x44)
  ∧ q.wreg (1 + k) 0x48 = p.wreg (1 + k) 0x48 ||| BitVec.ofNat 32 r.fl.bits
  ∧ q.wreg 5 0x4C = (if lane then putF (p.wreg 5 0x4C) 3 0 (getF (p.wreg 5 0x4C) 3 0 + 1) else p.wreg 5 0x4C)
  ∧ (∀ g o, o < 4096 → ¬ (g = 7 ∧ o = 0x44) → ¬ (g = 1 + k ∧ o = 0x48) → ¬ (g = 5 ∧ o = 0x4C) → q.wreg g o = p.wreg g o)

/-- What a VU operation with word `w` reads on spindle `sid` (R126 to R129): the operand registers, the accumulators, the modes of the
active ply and the draw inputs of its current action. -/
def vuArgs (s : State) (sid : Nat) (w : VuW) : VuIn :=
  vuInputs (s.spin sid) sid (s.spin sid).ply ((s.spin sid).curAct (s.spin sid).ply) w

/-- The result `r` of the VU word `w` is written on spindle `sid` by its active ply, its shadow lane steps where the word is an operation
(R75), and nothing else of the engine changes. -/
def vuLeaves (s t : State) (sid : Nat) (w : VuW) (r : VuRes) : Prop :=
  t = { s with spindles := t.spindles } ∧ (∀ j, j ≠ sid → t.spin j = s.spin j)
  ∧ spinLeaves (s.spin sid) (t.spin sid) (s.spin sid).ply w.dst r (vuRuns w.op)

/-- A row of the vector unit with operation code `op` completes on every spindle that is on, and writes the result that `r` forms from the
row's VU word (its OP replaced by `op`) and what it reads. -/
def vuDoes (row : SID → BitVec 64 → Instr) (op : Nat) (r : VuW → VuIn → VuRes) : Prop :=
  ∀ (s : State) (sid : SID) (vu : BitVec 64), spinOn s sid.toNat = true → (s.spin sid.toNat).ply < 4 →
    completes (row sid vu) s (fun t =>
      vuLeaves s t sid.toNat { vuDecode vu.toNat with op := op }
        (r { vuDecode vu.toNat with op := op } (vuArgs s sid.toNat { vuDecode vu.toNat with op := op })))

/-- The same for a row of FN, whose PART is the row's own (R140). -/
def fnDoes (row : SID → BitVec 64 → Instr) (part : Nat) (r : VuW → VuIn → VuRes) : Prop :=
  ∀ (s : State) (sid : SID) (vu : BitVec 64), spinOn s sid.toNat = true → (s.spin sid.toNat).ply < 4 →
    completes (row sid vu) s (fun t =>
      vuLeaves s t sid.toNat { vuDecode vu.toNat with op := 0x16, part := part }
        (r { vuDecode vu.toNat with op := 0x16, part := part }
          (vuArgs s sid.toNat { vuDecode vu.toNat with op := 0x16, part := part })))

/-- FN of function number k (R126, R140): each element of A, correctly rounded into FMT_D. BLANE stands in PART's place. -/
def fnRes (k : Nat) (w : VuW) (x : VuIn) : VuRes :=
  let a := opndA w x
  let f := destFmt w.op w.fD
  let n := min a.fmt.perReg f.perReg
  elementwise f n w.blane (fun j idx =>
    let (v, f1) := a.elem x.md (partIdx a.fmt.perReg n w.blane j)
    if !f.flushes then (0, f1.or flInvalid)
    else
      let (c, f2) := fnEval k f x.md (drawAt x.sr f idx) v
      (c, f1.or f2))

/-! ### Registers -/

/-- BAR0 offset `off` names a register with the fields `fs` in page `pg`, present and in service. -/
structure Serves (s : State) (off : Nat) (pg : Page) (fs : List RField) : Prop where
  page : locate off = some pg
  fields : pageFields pg.kind (off - pg.base) = some fs
  inService : pageOut s pg (off - pg.base) = false
  present : absent s pg = false

/-- Bit i of a register lies in a field whose access code satisfies `p`. -/
def bitAcc (fs : List RField) (p : Acc → Prop) (i : Nat) : Prop := ∃ f ∈ fs, f.lo ≤ i ∧ i ≤ f.hi ∧ p f.acc

/-- The registers of which a write changes the register and does nothing else. -/
def plainReg (k : PKind) (o : Nat) : Bool :=
  decide (0x40 ≤ o) && match k with
  | .fuseSheet | .run | .mbox0 | .fieldCtrl | .chime0 | .bob1 | .bob2 | .swSel | .power | .nirdor1 => true
  | .nirdor0 => o != 0x40 && !(decide (0xC0 ≤ o) && decide (o < 0xE8))
  | .edgeRing => o != 0x54 && o != 0x84 && !(decide (0x60 ≤ o) && decide (o < 0x80))
  | .clock | .reset => o != 0x40
  | .timebase => o != 0x58
  | .ringer => o != 0x4C
  | .bob0 => o != 0x48
  | .global => o != 0x68
  | .hpCtrl => o != 0x44 && o != 0x50
  | .reel _ | .hostReel _ => decide (o < 0x100)
  | _ => false

/-- The GLOBAL registers that a denial may change (R45): EVT_STATUS, EVT_AGAIN, DENIED_LAST and HOST_VIEW_DENIED_LO and _HI. -/
def denialReg (o : Nat) : Prop :=
  o = pGlobal + 0x18 ∨ o = pGlobal + 0x1C ∨ o = pGlobal + 0x6C ∨ o = pGlobal + 0x70 ∨ o = pGlobal + 0x74

/-- The bits that a page's EVT registers define (R39). -/
def evtBit (k : PKind) (i : Nat) : Prop := i < evtCount k ∨ (27 ≤ i ∧ i < 32)

/-! ### Host ports -/

/-- The ring halted on error `err`, with RING_HALT raised (R389). -/
def halted (t : State) (rq : Req) (err : Nat) : Prop :=
  t.bget (ringPage rq + 0x68) 31 = true ∧ t.fget (ringPage rq + 0x68) 19 16 = err ∧ t.bget (ringPage rq + 0x18) 0 = true

/-- Register `o` of the ring's page, or one that a halt changes: RING_STATUS and the EVT registers. -/
def ringRegs (rq : Req) (o a : Nat) : Prop :=
  a = ringPage rq + o ∨ a = ringPage rq + 0x68 ∨ a = ringPage rq + 0x18 ∨ a = ringPage rq + 0x1C

/-- The ring may take the command at CMD_HEAD (R388): it is enabled and not halted, a command is announced, a completion slot is neither
filled nor reserved, and the port's link is up. -/
def ringTakes (s : State) (rq : Req) : Prop :=
  s.bget (ringPage rq + 0x40) 0 = true ∧ s.bget (ringPage rq + 0x68) 31 = false ∧ cmdHead s rq ≠ cmdTail s rq ∧
  (2 ^ cplLog s rq + cplTail s rq % 2 ^ cplLog s rq - cplHead s rq % 2 ^ cplLog s rq) % 2 ^ cplLog s rq + ringPending s rq
    < 2 ^ cplLog s rq - 1 ∧ s.bget (pHost rq.port.val 0 + 0x40) 31 = true

/-- Headers were counted on their routes (R87, R44): every spindle keeps all but the counters of its page 6 and what its EP serves, and the
engine keeps every register but those that `p` admits and the events of router pages, which a counter that wraps raises. -/
def routed (p : Nat → Prop) (s t : State) : Prop :=
  sameRegs (fun o => p o ∨ ∃ f, o = pWin f 6 + 0x18 ∨ o = pWin f 6 + 0x1C) s t ∧
  ∀ j, t.spin j = { s.spin j with win := (t.spin j).win, ep := (t.spin j).ep } ∧ ∀ g o, o < 4096 → g ≠ 6 → (t.spin j).wreg g o = (s.spin j).wreg g o

/-- The EP of spindle `sid` has a header and one line in the bank of store offset `o` more to pass (R62), and no other EP has. -/
def epPassed (s t : State) (sid o : Nat) : Prop :=
  ∀ j, (t.spin j).ep = if j = sid then (s.spin j).ep ++ [0#8, bankOf (o / 32)] else (s.spin j).ep

/-- No link is down and no field is mapped out whole: no route is cut (R228, R437). -/
def routesWhole (s : State) : Prop := (∀ kl ∈ s.links, kl.2.down = false) ∧ ∀ fm ∈ s.maps, fm.2.fail = false

/-- `t` is `s` with the 32 bytes `bs` stored in the store line at offset `o` of spindle `sid`, marked when poisoned (R386); a poisoned
write counts in POISON_RX of port h, the routes of the write and of its acknowledgement are counted (R87), and nothing else changes. -/
def storeLineWritten (s t : State) (h sid o : Nat) (bs : List Byte) (poisoned : Bool) : Prop :=
  let a := storeAddr sid (o / 32)
  (∀ j, j < 32 → readByte t (a + j) = nth 0#8 bs j) ∧ markOf t (a / 32) = poisoned ∧
  (∀ c, (c < a ∨ a + 32 ≤ c) → readByte t c = readByte s c) ∧ (∀ l, l ≠ a / 32 → markOf t l = markOf s l) ∧
  routed (fun r => poisoned = true ∧ (r = pHost h 0 + 0x68 ∨ r = pHost h 0 + 0x6C ∨ r = pHost h 0 + 0x18 ∨ r = pHost h 0 + 0x1C)) s t ∧
  (poisoned = true → t.reg (pHost h 0 + 0x68) = s.reg (pHost h 0 + 0x68) + 1#32) ∧ epPassed s t sid o ∧
  t = { s with mem := t.mem, marks := t.marks, regs := t.regs, spindles := t.spindles }

/-- `t` is `s` after a BAR2 read of the store line at offset `o` of spindle `sid`: its bytes went out, the routes of the request and of its
response are counted (R87), and nothing else changes. -/
def storeLineRead (s t : State) (rq : Req) (sid o : Nat) : Prop :=
  t.out = s.out ++ [.bar2 rq (toBytesLE 32 (readLine s (storeAddr sid (o / 32))).data.toNat) false] ∧
  routed (fun _ => False) s t ∧ epPassed s t sid o ∧ t = { s with regs := t.regs, spindles := t.spindles, out := t.out }

/-- An EA names a whole line of a spindle's store that is in service. -/
def storeEa (s : State) (ea sid o : Nat) : Prop :=
  ea % 32 = 0 ∧ ea < 2 ^ 48 ∧ decodeEA s ea = .store sid o ∧ spOff s sid = false

/-! ### Spindles -/

/-- Nothing changes but spindle `sid`. -/
def onlySpin (s t : State) (sid : Nat) : Prop := t = { s with spindles := t.spindles } ∧ ∀ j, j ≠ sid → t.spin j = s.spin j

/-- NEXT of an action word in ply k (R161): NEXT_T where SKIP is 1 or COND holds, else NEXT_F. -/
def nextAct (p : Spindle) (k w : Nat) : Nat := if w.testBit 238 = true ∨ condOf p k w = true then fld w 255 250 else fld w 249 244

/-- Whether counter i steps at an action's counter update (R158): by code 1, or by code 3 where the counter below steps and wraps. -/
def ctrSteps (p : Spindle) (k w : Nat) : Nat → Bool
  | 0 => decide (fld w 173 172 = 1)
  | i + 1 => decide (fld w (173 + 2 * (i + 1)) (172 + 2 * (i + 1)) = 1) ||
      (decide (fld w (173 + 2 * (i + 1)) (172 + 2 * (i + 1)) = 3) && ctrSteps p k w i && ctrLast p k i)

/-- The value of counter i after an action's counter update (R157, R158). -/
def ctrAfter (p : Spindle) (k w i : Nat) : Nat :=
  if ctrSteps p k w i then (if ctrLast p k i then 0 else p.ctr k i + ctrStride p k i)
  else if fld w (173 + 2 * i) (172 + 2 * i) = 2 then 0 else p.ctr k i

/-! ### Ringer calls -/

/-- The row of a call code (R167, R170, R172): when the oldest issued call of a field has a code that `codes` admits, and no LOAD is delayed,
the call leaves the issued ones, RG_LAST_TB is recorded, `eff` relates every selected spindle before and after, no other spindle changes,
and no register but RG_LAST_TB and those that `regs` admits. -/
def callRuns (row : Fin 64 → Instr) (codes : Nat → Prop) (eff : Call → Spindle → Spindle → Prop) (regs : Nat → Nat → Prop) : Prop :=
  ∀ (s : State) (f : Fin 64) (c : Call) (rest : List Call), (s.ringer f.val).issued = c :: rest → codes c.code →
    loadDelayed s f.val c = false →
    completes (row f) s (fun t =>
      t.ringer f.val = { s.ringer f.val with issued := rest } ∧ (∀ g, g ≠ f.val → t.ringer g = s.ringer g) ∧
      t.reg (pRinger f.val + 0x60) = s.reg (pTb + 0x40) ∧ t.reg (pRinger f.val + 0x64) = s.reg (pTb + 0x44) ∧
      (∀ n, n ∈ selected s f.val c → eff c (s.spin n) (t.spin n)) ∧ (∀ n, n ∉ selected s f.val c → t.spin n = s.spin n) ∧
      sameRegs (fun o => o = pRinger f.val + 0x60 ∨ o = pRinger f.val + 0x64 ∨ regs f.val o) s t ∧
      t = { s with regs := t.regs, ringers := t.ringers, spindles := t.spindles })

/-! ### Messages -/

/-- The spindles but `sid` keep every register outside page 6, whose counters follow a message's route (R87). -/
def onlyCounted (s t : State) (sid : Nat) : Prop :=
  ∀ j, (∀ g o, o < 4096 → g ≠ 6 → j ≠ sid → (t.spin j).wreg g o = (s.spin j).wreg g o) ∧ (∀ r, (t.spin j).vreg r = (s.spin j).vreg r)

/-- The message that the EP of a spindle takes on a virtual channel (R188), among those that `p` admits. -/
def epTakes (s : State) (sid : SID) (vc : Fin 4) (src : SID) (p : Msg → Bool) (pre : List Msg) (m : Msg) (post : List Msg) : Prop :=
  takeAt s sid.toNat vc.val src p = some (pre, m, post)

/-! ### The run -/

/-- The registers that a posted OK entry of a stroke may change: RUN_NEXT_ID, STROKES_DONE and the page's events (R333). -/
def strokeRegs (a : Nat) : Prop := a = pRun + 0x50 ∨ a = pRun + 0x98 ∨ a = pRun + 0x9C ∨ a = pRun + 0x18 ∨ a = pRun + 0x1C

/-- A completion entry falls due for a command in the ring that issued it, unless a ring reset discarded the command (R320, R394); no other
ring changes. -/
def posted (s t : State) (c : Cmd) (status detail : Nat) (result : BitVec 128) : Prop :=
  t.ring c.rq = { s.ring c.rq with due := (s.ring c.rq).due ++
    (if c.live then [⟨c.op, BitVec.ofNat 32 (c.arg 63 32), status, detail, c.stroke, result⟩] else []) } ∧
  ∀ rq, rq ≠ c.rq → t.ring rq = s.ring rq

/-- Plies, and what a peal has claimed, stay within what exists: active plies and the plies of calls and START records below 4, chimes below
32,768, channels that their reel has, and copies of a channel's own registers. -/
def State.fits (s : State) : Prop :=
  (∀ sid, (s.spin sid).ply < 4) ∧
  (∀ f, (∀ c ∈ (s.ringer f).calls, c.ply < 4) ∧ (∀ c ∈ (s.ringer f).issued, c.ply < 4) ∧
    (∀ c ∈ (s.ringer f).tree, c.1.ply < 4) ∧ (∀ c ∈ (s.ringer f).held, c.2.ply < 4)) ∧
  (∀ x ∈ s.run.starts, x.1 < 2 ^ 21 ∧ x.2 < 4) ∧ (∀ c ∈ s.run.chimes, c < 32768) ∧
  (∀ x ∈ s.run.chans, x.1 < 68 ∧ x.2 < reelChans x.1) ∧
  (∀ r c k, (s.chan r c).copy = some k → k.regs.map (·.1) = copyOffs)

/-! ### Nirdor ports -/

/-- Port p takes this packet next, among those that arrived and that `f` admits. -/
def takesPacket (s : State) (p : Fin 16) (f : Packet → Bool) (k : Packet) (v : State) : Prop :=
  takeArrived s p.val f = some (k, v)

/-- The ports but `p` keep their records. -/
def otherNirs (s t : State) (p : Fin 16) : Prop := ∀ q, q ≠ p.val → t.nir q = s.nir q

/-- The port may send a frame at once: its link is UP, nothing waits, no lane-swap slot runs, and its replay buffer has room (R351, R354). -/
def sendsAtOnce (s : State) (q : Nat) : Prop :=
  linkState s q = 3 ∧ (s.nir q).tx = [] ∧ (s.nir q).transit = [] ∧ (s.nir q).swap = false ∧ (s.nir q).replay.length < 4096

end Sys2Proof.Machine
end

