-- ==== Sys2Proof/Certificates/Slice0/Obligations.lean ====
section
/-! DEFINITION. The statements about the engine, for the provers. -/
open Sys2Proof Sys2Proof.Machine

/-- VU logic, moves and selects: each row completes and writes DST by its line of the table of R130.
That a row acts at once on the active ply (assumption log 8) and that SEL copies raw bits (log 13) are the model's readings. -/
def Obligations.VuLogicRowsWriteDst : Prop :=
  vuDoes .vuNop 0x00 (fun _ _ => {})
  ∧ vuDoes .mov 0x01 (fun _ x => fullRes x.A)
  ∧ vuDoes .and 0x02 (fun w x => fullRes (x.A &&& rawB w x))
  ∧ vuDoes .or 0x03 (fun w x => fullRes (x.A ||| rawB w x))
  ∧ vuDoes .xor 0x04 (fun w x => fullRes (x.A ^^^ rawB w x))
  ∧ vuDoes .shuf 0x05 vuShuf
  ∧ vuDoes .sel 0x06 vuSel

/-- VU arithmetic (R131, R132): ADD, SUB, MUL and FMA form their value exactly and round it once into FMT_D, element by element.
The model's readings: a row acts at once on the active ply (assumption log 8); INVALID is set for infinity minus infinity and zero times
infinity beside a NaN too, and integer formats saturate (log 13). -/
def Obligations.VuArithmeticRowsRoundOnce : Prop :=
  vuDoes .add 0x08 (fun w x => vuBinary w x (fun a b => XVal.sum (x.md.round = .rdn) [a, b]))
  ∧ vuDoes .sub 0x09 (fun w x => vuBinary w x (fun a b => XVal.sum (x.md.round = .rdn) [a, b.neg]))
  ∧ vuDoes .mul 0x20 (fun w x => vuBinary w x (fun a b => ((if w.neg then (a.mul b).1.neg else (a.mul b).1), (a.mul b).2)))
  ∧ vuDoes .fma 0x21 vuFma

/-- VU comparisons (R139): MAX, MIN, CMPEQ, CMPLT and CMPLE.
The model's readings: a row acts at once on the active ply (assumption log 8); a NaN scale sets no INVALID in a comparison (log 13). -/
def Obligations.VuComparisonRowsCompare : Prop :=
  vuDoes .max 0x0A (fun w x => vuBinary w x (fun a b => (pickMax true a b, noFlags)))
  ∧ vuDoes .min 0x0B (fun w x => vuBinary w x (fun a b => (pickMax false a b, noFlags)))
  ∧ vuDoes .cmpeq 0x0C (fun w x => vuCompare w x (fun c => c = 0))
  ∧ vuDoes .cmplt 0x0D (fun w x => vuCompare w x (fun c => c < 0))
  ∧ vuDoes .cmple 0x0E (fun w x => vuCompare w x (fun c => c ≤ 0))

/-- VU conversions and tables (R141 to R144): on every spindle that is on, exec of each of CVT, QSC, PACK, UNPACK, LUTB and LUTW answers a
next state, which holds the row's result for every VU word and operand. The model's readings: a row acts at once on the active ply (assumption
log 8); UNPACK and the look-ups ignore BCAST, CVT to an integer format saturates and follows R142 where R104's step 3 would zero, and QSC and the
look-ups have the corners of log 13. -/
def Obligations.VuConversionRowsConvert : Prop :=
  ∀ (s : State) (sid : SID) (vu : BitVec 64), spinOn s sid.toNat = true → (s.spin sid.toNat).ply < 4 →
    let w := fun (op : Nat) => { vuDecode vu.toNat with op := op }
    let x := fun (op : Nat) => vuArgs s sid.toNat (w op)
    let leaves := fun (t : State) (op : Nat) (r : VuRes) => vuLeaves s t sid.toNat (w op) r
    (∃ t, exec (.cvt sid vu) s = .next t ∧ leaves t 0x10 (vuCvt (w 0x10) (x 0x10))) ∧
    (∃ t, exec (.qsc sid vu) s = .next t ∧ leaves t 0x11 (vuQsc (w 0x11) (x 0x11))) ∧
    (∃ t, exec (.pack sid vu) s = .next t ∧ leaves t 0x12 (vuPack (w 0x12) (x 0x12))) ∧
    (∃ t, exec (.unpack sid vu) s = .next t ∧ leaves t 0x13 (vuUnpack (w 0x13) (x 0x13))) ∧
    (∃ t, exec (.lutb sid vu) s = .next t ∧ leaves t 0x14 (vuLut (w 0x14) (x 0x14) true)) ∧
    (∃ t, exec (.lutw sid vu) s = .next t ∧ leaves t 0x15 (vuLut (w 0x15) (x 0x15) false))

/-- FN (R140): the ten functions and the reserved parts. The model's readings: a row acts at once on the active ply (assumption log 8); the
precision at which an evaluation ends, and zero where a reserved PART meets a forbidden FMT_D that has a NaN (log 13). -/
def Obligations.VuFunctionRowsEvaluate : Prop :=
  fnDoes .exp2 0 (fnRes 0) ∧ fnDoes .exp 1 (fnRes 1) ∧ fnDoes .log2 2 (fnRes 2) ∧ fnDoes .rcp 3 (fnRes 3)
  ∧ fnDoes .sqrt 4 (fnRes 4) ∧ fnDoes .rsqrt 5 (fnRes 5) ∧ fnDoes .sigmoid 6 (fnRes 6) ∧ fnDoes .tanh 7 (fnRes 7)
  ∧ fnDoes .silu 8 (fnRes 8) ∧ fnDoes .gelu 9 (fnRes 9)
  ∧ (∀ (s : State) (sid : SID) (vu : BitVec 64), spinOn s sid.toNat = true → (s.spin sid.toNat).ply < 4 →
      ∃ part, 0xA ≤ part ∧ part < 16 ∧ (0xA ≤ (vuDecode vu.toNat).part → part = (vuDecode vu.toNat).part) ∧
        completes (.fnReserved sid vu) s (fun t => vuLeaves s t sid.toNat { vuDecode vu.toNat with op := 0x16, part := part }
          (fnRes part { vuDecode vu.toNat with op := 0x16, part := part }
            (vuArgs s sid.toNat { vuDecode vu.toNat with op := 0x16, part := part }))))

/-- VU long accumulators and dot products (R137, R145): on every spindle that is on, exec of each of DOTF, DOTL, DOTX, LADD, LCLR, LSCL, LRGD
and LRD answers a next state, which holds the row's result for every VU word and operand. The model's readings: a row acts at once on the active
ply (assumption log 8); LADD of an LA128 operand ignores NEG, and DOTF with a forbidden FMT_D reads nothing (log 13). -/
def Obligations.VuAccumulatorRowsAccumulate : Prop :=
  ∀ (s : State) (sid : SID) (vu : BitVec 64), spinOn s sid.toNat = true → (s.spin sid.toNat).ply < 4 →
    let w := fun (op : Nat) => { vuDecode vu.toNat with op := op }
    let x := fun (op : Nat) => vuArgs s sid.toNat (w op)
    let leaves := fun (t : State) (op : Nat) (r : VuRes) => vuLeaves s t sid.toNat (w op) r
    (∃ t, exec (.dotf sid vu) s = .next t ∧ leaves t 0x22 (vuDotf (w 0x22) (x 0x22))) ∧
    (∃ t, exec (.dotl sid vu) s = .next t ∧ leaves t 0x23 (vuDotLa (w 0x23) (x 0x23) false)) ∧
    (∃ t, exec (.dotx sid vu) s = .next t ∧ leaves t 0x24 (vuDotLa (w 0x24) (x 0x24) true)) ∧
    (∃ t, exec (.ladd sid vu) s = .next t ∧ leaves t 0x28 (vuLadd (w 0x28) (x 0x28))) ∧
    (∃ t, exec (.lclr sid vu) s = .next t ∧ leaves t 0x29 { la := .clr (w 0x29).lai }) ∧
    (∃ t, exec (.lscl sid vu) s = .next t ∧ leaves t 0x2A { la := .scl (w 0x2A).lai (scaleArg (x 0x2A)) }) ∧
    (∃ t, exec (.lrgd sid vu) s = .next t ∧ leaves t 0x2B (vuLrgd (w 0x2B) (x 0x2B))) ∧
    (∃ t, exec (.lrd sid vu) s = .next t ∧ leaves t 0x2C (vuLrd (w 0x2C) (x 0x2C)))

/-- VU reductions (R138) and unassigned operations (R125): on every spindle that is on, exec of each of RSUM, RMAX, RMIN and RARG answers a
next state, which holds the row's result for every VU word and operand; exec of an unassigned OP answers one in which INVALID is set and
nothing else is done. The model's readings: a row acts at once on the active ply (assumption log 8); RMAX and RMIN with an integer destination
saturate (log 13). -/
def Obligations.VuReductionRowsReduce : Prop :=
  ∀ (s : State) (sid : SID) (vu : BitVec 64), spinOn s sid.toNat = true → (s.spin sid.toNat).ply < 4 →
    let w := fun (op : Nat) => { vuDecode vu.toNat with op := op }
    let x := fun (op : Nat) => vuArgs s sid.toNat (w op)
    let leaves := fun (t : State) (op : Nat) (r : VuRes) => vuLeaves s t sid.toNat (w op) r
    (∃ t, exec (.rsum sid vu) s = .next t ∧ leaves t 0x30 (vuReduce (w 0x30) (x 0x30))) ∧
    (∃ t, exec (.rmax sid vu) s = .next t ∧ leaves t 0x31 (vuReduce (w 0x31) (x 0x31))) ∧
    (∃ t, exec (.rmin sid vu) s = .next t ∧ leaves t 0x32 (vuReduce (w 0x32) (x 0x32))) ∧
    (∃ t, exec (.rarg sid vu) s = .next t ∧ leaves t 0x33 (vuArg (w 0x33) (x 0x33))) ∧
    (∃ t, exec (.vuOpUnassigned sid vu) s = .next t ∧ leaves t 0x3F { fl := flInvalid })

/-- A step takes the command at the front of the queue: it is exec of that command on the engine with the queue's rest. With an empty queue it
changes nothing (the model's choice, assumption log 4). exec of every command answers a next state, on every state (log 11). -/
def Obligations.StepRunsFrontCommand : Prop :=
  (∀ (i : Instr) (s : State), ∃ t, exec i s = .next t) ∧
  (∀ (s : State) (c : Instr) (rest : List Instr), s.pending = c :: rest → step s = exec c { s with pending := rest }) ∧
  ∀ s : State, s.pending = [] → step s = .next s

/-- R9: a whole write to a register in service, by a function that may write the page, gives each RW bit, and through function 0 each RWP
bit, the value written, clears each W1C bit written 1, keeps every other bit, and changes no other register but those of a denial. R377: a
write to VIA_DATA or RELAY_DATA changes the table entry that the page selects, one to VIA_SIZE_s that size, up to 64. R382: a poisoned write counts
in POISON_RX of its port and takes effect or not (the model's choice, assumption log 9, as is the bound on VIA_SIZE_s). -/
def Obligations.RegisterWriteTakesByAccess : Prop :=
  (∀ (s : State) (port : Fin 4) (fn1 : Bool) (off : Nat) (d : Word) (pg : Page) (fs : List RField), off % 4 = 0 → Serves s off pg fs →
    plainReg pg.kind (off - pg.base) = true → writable s pg ⟨port, fn1⟩ = true → (fn1 = true → ¬ denialReg off) →
    completes (.bar0RegisterWrite port fn1 off [(15, d)] false) s (fun t =>
      onlyRegsAt (fun o => o = off ∨ (fn1 = true ∧ denialReg o)) s t ∧
      ∀ i, i < 32 →
        (bitAcc fs (fun a => a = .rw ∨ (a = .rwp ∧ fn1 = false)) i → (t.reg off).getLsbD i = d.getLsbD i) ∧
        (¬ bitAcc fs (fun a => a = .rw ∨ (a = .rwp ∧ fn1 = false)) i → bitAcc fs (fun a => a = .w1c) i →
          (t.reg off).getLsbD i = ((s.reg off).getLsbD i && !d.getLsbD i)) ∧
        (¬ bitAcc fs (fun a => a = .rw ∨ (a = .rwp ∧ fn1 = false)) i → ¬ bitAcc fs (fun a => a = .w1c) i →
          (t.reg off).getLsbD i = (s.reg off).getLsbD i))) ∧
  (∀ (s : State) (port : Fin 4) (d : Word), 2 ≤ s.readyState pRing →
    completes (.bar0RegisterWrite port false (pRing + 0x54) [(15, d)] false) s (fun t =>
      (∀ g e, g < 8 → e < 64 → SMap.get (fun _ => 0#32) t.via (g * 64 + e) =
        if g = s.fget (pRing + 0x50) 18 16 ∧ e = s.fget (pRing + 0x50) 5 0 then d &&& 0xFFFF#32 else SMap.get (fun _ => 0#32) s.via (g * 64 + e)) ∧
      t = { s with via := t.via }) ∧
    completes (.bar0RegisterWrite port false (pRing + 0x84) [(15, d)] false) s (fun t =>
      (∀ e, SMap.get (fun _ => 0#32) t.relay e =
        if e = s.fget (pRing + 0x80) 15 0 then d &&& 0xFFFF#32 else SMap.get (fun _ => 0#32) s.relay e) ∧ t = { s with relay := t.relay }) ∧
    ∀ i, i < 8 → completes (.bar0RegisterWrite port false (pRing + 0x60 + 4 * i) [(15, d)] false) s (fun t =>
      (t.reg (pRing + 0x60 + 4 * i)).toNat = min 64 (getF d 6 0) ∧ onlyRegsAt (fun a => a = pRing + 0x60 + 4 * i) s t)) ∧
  ∀ (s : State) (port : Fin 4) (fn1 : Bool) (off : Nat) (parts : List (Nat × Word)),
    completes (.bar0RegisterWrite port fn1 off parts true) s (fun t => ∃ c : State,
      c.reg (pHost port.val 0 + 0x68) = s.reg (pHost port.val 0 + 0x68) + 1#32 ∧ c.bget (pHost port.val 0 + 0x18) 2 = true ∧
      sameRegs (fun a => a = pHost port.val 0 + 0x68 ∨ a = pHost port.val 0 + 0x6C ∨ a = pHost port.val 0 + 0x18 ∨ a = pHost port.val 0 + 0x1C) s c ∧
      c = { s with regs := c.regs, freeCtr := c.freeCtr } ∧ (t = c ∨ exec (.bar0RegisterWrite port fn1 off parts false) c = .next t))

/-- R33: an access to an unmapped page sets REG_UNMAPPED, event 1 of GLOBAL; a read returns zero, a write is ignored. R35: a write that covers
only part of a register is ignored and sets ACCESS_WIDTH, event 2 of GLOBAL. Nothing else changes. That each 32-bit part is one occurrence, and
one without a byte enable none, is the model's reading (assumption log 9). -/
def Obligations.UnmappedAndPartialAccesses : Prop :=
  ∀ (s : State) (port : Fin 4) (fn1 : Bool) (off : Nat), off % 4 = 0 →
    (locate off = none →
      (∀ be, be < 16 → completes (.unmappedPageRead port fn1 off [be]) s (fun t =>
        t.bget (pGlobal + 0x18) 1 = true ∧ t.out = s.out ++ [.bar0 ⟨port, fn1⟩ off 0#32] ∧
        sameRegs (fun o => o = pGlobal + 0x18 ∨ o = pGlobal + 0x1C) s t ∧ t = { s with regs := t.regs, out := t.out })) ∧
      (∀ d, completes (.bar0RegisterWrite port fn1 off [(15, d)] false) s (fun t =>
        t.bget (pGlobal + 0x18) 1 = true ∧ onlyRegsAt (fun o => o = pGlobal + 0x18 ∨ o = pGlobal + 0x1C) s t))) ∧
    (∀ (be : Nat) (d : Word) (pg : Page) (fs : List RField), 0 < be → be < 15 → Serves s off pg fs →
      completes (.bar0RegisterWrite port fn1 off [(be, d)] false) s (fun t =>
        t.bget (pGlobal + 0x18) 2 = true ∧ onlyRegsAt (fun o => o = pGlobal + 0x18 ∨ o = pGlobal + 0x1C) s t))

/-- R43: a 32-bit read of a _LO register returns it and latches the pair's _HI for that requester alone; while it holds a latch, the
requester's next 32-bit read of _HI returns the latched word and releases it. Reads of part of the register latch and release alike (R35). Which
registers are such pairs, and that a page must be in service and visible, is the model's reading (assumption log 9). -/
def Obligations.LoReadLatchesHi : Prop :=
  ∀ (s : State) (port : Fin 4) (fn1 : Bool) (off : Nat) (pg : Page), off % 8 = 0 → locate off = some pg →
    isPairLo pg.kind (off - pg.base) = true → pageOut s pg (off - pg.base) = false → visible s pg ⟨port, fn1⟩ = true →
    completes (.bar0LoReadLatch port fn1 off) s (fun t =>
      latchOf t ⟨port, fn1⟩ off = some (seenReg s ⟨port, fn1⟩ pg (off - pg.base + 4)) ∧
      (∀ rq lo, ¬ (rq = ⟨port, fn1⟩ ∧ lo = off) → latchOf t rq lo = latchOf s rq lo) ∧
      t.out = s.out ++ [.bar0 ⟨port, fn1⟩ off (seenReg s ⟨port, fn1⟩ pg (off - pg.base))] ∧
      t = { s with latches := t.latches, out := t.out }) ∧
    (∀ h, latchOf s ⟨port, fn1⟩ off = some h → pageOut s pg (off + 4 - pg.base) = false →
      completes (.bar0HiReadRelease port fn1 (off + 4) [15]) s (fun t =>
        t.out = s.out ++ [.bar0 ⟨port, fn1⟩ (off + 4) h] ∧ latchOf t ⟨port, fn1⟩ off = none ∧
        (∀ rq lo, ¬ (rq = ⟨port, fn1⟩ ∧ lo = off) → latchOf t rq lo = latchOf s rq lo) ∧
        t = { s with latches := t.latches, out := t.out })) ∧
    (latchOf s ⟨port, fn1⟩ off = none → pageOut s pg (off + 4 - pg.base) = false →
      completes (.bar0HiReadRelease port fn1 (off + 4) [15]) s (fun t =>
        t = { s with out := s.out ++ [.bar0 ⟨port, fn1⟩ (off + 4) (seenReg s ⟨port, fn1⟩ pg (off + 4 - pg.base))] })) ∧
    (∀ be h, 0 < be → be < 16 → latchOf s ⟨port, fn1⟩ off = some h → pageOut s pg (off + 4 - pg.base) = false →
      completes (.bar0HiReadRelease port fn1 (off + 4) [be]) s (fun t =>
        t.out = s.out ++ [.bar0 ⟨port, fn1⟩ (off + 4) (maskBytes be h)] ∧ latchOf t ⟨port, fn1⟩ off = none)) ∧
    completes (.bar0HiReadRelease port fn1 off [15, 15]) s (fun t =>
      t = { s with out := s.out ++ [.bar0 ⟨port, fn1⟩ off (seenReg s ⟨port, fn1⟩ pg (off - pg.base)),
        .bar0 ⟨port, fn1⟩ (off + 4) (seenReg s ⟨port, fn1⟩ pg (off + 4 - pg.base))] })

/-- R39, R40: a privileged write to EVT_STATUS clears the bits written 1 but for those that the engine sets in the same cycle, and these
set their EVT_AGAIN bits. -/
def Obligations.EventClearLosesNothing : Prop :=
  ∀ (s : State) (port : Fin 4) (base : Nat) (d same : Word) (pg : Page), base % 0x1000 = 0 → locate base = some pg →
    absent s pg = false →
    completes (.evtStatusClear port false base false d same) s (fun t =>
      (∀ i, i < 32 → evtBit pg.kind i →
        t.bget (base + 0x18) i = (s.bget (base + 0x18) i && (!d.getLsbD i || same.getLsbD i)) ∧
        t.bget (base + 0x1C) i = (s.bget (base + 0x1C) i || (s.bget (base + 0x18) i && d.getLsbD i && same.getLsbD i))) ∧
      sameRegs (fun o => o = base + 0x18 ∨ o = base + 0x1C) s t ∧ t = { s with regs := t.regs, hosts := t.hosts }) ∧
    completes (.evtStatusClear port false base true d same) s (fun t =>
      (∀ i, i < 32 → evtBit pg.kind i → t.bget (base + 0x18) i = s.bget (base + 0x18) i ∧
        t.bget (base + 0x1C) i = ((s.bget (base + 0x1C) i && !d.getLsbD i) || (s.bget (base + 0x1C) i && same.getLsbD i))) ∧
      sameRegs (fun o => o = base + 0x18 ∨ o = base + 0x1C) s t ∧ t = { s with regs := t.regs, hosts := t.hosts })

/-- R41: a privileged write of 1 to EVT_FORCE bit i sets EVT_STATUS bit i as an occurrence would, with EVT_AGAIN where it was set and, where the
page's EVT_ENABLE bit and IRQ_EN are 1, the page's summary bit (R39), and changes no other register; through function 1 it changes the denial
registers only. -/
def Obligations.EventForceSetsStatus : Prop :=
  ∀ (s : State) (port : Fin 4) (base : Nat) (d : Word) (pg : Page), base % 0x1000 = 0 → locate base = some pg → absent s pg = false →
    completes (.evtForce port false base d) s (fun t =>
      (∀ i, i < 32 → evtBit pg.kind i →
        t.bget (base + 0x18) i = (s.bget (base + 0x18) i || d.getLsbD i) ∧
        t.bget (base + 0x1C) i = (s.bget (base + 0x1C) i || (s.bget (base + 0x18) i && d.getLsbD i))) ∧
      (∀ i, i < 32 → evtBit pg.kind i → d.getLsbD i = true → 2 ≤ s.readyState pGlobal → s.bget (base + 0x20) i = true → s.bget (base + 0x10) 0 = true →
        (∀ n, n < 27 → base ∈ topPages n → getB (readReg t (pGlobal + 0x78)) n = true) ∧
        (∀ f, f < 32 → base ∈ fieldPages f → getB (readReg t (pGlobal + 0x80)) f = true) ∧
        (∀ f, f < 32 → base ∈ fieldPages (f + 32) → getB (readReg t (pGlobal + 0x84)) f = true)) ∧
      sameRegs (fun o => o = base + 0x18 ∨ o = base + 0x1C) s t ∧ t = { s with regs := t.regs, hosts := t.hosts }) ∧
    completes (.evtForce port true base d) s (fun t =>
      sameRegs denialReg s t ∧ t = { s with regs := t.regs, hosts := t.hosts })

/-- R38: COUNT_CLEAR through function 0 sets every counter of the page, with its WRAPPED bit, to its reset value, and leaves every other
register of the page but PAGE_CTRL and every register of other pages. R81: in a window page it clears the counters of the selected spindle too,
and is refused while that spindle is live. Which registers are counters is the model's reading (assumption log 9). -/
def Obligations.CountClearZeroesCounters : Prop :=
  ∀ (s : State) (port : Fin 4) (base : Nat) (pg : Page), base % 0x1000 = 0 → locate base = some pg → absent s pg = false →
    (isWindow pg = true → windowLive s pg.n = true → completes (.countClear port false base) s (fun t =>
      t.bget (pWin pg.n 0 + 0x44) 2 = true ∧ sameRegs (fun a => a = base + 0x10 ∨ a = pWin pg.n 0 + 0x44) s t ∧
      t = { s with regs := t.regs, hosts := t.hosts })) ∧
    (isWindow pg = true → windowLive s pg.n = false → windowOff s pg.n = false → completes (.countClear port false base) s (fun t =>
      (∀ o, o ∈ windowCounters pg.k → (t.spin (swSid s pg.n)).wreg pg.k o = 0#32) ∧
      (∀ g o, o < 4096 → ¬ (g = pg.k ∧ o ∈ windowCounters pg.k) → (t.spin (swSid s pg.n)).wreg g o = (s.spin (swSid s pg.n)).wreg g o) ∧
      t.spin (swSid s pg.n) = { s.spin (swSid s pg.n) with win := (t.spin (swSid s pg.n)).win } ∧
      (∀ j, j ≠ swSid s pg.n → t.spin j = s.spin j) ∧
      (∀ o, o < 0x1000 → cleared pg.kind o = true → t.reg (base + o) = resetOf (base + o)) ∧
      sameRegs (fun a => a = base + 0x10 ∨ (base ≤ a ∧ a < base + 0x1000 ∧ cleared pg.kind (a - base) = true)) s t ∧
      t = { s with regs := t.regs, hosts := t.hosts, spindles := t.spindles })) ∧
    (isWindow pg = false ∨ windowOff s pg.n = true → completes (.countClear port false base) s (fun t =>
      (∀ o, o < 0x1000 → cleared pg.kind o = true → t.reg (base + o) = resetOf (base + o)) ∧
      sameRegs (fun a => a = base + 0x10 ∨ (base ≤ a ∧ a < base + 0x1000 ∧ cleared pg.kind (a - base) = true)) s t ∧
      t = { s with regs := t.regs, hosts := t.hosts }))

/-- R50: a write through a field's window while the selected spindle is live is ignored and sets SW_STATUS.WRITE_REFUSED; while it is not,
a register of pages 1 to 6, and LA_SCALE of page 7, takes the write by its access codes, in that spindle alone, VRF_SELECT in the page, and a
lane of the selected vector register or a word of a long accumulator takes the word written (R88). Through function 1, where the page may be
written, the same holds, and only the registers of a denial change besides. -/
def Obligations.WindowWriteRefusedWhileLive : Prop :=
  ∀ (s : State) (port : Fin 4) (fn1 : Bool) (field : Fin 64) (k : Fin 8) (o : Nat) (d : Word) (fs : List RField), 1 ≤ k.val → o % 4 = 0 →
    0x40 ≤ o → o < 0x1000 → pageFields (if k.val ≤ 4 then .ply else if k.val = 5 then .win5 else if k.val = 6 then .win6 else .win7) o = some fs →
    2 ≤ s.readyState (pWin field.val k.val) → windowOff s field.val = false →
    (fn1 = true → s.bget (pWin field.val k.val + 0x30) 0 = true ∧ s.bget (pWin field.val k.val + 0x30) 1 = true) →
    let rq : Req := ⟨port, fn1⟩
    let sid := swSid s field.val
    let vs := pWin field.val 7 + 0x40
    let inSpin := fun (t : State) => (∀ j, j ≠ sid → t.spin j = s.spin j) ∧ sameRegs (fun a => fn1 = true ∧ denialReg a) s t ∧
      t = { s with spindles := t.spindles, regs := t.regs }
    (s.live sid = true → completes (.spindleWindowWrite port fn1 field k o d) s (fun t =>
      t.bget (pWin field.val 0 + 0x44) 2 = true ∧ onlyRegsAt (fun a => a = pWin field.val 0 + 0x44 ∨ (fn1 = true ∧ denialReg a)) s t)) ∧
    (s.live sid = false → k.val ≤ 6 ∨ o = 0x44 → completes (.spindleWindowWrite port fn1 field k o d) s (fun t =>
      (t.spin sid).wreg k.val o = written rq fs ((s.spin sid).wreg k.val o) d ∧
      (∀ g a, a < 4096 → ¬ (g = k.val ∧ a = o) → (t.spin sid).wreg g a = (s.spin sid).wreg g a) ∧
      t.spin sid = { s.spin sid with win := (t.spin sid).win } ∧ inSpin t)) ∧
    (s.live sid = false → k.val = 7 → o = 0x40 → completes (.spindleWindowWrite port fn1 field k o d) s (fun t =>
      t.reg vs = written rq fs (s.reg vs) d ∧ onlyRegsAt (fun a => a = vs ∨ (fn1 = true ∧ denialReg a)) s t)) ∧
    (∀ l, l < 16 → s.live sid = false → k.val = 7 → o = 0x80 + 4 * l → completes (.spindleWindowWrite port fn1 field k o d) s (fun t =>
      (∀ i, i < 16 → ((t.spin sid).vreg (s.fget vs 5 0)).extractLsb' (32 * i) 32 =
        if i = l then d else ((s.spin sid).vreg (s.fget vs 5 0)).extractLsb' (32 * i) 32) ∧
      (∀ r, r ≠ s.fget vs 5 0 → (t.spin sid).vreg r = (s.spin sid).vreg r) ∧
      t.spin sid = { s.spin sid with vregs := (t.spin sid).vregs } ∧ inSpin t)) ∧
    (∀ i l j, i < 4 → l < 16 → j < 4 → s.live sid = false → k.val = 7 → o = 0x400 + 0x100 * i + 0x10 * l + 4 * j →
      completes (.spindleWindowWrite port fn1 field k o d) s (fun t =>
        (∀ m, m < 4 → ((t.spin sid).lacc i l).extractLsb' (32 * m) 32 =
          if m = j then d else ((s.spin sid).lacc i l).extractLsb' (32 * m) 32) ∧
        (∀ i' l', l' < 16 → ¬ (i' = i ∧ l' = l) → (t.spin sid).lacc i' l' = (s.spin sid).lacc i' l') ∧
        t.spin sid = { s.spin sid with la := (t.spin sid).la } ∧ inSpin t))

/-- R45: a write through function 1 that touches only pages which the unprivileged view may not write leaves everything as it was, but for
the registers that count and record the denials; a poisoned one counts in POISON_RX besides (R382; assumption log 9). -/
def Obligations.UnprivilegedWriteIsolated : Prop :=
  ∀ (s : State) (port : Fin 4) (off : Nat) (parts : List (Nat × Word)),
    (∀ i, i < parts.length → ∀ pg, locate (off / 4 * 4 + 4 * i) = some pg → writable s pg ⟨port, true⟩ = false) →
    completes (.bar0RegisterWrite port true off parts false) s (fun t => onlyRegsAt denialReg s t) ∧
    completes (.bar0RegisterWrite port true off parts true) s (fun t => t = { s with regs := t.regs, freeCtr := t.freeCtr } ∧
      sameRegs (fun a => denialReg a ∨ a = pHost port.val 0 + 0x68 ∨ a = pHost port.val 0 + 0x6C ∨ a = pHost port.val 0 + 0x18 ∨
        a = pHost port.val 0 + 0x1C) s t)

/-- R385, R386: a BAR2 write of function 0 that covers one whole aligned store line, at EA (AP_BASE + o) mod 2^48, stores its bytes,
marked when poisoned, while no route is cut; a read of such a line without findings returns its bytes; a read of an unmapped EA returns
zeros and raises EA_UNMAPPED of the host port's page. That the request takes effect within its step is the model's choice (assumption logs 12, 30). -/
def Obligations.Bar2Function0ReachesApertureAddress : Prop :=
  ∀ (s : State) (port : Fin 4) (off cyc : Nat) (conds : List Cond) (ea : Nat),
    ea = (s.fget (pHost port.val 0 + 0x58) 31 12 * 4096 + 2 ^ 32 * s.fget (pHost port.val 0 + 0x5C) 15 0 + off) % 2 ^ 48 →
    (∀ (bs : List Byte) (poisoned : Bool) (sid o : Nat), bs.length = 32 → storeEa s ea sid o → routesWhole s →
      completes (.bar2Function0Request port off cyc (.write (bs.map some) poisoned) conds) s
        (fun t => storeLineWritten s t port.val sid o bs poisoned)) ∧
    (∀ sid o, storeEa s ea sid o → routesWhole s → (readLine s (storeAddr sid (o / 32))).bad = false →
      completes (.bar2Function0Request port off cyc (.read 32) []) s (fun t => storeLineRead s t ⟨port, false⟩ sid o)) ∧
    (∀ n, 0 < n → decodeEA s (ea / 32 * 32) = .unmapped → completes (.bar2Function0Request port off cyc (.read n) conds) s (fun t =>
      t.out = s.out ++ [.bar2 ⟨port, false⟩ (List.replicate n 0#8) false] ∧ t.bget (pHost port.val 0 + 0x18) 28 = true ∧
      t = { s with regs := t.regs, out := t.out }))

/-- R48: a function-1 BAR2 request whose bytes all lie in an enabled and valid grant window that allows its kind accesses EA BASE + w: exec
answers a next state, in which the line is stored, or its bytes are answered; any other is refused whole: a read returns zero, a write is
discarded, one denial is counted and recorded with SPACE 1. That the request takes effect within its step is the model's choice (assumption logs 12, 30). -/
def Obligations.Bar2Function1ObeysGrants : Prop :=
  ∀ (s : State) (port : Fin 4) (off cyc : Nat) (conds : List Cond),
    (∀ (bs : List Byte) (poisoned : Bool) (sid o : Nat), bs.length = 32 → off / 2 ^ 34 < 4 → grantOn s port.val (off / 2 ^ 34) = true →
      s.bget (pHost port.val 0 + 0x10C + off / 2 ^ 34 * 0x10) 2 = true →
      off % 2 ^ 34 + 32 ≤ grantPages s port.val (off / 2 ^ 34) * 4096 →
      storeEa s (grantBase s port.val (off / 2 ^ 34) + off % 2 ^ 34) sid o → routesWhole s →
      ∃ t, exec (.bar2Function1Request port off cyc (.write (bs.map some) poisoned) conds) s = .next t ∧
        storeLineWritten s t port.val sid o bs poisoned) ∧
    (∀ sid o, off / 2 ^ 34 < 4 → grantOn s port.val (off / 2 ^ 34) = true →
      s.bget (pHost port.val 0 + 0x10C + off / 2 ^ 34 * 0x10) 1 = true →
      off % 2 ^ 34 + 32 ≤ grantPages s port.val (off / 2 ^ 34) * 4096 →
      storeEa s (grantBase s port.val (off / 2 ^ 34) + off % 2 ^ 34) sid o → routesWhole s →
      (readLine s (storeAddr sid (o / 32))).bad = false →
      ∃ t, exec (.bar2Function1Request port off cyc (.read 32) []) s = .next t ∧ storeLineRead s t ⟨port, true⟩ sid o) ∧
    (∀ bs, (grantOn s port.val (off / 2 ^ 34) = false ∨ s.bget (pHost port.val 0 + 0x10C + off / 2 ^ 34 * 0x10) 2 = false ∨
        grantPages s port.val (off / 2 ^ 34) * 4096 < off % 2 ^ 34 + bs.length) →
      ∃ t, exec (.bar2Function1Request port off cyc (.write bs false) conds) s = .next t ∧
        t.reg (pGlobal + 0x70) = s.reg (pGlobal + 0x70) + 1#32 ∧ onlyRegsAt denialReg s t) ∧
    (∀ n, (grantOn s port.val (off / 2 ^ 34) = false ∨ s.bget (pHost port.val 0 + 0x10C + off / 2 ^ 34 * 0x10) 1 = false ∨
        grantPages s port.val (off / 2 ^ 34) * 4096 < off % 2 ^ 34 + n) →
      completes (.bar2Function1Request port off cyc (.read n) conds) s (fun t =>
        t.out = s.out ++ [.bar2 ⟨port, true⟩ (List.replicate n 0#8) false] ∧
        t.reg (pGlobal + 0x70) = s.reg (pGlobal + 0x70) + 1#32 ∧ t.bget (pGlobal + 0x18) 0 = true ∧
        (s.bget (pGlobal + 0x6C) 29 = false → t.fget (pGlobal + 0x6C) 31 30 = port.val ∧ t.bget (pGlobal + 0x6C) 28 = true) ∧
        sameRegs denialReg s t ∧ t = { s with regs := t.regs, out := t.out }))

/-- R387 to R389: writes to the ring registers through function 0. CMD_TAIL takes the doorbell and halts the ring at or above the ring's
size; CPL_HEAD halts it where the host names a slot that is not filled; ENABLE with a size outside 4 to 16 halts it; RESET with ENABLE 0
zeroes every pointer and discards the entries due, where an OK entry of a stroke among them leaves the stroke done (R333). The base and size
registers take a write while ENABLE is 0 and ignore it while it is 1. That a halted ring still stores its pointers, and that RESET drops the
entries of commands still at work, is the model's reading (assumption log 30). -/
def Obligations.RingRegisterWrites : Prop :=
  ∀ (s : State) (port rp : Fin 4) (rf : Bool), 2 ≤ s.readyState (ringPage ⟨rp, rf⟩) →
    (∀ tail, completes (.doorbell port false rp rf tail) s (fun t =>
      t.fget (ringPage ⟨rp, rf⟩ + 0x4C) 15 0 = getF tail 15 0 ∧
      (getF tail 15 0 < 2 ^ cmdLog s ⟨rp, rf⟩ → onlyRegsAt (fun a => a = ringPage ⟨rp, rf⟩ + 0x4C) s t) ∧
      (2 ^ cmdLog s ⟨rp, rf⟩ ≤ getF tail 15 0 → halted t ⟨rp, rf⟩ 3 ∧ onlyRegsAt (ringRegs ⟨rp, rf⟩ 0x4C) s t))) ∧
    (∀ (head : Word) (k : Nat), cplHead s ⟨rp, rf⟩ < 2 ^ cplLog s ⟨rp, rf⟩ → cplTail s ⟨rp, rf⟩ < 2 ^ cplLog s ⟨rp, rf⟩ →
      k < 2 ^ cplLog s ⟨rp, rf⟩ → getF head 15 0 = (cplHead s ⟨rp, rf⟩ + k) % 2 ^ cplLog s ⟨rp, rf⟩ →
      completes (.cplHeadWrite port false rp rf head) s (fun t =>
        t.fget (ringPage ⟨rp, rf⟩ + 0x5C) 15 0 = getF head 15 0 ∧
        (k ≤ (2 ^ cplLog s ⟨rp, rf⟩ + cplTail s ⟨rp, rf⟩ - cplHead s ⟨rp, rf⟩) % 2 ^ cplLog s ⟨rp, rf⟩ →
          onlyRegsAt (fun a => a = ringPage ⟨rp, rf⟩ + 0x5C) s t) ∧
        ((2 ^ cplLog s ⟨rp, rf⟩ + cplTail s ⟨rp, rf⟩ - cplHead s ⟨rp, rf⟩) % 2 ^ cplLog s ⟨rp, rf⟩ < k →
          halted t ⟨rp, rf⟩ 4 ∧ onlyRegsAt (ringRegs ⟨rp, rf⟩ 0x5C) s t))) ∧
    (∀ enable irq, completes (.ringEnable port false rp rf enable irq) s (fun t =>
      t.bget (ringPage ⟨rp, rf⟩ + 0x40) 0 = enable ∧ t.bget (ringPage ⟨rp, rf⟩ + 0x40) 1 = irq ∧
      onlyRegsAt (ringRegs ⟨rp, rf⟩ 0x40) s t ∧
      (enable = true → s.bget (ringPage ⟨rp, rf⟩ + 0x40) 0 = false →
        ¬ (4 ≤ cmdLog s ⟨rp, rf⟩ ∧ cmdLog s ⟨rp, rf⟩ ≤ 16 ∧ 4 ≤ cplLog s ⟨rp, rf⟩ ∧ cplLog s ⟨rp, rf⟩ ≤ 16) → halted t ⟨rp, rf⟩ 5))) ∧
    (s.bget (ringPage ⟨rp, rf⟩ + 0x40) 0 = false → completes (.ringReset port false rp rf) s (fun t =>
      cmdTail t ⟨rp, rf⟩ = 0 ∧ cmdHead t ⟨rp, rf⟩ = 0 ∧ cplHead t ⟨rp, rf⟩ = 0 ∧ cplTail t ⟨rp, rf⟩ = 0 ∧
      t.bget (ringPage ⟨rp, rf⟩ + 0x60) 16 = true ∧ t.bget (ringPage ⟨rp, rf⟩ + 0x68) 31 = false ∧
      t.fget (ringPage ⟨rp, rf⟩ + 0x68) 19 16 = 0 ∧ (t.ring ⟨rp, rf⟩).due = [] ∧
      (∀ rq, rq ≠ ⟨rp, rf⟩ → t.ring rq = s.ring rq) ∧
      (∀ id, s.run.posted = [(id, ⟨rp, rf⟩)] → (s.ring ⟨rp, rf⟩).unsent.getLsbD 0 = false → s.reg (pRun + 0x50) = id →
        t.reg (pRun + 0x50) = id + 1#32 ∧ t.run.posted = []) ∧
      sameRegs (fun a => (ringPage ⟨rp, rf⟩ + 0x40 ≤ a ∧ a ≤ ringPage ⟨rp, rf⟩ + 0x68) ∨ (s.run.posted ≠ [] ∧ strokeRegs a)) s t ∧
      t = { s with regs := t.regs, hosts := t.hosts, run := t.run })) ∧
    (∀ (o : Nat) (d : Word) (fs : List RField), o = 0x44 ∨ o = 0x48 ∨ o = 0x54 ∨ o = 0x58 ∨ o = 0x64 → pageFields .hpRing o = some fs →
      (s.bget (ringPage ⟨rp, rf⟩ + 0x40) 0 = true → exec (.bar0RegisterWrite port false (ringPage ⟨rp, rf⟩ + o) [(15, d)] false) s = .next s) ∧
      (s.bget (ringPage ⟨rp, rf⟩ + 0x40) 0 = false → completes (.bar0RegisterWrite port false (ringPage ⟨rp, rf⟩ + o) [(15, d)] false) s (fun t =>
        (∀ i, i < 32 → (bitAcc fs (fun a => a = .rw) i → (t.reg (ringPage ⟨rp, rf⟩ + o)).getLsbD i = d.getLsbD i) ∧
          (¬ bitAcc fs (fun a => a = .rw) i → (t.reg (ringPage ⟨rp, rf⟩ + o)).getLsbD i = (s.reg (ringPage ⟨rp, rf⟩ + o)).getLsbD i)) ∧
        onlyRegsAt (fun a => a = ringPage ⟨rp, rf⟩ + o) s t)))

/-- R388, R389: a ring that may take a command reads the entry at CMD_BASE + CMD_HEAD × 64, takes it, advances CMD_HEAD, reserves a
completion slot and counts it; an unreadable entry or an OPCODE that is not assigned halts the ring and is not taken. That the command names
what the host's memory answered is the model's form (assumption log 7). -/
def Obligations.CommandTakeReservesSlot : Prop :=
  ∀ (s : State) (port : Fin 4) (fn1 : Bool), ringTakes s ⟨port, fn1⟩ → cmdHead s ⟨port, fn1⟩ < 2 ^ cmdLog s ⟨port, fn1⟩ →
    cmdLog s ⟨port, fn1⟩ ≤ 16 → cplLog s ⟨port, fn1⟩ ≤ 16 →
    (∀ (e : BitVec 512) poisoned, fld e.toNat 7 0 ≤ 0xB → completes (.commandTake port fn1 (some e) poisoned) s (fun t =>
      t.run = { s.run with taken := s.run.taken ++ [⟨⟨port, fn1⟩, e, true⟩] } ∧
      cmdHead t ⟨port, fn1⟩ = (cmdHead s ⟨port, fn1⟩ + 1) % 2 ^ cmdLog s ⟨port, fn1⟩ ∧
      ringPending t ⟨port, fn1⟩ = ringPending s ⟨port, fn1⟩ + 1 ∧
      t.reg (ringPage ⟨port, fn1⟩ + 0x70) = s.reg (ringPage ⟨port, fn1⟩ + 0x70) + 1#32 ∧
      t.out = s.out ++ [.hostRead port.val fn1 ((s.fget (ringPage ⟨port, fn1⟩ + 0x44) 31 6 * 64
        + 2 ^ 32 * (s.reg (ringPage ⟨port, fn1⟩ + 0x48)).toNat + cmdHead s ⟨port, fn1⟩ * 64) % 2 ^ 64) 64] ∧
      t = { s with regs := t.regs, run := t.run, out := t.out })) ∧
    (∀ (e : BitVec 512) poisoned, 0xB < fld e.toNat 7 0 → completes (.commandTake port fn1 (some e) poisoned) s (fun t =>
      halted t ⟨port, fn1⟩ 2 ∧ cmdHead t ⟨port, fn1⟩ = cmdHead s ⟨port, fn1⟩ ∧ t.run = s.run)) ∧
    (∀ poisoned, completes (.commandTake port fn1 none poisoned) s (fun t =>
      halted t ⟨port, fn1⟩ 1 ∧ cmdHead t ⟨port, fn1⟩ = cmdHead s ⟨port, fn1⟩ ∧ t.run = s.run ∧
      t.reg (pHost port.val 0 + 0x60) = s.reg (pHost port.val 0 + 0x60) + 1#32 ∧
      (poisoned = true → t.reg (pHost port.val 0 + 0x68) = s.reg (pHost port.val 0 + 0x68) + 1#32 ∧
        t.bget (pHost port.val 0 + 0x18) 2 = true)))

/-- R394, R395: the oldest due entry of a ring is written at CPL_BASE + TAIL × 32 while the link is up; CPL_TAIL advances, PHASE inverts
at a wrap, and the command's reservation is released. R333: the posted OK entry of the stroke of lowest ID, with no vector-0 message to send after
it, advances RUN_NEXT_ID and STROKES_DONE; with one, they wait for it (the model's reading of when, assumption log 20). -/
def Obligations.CompletionEntryPosted : Prop :=
  ∀ (s : State) (port : Fin 4) (fn1 : Bool) (c : Cpl) (rest : List Cpl), (s.ring ⟨port, fn1⟩).due = c :: rest →
    s.bget (pHost port.val 0 + 0x40) 31 = true → cplLog s ⟨port, fn1⟩ ≤ 16 →
    completes (.completionEntryWrite port fn1) s (fun t =>
      (t.ring ⟨port, fn1⟩).due = rest ∧
      t.out = s.out ++ [.hostWrite port.val fn1 ((s.fget (ringPage ⟨port, fn1⟩ + 0x54) 31 5 * 32
          + 2 ^ 32 * (s.reg (ringPage ⟨port, fn1⟩ + 0x58)).toNat + cplTail s ⟨port, fn1⟩ * 32) % 2 ^ 64)
        (toBytesLE 32 (c.tag.toNat + c.opcode % 256 * 2 ^ 32 + c.status % 256 * 2 ^ 40 + c.detail % 65536 * 2 ^ 48
          + c.stroke.toNat * 2 ^ 64 + cmdHead s ⟨port, fn1⟩ * 2 ^ 96 + (s.bget (ringPage ⟨port, fn1⟩ + 0x60) 16).toNat * 2 ^ 127
          + c.result.toNat * 2 ^ 128)) false false] ∧
      cplTail t ⟨port, fn1⟩ = (cplTail s ⟨port, fn1⟩ + 1) % 2 ^ cplLog s ⟨port, fn1⟩ ∧
      t.bget (ringPage ⟨port, fn1⟩ + 0x60) 16 = (s.bget (ringPage ⟨port, fn1⟩ + 0x60) 16
        ^^ decide ((cplTail s ⟨port, fn1⟩ + 1) % 2 ^ cplLog s ⟨port, fn1⟩ = 0)) ∧
      ringPending t ⟨port, fn1⟩ = ringPending s ⟨port, fn1⟩ - 1 ∧
      (s.bget (ringPage ⟨port, fn1⟩ + 0x40) 1 = true → msixMasked (s.ring ⟨port, fn1⟩) 0 = false → (t.ring ⟨port, fn1⟩).unsent.getLsbD 0 = true) ∧
      (s.bget (ringPage ⟨port, fn1⟩ + 0x40) 1 = true → msixMasked (s.ring ⟨port, fn1⟩) 0 = true → (t.ring ⟨port, fn1⟩).pba.getLsbD 0 = true) ∧
      (s.run.posted = [(c.stroke, ⟨port, fn1⟩)] → (∀ x ∈ rest, ¬ (x.isStrokeOk = true ∧ x.stroke = c.stroke)) → s.reg (pRun + 0x50) = c.stroke →
        ((t.ring ⟨port, fn1⟩).unsent.getLsbD 0 = false →
          t.reg (pRun + 0x50) = c.stroke + 1#32 ∧ t.reg (pRun + 0x98) = s.reg (pRun + 0x98) + 1#32 ∧ t.run.posted = []) ∧
        ((t.ring ⟨port, fn1⟩).unsent.getLsbD 0 = true → t.reg (pRun + 0x50) = c.stroke ∧ t.run = s.run)) ∧
      sameRegs (fun a => a = ringPage ⟨port, fn1⟩ + 0x60 ∨ a = ringPage ⟨port, fn1⟩ + 0x68 ∨ (s.run.posted ≠ [] ∧ strokeRegs a)) s t ∧
      (∀ rq, rq ≠ ⟨port, fn1⟩ → t.ring rq = s.ring rq) ∧
      t = { s with regs := t.regs, hosts := t.hosts, out := t.out, run := { s.run with posted := t.run.posted } })

/-- R397, R381: a vector that is due is sent, with the address and data of its table entry, or, while it is masked, sets its pending bit where
it is vector 0 or its source is still asserted; vector 0 is due after a completion entry, any other when its source becomes asserted. With the
vector-0 message after the OK entry of the stroke of lowest ID, RUN_NEXT_ID advances (R333). A word of a function's own table takes what is
written to it, of vector control the mask bit; another port's table takes nothing. The table's layout and reset come from PCI Express (PRESUMED,
assumption log 10); when a vector is due is the model's reading (log 30). -/
def Obligations.MsixMessageSent : Prop :=
  (∀ (s : State) (port : Fin 4) (fn1 : Bool) (v : Fin 128),
    let r := (syncVectors s).ring ⟨port, fn1⟩
    r.unsent.getLsbD v.val = true → s.bget (pHost port.val 0 + 0x40) 31 = true →
    completes (.msixSend port fn1 v) s (fun t =>
      (t.ring ⟨port, fn1⟩).unsent.getLsbD v.val = false ∧ (t.ring ⟨port, fn1⟩).msix = r.msix ∧
      (getB (msixWord r (4 * v.val + 3)) 0 = true →
        (t.ring ⟨port, fn1⟩).pba.getLsbD v.val = (r.pba.getLsbD v.val || r.level.getLsbD v.val || decide (v.val = 0)) ∧ t.out = s.out) ∧
      (getB (msixWord r (4 * v.val + 3)) 0 = false → (t.ring ⟨port, fn1⟩).pba.getLsbD v.val = false ∧
        t.out = s.out ++ [.msix port.val fn1 v.val ((msixWord r (4 * v.val)).toNat + 2 ^ 32 * (msixWord r (4 * v.val + 1)).toNat)
          (msixWord r (4 * v.val + 2))]) ∧
      (∀ id, v.val = 0 → s.run.posted = [(id, ⟨port, fn1⟩)] → (∀ c ∈ r.due, ¬ (c.isStrokeOk = true ∧ c.stroke = id)) →
        s.reg (pRun + 0x50) = id → t.reg (pRun + 0x50) = id + 1#32 ∧ t.run.posted = []) ∧
      sameRegs (fun a => s.run.posted ≠ [] ∧ strokeRegs a) s t ∧
      t = { s with hosts := t.hosts, out := t.out, regs := t.regs, run := { s.run with posted := t.run.posted } })) ∧
  ∀ (s : State) (port tp : Fin 4) (fn1 : Bool) (i : Nat) (d : Word), i < 512 → 2 ≤ s.readyState (pHost tp.val 3) →
    (tp = port → completes (.bar0RegisterWrite port fn1 (pHost tp.val 3 + 0x800 + 4 * i) [(15, d)] false) s (fun t =>
      (∀ j, msixWord (t.ring ⟨port, fn1⟩) j =
        if j = i then (if i % 4 = 3 then d &&& 1#32 else d) else msixWord (s.ring ⟨port, fn1⟩) j) ∧
      (∀ rq, rq ≠ ⟨port, fn1⟩ → t.ring rq = s.ring rq) ∧ t = { s with hosts := t.hosts })) ∧
    (tp ≠ port → exec (.bar0RegisterWrite port fn1 (pHost tp.val 3 + 0x800 + 4 * i) [(15, d)] false) s = .next s)

/-- R398, R401, R402: a link that comes up shows its width and speed and makes the port's pages READY; a link that goes down clears
HP_STATUS; a flush that completes lets its start, or its stroke, complete, and waits while the link is down; a host memory read that fails
returns its lines marked uncorrectable and counts in HOST_RD_ERR, and in POISON_RX when it came poisoned. A read or a flush that was outstanding
when its channel stopped counts all the same when it fails. That the pages become READY with the link, and that a failed flush counts without
poison, is the model's reading (assumption log 30). -/
def Obligations.HostLinkFlushAndReadError : Prop :=
  ∀ (s : State) (port : Fin 4),
    (∀ width speed, s.bget (pHost port.val 0 + 0x40) 31 = false → (s.start = .done ∨ s.start = .testing) →
      completes (.hostLinkChange port true width speed) s (fun t =>
        t.bget (pHost port.val 0 + 0x40) 31 = true ∧ t.fget (pHost port.val 0 + 0x40) 23 16 = width % 256 ∧
        t.fget (pHost port.val 0 + 0x40) 3 0 = speed % 16 ∧ t.bget (pHost port.val 0 + 0x18) 0 = true ∧
        ∀ k, k < 5 → t.readyState (pHost port.val k) = 3)) ∧
    (∀ width speed, s.bget (pHost port.val 0 + 0x40) 31 = true → (s.start = .done ∨ s.start = .testing) →
      completes (.hostLinkChange port false width speed) s (fun t =>
        t.reg (pHost port.val 0 + 0x40) = 0#32 ∧ t.bget (pHost port.val 0 + 0x18) 0 = true ∧
        sameRegs (fun a => a = pHost port.val 0 + 0x40 ∨ a = pHost port.val 0 + 0x18 ∨ a = pHost port.val 0 + 0x1C ∨
          (s.run.posted ≠ [] ∧ strokeRegs a)) s t ∧ t = { s with regs := t.regs, run := { s.run with posted := t.run.posted } })) ∧
    (∀ (c : Fin 64) (ok : Bool), c.val < 32 → chState s (64 + port.val) c.val = 3 → (s.chan (64 + port.val) c.val).flush.isSome = true →
      (s.chan (64 + port.val) c.val).flushing = true → c.val ∉ (s.host port.val).lateFlushes →
      (s.bget (pHost port.val 0 + 0x40) 31 = true → completes (.hostFlushDone port c ok) s (fun t =>
        t.chan (64 + port.val) c.val = { s.chan (64 + port.val) c.val with flush := none, flushing := false } ∧
        (∀ r k, k < 32 → ¬ (r = 64 + port.val ∧ k = c.val) → t.chan r k = s.chan r k) ∧
        (ok = true → t = { s with chans := t.chans }) ∧
        (ok = false → t.reg (pHost port.val 0 + 0x60) = s.reg (pHost port.val 0 + 0x60) + 1#32 ∧ t.bget (pHost port.val 0 + 0x18) 1 = true ∧
          t = { s with chans := t.chans, regs := t.regs }))) ∧
      (s.bget (pHost port.val 0 + 0x40) 31 = false → exec (.hostFlushDone port c ok) s = .next s)) ∧
    (∀ (c : Fin 64) (ok : Bool) (rest : List Nat), c.val < 32 → (s.host port.val).lateFlushes = c.val :: rest →
      s.bget (pHost port.val 0 + 0x40) 31 = true → completes (.hostFlushDone port c ok) s (fun t =>
        t.host port.val = { s.host port.val with lateFlushes := rest } ∧ (∀ h, h ≠ port.val → t.host h = s.host h) ∧
        (ok = true → t = { s with hosts := t.hosts }) ∧
        (ok = false → t.reg (pHost port.val 0 + 0x60) = s.reg (pHost port.val 0 + 0x60) + 1#32 ∧ t.bget (pHost port.val 0 + 0x18) 1 = true ∧
          t = { s with hosts := t.hosts, regs := t.regs }))) ∧
    (∀ (c : Fin 32) (rest : List Nat) (poisoned : Bool), (s.host port.val).lateReads = c.val :: rest →
      completes (.hostRdErr port c poisoned true) s (fun t =>
        t.host port.val = { s.host port.val with lateReads := rest } ∧ (∀ h, h ≠ port.val → t.host h = s.host h) ∧
        t.reg (pHost port.val 0 + 0x60) = s.reg (pHost port.val 0 + 0x60) + 1#32 ∧ t.bget (pHost port.val 0 + 0x18) 1 = true ∧
        (poisoned = true → t.reg (pHost port.val 0 + 0x68) = s.reg (pHost port.val 0 + 0x68) + 1#32 ∧
          t.bget (pHost port.val 0 + 0x18) 2 = true) ∧ t = { s with regs := t.regs, hosts := t.hosts })) ∧
    (∀ (pre : List Stroke) (k : Stroke) (post : List Stroke), s.run.strokes = pre ++ k :: post →
      (∀ x ∈ pre, ¬ (x.flush = true ∧ x.cmd.rq.port = port)) → k.flush = true → k.cmd.rq.port = port →
      (s.bget (pHost port.val 0 + 0x40) 31 = true → completes (.hostFlushDone port 63 true) s (fun t =>
        t = { s with run := { s.run with strokes := pre ++ { k with flush := false } :: post } })) ∧
      (s.bget (pHost port.val 0 + 0x40) 31 = false → exec (.hostFlushDone port 63 true) s = .next s)) ∧
    (∀ (c : Fin 32) (dst : EA) (q : ReelRead) (poisoned : Bool), (s.chan (64 + port.val) c.val).bursts = [⟨dst, q.n, [q]⟩] → q.issued = true → q.taken = [] →
      hostEa q.ea.toNat = true → chState s (64 + port.val) c.val = 2 → s.mesh = [] →
      completes (.hostRdErr port c poisoned false) s (fun t =>
        t.reg (pHost port.val 0 + 0x60) = s.reg (pHost port.val 0 + 0x60) + 1#32 ∧ t.bget (pHost port.val 0 + 0x18) 1 = true ∧
        (poisoned = true → t.reg (pHost port.val 0 + 0x68) = s.reg (pHost port.val 0 + 0x68) + 1#32 ∧
          t.bget (pHost port.val 0 + 0x18) 2 = true) ∧
        (∃ m : Msg, t.mesh = [m] ∧ m.dst = .reel (64 + port.val) ∧ m.ea = q.ea ∧ m.seq = q.seq ∧
          m.payload.length = q.n ∧ ∀ l ∈ m.payload, l.bad = true) ∧
        t = { s with regs := t.regs, mesh := t.mesh, freeCtr := t.freeCtr }))

/-- R402: a reset of a port returns the registers of its pages 0 to 4 and of its host reel to their reset values, discards the entries due and
what the reel's channels hold, and lets no stroke wait for a flush of the port; PORT_RESET is raised once the link returns. A Function Level Reset
does so for one function's ring and raises PORT_RESET. Memory and spindles stay, but for the counters of headers. That PAGE_READY resets with pages
0 to 4 and stays in an FLR, and that REEL_STATUS shows its slots on, is the model's reading (assumption log 30). -/
def Obligations.HostPortResets : Prop :=
  ∀ (s : State) (port : Fin 4),
    completes (.portReset port) s (fun t =>
      (∀ k o, k < 5 → o < 0x1000 → t.reg (pHost port.val k + o) = resetOf (pHost port.val k + o)) ∧
      (∀ k o, k < 8 → o < 0x1000 → o ≠ 0xC → ¬ (k = 0 ∧ o = 0x40) → t.reg (pHost port.val (8 + k) + o) = resetOf (pHost port.val (8 + k) + o)) ∧
      (∀ c, c < 32 → t.chan (64 + port.val) c = { gen := ((s.chan (64 + port.val) c).gen + 1) % 1024 }) ∧
      (∀ fn1, (t.ring ⟨port, fn1⟩).due = [] ∧ (t.ring ⟨port, fn1⟩).msix = [] ∧ (t.ring ⟨port, fn1⟩).unsent = 0#128) ∧ (t.host port.val).resetPending = true ∧
      (∀ rq, rq.port ≠ port → (t.ring rq).due = (s.ring rq).due ∧ (t.ring rq).msix = (s.ring rq).msix) ∧
      (∀ k ∈ t.run.strokes, k.cmd.rq.port = port → k.flush = false) ∧
      t.mem = s.mem ∧ t.marks = s.marks ∧ routed (fun _ => True) s t) ∧
    (∀ width speed, (s.host port.val).resetPending = true → s.bget (pHost port.val 0 + 0x40) 31 = false → (s.start = .done ∨ s.start = .testing) →
      completes (.hostLinkChange port true width speed) s (fun t =>
        t.bget (pHost port.val 0 + 0x18) 3 = true ∧ (t.host port.val).resetPending = false)) ∧
    (∀ fn1, completes (.functionLevelReset port fn1) s (fun t =>
      (∀ o, o < 0x1000 → o ≠ 0xC → t.reg (ringPage ⟨port, fn1⟩ + o) = resetOf (ringPage ⟨port, fn1⟩ + o)) ∧
      (t.ring ⟨port, fn1⟩).due = [] ∧ (t.ring ⟨port, fn1⟩).msix = [] ∧ (t.ring ⟨port, fn1⟩).unsent = 0#128 ∧
      (∀ rq, rq ≠ ⟨port, fn1⟩ → (t.ring rq).due = (s.ring rq).due ∧ (t.ring rq).msix = (s.ring rq).msix) ∧
      t.bget (pHost port.val 0 + 0x18) 3 = true ∧ t = { s with regs := t.regs, hosts := t.hosts, run := t.run }))

/-- R156 to R158, R163, R173: what a firing action of the active ply does by its switch, load request, counter codes and tap increments. That
the parts of an action are commands of their own, and when a requested load may start, is the model's reading (assumption logs 8, 14). -/
def Obligations.ActionControlFields : Prop :=
  ∀ (s : State) (sid : SID) (act : BitVec 256), spinUp s sid.toNat = true → (s.spin sid.toNat).ply < 4 →
    let p := s.spin sid.toNat
    let w := act.toNat
    (fld w 237 236 = 1 → fld w 235 234 ≠ p.ply → completes (.plySwitch sid act) s (fun t =>
      (t.spin sid.toNat).ply = fld w 235 234 ∧ (t.spin sid.toNat).saved p.ply = nextAct p p.ply w ∧
      (t.spin sid.toNat).curAct (fld w 235 234) = (if p.wasActive (fld w 235 234) then p.saved (fld w 235 234) else p.entry (fld w 235 234)) ∧
      (∀ r, (t.spin sid.toNat).vreg r = p.vreg r) ∧ onlySpin s t sid.toNat)) ∧
    (w.testBit 233 = true → p.loadWait = none → completes (.loadRequest sid act) s (fun t =>
      t.spin sid.toNat = { p with loadWait := some (fld w 232 231, agVal p p.ply (fld w 230 229) % 2048,
        fld w 232 231 != p.ply || !(p.loaded (fld w 232 231) || p.loading (fld w 232 231))) } ∧ onlySpin s t sid.toNat)) ∧
    completes (.counterUpdate sid act) s (fun t =>
      (∀ i, i < 6 → (t.spin sid.toNat).ctr p.ply i = ctrAfter p p.ply w i) ∧
      (∀ g o, o < 4096 → ¬ (g = 1 + p.ply ∧ ∃ i, i < 6 ∧ o = 0x64 + 8 * i) → (t.spin sid.toNat).wreg g o = p.wreg g o) ∧ onlySpin s t sid.toNat) ∧
    completes (.tapIncrement sid act) s (fun t =>
      ∀ i, i < 16 → (t.spin sid.toNat).tap i
        = (p.tap i + (if i = fld w 171 168 then fld w 167 164 else 0) + (if i = fld w 163 160 then fld w 159 156 else 0)) % 2 ^ 16)

/-- R153, R59 to R61, R199: what the MP loads and stores for an action of the active ply whose lines decode cleanly, and the write-back of
a corrected line while its bank is idle. That a read takes its register at once, and a queue read a token that the guards see, is the model's reading
(assumption logs 8, 15). -/
def Obligations.MemoryPortMoves : Prop :=
  ∀ (s : State) (sid : SID) (act : BitVec 256), spinUp s sid.toNat = true →
    let p := s.spin sid.toNat
    let k := p.ply
    let w := act.toNat
    let line := fun (L : Nat) => readLine s (storeAddr sid.toNat L)
    let A := agVal p k (fld w 94 91)
    let B := agVal p k (fld w 83 82)
    let o := agVal p k (fld w 105 104)
    let v := p.vreg (fld w 81 76)
    (w.testBit 95 = true → fld w 94 91 ≤ 2 → (line A).bad = false → (line (A + 1)).bad = false →
      completes (.mpStoreRead sid act []) s (fun t =>
        t.spin sid.toNat = p.setV (fld w 90 85) ((line (A + 1)).data ++ (line A).data) ∧ onlySpin s t sid.toNat)) ∧
    (∀ q, w.testBit 95 = true → fld w 94 91 = 8 + q → holdsToken (seenBy s sid.toNat) sid.toNat k (8 + q) = true →
      let h := (rqHeadRec s sid.toNat k q).1
      let len := fld (ringLine s sid.toNat k q h) 26 24
      let pay := fun (j : Nat) => if j ≤ len then line (rqBase p k q + h + 1 + j) else {}
      (pay (o % 8)).bad = false → (pay (o % 8 + 1)).bad = false →
      completes (.mpRqRead sid act []) s (fun t =>
        t.spin sid.toNat = p.setV (fld w 90 85) ((pay (o % 8 + 1)).data ++ (pay (o % 8)).data) ∧ onlySpin s t sid.toNat)) ∧
    (∀ q, q < 4 → w.testBit 95 = true → fld w 94 91 = 4 + q → holdsToken (seenBy s sid.toNat) sid.toNat k (4 + q) = true →
      getB (p.wreg (1 + k) (cqOff q + 8)) 14 = false → Fmt.ofCode (getF (p.wreg (1 + k) (cqOff q)) 16 12) = .la128 →
      completes (.mpCqRead sid act) s (fun t =>
        (∀ r, (t.spin sid.toNat).vreg r = if r = fld w 90 85 then cqAcc p k q (4 * (o % 4) + 3) ++ cqAcc p k q (4 * (o % 4) + 2)
          ++ cqAcc p k q (4 * (o % 4) + 1) ++ cqAcc p k q (4 * (o % 4)) else p.vreg r) ∧
        (∀ g o, o < 4096 → (t.spin sid.toNat).wreg g o = p.wreg g o) ∧
        t.spin sid.toNat = { p with vregs := (t.spin sid.toNat).vregs, win := (t.spin sid.toNat).win } ∧ onlySpin s t sid.toNat)) ∧
    (w.testBit 84 = true → fld w 83 82 ≠ 3 → completes (.mpWrite sid act []) s (fun t =>
      let a := storeAddr sid.toNat B
      let b := storeAddr sid.toNat (B + 1)
      (fld w 75 74 = 0 → readLine t a = ⟨v.setWidth 256, false⟩ ∧ ∀ c, (c < a ∨ a + 32 ≤ c) → readByte t c = readByte s c) ∧
      (fld w 75 74 = 1 → readLine t a = ⟨(v >>> 256).setWidth 256, false⟩ ∧ ∀ c, (c < a ∨ a + 32 ≤ c) → readByte t c = readByte s c) ∧
      (fld w 75 74 = 2 → readLine t a = ⟨v.setWidth 256, false⟩ ∧ readLine t b = ⟨(v >>> 256).setWidth 256, false⟩ ∧
        ∀ c, (c < a ∨ a + 32 ≤ c) → (c < b ∨ b + 32 ≤ c) → readByte t c = readByte s c) ∧
      (fld w 75 74 = 3 → (line B).bad = false → fld w 69 66 ≠ 0 → fld w 73 70 = 0 →
        readLine t a = ⟨BitVec.ofNat 256 (blend (line B).data.toNat (v.setWidth 256).toNat (laneMask (fld w 69 66))), false⟩ ∧
        ∀ c, (c < a ∨ a + 32 ≤ c) → readByte t c = readByte s c) ∧
      (fld w 75 74 ≠ 3 → t = { s with mem := t.mem, marks := t.marks }))) ∧
    (∀ L rest, p.wback = L :: rest → p.load = none → (bankOf L &&& p.busy) = 0#8 →
      completes (.storeCorrectedWriteBack sid) s (fun t =>
        t.spin sid.toNat = { p with wback := rest, busy := p.busy ||| bankOf L } ∧ onlySpin s t sid.toNat))

/-- R154, R84, R182, R177: a send through a route entry that may be used starts a message whose header the route entry, the address
generator and the abort count give. R155, R195, R199, R260: what a pop takes from a receive, a combining and a hank queue. That a
pop takes a token that the guards see, and how SEQ, EA and VC of a header are formed where R182 names none, is the model's reading (assumption logs 8,
15). -/
def Obligations.SendsAndPops : Prop :=
  ∀ (s : State) (sid : SID) (act : BitVec 256), spinUp s sid.toNat = true → (s.spin sid.toNat).ply < 4 →
    let p := s.spin sid.toNat
    let k := p.ply
    let w := act.toNat
    let rt := fld w 126 123
    let d := p.wreg (1 + k) (0x300 + 0x10 * rt)
    let g := p.wreg (1 + k) (0x300 + 0x10 * rt + 4)
    let e := (p.wreg (1 + k) (0x300 + 0x10 * rt + 8)).toNat / 32 * 32 + 2 ^ 32 * p.wf_ (1 + k) (0x300 + 0x10 * rt + 12) 15 0
    let A := agVal p k (fld w 121 120)
    let cnt := SMap.get (fun _ => 0) p.seqs (k * 16 + rt)
    (w.testBit 127 = true → routeOk p k rt = true → p.ip.length < 4 → completes (.send sid act) s (fun t => ∃ m : IpMsg,
      m.hdr.dest.toNat = getF d 20 0 ∧ m.hdr.src = sid ∧ m.hdr.kind = getF d 30 29 ∧ m.hdr.req = getB d 23 ∧ m.hdr.len = getF d 26 24 ∧
      m.hdr.vc = (if getB d 23 = true then 1 else if getF d 30 29 = 3 then 3 else 0) ∧
      fld m.hdr.tag.toNat 13 10 = (getF g 13 10 + if s.placed sid.toNat then s.abortK else 0) % 16 ∧
      (∀ i, i < 16 → ¬ (10 ≤ i ∧ i ≤ 13) → m.hdr.tag.getLsbD i = g.getLsbD i) ∧
      (getB d 23 = true ∨ getF d 30 29 = 3 → m.hdr.ea.toNat = (e + A * 32) % 2 ^ 48) ∧
      (getB d 23 = false → getF d 30 29 = 2 → getF d 20 0 % 2048 ≠ 0x7FF → m.hdr.ea.toNat = storeAddr (getF d 20 0) A) ∧
      (w.testBit 122 = true → getB d 23 = false → m.store = none ∧
        m.regs = [⟨(p.vreg (fld w 119 114)).setWidth 256, false⟩, ⟨(p.vreg (fld w 119 114) >>> 256).setWidth 256, false⟩]) ∧
      (w.testBit 122 = false → getB d 23 = false → m.store = some (A % 2048)) ∧
      m.hdr.seq = cnt % 256 ∧ m.sent = false ∧ m.tap = (if getB g 31 = true then some (getF g 27 24) else none) ∧
      SMap.get (fun _ => 0) (t.spin sid.toNat).seqs (k * 16 + rt) = (cnt + 1) % 256 ∧
      t.spin sid.toNat = { p with ip := p.ip ++ [m], seqs := (t.spin sid.toNat).seqs } ∧ onlySpin s t sid.toNat)) ∧
    (∀ q, fld w 113 110 = 8 + q → fld w 109 106 ≤ 1 → holdsToken (seenBy s sid.toNat) sid.toNat k (8 + q) = true →
      let h := rqHead p k q
      let n := fld (ringLine s sid.toNat k q h) 26 24 + 2
      let h' := (h + n) % rqSize p k q
      let u := rqUsed p k q - n
      let l := ringLine s sid.toNat k q h'
      fld (ringLine s sid.toNat k q h) 31 29 ≠ 2 → 1 ≤ rqSize p k q →
      completes (.pop sid act) s (fun t =>
        rqHead (t.spin sid.toNat) k q = (if u ≠ 0 ∧ fld l 31 29 = 2 then 0 else h') ∧
        rqUsed (t.spin sid.toNat) k q = (if u ≠ 0 ∧ fld l 31 29 = 2 then u - fld l 42 32 else u) ∧
        (∀ g o, o < 4096 → ¬ (g = 1 + k ∧ (o = rqOff q + 0xC ∨ o = rqOff q + 0x14)) → (t.spin sid.toNat).wreg g o = p.wreg g o) ∧
        onlySpin s t sid.toNat)) ∧
    (∀ q, q < 4 → fld w 113 110 = 4 + q → fld w 109 106 ≤ 1 → holdsToken (seenBy s sid.toNat) sid.toNat k (4 + q) = true →
      completes (.pop sid act) s (fun t =>
        (∀ l, l < 16 → cqAcc (t.spin sid.toNat) k q l = 0#128) ∧ getB ((t.spin sid.toNat).wreg (1 + k) (cqOff q + 8)) 15 = false ∧
        (∀ g o, o < 4096 → ¬ (g = 1 + k ∧ (o = cqOff q + 8 ∨ (0x400 + 0x100 * q ≤ o ∧ o < 0x500 + 0x100 * q))) →
          (t.spin sid.toNat).wreg g o = p.wreg g o) ∧ onlySpin s t sid.toNat)) ∧
    (∀ q, q < 2 → fld w 113 110 = 2 + q → fld w 109 106 ≤ 1 → holdsToken (seenBy s sid.toNat) sid.toNat k (2 + q) = true →
      let D := p.wreg (1 + k) (hqOff q)
      let h := (p.wreg (1 + k) (hqOff q + 12)).toNat % getF D 24 16
      1 ≤ getF D 24 16 → completes (.pop sid act) s (fun t =>
        (t.spin sid.toNat).wreg (1 + k) (hqOff q + 12) = p.wreg (1 + k) (hqOff q + 12) + 1#32 ∧
        (t.spin sid.toNat).wreg 6 (0x400 + 0x20 * k + 0x10 * q) = p.wreg 6 (0x400 + 0x20 * k + 0x10 * q) + 1#32 ∧
        (getF D 26 25 ≠ 3 → (t.spin sid.toNat).wreg (1 + k) (0x90 + 0x10 * getF D 26 25)
          = BitVec.ofInt 32 ((p.wf_ (1 + k) (hqOff q + 4) 22 0 : Int) + (h : Int) * sext 16 (getF D 15 0))) ∧
        (∀ g o, o < 4096 → g ≠ 6 → ¬ (g = 1 + k ∧ (o = hqOff q + 12 ∨ (getF D 26 25 ≠ 3 ∧ o = 0x90 + 0x10 * getF D 26 25))) →
          (t.spin sid.toNat).wreg g o = p.wreg g o) ∧
        (∀ j, j ≠ sid.toNat → t.spin j = s.spin j) ∧ t = { s with spindles := t.spindles, regs := t.regs }))

/-- R68, R182, R26, R71, R73: the IP injects its oldest message line by line, one line a cycle; with its last line the message enters the mesh, a read of an
unmapped EA is answered with zero lines, and a message that has left raises its tap. That a message enters the mesh whole is the model's choice
(assumption log 12); the SEQ of a response is its reading (log 15). -/
def Obligations.IpInjectsMessages : Prop :=
  ∀ (s : State) (sid : SID) (pre : List IpMsg) (m : IpMsg) (post : List IpMsg), spinUp s sid.toNat = true →
    let p := s.spin sid.toNat
    p.ip = pre ++ m :: post → (∀ x ∈ pre, x.sent = true) →
    (p.ipDone = true → ∀ c, exec (.ipMessageInject sid c) s = .next s) ∧
    (p.ipDone = false → m.sent = false → m.hdr.req = false → m.hdr.kind ≠ 3 → m.todo = m.hdr.len + 2 → ∀ c, completes (.ipMessageInject sid c) s (fun t =>
      t.spin sid.toNat = { p with ipDone := true, ip := pre ++ { m with todo := m.hdr.len + 1 } :: post } ∧ onlySpin s t sid.toNat)) ∧
    (∀ L, p.ipDone = false → m.sent = false → m.hdr.req = false → m.hdr.kind ≠ 3 → 1 < m.todo → m.todo ≤ m.hdr.len + 1 → m.store = some L →
      (bankOf L &&& p.busy) = 0#8 → (readLine s (storeAddr sid.toNat L)).bad = false →
      completes (.ipMessageInject sid .clean) s (fun t =>
        t.spin sid.toNat = { p with ipDone := true, busy := p.busy ||| bankOf L, ip := pre ++ { m with
          todo := m.todo - 1, store := some ((L + 1) % 2048),
          hdr := { m.hdr with payload := m.hdr.payload ++ [readLine s (storeAddr sid.toNat L)] } } :: post } ∧
        onlySpin s t sid.toNat)) ∧
    (p.ipDone = false → m.sent = false → m.hdr.req = false → m.hdr.kind ≠ 3 → m.todo = 1 → m.store = none →
      s.validSid m.hdr.dest.toNat = true → m.hdr.dest.toNat % 2048 ≠ 0x7FF →
      let h := { m.hdr with payload := m.hdr.payload ++ [nth ({} : Line) m.regs 0], dst := .spindle m.hdr.dest.toNat }
      let s' := s.setSpin sid.toNat { p with ipDone := true, ip := pre ++ { m with
        sent := true, todo := 0, regs := m.regs.drop 1, hdr := { m.hdr with payload := m.hdr.payload ++ [nth ({} : Line) m.regs 0] } } :: post }
      cutField s' h = none → ∀ c, completes (.ipMessageInject sid c) s (fun t => t = { s' with mesh := s.mesh ++ [h] })) ∧
    (p.ipDone = false → m.sent = false → m.hdr.req = true → m.store = none → s.validSid m.hdr.dest.toNat = true → m.hdr.dest.toNat % 2048 ≠ 0x7FF →
      let ea := m.hdr.ea.toNat
      let s' := s.setSpin sid.toNat { p with ipDone := true, ip := pre ++ { m with sent := true, todo := 0 } :: post }
      (∀ f o, decodeEA s ea = .bobbin f o → o + 32 * (m.hdr.len + 1) ≤ s.capacity → outFive s (pBob f 0) = false →
        cutField s' { m.hdr with dst := .bobbin f } = none → ∀ c, completes (.ipMessageInject sid c) s (fun t =>
          t = { s' with mesh := s.mesh ++ [{ m.hdr with dst := .bobbin f }] })) ∧
      (decodeEA s ea = .unmapped → routesWhole s → ∀ c, completes (.ipMessageInject sid c) s (fun t =>
          t.bget (fcPage s sid.toNat + 0x18) 28 = true ∧ t.bget (fcPage s sid.toNat + 0x18) 29 = true ∧
          (s.bget (fcPage s sid.toNat + 0x140) 31 = false → t.bget (fcPage s sid.toNat + 0x140) 31 = true ∧
            t.fget (fcPage s sid.toNat + 0x140) 20 0 = sid.toNat ∧ t.fget (fcPage s sid.toNat + 0x140) 22 21 = 0 ∧
            t.fget (fcPage s sid.toNat + 0x144) 31 0 = ea % 2 ^ 32 ∧ t.fget (fcPage s sid.toNat + 0x148) 15 0 = ea / 2 ^ 32 % 65536) ∧
          (∃ r : Msg, t.mesh = s.mesh ++ [r] ∧ r.dst = .spindle m.hdr.dest.toNat ∧ r.vc = 2 ∧ r.kind = m.hdr.kind ∧ r.tag = m.hdr.tag ∧
            r.payload = List.replicate (m.hdr.len + 1) {}) ∧
          t = { s' with regs := t.regs, mesh := t.mesh }))) ∧
    (pre = [] → m.sent = true → m.tap = none → completes (.ipMessageLeft sid) s (fun t =>
      t.spin sid.toNat = { p with ip := post } ∧ onlySpin s t sid.toNat)) ∧
    (∀ i, i < 16 → pre = [] → m.sent = true → m.tap = some i → p.hqOfTap i = [] → completes (.ipMessageLeft sid) s (fun t =>
      (t.spin sid.toNat).tap i = (p.tap i + 1) % 2 ^ 16 ∧ (∀ j, j < 16 → j ≠ i → (t.spin sid.toNat).tap j = p.tap j) ∧
      (t.spin sid.toNat).ip = post ∧ onlySpin s t sid.toNat))

/-- R161, R163: what a core cycle of the sequencer does with the current action of the active ply, once the last cycle has closed: it
stalls with 0x7 outside a running run, under HOLD or unloaded, skips, holds with the lowest wait code, or fires and moves on. The order of the cycle's
happenings and what its guards see are the model's readings (assumption logs 8, 14). -/
def Obligations.SequencerCycleFollowsTheRule : Prop :=
  ∀ (s : State) (sid : SID) (conds : List Cond), spinUp s sid.toNat = true → (s.spin sid.toNat).ply < 4 →
    let c := cycleStart s sid.toNat conds
    let p := c.spin sid.toNat
    let k := p.ply
    let w := p.action k (p.curAct k)
    let waits := waitCodes (seenBy c sid.toNat) sid.toNat k (p.curAct k) w p.busy
    let idle := c.live sid.toNat = false ∨ p.hold = true ∨ p.dead = true ∨ p.loaded k = false
    let held := fun (t : State) => (∀ j, j ≠ sid.toNat → t.spin j = c.spin j) ∧ t = { c with spindles := t.spindles, regs := t.regs } ∧
      (∀ r, (t.spin sid.toNat).vreg r = p.vreg r) ∧ (t.spin sid.toNat).ply = k ∧
      ∀ g o, o < 4096 → g ≠ 5 → g ≠ 6 → (t.spin sid.toNat).wreg g o = p.wreg g o
    completes (.sequencerCycle sid conds) s (fun t =>
      (idle → (t.spin sid.toNat).stall = 7 ∧ (t.spin sid.toNat).cur = p.cur ∧ held t) ∧
      (¬ idle → w.testBit 238 = true → condOf p k w = false →
        (t.spin sid.toNat).stall = 1 ∧ (t.spin sid.toNat).curAct k = fld w 249 244 ∧ held t) ∧
      (¬ idle → ¬ (w.testBit 238 = true ∧ condOf p k w = false) → ∀ x rest, waits = x :: rest →
        (t.spin sid.toNat).stall = x ∧ (t.spin sid.toNat).cur = p.cur ∧ held t) ∧
      (¬ idle → ¬ (w.testBit 238 = true ∧ condOf p k w = false) → waits = [] → (t.spin sid.toNat).stall = 0 ∧
        ((fld w 237 236 = 1 ∨ (fld w 237 236 = 2 ∧ condOf p k w = true)) ∧ fld w 235 234 ≠ k →
          (t.spin sid.toNat).ply = fld w 235 234 ∧ (t.spin sid.toNat).saved k = nextAct p k w) ∧
        (¬ ((fld w 237 236 = 1 ∨ (fld w 237 236 = 2 ∧ condOf p k w = true)) ∧ fld w 235 234 ≠ k) →
          (t.spin sid.toNat).ply = k ∧ (t.spin sid.toNat).curAct k = nextAct p k w)))

/-- R123, R133, R77, R147, R467: an operation whose latency has passed writes its result and its flags; a failed check raises event 7 of the
field's page, is recorded with its lane and makes a hit, of an operation still in the VU as well; a finding that its check cannot make in this cycle
(R147) counts as none. That the checks of one operation in one cycle make one mismatch is the model's reading (assumption log 35), as is the order
of a cycle (log 8). -/
def Obligations.VuResultIsWritten : Prop :=
  ∀ (s : State) (sid : SID) (x : VuFly) (rest : List VuFly), spinUp s sid.toNat = true →
    let p := s.spin sid.toNat
    let pg := fcPage s sid.toNat
    p.vu = x :: rest → x.left = 0 → (∀ y ∈ rest, y.left ≠ 0) → x.ply < 4 → (∀ m ∈ p.mp, m.left = 0 → m.reg ≠ x.dst) →
    completes (.vuResultWrite sid []) s (fun t =>
      spinLeaves p (t.spin sid.toNat) x.ply x.dst x.res false ∧ (t.spin sid.toNat).vu = rest ∧ (t.spin sid.toNat).mp = p.mp ∧
      onlySpin s t sid.toNat) ∧
    (∀ (i : Nat) (y : VuFly) (m : Mismatch), rest[i]? = some y → m.kind ≠ 0 → checkable y m = true → completes (.vuResultWrite sid [(i + 1, m)]) s (fun t =>
      (t.spin sid.toNat).vu = rest ∧ t.bget (pg + 0x18) 7 = true ∧
      (s.bget (pg + 0x200) 31 = false → t.fget (pg + 0x200) 27 24 = m.lane % 16 ∧ t.fget (pg + 0x204) 31 26 = y.op % 64) ∧
      t.belfry.hitsDue = s.belfry.hitsDue ++ [(s.fieldOf sid.toNat * 32768 + locOf s sid.toNat, false, s.tb)])) ∧
    (∀ m : Mismatch, checkable x m = false → completes (.vuResultWrite sid [(0, m)]) s (fun t =>
      spinLeaves p (t.spin sid.toNat) x.ply x.dst x.res false ∧ onlySpin s t sid.toNat)) ∧
    (∀ m m' : Mismatch, checkable x m = true → checkable x m' = true → completes (.vuResultWrite sid [(0, m), (0, m')]) s (fun t =>
      t.belfry.hitsDue = s.belfry.hitsDue ++ [(s.fieldOf sid.toNat * 32768 + locOf s sid.toNat, false, s.tb)] ∧
      (s.bget (pg + 0x200) 31 = false → t.fget (pg + 0x200) 30 28 = min m.kind m'.kind % 8))) ∧
    (∀ m : Mismatch, checkable x m = true → completes (.vuResultWrite sid [(0, m)]) s (fun t =>
      (∀ v, (t.spin sid.toNat).vreg v
        = if v = x.dst ∧ x.res.mask ≠ 0 then BitVec.ofNat 512 (blend (p.vreg v).toNat x.res.val x.res.mask) else p.vreg v) ∧
      (t.spin sid.toNat).vu = rest ∧ getB ((t.spin sid.toNat).wreg 5 0x44) 5 = true ∧ t.bget (pg + 0x18) 7 = true ∧
      (s.bget (pg + 0x200) 31 = false → t.bget (pg + 0x200) 31 = true ∧ t.fget (pg + 0x200) 30 28 = m.kind % 8 ∧
        t.fget (pg + 0x200) 27 24 = laneOf x m % 16 ∧ t.fget (pg + 0x200) 20 0 = sid.toNat ∧ t.fget (pg + 0x204) 31 26 = x.op % 64 ∧ t.fget (pg + 0x204) 25 20 = x.act % 64) ∧
      t.belfry.hitsDue = s.belfry.hitsDue ++ [(s.fieldOf sid.toNat * 32768 + locOf s sid.toNat, false, s.tb)] ∧
      (∀ j, j ≠ sid.toNat → t.spin j = s.spin j) ∧ t = { s with spindles := t.spindles, regs := t.regs, belfry := t.belfry }))

/-- R173, R174, R176: a load of a ply empties the ply at its start, and, when its last line was read without an error, installs the image. A
request for the loaded active ply of a live spindle waits. R210: what the EP still passes into the ply's queues is absorbed as stale. When a
requested load starts is the model's reading (assumption log 14); an uncorrectable image leaves a mixture (logs 2, 29). -/
def Obligations.PlyLoads : Prop :=
  ∀ (s : State) (sid : SID), spinUp s sid.toNat = true →
    let p := s.spin sid.toNat
    (∀ base, p.load = none → p.loadWait = some (p.ply, base, false) → p.loaded p.ply = true → s.live sid.toNat = true →
      exec (.plyLoadStart sid) s = .next s) ∧
    (∀ k base now, k < 4 → p.load = none → p.loadWait = some (k, base, now) →
      ¬ (p.ply = k ∧ p.loaded k = true ∧ now = false ∧ s.live sid.toNat = true) →
      completes (.plyLoadStart sid) s (fun t =>
        let q := t.spin sid.toNat
        q.loaded k = false ∧ q.loadWait = none ∧
        (∃ old, q.load = some { ply := k, base := base % 2048, next := 0, bad := false, old := old }) ∧
        (∀ n, n < 8 → rqHead q k n = 0 ∧ rqTail q k n = 0 ∧ rqUsed q k n = 0 ∧ spUsed q k n = 0) ∧
        (∀ n, n < 4 → q.wf_ (1 + k) (cqOff n + 4) 31 16 = 0 ∧ cqReleased q k n = false ∧ ∀ l, l < 16 → cqAcc q k n l = 0#128) ∧
        (∀ n, n < 2 → (q.wreg (1 + k) (hqOff n + 12)) = 0#32) ∧ (∀ a ∈ q.arriving, tagPly a.hdr.tag ≠ k) ∧
        ((∃ a ∈ p.arriving, tagPly a.hdr.tag = k) → t.bget (fcPage s sid.toNat + 0x18) 0 = true) ∧
        ((∀ a ∈ p.arriving, tagPly a.hdr.tag ≠ k) → (∀ e ∈ p.fresh, e.2.ofPly k = false) →
          q.epoch k = (p.epoch k + 1) % 16 ∧
          q.load = some { ply := k, base := base % 2048, next := 0, bad := false, old := plyWords p k } ∧
          (∀ g o, o < 4096 → g ≠ 1 + k → q.wreg g o = p.wreg g o) ∧ (∀ a, q.action k a = p.action k a) ∧ onlySpin s t sid.toNat))) ∧
    (∀ l : Loading, p.load = some l → l.ply < 4 → 87 ≤ l.next → l.bad = false → completes (.plyLoadDone sid) s (fun t =>
        let q := t.spin sid.toNat
        q.loaded l.ply = true ∧ q.wreg (1 + l.ply) 0x48 = 0#32 ∧ q.saved l.ply = q.entry l.ply ∧ q.load = none ∧
        (∀ a, a < 64 → q.action l.ply a = (nth 0#256 l.data a).toNat) ∧
        (∀ i, i < 16 → q.tap i = if (q.wf_ (1 + l.ply) 0x40 31 16).testBit i then p.tapPending i % 2 ^ 16 else p.tap i) ∧
        (∀ r, q.vreg r = p.vreg r) ∧ (∀ g o, o < 4096 → g ≠ 1 + l.ply → g ≠ 5 → q.wreg g o = p.wreg g o) ∧
        (∀ j, j ≠ sid.toNat → t.spin j = s.spin j) ∧ t = { s with spindles := t.spindles, run := t.run })) ∧
    (∀ l : Loading, p.load = some l → l.ply < 4 → 87 ≤ l.next → l.bad = true → s.live sid.toNat = true →
      completes (.plyLoadDone sid) s (fun t => t.runState = 5 ∧ (s.bget (pRun + 0x60) 31 = false → t.fget (pRun + 0x60) 15 8 = 2) ∧
        (t.spin sid.toNat).loaded l.ply = p.loaded l.ply))

/-- R166, R169 to R171, R249: how a call comes to wait in a ringer, from RG_GO, from a watch or by the call tree, and how it is issued. That
room is judged before a refusal, and that a bank holds its call until there is room, is the model's reading (assumption logs 14, 17). -/
def Obligations.RingerTakesCalls : Prop :=
  ∀ (s : State) (f : Fin 64),
    let r := s.ringer f.val
    let b := pRinger f.val
    (∀ (port : Fin 4) (pg : Page) (fs : List RField), Serves s (b + 0x4C) pg fs →
      let c := callOf (s.reg (b + 0x40)) (s.reg (b + 0x44)) (s.reg (b + 0x48))
      (16 ≤ r.calls.length → completes (.rgGo port false f) s (fun t =>
        t.bget (b + 0x18) 0 = true ∧ onlyRegsAt (fun o => o = b + 0x18 ∨ o = b + 0x1C) s t)) ∧
      (r.calls.length < 16 → callRefused s f.val c = true → completes (.rgGo port false f) s (fun t =>
        t.bget (b + 0x18) 1 = true ∧ onlyRegsAt (fun o => o = b + 0x18 ∨ o = b + 0x1C) s t)) ∧
      (r.calls.length < 16 → callRefused s f.val c = false → completes (.rgGo port false f) s (fun t =>
        t.reg (b + 0x58) = s.reg (b + 0x58) + 1#32 ∧
        (c.wafer = false → t.ringer f.val = { r with calls := r.calls ++ [c] } ∧ ∀ g, g ≠ f.val → t.ringer g = s.ringer g) ∧
        (c.wafer = true → ∀ g, g < 64 → t.ringer g = { s.ringer g with tree := (s.ringer g).tree ++ [(c, decide (g = f.val))] }) ∧
        t = { s with regs := t.regs, ringers := t.ringers }))) ∧
    (∀ w c rest, r.held = (w, c) :: rest → r.calls.length < 16 → watchClaimed s f.val w = true ∨ callRefused s f.val c = false →
      c.wafer = false → completes (.watchCallAccept f) s (fun t =>
        t.ringer f.val = { r with held := rest, calls := r.calls ++ [c] } ∧ (∀ g, g ≠ f.val → t.ringer g = s.ringer g) ∧
        t.reg (b + 0x58) = s.reg (b + 0x58) + 1#32 ∧ t = { s with regs := t.regs, ringers := t.ringers })) ∧
    (∀ c own rest, r.tree = (c, own) :: rest → r.calls.length < 20 → completes (.waferCallDelivery f) s (fun t =>
        t.ringer f.val = { r with tree := rest, calls := r.calls ++ [c] } ∧ (∀ g, g ≠ f.val → t.ringer g = s.ringer g) ∧
        t.reg (b + 0x58) = (if own then s.reg (b + 0x58) else s.reg (b + 0x58) + 1#32) ∧ t = { s with regs := t.regs, ringers := t.ringers })) ∧
    (∀ c rest, r.calls = c :: rest → loadDelayed s f.val c = false → completes (.callIssue f) s (fun t =>
        t.ringer f.val = { r with calls := rest, issued := r.issued ++ [c] } ∧ (∀ g, g ≠ f.val → t.ringer g = s.ringer g) ∧
        t = { s with ringers := t.ringers }))

/-- R167, R172, R173, R259: what each call code does at its boundary to every spindle that the call selects. When a LOAD is delayed and
when its load may start is the model's reading (assumption log 14). -/
def Obligations.CallCodesTakeEffect : Prop :=
  callRuns .callNop (· = 0) (fun _ p q => q = p) (fun _ _ => False)
  ∧ callRuns .switch (· = 1) (fun c p q => (c.ply = p.ply → q = p) ∧ (c.ply ≠ p.ply →
      q.ply = c.ply ∧ q.saved p.ply = p.curAct p.ply % 64 ∧
      q.curAct c.ply = (if p.wasActive c.ply then p.saved c.ply else p.entry c.ply) ∧ (∀ r, q.vreg r = p.vreg r))) (fun _ _ => False)
  ∧ callRuns .load (· = 2) (fun c p q =>
      q = { p with loadWait := some (c.ply, c.arg % 2048, c.ply != p.was || !(p.loaded c.ply || p.loading c.ply)) }) (fun _ _ => False)
  ∧ callRuns .restart (· = 3) (fun c p q => (p.loaded c.ply = false → q = p) ∧ (p.loaded c.ply = true →
      q.saved c.ply = p.entry c.ply ∧ (∀ i, i < 6 → q.ctr c.ply i = 0) ∧ q.ply = p.ply ∧
      q.curAct p.ply = (if p.ply = c.ply then p.entry c.ply else p.curAct p.ply))) (fun _ _ => False)
  ∧ callRuns .tapAdd (· = 4) (fun c p q => ∀ i, i < 16 →
      q.tap i = (p.tap i + if i = fld c.arg 15 12 then fld c.arg 11 0 else 0) % 2 ^ 16)
      (fun _ o => ∃ f, o = pField f + 0x18 ∨ o = pField f + 0x1C)
  ∧ callRuns .hold (· = 5) (fun _ p q => q = { p with hold := true }) (fun _ _ => False)
  ∧ callRuns .release (· = 6) (fun _ p q => q = { p with hold := false }) (fun _ _ => False)
  ∧ callRuns .callBad (7 ≤ ·) (fun _ p q => q = p) (fun f o => o = pRinger f + 0x18 ∨ o = pRinger f + 0x1C)
  ∧ (∀ (s : State) (f : Fin 64) (c : Call) (rest : List Call), (s.ringer f.val).issued = c :: rest → 7 ≤ c.code →
      completes (.callBad f) s (fun t => t.bget (pRinger f.val + 0x18) 2 = true))

/-- R189, R193 to R195, R198: a queue message that the EP takes. For an open receive queue with room it becomes a ring record of LEN + 2
lines and a token; for an open combining queue it adds its contribution to every lane and, as the EXPECTth, releases the sum; with the
epoch of another load it is stale and is absorbed. That a message is delivered in one step, and forms its token as the EP passes its last line,
is the model's reading (assumption logs 12, 15). -/
def Obligations.QueueMessagesAreDelivered : Prop :=
  ∀ (s : State) (sid : SID) (vc : Fin 4) (src : SID) (pre : List Msg) (m : Msg) (post : List Msg),
    epTakes s sid vc src (fun m => decide (m.kind ≤ 1) && !m.req && !m.isAck) pre m post → spOff s sid.toNat = false → m.cut = false →
    m.src.toNat % 2048 ≠ 0x7FF →
    let p := s.spin sid.toNat
    let k := tagPly m.tag
    let q := tagQueue m.tag
    let line := fun (u : State) (n : Nat) => readLine u (storeAddr sid.toNat n)
    p.loaded k = true → p.load = none →
    (p.epoch k = tagEpoch m.tag → m.kind = 0 → rqOpen p k q = true →
      ringPlace p k q (m.len + 2) = .fits → m.len < 8 → m.payload.length = m.len + 1 → p.holes = [] →
      completes (.epQueueMessage sid vc src []) s (fun t =>
        line t (rqBase p k q + rqTail p k q) = ⟨BitVec.ofNat 256 (headerLine m 1), false⟩ ∧
        (∀ j, j ≤ m.len → line t (rqBase p k q + rqTail p k q + 1 + j) = nth {} m.payload j) ∧
        (∀ a, (∀ j, j < m.len + 2 → a < storeAddr sid.toNat (rqBase p k q + rqTail p k q + j) ∨
          storeAddr sid.toNat (rqBase p k q + rqTail p k q + j) + 32 ≤ a) → readByte t a = readByte s a) ∧
        rqUsed (t.spin sid.toNat) k q = rqUsed p k q + m.len + 2 ∧
        rqTail (t.spin sid.toNat) k q = (rqTail p k q + m.len + 2) % rqSize p k q ∧ rqHead (t.spin sid.toNat) k q = rqHead p k q ∧
        (t.spin sid.toNat).wreg 6 (0x100 + 0x80 * k + 0x10 * q) = p.wreg 6 (0x100 + 0x80 * k + 0x10 * q) + 1#32 ∧
        t.mesh = pre ++ post ∧ onlyCounted s t sid.toNat)) ∧
    (p.epoch k = tagEpoch m.tag → m.kind = 1 → q < 4 → cqOpen p k q = true → cqReleased p k q = false → (∀ l ∈ m.payload, l.bad = false) →
      let add := (cqContribs (getF (p.wreg (1 + k) (cqOff q)) 21 17) (sext 8 (getF (p.wreg (1 + k) (cqOff q)) 7 0)) m.payload).1
      let cnt := p.wf_ (1 + k) (cqOff q + 4) 31 16
      completes (.epQueueMessage sid vc src []) s (fun t =>
        (∀ l, l < 16 → cqAcc (t.spin sid.toNat) k q l = cqAcc p k q l + nth 0#128 add l) ∧
        cqReleased (t.spin sid.toNat) k q = decide (cnt + 1 = cqExpect p k q) ∧
        (t.spin sid.toNat).wf_ (1 + k) (cqOff q + 4) 31 16 = (if cnt + 1 = cqExpect p k q then 0 else (cnt + 1) % 65536) ∧
        (∀ a, readByte t a = readByte s a) ∧ t.mesh = pre ++ post ∧ onlyCounted s t sid.toNat)) ∧
    (p.epoch k ≠ tagEpoch m.tag → m.kind = 0 → s.live sid.toNat = false → ∀ conds, completes (.epQueueMessage sid vc src conds) s (fun t =>
        t.bget (fcPage s sid.toNat + 0x18) 0 = true ∧
        (p.wf_ (1 + k) (rqOff q + 0x18) 30 0 < 2 ^ 31 - 1 →
          (t.spin sid.toNat).wf_ (1 + k) (rqOff q + 0x18) 30 0 = p.wf_ (1 + k) (rqOff q + 0x18) 30 0 + 1) ∧
        (s.bget (fcPage s sid.toNat + 0x100) 31 = false → t.fget (fcPage s sid.toNat + 0x100) 20 0 = sid.toNat ∧
          t.fget (fcPage s sid.toNat + 0x104) 31 16 = m.tag.toNat ∧ t.fget (fcPage s sid.toNat + 0x108) 20 0 = m.src.toNat) ∧
        (∀ a, readByte t a = readByte s a) ∧ t.mesh = pre ++ post ∧ onlyCounted s t sid.toNat))

/-- R62, R63: a store write from outside stores its lines in the lines that it names; a read is answered with them; with the compute domain
off the access counts as one uncorrectable error, a read is answered with marked lines and the store keeps its content. That a message is taken
in one step is the model's reading (assumption log 12). -/
def Obligations.StoreAccessesFromOutside : Prop :=
  ∀ (s : State) (sid : SID) (vc : Fin 4) (src : SID) (pre : List Msg) (m : Msg) (post : List Msg), m.len < 8 → m.isAck = false →
    let line := fun (u : State) (n : Nat) => readLine u (storeAddr sid.toNat n)
    let L := m.ea.toNat % 65536 / 32
    (epTakes s sid vc src (fun m => m.kind = 2 && !m.req && !m.isAck) pre m post → spOff s sid.toNat = false →
      m.payload.length = m.len + 1 → m.src.toNat % 2048 ≠ 0x7FF → completes (.epStoreWrite sid vc src) s (fun t =>
        (∀ j, j ≤ m.len → line t (L + j) = nth {} m.payload j) ∧
        (∀ a, (∀ j, j ≤ m.len → a < storeAddr sid.toNat (L + j) ∨ storeAddr sid.toNat (L + j) + 32 ≤ a) → readByte t a = readByte s a) ∧
        t.mesh = pre ++ post ∧ onlyCounted s t sid.toNat)) ∧
    (∀ d, epTakes s sid vc src (fun m => m.req) pre m post → spOff s sid.toNat = false → (∀ j, j ≤ m.len → (line s (L + j)).bad = false) →
      respDest m.dest = some d → routesWhole s → completes (.epStoreRead sid vc src []) s (fun t =>
        (∃ r : Msg, t.mesh = pre ++ post ++ [r] ∧ r.dst = d ∧ r.vc = 2 ∧ r.kind = m.kind ∧ r.req = false ∧ r.len = m.len ∧ r.dest = m.dest ∧
          r.src = sid ∧ r.tag = m.tag ∧ r.payload = tab (m.len + 1) (fun j => line s (L + j))) ∧
        sameMemory s t ∧ onlyCounted s t sid.toNat)) ∧
    (epTakes s sid vc src (fun m => (m.req || m.kind = 2) && !m.isAck) pre m post → spOff s sid.toNat = true →
      m.req = true ∨ m.src.toNat % 2048 ≠ 0x7FF → routesWhole s → completes (.computeOffStoreAccess sid vc src) s (fun t =>
        t.bget (fcPage s sid.toNat + 0x18) 29 = true ∧
        (s.fget (fcPage s sid.toNat + 0x2C) 30 0 < 2 ^ 31 - 1 →
          t.fget (fcPage s sid.toNat + 0x2C) 30 0 = s.fget (fcPage s sid.toNat + 0x2C) 30 0 + 1) ∧
        (m.req = false → t.mesh = pre ++ post) ∧
        (∀ d, m.req = true → respDest m.dest = some d → ∃ r : Msg, t.mesh = pre ++ post ++ [r] ∧ r.dst = d ∧ r.vc = 2 ∧ r.tag = m.tag ∧
          r.payload.length = m.len + 1 ∧ ∀ l ∈ r.payload, l.bad = true) ∧
        sameMemory s t))

/-- R202 to R205: a queue that has been in skew for longer than its watch raises STALL_SKEW and starts to spill where it may; the oldest spilled
record moves, each line with its mark, into a ring that has room; a skew that outlasts the deadlock limit raises DEADLOCK_SUSPECT and faults a running
run. That a queue which spills already keeps its deadlock count at STALL_SKEW is the model's reading (assumption log 15). -/
def Obligations.SkewSpillsAndDeadlocks : Prop :=
  ∀ (s : State) (sid : SID) (k : Fin 4) (q : Fin 8) (cq : Bool),
    let p := s.spin sid.toNat
    let x := p.skewOf (skewKey k.val q.val cq)
    let pg := fcPage s sid.toNat
    let tag := k.val * 2 ^ 14 + p.epoch k.val * 2 ^ 10 + q.val * 2 ^ 7
    (x.raised = false → skewWatch p k.val q.val cq < x.cyc → skewWatch p k.val q.val cq ≠ 0 →
      completes (.stallSkew sid k q cq) s (fun t =>
        t.bget (pg + 0x18) 1 = true ∧ (cq = false → maySpill p k.val q.val = true → x.spilling = false → t.bget (pg + 0x18) 2 = true) ∧
        (t.spin sid.toNat).skewOf (skewKey k.val q.val cq)
          = { x with raised := true, dead := if x.spilling then x.dead else 0, spilling := !cq && maySpill p k.val q.val } ∧
        (s.bget (pg + 0x100) 31 = false → t.fget (pg + 0x100) 30 28 = 1 ∧ t.fget (pg + 0x100) 20 0 = sid.toNat ∧
          t.fget (pg + 0x104) 31 16 = tag) ∧
        (∀ g o, o < 4096 → (t.spin sid.toNat).wreg g o = p.wreg g o) ∧
        (∀ j, j ≠ sid.toNat → t.spin j = s.spin j) ∧ t = { s with spindles := t.spindles, regs := t.regs })) ∧
    (x.raised = true ∨ x.spilling = true → x.deadRaised = false → 2 ^ s.fget (pRun + 0x4C) 4 0 ≤ x.dead →
      completes (.deadlockSuspect sid k q cq) s (fun t =>
        t.bget (pg + 0x18) 3 = true ∧ ((t.spin sid.toNat).skewOf (skewKey k.val q.val cq)).deadRaised = true ∧
        (s.live sid.toNat = true → t.runState = 5 ∧ (s.bget (pRun + 0x60) 31 = false →
          t.fget (pRun + 0x60) 15 8 = 6 ∧ t.fget (pRun + 0x60) 5 0 = s.fieldOf sid.toNat % 64 ∧ t.fget (pRun + 0x64) 20 0 = sid.toNat)) ∧
        (s.live sid.toNat = false → t = { s with spindles := t.spindles, regs := t.regs }))) ∧
    (let h := spHead p k.val q.val
     let hd := (readLine s (storeAddr sid.toNat (spBase p k.val q.val + h))).data.toNat
     let n := fld hd 26 24 + 2
     let tl := rqBase p k.val q.val + rqTail p k.val q.val
     maySpill p k.val q.val = true → n ≤ spUsed p k.val q.val → spOff s sid.toNat = false → p.loaded k.val = true → fld hd 31 29 ≠ 2 →
      (spUsed p k.val q.val ≠ n → fld (readLine s (storeAddr sid.toNat (spBase p k.val q.val + (h + n) % spSize p k.val q.val))).data.toNat 31 29 ≠ 2) →
      p.holes = [] → placeIn (rqSize p k.val q.val) (rqUsed p k.val q.val + SMap.get (fun _ => 0) p.freed (k.val * 8 + q.val))
        (rqTail p k.val q.val) n = .fits → rqSize p k.val q.val ≤ 1024 →
      (∀ j, j < n → (readLine s (storeAddr sid.toNat (spBase p k.val q.val + h + j))).bad = false) →
      completes (.spillCopy sid k q []) s (fun t =>
        (∀ j, j < n → readLine t (storeAddr sid.toNat (tl + j)) = readLine s (storeAddr sid.toNat (spBase p k.val q.val + h + j))) ∧
        rqUsed (t.spin sid.toNat) k.val q.val = rqUsed p k.val q.val + n ∧ spUsed (t.spin sid.toNat) k.val q.val = spUsed p k.val q.val - n ∧
        spHead (t.spin sid.toNat) k.val q.val = (h + n) % spSize p k.val q.val ∧
        (spUsed p k.val q.val = n → ((t.spin sid.toNat).skewOf (skewKey k.val q.val false)).spilling = false) ∧
        (∀ a, (∀ j, j < n → a < storeAddr sid.toNat (tl + j) ∨ storeAddr sid.toNat (tl + j) + 32 ≤ a) → readByte t a = readByte s a)))

/-- R226 to R229, R214, R222: corrected and refused codewords, replays and the fourth failed one that takes a link down, calibration requests
and slots, and what a router output grants: a virtual channel that has waited 28 cycles, else the ready one of highest priority. Which messages
have passed a link that goes down is given by the command, and the round-robin order of an output's inputs is the model's choice (assumption
logs 12, 16). -/
def Obligations.LinksReplayCalibrateAndAge : Prop :=
  ∀ (s : State) (f : Fin 64) (loc : Fin 32768) (detail : Fin 16),
    let id : LinkId := ⟨f.val, loc.val, detail.val⟩
    let x := s.link id.key
    let pg := pField f.val
    let others := fun (t : State) => ∀ k, k ≠ id.key → t.link k = s.link k
    let replayed := fun (t : State) => t.bget (pg + 0x18) 5 = true ∧ t.reg (pg + 0x198) = s.reg (pg + 0x198) + 1#32
    let downs := fun (t : State) => (t.links.filter (fun kl => decide ((LinkId.ofKey kl.1).field = f.val) && kl.2.down)).length
    (x.active = true → ∀ c, exec (.linkCodewordReceive f loc detail false c) s = .next s) ∧
    (x.down = false → x.active = false → x.fwd.nak = false →
      (let th := if s.fget (pg + 0x180) 7 0 = 0 then 256 else s.fget (pg + 0x180) 7 0
       let due := s.bget (pg + 0x180) 16 && !x.fwd.asked && decide (th ≤ x.fwd.corr + 1)
       completes (.linkCodewordReceive f loc detail false .corr) s (fun t =>
        t.link id.key = { x with fwd := { x.fwd with corr := x.fwd.corr + 1, asked := x.fwd.asked || due } } ∧ others t ∧
        t.bget (pg + 0x18) 30 = true ∧ t.reg (pg + 0x190) = s.reg (pg + 0x190) + 1#32 ∧
        (t.fmap f.val).calWait = (if due = true ∧ id.key ∉ (s.fmap f.val).calWait then (s.fmap f.val).calWait ++ [id.key]
          else (s.fmap f.val).calWait) ∧ t = { s with links := t.links, maps := t.maps, regs := t.regs })) ∧
      completes (.linkCodewordReceive f loc detail false .bad) s (fun t =>
        t.link id.key = { x with fwd := { x.fwd with nak := true } } ∧ others t ∧ t = { s with links := t.links })) ∧
    (x.down = false → x.bwd.nak = true →
      (∀ past part, completes (.linkReplay f loc detail true .clean past part) s (fun t =>
        t.link id.key = { x with bwd := { x.bwd with nak := false, fails := 0 } } ∧ others t ∧ replayed t ∧
        (s.bget (pg + 0x188) 31 = false → t.bget (pg + 0x188) 31 = true ∧ t.fget (pg + 0x188) 30 29 = 0) ∧
        t = { s with links := t.links, regs := t.regs })) ∧
      (∀ past part, x.bwd.fails < 3 → completes (.linkReplay f loc detail true .bad past part) s (fun t =>
        t.link id.key = { x with bwd := { x.bwd with fails := x.bwd.fails + 1 } } ∧ others t ∧ replayed t ∧
        t = { s with links := t.links, regs := t.regs })) ∧
      (∀ past part, completes (.linkReplay f loc detail true .corr past part) s (fun t =>
        (t.link id.key).bwd.nak = false ∧ (t.link id.key).bwd.fails = 0 ∧ (t.link id.key).bwd.corr = x.bwd.corr + 1 ∧
        (t.link id.key).fwd = x.fwd ∧ (t.link id.key).down = false ∧ others t ∧ replayed t ∧ t.bget (pg + 0x18) 30 = true ∧
        t.reg (pg + 0x190) = s.reg (pg + 0x190) + 1#32 ∧ t = { s with links := t.links, maps := t.maps, regs := t.regs })) ∧
      (∀ past part, x.bwd.fails = 3 → s.running = false → completes (.linkReplay f loc detail true .bad past part) s (fun t =>
        (t.link id.key).down = true ∧ others t ∧ replayed t ∧ t.bget (pg + 0x18) 4 = true ∧ t.fget (pg + 0x184) 7 0 = min 255 (downs t) ∧
        (s.mesh = [] → t = { s with links := t.links, regs := t.regs }) ∧
        (∀ m, s.mesh = [m] → m.waiting = false → part = none → crosses s m (routeEnds s m).1 (routeEnds s m).2 (linkCut s id) = true →
          t.mesh = (if 0 ∈ past then [m] else []) ∧
          (0 ∉ past → s.fget (pg + 0x2C) 30 0 + m.payload.length + 1 < 2 ^ 31 →
            t.fget (pg + 0x2C) 30 0 = s.fget (pg + 0x2C) 30 0 + m.payload.length + 1 ∧ t.bget (pg + 0x18) 29 = true))))) ∧
    completes (.calWindowExpiry f loc detail) s (fun t =>
      t.link id.key = { x with fwd := { x.fwd with corr := 0, asked := false }, bwd := { x.bwd with corr := 0, asked := false } } ∧
      others t ∧ t = { s with links := t.links }) ∧
    (∀ rest cycle, (s.fmap f.val).calWait = id.key :: rest → calRunning s f.val = false →
      (∀ c, (s.fmap f.val).lastSlot = some c → c + 4096 ≤ cycle) → x.fwd.nak = false → x.bwd.nak = false → x.down = false →
      completes (.calSlotStart f cycle) s (fun t =>
        t.link id.key = { x with active := true } ∧ others t ∧ t.bget (pg + 0x184) 16 = true ∧
        t.fmap f.val = { s.fmap f.val with calWait := rest, lastSlot := some cycle } ∧
        t.reg (pg + 0x1A0) = s.reg (pg + 0x1A0) + 1#32 ∧ t = { s with links := t.links, maps := t.maps, regs := t.regs })) ∧
    (∀ past part, s.links.find? (fun kl => kl.2.active && decide ((LinkId.ofKey kl.1).field = f.val)) = some (id.key, x) →
      completes (.calSlotEnd f true past part) s (fun t =>
        t.link id.key = { x with active := false } ∧ others t ∧ t.bget (pg + 0x184) 16 = calRunning t f.val ∧
        (s.links = [(id.key, x)] → t.bget (pg + 0x184) 16 = false) ∧
        sameRegs (fun o => o = pg + 0x184) s t ∧ t = { s with links := t.links, regs := t.regs }) ∧
      (x.down = false → s.running = false → completes (.calSlotEnd f false past part) s (fun t =>
        (t.link id.key).down = true ∧ others t ∧ t.bget (pg + 0x18) 4 = true ∧ t.fget (pg + 0x184) 7 0 = min 255 (downs t) ∧
        (s.mesh = [] → t = { s with links := t.links, regs := t.regs })))) ∧
    (∀ (sid : SID) (port : Fin 8) (ready : List (List (Nat × Bool))) (starved : Bool) (v : Nat) (i : Nat × Bool),
      let o := SMap.get (fun _ => {}) s.outputs (sid.toNat * 8 + port.val)
      let cand := fun (u : Nat) => vcInput o u (nth [] ready u)
      let ahead := [3, 2, 0, 1].takeWhile (· ≠ v)
      v ∈ [3, 2, 0, 1] → cand v = some i →
      ((28 ≤ nth 0 o.waits v ∧ ∀ u ∈ ahead, cand u = none ∨ nth 0 o.waits u < 28) ∨
        ((∀ u ∈ [3, 2, 0, 1], cand u = none ∨ nth 0 o.waits u < 28) ∧ ∀ u ∈ ahead, cand u = none)) →
      completes (.ageingGrant sid port ready starved) s (fun t =>
        let o' := SMap.get (fun _ => {}) t.outputs (sid.toNat * 8 + port.val)
        o'.granted = some v ∧ nth 0 o'.last v = i.1 ∧ nth none o'.held v = (if i.2 then none else some i.1) ∧ nth 0 o'.waits v = 0 ∧
        (∀ u, u < 4 → u ≠ v → nth 0 o'.waits u = if cand u = none then 0 else nth 0 o.waits u + 1) ∧
        (starved = true → s.validSid sid.toNat = true → port.val ≤ 3 → (t.spin sid.toNat).wreg 6 (0x508 + 0x10 * port.val)
          = (s.spin sid.toNat).wreg 6 (0x508 + 0x10 * port.val) + 1#32) ∧
        (starved = false → t = { s with outputs := t.outputs })))

/-- R236, R237, R240 to R242: an increment adds its amount to a counter-mode chime; arrivals fill a barrier chime's slots and complete its
round, or overrun it; the arrivals of one cycle are judged together; a whole line written into chime space increments its four chimes, and a read
of one returns their words. That a message is delivered in one step, and that the command says which arrivals share a cycle, is the model's
reading (assumption logs 12, 17). -/
def Obligations.ChimesCountAndSynchronise : Prop :=
  ∀ (s : State) (f : Fin 64),
    let b := pChime f.val 0
    (∀ (vc : Fin 4) (src : SID) pre m post, takeMsg (fun m => isInc f.val m && m.vc = vc.val && m.src = src) [] s.mesh
        = some (pre, m, post) → m.payload = [] →
      chPresent s f.val (incChime m) = true → chBarrier s f.val (incChime m) = false → completes (.chimeIncrement f vc src) s (fun t =>
        chValue t f.val (incChime m) = (chValue s f.val (incChime m) + fld m.arg.toNat 29 0) % 2 ^ 32 ∧
        (∀ g k, g < 64 → k < 512 → ¬ (g = f.val ∧ k = incChime m) → chValue t g k = chValue s g k) ∧
        (∀ g k, g < 64 → k < 512 → chCur t g k = chCur s g k ∧ chNext t g k = chNext s g k) ∧
        t.reg (b + 0x50) = (if fld m.arg.toNat 29 0 = 0 then s.reg (b + 0x50) else s.reg (b + 0x50) + 1#32) ∧
        t.mesh = pre ++ post ∧ sameMemory s t)) ∧
    (∀ (k : Fin 512) (vc : Fin 4) (m : Msg), s.mesh = [m] → isInc f.val m = true → m.payload = [] → incChime m = k.val → m.vc = vc.val →
      chPresent s f.val k.val = true → chBarrier s f.val k.val = true → fld m.arg.toNat 29 16 ≠ 0 →
      let kept := (keptArrivals s (f.val * 512 + k.val)).getD []
      let round := chValue s f.val k.val % 65536
      let tag := fld m.arg.toNat 15 0
      (∀ a ∈ kept, a.tag = round ∧ a.gate ≠ incGate s f.val m.src) →
      let cur := chCur s f.val k.val + (kept.map (·.count)).sum + fld m.arg.toNat 29 16
      let nxt := chNext s f.val k.val + fld m.arg.toNat 29 16
      (tag = round → cur ≤ chExpect s f.val k.val → chNext s f.val k.val ≤ chExpect s f.val k.val →
        completes (.barrierArrival f k [(m.src, vc)] true false) s (fun t => t.mesh = [] ∧ chValue t f.val k.val = chValue s f.val k.val ∧
          chCur t f.val k.val = cur ∧ chNext t f.val k.val = chNext s f.val k.val) ∧
        completes (.barrierArrival f k [(m.src, vc)] false false) s (fun t => t.mesh = [] ∧
          (cur < chExpect s f.val k.val → chValue t f.val k.val = chValue s f.val k.val ∧ chCur t f.val k.val = cur ∧
            chNext t f.val k.val = chNext s f.val k.val) ∧
          (cur = chExpect s f.val k.val → chValue t f.val k.val = (chValue s f.val k.val + 1) % 2 ^ 32 ∧
            chCur t f.val k.val = chNext s f.val k.val ∧ chNext t f.val k.val = 0))) ∧
      (tag = round → chExpect s f.val k.val < cur → s.running = false → completes (.barrierArrival f k [(m.src, vc)] false false) s (fun t =>
        t.mesh = [] ∧ t.bget (b + 0x18) 1 = true ∧ chValue t f.val k.val = chValue s f.val k.val ∧
        chCur t f.val k.val = chCur s f.val k.val ∧ chNext t f.val k.val = chNext s f.val k.val)) ∧
      completes (.barrierArrival f k [(m.src, vc)] false true) s (fun t => t.mesh = [] ∧
        keptArrivals t (f.val * 512 + k.val) = some (kept ++ [⟨fld m.arg.toNat 29 16, tag, m.src, incGate s f.val m.src⟩]) ∧
        chValue t f.val k.val = chValue s f.val k.val ∧ chCur t f.val k.val = chCur s f.val k.val ∧
        chNext t f.val k.val = chNext s f.val k.val) ∧
      (kept = [] → tag = (round + 1) % 65536 → nxt ≤ chExpect s f.val k.val → chCur s f.val k.val < chExpect s f.val k.val →
        completes (.barrierArrival f k [(m.src, vc)] false false) s (fun t => t.mesh = [] ∧ chValue t f.val k.val = chValue s f.val k.val ∧
          chCur t f.val k.val = chCur s f.val k.val ∧ chNext t f.val k.val = nxt)) ∧
      (tag ≠ round → tag ≠ (round + 1) % 65536 → s.running = false →
        completes (.barrierArrival f k [(m.src, vc)] false false) s (fun t =>
        t.mesh = [] ∧ t.bget (b + 0x18) 1 = true ∧ chValue t f.val k.val = chValue s f.val k.val ∧
        chCur t f.val k.val = chCur s f.val k.val ∧ chNext t f.val k.val = chNext s f.val k.val))) ∧
    (∀ (k : Fin 512) (vc wc : Fin 4) (m n : Msg), s.mesh = [m, n] → keptArrivals s (f.val * 512 + k.val) = none →
      (∀ x ∈ [m, n], isInc f.val x = true ∧ x.payload = [] ∧ incChime x = k.val ∧ fld x.arg.toNat 29 16 ≠ 0 ∧
        fld x.arg.toNat 15 0 = chValue s f.val k.val % 65536) → m.vc = vc.val → n.vc = wc.val →
      incGate s f.val m.src ≠ incGate s f.val n.src → chPresent s f.val k.val = true → chBarrier s f.val k.val = true →
      chNext s f.val k.val ≤ chExpect s f.val k.val →
      let cur := chCur s f.val k.val + fld m.arg.toNat 29 16 + fld n.arg.toNat 29 16
      completes (.barrierArrival f k [(m.src, vc), (n.src, wc)] false false) s (fun t => t.mesh = [] ∧
        (cur < chExpect s f.val k.val → chValue t f.val k.val = chValue s f.val k.val ∧ chCur t f.val k.val = cur ∧
          chNext t f.val k.val = chNext s f.val k.val) ∧
        (cur = chExpect s f.val k.val → chValue t f.val k.val = (chValue s f.val k.val + 1) % 2 ^ 32 ∧
          chCur t f.val k.val = chNext s f.val k.val ∧ chNext t f.val k.val = 0) ∧
        (chExpect s f.val k.val < cur → s.running = false → t.bget (b + 0x18) 1 = true ∧ chValue t f.val k.val = chValue s f.val k.val ∧
          chCur t f.val k.val = chCur s f.val k.val ∧ chNext t f.val k.val = chNext s f.val k.val))) ∧
    (∀ k : Fin 512, chPresent s f.val k.val = true → chBarrier s f.val k.val = true → chExpect s f.val k.val ≠ 0 →
      chCur s f.val k.val = chExpect s f.val k.val → completes (.barrierRoundComplete f k) s (fun t =>
        chValue t f.val k.val = (chValue s f.val k.val + 1) % 2 ^ 32 ∧ chCur t f.val k.val = chNext s f.val k.val ∧ chNext t f.val k.val = 0 ∧
        t.reg (b + 0x58) = s.reg (b + 0x58) + 1#32 ∧ onlyRegs s t)) ∧
    (∀ (vc : Fin 4) (src : SID) pre m post (l : Line), takeMsg (fun m => m.dst = .chimes f.val && m.kind = 2 && !m.req && !m.isAck && m.vc = vc.val
      && m.src = src) [] s.mesh = some (pre, m, post) → m.payload = [l] → l.bad = false → m.src.toNat % 2048 ≠ 0x7FF → lineChime m + 3 < 512 →
      (∀ j, j < 4 → chPresent s f.val (lineChime m + j) = true ∧ chBarrier s f.val (lineChime m + j) = false) →
      completes (.chimeSpaceWrite f vc src []) s (fun t =>
        (∀ j, j < 4 → chValue t f.val (lineChime m + j)
          = (chValue s f.val (lineChime m + j) + fld l.data.toNat (64 * j + 29) (64 * j)) % 2 ^ 32) ∧
        (∀ k, k < 512 → (k < lineChime m ∨ lineChime m + 3 < k) → chValue t f.val k = chValue s f.val k) ∧ t.mesh = pre ++ post ∧
        sameMemory s t)) ∧
    (∀ (vc : Fin 4) (src : SID) pre m post d, takeMsg (fun m => m.dst = .chimes f.val && m.req && m.vc = vc.val && m.src = src) [] s.mesh
        = some (pre, m, post) →
      respDest m.dest = some d → routesWhole s → lineChime m + 4 * m.len + 3 < 512 → completes (.chimeSpaceRead f vc src) s (fun t =>
        (∃ r : Msg, t.mesh = pre ++ post ++ [r] ∧ r.dst = d ∧ r.vc = 2 ∧ r.kind = m.kind ∧ r.tag = m.tag ∧ r.dest = m.dest ∧
          r.payload.length = m.len + 1 ∧ ∀ i j, i ≤ m.len → j < 4 → (nth ({} : Line) r.payload i).bad = false ∧
            fld (nth ({} : Line) r.payload i).data.toNat (64 * j + 63) (64 * j) = chimeWord s f.val (lineChime m + 4 * i + j) % 2 ^ 64) ∧
        (∀ k, k < 512 → chValue t f.val k = chValue s f.val k) ∧ sameMemory s t))

/-- R245 to R248: writes to a chime's VALUE and CFG and to the registers of a watch, refused with CHIME_REFUSED while a running run claims the
chime; and what a watch does when it fires. -/
def Obligations.ChimeRegistersAndWatches : Prop :=
  ∀ (s : State) (port : Fin 4) (c : Fin 32768) (d : Word) (pg : Page) (fs : List RField),
    let f := c.val / 512
    let k := c.val % 512
    chPresent s f k = true →
    (Serves s (chBase f k) pg fs →
      (chimeLocked s f k = true → completes (.chValueWrite port false c d) s (fun t =>
        t.bget (pChime f 0 + 0x18) 2 = true ∧ onlyRegsAt (fun o => o = pChime f 0 + 0x18 ∨ o = pChime f 0 + 0x1C) s t)) ∧
      (chimeLocked s f k = false → completes (.chValueWrite port false c d) s (fun t =>
        chValue t f k = d.toNat ∧ chCur t f k = 0 ∧ chNext t f k = 0 ∧
        onlyRegsAt (fun o => o = chBase f k ∨ o = chBase f k + 8) s t))) ∧
    (Serves s (chBase f k + 4) pg fs →
      (chimeLocked s f k = true → completes (.chCfgWrite port false c d) s (fun t =>
        t.bget (pChime f 0 + 0x18) 2 = true ∧ onlyRegsAt (fun o => o = pChime f 0 + 0x18 ∨ o = pChime f 0 + 0x1C) s t)) ∧
      (chimeLocked s f k = false → completes (.chCfgWrite port false c d) s (fun t =>
        chBarrier t f k = getB d 31 ∧ chExpect t f k = getF d 15 0 ∧ chRun t f k = chRun s f k ∧ chCur t f k = 0 ∧ chNext t f k = 0 ∧
        onlyRegsAt (fun o => o = chBase f k + 4 ∨ o = chBase f k + 8) s t))) ∧
    (∀ (g w : Fin 64) (j : Nat),
      let o := wBase g.val w.val + j
      let x := s.fget (wBase g.val w.val) 8 0
      j < 0x20 → j % 4 = 0 → Serves s o pg fs → chPresent s g.val x = true →
      (chimeLocked s g.val x = true → completes (.bar0RegisterWrite port false o [(15, d)] false) s (fun t =>
        t.bget (pChime g.val 0 + 0x18) 2 = true ∧ onlyRegsAt (fun a => a = pChime g.val 0 + 0x18 ∨ a = pChime g.val 0 + 0x1C) s t)) ∧
      (chimeLocked s g.val x = false → completes (.bar0RegisterWrite port false o [(15, d)] false) s (fun t =>
        t.reg o = written ⟨port, false⟩ fs (s.reg o) d ∧ onlyRegsAt (fun a => a = o) s t))) ∧
    (∀ (g w : Fin 64),
      let b := wBase g.val w.val
      let r := s.ringer g.val
      s.fget b 31 30 ≠ 0 → s.bget b 29 = true → (∀ h ∈ r.held, h.1 ≠ w.val) → chPresent s g.val (s.fget b 8 0) = true →
      reached (chValue s g.val (s.fget b 8 0)) (s.reg (b + 4)).toNat = true → completes (.watchFire g w) s (fun t =>
        (2 ≤ s.fget b 31 30 → t.bget (pChime g.val 0 + 0x48 + 4 * (w.val / 32)) (w.val % 32) = true ∧ t.bget (pChime g.val 0 + 0x18) 0 = true) ∧
        t.ringer g.val = (if s.fget b 31 30 % 2 = 1
          then { r with held := r.held ++ [(w.val, callOf (s.reg (b + 0xC)) (s.reg (b + 0x10)) (s.reg (b + 0x14)))] } else r) ∧
        (∀ h, h ≠ g.val → t.ringer h = s.ringer h) ∧
        t.reg (b + 4) = s.reg (b + 4) + s.reg (b + 8) ∧ (t.bget b 29 = false ↔ s.reg (b + 8) = 0#32) ∧
        sameRegs (fun o => o = b ∨ o = b + 4 ∨ o = pChime g.val 0 + 0x48 ∨ o = pChime g.val 0 + 0x4C ∨ o = pChime g.val 0 + 0x18 ∨
          o = pChime g.val 0 + 0x1C) s t ∧ t = { s with regs := t.regs, ringers := t.ringers }))

/-- R268, R269, R271, R274, R277, R278, R285: a bobbin answers a read with the lines that it names, stores the lines of a write with their
marks and acknowledges it, answers reads with marked lines while its memory domain is off, and scrubs position after position. A refresh changes
nothing. That an access is served in one step, and that the scrub passes over the channels that are down, is the model's reading (assumption
logs 12, 18). -/
def Obligations.BobbinsReadWriteAndScrub : Prop :=
  ∀ (s : State) (f : Fin 64),
    let pg := pBob f.val 0
    let line := fun (u : State) (o : Nat) => readLine u (bobAddr f.val o)
    (∀ (src : SID) (cycle : Nat) pre m post d, takeMsg (fun m => m.dst = .bobbin f.val && m.req && m.src = src) [] s.mesh = some (pre, m, post) →
      respDest m.dest = some d → routesWhole s →
      ((s.pow f.val).memOff = false → bobbinOn s f.val = true →
        (∀ g ∈ granules (bobOff m) (m.len + 1), inSlot s f.val (channelOf (g * 64)) = false) →
        outOfTurn s f.val cycle ((gatewayFor s f.val m.src).getD 64) (granules (bobOff m) (m.len + 1)) false = false →
        (∀ i, i ≤ m.len → lineGone s f.val (bobOff m + 32 * i) = false ∧ (line s (bobOff m + 32 * i)).bad = false) →
        completes (.bobbinRead f src cycle [] []) s (fun t =>
          (∃ r : Msg, t.mesh = pre ++ post ++ [r] ∧ r.dst = d ∧ r.vc = 2 ∧ r.kind = m.kind ∧ r.len = m.len ∧ r.dest = m.dest ∧
            r.src = bankSrc f.val ∧ r.tag = m.tag ∧ r.payload = tab (m.len + 1) (fun i => line s (bobOff m + 32 * i))) ∧
          sameMemory s t)) ∧
      ((s.pow f.val).memOff = true → completes (.bobbinRead f src cycle [] []) s (fun t =>
          t.bget (pg + 0x18) 29 = true ∧ sameMemory s t ∧
          ∃ r : Msg, t.mesh = pre ++ post ++ [r] ∧ r.dst = d ∧ r.tag = m.tag ∧ r.payload.length = m.len + 1 ∧ ∀ l ∈ r.payload, l.bad = true))) ∧
    (∀ (src : SID) (cycle : Nat) pre m post, takeMsg (fun m => m.dst = .bobbin f.val && m.kind = 2 && !m.req && !m.isAck && m.src = src) []
      s.mesh = some (pre, m, post) → (s.pow f.val).memOff = false → bobbinOn s f.val = true →
      (∀ g ∈ granules (bobOff m) m.payload.length, inSlot s f.val (channelOf (g * 64)) = false) →
      outOfTurn s f.val cycle ((gatewayFor s f.val m.src).getD 64) (granules (bobOff m) m.payload.length) true = false →
      (∀ i, i < m.payload.length → lineGone s f.val (bobOff m + 32 * i) = false) → completes (.bobbinWrite f src cycle) s (fun t =>
        (∀ i, i < m.payload.length → line t (bobOff m + 32 * i) = nth {} m.payload i) ∧
        (∀ a, (a < bobAddr f.val (bobOff m) ∨ bobAddr f.val (bobOff m) + 32 * m.payload.length ≤ a) → readByte t a = readByte s a) ∧
        (src.toNat % 2048 ≠ 0x7FF ∨ m.cut = true → t.mesh = pre ++ post) ∧
        (∀ d, src.toNat % 2048 = 0x7FF → m.cut = false → codeDest (src.toNat / 2048) = some d → routesWhole s →
          ∃ r : Msg, t.mesh = pre ++ post ++ [r] ∧ r.dst = d ∧ r.vc = 3 ∧ r.isAck = true ∧ r.kind = 2 ∧ r.req = false ∧ r.dest = src ∧
            r.src = bankSrc f.val ∧ r.len = m.len ∧ r.ea = m.ea ∧ r.tag = m.tag ∧ r.seq = m.seq ∧ r.arg = 0#32 ∧ r.payload = []))) ∧
    (bobbinOn s f.val = true → inSlot s f.val (channelOf ((s.bobbin f.val).wback.headD 0 * 32)) = false → completes (.bobbinWriteBack f) s (fun t =>
      t.bobbin f.val = { s.bobbin f.val with wback := (s.bobbin f.val).wback.drop 1 } ∧ (∀ g, g ≠ f.val → t.bobbin g = s.bobbin g) ∧
      t = { s with bobbins := t.bobbins })) ∧
    (∀ bank, completes (.refresh f bank) s (fun t => t = s)) ∧
    (let pos := s.fget (pg + 0x58) 24 0
     let same := fun (t : State) => (t.bobbin f.val).wback = (s.bobbin f.val).wback ∧ (t.bobbin f.val).merges = (s.bobbin f.val).merges ∧
       (∀ g, g ≠ f.val → t.bobbin g = s.bobbin g) ∧ t = { s with regs := t.regs, bobbins := t.bobbins }
     ∀ cycle, s.bget (pg + 0x40) 16 = true → bobbinOn s f.val = true → (s.pow f.val).memOff = false →
      (∀ c, c < 32 → inSlot s f.val c = false) → pos / 2 ^ 21 ∈ slotsOn s f.val →
      (∀ c j, c < 32 → j < 2 → (line s (granuleAt (pos / 2 ^ 21) c (pos % 2 ^ 21) + 32 * j)).bad = false) →
      ((pos + 1) / 2 ^ 21 ∈ slotsOn s f.val → completes (.scrubAccess f cycle []) s (fun t =>
        t.fget (pg + 0x58) 24 0 = pos + 1 ∧ sameRegs (fun o => o = pg + 0x58) s t ∧ same t)) ∧
      ((∀ x ∈ slotsOn s f.val, x < (pos + 1) / 2 ^ 21) → completes (.scrubAccess f cycle []) s (fun t =>
        t.fget (pg + 0x58) 24 0 = (slotsOn s f.val).headD 0 * 2 ^ 21 ∧ t.reg (pg + 0x60) = s.reg (pg + 0x60) + 1#32 ∧ same t)) ∧
      (chanDown s f.val 0 = false → completes (.scrubAccess f cycle [.bad]) s (fun t => t.bget (pg + 0x18) 0 = true ∧
        t.bget (pg + 0x18) 29 = true)))

/-- R279 to R284, R440: retraining slots and the fourth failed one that takes a channel down, the changeover of a slot to a spare die, and the loss
of a slot without a spare; a unit mapped out adds its soft-map entry. The CAUSE of a channel's entry, that of a lost slot's being drawn, and which
writes the copy supersedes, are the model's readings (assumption log 18). -/
def Obligations.BobbinsRetrainAndChangeOver : Prop :=
  ∀ (s : State) (f : Fin 64) (c : Fin 32),
    let pg := pBob f.val 0
    let r := pBob f.val 1 + 0x40 + 4 * c.val
    let b := s.bobbin f.val
    let others := fun (t : State) => ∀ g, g ≠ f.val → t.bobbin g = s.bobbin g
    (bobbinOn s f.val = true → (∀ k, k < 32 → inSlot s f.val k = false) → completes (.retrainSlot f c) s (fun t =>
      inSlot t f.val c.val = true ∧ (∀ k, k < 32 → chanDown t f.val k = chanDown s f.val k) ∧
      t.reg (pBob f.val 1 + 0x100) = s.reg (pBob f.val 1 + 0x100) + 1#32 ∧ onlyRegs s t)) ∧
    (inSlot s f.val c.val = true → chanDown s f.val c.val = false →
      completes (.retrainSlotEnd f c true) s (fun t =>
        inSlot t f.val c.val = false ∧ t.fget r 23 16 = 0 ∧ onlyRegsAt (fun o => o = r) s t) ∧
      (s.fget r 23 16 < 3 → completes (.retrainSlotEnd f c false) s (fun t =>
        inSlot t f.val c.val = false ∧ t.fget r 23 16 = s.fget r 23 16 + 1 ∧ t.bget (pg + 0x18) 4 = true ∧
        chanDown t f.val c.val = false ∧ onlyRegsAt (fun o => o = r ∨ o = pg + 0x18 ∨ o = pg + 0x1C) s t)) ∧
      (s.fget r 23 16 = 3 → bobbinOn s f.val = true → s.fget (pg + 0x44) 13 8 < 63 → completes (.retrainSlotEnd f c false) s (fun t =>
        chanDown t f.val c.val = true ∧ t.bget (pg + 0x18) 4 = true ∧ t.bget (pg + 0x18) 5 = true ∧
        t.fget (pg + 0x44) 13 8 = s.fget (pg + 0x44) 13 8 + 1 ∧ t.readyState pg = 2 ∧ t.readyReason pg = 8 ∧
        (s.belfry.softMap.length < 4096 → t.belfry.softMap = s.belfry.softMap ++ [(defect 6 f.val c.val 0, BitVec.ofNat 32 (5 * 2 ^ 28))]) ∧
        t = { s with regs := t.regs, belfry := t.belfry }))) ∧
    (∀ (port : Fin 4) (target : Fin 16) (page : Page) (fs : List RField), Serves s (pg + 0x48) page fs →
      (s.fget (pg + 0x44) 23 20 = 0 ∨ s.fget (pg + 0x44) 19 16 ≤ target.val ∨ b.coCopying = true →
        completes (.coReq port false f target) s (fun t => t.bget (pg + 0x48) 31 = false ∧ t.bget (pg + 0x18) 3 = true ∧
          onlyRegsAt (fun o => o = pg + 0x48 ∨ o = pg + 0x18 ∨ o = pg + 0x1C) s t)) ∧
      (s.fget (pg + 0x44) 23 20 ≠ 0 → target.val < s.fget (pg + 0x44) 19 16 → b.coCopying = false →
        completes (.coReq port false f target) s (fun t => t.bget (pg + 0x48) 31 = true ∧ t.fget (pg + 0x48) 3 0 = target.val ∧
          t.bobbin f.val = { b with coWaiting := true } ∧ others t ∧
          sameRegs (fun o => o = pg + 0x48) s t ∧ t = { s with regs := t.regs, bobbins := t.bobbins }))) ∧
    (b.coWaiting = true → bobbinOn s f.val = true → ¬ (s.running = true ∧ usesBobbin s f.val = true) →
      completes (.changeoverStart f) s (fun t => t.bget (pg + 0x44) 15 = true ∧ t.fget (pg + 0x44) 3 0 = s.fget (pg + 0x48) 3 0 ∧
        t.bobbin f.val = { b with coWaiting := false, coCopying := true, written := [] } ∧ others t ∧
        sameRegs (fun o => o = pg + 0x44) s t ∧ t = { s with regs := t.regs, bobbins := t.bobbins })) ∧
    (∀ new, b.coCopying = true → (∀ k, k < 32 → inSlot s f.val k = false) → spareDie s f.val (s.fget (pg + 0x44) 3 0) = some new → 1 ≤ s.fget (pg + 0x44) 23 20 → s.belfry.softMap.length + 1 < 4096 →
      let sl := s.fget (pg + 0x44) 3 0
      completes (.coDone f []) s (fun t =>
        dieOf (t.bobbin f.val) sl = new ∧ (∀ x, x ≠ sl → dieOf (t.bobbin f.val) x = dieOf b x) ∧ (t.bobbin f.val).coCopying = false ∧
        t.fget (pg + 0x44) 23 20 = s.fget (pg + 0x44) 23 20 - 1 ∧ t.bget (pg + 0x44) 15 = false ∧ t.bget (pg + 0x48) 31 = false ∧
        t.bget (pg + 0x18) 2 = true ∧ (t.belfry.softMap.map (·.1)) = s.belfry.softMap.map (·.1) ++
          [defect 5 f.val (dieOf b sl) 0, defect 0xA f.val sl new] ∧
        others t ∧ t = { s with regs := t.regs, bobbins := t.bobbins, belfry := t.belfry })) ∧
    (∀ sl : Fin 16, s.fget (pg + 0x44) 23 20 = 0 → sl.val ∈ slotsOn s f.val → bobbinOn s f.val = true → 1 ≤ s.fget (pg + 0x44) 19 16 →
      completes (.slotLost f sl) s (fun t => slotLost t f.val sl.val = true ∧ t.bget (pg + 0x18) 6 = true ∧
        t.fget (pg + 0x44) 19 16 = s.fget (pg + 0x44) 19 16 - 1 ∧ t.readyState pg = 2 ∧ t.readyReason pg = 8 ∧ others t ∧
        (s.belfry.softMap.length < 4096 → t.belfry.softMap.map (·.1) = s.belfry.softMap.map (·.1) ++ [defect 5 f.val (dieOf b sl.val) 0]) ∧
        t = { s with regs := t.regs, bobbins := t.bobbins, belfry := t.belfry, freeCtr := t.freeCtr }))

/-- R299, R305 to R308, R310, R315: starting, queueing, refusing, admitting, triggering and stopping a reel channel, and writing its walk
registers. A START written in the cycle in which the trigger fires is the trigger's start. That a host reel's outstanding reads of host memory are
noted at a stop is the model's reading (assumption logs 19, 30). -/
def Obligations.ReelChannelsStartAndStop : Prop :=
  ∀ (s : State) (r : Fin 68) (c : Fin 32), c.val < reelChans r.val →
    let b := chanBase r.val c.val
    let pg := chanPage r.val c.val
    let ev := fun (t : State) (i : Nat) => t.bget (pg + 0x18) (chanEvt r.val c.val i) = true
    let st := chState s r.val c.val
    let x := s.chan r.val c.val
    let slot := inFlight s r.val < reelSlots r.val ∧ ∀ k, k < reelChans r.val → chState s r.val k ≠ 1
    let locked := chClaimed s r.val c.val = true ∧ s.running = true
    let admitted := fun (t : State) => chState t r.val c.val = 2 ∧ (t.chan r.val c.val).gen = (x.gen + 1) % 1024 ∧
      (t.chan r.val c.val).bursts = [] ∧ (t.chan r.val c.val).acks = 0
    let others := fun (t : State) => (∀ q k, k < 32 → ¬ (q = r.val ∧ k = c.val) → t.chan q k = s.chan q k) ∧
      t = { s with regs := t.regs, chans := t.chans, reels := t.reels }
    (∀ (port : Fin 4) (d : Word) (page : Page) (fs : List RField), Serves s (b + 0x14) page fs → getB d 1 = false →
      (locked ∨ st = 1 ∨ st = 2 ∨ st = 3 → completes (.chStart port false r c d) s (fun t =>
        ev t 2 ∧ onlyRegsAt (fun o => o = pg + 0x18 ∨ o = pg + 0x1C) s t)) ∧
      (¬ locked → trigDue s r.val c.val = true → s.bget (b + 0x18) 19 = false → chQmode s r.val c.val = false → s.reg (b + 0x38) ≠ 0#32 → slot →
        completes (.chStart port false r c d) s (fun t => admitted t ∧ t.reg (b + 0x10) = s.reg (b + 0x38) ∧
          t.reg (b + 0x30) = s.reg (b + 0x30) + s.reg (b + 0x34) ∧ others t)) ∧
      (¬ locked → trigDue s r.val c.val = false → (st = 0 ∨ st = 4) → s.bget (b + 0x18) 19 = false → chQmode s r.val c.val = false →
        chCount s r.val c.val ≠ 0 → slot →
        completes (.chStart port false r c d) s (fun t => admitted t ∧ (t.chan r.val c.val).total = chCount s r.val c.val ∧
          chPrio t r.val c.val = getF d 9 8 ∧ t.reg (b + 0x98) = s.reg (b + 0x98) + 1#32 ∧ others t)) ∧
      (¬ locked → trigDue s r.val c.val = false → (st = 0 ∨ st = 4) → s.bget (b + 0x18) 19 = false → chQmode s r.val c.val = false →
        chCount s r.val c.val ≠ 0 → ¬ slot →
        completes (.chStart port false r c d) s (fun t => chState t r.val c.val = 1 ∧
          (t.chan r.val c.val).order = (s.reel r.val).starts ∧ (t.reel r.val).starts = (s.reel r.val).starts + 1 ∧ others t))) ∧
    (∀ (port : Fin 4) (d : Word) (page : Page) (fs : List RField), Serves s (b + 0x14) page fs → getB d 0 = false → ¬ locked →
      (st = 2 ∨ st = 3 → completes (.chDisable port false r c d) s (fun t => chState t r.val c.val = 4 ∧ ev t 1 ∧
        t.bget (b + 0x18) 19 = true ∧ (t.chan r.val c.val).idx = [0, 0, 0, 0, 0] ∧ (t.chan r.val c.val).bursts = [] ∧
        (∀ k, k < 5 → t.fget (b + 0x40 + 0x10 * k) 31 16 = 0) ∧ (t.chan r.val c.val).gen = (x.gen + 1) % 1024 ∧
        (∀ q k, k < 32 → ¬ (q = r.val ∧ k = c.val) → t.chan q k = s.chan q k) ∧ (r.val < 64 → t.hosts = s.hosts) ∧
        t = { s with regs := t.regs, chans := t.chans, freeCtr := t.freeCtr, hosts := t.hosts })) ∧
      (st = 1 → completes (.chDisable port false r c d) s (fun t => chState t r.val c.val = 4 ∧ ev t 1 ∧
        chCount t r.val c.val = chCount s r.val c.val ∧ (t.chan r.val c.val).gen = (x.gen + 1) % 1024 ∧ others t))) ∧
    (∀ (port : Fin 4) (d : Word) (page : Page) (fs : List RField), Serves s b page fs →
      (locked ∨ st = 1 ∨ st = 2 ∨ st = 3 → completes (.chDescriptorWrite port false r c 0 d) s (fun t =>
        ev t 2 ∧ onlyRegsAt (fun o => o = pg + 0x18 ∨ o = pg + 0x1C) s t)) ∧
      (¬ locked → trigDue s r.val c.val = false → (st = 0 ∨ st = 4) → s.bget (b + 0x18) 19 = false → completes (.chDescriptorWrite port false r c 0 d) s (fun t =>
        t.fget b 31 5 = getF d 31 5 ∧ (t.chan r.val c.val).idx = [0, 0, 0, 0, 0] ∧
        (t.chan r.val c.val).os.toNat = getF d 31 5 * 32 + 2 ^ 32 * s.fget (b + 4) 15 0 ∧
        (t.chan r.val c.val).od.toNat = chDst s r.val c.val ∧ (∀ k, k < 5 → t.fget (b + 0x40 + 0x10 * k) 31 16 = 0) ∧ others t))) ∧
    (reelOn s r.val = true → chCtrl s r.val c.val 13 = true → (st = 0 ∨ st = 4) → c.val < chansPresent s r.val →
      reached (trigValue s r.val c.val) (s.reg (b + 0x30)).toNat = true → s.runState ≠ 5 → s.bget (b + 0x18) 19 = false →
      chQmode s r.val c.val = false → s.reg (b + 0x38) ≠ 0#32 → slot → completes (.triggerFire r c) s (fun t =>
        admitted t ∧ t.reg (b + 0x10) = s.reg (b + 0x38) ∧ t.reg (b + 0x30) = s.reg (b + 0x30) + s.reg (b + 0x34) ∧
        (chCtrl t r.val c.val 13 = false ↔ s.reg (b + 0x34) = 0#32) ∧ others t)) ∧
    (reelOn s r.val = true → inFlight s r.val < reelSlots r.val → st = 1 → (∀ k, k < reelChans r.val → k ≠ c.val → chState s r.val k ≠ 1) →
      completes (.channelAdmit r) s (fun t => admitted t ∧ others t))

/-- R301, R302, R304, R309, R311: a reel channel reads, gathers lines beat by beat, injects a complete burst as one write, counts down its
acknowledgements and completes. That a message is sent or taken in one step, and that the round begins after channel 0, is the model's choice
(assumption logs 12, 19). -/
def Obligations.ReelsMoveLines : Prop :=
  ∀ (s : State) (r : Fin 68) (c : Fin 32), c.val < reelChans r.val → reelOn s r.val = true → routesWhole s →
    let b := chanBase r.val c.val
    let pg := chanPage r.val c.val
    let x := s.chan r.val c.val
    let others := fun (t : State) => ∀ q k, k < 32 → ¬ (q = r.val ∧ k = c.val) → t.chan q k = s.chan q k
    (∀ s1 q f o, nextPort s r.val = some c.val → nextRead s r.val c.val = some (s1, q) → 1 ≤ q.n → q.n ≤ chCount s r.val c.val →
      decodeEA s q.ea.toNat = .bobbin f o → o + 32 * q.n ≤ s.capacity → outFive s (pBob f 0) = false →
      completes (.reelReadRequest r []) s (fun t =>
        (∃ m : Msg, t.mesh = s.mesh ++ [m] ∧ m.dst = .bobbin f ∧ m.vc = 1 ∧ m.req = true ∧ m.len = q.n - 1 ∧ m.ea = q.ea ∧
          m.src = reelSrc r.val ∧ m.seq = x.seq ∧ m.tag = BitVec.ofNat 16 (chanId s r.val c.val)) ∧ (t.chan r.val c.val).seq = (x.seq + 1) % 256 ∧
        chCount t r.val c.val = chCount s r.val c.val - q.n ∧ chState t r.val c.val = 2 ∧ others t ∧ sameMemory s t)) ∧
    (∀ m q l ls, s.mesh = [m] → responseFor s r.val c.val m = some q → m.payload = l :: ls → l.bad = false →
      completes (.reelBeat r .clean) s (fun t =>
        t.chan r.val c.val = modRead x q.seq (fun q => { q with taken := q.taken ++ [l] }) ∧ others t ∧
        t.mesh = (if ls = [] then [] else [{ m with payload := ls }]) ∧ (t.reel r.val).lastBeat = c.val ∧ onlyCounted s t (2 ^ 21) ∧
        sameMemory s t)) ∧
    (∀ bu rest f o, nextPort s r.val = some c.val → bufferFull s r.val c.val = true → x.bursts = bu :: rest → chQmode s r.val c.val = false →
      decodeEA s bu.dst.toNat = .bobbin f o → 1 ≤ bu.n → o + 32 * bu.n ≤ s.capacity → outFive s (pBob f 0) = false → x.flush = none →
      chCtrl s r.val c.val 15 = false → completes (.reelWriteInject r []) s (fun t =>
        (∃ m : Msg, t.mesh = s.mesh ++ [m] ∧ m.dst = .bobbin f ∧ m.vc = 0 ∧ m.kind = 2 ∧ m.req = false ∧ m.len = bu.n - 1 ∧ m.ea = bu.dst ∧
          m.src = reelSrc r.val ∧ m.seq = x.seq ∧ m.tag = BitVec.ofNat 16 (chanId s r.val c.val) ∧ m.payload = (bu.reads.map (fun q => q.taken)).flatten) ∧
        (t.chan r.val c.val).acks = x.acks + 1 ∧ (t.chan r.val c.val).bursts = rest ∧ (t.chan r.val c.val).seq = (x.seq + 1) % 256 ∧
        chState t r.val c.val = (if rest = [] ∧ chCount s r.val c.val = 0 then 3 else 2) ∧ others t ∧ sameMemory s t)) ∧
    (∀ src pre m post, takeMsg (fun m => m.dst = .reel r.val && m.isAck && m.src = src) [] s.mesh = some (pre, m, post) →
      src.toNat % 2048 = 0x7FF → src.toNat / 2048 / 64 = 1 → m.tag.toNat = chanId s r.val c.val →
      (chState s r.val c.val = 2 ∨ chState s r.val c.val = 3) → completes (.reelAckReceive r src) s (fun t =>
        t.mesh = pre ++ post ∧ t.chan r.val c.val = { x with acks := x.acks - 1 } ∧ others t ∧
        (getB m.arg 0 = true → t.bget (pg + 0x18) (chanEvt r.val c.val 4) = true) ∧ sameMemory s t)) ∧
    (chState s r.val c.val = 3 → x.acks = 0 → x.flush = none →
      (chCtrl s r.val c.val 12 = false → x.total < 2 ^ 32 → completes (.xferDone r c) s (fun t =>
        chState t r.val c.val = 0 ∧ t.bget (pg + 0x18) (chanEvt r.val c.val 0) = true ∧
        t.reg (b + 0x90) = s.reg (b + 0x90) + BitVec.ofNat 32 x.total ∧ onlyRegs s t)) ∧
      (let ch := s.fget (b + 0x24) 14 0
       chCtrl s r.val c.val 12 = true → outFive s (pChime (ch / 512) 0) = false → completes (.xferDone r c) s (fun t =>
        chState t r.val c.val = 0 ∧ (∃ m : Msg, t.mesh = s.mesh ++ [m] ∧ m.dst = .chimes (ch / 512) ∧ m.vc = 3 ∧ m.kind = 3 ∧
          incChime m = ch % 512 ∧ fld m.arg.toNat 29 0 = s.fget (b + 0x28) 29 0) ∧ t = { s with regs := t.regs, mesh := t.mesh })))

/-- R317, R319, R390, R393, R470, R472, R478: NOP, QUERY, SET_POLICY, PROBE and DIGEST post their completion entries, with the results that the
rules give, and what they are refused for. That a command acts on its descriptor's lines in one step, and which vectors fail, given by the command, is the model's choice (assumption logs 12, 20, 35). -/
def Obligations.RunCommandsAnswer : Prop :=
  ∀ (s : State) (c : Cmd) (rest : List Cmd), s.run.taken = c :: rest →
    let u := { s with run := { s.run with taken := rest } }
    let hosts := fun (t : State) => t = { u with hosts := t.hosts }
    (c.op = 0 → completes .cmdNop s (fun t => posted u t c 0 0 0#128 ∧ hosts t)) ∧
    (c.op = 0xB → completes .query s (fun t => ∃ r, posted u t c 0 0 r ∧ hosts t ∧
      (c.arg 71 64 = 0 → r = readReg u (pRun + 0x44) ++ readReg u (pRun + 0x54) ++ readReg u (pRun + 0x50) ++ readReg u (pRun + 0x40)) ∧
      (c.arg 71 64 = 1 → r = readReg u (pGlobal + 0x5C) ++ readReg u (pGlobal + 0x58) ++ readReg u (pGlobal + 0x50) ++ readReg u (pGlobal + 0x54)) ∧
      (c.arg 71 64 = 2 → r = readReg u (pRun + 0x58) ++ readReg u (ringPage c.rq + 0x60) ++ readReg u (ringPage c.rq + 0x50)
        ++ readReg u (ringPage c.rq + 0x68)))) ∧
    (c.op = 0xA → c.rq.fn1 = true → completes .setPolicy s (fun t => posted u t c 5 0x301 0#128 ∧ hosts t)) ∧
    (c.op = 0xA → c.rq.fn1 = false → completes .setPolicy s (fun t =>
      let o := s.belfry.policy
      let p := t.belfry.policy
      posted u t c 0 0 (BitVec.ofNat 128 (policyWord p)) ∧ t = { u with belfry := { u.belfry with policy := p }, hosts := t.hosts } ∧
      (c.arg 64 64 = 0 → p = o) ∧
      (c.arg 64 64 = 1 → (c.arg 66 65 < 2 → p.fence = decide (c.arg 66 65 = 1)) ∧ p.fenceAt = decide (c.arg 67 67 = 1) ∧
        p.hits = (if c.arg 71 68 = 0 then o.hits else c.arg 71 68) ∧ p.probeS = (if c.arg 87 72 = 0 then o.probeS else c.arg 87 72) ∧
        p.windowH = (if c.arg 103 88 = 0 then o.windowH else c.arg 103 88) ∧
        p.sweepMin = (if c.arg 119 104 = 0 then o.sweepMin else c.arg 119 104) ∧ p.sweepEn = decide (c.arg 120 120 = 1)))) ∧
    (let rect := rectSids u (c.arg 74 64) (c.arg 90 80) (c.arg 105 96) (c.arg 121 112)
     let sets := (probeSets u).filter (fun x => c.arg 143 128 = 0xFFFF || x.1 = c.arg 143 128)
     c.op = 9 → c.rq.fn1 = false →
      (∀ flaws, (∃ n ∈ rect, u.live n = true) → completes (.probe flaws) s (fun t => posted u t c 3 0x103 0#128 ∧ hosts t)) ∧
      (∀ flaws, (∀ n ∈ rect, u.live n = false) → sets = [] → completes (.probe flaws) s (fun t => posted u t c 4 0x201 0#128 ∧ hosts t)) ∧
      ((∀ n ∈ rect, u.live n = false) → sets ≠ [] → (∀ x ∈ sets, ∀ v ∈ x.2, probePass v = true) → completes (.probe []) s (fun t =>
        posted u t c 0 0 (BitVec.ofNat 128 ((rect.filter (spinUp u)).length * (sets.map (fun x => x.2.length)).sum % 2 ^ 32)) ∧
        t = { u with regs := t.regs, hosts := t.hosts }))) ∧
    (let h := c.rq.port.val
     let ea := c.arg 111 64
     let v := u.emit (.hostRead h c.rq.fn1 (hostAddr u h (ea % 0x200000000000)) 32)
     ∀ (cycle : Nat) (d : BitVec 256) (a n : Nat) (ls : List Line) (w : State), c.op = 8 → c.rq.fn1 = false → c.arg 117 112 = 1 → ea % 32 = 0 →
      hostEa ea = true → portMapped u h ea 1 = true → hostDown u h = false → u.runState ≠ 1 → u.running = false → u.run.digests = [] →
      bankHeld u h (some cycle) false a n = false →
      digestRuns d.toNat = some [(a, n)] → (∀ i, i < n → decodeEA u (a + 32 * i) ≠ .unmapped) →
      eaLines v (moverPage c.rq) h cycle a n [] = (ls, w) → completes (.digest cycle [⟨[d], none⟩] []) s (fun t =>
        posted w t c 0 0 (BitVec.ofNat 128 ((crc64 (digestLines ls).1).toNat + n % 2 ^ 32 * 2 ^ 64 + (digestLines ls).2 % 2 ^ 32 * 2 ^ 96)) ∧
        t = { w with hosts := t.hosts }))

/-- R323, R324, R327: LOAD_PEAL checks a peal, reads it again and clears the started spindles; LOAD_PEAL_DONE claims its chimes and channels,
shows what the peal declares and leaves the run LOADED; UNLOAD_PEAL releases them. That a peal is read in one step is the model's choice
(assumption logs 12, 20). -/
def Obligations.PealsLoadAndUnload : Prop :=
  ∀ (s : State) (c : Cmd) (rest : List Cmd),
    let u := { s with run := { s.run with taken := rest } }
    (s.run.taken = c :: rest → c.op = 1 → c.rq.fn1 = true → s.run.reading = false →
      ∀ cycle host conds, completes (.loadPeal cycle host conds) s (fun t => posted u t c 5 0x301 0#128 ∧ t = { u with hosts := t.hosts })) ∧
    (s.run.taken = c :: rest → c.op = 1 → c.rq.fn1 = false → u.runState = 0 →
      ∀ (cycle : Nat) (conds : List Cond) (ls ls' : List Line) (hs hs' : List HostRead) (v v' : State),
      let ea := c.arg 111 64
      let n := c.arg 159 128
      let w := (((setRunState u 1).modRun (fun r => { r with
        loadCmd := some c, reading := true, fields := 0, bobbins := 0, starts := [], plies := [], chimes := [], watches := [], chans := [],
        lostFields := 0#64, lostBobbins := 0#64, fenceAt := none })).fset (pRun + 0x40) 15 12 0).fset (pRun + 0x60) 31 31 0
      let h := (parsePeal v ea ls).1
      let rs := (parsePeal v ea ls).2.1
      let ok := (parsePeal v ea ls).2.2
      let left := condsLeft w ea n conds
      ea % 32 = 0 → hostEa ea = false → portMapped u c.rq.port.val ea (max 1 n) = true →
      bankHeld w c.rq.port.val (some cycle) false ea n = false →
      portRead w c.rq cycle ea n [] conds = ((ls, hs), v) →
      ((∃ l ∈ ls, l.bad = true) → completes (.loadPeal cycle [] conds) s (fun t => t.runState = 5 ∧ t.fget (pRun + 0x60) 15 8 = 2)) ∧
      (∀ st d, (∀ l ∈ ls, l.bad = false) → pealRefusal v h rs ok ls = some (st, d) → completes (.loadPeal cycle [] conds) s (fun t =>
        posted v t c st d 0#128 ∧ t.runState = 0 ∧ t.run.loadCmd = none ∧ t.regs = (setRunState v 0).regs ∧ t.mem = v.mem ∧
        ∀ x ∈ rs.filterMap Rec.plyOf?, ∀ k, k < 4 → (t.spin x.1).loaded k = false)) ∧
      ((∀ l ∈ ls, l.bad = false) → pealRefusal v h rs ok ls = none →
        (∀ a body, Rec.data a body ∈ rs → bankHeld w c.rq.port.val (some cycle) true a body.length = false) → portRead v c.rq cycle ea n hs left = ((ls', hs'), v') →
        ((∃ l ∈ ls', l.bad = true) → completes (.loadPeal cycle [] conds) s (fun t => t.runState = 5)) ∧
        ((∀ l ∈ ls', l.bad = false) → completes (.loadPeal cycle [] conds) s (fun t =>
          t.runState = 1 ∧ t.run.loadCmd = some c ∧ t.run.reading = false ∧ t.run.peal = ls' ∧ t.run.starts = rs.filterMap Rec.startOf? ∧
          t.run.plies.map (fun x => (x.1, x.2.1)) = rs.filterMap Rec.plyOf? ∧ t.run.fields = h.fields ∧ t.run.bobbins = h.bobbins ∧
          t.run.jobs.map (fun j => (j.sid, j.ply)) = (parsePeal v' ea ls').2.1.filterMap Rec.plyOf? ∧
          (∀ x ∈ rs.filterMap Rec.startOf?, ∀ k, k < 4 → (t.spin x.1).loaded k = false ∧ (t.spin x.1).epoch k = 0))))) ∧
    (let rs := (parsePeal s s.run.pealEa.toNat s.run.peal).2.1
     let h := (parsePeal s s.run.pealEa.toNat s.run.peal).1
     s.run.loadCmd = some c → s.runState = 1 → s.run.reading = false → s.run.jobs = [] → completes .loadPealDone s (fun t =>
      t.bget (pRun + 0x40) 15 = h.strict ∧ t.bget (pRun + 0x40) 13 = h.reloads ∧ t.reg (pRun + 0x78) = BitVec.ofNat 32 h.id ∧
      t.reg (pRun + 0x80) = BitVec.ofNat 32 (h.ys * 65536 + h.xs) ∧ t.reg (pRun + 0x88) = BitVec.ofNat 32 h.fields ∧
      t.reg (pRun + 0x90) = BitVec.ofNat 32 h.bobbins ∧ t.reg (pRun + 0x4C) = BitVec.ofNat 32 (if h.wd = 0 then 20 else h.wd) ∧
      t.runState = 2 ∧ posted s t c 0 0 0#128 ∧ t.reg (pRun + 0x44) = 0#32 ∧ t.reg (pRun + 0x48) = s.reg (pRun + 0x48) + 1#32 ∧
      t.run.chimes = rs.filterMap Rec.chimeOf? ∧ t.run.chans = rs.filterMap Rec.chanOf? ∧ t.run.watches = rs.filterMap Rec.watchOf? ∧
      (∀ k ∈ t.run.chimes, chRun t (k / 512) (k % 512) = true) ∧ (∀ x ∈ t.run.chans, chClaimed t x.1 x.2 = true) ∧
      (recsOk rs = true → ∀ k b e v, Rec.chime k b e v ∈ rs → chValue t (k / 512) (k % 512) = v ∧ chBarrier t (k / 512) (k % 512) = b ∧
        chExpect t (k / 512) (k % 512) = e ∧ chCur t (k / 512) (k % 512) = 0 ∧ chNext t (k / 512) (k % 512) = 0) ∧
      (recsOk rs = true → ∀ p x, Rec.port p x ∈ rs → portRec t p = some x) ∧
      (recsOk rs = true → ∀ e x, Rec.entry e x ∈ rs → entryRec t e = some x) ∧ sameMemory s t ∧ t.spindles = s.spindles)) ∧
    (s.run.taken = c :: rest → c.op = 2 → c.rq.fn1 = false → u.runState = 2 → s.fits → completes .unloadPeal s (fun t =>
      t.runState = 0 ∧ posted u t c 0 0 0#128 ∧ (∀ k ∈ s.run.chimes, chRun t (k / 512) (k % 512) = false) ∧
      (∀ x ∈ s.run.chans, chClaimed t x.1 x.2 = false) ∧ (∀ x ∈ s.run.starts, ∀ k, k < 4 → (t.spin x.1).loaded k = false) ∧
      t.run.starts = [] ∧ t.run.chimes = [] ∧ t.run.chans = [] ∧ t.run.ports = [] ∧ t.run.entries = [] ∧ t.run.regions = [] ∧
      t = { u with run := t.run, regs := t.regs, hosts := t.hosts, spindles := t.spindles }))

/-- R316, R325, R326, R335, R336, R338, R339, R469: START_RUN, STOP_RUN, the end of draining, ABORT_RUN, a run fault, its acknowledgement, and
a fence at a stroke boundary move the run's state and leave what the rules give. When an attempt's messages have drained, the order in which FAULTED
entries are posted, and the content of the spill regions afterwards, are the model's readings (assumption logs 20, 23, 29). -/
def Obligations.RunsStartStopAndFault : Prop :=
  ∀ (s : State) (c : Cmd) (rest : List Cmd), s.fits →
    let u := { s with run := { s.run with taken := rest } }
    let front := s.run.taken = c :: rest ∧ s.runState ≤ 5
    let apart := (s.run.starts.map (·.1)).Nodup
    let elsewhere := fun (t : State) => ∀ n, (∀ x ∈ s.run.starts, x.1 ≠ n) → t.spin n = s.spin n
    let faulted := fun (t : State) (code : Nat) =>
      t.runState = 5 ∧ t.bget (pRun + 0x18) 0 = true ∧ t.reg (pRun + 0xA0) = s.reg (pRun + 0xA0) + 1#32 ∧
      (s.bget (pRun + 0x60) 31 = true → ∀ o, o ≤ 0x10 → t.reg (pRun + 0x60 + o) = s.reg (pRun + 0x60 + o)) ∧
      (s.bget (pRun + 0x60) 31 = false → t.bget (pRun + 0x60) 31 = true ∧ t.fget (pRun + 0x60) 15 8 = code ∧
        t.reg (pRun + 0x68) = s.reg (pTb + 0x40) ∧ t.reg (pRun + 0x70) = s.reg (pRun + 0x50)) ∧
      (∀ x ∈ s.run.starts, (t.spin x.1).hold = true) ∧ elsewhere t ∧
      (∀ x ∈ s.run.chans, chState t x.1 x.2 = if chState s x.1 x.2 ∈ [1, 2, 3] then 4 else chState s x.1 x.2) ∧
      (∀ k ∈ t.run.strokes, k.faultable = false) ∧
      (∀ k ∈ s.run.strokes, k.faultable = true → k.cmd.live = true →
        (s.run.strokes.any Stroke.entryDue = false → ∃ e ∈ (t.ring k.cmd.rq).due,
          e.tag = BitVec.ofNat 32 (k.cmd.arg 63 32) ∧ e.status = 6 ∧ e.detail = code ∧ e.stroke = k.id) ∧
        (s.run.strokes.any Stroke.entryDue = true → { k with stage := .failed, owed := some code } ∈ t.run.strokes)) ∧
      sameMemory s t ∧ t.mesh = s.mesh
    (front → c.op = 3 → s.runState = 2 →
      (u.run.lostFields.toNat &&& fieldsUsed u ≠ 0 → completes .startRun s (fun t => posted u t c 4 0x203 0#128 ∧ t = { u with hosts := t.hosts })) ∧
      (apart → u.run.lostFields.toNat &&& fieldsUsed u = 0 → u.run.lostBobbins.toNat &&& bobbinsUsed u = 0 →
        (∀ f, f < 64 → (bobbinsUsed u).testBit f = true → u.bget (pBob f 0 + 0x44) 15 = false) →
        unitsReady u (fieldsUsed u) (bobbinsUsed u) u.run.chimes u.run.chans = true → completes .startRun s (fun t =>
          t.runState = 3 ∧ posted u t c 0 0 0#128 ∧ t.reg (pRun + 0x50) = BitVec.ofNat 32 (c.arg 95 64) ∧
          t.reg (pRun + 0x54) = BitVec.ofNat 32 (c.arg 95 64) ∧ t.bget (pRun + 0x60) 31 = false ∧
          (∀ x ∈ s.run.starts, (t.spin x.1).hold = false ∧ (t.spin x.1).ply = x.2 ∧
            (t.spin x.1).curAct x.2 = (if (s.spin x.1).wasActive x.2 then (s.spin x.1).saved x.2 else (s.spin x.1).entry x.2)) ∧ elsewhere t ∧
          (∀ k ∈ s.run.chimes, t.reg (chBase (k / 512) (k % 512) + 0xC) = s.reg (chBase (k / 512) (k % 512))) ∧ sameMemory s t))) ∧
    (front → c.op = 4 → s.runState = 3 → completes .stopRun s (fun t => t.runState = 4 ∧ t.bget (pRun + 0x18) 1 = true ∧
      t = { u with run := { u.run with stopCmd := some c }, regs := t.regs })) ∧
    (front → c.op ≠ 0 → c.op ≤ 5 → c.op ≠ 2 → c.op ≠ 1 → (c.op = 3 → s.runState ≠ 2) → (c.op = 4 → s.runState ≠ 3) →
      (c.op = 5 → s.runState = 0 ∨ s.runState = 5) →
      completes (if c.op = 3 then .startRun else if c.op = 4 then .stopRun else .abortRun) s (fun t =>
        posted u t c 1 s.runState 0#128 ∧ t.bget (pRun + 0x18) 2 = true ∧ t.reg (pRun + 0xA8) = s.reg (pRun + 0xA8) + 1#32 ∧
        t.run = u.run ∧ t.spindles = s.spindles ∧ sameMemory s t)) ∧
    (s.runState = 4 → (∀ k ∈ s.run.strokes, k.open_ = false) → 
      ((∃ x ∈ s.run.chans, chState s x.1 x.2 ≠ 0) ∨ s.run.fenceAt.isSome = true → exec .drainDone s = .next s) ∧
      ((∀ x ∈ s.run.chans, chState s x.1 x.2 = 0) → s.run.fenceAt = none → completes .drainDone s (fun t =>
        t.runState = 2 ∧ t.run.stopCmd = none ∧ (∀ d, s.run.stopCmd = some d → posted s t d 0 0 0#128) ∧
        t = { s with run := t.run, regs := t.regs, hosts := t.hosts }))) ∧
    (front → c.op = 5 → 1 ≤ s.runState → s.runState ≤ 4 → completes .abortRun s (fun t => faulted t 0xB ∧
      (c.live = true → (t.ring c.rq).due.getLast? = some ⟨5, BitVec.ofNat 32 (c.arg 63 32), 0, 0, 0#32, 0#128⟩))) ∧
    (∀ (code : Fin 16) field sid, 1 ≤ code.val → code.val ≤ 0xA → 1 ≤ s.runState → s.runState ≤ 4 →
      completes (.runFault code field sid) s (fun t => faulted t code.val)) ∧
    (∀ sid, s.run.fenceAt = some sid → strokeAdmitted s = false → s.running = true → completes .fenceStrokeBoundary s (fun t => faulted t 9)) ∧
    (∀ cycle, front → c.op = 6 → s.runState = 5 → s.run.ackApplied = false →
      (drained u = false → completes (.faultAck cycle []) s (fun t =>
        t = { u with run := { u.run with ackCmds := u.run.ackCmds ++ [c], acking := true } })) ∧
      (drained u = true → s.bget (pRun + 0x40) 13 = true →
        bankHeld u (ackPort { u with run := { u.run with ackCmds := u.run.ackCmds ++ [c] } }) (some cycle) false s.run.pealEa.toNat s.run.pealLines
          = false → ∀ conds, completes (.faultAck cycle conds) s (fun t =>
        t.run.ackApplied = true ∧ t.run.jobs.map (fun j => (j.sid, j.ply, j.base)) = s.run.plies)) ∧
      (apart → drained u = true → s.bget (pRun + 0x40) 13 = false →
        completes (.faultAck cycle []) s (fun t =>
          t.runState = 5 ∧ t.reg (pRun + 0x44) = s.reg (pRun + 0x44) + 1#32 ∧ t.run.ackApplied = true ∧ t.run.ackCmds = s.run.ackCmds ++ [c] ∧
          (∀ x ∈ s.run.starts, ∀ k, k < 4 → (t.spin x.1).epoch k = ((s.spin x.1).epoch k + 1) % 16 ∧ (∀ i, i < 6 → (t.spin x.1).ctr k i = 0) ∧
            ((s.spin x.1).loaded k = true → (t.spin x.1).saved k = (s.spin x.1).entry k)) ∧ elsewhere t ∧
          (∀ k ∈ s.run.chimes, t.reg (chBase (k / 512) (k % 512)) = s.reg (chBase (k / 512) (k % 512) + 0xC) ∧
            chCur t (k / 512) (k % 512) = 0 ∧ chNext t (k / 512) (k % 512) = 0) ∧
          (∀ k ∈ t.run.strokes, k.stage = .reserved ∨ k.stage = .recorded) ∧ (∀ l, markOf t l = markOf s l) ∧
          (∀ a, (∀ x ∈ s.run.starts, ∀ k q i, k < 4 → q < 8 → i < spSize (s.spin x.1) k q →
              a < storeAddr x.1 (spBase (s.spin x.1) k q + i) ∨ storeAddr x.1 (spBase (s.spin x.1) k q + i) + 32 ≤ a) →
            readByte t a = readByte s a)))) ∧
    (s.run.ackCmds = [c] → s.run.acking = true → s.run.ackApplied = true → s.run.jobs = [] → (∀ m ∈ s.mesh, runMsg s m = false) →
      (s.run.newFault = false → completes .faultAckDone s (fun t => posted s t c 0 0 0#128 ∧
        t.runState = (if s.bget (pRun + 0x40) 12 then 0 else 2) ∧ t.run.acking = false ∧ t.run.ackCmds = [] ∧ sameMemory s t)) ∧
      (s.run.newFault = true → completes .faultAckDone s (fun t => posted s t c 6 (s.fget (pRun + 0x60) 15 8) 0#128 ∧
        t.runState = s.runState ∧ t.run.acking = false ∧ t.run.ackCmds = [] ∧ t.run.newFault = false ∧
        t = { s with run := t.run, hosts := t.hosts })))

/-- R328 to R333, R520: a stroke is taken or refused, its block judged, its input copied, its ADMIT chime incremented, its output copied when
its DONE chimes have reached their targets, its record written and its completion entry posted; with a link that is down, or for a command that a
reset discarded, RUN_NEXT_ID does not wait for the entry. That a mover's copies are made in one step, and what RUN_NEXT_ID waits for, is the model's
reading (assumption logs 20, 24). -/
def Obligations.StrokesAreServed : Prop :=
  ∀ (s : State),
    let rec? := fun (id : Word) (st : Stage) (k : Stroke) => strokeAt s id st = some k
    let moved := fun (v t : State) (id : Word) (st : Stage) (f : Stroke → Stroke) =>
      t = { v with run := { v.run with strokes := mapFirst (fun k => k.id = id && k.stage = st) f v.run.strokes } }
    (∀ (c : Cmd) (rest : List Cmd), s.run.taken = c :: rest → c.op = 7 →
      let u := { s with run := { s.run with taken := rest } }
      let hosts := fun (t : State) => t = { u with hosts := t.hosts }
      let dup := (∃ k ∈ s.run.strokes, k.id = c.stroke ∧ k.stage ≠ .failed) ∨ ∃ x ∈ s.run.posted, x.1 = c.stroke
      let near := (c.stroke - s.reg (pRun + 0x50)).toNat < 64
      let allowed := granted u c.rq c.blockEa (max 1 c.blockLines) = true ∧ granted u c.rq c.recordEa 1 = true
      (¬ allowed → completes .issueStroke s (fun t => posted u t c 5 0x302 0#128 ∧ hosts t)) ∧
      (allowed → u.runState = 3 → ¬ near → completes .issueStroke s (fun t => posted u t c 2 3 0#128 ∧ hosts t)) ∧
      (allowed → u.runState = 3 → near → dup → completes .issueStroke s (fun t => posted u t c 2 4 0#128 ∧ hosts t)) ∧
      (allowed → u.runState = 3 → near → ¬ dup → entryRec u c.entryNo = none → completes .issueStroke s (fun t => posted u t c 2 6 0#128 ∧ hosts t)) ∧
      (allowed → u.runState = 3 → near → ¬ dup → (entryRec u c.entryNo).isSome = true → c.blockEa % 32 = 0 → c.recordEa % 32 = 0 →
        1 ≤ c.blockLines → c.blockLines ≤ 32 → portMapped u c.rq.port.val c.blockEa c.blockLines = true →
        portMapped u c.rq.port.val c.recordEa 1 = true → completes .issueStroke s (fun t =>
          t = { u with run := { u.run with strokes := u.run.strokes ++ [{ id := c.stroke, cmd := c, stage := .reserved, descs := [], targets := [] }] } }))) ∧
    (∀ (id : Word) (k : Stroke) (cycle : Nat) (host hs : List HostRead) (conds : List Cond) (descs : List Line) (v : State), rec? id .reserved k →
      mustWait s k.cmd.rq (some cycle) false k.cmd.blockEa k.cmd.blockLines = false →
      portRead s k.cmd.rq cycle k.cmd.blockEa k.cmd.blockLines host conds = ((descs, hs), v) → v.runState = 3 →
      (∀ d ∈ movedDescs v descs, granted v k.cmd.rq (dEa d) (max 1 (dLines d)) = true) →
      ((∃ d ∈ descs, d.bad = true) → completes (.strokeBlockArrival id cycle host conds) s (fun t => posted v t k.cmd 2 5 0#128 ∧
        t = { v with hosts := t.hosts, run := { v.run with
          strokes := dropFirst (fun x => x.id = id && x.stage = .reserved) v.run.strokes } })) ∧
      (∀ e, (∀ d ∈ descs, d.bad = false) → entryRec v k.cmd.entryNo = some e → blockOk v e descs = true →
        (∀ d ∈ movedDescs v descs, portMapped v k.cmd.rq.port.val (dEa d) (max 1 (dLines d)) = true) →
        completes (.strokeBlockArrival id cycle host conds) s (fun t =>
          moved v t id .reserved (fun k => { k with stage := .accepted, descs := descs })))) ∧
    (let id := s.reg (pRun + 0x54)
     ∀ (k : Stroke) (cycle : Nat) (d : Line) (x : PortRec) (host : List (BitVec 256)) (f : Fin 64) (o : Nat), routesWhole s → rec? id .accepted k → s.running = true →
      s.run.fenceAt = none → k.descs = [d] → portRec s (dPort d) = some x → x.kind = 0 → hostEa (dEa d) = true →
      portMapped s k.cmd.rq.port.val (dEa d) (dLines d) = true → hostDown s k.cmd.rq.port.val = false → 1 ≤ dLines d → host.length = dLines d →
      partEa x d % 32 = 0 → decodeEA s (partEa x d) = .bobbin f o → o + 32 * dLines d ≤ s.capacity →
      outFive s (pBob f.val 0) = false → (s.pow f.val).memOff = false → bobbinOn s f.val = true →
      bankHeld s k.cmd.rq.port.val (some cycle) true (partEa x d) (dLines d) = false →
      (∀ i, i < dLines d → lineGone s f.val (o + 32 * i) = false) → completes (.strokeCopyIn cycle [⟨host, none⟩] []) s (fun t =>
        let e := SMap.get (fun _ => 0#32) s.run.expect (dPort d) + 1#32
        (∀ i, i < dLines d → readLine t (bobAddr f.val (o + 32 * i)) = ⟨nth 0#256 host i, false⟩) ∧
        (∀ a, (a < bobAddr f.val o ∨ bobAddr f.val o + 32 * dLines d ≤ a) → readByte t a = readByte s a) ∧
        SMap.get (fun _ => 0#32) t.run.expect (dPort d) = e ∧
        t.run.strokes = mapFirst (fun k => k.id = id && k.stage = .accepted)
          (fun k => { k with stage := .copyingIn, targets := [(dPort d, e)], flush := false }) s.run.strokes)) ∧
    (let id := s.reg (pRun + 0x54)
     ∀ (k : Stroke) (e : EntryRec), rec? id .copyingIn k → k.flush = false → k.lost = false → s.running = true → s.run.fenceAt = none → entryRec s k.cmd.entryNo = some e →
      e.admitChime < 32768 → outFive s (pChime (e.admitChime / 512) 0) = false → routesWhole s → completes .strokeAdmit s (fun t =>
        t.reg (pRun + 0x54) = id + 1#32 ∧
        (∃ m : Msg, t.mesh = s.mesh ++ [m] ∧ m.dst = .chimes (e.admitChime / 512) ∧ m.kind = 3 ∧ m.vc = 3 ∧ incChime m = e.admitChime % 512 ∧
          fld m.arg.toNat 29 0 = e.add % 2 ^ 30) ∧
        t.run.strokes = mapFirst (fun k => k.id = id && k.stage = .copyingIn) (fun k => { k with stage := .admitted }) s.run.strokes ∧
        sameMemory s t)) ∧
    (∀ (id : Word) (k : Stroke) (cycle : Nat), rec? id .admitted k → s.running = true →
      (∀ pt ∈ k.targets, ∃ x, portRec s pt.1 = some x ∧ (x.kind = 1 ∨ x.kind = 3 →
        reached (chValue s (x.done / 512) (x.done % 512)) pt.2.toNat = true)) →
      ((∀ d ∈ k.descs, ∃ x, portRec s (dPort d) = some x ∧ x.kind ≠ 1) → completes (.strokeCopyOut id cycle [] []) s (fun t =>
        moved s t id .admitted (fun k => { k with stage := .copyingOut, flush := false }))) ∧
      (∀ d x ls hs v, k.descs = [d] → portRec s (dPort d) = some x → x.kind = 1 → hostEa (dEa d) = true → 1 ≤ dLines d →
        portMapped s k.cmd.rq.port.val (dEa d) (dLines d) = true → hostDown s k.cmd.rq.port.val = false →
        mustWait s k.cmd.rq (some cycle) false (partEa x d) (dLines d) = false →
        portRead s k.cmd.rq cycle (partEa x d) (dLines d) [] [] = ((ls, hs), v) → portMapped v k.cmd.rq.port.val (dEa d) (dLines d) = true →
        completes (.strokeCopyOut id cycle [] []) s (fun t =>
          moved (flushRead (portWrite v k.cmd.rq (some cycle) (dEa d) ls true).2 k.cmd.rq (dEa d + 32 * (dLines d - 1))) t id .admitted
            (fun k => { k with stage := .copyingOut, flush := true })))) ∧
    (∀ (id : Word) (k : Stroke), rec? id .copyingOut k → k.flush = false → k.lost = false → s.running = true →
      earlierOpen s id Stroke.open_ = false → mustWait s k.cmd.rq none true k.cmd.recordEa 1 = false → completes (.strokeRecord id) s (fun t => ∃ l : Line,
        moved (portWrite s k.cmd.rq none k.cmd.recordEa [l] false).2 t id .copyingOut
          (fun k => { k with stage := .recorded, lost := !(portWrite s k.cmd.rq none k.cmd.recordEa [l] false).1 }) ∧ l.bad = false ∧
        fld l.data.toNat 31 0 = id.toNat ∧ fld l.data.toNat 63 32 = k.cmd.arg 287 256 ∧ fld l.data.toNat 71 64 = k.cmd.entryNo ∧
        l.data.toNat.testBit 72 = (s.bget (pRun + 0x40) 15 && !s.bget (pRun + 0x40) 14) ∧
        fld l.data.toNat 95 80 = (s.reg (pRun + 0x44)).toNat % 65536 ∧ fld l.data.toNat 127 96 = (s.reg (pRun + 0x48)).toNat ∧
        fld l.data.toNat 247 128 = 0 ∧ fld l.data.toNat 255 248 = 0x5A)) ∧
    (∀ (id : Word) (k : Stroke), rec? id .recorded k → k.lost = false → earlierOpen s id Stroke.entryDue = false →
      (∀ x ∈ s.run.strokes, x.owed = none) → k.ended = false → s.run.posted = [] → k.cmd.op = 7 → k.cmd.stroke = id →
      let less := { s.run with strokes := dropFirst (fun x => x.id = id && x.stage = .recorded) s.run.strokes }
      (k.cmd.live = true → hostDown s k.cmd.rq.port.val = false → completes (.strokeCompletionEntry id) s (fun t => posted s t k.cmd 0 0 0#128 ∧
        t = { s with hosts := t.hosts, run := { less with posted := [(id, k.cmd.rq)] } })) ∧
      (hostDown s k.cmd.rq.port.val = true ∨ (k.cmd.live = false ∧ (s.ring k.cmd.rq).due = [] ∧ (s.ring k.cmd.rq).unsent.getLsbD 0 = false) →
        completes (.strokeCompletionEntry id) s (fun t => posted s t k.cmd 0 0 0#128 ∧ t.reg (pRun + 0x98) = s.reg (pRun + 0x98) + 1#32 ∧
          t.reg (pRun + 0x50) = (if s.reg (pRun + 0x50) = id then id + 1#32 else s.reg (pRun + 0x50)) ∧
          sameRegs strokeRegs s t ∧ t = { s with regs := t.regs, hosts := t.hosts, run := less })))

/-- R29, R350 to R352, R355, R356, R374, R375: a Nirdor port trains, comes up, narrows, swaps lanes whose margin falls short and goes down, a
training that ends otherwise counts as a failure, RETRAIN leaves DOWN, and its recovered clock locks and provides no reference once it is lost. The
model's readings: PORT_CTRL takes writes in DOWN (log 21), and a slot that the partner's receiver asks for changes no lane register here (log 31). -/
def Obligations.NirdorLinksTrainAndFail : Prop :=
  ∀ (s : State) (p : Fin 16),
    let pg := pNirdor p.val 0
    let st := linkState s p.val
    let x := s.nir p.val
    let lane := fun (t : State) (l : Nat) => t.fget (laneReg p.val l) 31 30
    let pos := fun (t : State) (l : Nat) => t.fget (laneReg p.val l) 21 16
    let ready := fun (t : State) (a b : Nat) => ∀ k, k < 2 → t.readyState (pNirdor p.val k) = a ∧ t.readyReason (pNirdor p.val k) = b
    let gone := x.replay.map (·.pkt) ++ x.tx ++ x.transit
    let frame := fun (t : State) => otherNirs s t p ∧ t = { s with regs := t.regs, nirdors := t.nirdors }
    let unreferenced := fun (t : State) => otherNirs s t p ∧ t = { s with regs := t.regs, nirdors := t.nirdors, clocks := t.clocks } ∧
      t.clocks = (if s.fget (pClock + 0x40) 11 8 = p.val then { s.clocks with eligible := false } else s.clocks)
    (completes (.nirdorRetrain p) s (fun t =>
      linkState t p.val = (if st = 0 ∧ mayTrain s p.val = true ∧ s.bget (pg + 0x40) 1 = true then 1 else st) ∧
      onlyRegsAt (fun o => o = pg + 0x44) s t)) ∧
    (∀ (rx tx : BitVec 42) (margins : List Nat) (inTime switch : Bool) (port number : Nat),
      let ones := fun (m : BitVec 42) => ((List.range 42).filter (fun l => m.getLsbD l)).length
      let n := min (ones rx) (ones tx)
      st = 1 → completes (.trainingDone p rx tx margins inTime switch port number) s (fun t =>
        t.fget (pg + 0x44) 21 16 = n ∧ (∀ l, l < 42 → t.fget (laneReg p.val l) 7 0 = nth 0 margins l % 256) ∧
        (∀ l, l < 42 → (lane t l = 3 ↔ rx.getLsbD l = false)) ∧ frame t ∧
        (32 ≤ n → inTime = true → linkState t p.val = 2 ∧ t.bget (pg + 0x44) 28 = decide (n < 40) ∧
          ((List.range 42).filter (fun l => lane t l = 2)).length = (if 40 ≤ n then 40 else 32) ∧
          t.reg (pg + 0x48) = BitVec.ofNat 32 (2 ^ 31 + switch.toNat * 2 ^ 30 + port % 16 * 65536 + number % 65536) ∧
          (t.nir p.val).txSeq = 0 ∧ (t.nir p.val).rxSeq = 0) ∧
        (n < 32 ∨ inTime = false → linkState t p.val = 0 ∧ t.reg (pg + 0x90) = s.reg (pg + 0x90) + 1#32 ∧ ready t 0 7))) ∧
    (st = 2 → engineValid s = true → x.tx = [] → x.transit = [] → completes (.portUp p true) s (fun t =>
      linkState t p.val = 3 ∧ t.bget (pg + 0x18) 1 = true ∧ (if s.bget (pg + 0x44) 28 then ready t 2 8 else ready t 3 0) ∧ frame t)) ∧
    (s.bget (pg + 0x40) 0 = false ∨ s.bget (pg + 0x40) 2 = true →
      (st = 1 → completes (.portDown p) s (fun t => linkState t p.val = 0 ∧ t.reg (pg + 0x90) = s.reg (pg + 0x90) + 1#32 ∧
        onlyRegsAt (fun o => o = pg + 0x44 ∨ o = pg + 0x90 ∨ o = pg + 0x94 ∨ o = pg + 0x18 ∨ o = pg + 0x1C) s t)) ∧
      (2 ≤ st → (∀ k ∈ gone, scopeRunPacket s k = false) → completes (.portDown p) s (fun t =>
        linkState t p.val = 0 ∧
        t.nir p.val = { x with replay := [], tx := [], transit := [], nak := false, swap := false, txSeq := 0, rxSeq := 0 } ∧
        t.bget (pg + 0x44) 28 = false ∧ t.bget (pg + 0x44) 29 = false ∧ t.bget (pg + 0x18) 0 = true ∧ ready t 0 7 ∧
        t.reg (pg + 0x88) = s.reg (pg + 0x88) + BitVec.ofNat 32 gone.length ∧ unreferenced t))) ∧
    (2 ≤ st → (∃ k ∈ gone, scopeRunPacket s k = true) → s.running = true → s.run.chans = [] →
      completes (.linkFailure p true) s (fun t => linkState t p.val = 0 ∧ t.runState = 5 ∧ t.bget (pg + 0x18) 3 = true ∧
        t.bget (pg + 0x50) 31 = true ∧ (s.bget (pRun + 0x60) 31 = false → t.fget (pRun + 0x60) 15 8 = 3))) ∧
    ((∀ f ∈ x.replay, f.resent < 8) → completes (.linkFailure p false) s (fun t => t = s)) ∧
    (2 ≤ st → (∃ f ∈ x.replay, 8 ≤ f.resent) → s.running = false → completes (.linkFailure p false) s (fun t =>
      linkState t p.val = 0 ∧ (t.nir p.val).replay = [] ∧ ready t 0 7 ∧ unreferenced t)) ∧
    (∀ (l : Fin 42) (margin : Byte), 2 ≤ st → 0x20 ≤ margin.toNat → completes (.laneSpared p l margin true) s (fun t => t = s)) ∧
    (∀ (l : Fin 42) (margin : Byte), 2 ≤ st → lane s l.val = 2 → 0x20 ≤ margin.toNat → completes (.laneSpared p l margin false) s (fun t =>
      t.fget (laneReg p.val l) 7 0 = margin.toNat ∧ lane t l.val = 2 ∧ pos t l.val = pos s l.val ∧ onlyRegsAt (fun o => o = laneReg p.val l) s t)) ∧
    (∀ (l : Fin 42) (margin : Byte), 2 ≤ st → x.nak = false → x.swap = false → lane s l.val = 2 → x.rxGood ≤ 42 →
      margin.toNat < 0x20 →
      (∀ j, j < 42 → lane s j = 1 → (∀ i, i < j → lane s i ≠ 1) → completes (.laneSpared p l margin false) s (fun t =>
        t.fget (laneReg p.val l) 7 0 = margin.toNat ∧ lane t l.val = 3 ∧ lane t j = 2 ∧ pos t j = pos s l.val ∧ (∀ i, i < 42 → i ≠ j → i ≠ l.val → lane t i = lane s i ∧ pos t i = pos s i) ∧
        t.fget (pg + 0x44) 21 16 = min (x.rxGood - 1) x.txGood ∧ t.bget (pg + 0x18) 2 = true ∧
        t.nir p.val = { x with rxGood := x.rxGood - 1, swap := true } ∧ linkState t p.val = st ∧ frame t)) ∧
      ((∀ j, j < 42 → lane s j ≠ 1) → s.bget (pg + 0x44) 28 = false → completes (.laneSpared p l margin false) s (fun t =>
        lane t l.val = 3 ∧ t.bget (pg + 0x44) 28 = true ∧ t.nir p.val = { x with rxGood := x.rxGood - 1, swap := true } ∧
        t.fget (pg + 0x44) 21 16 = min (x.rxGood - 1) x.txGood ∧ t.bget (pg + 0x18) 2 = true ∧
        (st = 3 → ready t 2 8) ∧ linkState t p.val = st ∧ frame t)) ∧
      ((∀ j, j < 42 → lane s j ≠ 1) → s.bget (pg + 0x44) 28 = true → gone = [] → completes (.laneSpared p l margin false) s (fun t =>
        lane t l.val = 3 ∧ linkState t p.val = 0 ∧ ready t 0 7 ∧ t.bget (pg + 0x18) 2 = true ∧ t.bget (pg + 0x18) 0 = true ∧ unreferenced t))) ∧
    (∀ (l : Fin 42) (margin : Byte), 2 ≤ st → x.nak = false → x.swap = false → x.rxGood ≤ 42 → margin.toNat < 0x20 →
      (if s.bget (pg + 0x44) 28 then 32 else 40) < x.txGood → completes (.laneSpared p l margin true) s (fun t =>
        (∀ i, i < 42 → t.reg (laneReg p.val i) = s.reg (laneReg p.val i)) ∧ t.nir p.val = { x with txGood := x.txGood - 1, swap := true } ∧
        t.fget (pg + 0x44) 21 16 = min x.rxGood (x.txGood - 1) ∧ t.bget (pg + 0x18) 2 = true ∧ linkState t p.val = st ∧ frame t)) ∧
    (∀ (port : Fin 4) (d : Word) (page : Page) (fs : List RField), st = 0 → populated s p.val = true → transitUp s = true → getB d 3 = true →
      Serves s (pg + 0x40) page fs → completes (.bar0RegisterWrite port false (pg + 0x40) [(15, d)] false) s (fun t =>
        linkState t p.val = (if getB d 0 = true ∧ getB d 2 = false then 1 else 0) ∧ onlyRegsAt (fun o => o = pg + 0x40 ∨ o = pg + 0x44) s t)) ∧
    (x.swap = true → x.tx = [] → x.transit = [] → completes (.laneSwapSlotEnd p) s (fun t =>
      t.nir p.val = { x with swap := false } ∧ otherNirs s t p ∧ t = { s with nirdors := t.nirdors })) ∧
    (∀ locked, populated s p.val = true → (locked = true → 2 ≤ st) → completes (.refLockChange p locked) s (fun t =>
      t.bget (pg + 0x44) 29 = locked ∧ sameRegs (fun o => o = pg + 0x44) s t ∧
      t.clocks = (if locked = false ∧ s.fget (pClock + 0x40) 11 8 = p.val then { s.clocks with eligible := false } else s.clocks) ∧
      t = { s with regs := t.regs, clocks := t.clocks })) ∧
    (∀ v, completes (.engineNumberWrite v) s (fun t =>
      engineNumber t = getF v 15 0 ∧ engineValid t = true ∧ onlyRegsAt (fun o => o = pGlobal + 0x68) s t))

/-- R354, R357, R359 to R361, R367, R368: frames are accepted in order, freed when acknowledged and resent; a message to a port becomes a
packet whose header comes from its export entry; a packet for another engine goes on through a candidate port or is dropped. The
model's reading: an error in the header line as a port takes it from its buffers gives arbitrary fields (log 31); here no line has one. -/
def Obligations.NirdorPortsCarryPackets : Prop :=
  ∀ (s : State) (p : Fin 16),
    let pg := pNirdor p.val 0
    let x := s.nir p.val
    let direct := s.bget (pRing + 0x40) 0 = false
    (linkState s p.val = 3 → x.tx = [] → x.transit = [] →
      (∀ seq h data, seq = x.rxSeq → completes (.frameReceive p (some (seq, true, h, data)) none) s (fun t =>
        t.nir p.val = { x with rxSeq := (x.rxSeq + 1) % 65536, nak := false, arrived := x.arrived ++ [packetOf h.toNat data] } ∧
        t.reg (pg + 0x60) = s.reg (pg + 0x60) + 1#32 ∧ t.out = s.out ++ [.frameAck p.val seq] ∧ otherNirs s t p ∧
        t = { s with regs := t.regs, nirdors := t.nirdors, out := t.out })) ∧
      (∀ seq ok h data, (ok = false ∨ seq ≠ x.rxSeq) → completes (.frameReceive p (some (seq, ok, h, data)) none) s (fun t =>
        t.nir p.val = { x with nak := true } ∧ t.out = s.out ++ (if x.nak then [] else [.frameNak p.val x.rxSeq]) ∧ otherNirs s t p ∧
        t = { s with nirdors := t.nirdors, out := t.out })) ∧
      (∀ pre f post, x.replay = pre ++ f :: post → (∀ g ∈ pre, g.seq ≠ f.seq) → completes (.frameReceive p none (some f.seq)) s (fun t =>
        t.nir p.val = { x with replay := post } ∧ otherNirs s t p ∧ t = { s with nirdors := t.nirdors }))) ∧
    (∀ pre f post conds, linkState s p.val = 3 → x.swap = false → x.replay = pre ++ f :: post → (∀ g ∈ pre, g.seq ≠ f.seq) →
      (∀ cs ∈ conds, Cond.bad ∉ cs ∧ Cond.wrong ∉ cs) → completes (.frameReplay p (some f.seq) conds) s (fun t =>
        t.nir p.val = { x with replay := pre ++ (f :: post).map (fun g => { g with resent := g.resent + 1 }) } ∧
        t.out = s.out ++ (f :: post).map (fun g => .frame p.val g.seq g.pkt.bytes) ∧
        t.reg (pg + 0x68) = s.reg (pg + 0x68) + BitVec.ofNat 32 (post.length + 1) ∧ otherNirs s t p ∧
        t = { s with regs := t.regs, nirdors := t.nirdors, out := t.out })) ∧
    (∀ (src : SID) (vc : Fin 4) conds pre m post, populated s p.val = true → transitUp s = true →
      takeMsg (fun m => m.dst = .nirdor p.val && !m.isAck && m.vc = vc.val &&
        (if portWaits s p.val vc.val then m.waiting else m.src = src)) [] s.mesh = some (pre, m, post) →
      m.req = false → m.cut = false → Cond.bad ∉ conds → Cond.wrong ∉ conds →
      let e := fld m.tag.toNat 9 0
      let block := m.src.toNat % 2048 = 0x7FF
      let next := expNext s p.val e
      let key := getF (expW s p.val e 0) 11 0
      let dest := getF (expW s p.val e 1) 31 16
      let via := chooseVia s p.val e next key dest
      let target := if direct ∧ via ≠ engineNumber s ∧ via ≠ 0xFFFF ∧ via ≠ dest then via else dest
      let cs := candidates s target
      let q := nth 0 cs ((next + key) % cs.length)
      (expValid s p.val e = false → completes (.packetBuild p src vc conds) s (fun t =>
        t.bget (pg + 0x18) 5 = true ∧ t.reg (pg + 0x88) = s.reg (pg + 0x88) + 1#32 ∧ sameMemory s t ∧ t.nirdors = s.nirdors)) ∧
      (expValid s p.val e = true → (getF (expW s p.val e 3) 31 24 ≤ (65536 + next - expDone s p.val e) % 65536 ∨ e ∈ x.expLost) →
        completes (.packetBuild p src vc conds) s (fun t => t = { s with mesh := pre ++ { m with waiting := true } :: post })) ∧
      (expValid s p.val e = true → (65536 + next - expDone s p.val e) % 65536 < getF (expW s p.val e 3) 31 24 → e ∉ x.expLost →
        dest ≠ engineNumber s → cs ≠ [] → m.payload ≠ [] → sendsAtOnce s q → completes (.packetBuild p src vc conds) s (fun t => ∃ k : Packet,
          (t.nir q).replay = (s.nir q).replay ++ [⟨(s.nir q).txSeq, k, 0⟩] ∧
          t.out = s.out ++ [.frame q (s.nir q).txSeq k.bytes] ∧ k.destEngine = dest ∧ k.srcEngine = engineNumber s ∧ k.via = via ∧ k.flowSeq = next ∧
          k.orderKey = key ∧ k.attempt = (s.reg (pRun + 0x44)).toNat % 16 ∧ k.destPort = getF (expW s p.val e 0) 25 22 ∧
          k.pkind = getF (expW s p.val e 0) 28 26 ∧ k.ordered = getB (expW s p.val e 0) 30 ∧ k.ackReq = decide block ∧
          k.ea = BitVec.ofNat 48 (getF (expW s p.val e 2) 31 5 * 32 + 2 ^ 32 * getF (expW s p.val e 3) 15 0 + (if block then 0 else m.ea.toNat)) ∧
          k.srcSid = m.src ∧ k.seq = m.seq ∧ k.srcExport = e ∧ k.srcPort = p.val ∧ k.hops = 0 ∧
          (k.pkind ≠ 3 → k.payload = m.payload) ∧ (k.pkind = 3 → k.payload = [] ∧ k.arg = (m.payload.headD {}).data.setWidth 32) ∧
          expNext t p.val e = (next + 1) % 65536 ∧ (block → (t.nir p.val).sends = x.sends ++ [⟨e, next, m.src, m.tag, m.seq, m.ea⟩]) ∧
          t.mesh = pre ++ post ∧ sameMemory s t))) ∧
    (∀ k v conds, takesPacket s p (fun k => k.destEngine != engineNumber s) k v → direct → Cond.bad ∉ conds → Cond.wrong ∉ conds →
      let phase := k.phase || decide (k.via = engineNumber s)
      let target := if phase = false ∧ k.via ≠ 0xFFFF ∧ k.via ≠ k.destEngine then k.via else k.destEngine
      let cs := candidates s target
      let q := nth 0 cs ((k.flowSeq + k.orderKey) % cs.length)
      (cs = [] → completes (.packetRelay p conds) s (fun t => t.reg (pRing + 0x90) = s.reg (pRing + 0x90) + 1#32 ∧ t.bget (pRing + 0x18) 0 = true ∧
        t.nirdors = v.nirdors ∧ t = { v with regs := t.regs })) ∧
      (cs ≠ [] → k.hops < 31 → sendsAtOnce v q → completes (.packetRelay p conds) s (fun t =>
        (t.nir q).replay = (v.nir q).replay ++ [⟨(v.nir q).txSeq, { k with phase := phase, hops := k.hops + 1 }, 0⟩] ∧
        t.reg (pRing + 0x88) = s.reg (pRing + 0x88) + 1#32 ∧ t = { s with regs := t.regs, nirdors := t.nirdors, out := t.out })))

/-- R358, R362 to R365, R371, R376: packets are judged at their import entry, delivered into the mesh in order, acknowledged and credited;
a flow without progress is lost; export and import entries take writes. The model's reading: the TAG and EA of the acknowledgement packet of a
packet that another engine sent come with the command, for no field of the packet holds them (log 31). -/
def Obligations.NirdorFlowsDeliverInOrder : Prop :=
  ∀ (s : State) (p : Fin 16),
    let me := engineNumber s
    let x := s.nir p.val
    (∀ k v, takesPacket s p (fun k => k.destEngine = me && k.pkind != 4 && k.pkind != 5) k v → k.pkind < 4 → populated s k.destPort = true →
      let q := k.destPort
      let e := k.orderKey
      let d := (65536 + k.flowSeq - impNext s q e) % 65536
      let good := getB (impW s q e 0) 31 = true ∧ getF (impW s q e 0) 15 0 = k.srcEngine
      let fresh := impRun s q e = false ∨ k.attempt = (s.reg (pRun + 0x44)).toNat % 16
      let unseen := d < 256 ∧ k.flowSeq ∉ SMap.get (fun _ => []) (v.nir q).seen e
      (¬ good → completes (.packetReceive p) s (fun t => t.bget (pNirdor q 0 + 0x18) 5 = true ∧ t = { v with regs := t.regs })) ∧
      (good → ¬ fresh → completes (.packetReceive p) s (fun t => t.bget (pNirdor q 0 + 0x18) 4 = true ∧
        t.reg (pNirdor q 0 + 0x80) = s.reg (pNirdor q 0 + 0x80) + 1#32 ∧ t = { v with regs := t.regs })) ∧
      (good → fresh → ¬ unseen → completes (.packetReceive p) s (fun t => t.bget (pNirdor q 0 + 0x18) 5 = true ∧ t = { v with regs := t.regs })) ∧
      (good → fresh → unseen → (k.ordered = false ∨ d = 0) → completes (.packetReceive p) s (fun t =>
        (t.nir q).rx = (v.nir q).rx ++ [k] ∧ (t.nir q).held = (v.nir q).held ∧
        SMap.get (fun _ => []) (t.nir q).seen e = SMap.get (fun _ => []) (v.nir q).seen e ++ [k.flowSeq] ∧ t = { v with nirdors := t.nirdors })) ∧
      (good → fresh → unseen → k.ordered = true → d ≠ 0 → completes (.packetReceive p) s (fun t =>
        (t.nir q).rx = (v.nir q).rx ∧ (t.nir q).held = (v.nir q).held ++ [(e, k)] ∧ t = { v with nirdors := t.nirdors }))) ∧
    (∀ k rest, x.rx = k :: rest → k.orderKey ∉ x.impLost → k.ackReq = false → k.pkind = 2 → k.payload ≠ [] → k.flowSeq = impNext s p.val k.orderKey →
      SMap.get (fun _ => []) x.seen k.orderKey = [k.flowSeq] → (∀ y ∈ rest, ¬ (y.orderKey = k.orderKey)) → (∀ y ∈ x.held, y.1 ≠ k.orderKey) →
      mappedLines s none k.ea.toNat k.payload.length = true → unitOut s k.ea.toNat k.payload.length = none → routesWhole s →
      ∀ sent cond, completes (.packetDeliver p sent cond) s (fun t => (t.nir p.val).rx = rest ∧ impNext t p.val k.orderKey = (k.flowSeq + 1) % 65536 ∧
        (∃ m : Msg, t.mesh = s.mesh ++ [m] ∧ m.dst = eaDest (decodeEA s k.ea.toNat) ∧ m.kind = 2 ∧ m.vc = 0 ∧ m.ea = k.ea ∧ m.tag = k.tag ∧
          m.arg = k.arg ∧ m.payload = k.payload ∧ m.seq = 0xFF ∧ m.src = srcCode (0xC0 + p.val)) ∧
        t.reg (pNirdor p.val 0 + 0x78) = s.reg (pNirdor p.val 0 + 0x78) + 1#32 ∧ sameMemory s t)) ∧
    (∀ (e : Fin 4096) k, SMap.get (fun _ => none) x.flows e.val = some k →
      (impNext s p.val e.val ≠ SMap.get (fun _ => 0) x.reported e.val ∨ (∃ h ∈ x.held, h.1 = e.val) ∨ ∃ y ∈ x.rx, y.orderKey = e.val) →
      ∀ cond, completes (.creditSend p e cond) s (fun t => ∃ (y : Packet) (u : State), t = routePacket u false y [cond] ∧ y.pkind = 5 ∧ y.destEngine = k.srcEngine ∧
        y.srcEngine = me ∧ y.destPort = k.srcPort ∧ y.srcExport = k.srcExport ∧ y.arg = BitVec.ofNat 32 (impNext s p.val e.val) ∧ y.payload = [] ∧
        u.nir p.val = { x with reported := SMap.set (fun _ => 0) x.reported e.val (impNext s p.val e.val) } ∧
        u = { s with nirdors := u.nirdors, freeCtr := u.freeCtr })) ∧
    (∀ k v, takesPacket s p (fun k => k.destEngine = me && k.pkind = 5) k v → populated s k.destPort = false → completes (.creditReceive p) s (fun t =>
      t.bget (pNirdor p.val 0 + 0x18) 5 = true ∧ t = { v with regs := t.regs })) ∧
    (∀ k v, takesPacket s p (fun k => k.destEngine = me && k.pkind = 5) k v → populated s k.destPort = true → completes (.creditReceive p) s (fun t =>
      let old := expDone s k.destPort k.srcExport
      expDone t k.destPort k.srcExport = (if (65536 + getF k.arg 15 0 - old) % 65536 < 32768 then getF k.arg 15 0 else old) ∧
      expNext t k.destPort k.srcExport = expNext s k.destPort k.srcExport ∧ t = { v with nirdors := t.nirdors })) ∧
    (∀ (src : SID) m k, s.mesh = [m] → m.dst = .nirdor p.val → m.isAck = true → m.src = src → m.waiting = false →
      x.slots.find? (fun k => k.1 = m.seq) = some k →
      ∀ sent cond, completes (.ackPacketSend p src sent cond) s (fun t => ∃ (y : Packet) (u : State), t = routePacket u false y [cond] ∧ y.pkind = 4 ∧
        y.destEngine = k.2.srcEngine ∧ y.destPort = k.2.srcPort ∧ y.srcSid = k.2.srcSid ∧ y.seq = k.2.seq ∧
        y.orderKey = k.2.orderKey ∧ y.srcExport = k.2.srcExport ∧ y.arg = (if getB m.arg 0 then 1#32 else 0#32) ∧
        (∀ r, ownRecord s k.2 = some r → y.tag = r.tag ∧ y.ea = r.cookie) ∧ (ownRecord s k.2 = none → y.tag = sent.1 ∧ y.ea = sent.2) ∧
        (u.nir p.val).slots = x.slots.filter (fun y => y.1 != m.seq) ∧ u.mesh = [] ∧ sameMemory s u)) ∧
    (∀ k v r d, takesPacket s p (fun k => k.destEngine = me && k.pkind = 4) k v →
      (v.nir k.destPort).sends.find? (fun r => r.exp = k.srcExport && r.src = k.srcSid && r.tag = k.tag && r.seq = k.seq && r.cookie = k.ea) = some r →
      populated s k.destPort = true → k.srcSid.toNat % 2048 = 0x7FF → codeDest (k.srcSid.toNat / 2048) = some d → routesWhole s → completes (.ackPacketReceive p) s (fun t =>
        (∃ m : Msg, t.mesh = s.mesh ++ [m] ∧ m.dst = d ∧ m.isAck = true ∧ m.tag = k.tag ∧ m.ea = k.ea ∧ m.seq = k.seq ∧
          m.arg = (if getB k.arg 0 then 1#32 else 0#32)) ∧
        (t.nir k.destPort).sends.length + 1 = (v.nir k.destPort).sends.length ∧ sameMemory s t)) ∧
    (∀ (e : Fin 4096), s.fget (pNirdor p.val 0 + 0x4C) 15 0 ≠ 0 → populated s p.val = true → s.running = false →
      let last := fun (t : State) (cause : Nat) => s.bget (pNirdor p.val 0 + 0x50) 31 = false →
        t.bget (pNirdor p.val 0 + 0x50) 31 = true ∧ t.fget (pNirdor p.val 0 + 0x50) 30 28 = cause
      let rest := fun (t : State) => t.bget (pNirdor p.val 0 + 0x18) 3 = true ∧ otherNirs s t p ∧ t = { s with regs := t.regs, nirdors := t.nirdors }
      (gapAt s p.val e.val = true → e.val ∉ x.impLost → completes (.remoteLoss p 1 e) s (fun t =>
        t.nir p.val = { x with impLost := x.impLost ++ [e.val] } ∧ last t 1 ∧ rest t)) ∧
      (expNext s p.val e.val ≠ expDone s p.val e.val → e.val ∉ x.expLost → answered s p.val 2 e.val = false → completes (.remoteLoss p 2 e) s (fun t =>
        t.nir p.val = { x with expLost := x.expLost ++ [e.val] } ∧ last t 2 ∧ rest t)) ∧
      ((∃ r ∈ x.sends, r.exp = e.val) → e.val ∉ x.expLost → answered s p.val 3 e.val = false → completes (.remoteLoss p 3 e) s (fun t =>
        t.nir p.val = { x with expLost := x.expLost ++ [e.val] } ∧ last t 3 ∧ rest t))) ∧
    (∀ (v : Word), 2 ≤ s.readyState (pNirdor p.val 0) → s.running = false →
      let e := s.fget (pNirdor p.val 0 + 0xA0) 9 0
      (∀ i : Fin 8, completes (.exportEntryWrite p false i v) s (fun t =>
        expW t p.val e i.val = (expW s p.val e i.val &&& ~~~entryMask false i.val) ||| (v &&& entryMask false i.val) ∧
        (∀ g j, j < 8 → ¬ (g = e ∧ j = i.val) → expW t p.val g j = expW s p.val g j) ∧ (t.nir p.val).imp = x.imp ∧
        t = { s with nirdors := t.nirdors }))) ∧
    (∀ (v : Word), 2 ≤ s.readyState (pNirdor p.val 0) →
      let e := s.fget (pNirdor p.val 0 + 0xA4) 11 0
      (s.running = false → completes (.exportEntryWrite p true 0 v) s (fun t =>
        impW t p.val e 0 = (impW s p.val e 0 &&& ~~~0xEFFFFFFF#32) ||| (v &&& 0xEFFFFFFF#32) ∧ impW t p.val e 1 = impW s p.val e 1 ∧
        (∀ g j, j < 2 → g ≠ e → impW t p.val g j = impW s p.val g j) ∧ (t.nir p.val).exp = x.exp ∧ t = { s with nirdors := t.nirdors })) ∧
      (∀ i, s.running = true → impRun s p.val e = true → completes (.exportEntryWrite p true i v) s (fun t =>
        t.bget (pNirdor p.val 0 + 0x18) 5 = true ∧ onlyRegsAt (fun o => o = pNirdor p.val 0 + 0x18 ∨ o = pNirdor p.val 0 + 0x1C) s t)))

/-- R405 to R412, R415 to R420: the root source is lost, requalified, selected and switched; the dividers move; the timebase ticks and loads. The
model's readings (logs 25, 32): a fall back is a switch to the XO after the designated port had been selected, a write of the same REF_SEL and REF_PORT
keeps the port's eligibility, a later write takes the place of one that waits, and TB_LOAD_GO is judged and done in one step. -/
def Obligations.ClocksSwitchAndTick : Prop :=
  ∀ (s : State),
    let st := pClock + 0x44
    let ev := fun (t : State) (i : Nat) => t.bget (pClock + 0x18) i = true
    let frame := fun (t : State) => t = { s with regs := t.regs, clocks := t.clocks }
    let served := pageOut s ⟨.clock, pClock, 5, 0, 0⟩ 0x40 = false
    let open_ := fun (t : State) => t.bget st 31 = true ∧ t.fget st 28 27 = 0 ∧ t.reg (pTb + 0x48) = 5#32 ∧
      t.reg (pClock + 0x50) = s.reg (pClock + 0x50) + 1#32
    let lost := fun (t : State) => open_ t ∧ ev t 0 ∧ t.reg (pClock + 0x60) = s.reg (pTb + 0x40) ∧ t.reg (pClock + 0x64) = s.reg (pTb + 0x44) ∧ frame t
    (∀ old, curSource s = .xo → refSel s = false → completes (.refLost false old) s (fun t =>
      lost t ∧ xoArmed t = false ∧ rootSource t = 0 ∧ t.clocks.target = none ∧ t.clocks.leaving = .xo ∧ t.clocks.oldRuns = false)) ∧
    (∀ p range old, curSource s = .port p → xoArmed s = true → completes (.refLost range old) s (fun t =>
      lost t ∧ rootSource t = 3 ∧ t.clocks.target = some .xo ∧ t.clocks.leaving = .port p ∧ t.clocks.oldRuns = range ∧
      t.clocks.eligible = false ∧ t.clocks.fellBack = (s.clocks.fellBack || s.clocks.hadPort))) ∧
    (∀ old, curSource s = .xo → completes (.refLost true old) s (fun t => t = s)) ∧
    (∀ p q, curSource s = .none → s.clocks.target = some (.port p) → p ≠ q → s.clocks.leaving = .port q → completes (.refLost false true) s (fun t =>
      t.clocks = { s.clocks with oldRuns := false } ∧ t = { s with clocks := t.clocks })) ∧
    (xoArmed s = false → transitUp s = true → completes .xoArmed s (fun t => xoArmed t = true ∧ ev t 4 ∧ frame t ∧
      (curSource s = .none → refSel s = false → switching s = false →
        rootSource t = 3 ∧ t.clocks = { s.clocks with target := some .xo, relocking := false,
                                                      fellBack := s.clocks.fellBack || s.clocks.hadPort }))) ∧
    (∀ p, curSource s = .port p → completes (.xoLost false) s (fun t => xoArmed t = false ∧ (xoArmed s = true → ev t 3) ∧ onlyRegs s t ∧
      t.clocks = s.clocks)) ∧
    (served → completes .xoRequal s (fun t => xoArmed t = false ∧ onlyRegsAt (fun o => o = st) s t)) ∧
    (∀ sel (port : Fin 16), served →
      (switching s = true → completes (.refSelectWrite sel port) s (fun t => (t.clocks.waitSel.map (fun v => (getB v 7, getF v 11 8))) = some (sel, port.val) ∧
        t.clocks = { s.clocks with waitSel := t.clocks.waitSel } ∧ t = { s with clocks := t.clocks })) ∧
      (switching s = false → completes (.refSelectWrite sel port) s (fun t => refSel t = sel ∧ refPort t = port.val ∧ t.clocks.waitSel = none ∧
        (¬ (sel = true ∧ refSel s = true ∧ refPort s = port.val) → t.clocks.fellBack = false ∧ t.clocks.eligible = false) ∧ frame t))) ∧
    (∀ port : Fin 16, refSel s = true → refPort s = port.val → s.bget (pNirdor port.val 0 + 0x44) 29 = true → populated s port.val = true →
      completes (.portEligible port) s (fun t => t.clocks.eligible = true ∧ frame t ∧
        (switching s = false → curSource s = .xo → s.clocks.fellBack = false →
          open_ t ∧ rootSource t = 3 ∧ t.clocks.target = some (.port port.val) ∧ t.clocks.leaving = .xo ∧
          t.clocks.oldRuns = true))) ∧
    (∀ x, s.clocks.target = some x →
      let closed := fun (t : State) => t.clocks.target = none ∧ t.clocks.relocking = true ∧ frame t ∧ (x = .xo → rootSource t = 1) ∧
        (∀ p, x = .port p → rootSource t = 2 ∧ rootPort t = p % 16)
      (s.clocks.oldRuns = true → completes .sourceSwitch s closed ∧ completes .forcedSwitch s (fun t => t = s)) ∧
      (s.clocks.oldRuns = false → completes .sourceSwitch s (fun t => t = s) ∧ completes .forcedSwitch s (fun t => closed t ∧ ev t 2 ∧ t.bget st 29 = true ∧ t.reg (pClock + 0x58) = s.reg (pClock + 0x58) + 1#32))) ∧
    (s.clocks.relocking = true → s.clocks.target = none → chooseSource s = some (curSource s) →
      (s.clocks.waitSel = none → completes .relocked s (fun t => t.bget st 31 = false ∧ t.fget st 28 27 = 3 ∧ ev t 1 ∧ frame t ∧
        t.clocks = { s.clocks with relocking := false } ∧ t.reg (pTb + 0x48) = (if rootSource s = 2 then 0#32 else 4#32))) ∧
      (∀ v, s.clocks.waitSel = some v → completes .relocked s (fun t => ev t 1 ∧ refSel t = getB v 7 ∧ refPort t = getF v 11 8 ∧
        t.clocks.waitSel = none ∧ frame t))) ∧
    (∀ south, completes (.divChange south) s (fun t =>
      t.fget st (if south then 14 else 10) (if south then 12 else 8) = wantDiv s south ∧
      (s.fget st (if south then 14 else 10) (if south then 12 else 8) ≠ wantDiv s south → ev t 5) ∧
      onlyRegsAt (fun o => o = st ∨ o = pClock + 0x18 ∨ o = pClock + 0x1C) s t)) ∧
    completes .timebaseTick s (fun t =>
      t.tb = (if transitUp s then (s.tb + if s.fget (pTb + 0x48) 1 0 = 0 then 1 else 2) % 2 ^ 64 else s.tb) ∧
      onlyRegsAt (fun o => o = pTb + 0x40 ∨ o = pTb + 0x44) s t) ∧
    (let l := (s.reg (pTb + 0x50)).toNat + 2 ^ 32 * (s.reg (pTb + 0x54)).toNat
     let ahead := 1 ≤ (2 ^ 64 + l - s.tb) % 2 ^ 64 ∧ (2 ^ 64 + l - s.tb) % 2 ^ 64 < 2 ^ 63
     pageOut s ⟨.timebase, pTb, 7, 0, 0⟩ 0x58 = false → completes .tbLoadGo s (fun t =>
      t.tb = (if ahead then l else s.tb) ∧ (ahead → t.bget (pTb + 0x18) 0 = true) ∧ (¬ ahead → t.bget (pTb + 0x18) 1 = true) ∧
      onlyRegsAt (fun o => o = pTb + 0x40 ∨ o = pTb + 0x44 ∨ o = pTb + 0x18 ∨ o = pTb + 0x1C) s t))

/-- R424 to R429, R437, R286: what each class of reset restores and what it keeps, which requests are refused, and what RESET_DONE records. The
model's readings: what an ENGINE reset keeps of strokes that still owe or await an entry (log 20), that the bobbin's messages in the mesh are what
it has not accepted (log 33), and what spill regions hold after RUN_ABORT (log 29). -/
def Obligations.ResetsRestoreTheirScope : Prop :=
  ∀ (s : State), s.fits →
    let status := fun (t : State) (cls f : Nat) => t.reg (pReset + 0x44) = BitVec.ofNat 32 (2 ^ 31 + cls * 256 + f)
    let idle := resetBusy s = false
    let asked := s.inputOn = true ∧ 2 ≤ s.readyState pReset
    let refused := fun (t : State) => t.bget (pReset + 0x18) 1 = true ∧ onlyRegsAt (fun o => o = pReset + 0x18 ∨ o = pReset + 0x1C) s t
    (asked → completes (.coldReset 1) s (fun t =>
      t = { State.reset with fuses := s.fuses, belfry := t.belfry, out := s.out, freeCtr := s.freeCtr, pending := s.pending, inputOn := true,
                             rstSource := 1, straps := s.straps } ∧
      t.belfry.softMap = s.belfry.softMap ∧ t.belfry.flashLog = s.belfry.flashLog ∧ t.belfry.slotA = s.belfry.slotA ∧
      t.belfry.slotB = s.belfry.slotB ∧ t.belfry.captures = s.belfry.captures ∧ t.belfry.policy = s.belfry.policy ∧
      t.belfry.suspects = s.belfry.suspects ∧ t.belfry.probes = s.belfry.probes ∧ t.belfry.ramLog = [] ∧ t.belfry.session = none ∧
      t.belfry.held = [] ∧ t.belfry.failed = [])) ∧
    (asked → idle → completes (.engineReset 1) s (fun t =>
      status t 1 0 ∧ t.start = .testing ∧ t.bget (pClock + 0x44) 26 = true ∧ t.rstSource = 1 ∧ t.runState = 0 ∧ t.run.starts = [] ∧
      t.run.chimes = [] ∧ t.run.chans = [] ∧ t.run.taken = s.run.taken ∧ t.reg (pRun + 0x48) = s.reg (pRun + 0x48) ∧
      (∀ k ∈ t.run.strokes, k.stage = .reserved ∨ k.stage = .recorded ∨ k.owed.isSome = true) ∧ t.run.digests = s.run.digests ∧
      (∀ f, f < 64 → t.readyState (pField f) = 0 ∧ (t.pow f).computeOff = true ∧ (t.bobbin f).merges = [] ∧ (t.fmap f).c = 0) ∧
      (∀ a, a < 0x40000000000 → readByte t a = readByte s a) ∧ t.links = s.links ∧ t.fuses = s.fuses)) ∧
    (∀ f : Fin 64, asked →
      (idle → ¬ (usesField s f.val = true ∧ (s.runState = 1 ∨ s.runState = 3 ∨ s.runState = 4)) →
        completes (.fieldReset 1 f) s (fun t =>
          status t 2 f.val ∧ t.rstSource = 1 ∧ t.readyState (pField f.val) = 0 ∧ (t.pow f.val).computeOff = true ∧
          (∀ n, s.fieldOf n = f.val → (t.spin n).vregs = [] ∧ (t.spin n).la = [] ∧ (t.spin n).ip = [] ∧ ∀ k, k < 4 → (t.spin n).loaded k = false) ∧
          (∀ n, s.fieldOf n ≠ f.val → t.spin n = s.spin n) ∧ (∀ a, a < 0x40000000000 → readByte t a = readByte s a) ∧
          t.mesh = s.mesh.filter (fun m => !(decide (m.src = reelSrc f.val) && decide (m.dst = Dest.reel f.val)) && decide (m.dst ≠ Dest.bobbin f.val)) ∧
          (f.val ∈ t.belfry.held ↔ f.val ∈ s.belfry.held ∧ f.val ∉ s.belfry.heatHeld) ∧ t.run.starts = s.run.starts ∧ t.runState = s.runState)) ∧
      (¬ idle ∨ (usesField s f.val = true ∧ (s.runState = 1 ∨ s.runState = 3 ∨ s.runState = 4)) →
        completes (.fieldReset 1 f) s refused)) ∧
    (∀ cycle, asked →
      (idle → 1 ≤ s.runState → s.runState ≤ 5 → (s.runState = 5 ∨ ∀ k ∈ s.run.strokes, k.owed = none) → s.run.ackApplied = false → s.bget (pRun + 0x40) 13 = false →
        completes (.runAbortReset cycle []) s (fun t => status t 3 0 ∧ t.rstSource = 1 ∧ t.runState = 5 ∧ t.run.acking = true ∧
          t.run.ackApplied = drained s ∧ t.reg (pRun + 0x44) = s.reg (pRun + 0x44) + BitVec.ofNat 32 (drained s).toNat ∧
          (drained s = false → sameMemory s t) ∧ (∀ l, markOf t l = markOf s l) ∧
          (∀ a, (∀ x ∈ s.run.starts, ∀ k q i, k < 4 → q < 8 → i < spSize (s.spin x.1) k q →
              a < storeAddr x.1 (spBase (s.spin x.1) k q + i) ∨ storeAddr x.1 (spBase (s.spin x.1) k q + i) + 32 ≤ a) →
            readByte t a = readByte s a))) ∧
      (s.run.acking = false → ¬ idle ∨ s.runState = 0 → completes (.runAbortReset cycle []) s refused)) ∧
    (let cls := s.fget (pReset + 0x44) 9 8
     let f := s.fget (pReset + 0x44) 5 0
     resetBusy s = true → (cls ≤ 1 → s.start = .done) → (cls = 2 → 2 ≤ s.readyState (pField f)) → (cls = 3 → s.run.acking = false) →
      completes .resetDone s (fun t => resetBusy t = false ∧ t.bget (pReset + 0x18) 0 = true ∧
        t.fget (pReset + 0x48) 31 30 = cls ∧ t.fget (pReset + 0x48) 29 26 = s.rstSource % 16 ∧ t.fget (pReset + 0x48) 25 20 = f ∧
        (cls ≠ 0 → t.reg (pReset + 0x50) = s.reg (pReset + 0x50) + 1#32) ∧ t = { s with regs := t.regs, belfry := t.belfry }))

/-- R430 to R437, R439, R448, R500: power comes on, the Belfry boots, the transit rails come on, the fuse sheet is read, fields are tested one
after another and mapped or left out, start-up ends, and a trial slot is confirmed. The model's readings: the count C_MAX and the map come with the
command and are judged, and a count of zero offered columns leaves every field out (log 26); a field whose fuse tripped stays off (log 33). -/
def Obligations.StartUpTestsAndMaps : Prop :=
  ∀ (s : State),
    let pages := fun (f : Nat) => computePages f ++ transitPages f ++ bobPages f
    (s.inputOn = true → s.start = .off → completes .powerOn s (fun t =>
      t = { State.reset with fuses := s.fuses, belfry := t.belfry, out := s.out, freeCtr := s.freeCtr, pending := s.pending,
                             inputOn := true, rstSource := 0, straps := s.straps } ∧ t.start = .booting)) ∧
    (s.inputOn = true → s.start = .booting → s.belfry.trial = none →
      (∀ upA upB, (if s.belfry.preferred then upB else upA) = true → slotOk s (slotOf? s.belfry s.belfry.preferred) = true →
        completes (.belfryBoot upA upB) s (fun t => t.start = .belfryUp ∧ belfryUp t = true ∧ runSlot t = s.belfry.preferred ∧
          (∀ w, slotOf? s.belfry s.belfry.preferred = some w → t.reg (pMbox 0 + 0x44) = w.version) ∧ t.belfry.boots = s.belfry.boots + 1 ∧
          t.bget (pMbox 0 + 0x40) 28 = decide (s.belfry.pending = some (!s.belfry.preferred)) ∧
          (∀ f, f < 64 → t.readyState (pPower f) = 3) ∧ t = { s with start := .belfryUp, regs := t.regs, belfry := t.belfry })) ∧
      completes (.belfryBoot false false) s (fun t => t.start = .recovery ∧ t.bget (pMbox 0 + 0x40) 26 = true ∧ belfryUp t = belfryUp s ∧
        t.fuses = s.fuses)) ∧
    (s.inputOn = true → s.start = .belfryUp → completes .transitOn s (fun t => t.start = .transitOn ∧ t.readyState pGlobal = 3 ∧
      t.readyState pRun = 3 ∧ (∀ k, k < 9 → t.readyState (pMbox k) = 3) ∧ t = { s with start := .transitOn, regs := t.regs })) ∧
    (s.start = .transitOn → s.fget (pClock + 0x44) 28 27 = 3 →
      (s.fuses.ok = true → completes (.fuseSheetRead false) s (fun t => t.start = .testing ∧ t.readyState pFuse = 3 ∧
        t.fget (pGlobal + 0x48) 7 0 = s.fuses.grade % 256 ∧ t.reg (pGlobal + 0x40) = s.fuses.id.setWidth 32 ∧
        t.reg (pGlobal + 0x44) = (s.fuses.id >>> 32).setWidth 32 ∧ t.reg (pGlobal + 0x4C) = BitVec.ofNat 32 (1024 * 65536 + 8 * gradeCols s) ∧
        t.reg (pFuse + 0x44) = BitVec.ofNat 32 s.fuses.records.length ∧ t.fget (pGlobal + 0x50) 31 0 = (if provisionalCols s = 0 then 0
          else 1024 * 65536 + 8 * provisionalCols s) ∧
        (∀ p, p < 16 → populated t p = false → t.readyState (pNirdor p 0) = 0 ∧ t.readyReason (pNirdor p 0) = 6) ∧
        t = { s with start := .testing, regs := t.regs })) ∧
      (s.fuses.ok = false → completes (.fuseSheetRead false) s (fun t => t.start = .testing ∧ t.readyState pFuse = 0 ∧ t.readyReason pFuse = 5 ∧
        (∀ f, f < 64 → ∀ pg ∈ pages f, t.readyState pg = 0 ∧ t.readyReason pg = 2)))) ∧
    (∀ f, testOrder.find? (fun f => s.readyState (pField f) = 0 && s.readyReason (pField f) = 1 && !tooHot s f) = some f → belfryUp s = true →
      (s.start = .testing ∨ s.start = .done) → s.fget (pFuse + 0x4C) 3 0 < 8 →
      (fieldRecord s f = false → completes .fieldTestStart s (fun t => (∀ pg ∈ pages f, t.readyState pg = 1) ∧
        t.fget (pFuse + 0x4C) 3 0 = s.fget (pFuse + 0x4C) 3 0 + 1 ∧ (t.pow f).computeOff = false ∧ (t.pow f).memOff = false ∧
        (∀ g, g < 64 → g ≠ f → t.readyState (pField g) = s.readyState (pField g)) ∧ sameMemory s t)) ∧
      (fieldRecord s f = true → completes .fieldTestStart s (fun t => (∀ pg ∈ pages f, t.readyState pg = 0 ∧ t.readyReason pg = 5) ∧
        (t.fmap f).fail = true ∧ t.fget (pFuse + 0x4C) 3 0 = s.fget (pFuse + 0x4C) 3 0 ∧
        (fuseRecord s f = true → (t.pow f).computeOff = true ∧ (t.pow f).memOff = true ∧ t.fget (pPower f + 0x68) 2 0 = 2)))) ∧
    (∀ f : Fin 64, s.readyState (pField f.val) = 1 → s.fget (pReset + 0x44) 9 8 ≤ 1 → s.start = .testing → s.bget (pFuse + 0x4C) 31 = false →
      f.val ∉ s.belfry.back → s.links = [] → s.cols = gradeCols s →
      let counted := fun (t : State) => t.fget (pFuse + 0x4C) 3 0 = s.fget (pFuse + 0x4C) 3 0 - 1 ∧
        t.fget (pFuse + 0x4C) 15 8 = min 64 (s.fget (pFuse + 0x4C) 15 8 + 1)
      (∀ m others, s.runState = 0 → colsOk s (inForce s []) f.val 0 = true → completes (.fieldTestDone f [] 0 m false others) s (fun t =>
        (∀ pg ∈ pages f.val, t.readyState pg = 0 ∧ t.readyReason pg = 5) ∧ (t.fmap f.val).fail = true ∧ counted t ∧
        (gradeCols s ≠ 0 → t.fget (pGlobal + 0x50) 31 0 = 0) ∧ (∀ g, g < 64 → t.readyState (pField g) < 2))) ∧
      (∀ m noGates others, colsOk s (inForce s []) f.val 0 = false → completes (.fieldTestDone f [] 0 m noGates others) s (fun t => t = s)) ∧
      (∀ m others, (gradeCols s = 112 ∨ gradeCols s = 128 ∨ gradeCols s = 144) → mapOk s (inForce s []) f.val s.cols m = true →
        gatesOk (placeMap s (inForce s []) f.val s.cols m) f.val = true → completes (.fieldTestDone f [] s.cols m false others) s (fun t =>
          (t.fmap f.val).rows = m ∧ (t.fmap f.val).c = s.cols ∧ t.readyState (pField f.val) = 3 ∧ t.readyState (pRinger f.val) = 3 ∧
          (∀ k, k < 8 → t.readyState (pWin f.val k) = 3) ∧ counted t ∧ t.fget (pFuse + 0x100 + 4 * f.val) 31 24 = s.cols))) ∧
    (s.start = .testing → allMapped s = true → s.runState = 0 → completes .mapDone s (fun t => t.start = .done ∧
      t.bget (pFuse + 0x4C) 31 = true ∧ t.bget (pFuse + 0x18) 2 = true ∧ t.bget (pClock + 0x44) 26 = false ∧
      (let c := (List.range 64).foldl (fun a f => min a (if s.readyState (pField f) < 2 then 0 else s.fget (pFuse + 0x100 + 4 * f) 31 24)) (gradeCols s)
       t.fget (pFuse + 0x4C) 23 16 = c ∧ (c = 0 → ∀ f, f < 64 → t.readyState (pField f) = 0) ∧ (c ≠ 0 → t.maps = s.maps)) ∧
      t = { s with start := .done, regs := t.regs, maps := t.maps })) ∧
    (∀ isB w, s.belfry.trial = some isB → belfryUp s = true → runSlot s = isB → slotOf? s.belfry isB = some w → s.start = .done →
      completes (.trialConfirm true) s (fun t => t.belfry.preferred = isB ∧ t.belfry.trial = none ∧ t.fuses.ar = max s.fuses.ar w.sec ∧
        t.fget (pFuse + 0x40) 15 8 = max s.fuses.ar w.sec % 256 ∧
        t = { s with fuses := { s.fuses with ar := t.fuses.ar }, regs := t.regs, belfry := t.belfry }))

/-- R482 to R494, R453, R508: samples and what they show, failed sensors, throttling, heat, holds, trips, suspect dies, and the Belfry's log. The
model's readings: what is OUT after a switch-off, which holds a reset ends, and which trip comes first (log 34), the die policy's window (log 34),
the stamps of entries and the events that a poll logs (log 36), and the split of the hourly entry (log 28). -/
def Obligations.BelfryWatchesTheEngine : Prop :=
  ∀ (s : State), belfryUp s = true →
    let b := s.belfry
    let mb := pMbox 0
    let pt := fun (t : State) (f : Nat) => t.fget (pPower f + 0x68) 2 0
    let used := fun (f : Nat) => (usesField s f = true ∨ usesBobbin s f = true) ∧ faultState s = true
    let out := fun (t : State) (pgs : List Nat) (reason : Nat) => ∀ pg ∈ pgs, t.readyState pg = 0 ∧ t.readyReason pg = reason
    (∀ x, completes (.sensorSample x) s (fun t =>
      (∀ f j, f < 64 → j < 8 → (∀ v, nth none (nth [] x.temps f) j = some v → t.fget (pPower f + 0x40 + 4 * j) 15 0 = v.toNat) ∧
        (nth none (nth [] x.temps f) j = none → t.fget (pPower f + 0x40 + 4 * j) 15 0 = s.fget (pPower f + 0x40 + 4 * j) 15 0)) ∧
      (∀ v i, x.input = some (v, i) → t.reg (mb + 0x4C) = BitVec.ofNat 32 (i.toNat * 65536 + v.toNat)) ∧
      (∀ k ∈ allConds, SMap.get (fun _ => 0) t.belfry.counts k = (if condMet t x k then SMap.get (fun _ => 0) b.counts k + 1 else 0)) ∧
      ((∀ f, f < 64 → tooHot t f = false ∨ s.readyState (pField f) ≠ 1) →
        t = { s with regs := t.regs, belfry := { b with counts := t.belfry.counts, slotHist := t.belfry.slotHist } }) ∧
      (∀ f, f < 64 → tooHot t f = true → s.readyState (pField f) = 1 → t.readyState (pField f) = 0 ∧ t.readyReason (pField f) = 1))) ∧
    (∀ k : Fin 581, sensorFailed s k.val = false → holds s (1000 + k.val) = true →
      (k.val < 512 → ((List.range 8).filter (fun j => sensorFailed s (k.val / 8 * 8 + j))).length < 2 ∨ k.val / 8 ∈ b.held ∨ tripGoverns s = true) →
      completes (.sensorFail k) s (fun t => t.belfry.failed = b.failed ++ [k.val] ∧
        (k.val < 512 → t.bget (pPower (k.val / 8) + 0x40 + 4 * (k.val % 8)) 16 = true ∧ t.bget (pPower (k.val / 8) + 0x18) 3 = true) ∧
        t = { s with regs := t.regs, belfry := t.belfry })) ∧
    (∀ south (c : Fin 5),
      let lo := if south then 8 else 0
      let on := s.bget (mb + 0x60) (lo + c.val)
      holds s ((if south then 10 else 0) + 2 * c.val + on.toNat) = true → completes (.throttleChange south c) s (fun t =>
        t.bget (mb + 0x60) (lo + c.val) = !on ∧ (∀ i, i ≠ lo + c.val → t.bget (mb + 0x60) i = s.bget (mb + 0x60) i) ∧
        t.bget (pClock + 0x44) (if south then 19 else 18) = (t.fget (mb + 0x60) (lo + 4) lo != 0) ∧
        t = { s with regs := t.regs, belfry := t.belfry })) ∧
    (∀ f : Fin 64, holds s (100 + f.val) = true → (s.pow f.val).computeOff = false → (s.pow f.val).fuse = false → tripGoverns s = false →
      pt s f.val = 0 → s.readyState (pField f.val) ≠ 1 → hotHour s f.val < 3 → ¬ used f.val → completes (.hotOff f) s (fun t =>
        pt t f.val = 1 ∧ f.val ∈ t.belfry.hot ∧ (t.pow f.val).computeOff = true ∧ out t (gonePages f.val) 3 ∧
        (∀ k, k < 8 → t.readyState (pWin f.val k) = s.readyState (pWin f.val k)) ∧
        t.reg (pPower f.val + 0x70) = s.reg (pPower f.val + 0x70) + 1#32 ∧ t.bget (pPower f.val + 0x18) 0 = true ∧
        (∀ n, s.fieldOf n = f.val → (t.spin n).vregs = []) ∧ (∀ n, s.fieldOf n ≠ f.val → t.spin n = s.spin n) ∧
        (∀ a, a < 0x40000000000 → readByte t a = readByte s a) ∧ t.mesh.Sublist s.mesh)) ∧
    (∀ f : Fin 64, f.val ∈ b.hot → f.val ∉ b.held → holds s (200 + f.val) = true → tripGoverns s = false →
      s.start ≠ .testing → resetBusy s = false → ¬ used f.val →
      completes (.hotBack f) s (fun t => f.val ∉ t.belfry.hot ∧ f.val ∈ t.belfry.back ∧
        t.reg (pReset + 0x44) = BitVec.ofNat 32 (2 ^ 31 + 2 * 256 + f.val) ∧ t.rstSource = 2)) ∧
    (s.bget (mb + 0x40) 30 = false → holds s 20 = true → s.runState = 0 → completes .engineTrip s (fun t => t.bget (mb + 0x40) 30 = true ∧
      t.bget (mb + 0x18) 1 = true ∧ (∀ f, f < 64 → pt t f = (if (s.pow f).fuse then 2 else 3) ∧ out t (gonePages f ++ bobPages f) 2 ∧ (t.pow f).memOff = true) ∧
      t.belfry.tripRecord = true)) ∧
    (s.bget (mb + 0x40) 30 = true → holds s 22 = true → completes .tripRecovery s (fun t => t.start = .booting ∧
      t.regs = State.reset.regs ∧ t.rstSource = 2 ∧ t.belfry.tripRecord = b.tripRecord)) ∧
    (∀ (f : Fin 64) compute memory low, 9500 < compute ∨ 1200 < memory ∨ low = true → s.inputOn = true → (s.pow f.val).fuse = false →
      (s.pow f.val).memOff = false → s.readyState (pField f.val) ≠ 1 → ¬ used f.val →
      b.softMap.length < 4096 → completes (.fuseTrip f compute memory low) s (fun t => pt t f.val = 2 ∧ (t.pow f.val).fuse = true ∧
        out t (gonePages f.val ++ bobPages f.val) 4 ∧ t.reg (pPower f.val + 0x78) = s.reg (pPower f.val + 0x78) + 1#32 ∧
        t.bget (pPower f.val + 0x18) 2 = true ∧ t.belfry.softMap = b.softMap ++ [(defect 9 f.val 0 0, BitVec.ofNat 32 (6 * 2 ^ 28))] ∧
        (∀ a, a / 0x1000000000 = f.val → readByte t a = 0#8) ∧
        (∀ a, a < 0x40000000000 → a / 0x1000000000 ≠ f.val → readByte t a = readByte s a))) ∧
    (∀ (f : Fin 64) compute memory, compute ≤ 9500 → memory ≤ 1200 → completes (.fuseTrip f compute memory false) s (fun t => t = s)) ∧
    (∀ (f : Fin 64) (sl : Fin 16),
      let u := slotRise s f.val sl.val (·.2)
      bobbinOn s f.val = true → sl.val ∈ slotsOn s f.val → (b.die.uncorrLim ≤ u ∨ b.die.corrLim ≤ slotRise s f.val sl.val (·.1)) →
      u < 4 * b.die.uncorrLim → s.fget (pBob f.val 0 + 0x44) 23 20 ≠ 0 → sl.val < s.fget (pBob f.val 0 + 0x44) 19 16 →
      (s.bobbin f.val).coCopying = false → completes (.dieSuspect f sl) s (fun t => t.bget (pBob f.val 0 + 0x18) 1 = true ∧
        (t.bobbin f.val).coWaiting = (b.die.autoCo || (s.bobbin f.val).coWaiting) ∧
        (b.die.autoCo = true → t.bget (pBob f.val 0 + 0x48) 31 = true ∧ t.fget (pBob f.val 0 + 0x48) 3 0 = sl.val) ∧ sameMemory s t)) ∧
    (∀ o pg i, s.tablesWf = true → locate o = some pg → o % 4096 = 0x18 → i < 30 → s.reg o = 1#32 <<< i → s.reg (o + 4) = 0#32 →
      (∀ e ∈ s.regs, e.1 % 4096 = 0x18 ∨ e.1 % 4096 = 0x1C → e.1 = o) → SMap.get (fun _ => 0#32) b.polled o = 0#32 → b.ramLog.length < 2048 →
      completes .logPoll s (fun t => (∃ e : LogEntry, t.belfry.ramLog = b.ramLog ++ [e] ∧ e.code = i ∧ e.typ = pg.typ ∧
        e.inst = pg.n * 16 + pg.k ∧ e.severity = 1 ∧ e.seq = b.seq + 1#32 ∧
          (e.tb, e.origin) = (eventStamp s pg i).getD (s.tb, 2)) ∧ SMap.get (fun _ => 0#32) t.belfry.polled o = s.reg o ∧ t.reg (mb + 0x64) = b.seq + 1#32 ∧
        onlyRegs s { t with belfry := s.belfry })) ∧
    (let total := fun (f : Nat) => ((fieldPages f).map (fun pg => s.fget (pg + 0x28) 30 0)).foldl (· + ·) 0
     ∀ f : Fin 64, total f.val ≠ SMap.get (fun _ => 0) b.hourly f.val → b.ramLog.length < 2048 →
      (∀ g, g < 64 → g ≠ f.val → total g = SMap.get (fun _ => 0) b.hourly g) → completes .hourlySummary s (fun t =>
        (∃ e : LogEntry, t.belfry.ramLog = b.ramLog ++ [e] ∧ e.code = 0x700 ∧ e.severity = 0 ∧ e.seq = b.seq + 1#32) ∧
        SMap.get (fun _ => 0) t.belfry.hourly f.val = total f.val ∧ t.belfry.flashLog = b.flashLog ∧
        t = { s with regs := t.regs, belfry := t.belfry, freeCtr := t.freeCtr })) ∧
    completes .bfHeartbeat s (fun t => t.reg (mb + 0x48) = s.reg (mb + 0x48) + 1#32 ∧ onlyRegsAt (fun o => o = mb + 0x48) s t) ∧
    (∀ (f : Fin 64) rec_, SMap.get (fun _ => none) b.buffers f.val = some rec_ → b.captures.length < 2048 →
      completes (.captureReadByBelfry f) s (fun t => t.belfry.captures = b.captures ++ [rec_] ∧
        SMap.get (fun _ => none) t.belfry.buffers f.val = none ∧ t.bget (pField f.val + 0x214) 0 = false ∧
        t = { s with regs := t.regs, belfry := t.belfry }))

/-- R459 to R461, R467, R468, R471, R475: SEC-DED and parity errors, hits, suspects and fences, and what probes count. The model's readings: the
page that counts a chime word's errors, one hit for a run of probes with failures, and FENCE of a suspect spindle at its next hit (log 35); the
content after a double error is of what the word held and zero (log 2). -/
def Obligations.SilentErrorsAreCaught : Prop :=
  ∀ (s : State),
    (∀ w, secExists s w = true →
      let pg := secPage s w
      completes (.secdedError w false) s (fun t => t.fget (pg + 0x28) 30 0 = (s.fget (pg + 0x28) 30 0 + 1) % 2 ^ 31 ∧
        t.bget (pg + 0x18) 30 = true ∧ onlyRegs s t) ∧
      (s.running = false → completes (.secdedError w true) s (fun t => t.fget (pg + 0x2C) 30 0 = (s.fget (pg + 0x2C) 30 0 + 1) % 2 ^ 31 ∧
        t.bget (pg + 0x18) 29 = true ∧ (∀ n, (∀ r l, w ≠ .vreg n r l) → (∀ i l k, w ≠ .lacc n i l k) → w ≠ .scale n → t.spin n = s.spin n) ∧
        (∀ n r l, w = .vreg n r l → (∀ q, q ≠ r → (t.spin n).vreg q = (s.spin n).vreg q) ∧ (∀ j, j < 16 → j ≠ l →
          ((t.spin n).vreg r).toNat / 2 ^ (32 * j) % 2 ^ 32 = ((s.spin n).vreg r).toNat / 2 ^ (32 * j) % 2 ^ 32)) ∧
        t = { s with regs := t.regs, spindles := t.spindles, freeCtr := t.freeCtr }))) ∧
    (∀ (sid : SID) (cause ply : Fin 4), spinUp s sid.toNat = true →
      let f := s.fieldOf sid.toNat
      f < 64 → s.runState = 0 → (s.spin sid.toNat).ip = [] → completes (.parityFailure sid cause ply) s (fun t =>
        (t.spin sid.toNat).dead = true ∧ (∀ k, k < 4 → (t.spin sid.toNat).loaded k = false) ∧ (∀ n, n ≠ sid.toNat → t.spin n = s.spin n) ∧
        t.readyState (pField f) = 2 ∧ t.readyReason (pField f) = 5 ∧ t.bget (pField f + 0x18) 8 = true ∧
        (s.bget (pField f + 0x210) 31 = false → t.bget (pField f + 0x210) 31 = true ∧ t.fget (pField f + 0x210) 29 28 = cause.val ∧
          t.fget (pField f + 0x210) 20 0 = sid.toNat) ∧ sameMemory s t ∧ t.mesh = s.mesh)) ∧
    (∀ key probe tb rest, s.belfry.hitsDue = (key, probe, tb) :: rest → belfryUp s = true →
      let x := s.belfry.suspect key
      let pol := s.belfry.policy
      let fenced := pol.fence = true ∨ pol.hits ≤ ((x.hits ++ [(tb, probe)]).filter (hitFresh s)).length
      (x.state = 2 → completes .hit s (fun t => t = { s with belfry := { s.belfry with hitsDue := rest } })) ∧
      (x.state ≠ 2 → ¬ fenced → completes .hit s (fun t => t.belfry.suspect key = ⟨1, x.hits ++ [(tb, probe)]⟩ ∧ t.belfry.hitsDue = rest ∧
        (∀ k, k ≠ key → t.belfry.suspect k = s.belfry.suspect k) ∧ t.belfry.softMap = s.belfry.softMap ∧
        t = { s with regs := t.regs, belfry := t.belfry })) ∧
      (x.state ≠ 2 → fenced → key < 64 * 32768 → s.running = false → s.belfry.softMap.length < 4096 → completes .hit s (fun t =>
        (t.belfry.suspect key).state = 2 ∧ t.belfry.softMap = s.belfry.softMap ++
          [(defect 1 (key / 32768) (key % 32768) 0, BitVec.ofNat 32 ((if probe then 7 else 2) * 2 ^ 28))] ∧
        t.bget (pField (key / 32768) + 0x18) 10 = true ∧
        t.fget (pField (key / 32768) + 0x214) 15 8 = min 255 (s.fget (pField (key / 32768) + 0x214) 15 8 + 1) ∧
        (2 ≤ s.readyState (pField (key / 32768)) → t.readyState (pField (key / 32768)) = 2 ∧ t.readyReason (pField (key / 32768)) = 5) ∧
        t = { s with regs := t.regs, belfry := t.belfry }))) ∧
    (∀ (sid : SID) h rest, (s.belfry.suspect (suspectKey s sid.toNat)).hits = h :: rest → (s.belfry.suspect (suspectKey s sid.toNat)).state = 1 →
      hitFresh s h = false → belfryUp s = true → completes (.hitExpiry sid) s (fun t =>
        t.belfry.suspect (suspectKey s sid.toNat) = ⟨if rest = [] then 0 else 1, rest⟩ ∧ t = { s with belfry := t.belfry })) ∧
    (belfryUp s = true →
      let n := ((probeSets s).map (fun x => x.2.length)).sum
      let bad := ((probeSets s).map (fun x => (x.2.filter (fun v => !probePass v)).length)).sum
      (∀ sid : SID, (s.belfry.suspect (suspectKey s sid.toNat)).state = 1 → s.live sid.toNat = false → spinUp s sid.toNat = true →
        completes (.suspectProbe sid []) s (fun t =>
          t.reg (fcPage s sid.toNat + 0x220) = s.reg (fcPage s sid.toNat + 0x220) + BitVec.ofNat 32 n ∧
          t.reg (fcPage s sid.toNat + 0x228) = s.reg (fcPage s sid.toNat + 0x228) + BitVec.ofNat 32 bad ∧
          (bad ≠ 0 → t.bget (fcPage s sid.toNat + 0x18) 9 = true) ∧ (bad = 0 → t.belfry = s.belfry) ∧
          t = { s with regs := t.regs, belfry := t.belfry })) ∧
      (s.belfry.policy.sweepEn = true → completes (.sweep []) s (fun t => t = { s with regs := t.regs, belfry := t.belfry } ∧
        ∀ f, f < 64 →
          let up := ((rectSids s 0 2047 0 1023).filter (fun x => !s.live x && spinUp s x && s.fieldOf x = f)).length
          t.reg (pField f + 0x220) = s.reg (pField f + 0x220) + BitVec.ofNat 32 (n * up) ∧
          t.reg (pField f + 0x228) = s.reg (pField f + 0x228) + BitVec.ofNat 32 (bad * up))))

/-- R474, R481, R490, R495 to R501: messages reach the Belfry, are refused or denied, and each mailbox command answers what the rules give; what
the update commands, a hold and a reset request leave. The model's readings: the order of handling, that a reset follows its response, what
RECOVERY serves, and INFO's count of probe sets (log 36); what a hold puts OUT, and when its release is refused (log 34). -/
def Obligations.MailboxCommandsAnswer : Prop :=
  ∀ (s : State),
    let b := s.belfry
    (∀ (port : Fin 4) (fn1 : Bool),
      let k := 1 + 2 * port.val + fn1.toNat
      let ws := tab 64 (fun i => s.reg (pMbox k + 0x100 + 4 * i))
      2 ≤ s.readyState (pMbox k) →
      (s.bget (pMbox k + 0x44) 0 = true → completes (.mbSend port fn1) s (fun t => t.bget (pMbox k + 0x18) 1 = true ∧
        onlyRegsAt (fun o => o = pMbox k + 0x18 ∨ o = pMbox k + 0x1C) s t)) ∧
      (s.bget (pMbox k + 0x44) 0 = false → belfryUp s = false → (s.start ≠ .recovery ∨ k ≠ 1) → completes (.mbSend port fn1) s (fun t =>
        t.bget (pMbox k + 0x44) 0 = true ∧ onlyRegsAt (fun o => o = pMbox k + 0x44) s t)) ∧
      (s.bget (pMbox k + 0x44) 0 = false → belfryUp s = true → 1 ≤ mbCmd ws → mbCmd ws ≤ 0xC → completes (.mbSend port fn1) s (fun t =>
        t.bget (pMbox k + 0x44) 0 = true ∧ t.belfry = { b with busy := b.busy ++ [(k, ws)] } ∧ t = { s with regs := t.regs, belfry := t.belfry })) ∧
      (s.bget (pMbox k + 0x44) 0 = false → 0xC < mbCmd ws → belfryUp s = true → completes (.mbSend port fn1) s (fun t =>
        (∀ i, i < 64 → t.reg (pMbox k + 0x200 + 4 * i) = nth 0#32 (mbWords ws 2 1 []) i) ∧ t.reg (pMbox k + 0x44) = 2#32 ∧
        t.bget (pMbox k + 0x18) 0 = true ∧ onlyRegs s t))) ∧
    (∀ session verified ws, belfryUp s = true → 1 ≤ mbCmd (tab 64 (fun i => nth 0#32 ws i)) → mbCmd (tab 64 (fun i => nth 0#32 ws i)) ≤ 0xC →
      completes (.managementNetworkMessage session verified ws) s (fun t => t = { s with belfry := { b with busy := b.busy ++
        [(1000 + 2 * session + (verified && b.credential.isSome).toNat, tab 64 (fun i => nth 0#32 ws i))] } })) ∧
    (∀ k ws rest, b.busy = (k, ws) :: rest → belfryUp s = true → b.resetAfter = none →
      let u := { s with belfry := { b with busy := rest } }
      let is := fun (c : Nat) => mbCmd ws = c ∧ mbPrivileged k = true
      let ok := fun (v t : State) (p : List Byte) => t = mbPost v k ws 0 0 p
      (∀ c row, (c, row) ∈ [(3, Instr.logRead), (4, .mapRead), (5, .captureRead), (6, .hitsRead), (7, .fieldHold), (8, .mailboxReset),
          (9, .diePolicy), (0xA, .updateBegin), (0xB, .updateData), (0xC, .updateEnd)] →
        mbCmd ws = c → mbPrivileged k = false → completes row s (fun t => t = mbPost u k ws 5 0x301 [])) ∧
      (mbCmd ws = 1 → completes .info s (fun t => ∃ p, ok u t p ∧ p.length = 24 ∧ p.take 4 = toBytesLE 4 (s.reg (pMbox 0 + 0x44)).toNat ∧
        nth 0#8 p 4 = BitVec.ofNat 8 (runSlot s).toNat ∧ nth 0#8 p 5 = BitVec.ofNat 8 s.fuses.ar ∧
        nth 0#8 p 7 = BitVec.ofNat 8 (b.probes.length + 1) ∧ nth 0#8 p 12 = BitVec.ofNat 8 b.pending.isSome.toNat ∧
        p.drop 16 = toBytesLE 8 s.fuses.id.toNat)) ∧
      (mbCmd ws = 2 → 1 ≤ mbArg ws 1 1 → mbArg ws 1 1 ≤ 7 → mbArg ws 0 1 + mbArg ws 1 1 ≤ 64 → completes .sensors s (fun t => ∃ p, ok u t p ∧
        p.length = 28 + 28 * mbArg ws 1 1 ∧ (∀ i, i < 7 → (p.drop (4 * i)).take 4 = toBytesLE 4 (s.reg (pMbox 0 + 0x4C + 4 * i)).toNat) ∧
        (∀ i j, i < mbArg ws 1 1 → j < 8 → (p.drop (28 + 28 * i + 2 * j)).take 2
          = toBytesLE 2 (s.fget (pPower (mbArg ws 0 1 + i) + 0x40 + 4 * j) 15 0)))) ∧
      (is 3 → 1 ≤ mbArg ws 4 1 → mbArg ws 4 1 ≤ 7 → mbArg ws 5 1 ≤ 1 → 
        let log := if mbArg ws 5 1 = 0 then b.ramLog else b.flashLog
        let es := (log.filter (fun e => decide ((e.seq - BitVec.ofNat 32 (mbArg ws 0 4)).toNat < 2 ^ 31))).take (mbArg ws 4 1)
        ∀ e more, es = e :: more → completes .logRead s (fun t =>
          ok u t (word4 e.seq ++ [BitVec.ofNat 8 (more.length + 1)] ++ List.replicate 11 0#8 ++ (es.map logBytes).flatten))) ∧
      (is 4 → mbArg ws 0 1 = 1 → 1 ≤ mbArg ws 4 1 → mbArg ws 4 1 ≤ 28 → completes .mapRead s (fun t =>
        ok u t (toBytesLE 2 b.softMap.length ++ List.replicate 14 0#8 ++
          (((b.softMap.drop (mbArg ws 2 2)).take (mbArg ws 4 1)).map (fun e => word4 e.1 ++ word4 e.2)).flatten))) ∧
      (is 5 → mbArg ws 4 1 = 0 → b.firstCapture ≤ mbArg ws 0 4 → mbArg ws 0 4 < b.firstCapture + b.captures.length → completes .captureRead s
        (fun t => ok u t (toBytesLE 4 b.firstCapture ++ toBytesLE 4 (b.firstCapture + b.captures.length - 1) ++ List.replicate 8 0#8 ++
          (((nth [] b.captures (mbArg ws 0 4 - b.firstCapture)).take 7).map (fun d => toBytesLE 32 d.toNat)).flatten))) ∧
      (is 6 → s.validSid (mbArg ws 0 3) = true → completes .hitsRead s (fun t => ∃ p, ok u t p ∧
        nth 0#8 p 0 = BitVec.ofNat 8 (b.suspect (suspectKey s (mbArg ws 0 3))).state ∧
        nth 0#8 p 1 = BitVec.ofNat 8 (min 255 (b.suspect (suspectKey s (mbArg ws 0 3))).hits.length))) ∧
      (is 7 → mbArg ws 0 1 < 64 →
        let f := mbArg ws 0 1
        (mbArg ws 1 1 = 1 → usesField s f = true → faultState s = true → completes .fieldHold s (fun t => t = mbPost u k ws 1 s.runState [])) ∧
        (mbArg ws 1 1 = 1 → f ∉ b.held → usesField s f = false → usesBobbin s f = false → completes .fieldHold s (fun t => ∃ v, ok v t [] ∧
          f ∈ v.belfry.held ∧ f ∉ v.belfry.heatHeld ∧ v.fget (pPower f + 0x68) 2 0 = (if (s.pow f).fuse then 2 else 3) ∧ v.bget (pPower f + 0x18) 4 = true ∧
          (∀ pg ∈ gonePages f ++ bobPages f, v.readyState pg = 0 ∧ v.readyReason pg = 2) ∧ (v.pow f).computeOff = true ∧ (v.pow f).memOff = true)) ∧
        (mbArg ws 1 1 = 0 → f ∈ b.held → f ∉ b.hot → resetBusy s = false → usesField s f = false → completes .fieldHold s (fun t => ∃ v, ok v t [] ∧
          f ∉ v.belfry.held ∧ v.reg (pReset + 0x44) = BitVec.ofNat 32 (2 ^ 31 + 2 * 256 + f) ∧ v.rstSource = 3))) ∧
      (is 8 → mbArg ws 0 1 ≤ 2 → mbArg ws 1 1 < 64 → completes .mailboxReset s (fun t => ok { u with belfry := { u.belfry with
        resetAfter := some (mbArg ws 0 1, 3, if mbArg ws 0 1 = 2 then mbArg ws 1 1 else 0) } } t [])) ∧
      (is 9 → mbArg ws 0 1 = 1 → completes .diePolicy s (fun t => ∃ v p, ok v t p ∧ v = { u with belfry := v.belfry } ∧
        v.belfry.die = ⟨decide (mbArg ws 1 1 % 2 = 1), if mbArg ws 4 4 = 0 then b.die.corrLim else mbArg ws 4 4,
          if mbArg ws 8 4 = 0 then b.die.uncorrLim else mbArg ws 8 4⟩ ∧
        p = [0#8, BitVec.ofNat 8 v.belfry.die.autoCo.toNat, 0#8, 0#8] ++ toBytesLE 4 v.belfry.die.corrLim ++ toBytesLE 4 v.belfry.die.uncorrLim)) ∧
      (is 0xA → b.session = none → completes .updateBegin s (fun t => ∃ v, ok v t (toBytesLE 4 (b.sessions + 1)) ∧
        v.belfry.session = some ⟨(b.sessions + 1) % 2 ^ 32, mbArg ws 0 4, []⟩ ∧ slotOf? v.belfry (!runSlot s) = none ∧ v.belfry.pending = none ∧
        slotOf? v.belfry (runSlot s) = slotOf? b (runSlot s) ∧ v.bget (pMbox 0 + 0x40) 29 = true ∧ v = { u with regs := v.regs, belfry := v.belfry })) ∧
      (∀ x, is 0xB → b.session = some x → mbArg ws 0 4 = x.num → 8 ≤ mbLen ws → mbLen ws ≤ 240 → mbArg ws 4 4 + (mbLen ws - 8) ≤ x.len →
        completes .updateData s (fun t => ∃ v y, ok v t [] ∧ v = { u with belfry := { u.belfry with session := some y } } ∧
          y.num = x.num ∧ y.len = x.len ∧
          (∀ i, i < mbLen ws - 8 → SMap.get (fun _ => 0) y.bytes (mbArg ws 4 4 + i) = mbByte ws (24 + i)) ∧
          (∀ o, (o < mbArg ws 4 4 ∨ mbArg ws 4 4 + (mbLen ws - 8) ≤ o) → SMap.get (fun _ => 0) y.bytes o = SMap.get (fun _ => 0) x.bytes o))) ∧
      (∀ x, is 0xC → b.session = some x → mbArg ws 0 4 = x.num →
        (∀ st d, imgRefusal u x = some (st, d) → completes .updateEnd s (fun t => ∃ v, t = mbPost v k ws st d [] ∧ v.belfry.session = none ∧
          v.bget (pMbox 0 + 0x18) 3 = true ∧ v.bget (pMbox 0 + 0x40) 29 = false ∧ v = { u with regs := v.regs, belfry := v.belfry })) ∧
        (imgRefusal u x = none → isProbe x = false → imgKind x = 1 → mbArg ws 4 1 % 2 = 0 → completes .updateEnd s (fun t => ∃ v, ok v t
            (toBytesLE 2 1 ++ [0#8, 0#8] ++ toBytesLE 4 (img x 8 4)) ∧ v.belfry.session = none ∧ v.belfry.pending = some (!runSlot s) ∧
          slotOf? v.belfry (!runSlot s) = some ⟨BitVec.ofNat 32 (img x 8 4), img x 12 1, true⟩ ∧ v.bget (pMbox 0 + 0x18) 2 = true ∧
          v = { u with regs := v.regs, belfry := v.belfry })) ∧
        (imgRefusal u x = none → isProbe x = false → imgKind x = 1 → mbArg ws 4 1 % 2 = 1 →
          (s.runState = 0 → completes .updateEnd s (fun t => ∃ v, ok v t (toBytesLE 2 1 ++ [0#8, 0#8] ++ toBytesLE 4 (img x 8 4)) ∧
            v.belfry.trial = some (!runSlot s) ∧ v.belfry.resetAfter = some (0, 4, 0) ∧ v.bget (pMbox 0 + 0x18) 2 = true ∧
            v = { u with regs := v.regs, belfry := v.belfry })) ∧
          (s.runState ≠ 0 → completes .updateEnd s (fun t => ∃ v, t = mbPost v k ws 1 s.runState [] ∧ v.belfry.session = some x ∧
            v.bget (pMbox 0 + 0x18) 3 = true ∧ v = { u with regs := v.regs, belfry := v.belfry }))) ∧
        (imgRefusal u x = none → isProbe x = true → completes .updateEnd s (fun t => ∃ v p, ok v t p ∧
          p.drop 4 = toBytesLE 4 (img x 8 4) ∧ v.belfry.session = none ∧
          v.belfry.probes = b.probes.filter (fun p => p.id != imgKind x) ++ [⟨imgKind x, img x 8 4, x.len, imgVectors x⟩] ∧
          v = { u with regs := v.regs, belfry := v.belfry, freeCtr := v.freeCtr })))) ∧
    (b.session.isSome = true → completes .updateSessionTimeout s (fun t => t.belfry.session = none ∧
      t.bget (pMbox 0 + 0x40) 29 = false ∧ t.bget (pMbox 0 + 0x18) 3 = true ∧
      (belfryUp s = true → ∃ e, t.belfry.flashLog.getLast? = some e ∧ e.code = 0x502 ∧ e.severity = 2 ∧ e.seq = b.seq + 1#32) ∧
      t = { s with regs := t.regs, belfry := t.belfry }))

/-- R481, R504 to R509: what the SMBus reads answer at the address that the straps give, and none elsewhere; what the reset write requests,
and what the input switch and an overcurrent do. The model's readings: SMBus answers whenever the input is on (log 36); the code that a packet
error code follows is that of SMBus 2.0 (log 37). -/
def Obligations.SmbusAndInputPower : Prop :=
  ∀ (s : State),
    let off := fun (t : State) => t.inputOn = false ∧ t.start = .off ∧ t.mem = [] ∧ t.marks = [] ∧ t.regs = [] ∧ t.spindles = [] ∧ t.mesh = [] ∧
      t.run = {} ∧ t.belfry.ramLog = [] ∧ t.belfry.softMap = s.belfry.softMap ∧ t.belfry.flashLog = s.belfry.flashLog ∧ t.fuses = s.fuses ∧
      t.pending = s.pending
    let here : BitVec 7 := 0x58#7 + s.straps.setWidth 7
    let coded := fun (bs : List Nat) => BitVec.ofNat 8 (pec bs)
    let answered := fun (withPec : Bool) (t : State) (cmd n v : Nat) => t = { s with out := s.out ++ [.smbus cmd (toBytesLE n v ++
      if withPec then [coded ([2 * here.toNat, cmd, 2 * here.toNat + 1] ++ (toBytesLE n v).map (·.toNat))] else [])] }
    (s.inputOn = true →
      (∀ mv, (mv < 42000 ∨ 64000 < mv → completes (.inputSwitchOpen mv) s off) ∧
        (42000 ≤ mv → mv ≤ 64000 → completes (.inputSwitchOpen mv) s (fun t => t = s)) ∧ completes (.inputSwitchClose mv) s (fun t => t = s)) ∧
      (∀ south, completes (.transitOvercurrent south) s off) ∧
      (∀ withPec,
      let answer := answered withPec
      completes (.smbusStatusRead here withPec) s (fun t => ∃ v, answer t 0 1 v ∧ v < 32 ∧ v.testBit 0 = belfryUp s ∧ v.testBit 1 = s.bget (pMbox 0 + 0x40) 30 ∧
        v.testBit 2 = s.bget (pGlobal + 0x54) 31 ∧ v.testBit 3 = s.bget (pGlobal + 0x54) 30 ∧ v.testBit 4 = (s.fget (pClock + 0x44) 19 18 != 0)) ∧
      completes (.smbusCoolantRead here withPec false) s (fun t => answer t 1 2 (s.fget (pMbox 0 + 0x54) 15 0)) ∧
      completes (.smbusCoolantRead here withPec true) s (fun t => answer t 2 2 (s.fget (pMbox 0 + 0x54) 31 16)) ∧
      completes (.smbusInputRead here withPec false) s (fun t => answer t 3 2 (s.fget (pMbox 0 + 0x4C) 15 0)) ∧
      completes (.smbusInputRead here withPec true) s (fun t => answer t 4 2 (s.fget (pMbox 0 + 0x50) 15 0)) ∧
      completes (.smbusTmaxRead here withPec) s (fun t => answer t 5 2 (s.fget (pMbox 0 + 0x5C) 15 0))) ∧
      (∀ code, (code = none ∨ code = some (coded [2 * here.toNat, 0x10, 1])) → belfryUp s = true →
        completes (.smbusResetWrite here 1#8 code) s (fun t => t.start = .booting ∧ t.regs = State.reset.regs ∧ t.rstSource = 3 ∧
          t.belfry.softMap = s.belfry.softMap)) ∧
      (∀ code, (code = none ∨ code = some (coded [2 * here.toNat, 0x10, 2])) → belfryUp s = true →
        resetBusy s = false → s.runState = 0 → s.fits → completes (.smbusResetWrite here 2#8 code) s (fun t =>
          t.reg (pReset + 0x44) = BitVec.ofNat 32 (2 ^ 31 + 256) ∧ t.rstSource = 3 ∧ t.start = .testing))) ∧
    (∀ mv, s.inputOn = false → (44000 ≤ mv → mv ≤ 62000 → completes (.inputSwitchClose mv) s (fun t => t = { s with inputOn := true, start := .off })) ∧
      (mv < 44000 ∨ 62000 < mv → completes (.inputSwitchClose mv) s (fun t => t = s))) ∧
    (∀ v code, v ≠ 1#8 → v ≠ 2#8 → completes (.smbusResetWrite here v code) s (fun t => t = s)) ∧
    (∀ v c, c.toNat ≠ pec [2 * here.toNat, 0x10, v.toNat] → completes (.smbusResetWrite here v (some c)) s (fun t => t = s)) ∧
    (∀ (a : BitVec 7) p, (∀ v code, completes (.smbusResetWrite a v code) s (fun t => a ≠ here → t = s)) ∧
      ∀ i, i ∈ [Instr.smbusStatusRead a p, .smbusCoolantRead a p false, .smbusCoolantRead a p true, .smbusInputRead a p false, .smbusInputRead a p true,
        .smbusTmaxRead a p] → a ≠ here → completes i s (fun t => t = s))

/-- R11, R421, R423, R428, R80, R286: what the state after the COLD reset of power-on holds; and that the invariants below hold there. The contents of fuses
and flash, which the spec does not give, are no part of it (assumption log 3); memory reads zero since the tests at power-on leave it so. -/
def Obligations.ResetLeavesTheSpecValues : Prop :=
  let s := State.reset
  (∀ o, o ≠ pReset + 0x44 → s.reg o = resetOf o) ∧ s.reg (pReset + 0x44) = 0x80000000#32 ∧ s.reg (pClock + 0x40) = 0x10022#32 ∧
  s.reg (pClock + 0x44) = 0x4004400#32 ∧ s.reg (pTb + 0x48) = 5#32 ∧ s.reg (pRun + 0x4C) = 20#32 ∧
  (∀ f, f < 64 → s.reg (pField f + 0x180) = 0x10010#32 ∧ s.reg (pBob f 0 + 0x40) = 0x10040#32 ∧ s.reg (pPower f + 0x68) = 4#32 ∧
    s.readyState (pField f) = 0 ∧ s.readyReason (pField f) = 1) ∧
  (∀ rq, s.reg (ringPage rq + 0x60) = 0x10000#32) ∧ (∀ a, readByte s a = 0#8) ∧ (∀ l, markOf s l = false) ∧
  (∀ sid k o, (s.spin sid).wreg k o = 0#32) ∧ s.runState = 0 ∧ s.mesh = [] ∧ s.pending = [] ∧ s.tablesWf = true ∧ s.fits

/-- Every step keeps the tables of registers, memory and marks in canonical form, so that states with equal contents are equal data. The form
is the model's own choice (assumption log 6). -/
def Obligations.TablesStayCanonical : Prop :=
  ∀ s t : State, s.tablesWf = true → step s = .next t → t.tablesWf = true

/-- Every step keeps active plies below 4 (R149), what a loaded peal has claimed within the spindles, plies, chimes and channels that exist
(R17, R166, R235, R292), and every copy that a channel's record holds of walk registers to the channel's own (R299). The other statements take
this as their premise. -/
def Obligations.PliesAndClaimsStayInRange : Prop :=
  ∀ s t : State, s.fits → step s = .next t → t.fits
end

