-- ==== Sys2Proof/Laws/Pages.lean ====
section
/-! SUPPORT. Where the pages lie (R32): the page of every offset of each block. -/
namespace Sys2Proof.Machine

/-- A page of a field's block holds the 4 KiB from its base. -/
theorem locate_field (f pg o : Nat) (hf : f < 64) (hp : pg < 64) (ho : o < 0x1000) :
    locate (fieldBase f + pg * 0x1000 + o) = fieldPage f (pg * 0x1000 + o) := by
  unfold locate fieldBase
  have h1 : 0x1000000 ≤ 0x1000000 + f * 0x40000 + pg * 0x1000 + o := by omega
  have h2 : 0x1000000 + f * 0x40000 + pg * 0x1000 + o < 0x2000000 := by omega
  have h3 : (0x1000000 + f * 0x40000 + pg * 0x1000 + o - 0x1000000) / 0x40000 = f := by omega
  have h4 : (0x1000000 + f * 0x40000 + pg * 0x1000 + o) % 0x40000 = pg * 0x1000 + o := by omega
  rw [if_pos h1, if_pos h2, h3, h4]

theorem locate_fieldCtrl {f o : Nat} (hf : f < 64) (ho : o < 0x1000) :
    locate (pField f + o) = some ⟨.fieldCtrl, pField f, 0x20, f, 0⟩ := by
  have := locate_field f 0 o hf (by omega) ho
  simp only [Nat.zero_mul, Nat.add_zero, Nat.zero_add] at this
  rw [pField, this, fieldPage]
  have : o / 0x1000 = 0 := by omega
  simp [this]

theorem locate_ringer {f o : Nat} (hf : f < 64) (ho : o < 0x1000) :
    locate (pRinger f + o) = some ⟨.ringer, pRinger f, 0x21, f, 0⟩ := by
  have := locate_field f 1 o hf (by omega) ho
  rw [pRinger, this, fieldPage]
  have : (1 * 0x1000 + o) / 0x1000 = 1 := by omega
  simp [this]

theorem locate_chime0 {f o : Nat} (hf : f < 64) (ho : o < 0x1000) :
    locate (pChime f 0 + o) = some ⟨.chime0, pChime f 0, 0x22, f, 0⟩ := by
  have h := locate_field f 2 o hf (by omega) ho
  have hb : pChime f 0 = fieldBase f + 2 * 0x1000 := by unfold pChime; omega
  have e : (2 * 0x1000 + o) / 0x1000 = 2 := by omega
  rw [hb, h, fieldPage]
  simp [e]

/-- Chimes 128 (k - 1) to 128 (k - 1) + 127 of field f. -/
theorem locate_chimeK {f k o : Nat} (hf : f < 64) (h1 : 1 ≤ k) (hk : k ≤ 4) (ho : o < 0x1000) :
    locate (pChime f k + o) = some ⟨.chimeK, pChime f k, 0x22, f, k⟩ := by
  have := locate_field f (k + 2) o hf (by omega) ho
  rw [pChime, show fieldBase f + 0x2000 + k * 0x1000 + o = fieldBase f + (k + 2) * 0x1000 + o by omega, this, fieldPage]
  have e : ((k + 2) * 0x1000 + o) / 0x1000 = k + 2 := by omega
  have a1 : ¬ k = 0 := by omega
  simp only [e]
  simp (disch := omega) only [if_neg, if_pos]
  simp only [Nat.add_sub_cancel, Option.some.injEq, Page.mk.injEq, and_true, true_and]
  omega

theorem locate_chimeW {f o : Nat} (hf : f < 64) (ho : o < 0x1000) :
    locate (pChime f 5 + o) = some ⟨.chimeW, pChime f 5, 0x22, f, 5⟩ := by
  have h := locate_field f 7 o hf (by omega) ho
  have hb : pChime f 5 = fieldBase f + 7 * 0x1000 := by unfold pChime; omega
  have e : (7 * 0x1000 + o) / 0x1000 = 7 := by omega
  rw [hb, h, fieldPage]
  simp [e]

theorem locate_bob0 {f o : Nat} (hf : f < 64) (ho : o < 0x1000) :
    locate (pBob f 0 + o) = some ⟨.bob0, pBob f 0, 0x23, f, 0⟩ := by
  have h := locate_field f 16 o hf (by omega) ho
  have hb : pBob f 0 = fieldBase f + 16 * 0x1000 := by unfold pBob; omega
  have e : (16 * 0x1000 + o) / 0x1000 = 16 := by omega
  rw [hb, h, fieldPage]
  simp [e]

/-- Channel k of field f's reel. -/
theorem locate_reel {f k o : Nat} (hf : f < 64) (hk : k < 16) (ho : o < 0x1000) :
    locate (pReel f k + o) = some ⟨.reel (k = 0), pReel f k, 0x24, f, k⟩ := by
  have := locate_field f (k + 32) o hf (by omega) ho
  rw [pReel, show fieldBase f + 0x20000 + k * 0x1000 + o = fieldBase f + (k + 32) * 0x1000 + o by omega, this, fieldPage]
  have e : ((k + 32) * 0x1000 + o) / 0x1000 = k + 32 := by omega
  simp only [e]
  simp (disch := omega) only [if_neg, if_pos]
  simp only [Nat.add_sub_cancel, Option.some.injEq, Page.mk.injEq, and_true, PKind.reel.injEq]
  have : fieldBase f + (k + 32) * 4096 = fieldBase f + 131072 + k * 4096 := by omega
  refine ⟨?_, this⟩
  simp

theorem locate_swSel {f o : Nat} (hf : f < 64) (ho : o < 0x1000) :
    locate (pWin f 0 + o) = some ⟨.swSel, pWin f 0, 0x25, f, 0⟩ := by
  have h := locate_field f 48 o hf (by omega) ho
  have hb : pWin f 0 = fieldBase f + 48 * 0x1000 := by unfold pWin; omega
  have e : (48 * 0x1000 + o) / 0x1000 = 48 := by omega
  rw [hb, h, fieldPage]
  simp [e]

/-- The kind of window page k, 1 to 7 (R49). -/
def winKind (k : Nat) : PKind := if k ≤ 4 then .ply else if k = 5 then .win5 else if k = 6 then .win6 else .win7

theorem locate_win {f k o : Nat} (hf : f < 64) (h1 : 1 ≤ k) (hk : k ≤ 7) (ho : o < 0x1000) :
    locate (pWin f k + o) = some ⟨winKind k, pWin f k, 0x25, f, k⟩ := by
  have := locate_field f (k + 48) o hf (by omega) ho
  rw [pWin, show fieldBase f + 0x30000 + k * 0x1000 + o = fieldBase f + (k + 48) * 0x1000 + o by omega, this, fieldPage]
  have e : ((k + 48) * 0x1000 + o) / 0x1000 = k + 48 := by omega
  have e2 : fieldBase f + (k + 48) * 4096 = fieldBase f + 196608 + k * 4096 := by omega
  simp only [e]
  simp (disch := omega) only [if_neg, if_pos]
  simp only [Nat.add_sub_cancel, e2, winKind]
  by_cases a : k ≤ 4
  · rw [if_pos (by omega), if_pos a]
  · rw [if_neg (by omega), if_neg a]
    by_cases b : k = 5
    · subst b; simp
    · by_cases c : k = 6
      · subst c; simp
      · have : k = 7 := by omega
        subst this; simp

theorem locate_power {f o : Nat} (hf : f < 64) (ho : o < 0x1000) :
    locate (pPower f + o) = some ⟨.power, pPower f, 0x26, f, 0⟩ := by
  have h := locate_field f 56 o hf (by omega) ho
  have hb : pPower f = fieldBase f + 56 * 0x1000 := by unfold pPower; omega
  have e : (56 * 0x1000 + o) / 0x1000 = 56 := by omega
  rw [hb, h, fieldPage]
  simp [e]

/-- The kind of page k of a host port (R379). -/
def hostKind (k : Nat) : Option PKind :=
  if k = 0 then some .hpCtrl else if k = 1 ∨ k = 2 then some .hpRing else if k = 3 then some .hpMsix
  else if k = 4 then some .hpPba else if 8 ≤ k then some (.hostReel (k = 8)) else none

theorem locate_host {h k o : Nat} (hh : h < 4) (hk : k < 16) (ho : o < 0x1000) :
    locate (pHost h k + o) = (hostKind k).map (fun kind => ⟨kind, pHost h k, 0x10, h, k⟩) := by
  unfold locate pHost hostKind
  have e1 : (0x40000 + h * 0x10000 + k * 0x1000 + o) / 0x1000 = 0x40 + h * 16 + k := by omega
  have e2 : (0x40 + h * 16 + k - 0x40) / 16 = h := by omega
  have e3 : (0x40 + h * 16 + k) % 16 = k := by omega
  simp only [e1]
  iterate 9 rw [if_neg (by omega)]
  rw [if_pos (by omega)]
  simp only [e2, e3]
  split <;> try rfl
  split <;> try rfl
  split <;> try rfl
  split <;> try rfl
  split <;> rfl

/-- A page of the blocks that stand once (R32). -/
theorem locate_global {o : Nat} (ho : o < 0x1000) : locate (pGlobal + o) = some ⟨.global, pGlobal, 1, 0, 0⟩ := by
  have e : (pGlobal + o) / 0x1000 = 0 := by unfold pGlobal; omega
  unfold locate
  simp only [e]
  rw [if_neg (by unfold pGlobal; omega)]
  simp

theorem locate_run {o : Nat} (ho : o < 0x1000) : locate (pRun + o) = some ⟨.run, pRun, 3, 0, 0⟩ := by
  have e : (pRun + o) / 0x1000 = 2 := by unfold pRun; omega
  unfold locate
  simp only [e]
  rw [if_neg (by unfold pRun; omega)]
  simp (disch := omega) only [if_neg]
  simp

theorem locate_reset {o : Nat} (ho : o < 0x1000) : locate (pReset + o) = some ⟨.reset, pReset, 6, 0, 0⟩ := by
  have e : (pReset + o) / 0x1000 = 0x21 := by unfold pReset; omega
  unfold locate
  simp only [e]
  rw [if_neg (by unfold pReset; omega)]
  simp

theorem locate_clock {o : Nat} (ho : o < 0x1000) : locate (pClock + o) = some ⟨.clock, pClock, 5, 0, 0⟩ := by
  have e : (pClock + o) / 0x1000 = 0x20 := by unfold pClock; omega
  unfold locate
  simp only [e]
  rw [if_neg (by unfold pClock; omega)]
  simp

theorem locate_timebase {o : Nat} (ho : o < 0x1000) : locate (pTb + o) = some ⟨.timebase, pTb, 7, 0, 0⟩ := by
  have e : (pTb + o) / 0x1000 = 0x22 := by unfold pTb; omega
  unfold locate
  simp only [e]
  rw [if_neg (by unfold pTb; omega)]
  simp

theorem locate_mbox {k o : Nat} (h1 : 1 ≤ k) (hk : k ≤ 8) (ho : o < 0x1000) :
    locate (pMbox k + o) = some ⟨.mboxCh, pMbox k, 4, 0, k⟩ := by
  have e : (pMbox k + o) / 0x1000 = 0x10 + k := by unfold pMbox; omega
  unfold locate
  simp only [e]
  rw [if_neg (by unfold pMbox; omega)]
  simp (disch := omega) only [if_neg, if_pos]
  have : 0x10 + k - 0x10 = k := by omega
  rw [this]

theorem locate_nirdor0 {p o : Nat} (hp : p < 16) (ho : o < 0x1000) :
    locate (pNirdor p 0 + o) = some ⟨.nirdor0, pNirdor p 0, 0x11, p, 0⟩ := by
  have e : (pNirdor p 0 + o) / 0x1000 = 0x80 + p * 16 := by unfold pNirdor; omega
  have e2 : (0x80 + p * 16 - 0x80) / 16 = p := by omega
  have e3 : (0x80 + p * 16) % 16 = 0 := by omega
  unfold locate
  simp only [e]
  rw [if_neg (by unfold pNirdor; omega)]
  iterate 9 rw [if_neg (by omega)]
  rw [if_pos (by omega)]
  simp only [e2, e3, if_true]

/-- The page of an offset depends on its 4 KiB only. -/
theorem locate_congr {a b : Nat} (h : a / 0x1000 = b / 0x1000) : locate a = locate b := by
  have h1 : (0x1000000 ≤ a) = (0x1000000 ≤ b) := by simp only [eq_iff_iff]; omega
  have h2 : (a < 0x2000000) = (b < 0x2000000) := by simp only [eq_iff_iff]; omega
  have h3 : (a - 0x1000000) / 0x40000 = (b - 0x1000000) / 0x40000 := by omega
  have h4 : a % 0x40000 / 0x1000 = b % 0x40000 / 0x1000 := by omega
  unfold locate fieldPage
  simp only [h, h1, h2, h3, h4]

theorem ite_some {c : Prop} [Decidable c] {x y : Option Page} {P : Page → Prop} (hx : c → ∀ p, x = some p → P p)
    (hy : ¬ c → ∀ p, y = some p → P p) : ∀ p, (if c then x else y) = some p → P p := by
  intro p h
  by_cases hc : c
  · rw [if_pos hc] at h; exact hx hc p h
  · rw [if_neg hc] at h; exact hy hc p h

/-- A page starts at the 4 KiB that its offsets lie in. -/
theorem locate_base {a : Nat} {pg : Page} (h : locate a = some pg) : pg.base = a / 0x1000 * 0x1000 := by
  unfold locate at h
  dsimp only at h
  revert h
  refine ite_some (P := fun p => p.base = a / 0x1000 * 0x1000) (fun h1 => ?_) (fun h1 => ?_) pg
  · refine ite_some (fun h2 => ?_) (fun _ p h => by cases h)
    unfold fieldPage
    dsimp only
    repeat' (refine ite_some (fun _ => ?_) (fun _ => ?_))
    all_goals
      intro p h
      first
        | (cases h; done)
        | (injection h with h; subst h; simp only [fieldBase]; omega)
  · repeat' (refine ite_some (fun _ => ?_) (fun _ => ?_))
    all_goals
      intro p h
      first
        | (cases h; done)
        | (injection h with h; subst h
           simp only [pGlobal, pFuse, pRun, pMbox, pClock, pReset, pTb, pHost, pNirdor, pRing]; omega)

/-- Every offset of a mapped page is in it. -/
theorem locate_within {a o : Nat} {pg : Page} (h : locate a = some pg) (ho : o < 0x1000) :
    locate (pg.base + o) = some pg := by
  rw [← h, locate_base h]
  exact locate_congr (by omega)

end Sys2Proof.Machine
end

