-- ==== Sys2Proof/Laws/Fields.lean ====
section
/-! SUPPORT. Bit fields of registers: what a field and a bit read after a field was written (R7). -/
namespace Sys2Proof.Machine

theorem testBit_fld (w hi lo i : Nat) : (fld w hi lo).testBit i = (decide (i < hi + 1 - lo) && w.testBit (lo + i)) := by
  simp [fld, Nat.testBit_mod_two_pow, Nat.testBit_shiftRight]

theorem testBit_maskF (hi lo i : Nat) : (maskF hi lo).testBit i = (decide (lo ≤ i) && decide (i - lo < hi + 1 - lo)) := by
  simp [maskF, Nat.testBit_shiftLeft, Nat.testBit_two_pow_sub_one]

/-- The bits of a register with one field replaced. -/
theorem getLsbD_putF (w : Word) (hi lo v i : Nat) :
    (putF w hi lo v).getLsbD i = (decide (i < 32) &&
      (if lo ≤ i ∧ i < hi + 1 then (v % 2 ^ (hi + 1 - lo)).testBit (i - lo) else w.getLsbD i)) := by
  by_cases hi32 : i < 32
  · simp only [putF, BitVec.getLsbD_or, BitVec.getLsbD_and, BitVec.getLsbD_not, BitVec.getLsbD_ofNat, testBit_maskF,
      Nat.testBit_shiftLeft, hi32, decide_true, Bool.true_and]
    by_cases h1 : lo ≤ i
    · by_cases h2 : i < hi + 1
      · have : i - lo < hi + 1 - lo := by omega
        simp [h1, h2, this]
      · have h3 : ¬ i - lo < hi + 1 - lo := by omega
        simp [h1, h2, h3, Nat.testBit_mod_two_pow]
    · simp [h1]
  · have : 32 ≤ i := by omega
    simp [hi32, BitVec.getLsbD_of_ge _ i this]

theorem testBit_getF (w : Word) (hi lo i : Nat) :
    (getF w hi lo).testBit i = (decide (i < hi + 1 - lo) && w.getLsbD (lo + i)) := by
  simp [getF, testBit_fld, BitVec.getLsbD]

/-- A field reads what was stored in it, modulo its width. -/
@[simp] theorem getF_putF_same (w : Word) {hi lo : Nat} (v : Nat) (h : hi < 32) :
    getF (putF w hi lo v) hi lo = v % 2 ^ (hi + 1 - lo) := by
  apply Nat.eq_of_testBit_eq
  intro i
  rw [testBit_getF, getLsbD_putF]
  by_cases hl : i < hi + 1 - lo
  · have h1 : lo + i < 32 := by omega
    have h2 : lo ≤ lo + i ∧ lo + i < hi + 1 := by omega
    simp [hl, h1, h2]
  · simp [hl, Nat.testBit_mod_two_pow]

/-- A field that does not overlap the one stored reads as before. -/
theorem getF_putF_apart (w : Word) {hi lo hi' lo' : Nat} (v : Nat) (h : hi' < 32) (ha : hi < lo' ∨ hi' < lo) :
    getF (putF w hi lo v) hi' lo' = getF w hi' lo' := by
  apply Nat.eq_of_testBit_eq
  intro i
  rw [testBit_getF, testBit_getF, getLsbD_putF]
  by_cases hl : i < hi' + 1 - lo'
  · have h1 : lo' + i < 32 := by omega
    have h2 : ¬ (lo ≤ lo' + i ∧ lo' + i < hi + 1) := by omega
    rw [if_neg h2]
    simp [hl, h1]
  · simp [hl]

theorem getB_eq (w : Word) (i : Nat) : getB w i = w.getLsbD i := rfl

/-- A bit reads what was stored in it. -/
@[simp] theorem getB_putB_same (w : Word) {i : Nat} (b : Bool) (h : i < 32) : getB (putB w i b) i = b := by
  rw [getB_eq, putB, getLsbD_putF, if_pos (by omega)]
  cases b <;> simp [h]

/-- Another bit reads as before. -/
theorem getB_putB_other (w : Word) {i j : Nat} (b : Bool) (h : j ≠ i) : getB (putB w i b) j = getB w j := by
  rw [getB_eq, getB_eq, putB, getLsbD_putF]
  have h2 : ¬ (i ≤ j ∧ j < i + 1) := by omega
  rw [if_neg h2]
  by_cases hj : j < 32
  · simp [hj]
  · simp [hj, BitVec.getLsbD_of_ge w j (by omega)]

/-- A bit outside the field stored reads as before. -/
theorem getB_putF_apart (w : Word) {hi lo i : Nat} (v : Nat) (ha : i < lo ∨ hi < i) : getB (putF w hi lo v) i = getB w i := by
  rw [getB_eq, getB_eq, getLsbD_putF]
  have h2 : ¬ (lo ≤ i ∧ i < hi + 1) := by omega
  rw [if_neg h2]
  by_cases hj : i < 32
  · simp [hj]
  · simp [hj, BitVec.getLsbD_of_ge w i (by omega)]

/-- A field apart from the bit stored reads as before. -/
theorem getF_putB_apart (w : Word) {i hi lo : Nat} (b : Bool) (h : hi < 32) (ha : i < lo ∨ hi < i) :
    getF (putB w i b) hi lo = getF w hi lo := getF_putF_apart w _ h ha

theorem getF_lt (w : Word) (hi lo : Nat) : getF w hi lo < 2 ^ (hi + 1 - lo) := Nat.mod_lt _ (Nat.two_pow_pos _)

end Sys2Proof.Machine
end

