-- ==== Sys2Proof/Laws/Map.lean ====
section
/-! SUPPORT. Sparse tables: what a key reads after a write, and that every write keeps the canonical form. -/
namespace Sys2Proof.SMap

variable {α : Type} (d : Nat → α)

@[simp] theorem get_nil (k : Nat) : get d [] k = d k := rfl

theorem get_cons (e : Nat × α) (m : SMap α) (k : Nat) :
    get d (e :: m) k = if e.1 = k then e.2 else get d m k := rfl

/-- A key that no pair lists reads the default. -/
theorem get_unlisted {m : SMap α} {k : Nat} (h : ∀ e ∈ m, e.1 ≠ k) : get d m k = d k := by
  induction m with
  | nil => rfl
  | cons e m ih =>
    have he : e.1 ≠ k := h e (by simp)
    simp [get_cons, he, ih (fun x hx => h x (by simp [hx]))]

/-! ### Reads after erase, insert and set -/

@[simp] theorem get_erase_same (m : SMap α) (k : Nat) : get d (erase m k) k = d k :=
  get_unlisted d (by simp [erase])

theorem get_erase_other (m : SMap α) {k j : Nat} (h : j ≠ k) : get d (erase m k) j = get d m j := by
  induction m with
  | nil => rfl
  | cons e m ih =>
    by_cases he : e.1 = k
    · have : erase (e :: m) k = erase m k := by simp [erase, he]
      rw [this, ih, get_cons, if_neg (by omega)]
    · have : erase (e :: m) k = e :: erase m k := by simp [erase, he]
      rw [this, get_cons, get_cons, ih]

@[simp] theorem get_ins_same (m : SMap α) (k : Nat) (v : α) (h : ∀ e ∈ m, e.1 ≠ k) : get d (ins k v m) k = v := by
  induction m with
  | nil => simp [ins, get_cons]
  | cons e m ih =>
    have he : e.1 ≠ k := h e (by simp)
    unfold ins
    split
    · simp [get_cons]
    · simp [get_cons, he, ih (fun x hx => h x (by simp [hx]))]

theorem get_ins_other (m : SMap α) {k j : Nat} (v : α) (h : j ≠ k) : get d (ins k v m) j = get d m j := by
  induction m with
  | nil => simp [ins, get_cons, Ne.symm h]
  | cons e m ih =>
    unfold ins
    split
    · simp [get_cons, Ne.symm h]
    · simp [get_cons, ih]

/-- A key reads what was last stored there. -/
@[simp] theorem get_set_same [DecidableEq α] (m : SMap α) (k : Nat) (v : α) : get d (set d m k v) k = v := by
  unfold set
  split
  · simp_all
  · exact get_ins_same d _ k v (by simp [erase])

/-- A store leaves every other key as it was. -/
theorem get_set_other [DecidableEq α] (m : SMap α) {k j : Nat} (v : α) (h : j ≠ k) :
    get d (set d m k v) j = get d m j := by
  unfold set
  split
  · exact get_erase_other d m h
  · rw [get_ins_other d _ v h, get_erase_other d m h]

theorem get_set [DecidableEq α] (m : SMap α) (k j : Nat) (v : α) :
    get d (set d m k v) j = if j = k then v else get d m j := by
  split
  · subst j; simp
  · exact get_set_other d m v ‹_›

/-! ### The canonical form -/

/-- A property of every value outlasts writes of values that have it. -/
theorem get_foldl_set [DecidableEq α] {β : Type} {P : Nat → α → Prop} (key : β → Nat) (val : β → α) :
    ∀ (l : List β) (m : SMap α), (∀ j, P j (get d m j)) → (∀ b ∈ l, P (key b) (val b)) →
      ∀ j, P j (get d (l.foldl (fun m b => set d m (key b) (val b)) m) j)
  | [], _, hm, _ => hm
  | b :: l, m, hm, hl => by
    refine get_foldl_set key val l _ (fun j => ?_) (fun x hx => hl x (.tail _ hx))
    rw [get_set]
    split
    · rename_i e; subst e; exact hl b (.head _)
    · exact hm j

theorem sorted_cons (e : Nat × α) (m : SMap α) :
    sorted (e :: m) = true ↔ (∀ x ∈ m, e.1 < x.1) ∧ sorted m = true := by
  induction m generalizing e with
  | nil => simp [sorted]
  | cons b m ih =>
    simp only [sorted, Bool.and_eq_true, decide_eq_true_eq, List.mem_cons, forall_eq_or_imp]
    constructor
    · rintro ⟨h, hs⟩
      exact ⟨⟨h, fun x hx => lt_trans h (((ih b).1 hs).1 x hx)⟩, hs⟩
    · rintro ⟨⟨h, _⟩, hs⟩
      exact ⟨h, hs⟩

theorem wf_iff [DecidableEq α] (m : SMap α) : wf d m = true ↔ sorted m = true ∧ ∀ e ∈ m, e.2 ≠ d e.1 := by
  simp [wf, List.all_eq_true]

theorem sorted_filter (p : Nat × α → Bool) (m : SMap α) (h : sorted m = true) : sorted (m.filter p) = true := by
  induction m with
  | nil => rfl
  | cons e m ih =>
    have h' := (sorted_cons e m).1 h
    rw [List.filter_cons]
    split
    · exact (sorted_cons _ _).2 ⟨fun x hx => h'.1 x (List.mem_of_mem_filter hx), ih h'.2⟩
    · exact ih h'.2

/-- Dropping pairs keeps the form. -/
theorem wf_filter [DecidableEq α] (p : Nat × α → Bool) (m : SMap α) (h : wf d m = true) : wf d (m.filter p) = true := by
  rw [wf_iff] at *
  exact ⟨sorted_filter p m h.1, fun e he => h.2 e (List.mem_of_mem_filter he)⟩

theorem mem_ins {k : Nat} {v : α} {m : SMap α} {e : Nat × α} (h : e ∈ ins k v m) : e = (k, v) ∨ e ∈ m := by
  induction m with
  | nil => simp [ins] at h; exact .inl h
  | cons b m ih =>
    unfold ins at h
    split at h
    · simpa using h
    · simp only [List.mem_cons] at h ⊢
      rcases h with h | h
      · exact .inr (.inl h)
      · rcases ih h with h | h
        · exact .inl h
        · exact .inr (.inr h)

theorem sorted_ins (k : Nat) (v : α) (m : SMap α) (h : sorted m = true) (hk : ∀ e ∈ m, e.1 ≠ k) :
    sorted (ins k v m) = true := by
  induction m with
  | nil => rfl
  | cons e m ih =>
    have h' := (sorted_cons e m).1 h
    have hne : e.1 ≠ k := hk e (by simp)
    unfold ins
    split
    · rename_i hlt
      refine (sorted_cons _ _).2 ⟨?_, h⟩
      intro x hx
      rcases List.mem_cons.1 hx with rfl | hx
      · exact hlt
      · exact lt_trans hlt (h'.1 x hx)
    · rename_i hnl
      refine (sorted_cons _ _).2 ⟨?_, ih h'.2 (fun x hx => hk x (by simp [hx]))⟩
      intro x hx
      rcases mem_ins hx with rfl | hx
      · change e.1 < k
        simp only [not_lt] at hnl
        omega
      · exact h'.1 x hx

/-- A store keeps the form. -/
theorem wf_set [DecidableEq α] (m : SMap α) (k : Nat) (v : α) (h : wf d m = true) : wf d (set d m k v) = true := by
  have he : wf d (erase m k) = true := wf_filter d _ m h
  unfold set
  split
  · exact he
  · rename_i hv
    rw [wf_iff] at he ⊢
    refine ⟨sorted_ins k v _ he.1 (by simp [erase]), fun e hm => ?_⟩
    rcases mem_ins hm with rfl | hm
    · exact hv
    · exact he.2 e hm

end Sys2Proof.SMap
end

