-- ==== Sys2Proof/Laws/State.lean ====
section
/-! SUPPORT. What each update of State leaves in each field: one lemma per field per update, so that no proof unfolds a
record update. -/
namespace Sys2Proof.Machine.State

variable (s : State)

/-! ### setReg -/

@[simp] theorem setReg_regs (o : Nat) (v : Word) : (s.setReg o v).regs = SMap.set resetOf s.regs o v := rfl
@[simp] theorem setReg_latches (o : Nat) (v : Word) : (s.setReg o v).latches = s.latches := rfl
@[simp] theorem setReg_mem (o : Nat) (v : Word) : (s.setReg o v).mem = s.mem := rfl
@[simp] theorem setReg_marks (o : Nat) (v : Word) : (s.setReg o v).marks = s.marks := rfl
@[simp] theorem setReg_spindles (o : Nat) (v : Word) : (s.setReg o v).spindles = s.spindles := rfl
@[simp] theorem setReg_mesh (o : Nat) (v : Word) : (s.setReg o v).mesh = s.mesh := rfl
@[simp] theorem setReg_links (o : Nat) (v : Word) : (s.setReg o v).links = s.links := rfl
@[simp] theorem setReg_outputs (o : Nat) (v : Word) : (s.setReg o v).outputs = s.outputs := rfl
@[simp] theorem setReg_maps (o : Nat) (v : Word) : (s.setReg o v).maps = s.maps := rfl
@[simp] theorem setReg_ringers (o : Nat) (v : Word) : (s.setReg o v).ringers = s.ringers := rfl
@[simp] theorem setReg_arrivals (o : Nat) (v : Word) : (s.setReg o v).arrivals = s.arrivals := rfl
@[simp] theorem setReg_bobbins (o : Nat) (v : Word) : (s.setReg o v).bobbins = s.bobbins := rfl
@[simp] theorem setReg_chans (o : Nat) (v : Word) : (s.setReg o v).chans = s.chans := rfl
@[simp] theorem setReg_reels (o : Nat) (v : Word) : (s.setReg o v).reels = s.reels := rfl
@[simp] theorem setReg_run (o : Nat) (v : Word) : (s.setReg o v).run = s.run := rfl
@[simp] theorem setReg_hosts (o : Nat) (v : Word) : (s.setReg o v).hosts = s.hosts := rfl
@[simp] theorem setReg_nirdors (o : Nat) (v : Word) : (s.setReg o v).nirdors = s.nirdors := rfl
@[simp] theorem setReg_via (o : Nat) (v : Word) : (s.setReg o v).via = s.via := rfl
@[simp] theorem setReg_relay (o : Nat) (v : Word) : (s.setReg o v).relay = s.relay := rfl
@[simp] theorem setReg_clocks (o : Nat) (v : Word) : (s.setReg o v).clocks = s.clocks := rfl
@[simp] theorem setReg_rstSource (o : Nat) (v : Word) : (s.setReg o v).rstSource = s.rstSource := rfl
@[simp] theorem setReg_start (o : Nat) (v : Word) : (s.setReg o v).start = s.start := rfl
@[simp] theorem setReg_fuses (o : Nat) (v : Word) : (s.setReg o v).fuses = s.fuses := rfl
@[simp] theorem setReg_belfry (o : Nat) (v : Word) : (s.setReg o v).belfry = s.belfry := rfl
@[simp] theorem setReg_power (o : Nat) (v : Word) : (s.setReg o v).power = s.power := rfl
@[simp] theorem setReg_inputOn (o : Nat) (v : Word) : (s.setReg o v).inputOn = s.inputOn := rfl
@[simp] theorem setReg_straps (o : Nat) (v : Word) : (s.setReg o v).straps = s.straps := rfl
@[simp] theorem setReg_out (o : Nat) (v : Word) : (s.setReg o v).out = s.out := rfl
@[simp] theorem setReg_freeCtr (o : Nat) (v : Word) : (s.setReg o v).freeCtr = s.freeCtr := rfl
@[simp] theorem setReg_pending (o : Nat) (v : Word) : (s.setReg o v).pending = s.pending := rfl

/-! ### setSpin -/

@[simp] theorem setSpin_regs (k : Nat) (x : Spindle) : (s.setSpin k x).regs = s.regs := rfl
@[simp] theorem setSpin_latches (k : Nat) (x : Spindle) : (s.setSpin k x).latches = s.latches := rfl
@[simp] theorem setSpin_mem (k : Nat) (x : Spindle) : (s.setSpin k x).mem = s.mem := rfl
@[simp] theorem setSpin_marks (k : Nat) (x : Spindle) : (s.setSpin k x).marks = s.marks := rfl
@[simp] theorem setSpin_spindles (k : Nat) (x : Spindle) : (s.setSpin k x).spindles = SMap.set (fun _ => {}) s.spindles k x := rfl
@[simp] theorem setSpin_mesh (k : Nat) (x : Spindle) : (s.setSpin k x).mesh = s.mesh := rfl
@[simp] theorem setSpin_links (k : Nat) (x : Spindle) : (s.setSpin k x).links = s.links := rfl
@[simp] theorem setSpin_outputs (k : Nat) (x : Spindle) : (s.setSpin k x).outputs = s.outputs := rfl
@[simp] theorem setSpin_maps (k : Nat) (x : Spindle) : (s.setSpin k x).maps = s.maps := rfl
@[simp] theorem setSpin_ringers (k : Nat) (x : Spindle) : (s.setSpin k x).ringers = s.ringers := rfl
@[simp] theorem setSpin_arrivals (k : Nat) (x : Spindle) : (s.setSpin k x).arrivals = s.arrivals := rfl
@[simp] theorem setSpin_bobbins (k : Nat) (x : Spindle) : (s.setSpin k x).bobbins = s.bobbins := rfl
@[simp] theorem setSpin_chans (k : Nat) (x : Spindle) : (s.setSpin k x).chans = s.chans := rfl
@[simp] theorem setSpin_reels (k : Nat) (x : Spindle) : (s.setSpin k x).reels = s.reels := rfl
@[simp] theorem setSpin_run (k : Nat) (x : Spindle) : (s.setSpin k x).run = s.run := rfl
@[simp] theorem setSpin_hosts (k : Nat) (x : Spindle) : (s.setSpin k x).hosts = s.hosts := rfl
@[simp] theorem setSpin_nirdors (k : Nat) (x : Spindle) : (s.setSpin k x).nirdors = s.nirdors := rfl
@[simp] theorem setSpin_via (k : Nat) (x : Spindle) : (s.setSpin k x).via = s.via := rfl
@[simp] theorem setSpin_relay (k : Nat) (x : Spindle) : (s.setSpin k x).relay = s.relay := rfl
@[simp] theorem setSpin_clocks (k : Nat) (x : Spindle) : (s.setSpin k x).clocks = s.clocks := rfl
@[simp] theorem setSpin_rstSource (k : Nat) (x : Spindle) : (s.setSpin k x).rstSource = s.rstSource := rfl
@[simp] theorem setSpin_start (k : Nat) (x : Spindle) : (s.setSpin k x).start = s.start := rfl
@[simp] theorem setSpin_fuses (k : Nat) (x : Spindle) : (s.setSpin k x).fuses = s.fuses := rfl
@[simp] theorem setSpin_belfry (k : Nat) (x : Spindle) : (s.setSpin k x).belfry = s.belfry := rfl
@[simp] theorem setSpin_power (k : Nat) (x : Spindle) : (s.setSpin k x).power = s.power := rfl
@[simp] theorem setSpin_inputOn (k : Nat) (x : Spindle) : (s.setSpin k x).inputOn = s.inputOn := rfl
@[simp] theorem setSpin_straps (k : Nat) (x : Spindle) : (s.setSpin k x).straps = s.straps := rfl
@[simp] theorem setSpin_out (k : Nat) (x : Spindle) : (s.setSpin k x).out = s.out := rfl
@[simp] theorem setSpin_freeCtr (k : Nat) (x : Spindle) : (s.setSpin k x).freeCtr = s.freeCtr := rfl
@[simp] theorem setSpin_pending (k : Nat) (x : Spindle) : (s.setSpin k x).pending = s.pending := rfl

/-! ### setRinger -/

@[simp] theorem setRinger_regs (k : Nat) (x : Ringer) : (s.setRinger k x).regs = s.regs := rfl
@[simp] theorem setRinger_latches (k : Nat) (x : Ringer) : (s.setRinger k x).latches = s.latches := rfl
@[simp] theorem setRinger_mem (k : Nat) (x : Ringer) : (s.setRinger k x).mem = s.mem := rfl
@[simp] theorem setRinger_marks (k : Nat) (x : Ringer) : (s.setRinger k x).marks = s.marks := rfl
@[simp] theorem setRinger_spindles (k : Nat) (x : Ringer) : (s.setRinger k x).spindles = s.spindles := rfl
@[simp] theorem setRinger_mesh (k : Nat) (x : Ringer) : (s.setRinger k x).mesh = s.mesh := rfl
@[simp] theorem setRinger_links (k : Nat) (x : Ringer) : (s.setRinger k x).links = s.links := rfl
@[simp] theorem setRinger_outputs (k : Nat) (x : Ringer) : (s.setRinger k x).outputs = s.outputs := rfl
@[simp] theorem setRinger_maps (k : Nat) (x : Ringer) : (s.setRinger k x).maps = s.maps := rfl
@[simp] theorem setRinger_ringers (k : Nat) (x : Ringer) : (s.setRinger k x).ringers = SMap.set (fun _ => {}) s.ringers k x := rfl
@[simp] theorem setRinger_arrivals (k : Nat) (x : Ringer) : (s.setRinger k x).arrivals = s.arrivals := rfl
@[simp] theorem setRinger_bobbins (k : Nat) (x : Ringer) : (s.setRinger k x).bobbins = s.bobbins := rfl
@[simp] theorem setRinger_chans (k : Nat) (x : Ringer) : (s.setRinger k x).chans = s.chans := rfl
@[simp] theorem setRinger_reels (k : Nat) (x : Ringer) : (s.setRinger k x).reels = s.reels := rfl
@[simp] theorem setRinger_run (k : Nat) (x : Ringer) : (s.setRinger k x).run = s.run := rfl
@[simp] theorem setRinger_hosts (k : Nat) (x : Ringer) : (s.setRinger k x).hosts = s.hosts := rfl
@[simp] theorem setRinger_nirdors (k : Nat) (x : Ringer) : (s.setRinger k x).nirdors = s.nirdors := rfl
@[simp] theorem setRinger_via (k : Nat) (x : Ringer) : (s.setRinger k x).via = s.via := rfl
@[simp] theorem setRinger_relay (k : Nat) (x : Ringer) : (s.setRinger k x).relay = s.relay := rfl
@[simp] theorem setRinger_clocks (k : Nat) (x : Ringer) : (s.setRinger k x).clocks = s.clocks := rfl
@[simp] theorem setRinger_rstSource (k : Nat) (x : Ringer) : (s.setRinger k x).rstSource = s.rstSource := rfl
@[simp] theorem setRinger_start (k : Nat) (x : Ringer) : (s.setRinger k x).start = s.start := rfl
@[simp] theorem setRinger_fuses (k : Nat) (x : Ringer) : (s.setRinger k x).fuses = s.fuses := rfl
@[simp] theorem setRinger_belfry (k : Nat) (x : Ringer) : (s.setRinger k x).belfry = s.belfry := rfl
@[simp] theorem setRinger_power (k : Nat) (x : Ringer) : (s.setRinger k x).power = s.power := rfl
@[simp] theorem setRinger_inputOn (k : Nat) (x : Ringer) : (s.setRinger k x).inputOn = s.inputOn := rfl
@[simp] theorem setRinger_straps (k : Nat) (x : Ringer) : (s.setRinger k x).straps = s.straps := rfl
@[simp] theorem setRinger_out (k : Nat) (x : Ringer) : (s.setRinger k x).out = s.out := rfl
@[simp] theorem setRinger_freeCtr (k : Nat) (x : Ringer) : (s.setRinger k x).freeCtr = s.freeCtr := rfl
@[simp] theorem setRinger_pending (k : Nat) (x : Ringer) : (s.setRinger k x).pending = s.pending := rfl

/-! ### setBobbin -/

@[simp] theorem setBobbin_regs (k : Nat) (x : Bobbin) : (s.setBobbin k x).regs = s.regs := rfl
@[simp] theorem setBobbin_latches (k : Nat) (x : Bobbin) : (s.setBobbin k x).latches = s.latches := rfl
@[simp] theorem setBobbin_mem (k : Nat) (x : Bobbin) : (s.setBobbin k x).mem = s.mem := rfl
@[simp] theorem setBobbin_marks (k : Nat) (x : Bobbin) : (s.setBobbin k x).marks = s.marks := rfl
@[simp] theorem setBobbin_spindles (k : Nat) (x : Bobbin) : (s.setBobbin k x).spindles = s.spindles := rfl
@[simp] theorem setBobbin_mesh (k : Nat) (x : Bobbin) : (s.setBobbin k x).mesh = s.mesh := rfl
@[simp] theorem setBobbin_links (k : Nat) (x : Bobbin) : (s.setBobbin k x).links = s.links := rfl
@[simp] theorem setBobbin_outputs (k : Nat) (x : Bobbin) : (s.setBobbin k x).outputs = s.outputs := rfl
@[simp] theorem setBobbin_maps (k : Nat) (x : Bobbin) : (s.setBobbin k x).maps = s.maps := rfl
@[simp] theorem setBobbin_ringers (k : Nat) (x : Bobbin) : (s.setBobbin k x).ringers = s.ringers := rfl
@[simp] theorem setBobbin_arrivals (k : Nat) (x : Bobbin) : (s.setBobbin k x).arrivals = s.arrivals := rfl
@[simp] theorem setBobbin_bobbins (k : Nat) (x : Bobbin) : (s.setBobbin k x).bobbins = SMap.set (fun _ => {}) s.bobbins k x := rfl
@[simp] theorem setBobbin_chans (k : Nat) (x : Bobbin) : (s.setBobbin k x).chans = s.chans := rfl
@[simp] theorem setBobbin_reels (k : Nat) (x : Bobbin) : (s.setBobbin k x).reels = s.reels := rfl
@[simp] theorem setBobbin_run (k : Nat) (x : Bobbin) : (s.setBobbin k x).run = s.run := rfl
@[simp] theorem setBobbin_hosts (k : Nat) (x : Bobbin) : (s.setBobbin k x).hosts = s.hosts := rfl
@[simp] theorem setBobbin_nirdors (k : Nat) (x : Bobbin) : (s.setBobbin k x).nirdors = s.nirdors := rfl
@[simp] theorem setBobbin_via (k : Nat) (x : Bobbin) : (s.setBobbin k x).via = s.via := rfl
@[simp] theorem setBobbin_relay (k : Nat) (x : Bobbin) : (s.setBobbin k x).relay = s.relay := rfl
@[simp] theorem setBobbin_clocks (k : Nat) (x : Bobbin) : (s.setBobbin k x).clocks = s.clocks := rfl
@[simp] theorem setBobbin_rstSource (k : Nat) (x : Bobbin) : (s.setBobbin k x).rstSource = s.rstSource := rfl
@[simp] theorem setBobbin_start (k : Nat) (x : Bobbin) : (s.setBobbin k x).start = s.start := rfl
@[simp] theorem setBobbin_fuses (k : Nat) (x : Bobbin) : (s.setBobbin k x).fuses = s.fuses := rfl
@[simp] theorem setBobbin_belfry (k : Nat) (x : Bobbin) : (s.setBobbin k x).belfry = s.belfry := rfl
@[simp] theorem setBobbin_power (k : Nat) (x : Bobbin) : (s.setBobbin k x).power = s.power := rfl
@[simp] theorem setBobbin_inputOn (k : Nat) (x : Bobbin) : (s.setBobbin k x).inputOn = s.inputOn := rfl
@[simp] theorem setBobbin_straps (k : Nat) (x : Bobbin) : (s.setBobbin k x).straps = s.straps := rfl
@[simp] theorem setBobbin_out (k : Nat) (x : Bobbin) : (s.setBobbin k x).out = s.out := rfl
@[simp] theorem setBobbin_freeCtr (k : Nat) (x : Bobbin) : (s.setBobbin k x).freeCtr = s.freeCtr := rfl
@[simp] theorem setBobbin_pending (k : Nat) (x : Bobbin) : (s.setBobbin k x).pending = s.pending := rfl

/-! ### setChan -/

@[simp] theorem setChan_regs (r c : Nat) (x : Chan) : (s.setChan r c x).regs = s.regs := rfl
@[simp] theorem setChan_latches (r c : Nat) (x : Chan) : (s.setChan r c x).latches = s.latches := rfl
@[simp] theorem setChan_mem (r c : Nat) (x : Chan) : (s.setChan r c x).mem = s.mem := rfl
@[simp] theorem setChan_marks (r c : Nat) (x : Chan) : (s.setChan r c x).marks = s.marks := rfl
@[simp] theorem setChan_spindles (r c : Nat) (x : Chan) : (s.setChan r c x).spindles = s.spindles := rfl
@[simp] theorem setChan_mesh (r c : Nat) (x : Chan) : (s.setChan r c x).mesh = s.mesh := rfl
@[simp] theorem setChan_links (r c : Nat) (x : Chan) : (s.setChan r c x).links = s.links := rfl
@[simp] theorem setChan_outputs (r c : Nat) (x : Chan) : (s.setChan r c x).outputs = s.outputs := rfl
@[simp] theorem setChan_maps (r c : Nat) (x : Chan) : (s.setChan r c x).maps = s.maps := rfl
@[simp] theorem setChan_ringers (r c : Nat) (x : Chan) : (s.setChan r c x).ringers = s.ringers := rfl
@[simp] theorem setChan_arrivals (r c : Nat) (x : Chan) : (s.setChan r c x).arrivals = s.arrivals := rfl
@[simp] theorem setChan_bobbins (r c : Nat) (x : Chan) : (s.setChan r c x).bobbins = s.bobbins := rfl
@[simp] theorem setChan_chans (r c : Nat) (x : Chan) : (s.setChan r c x).chans = SMap.set (fun _ => {}) s.chans (r * 32 + c) x := rfl
@[simp] theorem setChan_reels (r c : Nat) (x : Chan) : (s.setChan r c x).reels = s.reels := rfl
@[simp] theorem setChan_run (r c : Nat) (x : Chan) : (s.setChan r c x).run = s.run := rfl
@[simp] theorem setChan_hosts (r c : Nat) (x : Chan) : (s.setChan r c x).hosts = s.hosts := rfl
@[simp] theorem setChan_nirdors (r c : Nat) (x : Chan) : (s.setChan r c x).nirdors = s.nirdors := rfl
@[simp] theorem setChan_via (r c : Nat) (x : Chan) : (s.setChan r c x).via = s.via := rfl
@[simp] theorem setChan_relay (r c : Nat) (x : Chan) : (s.setChan r c x).relay = s.relay := rfl
@[simp] theorem setChan_clocks (r c : Nat) (x : Chan) : (s.setChan r c x).clocks = s.clocks := rfl
@[simp] theorem setChan_rstSource (r c : Nat) (x : Chan) : (s.setChan r c x).rstSource = s.rstSource := rfl
@[simp] theorem setChan_start (r c : Nat) (x : Chan) : (s.setChan r c x).start = s.start := rfl
@[simp] theorem setChan_fuses (r c : Nat) (x : Chan) : (s.setChan r c x).fuses = s.fuses := rfl
@[simp] theorem setChan_belfry (r c : Nat) (x : Chan) : (s.setChan r c x).belfry = s.belfry := rfl
@[simp] theorem setChan_power (r c : Nat) (x : Chan) : (s.setChan r c x).power = s.power := rfl
@[simp] theorem setChan_inputOn (r c : Nat) (x : Chan) : (s.setChan r c x).inputOn = s.inputOn := rfl
@[simp] theorem setChan_straps (r c : Nat) (x : Chan) : (s.setChan r c x).straps = s.straps := rfl
@[simp] theorem setChan_out (r c : Nat) (x : Chan) : (s.setChan r c x).out = s.out := rfl
@[simp] theorem setChan_freeCtr (r c : Nat) (x : Chan) : (s.setChan r c x).freeCtr = s.freeCtr := rfl
@[simp] theorem setChan_pending (r c : Nat) (x : Chan) : (s.setChan r c x).pending = s.pending := rfl

/-! ### setReel -/

@[simp] theorem setReel_regs (k : Nat) (x : Reel) : (s.setReel k x).regs = s.regs := rfl
@[simp] theorem setReel_latches (k : Nat) (x : Reel) : (s.setReel k x).latches = s.latches := rfl
@[simp] theorem setReel_mem (k : Nat) (x : Reel) : (s.setReel k x).mem = s.mem := rfl
@[simp] theorem setReel_marks (k : Nat) (x : Reel) : (s.setReel k x).marks = s.marks := rfl
@[simp] theorem setReel_spindles (k : Nat) (x : Reel) : (s.setReel k x).spindles = s.spindles := rfl
@[simp] theorem setReel_mesh (k : Nat) (x : Reel) : (s.setReel k x).mesh = s.mesh := rfl
@[simp] theorem setReel_links (k : Nat) (x : Reel) : (s.setReel k x).links = s.links := rfl
@[simp] theorem setReel_outputs (k : Nat) (x : Reel) : (s.setReel k x).outputs = s.outputs := rfl
@[simp] theorem setReel_maps (k : Nat) (x : Reel) : (s.setReel k x).maps = s.maps := rfl
@[simp] theorem setReel_ringers (k : Nat) (x : Reel) : (s.setReel k x).ringers = s.ringers := rfl
@[simp] theorem setReel_arrivals (k : Nat) (x : Reel) : (s.setReel k x).arrivals = s.arrivals := rfl
@[simp] theorem setReel_bobbins (k : Nat) (x : Reel) : (s.setReel k x).bobbins = s.bobbins := rfl
@[simp] theorem setReel_chans (k : Nat) (x : Reel) : (s.setReel k x).chans = s.chans := rfl
@[simp] theorem setReel_reels (k : Nat) (x : Reel) : (s.setReel k x).reels = SMap.set (fun _ => {}) s.reels k x := rfl
@[simp] theorem setReel_run (k : Nat) (x : Reel) : (s.setReel k x).run = s.run := rfl
@[simp] theorem setReel_hosts (k : Nat) (x : Reel) : (s.setReel k x).hosts = s.hosts := rfl
@[simp] theorem setReel_nirdors (k : Nat) (x : Reel) : (s.setReel k x).nirdors = s.nirdors := rfl
@[simp] theorem setReel_via (k : Nat) (x : Reel) : (s.setReel k x).via = s.via := rfl
@[simp] theorem setReel_relay (k : Nat) (x : Reel) : (s.setReel k x).relay = s.relay := rfl
@[simp] theorem setReel_clocks (k : Nat) (x : Reel) : (s.setReel k x).clocks = s.clocks := rfl
@[simp] theorem setReel_rstSource (k : Nat) (x : Reel) : (s.setReel k x).rstSource = s.rstSource := rfl
@[simp] theorem setReel_start (k : Nat) (x : Reel) : (s.setReel k x).start = s.start := rfl
@[simp] theorem setReel_fuses (k : Nat) (x : Reel) : (s.setReel k x).fuses = s.fuses := rfl
@[simp] theorem setReel_belfry (k : Nat) (x : Reel) : (s.setReel k x).belfry = s.belfry := rfl
@[simp] theorem setReel_power (k : Nat) (x : Reel) : (s.setReel k x).power = s.power := rfl
@[simp] theorem setReel_inputOn (k : Nat) (x : Reel) : (s.setReel k x).inputOn = s.inputOn := rfl
@[simp] theorem setReel_straps (k : Nat) (x : Reel) : (s.setReel k x).straps = s.straps := rfl
@[simp] theorem setReel_out (k : Nat) (x : Reel) : (s.setReel k x).out = s.out := rfl
@[simp] theorem setReel_freeCtr (k : Nat) (x : Reel) : (s.setReel k x).freeCtr = s.freeCtr := rfl
@[simp] theorem setReel_pending (k : Nat) (x : Reel) : (s.setReel k x).pending = s.pending := rfl

/-! ### setHost -/

@[simp] theorem setHost_regs (k : Nat) (x : HostPort) : (s.setHost k x).regs = s.regs := rfl
@[simp] theorem setHost_latches (k : Nat) (x : HostPort) : (s.setHost k x).latches = s.latches := rfl
@[simp] theorem setHost_mem (k : Nat) (x : HostPort) : (s.setHost k x).mem = s.mem := rfl
@[simp] theorem setHost_marks (k : Nat) (x : HostPort) : (s.setHost k x).marks = s.marks := rfl
@[simp] theorem setHost_spindles (k : Nat) (x : HostPort) : (s.setHost k x).spindles = s.spindles := rfl
@[simp] theorem setHost_mesh (k : Nat) (x : HostPort) : (s.setHost k x).mesh = s.mesh := rfl
@[simp] theorem setHost_links (k : Nat) (x : HostPort) : (s.setHost k x).links = s.links := rfl
@[simp] theorem setHost_outputs (k : Nat) (x : HostPort) : (s.setHost k x).outputs = s.outputs := rfl
@[simp] theorem setHost_maps (k : Nat) (x : HostPort) : (s.setHost k x).maps = s.maps := rfl
@[simp] theorem setHost_ringers (k : Nat) (x : HostPort) : (s.setHost k x).ringers = s.ringers := rfl
@[simp] theorem setHost_arrivals (k : Nat) (x : HostPort) : (s.setHost k x).arrivals = s.arrivals := rfl
@[simp] theorem setHost_bobbins (k : Nat) (x : HostPort) : (s.setHost k x).bobbins = s.bobbins := rfl
@[simp] theorem setHost_chans (k : Nat) (x : HostPort) : (s.setHost k x).chans = s.chans := rfl
@[simp] theorem setHost_reels (k : Nat) (x : HostPort) : (s.setHost k x).reels = s.reels := rfl
@[simp] theorem setHost_run (k : Nat) (x : HostPort) : (s.setHost k x).run = s.run := rfl
@[simp] theorem setHost_hosts (k : Nat) (x : HostPort) : (s.setHost k x).hosts = SMap.set (fun _ => {}) s.hosts k x := rfl
@[simp] theorem setHost_nirdors (k : Nat) (x : HostPort) : (s.setHost k x).nirdors = s.nirdors := rfl
@[simp] theorem setHost_via (k : Nat) (x : HostPort) : (s.setHost k x).via = s.via := rfl
@[simp] theorem setHost_relay (k : Nat) (x : HostPort) : (s.setHost k x).relay = s.relay := rfl
@[simp] theorem setHost_clocks (k : Nat) (x : HostPort) : (s.setHost k x).clocks = s.clocks := rfl
@[simp] theorem setHost_rstSource (k : Nat) (x : HostPort) : (s.setHost k x).rstSource = s.rstSource := rfl
@[simp] theorem setHost_start (k : Nat) (x : HostPort) : (s.setHost k x).start = s.start := rfl
@[simp] theorem setHost_fuses (k : Nat) (x : HostPort) : (s.setHost k x).fuses = s.fuses := rfl
@[simp] theorem setHost_belfry (k : Nat) (x : HostPort) : (s.setHost k x).belfry = s.belfry := rfl
@[simp] theorem setHost_power (k : Nat) (x : HostPort) : (s.setHost k x).power = s.power := rfl
@[simp] theorem setHost_inputOn (k : Nat) (x : HostPort) : (s.setHost k x).inputOn = s.inputOn := rfl
@[simp] theorem setHost_straps (k : Nat) (x : HostPort) : (s.setHost k x).straps = s.straps := rfl
@[simp] theorem setHost_out (k : Nat) (x : HostPort) : (s.setHost k x).out = s.out := rfl
@[simp] theorem setHost_freeCtr (k : Nat) (x : HostPort) : (s.setHost k x).freeCtr = s.freeCtr := rfl
@[simp] theorem setHost_pending (k : Nat) (x : HostPort) : (s.setHost k x).pending = s.pending := rfl

/-! ### setPow -/

@[simp] theorem setPow_regs (k : Nat) (x : FieldPow) : (s.setPow k x).regs = s.regs := rfl
@[simp] theorem setPow_latches (k : Nat) (x : FieldPow) : (s.setPow k x).latches = s.latches := rfl
@[simp] theorem setPow_mem (k : Nat) (x : FieldPow) : (s.setPow k x).mem = s.mem := rfl
@[simp] theorem setPow_marks (k : Nat) (x : FieldPow) : (s.setPow k x).marks = s.marks := rfl
@[simp] theorem setPow_spindles (k : Nat) (x : FieldPow) : (s.setPow k x).spindles = s.spindles := rfl
@[simp] theorem setPow_mesh (k : Nat) (x : FieldPow) : (s.setPow k x).mesh = s.mesh := rfl
@[simp] theorem setPow_links (k : Nat) (x : FieldPow) : (s.setPow k x).links = s.links := rfl
@[simp] theorem setPow_outputs (k : Nat) (x : FieldPow) : (s.setPow k x).outputs = s.outputs := rfl
@[simp] theorem setPow_maps (k : Nat) (x : FieldPow) : (s.setPow k x).maps = s.maps := rfl
@[simp] theorem setPow_ringers (k : Nat) (x : FieldPow) : (s.setPow k x).ringers = s.ringers := rfl
@[simp] theorem setPow_arrivals (k : Nat) (x : FieldPow) : (s.setPow k x).arrivals = s.arrivals := rfl
@[simp] theorem setPow_bobbins (k : Nat) (x : FieldPow) : (s.setPow k x).bobbins = s.bobbins := rfl
@[simp] theorem setPow_chans (k : Nat) (x : FieldPow) : (s.setPow k x).chans = s.chans := rfl
@[simp] theorem setPow_reels (k : Nat) (x : FieldPow) : (s.setPow k x).reels = s.reels := rfl
@[simp] theorem setPow_run (k : Nat) (x : FieldPow) : (s.setPow k x).run = s.run := rfl
@[simp] theorem setPow_hosts (k : Nat) (x : FieldPow) : (s.setPow k x).hosts = s.hosts := rfl
@[simp] theorem setPow_nirdors (k : Nat) (x : FieldPow) : (s.setPow k x).nirdors = s.nirdors := rfl
@[simp] theorem setPow_via (k : Nat) (x : FieldPow) : (s.setPow k x).via = s.via := rfl
@[simp] theorem setPow_relay (k : Nat) (x : FieldPow) : (s.setPow k x).relay = s.relay := rfl
@[simp] theorem setPow_clocks (k : Nat) (x : FieldPow) : (s.setPow k x).clocks = s.clocks := rfl
@[simp] theorem setPow_rstSource (k : Nat) (x : FieldPow) : (s.setPow k x).rstSource = s.rstSource := rfl
@[simp] theorem setPow_start (k : Nat) (x : FieldPow) : (s.setPow k x).start = s.start := rfl
@[simp] theorem setPow_fuses (k : Nat) (x : FieldPow) : (s.setPow k x).fuses = s.fuses := rfl
@[simp] theorem setPow_belfry (k : Nat) (x : FieldPow) : (s.setPow k x).belfry = s.belfry := rfl
@[simp] theorem setPow_power (k : Nat) (x : FieldPow) : (s.setPow k x).power = SMap.set (fun _ => {}) s.power k x := rfl
@[simp] theorem setPow_inputOn (k : Nat) (x : FieldPow) : (s.setPow k x).inputOn = s.inputOn := rfl
@[simp] theorem setPow_straps (k : Nat) (x : FieldPow) : (s.setPow k x).straps = s.straps := rfl
@[simp] theorem setPow_out (k : Nat) (x : FieldPow) : (s.setPow k x).out = s.out := rfl
@[simp] theorem setPow_freeCtr (k : Nat) (x : FieldPow) : (s.setPow k x).freeCtr = s.freeCtr := rfl
@[simp] theorem setPow_pending (k : Nat) (x : FieldPow) : (s.setPow k x).pending = s.pending := rfl

/-! ### setLink -/

@[simp] theorem setLink_regs (k : Nat) (x : Link) : (s.setLink k x).regs = s.regs := rfl
@[simp] theorem setLink_latches (k : Nat) (x : Link) : (s.setLink k x).latches = s.latches := rfl
@[simp] theorem setLink_mem (k : Nat) (x : Link) : (s.setLink k x).mem = s.mem := rfl
@[simp] theorem setLink_marks (k : Nat) (x : Link) : (s.setLink k x).marks = s.marks := rfl
@[simp] theorem setLink_spindles (k : Nat) (x : Link) : (s.setLink k x).spindles = s.spindles := rfl
@[simp] theorem setLink_mesh (k : Nat) (x : Link) : (s.setLink k x).mesh = s.mesh := rfl
@[simp] theorem setLink_links (k : Nat) (x : Link) : (s.setLink k x).links = SMap.set (fun _ => {}) s.links k x := rfl
@[simp] theorem setLink_outputs (k : Nat) (x : Link) : (s.setLink k x).outputs = s.outputs := rfl
@[simp] theorem setLink_maps (k : Nat) (x : Link) : (s.setLink k x).maps = s.maps := rfl
@[simp] theorem setLink_ringers (k : Nat) (x : Link) : (s.setLink k x).ringers = s.ringers := rfl
@[simp] theorem setLink_arrivals (k : Nat) (x : Link) : (s.setLink k x).arrivals = s.arrivals := rfl
@[simp] theorem setLink_bobbins (k : Nat) (x : Link) : (s.setLink k x).bobbins = s.bobbins := rfl
@[simp] theorem setLink_chans (k : Nat) (x : Link) : (s.setLink k x).chans = s.chans := rfl
@[simp] theorem setLink_reels (k : Nat) (x : Link) : (s.setLink k x).reels = s.reels := rfl
@[simp] theorem setLink_run (k : Nat) (x : Link) : (s.setLink k x).run = s.run := rfl
@[simp] theorem setLink_hosts (k : Nat) (x : Link) : (s.setLink k x).hosts = s.hosts := rfl
@[simp] theorem setLink_nirdors (k : Nat) (x : Link) : (s.setLink k x).nirdors = s.nirdors := rfl
@[simp] theorem setLink_via (k : Nat) (x : Link) : (s.setLink k x).via = s.via := rfl
@[simp] theorem setLink_relay (k : Nat) (x : Link) : (s.setLink k x).relay = s.relay := rfl
@[simp] theorem setLink_clocks (k : Nat) (x : Link) : (s.setLink k x).clocks = s.clocks := rfl
@[simp] theorem setLink_rstSource (k : Nat) (x : Link) : (s.setLink k x).rstSource = s.rstSource := rfl
@[simp] theorem setLink_start (k : Nat) (x : Link) : (s.setLink k x).start = s.start := rfl
@[simp] theorem setLink_fuses (k : Nat) (x : Link) : (s.setLink k x).fuses = s.fuses := rfl
@[simp] theorem setLink_belfry (k : Nat) (x : Link) : (s.setLink k x).belfry = s.belfry := rfl
@[simp] theorem setLink_power (k : Nat) (x : Link) : (s.setLink k x).power = s.power := rfl
@[simp] theorem setLink_inputOn (k : Nat) (x : Link) : (s.setLink k x).inputOn = s.inputOn := rfl
@[simp] theorem setLink_straps (k : Nat) (x : Link) : (s.setLink k x).straps = s.straps := rfl
@[simp] theorem setLink_out (k : Nat) (x : Link) : (s.setLink k x).out = s.out := rfl
@[simp] theorem setLink_freeCtr (k : Nat) (x : Link) : (s.setLink k x).freeCtr = s.freeCtr := rfl
@[simp] theorem setLink_pending (k : Nat) (x : Link) : (s.setLink k x).pending = s.pending := rfl

/-! ### setFmap -/

@[simp] theorem setFmap_regs (k : Nat) (x : FieldMap) : (s.setFmap k x).regs = s.regs := rfl
@[simp] theorem setFmap_latches (k : Nat) (x : FieldMap) : (s.setFmap k x).latches = s.latches := rfl
@[simp] theorem setFmap_mem (k : Nat) (x : FieldMap) : (s.setFmap k x).mem = s.mem := rfl
@[simp] theorem setFmap_marks (k : Nat) (x : FieldMap) : (s.setFmap k x).marks = s.marks := rfl
@[simp] theorem setFmap_spindles (k : Nat) (x : FieldMap) : (s.setFmap k x).spindles = s.spindles := rfl
@[simp] theorem setFmap_mesh (k : Nat) (x : FieldMap) : (s.setFmap k x).mesh = s.mesh := rfl
@[simp] theorem setFmap_links (k : Nat) (x : FieldMap) : (s.setFmap k x).links = s.links := rfl
@[simp] theorem setFmap_outputs (k : Nat) (x : FieldMap) : (s.setFmap k x).outputs = s.outputs := rfl
@[simp] theorem setFmap_maps (k : Nat) (x : FieldMap) : (s.setFmap k x).maps = SMap.set (fun _ => {}) s.maps k x := rfl
@[simp] theorem setFmap_ringers (k : Nat) (x : FieldMap) : (s.setFmap k x).ringers = s.ringers := rfl
@[simp] theorem setFmap_arrivals (k : Nat) (x : FieldMap) : (s.setFmap k x).arrivals = s.arrivals := rfl
@[simp] theorem setFmap_bobbins (k : Nat) (x : FieldMap) : (s.setFmap k x).bobbins = s.bobbins := rfl
@[simp] theorem setFmap_chans (k : Nat) (x : FieldMap) : (s.setFmap k x).chans = s.chans := rfl
@[simp] theorem setFmap_reels (k : Nat) (x : FieldMap) : (s.setFmap k x).reels = s.reels := rfl
@[simp] theorem setFmap_run (k : Nat) (x : FieldMap) : (s.setFmap k x).run = s.run := rfl
@[simp] theorem setFmap_hosts (k : Nat) (x : FieldMap) : (s.setFmap k x).hosts = s.hosts := rfl
@[simp] theorem setFmap_nirdors (k : Nat) (x : FieldMap) : (s.setFmap k x).nirdors = s.nirdors := rfl
@[simp] theorem setFmap_via (k : Nat) (x : FieldMap) : (s.setFmap k x).via = s.via := rfl
@[simp] theorem setFmap_relay (k : Nat) (x : FieldMap) : (s.setFmap k x).relay = s.relay := rfl
@[simp] theorem setFmap_clocks (k : Nat) (x : FieldMap) : (s.setFmap k x).clocks = s.clocks := rfl
@[simp] theorem setFmap_rstSource (k : Nat) (x : FieldMap) : (s.setFmap k x).rstSource = s.rstSource := rfl
@[simp] theorem setFmap_start (k : Nat) (x : FieldMap) : (s.setFmap k x).start = s.start := rfl
@[simp] theorem setFmap_fuses (k : Nat) (x : FieldMap) : (s.setFmap k x).fuses = s.fuses := rfl
@[simp] theorem setFmap_belfry (k : Nat) (x : FieldMap) : (s.setFmap k x).belfry = s.belfry := rfl
@[simp] theorem setFmap_power (k : Nat) (x : FieldMap) : (s.setFmap k x).power = s.power := rfl
@[simp] theorem setFmap_inputOn (k : Nat) (x : FieldMap) : (s.setFmap k x).inputOn = s.inputOn := rfl
@[simp] theorem setFmap_straps (k : Nat) (x : FieldMap) : (s.setFmap k x).straps = s.straps := rfl
@[simp] theorem setFmap_out (k : Nat) (x : FieldMap) : (s.setFmap k x).out = s.out := rfl
@[simp] theorem setFmap_freeCtr (k : Nat) (x : FieldMap) : (s.setFmap k x).freeCtr = s.freeCtr := rfl
@[simp] theorem setFmap_pending (k : Nat) (x : FieldMap) : (s.setFmap k x).pending = s.pending := rfl

/-! ### setNir -/

@[simp] theorem setNir_regs (k : Nat) (x : Nirdor) : (s.setNir k x).regs = s.regs := rfl
@[simp] theorem setNir_latches (k : Nat) (x : Nirdor) : (s.setNir k x).latches = s.latches := rfl
@[simp] theorem setNir_mem (k : Nat) (x : Nirdor) : (s.setNir k x).mem = s.mem := rfl
@[simp] theorem setNir_marks (k : Nat) (x : Nirdor) : (s.setNir k x).marks = s.marks := rfl
@[simp] theorem setNir_spindles (k : Nat) (x : Nirdor) : (s.setNir k x).spindles = s.spindles := rfl
@[simp] theorem setNir_mesh (k : Nat) (x : Nirdor) : (s.setNir k x).mesh = s.mesh := rfl
@[simp] theorem setNir_links (k : Nat) (x : Nirdor) : (s.setNir k x).links = s.links := rfl
@[simp] theorem setNir_outputs (k : Nat) (x : Nirdor) : (s.setNir k x).outputs = s.outputs := rfl
@[simp] theorem setNir_maps (k : Nat) (x : Nirdor) : (s.setNir k x).maps = s.maps := rfl
@[simp] theorem setNir_ringers (k : Nat) (x : Nirdor) : (s.setNir k x).ringers = s.ringers := rfl
@[simp] theorem setNir_arrivals (k : Nat) (x : Nirdor) : (s.setNir k x).arrivals = s.arrivals := rfl
@[simp] theorem setNir_bobbins (k : Nat) (x : Nirdor) : (s.setNir k x).bobbins = s.bobbins := rfl
@[simp] theorem setNir_chans (k : Nat) (x : Nirdor) : (s.setNir k x).chans = s.chans := rfl
@[simp] theorem setNir_reels (k : Nat) (x : Nirdor) : (s.setNir k x).reels = s.reels := rfl
@[simp] theorem setNir_run (k : Nat) (x : Nirdor) : (s.setNir k x).run = s.run := rfl
@[simp] theorem setNir_hosts (k : Nat) (x : Nirdor) : (s.setNir k x).hosts = s.hosts := rfl
@[simp] theorem setNir_nirdors (k : Nat) (x : Nirdor) : (s.setNir k x).nirdors = SMap.set (fun _ => {}) s.nirdors k x := rfl
@[simp] theorem setNir_via (k : Nat) (x : Nirdor) : (s.setNir k x).via = s.via := rfl
@[simp] theorem setNir_relay (k : Nat) (x : Nirdor) : (s.setNir k x).relay = s.relay := rfl
@[simp] theorem setNir_clocks (k : Nat) (x : Nirdor) : (s.setNir k x).clocks = s.clocks := rfl
@[simp] theorem setNir_rstSource (k : Nat) (x : Nirdor) : (s.setNir k x).rstSource = s.rstSource := rfl
@[simp] theorem setNir_start (k : Nat) (x : Nirdor) : (s.setNir k x).start = s.start := rfl
@[simp] theorem setNir_fuses (k : Nat) (x : Nirdor) : (s.setNir k x).fuses = s.fuses := rfl
@[simp] theorem setNir_belfry (k : Nat) (x : Nirdor) : (s.setNir k x).belfry = s.belfry := rfl
@[simp] theorem setNir_power (k : Nat) (x : Nirdor) : (s.setNir k x).power = s.power := rfl
@[simp] theorem setNir_inputOn (k : Nat) (x : Nirdor) : (s.setNir k x).inputOn = s.inputOn := rfl
@[simp] theorem setNir_straps (k : Nat) (x : Nirdor) : (s.setNir k x).straps = s.straps := rfl
@[simp] theorem setNir_out (k : Nat) (x : Nirdor) : (s.setNir k x).out = s.out := rfl
@[simp] theorem setNir_freeCtr (k : Nat) (x : Nirdor) : (s.setNir k x).freeCtr = s.freeCtr := rfl
@[simp] theorem setNir_pending (k : Nat) (x : Nirdor) : (s.setNir k x).pending = s.pending := rfl

/-! ### modBel -/

@[simp] theorem modBel_regs (f : Belfry → Belfry) : (s.modBel f).regs = s.regs := rfl
@[simp] theorem modBel_latches (f : Belfry → Belfry) : (s.modBel f).latches = s.latches := rfl
@[simp] theorem modBel_mem (f : Belfry → Belfry) : (s.modBel f).mem = s.mem := rfl
@[simp] theorem modBel_marks (f : Belfry → Belfry) : (s.modBel f).marks = s.marks := rfl
@[simp] theorem modBel_spindles (f : Belfry → Belfry) : (s.modBel f).spindles = s.spindles := rfl
@[simp] theorem modBel_mesh (f : Belfry → Belfry) : (s.modBel f).mesh = s.mesh := rfl
@[simp] theorem modBel_links (f : Belfry → Belfry) : (s.modBel f).links = s.links := rfl
@[simp] theorem modBel_outputs (f : Belfry → Belfry) : (s.modBel f).outputs = s.outputs := rfl
@[simp] theorem modBel_maps (f : Belfry → Belfry) : (s.modBel f).maps = s.maps := rfl
@[simp] theorem modBel_ringers (f : Belfry → Belfry) : (s.modBel f).ringers = s.ringers := rfl
@[simp] theorem modBel_arrivals (f : Belfry → Belfry) : (s.modBel f).arrivals = s.arrivals := rfl
@[simp] theorem modBel_bobbins (f : Belfry → Belfry) : (s.modBel f).bobbins = s.bobbins := rfl
@[simp] theorem modBel_chans (f : Belfry → Belfry) : (s.modBel f).chans = s.chans := rfl
@[simp] theorem modBel_reels (f : Belfry → Belfry) : (s.modBel f).reels = s.reels := rfl
@[simp] theorem modBel_run (f : Belfry → Belfry) : (s.modBel f).run = s.run := rfl
@[simp] theorem modBel_hosts (f : Belfry → Belfry) : (s.modBel f).hosts = s.hosts := rfl
@[simp] theorem modBel_nirdors (f : Belfry → Belfry) : (s.modBel f).nirdors = s.nirdors := rfl
@[simp] theorem modBel_via (f : Belfry → Belfry) : (s.modBel f).via = s.via := rfl
@[simp] theorem modBel_relay (f : Belfry → Belfry) : (s.modBel f).relay = s.relay := rfl
@[simp] theorem modBel_clocks (f : Belfry → Belfry) : (s.modBel f).clocks = s.clocks := rfl
@[simp] theorem modBel_rstSource (f : Belfry → Belfry) : (s.modBel f).rstSource = s.rstSource := rfl
@[simp] theorem modBel_start (f : Belfry → Belfry) : (s.modBel f).start = s.start := rfl
@[simp] theorem modBel_fuses (f : Belfry → Belfry) : (s.modBel f).fuses = s.fuses := rfl
@[simp] theorem modBel_belfry (f : Belfry → Belfry) : (s.modBel f).belfry = f s.belfry := rfl
@[simp] theorem modBel_power (f : Belfry → Belfry) : (s.modBel f).power = s.power := rfl
@[simp] theorem modBel_inputOn (f : Belfry → Belfry) : (s.modBel f).inputOn = s.inputOn := rfl
@[simp] theorem modBel_straps (f : Belfry → Belfry) : (s.modBel f).straps = s.straps := rfl
@[simp] theorem modBel_out (f : Belfry → Belfry) : (s.modBel f).out = s.out := rfl
@[simp] theorem modBel_freeCtr (f : Belfry → Belfry) : (s.modBel f).freeCtr = s.freeCtr := rfl
@[simp] theorem modBel_pending (f : Belfry → Belfry) : (s.modBel f).pending = s.pending := rfl

/-! ### modClk -/

@[simp] theorem modClk_regs (f : Clocks → Clocks) : (s.modClk f).regs = s.regs := rfl
@[simp] theorem modClk_latches (f : Clocks → Clocks) : (s.modClk f).latches = s.latches := rfl
@[simp] theorem modClk_mem (f : Clocks → Clocks) : (s.modClk f).mem = s.mem := rfl
@[simp] theorem modClk_marks (f : Clocks → Clocks) : (s.modClk f).marks = s.marks := rfl
@[simp] theorem modClk_spindles (f : Clocks → Clocks) : (s.modClk f).spindles = s.spindles := rfl
@[simp] theorem modClk_mesh (f : Clocks → Clocks) : (s.modClk f).mesh = s.mesh := rfl
@[simp] theorem modClk_links (f : Clocks → Clocks) : (s.modClk f).links = s.links := rfl
@[simp] theorem modClk_outputs (f : Clocks → Clocks) : (s.modClk f).outputs = s.outputs := rfl
@[simp] theorem modClk_maps (f : Clocks → Clocks) : (s.modClk f).maps = s.maps := rfl
@[simp] theorem modClk_ringers (f : Clocks → Clocks) : (s.modClk f).ringers = s.ringers := rfl
@[simp] theorem modClk_arrivals (f : Clocks → Clocks) : (s.modClk f).arrivals = s.arrivals := rfl
@[simp] theorem modClk_bobbins (f : Clocks → Clocks) : (s.modClk f).bobbins = s.bobbins := rfl
@[simp] theorem modClk_chans (f : Clocks → Clocks) : (s.modClk f).chans = s.chans := rfl
@[simp] theorem modClk_reels (f : Clocks → Clocks) : (s.modClk f).reels = s.reels := rfl
@[simp] theorem modClk_run (f : Clocks → Clocks) : (s.modClk f).run = s.run := rfl
@[simp] theorem modClk_hosts (f : Clocks → Clocks) : (s.modClk f).hosts = s.hosts := rfl
@[simp] theorem modClk_nirdors (f : Clocks → Clocks) : (s.modClk f).nirdors = s.nirdors := rfl
@[simp] theorem modClk_via (f : Clocks → Clocks) : (s.modClk f).via = s.via := rfl
@[simp] theorem modClk_relay (f : Clocks → Clocks) : (s.modClk f).relay = s.relay := rfl
@[simp] theorem modClk_clocks (f : Clocks → Clocks) : (s.modClk f).clocks = f s.clocks := rfl
@[simp] theorem modClk_rstSource (f : Clocks → Clocks) : (s.modClk f).rstSource = s.rstSource := rfl
@[simp] theorem modClk_start (f : Clocks → Clocks) : (s.modClk f).start = s.start := rfl
@[simp] theorem modClk_fuses (f : Clocks → Clocks) : (s.modClk f).fuses = s.fuses := rfl
@[simp] theorem modClk_belfry (f : Clocks → Clocks) : (s.modClk f).belfry = s.belfry := rfl
@[simp] theorem modClk_power (f : Clocks → Clocks) : (s.modClk f).power = s.power := rfl
@[simp] theorem modClk_inputOn (f : Clocks → Clocks) : (s.modClk f).inputOn = s.inputOn := rfl
@[simp] theorem modClk_straps (f : Clocks → Clocks) : (s.modClk f).straps = s.straps := rfl
@[simp] theorem modClk_out (f : Clocks → Clocks) : (s.modClk f).out = s.out := rfl
@[simp] theorem modClk_freeCtr (f : Clocks → Clocks) : (s.modClk f).freeCtr = s.freeCtr := rfl
@[simp] theorem modClk_pending (f : Clocks → Clocks) : (s.modClk f).pending = s.pending := rfl

/-! ### modRun -/

@[simp] theorem modRun_regs (f : Run → Run) : (s.modRun f).regs = s.regs := rfl
@[simp] theorem modRun_latches (f : Run → Run) : (s.modRun f).latches = s.latches := rfl
@[simp] theorem modRun_mem (f : Run → Run) : (s.modRun f).mem = s.mem := rfl
@[simp] theorem modRun_marks (f : Run → Run) : (s.modRun f).marks = s.marks := rfl
@[simp] theorem modRun_spindles (f : Run → Run) : (s.modRun f).spindles = s.spindles := rfl
@[simp] theorem modRun_mesh (f : Run → Run) : (s.modRun f).mesh = s.mesh := rfl
@[simp] theorem modRun_links (f : Run → Run) : (s.modRun f).links = s.links := rfl
@[simp] theorem modRun_outputs (f : Run → Run) : (s.modRun f).outputs = s.outputs := rfl
@[simp] theorem modRun_maps (f : Run → Run) : (s.modRun f).maps = s.maps := rfl
@[simp] theorem modRun_ringers (f : Run → Run) : (s.modRun f).ringers = s.ringers := rfl
@[simp] theorem modRun_arrivals (f : Run → Run) : (s.modRun f).arrivals = s.arrivals := rfl
@[simp] theorem modRun_bobbins (f : Run → Run) : (s.modRun f).bobbins = s.bobbins := rfl
@[simp] theorem modRun_chans (f : Run → Run) : (s.modRun f).chans = s.chans := rfl
@[simp] theorem modRun_reels (f : Run → Run) : (s.modRun f).reels = s.reels := rfl
@[simp] theorem modRun_run (f : Run → Run) : (s.modRun f).run = f s.run := rfl
@[simp] theorem modRun_hosts (f : Run → Run) : (s.modRun f).hosts = s.hosts := rfl
@[simp] theorem modRun_nirdors (f : Run → Run) : (s.modRun f).nirdors = s.nirdors := rfl
@[simp] theorem modRun_via (f : Run → Run) : (s.modRun f).via = s.via := rfl
@[simp] theorem modRun_relay (f : Run → Run) : (s.modRun f).relay = s.relay := rfl
@[simp] theorem modRun_clocks (f : Run → Run) : (s.modRun f).clocks = s.clocks := rfl
@[simp] theorem modRun_rstSource (f : Run → Run) : (s.modRun f).rstSource = s.rstSource := rfl
@[simp] theorem modRun_start (f : Run → Run) : (s.modRun f).start = s.start := rfl
@[simp] theorem modRun_fuses (f : Run → Run) : (s.modRun f).fuses = s.fuses := rfl
@[simp] theorem modRun_belfry (f : Run → Run) : (s.modRun f).belfry = s.belfry := rfl
@[simp] theorem modRun_power (f : Run → Run) : (s.modRun f).power = s.power := rfl
@[simp] theorem modRun_inputOn (f : Run → Run) : (s.modRun f).inputOn = s.inputOn := rfl
@[simp] theorem modRun_straps (f : Run → Run) : (s.modRun f).straps = s.straps := rfl
@[simp] theorem modRun_out (f : Run → Run) : (s.modRun f).out = s.out := rfl
@[simp] theorem modRun_freeCtr (f : Run → Run) : (s.modRun f).freeCtr = s.freeCtr := rfl
@[simp] theorem modRun_pending (f : Run → Run) : (s.modRun f).pending = s.pending := rfl

/-! ### emit -/

@[simp] theorem emit_regs (x : Output) : (s.emit x).regs = s.regs := rfl
@[simp] theorem emit_latches (x : Output) : (s.emit x).latches = s.latches := rfl
@[simp] theorem emit_mem (x : Output) : (s.emit x).mem = s.mem := rfl
@[simp] theorem emit_marks (x : Output) : (s.emit x).marks = s.marks := rfl
@[simp] theorem emit_spindles (x : Output) : (s.emit x).spindles = s.spindles := rfl
@[simp] theorem emit_mesh (x : Output) : (s.emit x).mesh = s.mesh := rfl
@[simp] theorem emit_links (x : Output) : (s.emit x).links = s.links := rfl
@[simp] theorem emit_outputs (x : Output) : (s.emit x).outputs = s.outputs := rfl
@[simp] theorem emit_maps (x : Output) : (s.emit x).maps = s.maps := rfl
@[simp] theorem emit_ringers (x : Output) : (s.emit x).ringers = s.ringers := rfl
@[simp] theorem emit_arrivals (x : Output) : (s.emit x).arrivals = s.arrivals := rfl
@[simp] theorem emit_bobbins (x : Output) : (s.emit x).bobbins = s.bobbins := rfl
@[simp] theorem emit_chans (x : Output) : (s.emit x).chans = s.chans := rfl
@[simp] theorem emit_reels (x : Output) : (s.emit x).reels = s.reels := rfl
@[simp] theorem emit_run (x : Output) : (s.emit x).run = s.run := rfl
@[simp] theorem emit_hosts (x : Output) : (s.emit x).hosts = s.hosts := rfl
@[simp] theorem emit_nirdors (x : Output) : (s.emit x).nirdors = s.nirdors := rfl
@[simp] theorem emit_via (x : Output) : (s.emit x).via = s.via := rfl
@[simp] theorem emit_relay (x : Output) : (s.emit x).relay = s.relay := rfl
@[simp] theorem emit_clocks (x : Output) : (s.emit x).clocks = s.clocks := rfl
@[simp] theorem emit_rstSource (x : Output) : (s.emit x).rstSource = s.rstSource := rfl
@[simp] theorem emit_start (x : Output) : (s.emit x).start = s.start := rfl
@[simp] theorem emit_fuses (x : Output) : (s.emit x).fuses = s.fuses := rfl
@[simp] theorem emit_belfry (x : Output) : (s.emit x).belfry = s.belfry := rfl
@[simp] theorem emit_power (x : Output) : (s.emit x).power = s.power := rfl
@[simp] theorem emit_inputOn (x : Output) : (s.emit x).inputOn = s.inputOn := rfl
@[simp] theorem emit_straps (x : Output) : (s.emit x).straps = s.straps := rfl
@[simp] theorem emit_out (x : Output) : (s.emit x).out = s.out ++ [x] := rfl
@[simp] theorem emit_freeCtr (x : Output) : (s.emit x).freeCtr = s.freeCtr := rfl
@[simp] theorem emit_pending (x : Output) : (s.emit x).pending = s.pending := rfl

/-! ### enqueue -/

@[simp] theorem enqueue_regs (x : Msg) : (s.enqueue x).regs = s.regs := rfl
@[simp] theorem enqueue_latches (x : Msg) : (s.enqueue x).latches = s.latches := rfl
@[simp] theorem enqueue_mem (x : Msg) : (s.enqueue x).mem = s.mem := rfl
@[simp] theorem enqueue_marks (x : Msg) : (s.enqueue x).marks = s.marks := rfl
@[simp] theorem enqueue_spindles (x : Msg) : (s.enqueue x).spindles = s.spindles := rfl
@[simp] theorem enqueue_mesh (x : Msg) : (s.enqueue x).mesh = s.mesh ++ [x] := rfl
@[simp] theorem enqueue_links (x : Msg) : (s.enqueue x).links = s.links := rfl
@[simp] theorem enqueue_outputs (x : Msg) : (s.enqueue x).outputs = s.outputs := rfl
@[simp] theorem enqueue_maps (x : Msg) : (s.enqueue x).maps = s.maps := rfl
@[simp] theorem enqueue_ringers (x : Msg) : (s.enqueue x).ringers = s.ringers := rfl
@[simp] theorem enqueue_arrivals (x : Msg) : (s.enqueue x).arrivals = s.arrivals := rfl
@[simp] theorem enqueue_bobbins (x : Msg) : (s.enqueue x).bobbins = s.bobbins := rfl
@[simp] theorem enqueue_chans (x : Msg) : (s.enqueue x).chans = s.chans := rfl
@[simp] theorem enqueue_reels (x : Msg) : (s.enqueue x).reels = s.reels := rfl
@[simp] theorem enqueue_run (x : Msg) : (s.enqueue x).run = s.run := rfl
@[simp] theorem enqueue_hosts (x : Msg) : (s.enqueue x).hosts = s.hosts := rfl
@[simp] theorem enqueue_nirdors (x : Msg) : (s.enqueue x).nirdors = s.nirdors := rfl
@[simp] theorem enqueue_via (x : Msg) : (s.enqueue x).via = s.via := rfl
@[simp] theorem enqueue_relay (x : Msg) : (s.enqueue x).relay = s.relay := rfl
@[simp] theorem enqueue_clocks (x : Msg) : (s.enqueue x).clocks = s.clocks := rfl
@[simp] theorem enqueue_rstSource (x : Msg) : (s.enqueue x).rstSource = s.rstSource := rfl
@[simp] theorem enqueue_start (x : Msg) : (s.enqueue x).start = s.start := rfl
@[simp] theorem enqueue_fuses (x : Msg) : (s.enqueue x).fuses = s.fuses := rfl
@[simp] theorem enqueue_belfry (x : Msg) : (s.enqueue x).belfry = s.belfry := rfl
@[simp] theorem enqueue_power (x : Msg) : (s.enqueue x).power = s.power := rfl
@[simp] theorem enqueue_inputOn (x : Msg) : (s.enqueue x).inputOn = s.inputOn := rfl
@[simp] theorem enqueue_straps (x : Msg) : (s.enqueue x).straps = s.straps := rfl
@[simp] theorem enqueue_out (x : Msg) : (s.enqueue x).out = s.out := rfl
@[simp] theorem enqueue_freeCtr (x : Msg) : (s.enqueue x).freeCtr = s.freeCtr := rfl
@[simp] theorem enqueue_pending (x : Msg) : (s.enqueue x).pending = s.pending := rfl

/-! ### setMark -/

@[simp] theorem setMark_regs (k : Nat) (b : Bool) : (setMark s k b).regs = s.regs := rfl
@[simp] theorem setMark_latches (k : Nat) (b : Bool) : (setMark s k b).latches = s.latches := rfl
@[simp] theorem setMark_mem (k : Nat) (b : Bool) : (setMark s k b).mem = s.mem := rfl
@[simp] theorem setMark_marks (k : Nat) (b : Bool) : (setMark s k b).marks = SMap.set (fun _ => false) s.marks k b := rfl
@[simp] theorem setMark_spindles (k : Nat) (b : Bool) : (setMark s k b).spindles = s.spindles := rfl
@[simp] theorem setMark_mesh (k : Nat) (b : Bool) : (setMark s k b).mesh = s.mesh := rfl
@[simp] theorem setMark_links (k : Nat) (b : Bool) : (setMark s k b).links = s.links := rfl
@[simp] theorem setMark_outputs (k : Nat) (b : Bool) : (setMark s k b).outputs = s.outputs := rfl
@[simp] theorem setMark_maps (k : Nat) (b : Bool) : (setMark s k b).maps = s.maps := rfl
@[simp] theorem setMark_ringers (k : Nat) (b : Bool) : (setMark s k b).ringers = s.ringers := rfl
@[simp] theorem setMark_arrivals (k : Nat) (b : Bool) : (setMark s k b).arrivals = s.arrivals := rfl
@[simp] theorem setMark_bobbins (k : Nat) (b : Bool) : (setMark s k b).bobbins = s.bobbins := rfl
@[simp] theorem setMark_chans (k : Nat) (b : Bool) : (setMark s k b).chans = s.chans := rfl
@[simp] theorem setMark_reels (k : Nat) (b : Bool) : (setMark s k b).reels = s.reels := rfl
@[simp] theorem setMark_run (k : Nat) (b : Bool) : (setMark s k b).run = s.run := rfl
@[simp] theorem setMark_hosts (k : Nat) (b : Bool) : (setMark s k b).hosts = s.hosts := rfl
@[simp] theorem setMark_nirdors (k : Nat) (b : Bool) : (setMark s k b).nirdors = s.nirdors := rfl
@[simp] theorem setMark_via (k : Nat) (b : Bool) : (setMark s k b).via = s.via := rfl
@[simp] theorem setMark_relay (k : Nat) (b : Bool) : (setMark s k b).relay = s.relay := rfl
@[simp] theorem setMark_clocks (k : Nat) (b : Bool) : (setMark s k b).clocks = s.clocks := rfl
@[simp] theorem setMark_rstSource (k : Nat) (b : Bool) : (setMark s k b).rstSource = s.rstSource := rfl
@[simp] theorem setMark_start (k : Nat) (b : Bool) : (setMark s k b).start = s.start := rfl
@[simp] theorem setMark_fuses (k : Nat) (b : Bool) : (setMark s k b).fuses = s.fuses := rfl
@[simp] theorem setMark_belfry (k : Nat) (b : Bool) : (setMark s k b).belfry = s.belfry := rfl
@[simp] theorem setMark_power (k : Nat) (b : Bool) : (setMark s k b).power = s.power := rfl
@[simp] theorem setMark_inputOn (k : Nat) (b : Bool) : (setMark s k b).inputOn = s.inputOn := rfl
@[simp] theorem setMark_straps (k : Nat) (b : Bool) : (setMark s k b).straps = s.straps := rfl
@[simp] theorem setMark_out (k : Nat) (b : Bool) : (setMark s k b).out = s.out := rfl
@[simp] theorem setMark_freeCtr (k : Nat) (b : Bool) : (setMark s k b).freeCtr = s.freeCtr := rfl
@[simp] theorem setMark_pending (k : Nat) (b : Bool) : (setMark s k b).pending = s.pending := rfl

/-! ### writeByte -/

@[simp] theorem writeByte_regs (a : Nat) (b : Byte) : (writeByte s a b).regs = s.regs := rfl
@[simp] theorem writeByte_latches (a : Nat) (b : Byte) : (writeByte s a b).latches = s.latches := rfl
@[simp] theorem writeByte_mem (a : Nat) (b : Byte) : (writeByte s a b).mem = SMap.set (fun _ => 0#8) s.mem a b := rfl
@[simp] theorem writeByte_marks (a : Nat) (b : Byte) : (writeByte s a b).marks = s.marks := rfl
@[simp] theorem writeByte_spindles (a : Nat) (b : Byte) : (writeByte s a b).spindles = s.spindles := rfl
@[simp] theorem writeByte_mesh (a : Nat) (b : Byte) : (writeByte s a b).mesh = s.mesh := rfl
@[simp] theorem writeByte_links (a : Nat) (b : Byte) : (writeByte s a b).links = s.links := rfl
@[simp] theorem writeByte_outputs (a : Nat) (b : Byte) : (writeByte s a b).outputs = s.outputs := rfl
@[simp] theorem writeByte_maps (a : Nat) (b : Byte) : (writeByte s a b).maps = s.maps := rfl
@[simp] theorem writeByte_ringers (a : Nat) (b : Byte) : (writeByte s a b).ringers = s.ringers := rfl
@[simp] theorem writeByte_arrivals (a : Nat) (b : Byte) : (writeByte s a b).arrivals = s.arrivals := rfl
@[simp] theorem writeByte_bobbins (a : Nat) (b : Byte) : (writeByte s a b).bobbins = s.bobbins := rfl
@[simp] theorem writeByte_chans (a : Nat) (b : Byte) : (writeByte s a b).chans = s.chans := rfl
@[simp] theorem writeByte_reels (a : Nat) (b : Byte) : (writeByte s a b).reels = s.reels := rfl
@[simp] theorem writeByte_run (a : Nat) (b : Byte) : (writeByte s a b).run = s.run := rfl
@[simp] theorem writeByte_hosts (a : Nat) (b : Byte) : (writeByte s a b).hosts = s.hosts := rfl
@[simp] theorem writeByte_nirdors (a : Nat) (b : Byte) : (writeByte s a b).nirdors = s.nirdors := rfl
@[simp] theorem writeByte_via (a : Nat) (b : Byte) : (writeByte s a b).via = s.via := rfl
@[simp] theorem writeByte_relay (a : Nat) (b : Byte) : (writeByte s a b).relay = s.relay := rfl
@[simp] theorem writeByte_clocks (a : Nat) (b : Byte) : (writeByte s a b).clocks = s.clocks := rfl
@[simp] theorem writeByte_rstSource (a : Nat) (b : Byte) : (writeByte s a b).rstSource = s.rstSource := rfl
@[simp] theorem writeByte_start (a : Nat) (b : Byte) : (writeByte s a b).start = s.start := rfl
@[simp] theorem writeByte_fuses (a : Nat) (b : Byte) : (writeByte s a b).fuses = s.fuses := rfl
@[simp] theorem writeByte_belfry (a : Nat) (b : Byte) : (writeByte s a b).belfry = s.belfry := rfl
@[simp] theorem writeByte_power (a : Nat) (b : Byte) : (writeByte s a b).power = s.power := rfl
@[simp] theorem writeByte_inputOn (a : Nat) (b : Byte) : (writeByte s a b).inputOn = s.inputOn := rfl
@[simp] theorem writeByte_straps (a : Nat) (b : Byte) : (writeByte s a b).straps = s.straps := rfl
@[simp] theorem writeByte_out (a : Nat) (b : Byte) : (writeByte s a b).out = s.out := rfl
@[simp] theorem writeByte_freeCtr (a : Nat) (b : Byte) : (writeByte s a b).freeCtr = s.freeCtr := rfl
@[simp] theorem writeByte_pending (a : Nat) (b : Byte) : (writeByte s a b).pending = s.pending := rfl

/-! ### free -/

@[simp] theorem free_regs (w : Nat) : ((s.free w).2).regs = s.regs := rfl
@[simp] theorem free_latches (w : Nat) : ((s.free w).2).latches = s.latches := rfl
@[simp] theorem free_mem (w : Nat) : ((s.free w).2).mem = s.mem := rfl
@[simp] theorem free_marks (w : Nat) : ((s.free w).2).marks = s.marks := rfl
@[simp] theorem free_spindles (w : Nat) : ((s.free w).2).spindles = s.spindles := rfl
@[simp] theorem free_mesh (w : Nat) : ((s.free w).2).mesh = s.mesh := rfl
@[simp] theorem free_links (w : Nat) : ((s.free w).2).links = s.links := rfl
@[simp] theorem free_outputs (w : Nat) : ((s.free w).2).outputs = s.outputs := rfl
@[simp] theorem free_maps (w : Nat) : ((s.free w).2).maps = s.maps := rfl
@[simp] theorem free_ringers (w : Nat) : ((s.free w).2).ringers = s.ringers := rfl
@[simp] theorem free_arrivals (w : Nat) : ((s.free w).2).arrivals = s.arrivals := rfl
@[simp] theorem free_bobbins (w : Nat) : ((s.free w).2).bobbins = s.bobbins := rfl
@[simp] theorem free_chans (w : Nat) : ((s.free w).2).chans = s.chans := rfl
@[simp] theorem free_reels (w : Nat) : ((s.free w).2).reels = s.reels := rfl
@[simp] theorem free_run (w : Nat) : ((s.free w).2).run = s.run := rfl
@[simp] theorem free_hosts (w : Nat) : ((s.free w).2).hosts = s.hosts := rfl
@[simp] theorem free_nirdors (w : Nat) : ((s.free w).2).nirdors = s.nirdors := rfl
@[simp] theorem free_via (w : Nat) : ((s.free w).2).via = s.via := rfl
@[simp] theorem free_relay (w : Nat) : ((s.free w).2).relay = s.relay := rfl
@[simp] theorem free_clocks (w : Nat) : ((s.free w).2).clocks = s.clocks := rfl
@[simp] theorem free_rstSource (w : Nat) : ((s.free w).2).rstSource = s.rstSource := rfl
@[simp] theorem free_start (w : Nat) : ((s.free w).2).start = s.start := rfl
@[simp] theorem free_fuses (w : Nat) : ((s.free w).2).fuses = s.fuses := rfl
@[simp] theorem free_belfry (w : Nat) : ((s.free w).2).belfry = s.belfry := rfl
@[simp] theorem free_power (w : Nat) : ((s.free w).2).power = s.power := rfl
@[simp] theorem free_inputOn (w : Nat) : ((s.free w).2).inputOn = s.inputOn := rfl
@[simp] theorem free_straps (w : Nat) : ((s.free w).2).straps = s.straps := rfl
@[simp] theorem free_out (w : Nat) : ((s.free w).2).out = s.out := rfl
@[simp] theorem free_freeCtr (w : Nat) : ((s.free w).2).freeCtr = s.freeCtr + 1 := rfl
@[simp] theorem free_pending (w : Nat) : ((s.free w).2).pending = s.pending := rfl

end Sys2Proof.Machine.State
end

