-- ==== Sys2Proof/Laws/Parts.lean ====
section
/-! SUPPORT. The parts of State by key, and the registers of a spindle: what each reads after each update. -/
namespace Sys2Proof.Machine

namespace State
variable (s : State)

@[simp] theorem spin_setSpin_same (k : Nat) (x : Spindle) : (s.setSpin k x).spin k = x := by simp [spin]

theorem spin_setSpin_other {k j : Nat} (x : Spindle) (h : j ≠ k) : (s.setSpin k x).spin j = s.spin j :=
  SMap.get_set_other _ _ _ h

@[simp] theorem ringer_setRinger_same (k : Nat) (x : Ringer) : (s.setRinger k x).ringer k = x := by simp [ringer]

theorem ringer_setRinger_other {k j : Nat} (x : Ringer) (h : j ≠ k) : (s.setRinger k x).ringer j = s.ringer j :=
  SMap.get_set_other _ _ _ h

@[simp] theorem bobbin_setBobbin_same (k : Nat) (x : Bobbin) : (s.setBobbin k x).bobbin k = x := by simp [bobbin]

theorem bobbin_setBobbin_other {k j : Nat} (x : Bobbin) (h : j ≠ k) : (s.setBobbin k x).bobbin j = s.bobbin j :=
  SMap.get_set_other _ _ _ h

@[simp] theorem reel_setReel_same (k : Nat) (x : Reel) : (s.setReel k x).reel k = x := by simp [reel]

theorem reel_setReel_other {k j : Nat} (x : Reel) (h : j ≠ k) : (s.setReel k x).reel j = s.reel j :=
  SMap.get_set_other _ _ _ h

@[simp] theorem host_setHost_same (k : Nat) (x : HostPort) : (s.setHost k x).host k = x := by simp [host]

theorem host_setHost_other {k j : Nat} (x : HostPort) (h : j ≠ k) : (s.setHost k x).host j = s.host j :=
  SMap.get_set_other _ _ _ h

@[simp] theorem pow_setPow_same (k : Nat) (x : FieldPow) : (s.setPow k x).pow k = x := by simp [pow]

theorem pow_setPow_other {k j : Nat} (x : FieldPow) (h : j ≠ k) : (s.setPow k x).pow j = s.pow j :=
  SMap.get_set_other _ _ _ h

@[simp] theorem link_setLink_same (k : Nat) (x : Link) : (s.setLink k x).link k = x := by simp [link]

theorem link_setLink_other {k j : Nat} (x : Link) (h : j ≠ k) : (s.setLink k x).link j = s.link j :=
  SMap.get_set_other _ _ _ h

@[simp] theorem fmap_setFmap_same (k : Nat) (x : FieldMap) : (s.setFmap k x).fmap k = x := by simp [fmap]

theorem fmap_setFmap_other {k j : Nat} (x : FieldMap) (h : j ≠ k) : (s.setFmap k x).fmap j = s.fmap j :=
  SMap.get_set_other _ _ _ h

@[simp] theorem nir_setNir_same (k : Nat) (x : Nirdor) : (s.setNir k x).nir k = x := by simp [nir]

theorem nir_setNir_other {k j : Nat} (x : Nirdor) (h : j ≠ k) : (s.setNir k x).nir j = s.nir j :=
  SMap.get_set_other _ _ _ h

@[simp] theorem chan_setChan_same (r c : Nat) (x : Chan) : (s.setChan r c x).chan r c = x := by simp [chan]

theorem chan_setChan_other {r c r' c' : Nat} (x : Chan) (h : r' * 32 + c' ≠ r * 32 + c) :
    (s.setChan r c x).chan r' c' = s.chan r' c' := SMap.get_set_other _ _ _ h

@[simp] theorem spin_modSpin_same (k : Nat) (f : Spindle → Spindle) : (s.modSpin k f).spin k = f (s.spin k) := by simp [modSpin]

theorem spin_modSpin_other {k j : Nat} (f : Spindle → Spindle) (h : j ≠ k) : (s.modSpin k f).spin j = s.spin j :=
  spin_setSpin_other s _ h

@[simp] theorem nir_modNir_same (k : Nat) (f : Nirdor → Nirdor) : (s.modNir k f).nir k = f (s.nir k) := by simp [modNir]

/-- A ring reads what was stored in it. -/
@[simp] theorem ring_setRing_same (rq : Req) (r : Ring) : (s.setRing rq r).ring rq = r := by
  cases rq with
  | mk p f => cases f <;> simp [ring, setRing]

/-- The ring of another function or port stays. -/
theorem ring_setRing_other {rq rq' : Req} (r : Ring) (h : rq' ≠ rq) : (s.setRing rq r).ring rq' = s.ring rq' := by
  obtain ⟨p, f⟩ := rq
  obtain ⟨q, g⟩ := rq'
  by_cases e : q = p
  · subst e
    cases f <;> cases g <;> simp_all [ring, setRing]
  · have e' : q.val ≠ p.val := fun x => e (Fin.ext x)
    simp [ring, setRing, host_setHost_other s _ e']

@[simp] theorem setRing_regs (rq : Req) (r : Ring) : (s.setRing rq r).regs = s.regs := rfl
@[simp] theorem setRing_mem (rq : Req) (r : Ring) : (s.setRing rq r).mem = s.mem := rfl
@[simp] theorem setRing_run (rq : Req) (r : Ring) : (s.setRing rq r).run = s.run := rfl
@[simp] theorem setRing_out (rq : Req) (r : Ring) : (s.setRing rq r).out = s.out := rfl
@[simp] theorem setRing_pending (rq : Req) (r : Ring) : (s.setRing rq r).pending = s.pending := rfl

/-! ### Registers after an update of another part -/

@[simp] theorem reg_setSpin (k : Nat) (x : Spindle) (o : Nat) : (s.setSpin k x).reg o = s.reg o := rfl
@[simp] theorem reg_setRinger (k : Nat) (x : Ringer) (o : Nat) : (s.setRinger k x).reg o = s.reg o := rfl
@[simp] theorem reg_setBobbin (k : Nat) (x : Bobbin) (o : Nat) : (s.setBobbin k x).reg o = s.reg o := rfl
@[simp] theorem reg_setChan (r c : Nat) (x : Chan) (o : Nat) : (s.setChan r c x).reg o = s.reg o := rfl
@[simp] theorem reg_setReel (k : Nat) (x : Reel) (o : Nat) : (s.setReel k x).reg o = s.reg o := rfl
@[simp] theorem reg_setHost (k : Nat) (x : HostPort) (o : Nat) : (s.setHost k x).reg o = s.reg o := rfl
@[simp] theorem reg_setPow (k : Nat) (x : FieldPow) (o : Nat) : (s.setPow k x).reg o = s.reg o := rfl
@[simp] theorem reg_setLink (k : Nat) (x : Link) (o : Nat) : (s.setLink k x).reg o = s.reg o := rfl
@[simp] theorem reg_setFmap (k : Nat) (x : FieldMap) (o : Nat) : (s.setFmap k x).reg o = s.reg o := rfl
@[simp] theorem reg_setNir (k : Nat) (x : Nirdor) (o : Nat) : (s.setNir k x).reg o = s.reg o := rfl
@[simp] theorem reg_modBel (f : Belfry → Belfry) (o : Nat) : (s.modBel f).reg o = s.reg o := rfl
@[simp] theorem reg_modClk (f : Clocks → Clocks) (o : Nat) : (s.modClk f).reg o = s.reg o := rfl
@[simp] theorem reg_modRun (f : Run → Run) (o : Nat) : (s.modRun f).reg o = s.reg o := rfl
@[simp] theorem reg_emit (x : Output) (o : Nat) : (s.emit x).reg o = s.reg o := rfl
@[simp] theorem reg_enqueue (x : Msg) (o : Nat) : (s.enqueue x).reg o = s.reg o := rfl
@[simp] theorem reg_setRing (rq : Req) (r : Ring) (o : Nat) : (s.setRing rq r).reg o = s.reg o := rfl
@[simp] theorem reg_setMark (k : Nat) (b : Bool) (o : Nat) : (setMark s k b).reg o = s.reg o := rfl
@[simp] theorem reg_writeByte (a : Nat) (b : Byte) (o : Nat) : (writeByte s a b).reg o = s.reg o := rfl
@[simp] theorem reg_modSpin (k : Nat) (f : Spindle → Spindle) (o : Nat) : (s.modSpin k f).reg o = s.reg o := rfl
@[simp] theorem reg_modNir (k : Nat) (f : Nirdor → Nirdor) (o : Nat) : (s.modNir k f).reg o = s.reg o := rfl
@[simp] theorem reg_free (w : Nat) (o : Nat) : ((s.free w).2).reg o = s.reg o := rfl

end State

/-! ### A spindle's registers -/
namespace Spindle
variable (p : Spindle)

@[simp] theorem wreg_setW_same (k o : Nat) (v : Word) : (p.setW k o v).wreg k o = v := by simp [wreg, setW]

theorem wreg_setW_other {k o k' o' : Nat} (v : Word) (h : k' * 4096 + o' ≠ k * 4096 + o) :
    (p.setW k o v).wreg k' o' = p.wreg k' o' := SMap.get_set_other _ _ _ h

@[simp] theorem wf_setWf_same (k o v : Nat) {hi lo : Nat} (h : hi < 32) :
    (p.setWf k o hi lo v).wf_ k o hi lo = v % 2 ^ (hi + 1 - lo) := by
  simp [wf_, setWf, getF_putF_same _ _ h]

@[simp] theorem vreg_setV_same (r : Nat) (v : BitVec 512) : (p.setV r v).vreg r = v := by simp [vreg, setV]

theorem vreg_setV_other {r q : Nat} (v : BitVec 512) (h : q ≠ r) : (p.setV r v).vreg q = p.vreg q :=
  SMap.get_set_other _ _ _ h

@[simp] theorem lacc_setLa_same (i l : Nat) (v : BitVec 128) : (p.setLa i l v).lacc i l = v := by simp [lacc, setLa]

theorem lacc_setLa_other {i l i' l' : Nat} (v : BitVec 128) (h : i' * 16 + l' ≠ i * 16 + l) :
    (p.setLa i l v).lacc i' l' = p.lacc i' l' := SMap.get_set_other _ _ _ h

@[simp] theorem vreg_setW (k o r : Nat) (v : Word) : (p.setW k o v).vreg r = p.vreg r := rfl
@[simp] theorem vreg_setLa (i l r : Nat) (v : BitVec 128) : (p.setLa i l v).vreg r = p.vreg r := rfl
@[simp] theorem lacc_setV (r i l : Nat) (v : BitVec 512) : (p.setV r v).lacc i l = p.lacc i l := rfl
@[simp] theorem lacc_setW (k o i l : Nat) (v : Word) : (p.setW k o v).lacc i l = p.lacc i l := rfl
@[simp] theorem wreg_setV (r k o : Nat) (v : BitVec 512) : (p.setV r v).wreg k o = p.wreg k o := rfl
@[simp] theorem wreg_setLa (i l k o : Nat) (v : BitVec 128) : (p.setLa i l v).wreg k o = p.wreg k o := rfl

/-- A tap takes what is added modulo 2^16 (R72). -/
@[simp] theorem tap_setTap_same (t v : Nat) : (p.setTap t v).tap t = v % 2 ^ 16 := by
  unfold tap setTap
  rw [wf_setWf_same _ _ _ _ (by omega)]
  congr 2
  omega

end Spindle
end Sys2Proof.Machine
end

