-- ==== Sys2Proof/Laws/Registers.lean ====
section
/-! SUPPORT. Registers, events and counters: what a register reads after each shared operation on registers, and that
such an operation changes registers only. -/
namespace Sys2Proof.Machine

/-! ### States that differ in registers only -/

theorem onlyRegs.rfl {s : State} : onlyRegs s s := Eq.refl _

theorem onlyRegs.trans {s t u : State} (h : onlyRegs s t) (k : onlyRegs t u) : onlyRegs s u := by
  rw [onlyRegs] at h k ⊢
  rw [k, h]

/-- A state change that leaves the registers alone does the same to both states. -/
theorem onlyRegs.reg_congr {s t : State} (h : onlyRegs s t) : ∃ r, t = { s with regs := r } := ⟨_, h⟩

section
variable {s t : State} (h : onlyRegs s t)
include h
theorem onlyRegs.mem : t.mem = s.mem := by rw [h]
theorem onlyRegs.marks : t.marks = s.marks := by rw [h]
theorem onlyRegs.spindles : t.spindles = s.spindles := by rw [h]
theorem onlyRegs.mesh : t.mesh = s.mesh := by rw [h]
theorem onlyRegs.latches : t.latches = s.latches := by rw [h]
theorem onlyRegs.links : t.links = s.links := by rw [h]
theorem onlyRegs.ringers : t.ringers = s.ringers := by rw [h]
theorem onlyRegs.bobbins : t.bobbins = s.bobbins := by rw [h]
theorem onlyRegs.chans : t.chans = s.chans := by rw [h]
theorem onlyRegs.reels : t.reels = s.reels := by rw [h]
theorem onlyRegs.run : t.run = s.run := by rw [h]
theorem onlyRegs.hosts : t.hosts = s.hosts := by rw [h]
theorem onlyRegs.nirdors : t.nirdors = s.nirdors := by rw [h]
theorem onlyRegs.belfry : t.belfry = s.belfry := by rw [h]
theorem onlyRegs.clocks : t.clocks = s.clocks := by rw [h]
theorem onlyRegs.power : t.power = s.power := by rw [h]
theorem onlyRegs.maps : t.maps = s.maps := by rw [h]
theorem onlyRegs.out : t.out = s.out := by rw [h]
theorem onlyRegs.pending : t.pending = s.pending := by rw [h]
theorem onlyRegs.freeCtr : t.freeCtr = s.freeCtr := by rw [h]
theorem onlyRegs.start : t.start = s.start := by rw [h]
end

namespace State
variable (s : State)

/-! ### Single registers -/

@[simp] theorem reg_setReg_same (o : Nat) (v : Word) : (s.setReg o v).reg o = v := by simp [reg]

theorem reg_setReg_other {o p : Nat} (v : Word) (h : p ≠ o) : (s.setReg o v).reg p = s.reg p :=
  SMap.get_set_other _ _ _ h

theorem reg_setReg (o p : Nat) (v : Word) : (s.setReg o v).reg p = if p = o then v else s.reg p :=
  SMap.get_set _ _ _ _ _

theorem reg_fset (o p hi lo v : Nat) :
    (s.fset o hi lo v).reg p = if p = o then putF (s.reg o) hi lo v else s.reg p := reg_setReg s o p _

theorem reg_fset_other {o p : Nat} (hi lo v : Nat) (h : p ≠ o) : (s.fset o hi lo v).reg p = s.reg p :=
  reg_setReg_other s _ h

/-- A field reads what was stored in it, modulo its width (R7). -/
@[simp] theorem fget_fset_same (o v : Nat) {hi lo : Nat} (h : hi < 32) :
    (s.fset o hi lo v).fget o hi lo = v % 2 ^ (hi + 1 - lo) := by
  simp [fget, fset, getF_putF_same _ _ h]

theorem fget_setReg_other {o p : Nat} (v : Word) (hi lo : Nat) (h : p ≠ o) :
    (s.setReg o v).fget p hi lo = s.fget p hi lo := by simp [fget, reg_setReg_other s v h]

theorem fget_fset_other {o p : Nat} (hi lo v hi' lo' : Nat) (h : p ≠ o) :
    (s.fset o hi lo v).fget p hi' lo' = s.fget p hi' lo' := fget_setReg_other s _ _ _ h

theorem fget_fset_apart {o hi lo hi' lo' : Nat} (v : Nat) (h : hi' < 32) (ha : hi < lo' ∨ hi' < lo) :
    (s.fset o hi lo v).fget o hi' lo' = s.fget o hi' lo' := by
  simp [fget, fset, getF_putF_apart _ _ h ha]

theorem bget_setReg_other {o p : Nat} (v : Word) (i : Nat) (h : p ≠ o) : (s.setReg o v).bget p i = s.bget p i := by
  simp [bget, reg_setReg_other s v h]

theorem onlyRegs_setReg (o : Nat) (v : Word) : onlyRegs s (s.setReg o v) := rfl
theorem onlyRegs_fset (o hi lo v : Nat) : onlyRegs s (s.fset o hi lo v) := rfl

/-! ### Events (R39) -/

theorem onlyRegs_raise (pg b : Nat) : onlyRegs s (s.raise pg b) := by
  unfold raise
  dsimp only
  split <;> rfl

theorem onlyRegs_raiseIf (c : Bool) (pg b : Nat) : onlyRegs s (s.raiseIf c pg b) := by
  cases c
  · rfl
  · exact onlyRegs_raise s pg b

/-- An occurrence sets the event's bit in EVT_STATUS. -/
@[simp] theorem bget_raise (pg : Nat) {b : Nat} (h : b < 32) : (s.raise pg b).bget (pg + 0x18) b = true := by
  simp [raise, bget, getB_putB_same _ _ h]

/-- An occurrence while the bit is set sets the event's bit in EVT_AGAIN. -/
theorem bget_raise_again (pg : Nat) {b : Nat} (h : b < 32) (hs : s.bget (pg + 0x18) b = true) :
    (s.raise pg b).bget (pg + 0x1C) b = true := by
  rw [raise, if_pos hs]
  rw [bget_setReg_other _ _ _ (by omega)]
  simp [bget, getB_putB_same _ _ h]

/-- An occurrence touches the page's EVT_STATUS and EVT_AGAIN only. -/
theorem reg_raise_other (pg b : Nat) {o : Nat} (h1 : o ≠ pg + 0x18) (h2 : o ≠ pg + 0x1C) :
    (s.raise pg b).reg o = s.reg o := by
  unfold raise
  dsimp only
  split
  · rw [reg_setReg_other _ _ h1, reg_setReg_other _ _ h2]
  · rw [reg_setReg_other _ _ h1]

theorem reg_raiseIf_other (c : Bool) (pg b : Nat) {o : Nat} (h1 : o ≠ pg + 0x18) (h2 : o ≠ pg + 0x1C) :
    (s.raiseIf c pg b).reg o = s.reg o := by
  cases c
  · rfl
  · exact reg_raise_other s pg b h1 h2

theorem fget_raise_other (pg b : Nat) {o : Nat} (hi lo : Nat) (h1 : o ≠ pg + 0x18) (h2 : o ≠ pg + 0x1C) :
    (s.raise pg b).fget o hi lo = s.fget o hi lo := by rw [fget, reg_raise_other s pg b h1 h2, fget]

/-- A bit of EVT_STATUS that is set stays set. -/
theorem bget_raise_keeps (pg b i : Nat) (h : s.bget (pg + 0x18) i = true) : (s.raise pg b).bget (pg + 0x18) i = true := by
  by_cases hi : i < 32
  · by_cases e : i = b
    · subst e; exact bget_raise s pg hi
    · unfold raise bget
      dsimp only
      rw [reg_setReg_same, getB_putB_other _ _ e]
      split
      · rw [reg_setReg_other _ _ (by omega)]; exact h
      · exact h
  · exfalso
    rw [bget, getB_eq, BitVec.getLsbD_of_ge _ _ (by omega)] at h
    exact Bool.false_ne_true h

/-! ### Counters (R42, R44) -/

theorem onlyRegs_bump48 (pg lo n : Nat) : onlyRegs s (s.bump48 pg lo n) := by
  unfold bump48
  dsimp only
  split
  · refine onlyRegs.trans ?_ (onlyRegs_raise _ _ _)
    rfl
  · rfl

theorem onlyRegs_bump31 (pg o n : Nat) : onlyRegs s (s.bump31 pg o n) := by
  unfold bump31
  dsimp only
  split
  · refine onlyRegs.trans ?_ (onlyRegs_raise _ _ _)
    rfl
  · rfl

theorem onlyRegs_errCorr (pg : Nat) : onlyRegs s (s.errCorr pg) :=
  (onlyRegs_bump31 s _ _ _).trans (onlyRegs_raise _ _ _)
theorem onlyRegs_errUncorr (pg : Nat) : onlyRegs s (s.errUncorr pg) :=
  (onlyRegs_bump31 s _ _ _).trans (onlyRegs_raise _ _ _)
theorem onlyRegs_eaUnmapped (pg : Nat) : onlyRegs s (s.eaUnmapped pg) :=
  (onlyRegs_errUncorr s pg).trans (onlyRegs_raise _ _ _)

/-- A counter touches its own pair and the two event registers of its page. -/
theorem reg_bump48_other (pg lo n : Nat) {o : Nat} (h1 : o ≠ lo) (h2 : o ≠ lo + 4) (h3 : o ≠ pg + 0x18) (h4 : o ≠ pg + 0x1C) :
    (s.bump48 pg lo n).reg o = s.reg o := by
  unfold bump48
  dsimp only
  split
  · rw [reg_raise_other _ _ _ h3 h4, reg_setReg_other _ _ h2, reg_setReg_other _ _ h2, reg_setReg_other _ _ h1]
  · rw [reg_setReg_other _ _ h2, reg_setReg_other _ _ h1]

theorem reg_bump31_other (pg a n : Nat) {o : Nat} (h1 : o ≠ a) (h3 : o ≠ pg + 0x18) (h4 : o ≠ pg + 0x1C) :
    (s.bump31 pg a n).reg o = s.reg o := by
  unfold bump31
  dsimp only
  split
  · rw [reg_raise_other _ _ _ h3 h4, reg_setReg_other _ _ h1, reg_setReg_other _ _ h1]
  · rw [reg_setReg_other _ _ h1]

/-- The low word of a 48-bit counter counts modulo 2^32. -/
theorem reg_bump48_lo (pg lo n : Nat) (h3 : lo ≠ pg + 0x18) (h4 : lo ≠ pg + 0x1C) :
    (s.bump48 pg lo n).reg lo = s.reg lo + BitVec.ofNat 32 n := by
  have key : BitVec.ofNat 32 ((s.reg lo).toNat + 2 ^ 32 * s.fget (lo + 4) 15 0 + n) = s.reg lo + BitVec.ofNat 32 n := by
    apply BitVec.eq_of_toNat_eq
    simp [BitVec.toNat_add]
    omega
  unfold bump48
  dsimp only
  split
  · rw [reg_raise_other _ _ _ h3 h4, reg_setReg_other _ _ (by omega), reg_setReg_other _ _ (by omega), reg_setReg_same, key]
  · rw [reg_setReg_other _ _ (by omega), reg_setReg_same, key]

/-! ### Readiness (R37) -/

theorem onlyRegs_setReady (pg st reason : Nat) : onlyRegs s (s.setReady pg st reason) :=
  onlyRegs.trans (t := (s.fset (pg + 0xC) 1 0 st).fset (pg + 0xC) 11 8 reason) rfl (onlyRegs_raiseIf _ _ _ _)

@[simp] theorem readyState_setReady (pg st reason : Nat) : (s.setReady pg st reason).readyState pg = st % 4 := by
  unfold setReady readyState
  dsimp only
  rw [fget, reg_raiseIf_other _ _ _ _ (by omega) (by omega), ← fget, fget_fset_apart _ _ (by omega) (by omega),
    fget_fset_same _ _ _ (by omega)]
  rfl

@[simp] theorem readyReason_setReady (pg st reason : Nat) : (s.setReady pg st reason).readyReason pg = reason % 16 := by
  unfold setReady readyReason
  dsimp only
  rw [fget, reg_raiseIf_other _ _ _ _ (by omega) (by omega), ← fget, fget_fset_same _ _ _ (by omega)]
  rfl

/-- A change of STATE raises READY_CHANGE, event 27. -/
theorem setReady_event (pg st reason : Nat) (h : s.readyState pg ≠ st) :
    (s.setReady pg st reason).bget (pg + 0x18) 27 = true := by
  unfold setReady
  dsimp only
  rw [show (s.readyState pg != st) = true by simpa using h]
  exact bget_raise _ _ (by omega)

theorem reg_setReady_other (pg st reason : Nat) {o : Nat} (h0 : o ≠ pg + 0xC) (h1 : o ≠ pg + 0x18) (h2 : o ≠ pg + 0x1C) :
    (s.setReady pg st reason).reg o = s.reg o := by
  unfold setReady
  dsimp only
  rw [reg_raiseIf_other _ _ _ _ h1 h2, reg_fset_other _ _ _ _ h0, reg_fset_other _ _ _ _ h0]

/-! ### Completion entries and the log -/

/-- A completion entry that falls due changes the ring records of the host ports only. -/
theorem postCpl_regs (c : Cmd) (st d : Nat) (k : Word) (r : BitVec 128) : (postCpl s c st d k r).regs = s.regs := by
  unfold postCpl setRing
  dsimp only
  split
  · rfl
  · rfl

/-- A log entry leaves the memory, the marks and the spindles alone. -/
theorem addLog_mem (code sev : Nat) (l : List Nat) (a b : Nat) (st : Option (Nat × Nat)) :
    (addLog s code sev l a b st).mem = s.mem ∧ (addLog s code sev l a b st).marks = s.marks
      ∧ (addLog s code sev l a b st).spindles = s.spindles := by
  unfold addLog
  split
  · simp
  · dsimp only
    have h := onlyRegs_raiseIf
    refine ⟨?_, ?_, ?_⟩
    · rw [(h _ _ _ _).mem]; rfl
    · rw [(h _ _ _ _).marks]; rfl
    · rw [(h _ _ _ _).spindles]; rfl

end State
end Sys2Proof.Machine
end

