-- ==== Sys2Proof/Laws/Bar0.lean ====
section
/-! SUPPORT. BAR0: what a register write, an event write, a latch and a denial change. -/
namespace Sys2Proof.Machine

theorem align4 {o : Nat} (h : o % 4 = 0) : o / 4 * 4 = o := by omega

/-- A bit of an access mask is set where a field of that access covers it. -/
theorem getLsbD_accMask (p : Acc → Bool) (fs : List RField) (i : Nat) (hi : i < 32) :
    (accMask p fs).getLsbD i = true ↔ bitAcc fs (fun a => p a = true) i := by
  have key : ∀ (l : List RField) (a : Word), (l.foldl (fun a f => if p f.acc then a ||| BitVec.ofNat 32 (maskF f.hi f.lo) else a) a).getLsbD i = true ↔
      (a.getLsbD i = true ∨ bitAcc l (fun a => p a = true) i) := by
    intro l
    induction l with
    | nil => intro a; simp [bitAcc]
    | cons f l ih =>
      intro a
      rw [List.foldl_cons, ih]
      have hc : bitAcc (f :: l) (fun a => p a = true) i ↔ ((f.lo ≤ i ∧ i ≤ f.hi ∧ p f.acc = true) ∨ bitAcc l (fun a => p a = true) i) := by
        simp [bitAcc]
      rw [hc]
      by_cases hp : p f.acc = true
      · simp only [hp, if_true, BitVec.getLsbD_or, BitVec.getLsbD_ofNat, testBit_maskF, hi, decide_true, Bool.true_and, Bool.or_eq_true, Bool.and_eq_true, decide_eq_true_eq, and_true]
        have : (f.lo ≤ i ∧ i - f.lo < f.hi + 1 - f.lo) ↔ (f.lo ≤ i ∧ i ≤ f.hi) := by omega
        rw [this]; tauto
      · simp [hp]
  have := key fs 0#32
  simpa [accMask] using this

/-- A denial changes the denial registers only (R45). -/
theorem deny_frame (s : State) (p sp off : Nat) : onlyRegsAt denialReg s (deny s p sp off) := by
  have h1 : onlyRegsAt denialReg s ((s.bump48 pGlobal (pGlobal + 0x70) 1).raise pGlobal 0) := by
    refine ⟨(State.onlyRegs_bump48 _ _ _ _).trans (State.onlyRegs_raise _ _ _), fun o ho => ?_⟩
    unfold denialReg at ho
    rw [State.reg_raise_other _ _ _ (by omega) (by omega), State.reg_bump48_other _ _ _ _ (by omega) (by omega) (by omega) (by omega)]
  unfold deny
  dsimp only
  split
  · exact h1
  · refine ⟨h1.1.trans (State.onlyRegs_setReg _ _ _), fun o ho => ?_⟩
    rw [State.reg_setReg_other _ _ (by unfold denialReg at ho; omega)]
    exact h1.2 o ho

/-- A plain register is stored; the edge ring's page has one place. -/
theorem writeBlock_plain {k : Page} {o : Nat} (h : plainReg k.kind o = true) (hb : k.kind = .edgeRing → k.base = pRing) (s rq fs v d) :
    writeBlock s rq k o fs v d = s.setReg (k.base + o) v := by
  obtain ⟨kind, base, typ, n, kk⟩ := k
  unfold plainReg at h
  simp only [Bool.and_eq_true, decide_eq_true_eq] at h
  obtain ⟨h0, h⟩ := h
  cases kind <;> simp at h <;> try simp [writeBlock, h]
  · rw [if_neg (by omega), if_neg (by omega)]
  · rw [writeEdgeRing, if_neg h.1.1, if_neg h.1.2, if_neg (by simp; omega), show base = pRing from hb rfl]

/-- A plain register is not one of the pages with rules of their own. -/
theorem plain_kind {k : PKind} {o : Nat} (h : plainReg k o = true) : k ≠ .hpMsix ∧ k ≠ .hpPba ∧ k ≠ .mboxCh ∧ 0x40 ≤ o ∧ k ≠ .ply ∧ k ≠ .win5 ∧ k ≠ .win6 ∧ k ≠ .win7 := by
  unfold plainReg at h
  simp only [Bool.and_eq_true, decide_eq_true_eq] at h
  refine ⟨?_, ?_, ?_, h.1, ?_, ?_, ?_, ?_⟩ <;> (rintro rfl; simp at h)

/-- A page that no function owns is not foreign. -/
theorem foreign_plain {pg : Page} {rq : Req} {o : Nat} (h1 : pg.kind ≠ .hpMsix) (h2 : pg.kind ≠ .hpPba) (h3 : pg.kind ≠ .mboxCh) :
    foreign pg rq o = false := by
  unfold foreign ownedBy
  split <;> simp_all

theorem regFields_of_page {k o fs} (h : pageFields k o = some fs) : (regFields k o).isSome = true := by
  unfold pageFields at h
  split at h <;> simp_all

/-- Each requester has its own latch of each pair (R43). -/
theorem latchKey_inj {rq rq' : Req} {lo lo' : Nat} (h : latchKey rq lo = latchKey rq' lo') : rq = rq' ∧ lo = lo' := by
  obtain ⟨p, f⟩ := rq
  obtain ⟨p', f'⟩ := rq'
  simp only [latchKey] at h
  have h1 : f.toNat < 2 := by cases f <;> decide
  have h2 : f'.toNat < 2 := by cases f' <;> decide
  have h3 := p.isLt
  have h4 := p'.isLt
  refine ⟨?_, by omega⟩
  have a : p.val = p'.val := by omega
  have b : f.toNat = f'.toNat := by omega
  have c : f = f' := by revert b; cases f <;> cases f' <;> decide
  rw [Fin.ext a, c]

theorem latchOf_setLatch_other (s : State) {rq rq' : Req} {lo lo' : Nat} (v) (h : ¬ (rq' = rq ∧ lo' = lo)) :
    latchOf (setLatch s rq lo v) rq' lo' = latchOf s rq' lo' :=
  SMap.get_set_other _ _ _ (fun e => h (latchKey_inj e))

theorem latchOf_setLatch_same (s : State) (rq : Req) (lo : Nat) (v) : latchOf (setLatch s rq lo v) rq lo = v := by
  simp [latchOf, setLatch]

theorem latchOf_emit (s : State) (x : Output) (rq : Req) (lo : Nat) : latchOf (s.emit x) rq lo = latchOf s rq lo := rfl

/-- What every turn of a loop keeps, the loop keeps. -/
theorem forEach_inv {σ α} (P : σ → Prop) (f : α → σ → σ) (hf : ∀ a x, P x → P (f a x)) : ∀ (l : List α) (x : σ), P x → P (forEach l f x) := by
  intro l
  induction l with
  | nil => intro x h; exact h
  | cons a l ih => intro x h; exact ih _ (hf a x h)

/-- `t` is `s` but for the records of the host ports. -/
def onlyHosts (s t : State) : Prop := t = { s with hosts := t.hosts }

theorem onlyHosts.trans {s t u : State} (h : onlyHosts s t) (k : onlyHosts t u) : onlyHosts s u := by
  rw [onlyHosts] at h k ⊢; rw [k, h]

theorem onlyHosts_setRing (s : State) (rq r) : onlyHosts s (s.setRing rq r) := rfl

/-- Bringing the vectors up to date changes the records of the host ports only. -/
theorem syncVectors_hosts (s : State) : onlyHosts s (syncVectors s) :=
  forEach_inv (fun t => onlyHosts s t) _ (fun _ _ h => h.trans (onlyHosts_setRing _ _ _)) _ _ rfl

theorem evtWritten_hosts (s : State) (pg : Nat) : onlyHosts s (evtWritten s pg) :=
  forEach_inv (fun t => onlyHosts s t) _ (fun _ _ h => by
    split
    · exact h
    · exact h.trans (onlyHosts_setRing _ _ _)) _ _ (syncVectors_hosts s)

theorem onlyHosts.reg {s t : State} (h : onlyHosts s t) (o : Nat) : t.reg o = s.reg o := by rw [h]; rfl

/-- The bits of the EVT registers of a page. -/
def evtMask (k : PKind) : Word := BitVec.ofNat 32 (2 ^ evtCount k - 1 + 0xF8000000)

/-- The fields of the EVT registers are their pages' defined events. -/
theorem evt_mask (k : PKind) : (∃ fs, pageFields k 0x18 = some fs ∧ w1cBits fs = evtMask k) ∧
    (∃ fs, pageFields k 0x1C = some fs ∧ w1cBits fs = evtMask k) ∧ (∃ fs, pageFields k 0x24 = some fs ∧ wsBits fs = evtMask k) := by
  cases k with
  | hostReel b => cases b <;> exact ⟨⟨_, rfl, by decide⟩, ⟨_, rfl, by decide⟩, ⟨_, rfl, by decide⟩⟩
  | reel b => cases b <;> exact ⟨⟨_, rfl, by decide⟩, ⟨_, rfl, by decide⟩, ⟨_, rfl, by decide⟩⟩
  | _ => exact ⟨⟨_, rfl, by decide⟩, ⟨_, rfl, by decide⟩, ⟨_, rfl, by decide⟩⟩

theorem evtMask_bit (k : PKind) (i : Nat) (hi : i < 32) (h : evtBit k i) : (evtMask k).getLsbD i = true := by
  have h1 : ∀ n, n ≤ 24 → ∀ i, i < 32 → (i < n ∨ 27 ≤ i) → (BitVec.ofNat 32 (2 ^ n - 1 + 0xF8000000)).getLsbD i = true := by decide
  have h2 : evtCount k ≤ 24 := by cases k <;> simp [evtCount]
  exact h1 _ h2 i hi (h.imp id And.left)

/-- `t` is `s` but for its registers and the records of the host ports. -/
def regsHosts (s t : State) : Prop := t = { s with regs := t.regs, hosts := t.hosts }

theorem regsHosts.trans {s t u : State} (h : regsHosts s t) (k : regsHosts t u) : regsHosts s u := by
  rw [regsHosts] at h k ⊢; rw [k, h]

theorem onlyHosts.rh {s t : State} (h : onlyHosts s t) : regsHosts s t := by rw [onlyHosts] at h; rw [regsHosts, h]

theorem onlyRegs.rh {s t : State} (h : onlyRegs s t) : regsHosts s t := by rw [onlyRegs] at h; rw [regsHosts, h]

/-- What a write to EVT_STATUS leaves (R40). -/
theorem clearEvents_frame (s : State) (pg : Page) (d same : Word) :
    regsHosts s (clearEvents s pg 0x18 d same) ∧
    (clearEvents s pg 0x18 d same).reg (pg.base + 0x18) = s.reg (pg.base + 0x18) &&& ~~~(d &&& ~~~(same &&& s.reg (pg.base + 0x18))) ∧
    (clearEvents s pg 0x18 d same).reg (pg.base + 0x1C) = s.reg (pg.base + 0x1C) ||| (d &&& (same &&& s.reg (pg.base + 0x18))) ∧
    sameRegs (fun o => o = pg.base + 0x18 ∨ o = pg.base + 0x1C) s (clearEvents s pg 0x18 d same) := by
  unfold clearEvents
  dsimp only
  simp only [decide_true, Bool.true_and]
  refine ⟨?_, ?_, ?_, ?_⟩
  · refine regsHosts.trans ?_ (evtWritten_hosts _ _).rh
    split <;> rfl
  · rw [(evtWritten_hosts _ _).reg]
    split
    · rw [State.reg_setReg_other _ _ (by omega), State.reg_setReg_same]
    · rw [State.reg_setReg_same]
  · rw [(evtWritten_hosts _ _).reg]
    split
    · rw [State.reg_setReg_same, State.reg_setReg_other _ _ (by omega)]
    · rename_i h
      rw [State.reg_setReg_other _ _ (by omega)]
      have : d &&& (same &&& s.reg (pg.base + 0x18)) = 0#32 := by simpa using h
      rw [this]; simp
  · intro o ho
    simp only [not_or] at ho
    rw [(evtWritten_hosts _ _).reg]
    split
    · rw [State.reg_setReg_other _ _ ho.2, State.reg_setReg_other _ _ ho.1]
    · rw [State.reg_setReg_other _ _ ho.1]

/-- The header registers keep working (R38). -/
theorem pageOut_hdr (s pg) {o : Nat} (h : o < 0x40) : pageOut s pg o = false := by
  unfold pageOut; rw [decide_eq_false (by omega)]; rfl

theorem foreign_hdr (pg rq) {o : Nat} (h : o < 0x40) : foreign pg rq o = false := by
  unfold foreign; rw [decide_eq_false (by omega)]; rfl

/-- Function 0 writes every page. -/
theorem writable_priv (s pg port) : writable s pg ⟨port, false⟩ = true := by simp [writable]

/-- A privileged write of a header register. -/
theorem writeReg_hdr (s : State) (port : Fin 4) (pg : Page) (base o : Nat) (d : Word) (fs) (hb : base % 0x1000 = 0) (ho : o < 0x40)
    (hl : locate base = some pg) (ha : absent s pg = false) (hf : pageFields pg.kind o = some fs) :
    pg.base = base ∧ writeReg s ⟨port, false⟩ (base + o) d
      = writeHeader s ⟨port, false⟩ pg o fs (written ⟨port, false⟩ fs (s.reg (base + o)) d) d := by
  have e := locate_base hl
  have e2 : pg.base = base := by omega
  have hl2 : locate (base + o) = some pg := by rw [← hl]; exact locate_congr (by omega)
  refine ⟨e2, ?_⟩
  have h3 : base + o - pg.base = o := by omega
  unfold writeReg
  simp only [hl2, h3, pageOut_hdr s pg ho, ha, foreign_hdr pg _ ho, hf, writable_priv]
  have : ¬ 0x800 ≤ o := by omega
  simp [this, filtered, ho]

theorem evt_bits (v d m same : Word) (i : Nat) (hi : i < 32) (hm : m.getLsbD i = true) :
   (v &&& ~~~(d &&& m &&& ~~~(same &&& v))).getLsbD i = (v.getLsbD i && (!d.getLsbD i || same.getLsbD i)) := by
  simp only [BitVec.getLsbD_and, BitVec.getLsbD_not, hi, hm, decide_true, Bool.true_and]
  generalize v.getLsbD i = a
  generalize d.getLsbD i = b
  generalize same.getLsbD i = c
  revert a b c; decide

/-- Raising a list of distinct events for which `b` holds. -/
theorem raiseAll (s : State) (pg : Nat) (b : Nat → Bool) (n : Nat) (hn : n ≤ 32) :
    let t := forEach (List.range n) (fun i s => s.raiseIf (b i) pg i) s
    onlyRegs s t ∧ sameRegs (fun o => o = pg + 0x18 ∨ o = pg + 0x1C) s t ∧
    (∀ i, i < 32 → t.bget (pg + 0x18) i = (s.bget (pg + 0x18) i || (decide (i < n) && b i)) ∧
      t.bget (pg + 0x1C) i = (s.bget (pg + 0x1C) i || (decide (i < n) && s.bget (pg + 0x18) i && b i))) := by
  induction n with
  | zero => exact ⟨rfl, fun _ _ => rfl, fun i hi => by simp [forEach]⟩
  | succ n ih =>
    obtain ⟨h1, h2, h3⟩ := ih (by omega)
    simp only [forEach, List.range_succ, List.foldl_append, List.foldl_cons, List.foldl_nil] at *
    set u := List.foldl (fun t a => t.raiseIf (b a) pg a) s (List.range n) with hu
    refine ⟨h1.trans (State.onlyRegs_raiseIf _ _ _ _), fun o ho => ?_, fun i hi => ?_⟩
    · have ho' := ho
      simp only [not_or] at ho'
      rw [State.reg_raiseIf_other _ _ _ _ ho'.1 ho'.2]; exact h2 o ho
    · obtain ⟨a1, a2⟩ := h3 i hi
      have e1 := (h3 n (by omega)).1
      simp only [lt_irrefl, decide_false, Bool.false_and, Bool.or_false] at e1
      cases hb : b n
      · simp only [State.raiseIf, Bool.false_eq_true, if_false, a1, a2]
        by_cases hin : i = n
        · subst hin; simp [hb]
        · have : decide (i < n + 1) = decide (i < n) := by rw [decide_eq_decide]; omega
          rw [this]; exact ⟨rfl, rfl⟩
      · have hst : (u.raise pg n).reg (pg + 0x18) = putB (u.reg (pg + 0x18)) n true := by
          unfold State.raise
          dsimp only
          rw [State.reg_setReg_same]
          split
          · rw [State.reg_setReg_other _ _ (by omega)]
          · rfl
        have hag : (u.raise pg n).reg (pg + 0x1C) = if s.bget (pg + 0x18) n = true then putB (u.reg (pg + 0x1C)) n true else u.reg (pg + 0x1C) := by
          unfold State.raise
          dsimp only
          rw [State.reg_setReg_other _ _ (by omega), e1]
          split
          · rw [State.reg_setReg_same]
          · rfl
        simp only [State.raiseIf, if_true]
        by_cases hin : i = n
        · subst hin
          constructor
          · rw [State.bget, hst, getB_putB_same _ _ hi]
            simp [hb]
          · rw [State.bget, hag]
            split
            · rename_i hh
              rw [getB_putB_same _ _ hi]; simp [hb, hh]
            · rename_i hh
              rw [← State.bget, a2]; simp [hh]
        · have : decide (i < n + 1) = decide (i < n) := by rw [decide_eq_decide]; omega
          rw [this, ← a1, ← a2]
          constructor
          · rw [State.bget, hst, getB_putB_other _ _ hin]; rfl
          · rw [State.bget, hag]
            split
            · rw [getB_putB_other _ _ hin]; rfl
            · rfl

theorem filtered_cases (s : State) (c : Bool) (p sp off) : onlyRegsAt denialReg s (if c then deny s p sp off else s) := by
  split
  · exact deny_frame _ _ _ _
  · exact ⟨rfl, fun _ _ => rfl⟩

theorem sync_regsAt (s : State) (p : Nat → Prop) : regsHosts s (syncVectors s) ∧ sameRegs p s (syncVectors s) :=
  ⟨(syncVectors_hosts s).rh, fun o _ => (syncVectors_hosts s).reg o⟩

/-- What a table reads after keys were dropped from it. -/
theorem get_filter {α} (d : Nat → α) (p : Nat → Bool) (m : SMap α) (k : Nat) :
    SMap.get d (m.filter (fun e => !p e.1)) k = if p k then d k else SMap.get d m k := by
  induction m with
  | nil => simp [SMap.get]
  | cons e m ih =>
    obtain ⟨k', v⟩ := e
    by_cases hp : p k'
    · rw [List.filter_cons_of_neg (by simp [hp]), ih]
      by_cases hk : k' = k
      · subst hk; simp [hp]
      · simp [SMap.get, hk]
    · rw [List.filter_cons_of_pos (by simp [hp])]
      by_cases hk : k' = k
      · subst hk; simp [SMap.get, hp]
      · simp [SMap.get, hk, ih]

theorem ctl_fields (k : PKind) : ∃ fs, pageFields k 0x10 = some fs := by
  cases k with
  | hostReel b => cases b <;> exact ⟨_, rfl⟩
  | reel b => cases b <;> exact ⟨_, rfl⟩
  | _ => exact ⟨_, rfl⟩

theorem winKind_eq (k : Nat) (h : k ≤ 6) : winKind k = (if k ≤ 4 then .ply else if k = 5 then .win5 else .win6) := by
  unfold winKind
  by_cases a : k ≤ 4
  · simp [a]
  · by_cases b : k = 5
    · simp [b]
    · have : k = 6 := by omega
      simp [this]

theorem denial_trans {s t u : State} (h : onlyRegsAt denialReg s t) (k : onlyRegsAt denialReg t u) : onlyRegsAt denialReg s u :=
  ⟨h.1.trans k.1, fun o ho => (k.2 o ho).trans (h.2 o ho)⟩

theorem raise_denial (s : State) (b : Nat) : onlyRegsAt denialReg s (s.raise pGlobal b) := by
  refine ⟨State.onlyRegs_raise _ _ _, fun o ho => ?_⟩
  unfold denialReg at ho
  exact State.reg_raise_other _ _ _ (by omega) (by omega)

theorem locate_base_mod {a : Nat} {pg : Page} (h : locate a = some pg) : pg.base % 0x1000 = 0 := by
  rw [locate_base h]; omega

/-- A denial makes no page writable. -/
theorem writable_denial {s t : State} (h : onlyRegsAt denialReg s t) {a pg} (hl : locate a = some pg) (rq) : writable t pg rq = writable s pg rq := by
  have hb := locate_base_mod hl
  have e : t.reg (pg.base + 0x30) = s.reg (pg.base + 0x30) := h.2 _ (by unfold denialReg pGlobal; omega)
  simp [writable, visible, State.bget, e]

/-- A part of a write through function 1 to a page it may not write changes the denial registers only. -/
theorem writePart_fn1 (s : State) (port off be d) (h : ∀ pg, locate off = some pg → writable s pg ⟨port, true⟩ = false) :
    onlyRegsAt denialReg s (writePart s ⟨port, true⟩ off be d) := by
  have hr : onlyRegsAt denialReg s s := ⟨rfl, fun _ _ => rfl⟩
  have ho : ∀ pg o, writable s pg ⟨port, true⟩ = false → foreign pg ⟨port, true⟩ o = false ∧ (pg.kind ≠ .hpMsix) := by
    intro pg o hw
    simp only [writable, Bool.not_true, Bool.false_or, Bool.or_eq_false_iff] at hw
    constructor
    · unfold foreign
      have : ownedBy pg ⟨port, true⟩ = none := by simpa using hw.1
      simp [this]
    · intro hk
      have : (ownedBy pg ⟨port, true⟩).isSome = true := by unfold ownedBy; rw [hk]; rfl
      simp [this] at hw
  unfold writePart
  split
  · unfold writeReg
    cases hl : locate off with
    | none => exact raise_denial _ _
    | some pg =>
      have hw := h pg hl
      simp only [hw, (ho pg _ hw).1, (ho pg 0 hw).2, decide_false, Bool.false_and, Bool.false_eq_true, if_false, Bool.or_false]
      split
      · exact hr
      · split
        · exact hr
        · simp only [Bool.not_false, if_true]
          exact filtered_cases _ _ _ _ _
  · split
    · exact hr
    · cases hl : locate off with
      | none => exact raise_denial _ _
      | some pg =>
        dsimp only
        split
        · exact raise_denial _ _
        · exact hr

/-- What a register holds after a write, bit by bit (R9). -/
theorem written_bit (port : Fin 4) (fn1 : Bool) (fs : List RField) (w d : Word) (i : Nat) (hi : i < 32) :
    (bitAcc fs (fun a => a = .rw ∨ (a = .rwp ∧ fn1 = false)) i → (written ⟨port, fn1⟩ fs w d).getLsbD i = d.getLsbD i) ∧
    (¬ bitAcc fs (fun a => a = .rw ∨ (a = .rwp ∧ fn1 = false)) i → bitAcc fs (fun a => a = .w1c) i →
      (written ⟨port, fn1⟩ fs w d).getLsbD i = (w.getLsbD i && !d.getLsbD i)) ∧
    (¬ bitAcc fs (fun a => a = .rw ∨ (a = .rwp ∧ fn1 = false)) i → ¬ bitAcc fs (fun a => a = .w1c) i →
      (written ⟨port, fn1⟩ fs w d).getLsbD i = w.getLsbD i) := by
  have hrw : (rwBits ⟨port, fn1⟩ fs).getLsbD i = true ↔ bitAcc fs (fun a => a = .rw ∨ (a = .rwp ∧ fn1 = false)) i := by
    rw [rwBits, getLsbD_accMask _ _ _ hi]
    unfold bitAcc
    simp
  have hwc : (w1cBits fs).getLsbD i = true ↔ bitAcc fs (fun a => a = .w1c) i := by
    rw [w1cBits, getLsbD_accMask _ _ _ hi]
    unfold bitAcc
    simp
  rw [← hrw, ← hwc, written]
  simp only [BitVec.getLsbD_or, BitVec.getLsbD_and, BitVec.getLsbD_not, hi, decide_true, Bool.true_and]
  generalize (rwBits ⟨port, fn1⟩ fs).getLsbD i = a
  generalize (w1cBits fs).getLsbD i = b
  generalize w.getLsbD i = x
  generalize d.getLsbD i = y
  revert a b x y
  decide

/-- A RW or, through function 0, RWP field takes what is written. -/
theorem getF_written (port : Fin 4) (fs : List RField) (w d : Word) (hi lo : Nat) (hh : hi < 32)
    (h : ∃ f ∈ fs, f.lo ≤ lo ∧ hi ≤ f.hi ∧ (f.acc = .rw ∨ f.acc = .rwp)) :
    getF (written ⟨port, false⟩ fs w d) hi lo = getF d hi lo := by
  obtain ⟨f, hf, h1, h2, h3⟩ := h
  apply Nat.eq_of_testBit_eq
  intro i
  rw [testBit_getF, testBit_getF]
  by_cases hl : i < hi + 1 - lo
  · rw [(written_bit port false fs w d (lo + i) (by omega)).1 ⟨f, hf, by omega, by omega, by simpa using h3⟩]
  · simp [hl]

theorem getB_written (port : Fin 4) (fs : List RField) (w d : Word) (i : Nat) (hh : i < 32)
    (h : ∃ f ∈ fs, f.lo ≤ i ∧ i ≤ f.hi ∧ (f.acc = .rw ∨ f.acc = .rwp)) :
    getB (written ⟨port, false⟩ fs w d) i = d.getLsbD i := by
  obtain ⟨f, hf, h1, h2, h3⟩ := h
  exact (written_bit port false fs w d i hh).1 ⟨f, hf, h1, h2, by simpa using h3⟩

end Sys2Proof.Machine
end

