-- ==== Sys2Proof/Laws/Memory.lean ====
section
/-! SUPPORT. Memory: what a byte and a line read after a write, and that every memory operation keeps the canonical form. -/
namespace Sys2Proof.Machine

variable (s : State)

/-! ### Bytes and marks -/

@[simp] theorem readByte_writeByte_same (a : Nat) (b : Byte) : readByte (writeByte s a b) a = b := by
  simp [readByte]

theorem readByte_writeByte_other {a c : Nat} (b : Byte) (h : c ≠ a) : readByte (writeByte s a b) c = readByte s c :=
  SMap.get_set_other _ _ _ h

@[simp] theorem readByte_setMark (k c : Nat) (b : Bool) : readByte (setMark s k b) c = readByte s c := rfl

@[simp] theorem markOf_setMark_same (k : Nat) (b : Bool) : markOf (setMark s k b) k = b := by simp [markOf]

theorem markOf_setMark_other {k j : Nat} (b : Bool) (h : j ≠ k) : markOf (setMark s k b) j = markOf s j :=
  SMap.get_set_other _ _ _ h

@[simp] theorem markOf_writeByte (a k : Nat) (b : Byte) : markOf (writeByte s a b) k = markOf s k := rfl

/-! ### Runs of bytes -/

theorem iter_succ {σ : Type} (n : Nat) (f : Nat → σ → σ) (x : σ) : iter (n + 1) f x = f n (iter n f x) := by
  simp [iter, List.range_succ]

theorem writeBytes_succ (a n w : Nat) :
    writeBytes s a (n + 1) w = writeByte (writeBytes s a n w) (a + n) (BitVec.ofNat 8 (byteOf w n)) := iter_succ _ _ _

/-- A run of bytes written reads, inside it, the bytes of the number, and outside it what stood there. -/
theorem readByte_writeBytes (a n w c : Nat) :
    readByte (writeBytes s a n w) c = if a ≤ c ∧ c < a + n then BitVec.ofNat 8 (byteOf w (c - a)) else readByte s c := by
  induction n with
  | zero => rw [if_neg (by omega)]; rfl
  | succ n ih =>
    rw [writeBytes_succ]
    by_cases h : c = a + n
    · subst h
      simp
    · rw [readByte_writeByte_other _ _ h, ih]
      by_cases h2 : a ≤ c ∧ c < a + n
      · rw [if_pos h2, if_pos (by omega)]
      · rw [if_neg h2, if_neg (by omega)]

@[simp] theorem markOf_writeBytes (a n w k : Nat) : markOf (writeBytes s a n w) k = markOf s k := by
  induction n with
  | zero => simp [writeBytes, iter]
  | succ n ih => rw [writeBytes_succ, markOf_writeByte, ih]

theorem mark_line_readByte (a : Nat) (l : Line) (c : Nat) :
    readByte (writeLine s a l) c = if a ≤ c ∧ c < a + 32 then BitVec.ofNat 8 (byteOf l.data.toNat (c - a)) else readByte s c := by
  rw [writeLine, readByte_setMark, readByte_writeBytes]

/-- A line stored leaves every byte outside it. -/
theorem readByte_writeLine_other (a : Nat) (l : Line) {c : Nat} (h : c < a ∨ a + 32 ≤ c) :
    readByte (writeLine s a l) c = readByte s c := by
  rw [mark_line_readByte, if_neg (by omega)]

@[simp] theorem markOf_writeLine_same (a : Nat) (l : Line) : markOf (writeLine s a l) (a / 32) = l.bad := by
  simp [writeLine]

theorem markOf_writeLine_other (a : Nat) (l : Line) {k : Nat} (h : k ≠ a / 32) : markOf (writeLine s a l) k = markOf s k := by
  rw [writeLine, markOf_setMark_other _ _ h, markOf_writeBytes]

/-! ### Lines -/

theorem ofBytesLE_append (x y : List Byte) : ofBytesLE (x ++ y) = ofBytesLE x + 256 ^ x.length * ofBytesLE y := by
  induction x with
  | nil => simp [ofBytesLE]
  | cons b x ih => simp only [List.cons_append, ofBytesLE, ih, List.length_cons, pow_succ]; ring

theorem tab_succ {α : Type} (n : Nat) (f : Nat → α) : tab (n + 1) f = tab n f ++ [f n] := by
  simp [tab, List.range_succ]

theorem tab_congr {α : Type} {n : Nat} {f g : Nat → α} (h : ∀ i, i < n → f i = g i) : tab n f = tab n g :=
  List.map_congr_left fun i hi => h i (List.mem_range.1 hi)

@[simp] theorem tab_length {α : Type} (n : Nat) (f : Nat → α) : (tab n f).length = n := by simp [tab]

/-- The n low bytes of a number, put together again (R8). -/
theorem ofBytesLE_byteOf (w n : Nat) : ofBytesLE (tab n (fun i => BitVec.ofNat 8 (byteOf w i))) = w % 256 ^ n := by
  induction n with
  | zero => simp [tab, ofBytesLE, Nat.mod_one]
  | succ n ih =>
    have hp : (BitVec.ofNat 8 (byteOf w n)).toNat = w / 256 ^ n % 256 := by
      rw [byteOf, Nat.shiftRight_eq_div_pow, pow_mul, BitVec.toNat_ofNat]
      exact Nat.mod_mod _ _
    rw [tab_succ, ofBytesLE_append, ih, tab_length, ofBytesLE, ofBytesLE, hp, Nat.mul_zero, Nat.add_zero, pow_succ,
      Nat.mod_mul]

/-- A line reads what was last stored there (R269, R457). -/
@[simp] theorem readLine_writeLine_same (a : Nat) (l : Line) : readLine (writeLine s a l) a = l := by
  have hb : readBytes (writeLine s a l) a 32 = l.data.toNat := by
    have : tab 32 (fun i => readByte (writeLine s a l) (a + i)) = tab 32 (fun i => BitVec.ofNat 8 (byteOf l.data.toNat i)) := by
      refine tab_congr fun i hi => ?_
      rw [mark_line_readByte, if_pos (by omega), Nat.add_sub_cancel_left]
    rw [readBytes, this, ofBytesLE_byteOf]
    exact Nat.mod_eq_of_lt (by have := l.data.isLt; norm_num at this ⊢; exact this)
  rw [readLine, hb, markOf_writeLine_same]
  cases l
  simp

/-- A line apart from the one stored reads as before. -/
theorem readLine_writeLine_other (a : Nat) (l : Line) {c : Nat} (ha : a % 32 = 0) (hc : c % 32 = 0) (h : c ≠ a) :
    readLine (writeLine s a l) c = readLine s c := by
  have hb : readBytes (writeLine s a l) c 32 = readBytes s c 32 := by
    rw [readBytes, readBytes]
    exact congrArg ofBytesLE (tab_congr fun i hi => readByte_writeLine_other s a l (by omega))
  rw [readLine, readLine, hb, markOf_writeLine_other _ _ _ (by omega)]

/-! ### The canonical form -/

/-- Every memory operation keeps the canonical form: a byte, -/
theorem memory_wf_writeByte (a : Nat) (b : Byte) (h : Memory.wf s.mem = true) : Memory.wf (writeByte s a b).mem = true :=
  SMap.wf_set _ _ _ _ h

/-- a run of bytes, -/
theorem memory_wf_writeBytes (a n w : Nat) (h : Memory.wf s.mem = true) : Memory.wf (writeBytes s a n w).mem = true := by
  induction n with
  | zero => simpa [writeBytes, iter] using h
  | succ n ih => rw [writeBytes_succ]; exact memory_wf_writeByte _ _ _ ih

/-- a line, -/
theorem memory_wf_writeLine (a : Nat) (l : Line) (h : Memory.wf s.mem = true) : Memory.wf (writeLine s a l).mem = true := by
  rw [writeLine, State.setMark_mem]
  exact memory_wf_writeBytes s a 32 _ h

/-- and dropping what a lost power domain held. -/
theorem memory_wf_filter (m : List Host.Cell) (p : Host.Cell → Bool) (h : Memory.wf m = true) : Memory.wf (m.filter p) = true :=
  SMap.wf_filter _ _ _ h

theorem marks_wf_setMark (k : Nat) (b : Bool) (h : SMap.wf (fun _ => false) s.marks = true) :
    SMap.wf (fun _ => false) (setMark s k b).marks = true := SMap.wf_set _ _ _ _ h

theorem regs_wf_setReg (o : Nat) (v : Word) (h : SMap.wf resetOf s.regs = true) :
    SMap.wf resetOf (s.setReg o v).regs = true := SMap.wf_set _ _ _ _ h

end Sys2Proof.Machine
end

