-- ==== Sys2Proof/Laws/Iter.lean ====
section
/-! SUPPORT. What the walks over lists and the byte folds keep and give. -/
namespace Sys2Proof.Machine

/-- The first element that satisfies p is the one that is changed. -/
theorem mapFirst_at {α} (p : α → Bool) (f : α → α) (pre : List α) (k : α) (post : List α) (h : ∀ x ∈ pre, p x = false) (hk : p k = true) :
    mapFirst p f (pre ++ k :: post) = pre ++ f k :: post := by
  induction pre with
  | nil => simp [mapFirst, hk]
  | cons a pre ih =>
    have ha := h a (by simp)
    rw [List.cons_append, mapFirst, ha, ih (fun x hx => h x (by simp [hx]))]
    rfl

/-- What every step keeps, the iteration keeps. -/
theorem iter_inv {σ} (P : σ → Prop) (n : Nat) (f : Nat → σ → σ) (hf : ∀ i x, P x → P (f i x)) (x : σ) (h : P x) : P (iter n f x) := by
  induction n with
  | zero => exact h
  | succ n ih => rw [iter_succ]; exact hf _ _ ih

/-- What every step over an element of the list keeps, the walk keeps. -/
theorem forEach_mem {σ α} (P : σ → Prop) (f : α → σ → σ) : ∀ (l : List α) (x : σ), (∀ a ∈ l, ∀ x, P x → P (f a x)) → P x → P (forEach l f x) := by
  intro l
  induction l with
  | nil => intro x _ h; exact h
  | cons a l ih => intro x hf h; exact ih _ (fun b hb => hf b (by simp [hb])) (hf a (by simp) x h)

/-- A fold over bytes, least significant first, is their little-endian number. -/
theorem foldBytes (l : List Byte) : ∀ n, n ≤ l.length → (List.range n).foldl (fun m j => m + (l.getD j 0#8).toNat * 256 ^ j) 0 = ofBytesLE (l.take n) := by
  intro n
  induction n with
  | zero => intro _; rfl
  | succ n ih =>
    intro h
    rw [List.range_succ, List.foldl_append, ih (by omega)]
    simp only [List.foldl_cons, List.foldl_nil]
    have : l.take (n + 1) = l.take n ++ [l.getD n 0#8] := by
      rw [List.take_add_one]
      have : n < l.length := by omega
      simp [this]
    rw [this, ofBytesLE_append, ofBytesLE, ofBytesLE, List.length_take, min_eq_left (by omega)]
    ring

/-- n bytes are a number below 256 ^ n. -/
theorem ofBytesLE_lt (l : List Byte) : ofBytesLE l < 256 ^ l.length := by
  induction l with
  | nil => simp [ofBytesLE]
  | cons b l ih =>
    rw [ofBytesLE, List.length_cons, pow_succ]
    have := b.isLt
    have : b.toNat < 256 := this
    nlinarith

/-- Byte j of the little-endian number of a list is its element j. -/
theorem byteOf_ofBytesLE (l : List Byte) : ∀ j, j < l.length → BitVec.ofNat 8 (byteOf (ofBytesLE l) j) = l.getD j 0#8 := by
  induction l with
  | nil => intro j h; simp at h
  | cons b l ih =>
    intro j hj
    have hb : b.toNat < 256 := b.isLt
    cases j with
    | zero =>
      apply BitVec.eq_of_toNat_eq
      simp [byteOf, ofBytesLE]
      try omega
    | succ j =>
      have := ih j (by simpa using hj)
      rw [List.getD_cons_succ, ← this]
      congr 1
      unfold byteOf
      rw [show ofBytesLE (b :: l) = b.toNat + 256 * ofBytesLE l from rfl]
      rw [Nat.shiftRight_eq_div_pow, Nat.shiftRight_eq_div_pow]
      have e : 2 ^ (8 * (j + 1)) = 256 * 2 ^ (8 * j) := by rw [show 8 * (j + 1) = 8 * j + 8 by ring, pow_add]; norm_num; ring
      rw [e, ← Nat.div_div_eq_div_mul]
      congr 2
      omega

end Sys2Proof.Machine
end

