-- ==== Sys2Proof/Laws/Updates.lean ====
section
/-! SUPPORT. What the operations on registers, events and counters leave of the fields of State, one lemma per field. -/
namespace Sys2Proof.Machine.State

variable (s : State)

/-! ### fset -/

@[simp] theorem fset_latches (o hi lo v : Nat) : (s.fset o hi lo v).latches = s.latches := by rw [onlyRegs_fset s o hi lo v]
@[simp] theorem fset_mem (o hi lo v : Nat) : (s.fset o hi lo v).mem = s.mem := by rw [onlyRegs_fset s o hi lo v]
@[simp] theorem fset_marks (o hi lo v : Nat) : (s.fset o hi lo v).marks = s.marks := by rw [onlyRegs_fset s o hi lo v]
@[simp] theorem fset_spindles (o hi lo v : Nat) : (s.fset o hi lo v).spindles = s.spindles := by rw [onlyRegs_fset s o hi lo v]
@[simp] theorem fset_mesh (o hi lo v : Nat) : (s.fset o hi lo v).mesh = s.mesh := by rw [onlyRegs_fset s o hi lo v]
@[simp] theorem fset_links (o hi lo v : Nat) : (s.fset o hi lo v).links = s.links := by rw [onlyRegs_fset s o hi lo v]
@[simp] theorem fset_outputs (o hi lo v : Nat) : (s.fset o hi lo v).outputs = s.outputs := by rw [onlyRegs_fset s o hi lo v]
@[simp] theorem fset_maps (o hi lo v : Nat) : (s.fset o hi lo v).maps = s.maps := by rw [onlyRegs_fset s o hi lo v]
@[simp] theorem fset_ringers (o hi lo v : Nat) : (s.fset o hi lo v).ringers = s.ringers := by rw [onlyRegs_fset s o hi lo v]
@[simp] theorem fset_bobbins (o hi lo v : Nat) : (s.fset o hi lo v).bobbins = s.bobbins := by rw [onlyRegs_fset s o hi lo v]
@[simp] theorem fset_chans (o hi lo v : Nat) : (s.fset o hi lo v).chans = s.chans := by rw [onlyRegs_fset s o hi lo v]
@[simp] theorem fset_reels (o hi lo v : Nat) : (s.fset o hi lo v).reels = s.reels := by rw [onlyRegs_fset s o hi lo v]
@[simp] theorem fset_run (o hi lo v : Nat) : (s.fset o hi lo v).run = s.run := by rw [onlyRegs_fset s o hi lo v]
@[simp] theorem fset_hosts (o hi lo v : Nat) : (s.fset o hi lo v).hosts = s.hosts := by rw [onlyRegs_fset s o hi lo v]
@[simp] theorem fset_nirdors (o hi lo v : Nat) : (s.fset o hi lo v).nirdors = s.nirdors := by rw [onlyRegs_fset s o hi lo v]
@[simp] theorem fset_via (o hi lo v : Nat) : (s.fset o hi lo v).via = s.via := by rw [onlyRegs_fset s o hi lo v]
@[simp] theorem fset_relay (o hi lo v : Nat) : (s.fset o hi lo v).relay = s.relay := by rw [onlyRegs_fset s o hi lo v]
@[simp] theorem fset_clocks (o hi lo v : Nat) : (s.fset o hi lo v).clocks = s.clocks := by rw [onlyRegs_fset s o hi lo v]
@[simp] theorem fset_rstSource (o hi lo v : Nat) : (s.fset o hi lo v).rstSource = s.rstSource := by rw [onlyRegs_fset s o hi lo v]
@[simp] theorem fset_start (o hi lo v : Nat) : (s.fset o hi lo v).start = s.start := by rw [onlyRegs_fset s o hi lo v]
@[simp] theorem fset_fuses (o hi lo v : Nat) : (s.fset o hi lo v).fuses = s.fuses := by rw [onlyRegs_fset s o hi lo v]
@[simp] theorem fset_belfry (o hi lo v : Nat) : (s.fset o hi lo v).belfry = s.belfry := by rw [onlyRegs_fset s o hi lo v]
@[simp] theorem fset_power (o hi lo v : Nat) : (s.fset o hi lo v).power = s.power := by rw [onlyRegs_fset s o hi lo v]
@[simp] theorem fset_inputOn (o hi lo v : Nat) : (s.fset o hi lo v).inputOn = s.inputOn := by rw [onlyRegs_fset s o hi lo v]
@[simp] theorem fset_straps (o hi lo v : Nat) : (s.fset o hi lo v).straps = s.straps := by rw [onlyRegs_fset s o hi lo v]
@[simp] theorem fset_out (o hi lo v : Nat) : (s.fset o hi lo v).out = s.out := by rw [onlyRegs_fset s o hi lo v]
@[simp] theorem fset_freeCtr (o hi lo v : Nat) : (s.fset o hi lo v).freeCtr = s.freeCtr := by rw [onlyRegs_fset s o hi lo v]
@[simp] theorem fset_pending (o hi lo v : Nat) : (s.fset o hi lo v).pending = s.pending := by rw [onlyRegs_fset s o hi lo v]

/-! ### raise -/

@[simp] theorem raise_latches (pg b : Nat) : (s.raise pg b).latches = s.latches := by rw [onlyRegs_raise s pg b]
@[simp] theorem raise_mem (pg b : Nat) : (s.raise pg b).mem = s.mem := by rw [onlyRegs_raise s pg b]
@[simp] theorem raise_marks (pg b : Nat) : (s.raise pg b).marks = s.marks := by rw [onlyRegs_raise s pg b]
@[simp] theorem raise_spindles (pg b : Nat) : (s.raise pg b).spindles = s.spindles := by rw [onlyRegs_raise s pg b]
@[simp] theorem raise_mesh (pg b : Nat) : (s.raise pg b).mesh = s.mesh := by rw [onlyRegs_raise s pg b]
@[simp] theorem raise_links (pg b : Nat) : (s.raise pg b).links = s.links := by rw [onlyRegs_raise s pg b]
@[simp] theorem raise_outputs (pg b : Nat) : (s.raise pg b).outputs = s.outputs := by rw [onlyRegs_raise s pg b]
@[simp] theorem raise_maps (pg b : Nat) : (s.raise pg b).maps = s.maps := by rw [onlyRegs_raise s pg b]
@[simp] theorem raise_ringers (pg b : Nat) : (s.raise pg b).ringers = s.ringers := by rw [onlyRegs_raise s pg b]
@[simp] theorem raise_bobbins (pg b : Nat) : (s.raise pg b).bobbins = s.bobbins := by rw [onlyRegs_raise s pg b]
@[simp] theorem raise_chans (pg b : Nat) : (s.raise pg b).chans = s.chans := by rw [onlyRegs_raise s pg b]
@[simp] theorem raise_reels (pg b : Nat) : (s.raise pg b).reels = s.reels := by rw [onlyRegs_raise s pg b]
@[simp] theorem raise_run (pg b : Nat) : (s.raise pg b).run = s.run := by rw [onlyRegs_raise s pg b]
@[simp] theorem raise_hosts (pg b : Nat) : (s.raise pg b).hosts = s.hosts := by rw [onlyRegs_raise s pg b]
@[simp] theorem raise_nirdors (pg b : Nat) : (s.raise pg b).nirdors = s.nirdors := by rw [onlyRegs_raise s pg b]
@[simp] theorem raise_via (pg b : Nat) : (s.raise pg b).via = s.via := by rw [onlyRegs_raise s pg b]
@[simp] theorem raise_relay (pg b : Nat) : (s.raise pg b).relay = s.relay := by rw [onlyRegs_raise s pg b]
@[simp] theorem raise_clocks (pg b : Nat) : (s.raise pg b).clocks = s.clocks := by rw [onlyRegs_raise s pg b]
@[simp] theorem raise_rstSource (pg b : Nat) : (s.raise pg b).rstSource = s.rstSource := by rw [onlyRegs_raise s pg b]
@[simp] theorem raise_start (pg b : Nat) : (s.raise pg b).start = s.start := by rw [onlyRegs_raise s pg b]
@[simp] theorem raise_fuses (pg b : Nat) : (s.raise pg b).fuses = s.fuses := by rw [onlyRegs_raise s pg b]
@[simp] theorem raise_belfry (pg b : Nat) : (s.raise pg b).belfry = s.belfry := by rw [onlyRegs_raise s pg b]
@[simp] theorem raise_power (pg b : Nat) : (s.raise pg b).power = s.power := by rw [onlyRegs_raise s pg b]
@[simp] theorem raise_inputOn (pg b : Nat) : (s.raise pg b).inputOn = s.inputOn := by rw [onlyRegs_raise s pg b]
@[simp] theorem raise_straps (pg b : Nat) : (s.raise pg b).straps = s.straps := by rw [onlyRegs_raise s pg b]
@[simp] theorem raise_out (pg b : Nat) : (s.raise pg b).out = s.out := by rw [onlyRegs_raise s pg b]
@[simp] theorem raise_freeCtr (pg b : Nat) : (s.raise pg b).freeCtr = s.freeCtr := by rw [onlyRegs_raise s pg b]
@[simp] theorem raise_pending (pg b : Nat) : (s.raise pg b).pending = s.pending := by rw [onlyRegs_raise s pg b]

/-! ### raiseIf -/

@[simp] theorem raiseIf_latches (c : Bool) (pg b : Nat) : (s.raiseIf c pg b).latches = s.latches := by rw [onlyRegs_raiseIf s c pg b]
@[simp] theorem raiseIf_mem (c : Bool) (pg b : Nat) : (s.raiseIf c pg b).mem = s.mem := by rw [onlyRegs_raiseIf s c pg b]
@[simp] theorem raiseIf_marks (c : Bool) (pg b : Nat) : (s.raiseIf c pg b).marks = s.marks := by rw [onlyRegs_raiseIf s c pg b]
@[simp] theorem raiseIf_spindles (c : Bool) (pg b : Nat) : (s.raiseIf c pg b).spindles = s.spindles := by rw [onlyRegs_raiseIf s c pg b]
@[simp] theorem raiseIf_mesh (c : Bool) (pg b : Nat) : (s.raiseIf c pg b).mesh = s.mesh := by rw [onlyRegs_raiseIf s c pg b]
@[simp] theorem raiseIf_links (c : Bool) (pg b : Nat) : (s.raiseIf c pg b).links = s.links := by rw [onlyRegs_raiseIf s c pg b]
@[simp] theorem raiseIf_outputs (c : Bool) (pg b : Nat) : (s.raiseIf c pg b).outputs = s.outputs := by rw [onlyRegs_raiseIf s c pg b]
@[simp] theorem raiseIf_maps (c : Bool) (pg b : Nat) : (s.raiseIf c pg b).maps = s.maps := by rw [onlyRegs_raiseIf s c pg b]
@[simp] theorem raiseIf_ringers (c : Bool) (pg b : Nat) : (s.raiseIf c pg b).ringers = s.ringers := by rw [onlyRegs_raiseIf s c pg b]
@[simp] theorem raiseIf_bobbins (c : Bool) (pg b : Nat) : (s.raiseIf c pg b).bobbins = s.bobbins := by rw [onlyRegs_raiseIf s c pg b]
@[simp] theorem raiseIf_chans (c : Bool) (pg b : Nat) : (s.raiseIf c pg b).chans = s.chans := by rw [onlyRegs_raiseIf s c pg b]
@[simp] theorem raiseIf_reels (c : Bool) (pg b : Nat) : (s.raiseIf c pg b).reels = s.reels := by rw [onlyRegs_raiseIf s c pg b]
@[simp] theorem raiseIf_run (c : Bool) (pg b : Nat) : (s.raiseIf c pg b).run = s.run := by rw [onlyRegs_raiseIf s c pg b]
@[simp] theorem raiseIf_hosts (c : Bool) (pg b : Nat) : (s.raiseIf c pg b).hosts = s.hosts := by rw [onlyRegs_raiseIf s c pg b]
@[simp] theorem raiseIf_nirdors (c : Bool) (pg b : Nat) : (s.raiseIf c pg b).nirdors = s.nirdors := by rw [onlyRegs_raiseIf s c pg b]
@[simp] theorem raiseIf_via (c : Bool) (pg b : Nat) : (s.raiseIf c pg b).via = s.via := by rw [onlyRegs_raiseIf s c pg b]
@[simp] theorem raiseIf_relay (c : Bool) (pg b : Nat) : (s.raiseIf c pg b).relay = s.relay := by rw [onlyRegs_raiseIf s c pg b]
@[simp] theorem raiseIf_clocks (c : Bool) (pg b : Nat) : (s.raiseIf c pg b).clocks = s.clocks := by rw [onlyRegs_raiseIf s c pg b]
@[simp] theorem raiseIf_rstSource (c : Bool) (pg b : Nat) : (s.raiseIf c pg b).rstSource = s.rstSource := by rw [onlyRegs_raiseIf s c pg b]
@[simp] theorem raiseIf_start (c : Bool) (pg b : Nat) : (s.raiseIf c pg b).start = s.start := by rw [onlyRegs_raiseIf s c pg b]
@[simp] theorem raiseIf_fuses (c : Bool) (pg b : Nat) : (s.raiseIf c pg b).fuses = s.fuses := by rw [onlyRegs_raiseIf s c pg b]
@[simp] theorem raiseIf_belfry (c : Bool) (pg b : Nat) : (s.raiseIf c pg b).belfry = s.belfry := by rw [onlyRegs_raiseIf s c pg b]
@[simp] theorem raiseIf_power (c : Bool) (pg b : Nat) : (s.raiseIf c pg b).power = s.power := by rw [onlyRegs_raiseIf s c pg b]
@[simp] theorem raiseIf_inputOn (c : Bool) (pg b : Nat) : (s.raiseIf c pg b).inputOn = s.inputOn := by rw [onlyRegs_raiseIf s c pg b]
@[simp] theorem raiseIf_straps (c : Bool) (pg b : Nat) : (s.raiseIf c pg b).straps = s.straps := by rw [onlyRegs_raiseIf s c pg b]
@[simp] theorem raiseIf_out (c : Bool) (pg b : Nat) : (s.raiseIf c pg b).out = s.out := by rw [onlyRegs_raiseIf s c pg b]
@[simp] theorem raiseIf_freeCtr (c : Bool) (pg b : Nat) : (s.raiseIf c pg b).freeCtr = s.freeCtr := by rw [onlyRegs_raiseIf s c pg b]
@[simp] theorem raiseIf_pending (c : Bool) (pg b : Nat) : (s.raiseIf c pg b).pending = s.pending := by rw [onlyRegs_raiseIf s c pg b]

/-! ### bump48 -/

@[simp] theorem bump48_latches (pg lo n : Nat) : (s.bump48 pg lo n).latches = s.latches := by rw [onlyRegs_bump48 s pg lo n]
@[simp] theorem bump48_mem (pg lo n : Nat) : (s.bump48 pg lo n).mem = s.mem := by rw [onlyRegs_bump48 s pg lo n]
@[simp] theorem bump48_marks (pg lo n : Nat) : (s.bump48 pg lo n).marks = s.marks := by rw [onlyRegs_bump48 s pg lo n]
@[simp] theorem bump48_spindles (pg lo n : Nat) : (s.bump48 pg lo n).spindles = s.spindles := by rw [onlyRegs_bump48 s pg lo n]
@[simp] theorem bump48_mesh (pg lo n : Nat) : (s.bump48 pg lo n).mesh = s.mesh := by rw [onlyRegs_bump48 s pg lo n]
@[simp] theorem bump48_links (pg lo n : Nat) : (s.bump48 pg lo n).links = s.links := by rw [onlyRegs_bump48 s pg lo n]
@[simp] theorem bump48_outputs (pg lo n : Nat) : (s.bump48 pg lo n).outputs = s.outputs := by rw [onlyRegs_bump48 s pg lo n]
@[simp] theorem bump48_maps (pg lo n : Nat) : (s.bump48 pg lo n).maps = s.maps := by rw [onlyRegs_bump48 s pg lo n]
@[simp] theorem bump48_ringers (pg lo n : Nat) : (s.bump48 pg lo n).ringers = s.ringers := by rw [onlyRegs_bump48 s pg lo n]
@[simp] theorem bump48_bobbins (pg lo n : Nat) : (s.bump48 pg lo n).bobbins = s.bobbins := by rw [onlyRegs_bump48 s pg lo n]
@[simp] theorem bump48_chans (pg lo n : Nat) : (s.bump48 pg lo n).chans = s.chans := by rw [onlyRegs_bump48 s pg lo n]
@[simp] theorem bump48_reels (pg lo n : Nat) : (s.bump48 pg lo n).reels = s.reels := by rw [onlyRegs_bump48 s pg lo n]
@[simp] theorem bump48_run (pg lo n : Nat) : (s.bump48 pg lo n).run = s.run := by rw [onlyRegs_bump48 s pg lo n]
@[simp] theorem bump48_hosts (pg lo n : Nat) : (s.bump48 pg lo n).hosts = s.hosts := by rw [onlyRegs_bump48 s pg lo n]
@[simp] theorem bump48_nirdors (pg lo n : Nat) : (s.bump48 pg lo n).nirdors = s.nirdors := by rw [onlyRegs_bump48 s pg lo n]
@[simp] theorem bump48_via (pg lo n : Nat) : (s.bump48 pg lo n).via = s.via := by rw [onlyRegs_bump48 s pg lo n]
@[simp] theorem bump48_relay (pg lo n : Nat) : (s.bump48 pg lo n).relay = s.relay := by rw [onlyRegs_bump48 s pg lo n]
@[simp] theorem bump48_clocks (pg lo n : Nat) : (s.bump48 pg lo n).clocks = s.clocks := by rw [onlyRegs_bump48 s pg lo n]
@[simp] theorem bump48_rstSource (pg lo n : Nat) : (s.bump48 pg lo n).rstSource = s.rstSource := by rw [onlyRegs_bump48 s pg lo n]
@[simp] theorem bump48_start (pg lo n : Nat) : (s.bump48 pg lo n).start = s.start := by rw [onlyRegs_bump48 s pg lo n]
@[simp] theorem bump48_fuses (pg lo n : Nat) : (s.bump48 pg lo n).fuses = s.fuses := by rw [onlyRegs_bump48 s pg lo n]
@[simp] theorem bump48_belfry (pg lo n : Nat) : (s.bump48 pg lo n).belfry = s.belfry := by rw [onlyRegs_bump48 s pg lo n]
@[simp] theorem bump48_power (pg lo n : Nat) : (s.bump48 pg lo n).power = s.power := by rw [onlyRegs_bump48 s pg lo n]
@[simp] theorem bump48_inputOn (pg lo n : Nat) : (s.bump48 pg lo n).inputOn = s.inputOn := by rw [onlyRegs_bump48 s pg lo n]
@[simp] theorem bump48_straps (pg lo n : Nat) : (s.bump48 pg lo n).straps = s.straps := by rw [onlyRegs_bump48 s pg lo n]
@[simp] theorem bump48_out (pg lo n : Nat) : (s.bump48 pg lo n).out = s.out := by rw [onlyRegs_bump48 s pg lo n]
@[simp] theorem bump48_freeCtr (pg lo n : Nat) : (s.bump48 pg lo n).freeCtr = s.freeCtr := by rw [onlyRegs_bump48 s pg lo n]
@[simp] theorem bump48_pending (pg lo n : Nat) : (s.bump48 pg lo n).pending = s.pending := by rw [onlyRegs_bump48 s pg lo n]

/-! ### bump31 -/

@[simp] theorem bump31_latches (pg o n : Nat) : (s.bump31 pg o n).latches = s.latches := by rw [onlyRegs_bump31 s pg o n]
@[simp] theorem bump31_mem (pg o n : Nat) : (s.bump31 pg o n).mem = s.mem := by rw [onlyRegs_bump31 s pg o n]
@[simp] theorem bump31_marks (pg o n : Nat) : (s.bump31 pg o n).marks = s.marks := by rw [onlyRegs_bump31 s pg o n]
@[simp] theorem bump31_spindles (pg o n : Nat) : (s.bump31 pg o n).spindles = s.spindles := by rw [onlyRegs_bump31 s pg o n]
@[simp] theorem bump31_mesh (pg o n : Nat) : (s.bump31 pg o n).mesh = s.mesh := by rw [onlyRegs_bump31 s pg o n]
@[simp] theorem bump31_links (pg o n : Nat) : (s.bump31 pg o n).links = s.links := by rw [onlyRegs_bump31 s pg o n]
@[simp] theorem bump31_outputs (pg o n : Nat) : (s.bump31 pg o n).outputs = s.outputs := by rw [onlyRegs_bump31 s pg o n]
@[simp] theorem bump31_maps (pg o n : Nat) : (s.bump31 pg o n).maps = s.maps := by rw [onlyRegs_bump31 s pg o n]
@[simp] theorem bump31_ringers (pg o n : Nat) : (s.bump31 pg o n).ringers = s.ringers := by rw [onlyRegs_bump31 s pg o n]
@[simp] theorem bump31_bobbins (pg o n : Nat) : (s.bump31 pg o n).bobbins = s.bobbins := by rw [onlyRegs_bump31 s pg o n]
@[simp] theorem bump31_chans (pg o n : Nat) : (s.bump31 pg o n).chans = s.chans := by rw [onlyRegs_bump31 s pg o n]
@[simp] theorem bump31_reels (pg o n : Nat) : (s.bump31 pg o n).reels = s.reels := by rw [onlyRegs_bump31 s pg o n]
@[simp] theorem bump31_run (pg o n : Nat) : (s.bump31 pg o n).run = s.run := by rw [onlyRegs_bump31 s pg o n]
@[simp] theorem bump31_hosts (pg o n : Nat) : (s.bump31 pg o n).hosts = s.hosts := by rw [onlyRegs_bump31 s pg o n]
@[simp] theorem bump31_nirdors (pg o n : Nat) : (s.bump31 pg o n).nirdors = s.nirdors := by rw [onlyRegs_bump31 s pg o n]
@[simp] theorem bump31_via (pg o n : Nat) : (s.bump31 pg o n).via = s.via := by rw [onlyRegs_bump31 s pg o n]
@[simp] theorem bump31_relay (pg o n : Nat) : (s.bump31 pg o n).relay = s.relay := by rw [onlyRegs_bump31 s pg o n]
@[simp] theorem bump31_clocks (pg o n : Nat) : (s.bump31 pg o n).clocks = s.clocks := by rw [onlyRegs_bump31 s pg o n]
@[simp] theorem bump31_rstSource (pg o n : Nat) : (s.bump31 pg o n).rstSource = s.rstSource := by rw [onlyRegs_bump31 s pg o n]
@[simp] theorem bump31_start (pg o n : Nat) : (s.bump31 pg o n).start = s.start := by rw [onlyRegs_bump31 s pg o n]
@[simp] theorem bump31_fuses (pg o n : Nat) : (s.bump31 pg o n).fuses = s.fuses := by rw [onlyRegs_bump31 s pg o n]
@[simp] theorem bump31_belfry (pg o n : Nat) : (s.bump31 pg o n).belfry = s.belfry := by rw [onlyRegs_bump31 s pg o n]
@[simp] theorem bump31_power (pg o n : Nat) : (s.bump31 pg o n).power = s.power := by rw [onlyRegs_bump31 s pg o n]
@[simp] theorem bump31_inputOn (pg o n : Nat) : (s.bump31 pg o n).inputOn = s.inputOn := by rw [onlyRegs_bump31 s pg o n]
@[simp] theorem bump31_straps (pg o n : Nat) : (s.bump31 pg o n).straps = s.straps := by rw [onlyRegs_bump31 s pg o n]
@[simp] theorem bump31_out (pg o n : Nat) : (s.bump31 pg o n).out = s.out := by rw [onlyRegs_bump31 s pg o n]
@[simp] theorem bump31_freeCtr (pg o n : Nat) : (s.bump31 pg o n).freeCtr = s.freeCtr := by rw [onlyRegs_bump31 s pg o n]
@[simp] theorem bump31_pending (pg o n : Nat) : (s.bump31 pg o n).pending = s.pending := by rw [onlyRegs_bump31 s pg o n]

/-! ### errCorr -/

@[simp] theorem errCorr_latches (pg : Nat) : (s.errCorr pg).latches = s.latches := by rw [onlyRegs_errCorr s pg]
@[simp] theorem errCorr_mem (pg : Nat) : (s.errCorr pg).mem = s.mem := by rw [onlyRegs_errCorr s pg]
@[simp] theorem errCorr_marks (pg : Nat) : (s.errCorr pg).marks = s.marks := by rw [onlyRegs_errCorr s pg]
@[simp] theorem errCorr_spindles (pg : Nat) : (s.errCorr pg).spindles = s.spindles := by rw [onlyRegs_errCorr s pg]
@[simp] theorem errCorr_mesh (pg : Nat) : (s.errCorr pg).mesh = s.mesh := by rw [onlyRegs_errCorr s pg]
@[simp] theorem errCorr_links (pg : Nat) : (s.errCorr pg).links = s.links := by rw [onlyRegs_errCorr s pg]
@[simp] theorem errCorr_outputs (pg : Nat) : (s.errCorr pg).outputs = s.outputs := by rw [onlyRegs_errCorr s pg]
@[simp] theorem errCorr_maps (pg : Nat) : (s.errCorr pg).maps = s.maps := by rw [onlyRegs_errCorr s pg]
@[simp] theorem errCorr_ringers (pg : Nat) : (s.errCorr pg).ringers = s.ringers := by rw [onlyRegs_errCorr s pg]
@[simp] theorem errCorr_bobbins (pg : Nat) : (s.errCorr pg).bobbins = s.bobbins := by rw [onlyRegs_errCorr s pg]
@[simp] theorem errCorr_chans (pg : Nat) : (s.errCorr pg).chans = s.chans := by rw [onlyRegs_errCorr s pg]
@[simp] theorem errCorr_reels (pg : Nat) : (s.errCorr pg).reels = s.reels := by rw [onlyRegs_errCorr s pg]
@[simp] theorem errCorr_run (pg : Nat) : (s.errCorr pg).run = s.run := by rw [onlyRegs_errCorr s pg]
@[simp] theorem errCorr_hosts (pg : Nat) : (s.errCorr pg).hosts = s.hosts := by rw [onlyRegs_errCorr s pg]
@[simp] theorem errCorr_nirdors (pg : Nat) : (s.errCorr pg).nirdors = s.nirdors := by rw [onlyRegs_errCorr s pg]
@[simp] theorem errCorr_via (pg : Nat) : (s.errCorr pg).via = s.via := by rw [onlyRegs_errCorr s pg]
@[simp] theorem errCorr_relay (pg : Nat) : (s.errCorr pg).relay = s.relay := by rw [onlyRegs_errCorr s pg]
@[simp] theorem errCorr_clocks (pg : Nat) : (s.errCorr pg).clocks = s.clocks := by rw [onlyRegs_errCorr s pg]
@[simp] theorem errCorr_rstSource (pg : Nat) : (s.errCorr pg).rstSource = s.rstSource := by rw [onlyRegs_errCorr s pg]
@[simp] theorem errCorr_start (pg : Nat) : (s.errCorr pg).start = s.start := by rw [onlyRegs_errCorr s pg]
@[simp] theorem errCorr_fuses (pg : Nat) : (s.errCorr pg).fuses = s.fuses := by rw [onlyRegs_errCorr s pg]
@[simp] theorem errCorr_belfry (pg : Nat) : (s.errCorr pg).belfry = s.belfry := by rw [onlyRegs_errCorr s pg]
@[simp] theorem errCorr_power (pg : Nat) : (s.errCorr pg).power = s.power := by rw [onlyRegs_errCorr s pg]
@[simp] theorem errCorr_inputOn (pg : Nat) : (s.errCorr pg).inputOn = s.inputOn := by rw [onlyRegs_errCorr s pg]
@[simp] theorem errCorr_straps (pg : Nat) : (s.errCorr pg).straps = s.straps := by rw [onlyRegs_errCorr s pg]
@[simp] theorem errCorr_out (pg : Nat) : (s.errCorr pg).out = s.out := by rw [onlyRegs_errCorr s pg]
@[simp] theorem errCorr_freeCtr (pg : Nat) : (s.errCorr pg).freeCtr = s.freeCtr := by rw [onlyRegs_errCorr s pg]
@[simp] theorem errCorr_pending (pg : Nat) : (s.errCorr pg).pending = s.pending := by rw [onlyRegs_errCorr s pg]

/-! ### errUncorr -/

@[simp] theorem errUncorr_latches (pg : Nat) : (s.errUncorr pg).latches = s.latches := by rw [onlyRegs_errUncorr s pg]
@[simp] theorem errUncorr_mem (pg : Nat) : (s.errUncorr pg).mem = s.mem := by rw [onlyRegs_errUncorr s pg]
@[simp] theorem errUncorr_marks (pg : Nat) : (s.errUncorr pg).marks = s.marks := by rw [onlyRegs_errUncorr s pg]
@[simp] theorem errUncorr_spindles (pg : Nat) : (s.errUncorr pg).spindles = s.spindles := by rw [onlyRegs_errUncorr s pg]
@[simp] theorem errUncorr_mesh (pg : Nat) : (s.errUncorr pg).mesh = s.mesh := by rw [onlyRegs_errUncorr s pg]
@[simp] theorem errUncorr_links (pg : Nat) : (s.errUncorr pg).links = s.links := by rw [onlyRegs_errUncorr s pg]
@[simp] theorem errUncorr_outputs (pg : Nat) : (s.errUncorr pg).outputs = s.outputs := by rw [onlyRegs_errUncorr s pg]
@[simp] theorem errUncorr_maps (pg : Nat) : (s.errUncorr pg).maps = s.maps := by rw [onlyRegs_errUncorr s pg]
@[simp] theorem errUncorr_ringers (pg : Nat) : (s.errUncorr pg).ringers = s.ringers := by rw [onlyRegs_errUncorr s pg]
@[simp] theorem errUncorr_bobbins (pg : Nat) : (s.errUncorr pg).bobbins = s.bobbins := by rw [onlyRegs_errUncorr s pg]
@[simp] theorem errUncorr_chans (pg : Nat) : (s.errUncorr pg).chans = s.chans := by rw [onlyRegs_errUncorr s pg]
@[simp] theorem errUncorr_reels (pg : Nat) : (s.errUncorr pg).reels = s.reels := by rw [onlyRegs_errUncorr s pg]
@[simp] theorem errUncorr_run (pg : Nat) : (s.errUncorr pg).run = s.run := by rw [onlyRegs_errUncorr s pg]
@[simp] theorem errUncorr_hosts (pg : Nat) : (s.errUncorr pg).hosts = s.hosts := by rw [onlyRegs_errUncorr s pg]
@[simp] theorem errUncorr_nirdors (pg : Nat) : (s.errUncorr pg).nirdors = s.nirdors := by rw [onlyRegs_errUncorr s pg]
@[simp] theorem errUncorr_via (pg : Nat) : (s.errUncorr pg).via = s.via := by rw [onlyRegs_errUncorr s pg]
@[simp] theorem errUncorr_relay (pg : Nat) : (s.errUncorr pg).relay = s.relay := by rw [onlyRegs_errUncorr s pg]
@[simp] theorem errUncorr_clocks (pg : Nat) : (s.errUncorr pg).clocks = s.clocks := by rw [onlyRegs_errUncorr s pg]
@[simp] theorem errUncorr_rstSource (pg : Nat) : (s.errUncorr pg).rstSource = s.rstSource := by rw [onlyRegs_errUncorr s pg]
@[simp] theorem errUncorr_start (pg : Nat) : (s.errUncorr pg).start = s.start := by rw [onlyRegs_errUncorr s pg]
@[simp] theorem errUncorr_fuses (pg : Nat) : (s.errUncorr pg).fuses = s.fuses := by rw [onlyRegs_errUncorr s pg]
@[simp] theorem errUncorr_belfry (pg : Nat) : (s.errUncorr pg).belfry = s.belfry := by rw [onlyRegs_errUncorr s pg]
@[simp] theorem errUncorr_power (pg : Nat) : (s.errUncorr pg).power = s.power := by rw [onlyRegs_errUncorr s pg]
@[simp] theorem errUncorr_inputOn (pg : Nat) : (s.errUncorr pg).inputOn = s.inputOn := by rw [onlyRegs_errUncorr s pg]
@[simp] theorem errUncorr_straps (pg : Nat) : (s.errUncorr pg).straps = s.straps := by rw [onlyRegs_errUncorr s pg]
@[simp] theorem errUncorr_out (pg : Nat) : (s.errUncorr pg).out = s.out := by rw [onlyRegs_errUncorr s pg]
@[simp] theorem errUncorr_freeCtr (pg : Nat) : (s.errUncorr pg).freeCtr = s.freeCtr := by rw [onlyRegs_errUncorr s pg]
@[simp] theorem errUncorr_pending (pg : Nat) : (s.errUncorr pg).pending = s.pending := by rw [onlyRegs_errUncorr s pg]

/-! ### eaUnmapped -/

@[simp] theorem eaUnmapped_latches (pg : Nat) : (s.eaUnmapped pg).latches = s.latches := by rw [onlyRegs_eaUnmapped s pg]
@[simp] theorem eaUnmapped_mem (pg : Nat) : (s.eaUnmapped pg).mem = s.mem := by rw [onlyRegs_eaUnmapped s pg]
@[simp] theorem eaUnmapped_marks (pg : Nat) : (s.eaUnmapped pg).marks = s.marks := by rw [onlyRegs_eaUnmapped s pg]
@[simp] theorem eaUnmapped_spindles (pg : Nat) : (s.eaUnmapped pg).spindles = s.spindles := by rw [onlyRegs_eaUnmapped s pg]
@[simp] theorem eaUnmapped_mesh (pg : Nat) : (s.eaUnmapped pg).mesh = s.mesh := by rw [onlyRegs_eaUnmapped s pg]
@[simp] theorem eaUnmapped_links (pg : Nat) : (s.eaUnmapped pg).links = s.links := by rw [onlyRegs_eaUnmapped s pg]
@[simp] theorem eaUnmapped_outputs (pg : Nat) : (s.eaUnmapped pg).outputs = s.outputs := by rw [onlyRegs_eaUnmapped s pg]
@[simp] theorem eaUnmapped_maps (pg : Nat) : (s.eaUnmapped pg).maps = s.maps := by rw [onlyRegs_eaUnmapped s pg]
@[simp] theorem eaUnmapped_ringers (pg : Nat) : (s.eaUnmapped pg).ringers = s.ringers := by rw [onlyRegs_eaUnmapped s pg]
@[simp] theorem eaUnmapped_bobbins (pg : Nat) : (s.eaUnmapped pg).bobbins = s.bobbins := by rw [onlyRegs_eaUnmapped s pg]
@[simp] theorem eaUnmapped_chans (pg : Nat) : (s.eaUnmapped pg).chans = s.chans := by rw [onlyRegs_eaUnmapped s pg]
@[simp] theorem eaUnmapped_reels (pg : Nat) : (s.eaUnmapped pg).reels = s.reels := by rw [onlyRegs_eaUnmapped s pg]
@[simp] theorem eaUnmapped_run (pg : Nat) : (s.eaUnmapped pg).run = s.run := by rw [onlyRegs_eaUnmapped s pg]
@[simp] theorem eaUnmapped_hosts (pg : Nat) : (s.eaUnmapped pg).hosts = s.hosts := by rw [onlyRegs_eaUnmapped s pg]
@[simp] theorem eaUnmapped_nirdors (pg : Nat) : (s.eaUnmapped pg).nirdors = s.nirdors := by rw [onlyRegs_eaUnmapped s pg]
@[simp] theorem eaUnmapped_via (pg : Nat) : (s.eaUnmapped pg).via = s.via := by rw [onlyRegs_eaUnmapped s pg]
@[simp] theorem eaUnmapped_relay (pg : Nat) : (s.eaUnmapped pg).relay = s.relay := by rw [onlyRegs_eaUnmapped s pg]
@[simp] theorem eaUnmapped_clocks (pg : Nat) : (s.eaUnmapped pg).clocks = s.clocks := by rw [onlyRegs_eaUnmapped s pg]
@[simp] theorem eaUnmapped_rstSource (pg : Nat) : (s.eaUnmapped pg).rstSource = s.rstSource := by rw [onlyRegs_eaUnmapped s pg]
@[simp] theorem eaUnmapped_start (pg : Nat) : (s.eaUnmapped pg).start = s.start := by rw [onlyRegs_eaUnmapped s pg]
@[simp] theorem eaUnmapped_fuses (pg : Nat) : (s.eaUnmapped pg).fuses = s.fuses := by rw [onlyRegs_eaUnmapped s pg]
@[simp] theorem eaUnmapped_belfry (pg : Nat) : (s.eaUnmapped pg).belfry = s.belfry := by rw [onlyRegs_eaUnmapped s pg]
@[simp] theorem eaUnmapped_power (pg : Nat) : (s.eaUnmapped pg).power = s.power := by rw [onlyRegs_eaUnmapped s pg]
@[simp] theorem eaUnmapped_inputOn (pg : Nat) : (s.eaUnmapped pg).inputOn = s.inputOn := by rw [onlyRegs_eaUnmapped s pg]
@[simp] theorem eaUnmapped_straps (pg : Nat) : (s.eaUnmapped pg).straps = s.straps := by rw [onlyRegs_eaUnmapped s pg]
@[simp] theorem eaUnmapped_out (pg : Nat) : (s.eaUnmapped pg).out = s.out := by rw [onlyRegs_eaUnmapped s pg]
@[simp] theorem eaUnmapped_freeCtr (pg : Nat) : (s.eaUnmapped pg).freeCtr = s.freeCtr := by rw [onlyRegs_eaUnmapped s pg]
@[simp] theorem eaUnmapped_pending (pg : Nat) : (s.eaUnmapped pg).pending = s.pending := by rw [onlyRegs_eaUnmapped s pg]

/-! ### setReady -/

@[simp] theorem setReady_latches (pg st reason : Nat) : (s.setReady pg st reason).latches = s.latches := by rw [onlyRegs_setReady s pg st reason]
@[simp] theorem setReady_mem (pg st reason : Nat) : (s.setReady pg st reason).mem = s.mem := by rw [onlyRegs_setReady s pg st reason]
@[simp] theorem setReady_marks (pg st reason : Nat) : (s.setReady pg st reason).marks = s.marks := by rw [onlyRegs_setReady s pg st reason]
@[simp] theorem setReady_spindles (pg st reason : Nat) : (s.setReady pg st reason).spindles = s.spindles := by rw [onlyRegs_setReady s pg st reason]
@[simp] theorem setReady_mesh (pg st reason : Nat) : (s.setReady pg st reason).mesh = s.mesh := by rw [onlyRegs_setReady s pg st reason]
@[simp] theorem setReady_links (pg st reason : Nat) : (s.setReady pg st reason).links = s.links := by rw [onlyRegs_setReady s pg st reason]
@[simp] theorem setReady_outputs (pg st reason : Nat) : (s.setReady pg st reason).outputs = s.outputs := by rw [onlyRegs_setReady s pg st reason]
@[simp] theorem setReady_maps (pg st reason : Nat) : (s.setReady pg st reason).maps = s.maps := by rw [onlyRegs_setReady s pg st reason]
@[simp] theorem setReady_ringers (pg st reason : Nat) : (s.setReady pg st reason).ringers = s.ringers := by rw [onlyRegs_setReady s pg st reason]
@[simp] theorem setReady_bobbins (pg st reason : Nat) : (s.setReady pg st reason).bobbins = s.bobbins := by rw [onlyRegs_setReady s pg st reason]
@[simp] theorem setReady_chans (pg st reason : Nat) : (s.setReady pg st reason).chans = s.chans := by rw [onlyRegs_setReady s pg st reason]
@[simp] theorem setReady_reels (pg st reason : Nat) : (s.setReady pg st reason).reels = s.reels := by rw [onlyRegs_setReady s pg st reason]
@[simp] theorem setReady_run (pg st reason : Nat) : (s.setReady pg st reason).run = s.run := by rw [onlyRegs_setReady s pg st reason]
@[simp] theorem setReady_hosts (pg st reason : Nat) : (s.setReady pg st reason).hosts = s.hosts := by rw [onlyRegs_setReady s pg st reason]
@[simp] theorem setReady_nirdors (pg st reason : Nat) : (s.setReady pg st reason).nirdors = s.nirdors := by rw [onlyRegs_setReady s pg st reason]
@[simp] theorem setReady_via (pg st reason : Nat) : (s.setReady pg st reason).via = s.via := by rw [onlyRegs_setReady s pg st reason]
@[simp] theorem setReady_relay (pg st reason : Nat) : (s.setReady pg st reason).relay = s.relay := by rw [onlyRegs_setReady s pg st reason]
@[simp] theorem setReady_clocks (pg st reason : Nat) : (s.setReady pg st reason).clocks = s.clocks := by rw [onlyRegs_setReady s pg st reason]
@[simp] theorem setReady_rstSource (pg st reason : Nat) : (s.setReady pg st reason).rstSource = s.rstSource := by rw [onlyRegs_setReady s pg st reason]
@[simp] theorem setReady_start (pg st reason : Nat) : (s.setReady pg st reason).start = s.start := by rw [onlyRegs_setReady s pg st reason]
@[simp] theorem setReady_fuses (pg st reason : Nat) : (s.setReady pg st reason).fuses = s.fuses := by rw [onlyRegs_setReady s pg st reason]
@[simp] theorem setReady_belfry (pg st reason : Nat) : (s.setReady pg st reason).belfry = s.belfry := by rw [onlyRegs_setReady s pg st reason]
@[simp] theorem setReady_power (pg st reason : Nat) : (s.setReady pg st reason).power = s.power := by rw [onlyRegs_setReady s pg st reason]
@[simp] theorem setReady_inputOn (pg st reason : Nat) : (s.setReady pg st reason).inputOn = s.inputOn := by rw [onlyRegs_setReady s pg st reason]
@[simp] theorem setReady_straps (pg st reason : Nat) : (s.setReady pg st reason).straps = s.straps := by rw [onlyRegs_setReady s pg st reason]
@[simp] theorem setReady_out (pg st reason : Nat) : (s.setReady pg st reason).out = s.out := by rw [onlyRegs_setReady s pg st reason]
@[simp] theorem setReady_freeCtr (pg st reason : Nat) : (s.setReady pg st reason).freeCtr = s.freeCtr := by rw [onlyRegs_setReady s pg st reason]
@[simp] theorem setReady_pending (pg st reason : Nat) : (s.setReady pg st reason).pending = s.pending := by rw [onlyRegs_setReady s pg st reason]

/-! ### modSpin -/

@[simp] theorem modSpin_regs (k : Nat) (f : Spindle → Spindle) : (s.modSpin k f).regs = s.regs := rfl
@[simp] theorem modSpin_latches (k : Nat) (f : Spindle → Spindle) : (s.modSpin k f).latches = s.latches := rfl
@[simp] theorem modSpin_mem (k : Nat) (f : Spindle → Spindle) : (s.modSpin k f).mem = s.mem := rfl
@[simp] theorem modSpin_marks (k : Nat) (f : Spindle → Spindle) : (s.modSpin k f).marks = s.marks := rfl
@[simp] theorem modSpin_mesh (k : Nat) (f : Spindle → Spindle) : (s.modSpin k f).mesh = s.mesh := rfl
@[simp] theorem modSpin_links (k : Nat) (f : Spindle → Spindle) : (s.modSpin k f).links = s.links := rfl
@[simp] theorem modSpin_outputs (k : Nat) (f : Spindle → Spindle) : (s.modSpin k f).outputs = s.outputs := rfl
@[simp] theorem modSpin_maps (k : Nat) (f : Spindle → Spindle) : (s.modSpin k f).maps = s.maps := rfl
@[simp] theorem modSpin_ringers (k : Nat) (f : Spindle → Spindle) : (s.modSpin k f).ringers = s.ringers := rfl
@[simp] theorem modSpin_bobbins (k : Nat) (f : Spindle → Spindle) : (s.modSpin k f).bobbins = s.bobbins := rfl
@[simp] theorem modSpin_chans (k : Nat) (f : Spindle → Spindle) : (s.modSpin k f).chans = s.chans := rfl
@[simp] theorem modSpin_reels (k : Nat) (f : Spindle → Spindle) : (s.modSpin k f).reels = s.reels := rfl
@[simp] theorem modSpin_run (k : Nat) (f : Spindle → Spindle) : (s.modSpin k f).run = s.run := rfl
@[simp] theorem modSpin_hosts (k : Nat) (f : Spindle → Spindle) : (s.modSpin k f).hosts = s.hosts := rfl
@[simp] theorem modSpin_nirdors (k : Nat) (f : Spindle → Spindle) : (s.modSpin k f).nirdors = s.nirdors := rfl
@[simp] theorem modSpin_via (k : Nat) (f : Spindle → Spindle) : (s.modSpin k f).via = s.via := rfl
@[simp] theorem modSpin_relay (k : Nat) (f : Spindle → Spindle) : (s.modSpin k f).relay = s.relay := rfl
@[simp] theorem modSpin_clocks (k : Nat) (f : Spindle → Spindle) : (s.modSpin k f).clocks = s.clocks := rfl
@[simp] theorem modSpin_rstSource (k : Nat) (f : Spindle → Spindle) : (s.modSpin k f).rstSource = s.rstSource := rfl
@[simp] theorem modSpin_start (k : Nat) (f : Spindle → Spindle) : (s.modSpin k f).start = s.start := rfl
@[simp] theorem modSpin_fuses (k : Nat) (f : Spindle → Spindle) : (s.modSpin k f).fuses = s.fuses := rfl
@[simp] theorem modSpin_belfry (k : Nat) (f : Spindle → Spindle) : (s.modSpin k f).belfry = s.belfry := rfl
@[simp] theorem modSpin_power (k : Nat) (f : Spindle → Spindle) : (s.modSpin k f).power = s.power := rfl
@[simp] theorem modSpin_inputOn (k : Nat) (f : Spindle → Spindle) : (s.modSpin k f).inputOn = s.inputOn := rfl
@[simp] theorem modSpin_straps (k : Nat) (f : Spindle → Spindle) : (s.modSpin k f).straps = s.straps := rfl
@[simp] theorem modSpin_out (k : Nat) (f : Spindle → Spindle) : (s.modSpin k f).out = s.out := rfl
@[simp] theorem modSpin_freeCtr (k : Nat) (f : Spindle → Spindle) : (s.modSpin k f).freeCtr = s.freeCtr := rfl
@[simp] theorem modSpin_pending (k : Nat) (f : Spindle → Spindle) : (s.modSpin k f).pending = s.pending := rfl

/-! ### modNir -/

@[simp] theorem modNir_regs (k : Nat) (f : Nirdor → Nirdor) : (s.modNir k f).regs = s.regs := rfl
@[simp] theorem modNir_latches (k : Nat) (f : Nirdor → Nirdor) : (s.modNir k f).latches = s.latches := rfl
@[simp] theorem modNir_mem (k : Nat) (f : Nirdor → Nirdor) : (s.modNir k f).mem = s.mem := rfl
@[simp] theorem modNir_marks (k : Nat) (f : Nirdor → Nirdor) : (s.modNir k f).marks = s.marks := rfl
@[simp] theorem modNir_spindles (k : Nat) (f : Nirdor → Nirdor) : (s.modNir k f).spindles = s.spindles := rfl
@[simp] theorem modNir_mesh (k : Nat) (f : Nirdor → Nirdor) : (s.modNir k f).mesh = s.mesh := rfl
@[simp] theorem modNir_links (k : Nat) (f : Nirdor → Nirdor) : (s.modNir k f).links = s.links := rfl
@[simp] theorem modNir_outputs (k : Nat) (f : Nirdor → Nirdor) : (s.modNir k f).outputs = s.outputs := rfl
@[simp] theorem modNir_maps (k : Nat) (f : Nirdor → Nirdor) : (s.modNir k f).maps = s.maps := rfl
@[simp] theorem modNir_ringers (k : Nat) (f : Nirdor → Nirdor) : (s.modNir k f).ringers = s.ringers := rfl
@[simp] theorem modNir_bobbins (k : Nat) (f : Nirdor → Nirdor) : (s.modNir k f).bobbins = s.bobbins := rfl
@[simp] theorem modNir_chans (k : Nat) (f : Nirdor → Nirdor) : (s.modNir k f).chans = s.chans := rfl
@[simp] theorem modNir_reels (k : Nat) (f : Nirdor → Nirdor) : (s.modNir k f).reels = s.reels := rfl
@[simp] theorem modNir_run (k : Nat) (f : Nirdor → Nirdor) : (s.modNir k f).run = s.run := rfl
@[simp] theorem modNir_hosts (k : Nat) (f : Nirdor → Nirdor) : (s.modNir k f).hosts = s.hosts := rfl
@[simp] theorem modNir_via (k : Nat) (f : Nirdor → Nirdor) : (s.modNir k f).via = s.via := rfl
@[simp] theorem modNir_relay (k : Nat) (f : Nirdor → Nirdor) : (s.modNir k f).relay = s.relay := rfl
@[simp] theorem modNir_clocks (k : Nat) (f : Nirdor → Nirdor) : (s.modNir k f).clocks = s.clocks := rfl
@[simp] theorem modNir_rstSource (k : Nat) (f : Nirdor → Nirdor) : (s.modNir k f).rstSource = s.rstSource := rfl
@[simp] theorem modNir_start (k : Nat) (f : Nirdor → Nirdor) : (s.modNir k f).start = s.start := rfl
@[simp] theorem modNir_fuses (k : Nat) (f : Nirdor → Nirdor) : (s.modNir k f).fuses = s.fuses := rfl
@[simp] theorem modNir_belfry (k : Nat) (f : Nirdor → Nirdor) : (s.modNir k f).belfry = s.belfry := rfl
@[simp] theorem modNir_power (k : Nat) (f : Nirdor → Nirdor) : (s.modNir k f).power = s.power := rfl
@[simp] theorem modNir_inputOn (k : Nat) (f : Nirdor → Nirdor) : (s.modNir k f).inputOn = s.inputOn := rfl
@[simp] theorem modNir_straps (k : Nat) (f : Nirdor → Nirdor) : (s.modNir k f).straps = s.straps := rfl
@[simp] theorem modNir_out (k : Nat) (f : Nirdor → Nirdor) : (s.modNir k f).out = s.out := rfl
@[simp] theorem modNir_freeCtr (k : Nat) (f : Nirdor → Nirdor) : (s.modNir k f).freeCtr = s.freeCtr := rfl
@[simp] theorem modNir_pending (k : Nat) (f : Nirdor → Nirdor) : (s.modNir k f).pending = s.pending := rfl

/-! ### setRing -/

@[simp] theorem setRing_latches (rq : Req) (r : Ring) : (s.setRing rq r).latches = s.latches := rfl
@[simp] theorem setRing_marks (rq : Req) (r : Ring) : (s.setRing rq r).marks = s.marks := rfl
@[simp] theorem setRing_spindles (rq : Req) (r : Ring) : (s.setRing rq r).spindles = s.spindles := rfl
@[simp] theorem setRing_mesh (rq : Req) (r : Ring) : (s.setRing rq r).mesh = s.mesh := rfl
@[simp] theorem setRing_links (rq : Req) (r : Ring) : (s.setRing rq r).links = s.links := rfl
@[simp] theorem setRing_outputs (rq : Req) (r : Ring) : (s.setRing rq r).outputs = s.outputs := rfl
@[simp] theorem setRing_maps (rq : Req) (r : Ring) : (s.setRing rq r).maps = s.maps := rfl
@[simp] theorem setRing_ringers (rq : Req) (r : Ring) : (s.setRing rq r).ringers = s.ringers := rfl
@[simp] theorem setRing_bobbins (rq : Req) (r : Ring) : (s.setRing rq r).bobbins = s.bobbins := rfl
@[simp] theorem setRing_chans (rq : Req) (r : Ring) : (s.setRing rq r).chans = s.chans := rfl
@[simp] theorem setRing_reels (rq : Req) (r : Ring) : (s.setRing rq r).reels = s.reels := rfl
@[simp] theorem setRing_nirdors (rq : Req) (r : Ring) : (s.setRing rq r).nirdors = s.nirdors := rfl
@[simp] theorem setRing_via (rq : Req) (r : Ring) : (s.setRing rq r).via = s.via := rfl
@[simp] theorem setRing_relay (rq : Req) (r : Ring) : (s.setRing rq r).relay = s.relay := rfl
@[simp] theorem setRing_clocks (rq : Req) (r : Ring) : (s.setRing rq r).clocks = s.clocks := rfl
@[simp] theorem setRing_rstSource (rq : Req) (r : Ring) : (s.setRing rq r).rstSource = s.rstSource := rfl
@[simp] theorem setRing_start (rq : Req) (r : Ring) : (s.setRing rq r).start = s.start := rfl
@[simp] theorem setRing_fuses (rq : Req) (r : Ring) : (s.setRing rq r).fuses = s.fuses := rfl
@[simp] theorem setRing_belfry (rq : Req) (r : Ring) : (s.setRing rq r).belfry = s.belfry := rfl
@[simp] theorem setRing_power (rq : Req) (r : Ring) : (s.setRing rq r).power = s.power := rfl
@[simp] theorem setRing_inputOn (rq : Req) (r : Ring) : (s.setRing rq r).inputOn = s.inputOn := rfl
@[simp] theorem setRing_straps (rq : Req) (r : Ring) : (s.setRing rq r).straps = s.straps := rfl
@[simp] theorem setRing_freeCtr (rq : Req) (r : Ring) : (s.setRing rq r).freeCtr = s.freeCtr := rfl

end Sys2Proof.Machine.State
end

