-- ==== Sys2Proof/Laws/HostPorts.lean ====
section
/-! SUPPORT. Lemmas about ring pages, page resets and marked lines. -/
namespace Sys2Proof.Machine

/-- The page of a ring. -/
theorem ringPage_eq (rq : Req) : ringPage rq = pHost rq.port.val (if rq.fn1 then 2 else 1) := rfl

/-- Offsets within a ring page. -/
theorem locate_ring (rq : Req) {o : Nat} (ho : o < 0x1000) :
    locate (ringPage rq + o) = some ⟨.hpRing, ringPage rq, 0x10, rq.port.val, if rq.fn1 then 2 else 1⟩ := by
  have h := rq.port.isLt
  rw [ringPage, locate_host h (by split <;> omega) ho]
  cases rq.fn1 <;> rfl

/-- A privileged write of a register of a ring page in service. -/
theorem writeReg_ring (s : State) (port : Fin 4) (rq : Req) {o : Nat} (d : Word) (fs : List RField) (h0 : 0x40 ≤ o) (ho : o < 0x1000)
    (hr : 2 ≤ s.readyState (ringPage rq)) (hf : pageFields .hpRing o = some fs) :
    writeReg s ⟨port, false⟩ (ringPage rq + o) d
      = writeRing s rq o (written ⟨port, false⟩ fs (s.reg (ringPage rq + o)) d) (d &&& wsBits fs) := by
  have h3 : ringPage rq + o - ringPage rq = o := by omega
  have hout : pageOut s ⟨.hpRing, ringPage rq, 0x10, rq.port.val, if rq.fn1 then 2 else 1⟩ o = false := by
    unfold pageOut
    simp only
    rw [decide_eq_false (by omega : ¬ s.readyState (ringPage rq) < 2)]
    simp
  unfold writeReg
  simp only [locate_ring rq ho, h3, hout, hf, writable_priv]
  have hq : (⟨⟨rq.port.val % 4, Nat.mod_lt _ (by decide)⟩, decide ((if rq.fn1 then 2 else 1) = 2)⟩ : Req) = rq := by
    obtain ⟨⟨p, hp⟩, f⟩ := rq
    have : p % 4 = p := Nat.mod_eq_of_lt hp
    cases f <;> simp [this]
  have a1 : absent s ⟨.hpRing, ringPage rq, 0x10, rq.port.val, if rq.fn1 then 2 else 1⟩ = false := by simp [absent]
  have a2 : foreign ⟨.hpRing, ringPage rq, 0x10, rq.port.val, if rq.fn1 then 2 else 1⟩ ⟨port, false⟩ o = false := by
    simp [foreign, ownedBy]
  simp only [a1, a2, Bool.or_self, Bool.false_eq_true, if_false, filtered, Bool.false_and, Bool.not_true]
  rw [if_neg (by simp), if_neg (by omega)]
  simp only [writeBlock]
  rw [← hq]
  simp

/-- What a ring halt does: RING_STATUS and RING_HALT, and nothing else (R389). -/
theorem halt_does (s : State) (rq : Req) {e : Nat} (he : e < 16) : halted (haltRing s rq e) rq e ∧ onlyRegsAt (fun a => a = ringPage rq + 0x68 ∨ a = ringPage rq + 0x18 ∨ a = ringPage rq + 0x1C) s (haltRing s rq e) := by
  unfold halted haltRing
  dsimp only
  refine ⟨⟨?_, ?_, State.bget_raise _ _ (by omega)⟩, ?_, ?_⟩
  · rw [State.bget, State.reg_raise_other _ _ _ (by omega) (by omega), State.reg_fset, if_pos rfl, getB_putF_apart _ _ (by omega), State.reg_fset, if_pos rfl]
    rw [getB_eq, getLsbD_putF]; simp
  · rw [State.fget_raise_other _ _ _ _ _ (by omega) (by omega), State.fget_fset_same _ _ _ (by omega)]
    exact Nat.mod_eq_of_lt he
  · exact ((State.onlyRegs_fset _ _ _ _ _).trans (State.onlyRegs_fset _ _ _ _ _)).trans (State.onlyRegs_raise _ _ _)
  · intro o ho
    simp only [not_or] at ho
    rw [State.reg_raise_other _ _ _ ho.2.1 ho.2.2, State.reg_fset_other _ _ _ _ ho.1, State.reg_fset_other _ _ _ _ ho.1]

/-- A one-bit field after a store. -/
theorem getB_putF_in (w : Word) (i v : Nat) (hi : i < 32) : getB (putF w i i v) i = v.testBit 0 := by
  rw [getB_eq, getLsbD_putF, if_pos (by omega)]
  simp [hi]

/-- Lines that could not be read: as many as asked, all marked, and only the free-value counter advances. -/
theorem freeLines_does (s : State) (n : Nat) :
    (s.freeLines n).1.length = n ∧ (∀ l ∈ (s.freeLines n).1, l.bad = true) ∧ (s.freeLines n).2 = { s with freeCtr := s.freeCtr + n } := by
  induction n generalizing s with
  | zero => exact ⟨rfl, by simp [State.freeLines], rfl⟩
  | succ n ih =>
    obtain ⟨h1, h2, h3⟩ := ih (s.free 256).2
    refine ⟨by simp [State.freeLines, h1], ?_, ?_⟩
    · intro l hl
      simp only [State.freeLines, List.mem_cons] at hl
      rcases hl with rfl | hl
      · rfl
      · exact h2 l hl
    · have e : s.freeCtr + 1 + n = s.freeCtr + (n + 1) := by omega
      exact h3.trans (by simp only [State.free]; rw [e])

/-- A page reset gives every register of the page that is not kept its reset value, and leaves all others. -/
theorem reg_resetPage (s : State) (base : Nat) (keep : Nat → Bool) (o : Nat) :
    (s.resetPage base keep).reg o = if base ≤ o ∧ o < base + 0x1000 ∧ keep (o - base) = false then resetOf o else s.reg o := by
  have := get_filter resetOf (fun k => decide (base ≤ k) && decide (k < base + 0x1000) && !keep (k - base)) s.regs o
  unfold State.resetPage State.reg
  simp only
  have e : (fun e : Nat × Word => !(decide (base ≤ e.1) && decide (e.1 < base + 0x1000)) || keep (e.1 - base)) = (fun e => !((decide (base ≤ e.1) && decide (e.1 < base + 0x1000) && !keep (e.1 - base)))) := by
    funext e
    cases decide (base ≤ e.1) <;> cases decide (e.1 < base + 0x1000) <;> cases keep (e.1 - base) <;> rfl
  rw [e, this]
  simp only [Bool.and_eq_true, decide_eq_true_eq, Bool.not_eq_true']
  by_cases h : (base ≤ o ∧ o < base + 0x1000) ∧ keep (o - base) = false
  · rw [if_pos h, if_pos ⟨h.1.1, h.1.2, h.2⟩]
  · rw [if_neg h, if_neg (fun x => h ⟨⟨x.1, x.2.1⟩, x.2.2⟩)]

/-- Spindles, memory, marks and hosts are as before. -/
def quiet (s t : State) : Prop := t.mem = s.mem ∧ t.marks = s.marks ∧ t.spindles = s.spindles ∧ t.hosts = s.hosts

/-- The relation is transitive. -/
theorem quiet.trans {s t u} (h : quiet s t) (k : quiet t u) : quiet s u := ⟨k.1.trans h.1, k.2.1.trans h.2.1, k.2.2.1.trans h.2.2.1, k.2.2.2.trans h.2.2.2⟩

/-- A reset of several pages. -/
theorem resetPages (s : State) (n : Nat) (base : Nat → Nat) (keep : Nat → Bool) :
    let t := iter n (fun k s => s.resetPage (base k) keep) s
    quiet s t ∧ (∀ k o, k < n → o < 0x1000 → keep o = false → t.reg (base k + o) = resetOf (base k + o)) ∧
    (∀ o, (∀ k, k < n → ¬ (base k ≤ o ∧ o < base k + 0x1000)) → t.reg o = s.reg o) := by
  induction n with
  | zero => exact ⟨⟨rfl, rfl, rfl, rfl⟩, fun _ _ h => absurd h (by omega), fun _ _ => rfl⟩
  | succ n ih =>
    obtain ⟨h1, h2, h3⟩ := ih
    dsimp only at *
    rw [iter_succ]
    refine ⟨h1.trans ⟨rfl, rfl, rfl, rfl⟩, fun k o hk ho hko => ?_, fun o ho => ?_⟩
    · rw [reg_resetPage]
      split
      · rfl
      · rename_i h
        by_cases e : k = n
        · subst e
          exfalso; apply h
          have : base k + o - base k = o := by omega
          exact ⟨by omega, by omega, by rw [this]; exact hko⟩
        · exact h2 k o (by omega) ho hko
    · rw [reg_resetPage, if_neg (fun x => ho n (by omega) ⟨x.1, x.2.1⟩)]
      exact h3 o (fun k hk => ho k (by omega))

end Sys2Proof.Machine
end

