-- ==== Sys2Proof/Laws/Mesh.lean ====
section
/-! SUPPORT. What counting a message's header on its route does (R87). -/
namespace Sys2Proof.Machine

/-- What counting headers does to one spindle. -/
def routedSpin (p q : Spindle) : Prop := q = { p with win := q.win } ∧ ∀ g o, o < 4096 → g ≠ 6 → q.wreg g o = p.wreg g o

theorem Spindle.bump48_routedSpin (p : Spindle) {lo : Nat} (n : Nat) (h : lo + 4 < 4096) : routedSpin p (p.bump48 6 lo n).1 := by
  unfold Spindle.bump48
  dsimp only
  split
  all_goals
    refine ⟨rfl, fun g o ho hg => ?_⟩
    repeat rw [Spindle.setWf]
    repeat rw [Spindle.wreg_setW_other _ _ (by omega)]

theorem routeHops_port {a b : Nat} {h : Nat × Nat} (hm : h ∈ routeHops a b) : h.2 < 4 := by
  unfold routeHops at hm
  rw [List.mem_append] at hm
  rcases hm with hm | hm <;> split at hm <;> simp only [tab, List.mem_map] at hm <;> obtain ⟨_, _, rfl⟩ := hm <;> omega

theorem exitPort_lt {d : Dest} {p : Nat} (h : exitPort d = some p) : p < 5 := by
  unfold exitPort at h
  repeat' split at h
  all_goals first | (cases h; omega) | cases h

/-- Everything that counting a header at router outputs does: counters of page 6 and the events of their wraps. -/
theorem countHops_routed (s : State) (hops : List (Nat × Nat)) (hp : ∀ h ∈ hops, h.2 < 5) :
    routed (fun _ => False) s (countHops s hops) ∧
    countHops s hops = { s with regs := (countHops s hops).regs, spindles := (countHops s hops).spindles } ∧
    ∀ j, ((countHops s hops).spin j).ep = (s.spin j).ep := by
  unfold countHops
  dsimp only
  set u : State := { s with spindles := hops.foldl (fun m h => SMap.set (fun _ => {}) m h.1 ((s.spin h.1).bump48 6 (0x500 + 0x10 * h.2) 1).1) s.spindles } with hu
  have hspin : ∀ j, routedSpin (s.spin j) (u.spin j) := by
    refine SMap.get_foldl_set _ (P := fun j q => routedSpin (s.spin j) q) _ _ hops s.spindles (fun j => ⟨rfl, fun _ _ _ _ => rfl⟩) (fun h hm => ?_)
    have := hp h hm
    exact Spindle.bump48_routedSpin _ _ (by omega)
  have hev := forEach_mem (fun t => onlyRegs u t ∧ sameRegs (fun o => ∃ f, o = pWin f 6 + 0x18 ∨ o = pWin f 6 + 0x1C) u t)
    (fun (h : Nat × Nat) t => t.raise (pWin (t.fieldOf h.1) 6) 31) (hops.filter (fun h => ((s.spin h.1).bump48 6 (0x500 + 0x10 * h.2) 1).2)) u
    (fun h _ t ht => ⟨ht.1.trans (State.onlyRegs_raise _ _ _), fun o ho => by
      rw [State.reg_raise_other _ _ _ (fun e => ho ⟨_, .inl e⟩) (fun e => ho ⟨_, .inr e⟩)]; exact ht.2 o ho⟩)
    ⟨rfl, fun _ _ => rfl⟩
  have hep : ∀ j, (u.spin j).ep = (s.spin j).ep := fun j => by rw [(hspin j).1]
  refine ⟨⟨fun o ho => hev.2 o (fun hx => ho (.inr hx)), fun j => ?_⟩, ?_, fun j => ?_⟩
  · rw [State.spin, hev.1.spindles]; exact ⟨(hspin j).1.trans (by rw [← hep j]; rfl), (hspin j).2⟩
  · rw [hev.1]
  · rw [State.spin, hev.1.spindles]; exact hep j

/-- Counting a header on its route does no more. -/
theorem countRoute_routed (s : State) (m : Msg) (out : Bool) :
    routed (fun _ => False) s (countRoute s m out) ∧
    countRoute s m out = { s with regs := (countRoute s m out).regs, spindles := (countRoute s m out).spindles } ∧
    ∀ j, ((countRoute s m out).spin j).ep = (s.spin j).ep := by
  refine countHops_routed s _ (fun h hm => ?_)
  rw [List.mem_append] at hm
  rcases hm with hm | hm
  · split at hm
    · cases hm
    · have := routeHops_port hm; omega
  · split at hm
    · split at hm
      · rw [List.mem_singleton] at hm; subst hm; exact exitPort_lt ‹_›
      · cases hm
    · cases hm

end Sys2Proof.Machine
end

