-- ==== Sys2Proof/Laws/Spindle.lean ====
section
/-! SUPPORT. Lemmas about one spindle: store reads, MP reads, counters and taps. -/
namespace Sys2Proof.Machine

/-- Storing one spindle changes that spindle alone. -/
theorem onlySpin_setSpin (s : State) (k : Nat) (x : Spindle) : onlySpin s (s.setSpin k x) k :=
  ⟨rfl, fun _ h => State.spin_setSpin_other _ _ h⟩

/-- Store line numbers are taken modulo 2048 (R55). -/
theorem storeAddr_mod (sid L : Nat) : storeAddr sid (L % 2048) = storeAddr sid L := by
  unfold storeAddr; rw [Nat.mod_mod]

/-- A read of a line that decodes cleanly and is not marked returns the line and changes nothing (R61). -/
theorem storeRead_clean (s : State) (sid L : Nat) (h : (readLine s (storeAddr sid L)).bad = false) :
    storeRead s sid L .clean = (readLine s (storeAddr sid L), s) := by
  unfold storeRead effCond
  simp [h]

/-- The data of a store line that an MP read names; without one, zero. -/
def mpLine (s : State) (sid : Nat) (l : Option Nat) : BitVec 256 :=
  match l with
  | some L => (readLine s (storeAddr sid L)).data
  | none => 0#256

/-- An MP read of lines that decode cleanly puts its first in lanes 0 to 7 and its second in lanes 8 to 15 (R153). -/
theorem mpReadVal_clean (s : State) (sid r : Nat) (l0 l1 : Option Nat)
    (h0 : ∀ L, l0 = some L → (readLine s (storeAddr sid L)).bad = false)
    (h1 : ∀ L, l1 = some L → (readLine s (storeAddr sid L)).bad = false) :
    mpReadVal s sid r [l0, l1] [] = (mpLine s sid l1 ++ mpLine s sid l0, s) := by
  unfold mpReadVal
  cases l0 <;> cases l1 <;> simp_all [nth, mpLine, storeRead_clean]

/-- A field of another register after a store. -/
theorem wf_setWf_ne (p : Spindle) {k o k' o' : Nat} (hi lo v hi' lo' : Nat) (h : k' * 4096 + o' ≠ k * 4096 + o) :
    (p.setWf k o hi lo v).wf_ k' o' hi' lo' = p.wf_ k' o' hi' lo' := by
  unfold Spindle.wf_ Spindle.setWf; rw [Spindle.wreg_setW_other _ _ h]

/-- A counter is a 16-bit value. -/
theorem ctr_lt (p : Spindle) (k i) : p.ctr k i < 2 ^ 16 := getF_lt _ _ _

/-- After the codes of counters below i: those counters are stepped, and every other register is unchanged. -/
structure CtrInv (p q : Spindle) (k w i : Nat) : Prop where
  done : ∀ j, j < i → q.ctr k j = ctrAfter p k w j
  keep : ∀ g o, o < 4096 → ¬ (g = 1 + k ∧ ∃ j, j < i ∧ o = 0x64 + 8 * j) → q.wreg g o = p.wreg g o

/-- The fold over the counter codes does what R158 says, counter by counter. -/
theorem ctr_fold (p : Spindle) (k w n : Nat) (hn : n ≤ 6) :
    let r := (List.range n).foldl (fun (st : Spindle × Bool) i =>
      let q := st.1
      match fld w (173 + 2 * i) (172 + 2 * i) with
      | 1 => (ctrStep q k i, ctrLast p k i)
      | 2 => (q.setCtr k i 0, false)
      | 3 => if st.2 then (ctrStep q k i, ctrLast p k i) else (q, false)
      | _ => (q, false)) (p, false)
    CtrInv p r.1 k w n ∧ (∀ m, n = m + 1 → r.2 = (ctrSteps p k w m && ctrLast p k m)) ∧ (n = 0 → r.2 = false) := by
  induction n with
  | zero => exact ⟨⟨fun j h => absurd h (by omega), fun _ _ _ _ => rfl⟩, fun m h => absurd h (by omega), fun _ => rfl⟩
  | succ n ih =>
    obtain ⟨⟨h1, h2⟩, h3, h4⟩ := ih (by omega)
    simp only [List.range_succ, List.foldl_append, List.foldl_cons, List.foldl_nil] at *
    set r := (List.range n).foldl (fun (st : Spindle × Bool) i =>
      match fld w (173 + 2 * i) (172 + 2 * i) with
      | 1 => (ctrStep st.1 k i, ctrLast p k i)
      | 2 => (st.1.setCtr k i 0, false)
      | 3 => if st.2 = true then (ctrStep st.1 k i, ctrLast p k i) else (st.1, false)
      | _ => (st.1, false)) (p, false) with hr
    have kc : r.1.ctr k n = p.ctr k n := by
      unfold Spindle.ctr Spindle.wf_; rw [h2 _ _ (by omega) (by rintro ⟨_, j, hj, e⟩; omega)]
    have kb : ctrBound r.1 k n = ctrBound p k n := by
      unfold ctrBound Spindle.wf_; rw [h2 _ _ (by omega) (by rintro ⟨_, j, hj, e⟩; omega)]
    have ks : ctrStride r.1 k n = ctrStride p k n := by
      unfold ctrStride Spindle.wf_; rw [h2 _ _ (by omega) (by rintro ⟨_, j, hj, e⟩; omega)]
    have kl : ctrLast r.1 k n = ctrLast p k n := by unfold ctrLast; rw [kb, kc, ks]
    have hcarry : r.2 = (match n with | 0 => false | m + 1 => ctrSteps p k w m && ctrLast p k m) := by
      cases n with
      | zero => exact h4 rfl
      | succ m => exact h3 m rfl
    -- what a store of counter n does
    have store : ∀ v, v < 2 ^ 16 → v = ctrAfter p k w n → CtrInv p (r.1.setCtr k n v) k w (n + 1) := by
      intro v hv he
      refine ⟨fun j hj => ?_, fun g o ho hg => ?_⟩
      · by_cases hjn : j = n
        · subst hjn
          rw [← he]
          unfold Spindle.ctr Spindle.setCtr
          rw [Spindle.wf_setWf_same _ _ _ _ (by omega)]
          exact Nat.mod_eq_of_lt hv
        · rw [← h1 j (by omega)]
          unfold Spindle.ctr Spindle.setCtr
          rw [wf_setWf_ne _ _ _ _ _ _ (by omega)]
      · unfold Spindle.setCtr Spindle.setWf
        rw [Spindle.wreg_setW_other _ _ (by intro e; apply hg; exact ⟨by omega, n, by omega, by omega⟩)]
        exact h2 g o ho (by rintro ⟨e, j, hj, e2⟩; exact hg ⟨e, j, by omega, e2⟩)
    have hold : p.ctr k n = ctrAfter p k w n → CtrInv p r.1 k w (n + 1) := by
      intro he
      refine ⟨fun j hj => ?_, fun g o ho hg => h2 g o ho (by rintro ⟨e, j, hj, e2⟩; exact hg ⟨e, j, by omega, e2⟩)⟩
      by_cases hjn : j = n
      · subst hjn; rw [kc, he]
      · exact h1 j (by omega)
    have hstep : CtrInv p (ctrStep r.1 k n) k w (n + 1) ∨ ctrSteps p k w n = false := by
      cases hs : ctrSteps p k w n
      · exact Or.inr rfl
      · left
        unfold ctrStep
        rw [kl, kc, ks]
        apply store
        · split
          · omega
          · rename_i hl
            unfold ctrLast at hl
            have hb : ctrBound p k n ≤ 65536 := by
              unfold ctrBound; simp only
              have : p.wf_ (1 + k) (0x60 + 8 * n) 31 16 < 2 ^ (31 + 1 - 16) := getF_lt _ _ _
              split <;> omega
            simp only [decide_eq_true_eq] at hl
            omega
        · unfold ctrAfter; rw [hs, if_pos rfl]
    have hcode : fld w (173 + 2 * n) (172 + 2 * n) < 4 := by
      have : fld w (173 + 2 * n) (172 + 2 * n) < 2 ^ (173 + 2 * n + 1 - (172 + 2 * n)) := Nat.mod_lt _ (by positivity)
      have e : 173 + 2 * n + 1 - (172 + 2 * n) = 2 := by omega
      rw [e] at this; exact this
    have hsteps : ctrSteps p k w n = (decide (fld w (173 + 2 * n) (172 + 2 * n) = 1) || (decide (fld w (173 + 2 * n) (172 + 2 * n) = 3) && r.2)) := by
      rw [hcarry]
      cases n with
      | zero => simp [ctrSteps]
      | succ m => simp only [ctrSteps]; rw [Bool.and_assoc]
    generalize hc : fld w (173 + 2 * n) (172 + 2 * n) = c at *
    have hA : ctrSteps p k w n = false → c ≠ 2 → p.ctr k n = ctrAfter p k w n := by
      intro h h'; unfold ctrAfter; rw [h, if_neg (by simp), hc, if_neg h']
    have : c = 0 ∨ c = 1 ∨ c = 2 ∨ c = 3 := by omega
    rcases this with e | e | e | e <;> subst e <;> simp only
    · simp at hsteps
      exact ⟨hold (hA hsteps (by omega)), fun m hm => by have : m = n := by omega
                                                         subst this; rw [hsteps]; rfl, fun h => absurd h (by omega)⟩
    · simp at hsteps
      refine ⟨hstep.resolve_right (by simp [hsteps]), fun m hm => ?_, fun h => absurd h (by omega)⟩
      have : m = n := by omega
      subst this; rw [hsteps]; rfl
    · simp at hsteps
      refine ⟨store 0 (by omega) ?_, fun m hm => ?_, fun h => absurd h (by omega)⟩
      · unfold ctrAfter; rw [hsteps, if_neg (by simp), hc, if_pos rfl]
      · have : m = n := by omega
        subst this; rw [hsteps]; rfl
    · simp at hsteps
      cases h2' : r.2
      · rw [h2'] at hsteps
        simp only [Bool.false_eq_true, if_false]
        exact ⟨hold (hA hsteps (by omega)), fun m hm => by have : m = n := by omega
                                                           subst this; rw [hsteps]; rfl, fun h => absurd h (by omega)⟩
      · rw [h2'] at hsteps
        simp only [if_true]
        refine ⟨hstep.resolve_right (by simp [hsteps]), fun m hm => ?_, fun h => absurd h (by omega)⟩
        have : m = n := by omega
        subst this; rw [hsteps]; rfl

/-- COUNTER_UPDATE as a whole (R158). -/
theorem ctrUpdate_does (p : Spindle) (k w : Nat) : (∀ i, i < 6 → (ctrUpdate p k w).ctr k i = ctrAfter p k w i) ∧
   (∀ g o, o < 4096 → ¬ (g = 1 + k ∧ ∃ i, i < 6 ∧ o = 0x64 + 8 * i) → (ctrUpdate p k w).wreg g o = p.wreg g o) := by
  have h := (ctr_fold p k w 6 (by omega)).1
  unfold ctrUpdate
  exact ⟨h.done, h.keep⟩

/-- Another tap after a store. -/
theorem tap_setTap_other (p : Spindle) {t t' v : Nat} (h : t' ≠ t) : (p.setTap t v).tap t' = p.tap t' := by
  unfold Spindle.tap Spindle.setTap
  by_cases e : t' / 2 = t / 2
  · have hm : t' % 2 ≠ t % 2 := by omega
    rw [e]
    unfold Spindle.wf_ Spindle.setWf
    rw [Spindle.wreg_setW_same, getF_putF_apart _ _ (by omega) (by omega)]
  · rw [wf_setWf_ne _ _ _ _ _ _ (by omega)]

/-- The hank queues of a tap are queues 0 and 1 of plies 0 to 3. -/
theorem hqOfTap_lt (p : Spindle) (t : Nat) : ∀ kq ∈ p.hqOfTap t, kq.1 < 4 ∧ kq.2 < 2 := by
  intro kq h
  have h' := List.mem_of_mem_filter h
  simp only [List.mem_cons, List.mem_nil_iff, or_false] at h'
  rcases h' with h | h | h | h | h | h | h | h <;> rw [h] <;> decide

/-- An event leaves every spindle. -/
theorem spin_raiseIf (v : State) (c pg b sid) : ((v.raiseIf c pg b).spin sid) = v.spin sid := by
  unfold State.spin; rw [State.raiseIf_spindles]

/-- What the EP forms is no register. -/
@[simp] theorem wreg_form (p : Spindle) (c e) (g o : Nat) : (p.form c e).wreg g o = p.wreg g o := by cases c <;> rfl

/-- An increment adds to the tap, and leaves every other tap (R73). -/
theorem tapAdd_taps (s : State) (sid t n : Nat) (i : Nat) (hi : i < 16) :
    ((tapAdd s sid t n).spin sid).tap i = if i = t then ((s.spin sid).tap t + n) % 2 ^ 16 else (s.spin sid).tap i := by
  have hset : ((s.setSpin sid ((s.spin sid).setTap t ((s.spin sid).tap t + n))).spin sid).tap i = if i = t then ((s.spin sid).tap t + n) % 2 ^ 16 else (s.spin sid).tap i := by
    rw [State.spin_setSpin_same]
    split
    · rename_i h; subst h; rw [Spindle.tap_setTap_same]
    · rename_i h; rw [tap_setTap_other _ h]
  unfold tapAdd
  simp only
  split
  · exact hset
  · rw [← hset]
    refine forEach_mem (fun (u : State) => (u.spin sid).tap i = ((s.setSpin sid ((s.spin sid).setTap t ((s.spin sid).tap t + n))).spin sid).tap i) _ _ _ ?_ rfl
    intro kq hkq u hu
    have hb := hqOfTap_lt _ _ kq hkq
    beta_reduce at hu ⊢
    rw [← hu, spin_raiseIf, State.spin_setSpin_same]
    unfold Spindle.tap Spindle.wf_
    rw [wreg_form, Spindle.wreg_setW_other]
    omega

end Sys2Proof.Machine
end

