-- ==== Sys2Proof/Laws/Vector.lean ====
section
/-! SUPPORT. The vector unit: what one operation can do to its spindle and to the rest (R123, R130, R133). -/
namespace Sys2Proof.Machine

/-! ### The VU word (R124) -/

theorem fld_withOp (v op hi lo : Nat) (h : hi < 58) : fld (withOp v op) hi lo = fld v hi lo := by
  apply Nat.eq_of_testBit_eq
  intro i
  have e : withOp v op = op <<< 58 + v % 2 ^ 58 := by rw [withOp, Nat.shiftLeft_eq]; omega
  rw [fld, fld, Nat.testBit_mod_two_pow, Nat.testBit_mod_two_pow, Nat.testBit_shiftRight, Nat.testBit_shiftRight]
  by_cases hi' : i < hi + 1 - lo
  · have hl : lo + i < 58 := by omega
    rw [e, Nat.shiftLeft_add_eq_or_of_lt (Nat.mod_lt _ (by decide)), Nat.testBit_or, Nat.testBit_shiftLeft,
      Nat.testBit_mod_two_pow]
    simp [hl, hi', show ¬ 58 ≤ lo + i by omega]
  · simp [hi']

theorem testBit_withOp (v op i : Nat) (h : i < 58) : (withOp v op).testBit i = v.testBit i := by
  have := congrArg (fun n => n.testBit 0) (fld_withOp v op i i h)
  simpa [fld, Nat.testBit_shiftRight] using this

theorem op_withOp (v op : Nat) (h : op < 64) : fld (withOp v op) 63 58 = op := by
  rw [fld, withOp, Nat.shiftRight_eq_div_pow]
  omega

/-- Replacing the OP of a word leaves the other fields. -/
theorem vuDecode_withOp (v op : Nat) (h : op < 64) : vuDecode (withOp v op) = { vuDecode v with op := op } := by
  simp only [vuDecode, op_withOp v op h]
  simp only [fld_withOp v op _ _ (show 57 < 58 by omega), fld_withOp v op _ _ (show 51 < 58 by omega),
    fld_withOp v op _ _ (show 45 < 58 by omega), fld_withOp v op _ _ (show 39 < 58 by omega),
    fld_withOp v op _ _ (show 33 < 58 by omega), fld_withOp v op _ _ (show 28 < 58 by omega),
    fld_withOp v op _ _ (show 23 < 58 by omega), fld_withOp v op _ _ (show 18 < 58 by omega),
    fld_withOp v op _ _ (show 16 < 58 by omega), fld_withOp v op _ _ (show 13 < 58 by omega),
    fld_withOp v op _ _ (show 9 < 58 by omega), fld_withOp v op _ _ (show 5 < 58 by omega),
    testBit_withOp v op 14 (by omega), testBit_withOp v op 7 (by omega), testBit_withOp v op 6 (by omega)]

theorem withPart_eq (v part : Nat) (h : part < 16) : withPart v part = v / 64 * 64 + part * 4 + v % 4 := by
  have : fld v 5 2 = v / 4 % 16 := congrArg (· % 16) (Nat.shiftRight_eq_div_pow v 2)
  rw [withPart, this, Nat.mod_eq_of_lt h]
  omega

theorem testBit_withPart (v part i : Nat) (h : part < 16) (hi : i < 2 ∨ 6 ≤ i) : (withPart v part).testBit i = v.testBit i := by
  rw [withPart_eq v part h]
  have e : v / 64 * 64 + part * 4 + v % 4 = (v / 64) <<< 6 + (part * 4 + v % 4) := by rw [Nat.shiftLeft_eq]; omega
  have e2 : part * 4 + v % 4 = part <<< 2 + v % 4 := by rw [Nat.shiftLeft_eq]
  have hv : (v % 4).testBit i = (decide (i < 2) && v.testBit i) := Nat.testBit_mod_two_pow v 2 i
  have hd : (v / 64).testBit (i - 6) = (v >>> 6).testBit (i - 6) := by rw [Nat.shiftRight_eq_div_pow]
  rw [e, Nat.shiftLeft_add_eq_or_of_lt (by omega), Nat.testBit_or, Nat.testBit_shiftLeft, hd, Nat.testBit_shiftRight, e2,
    Nat.shiftLeft_add_eq_or_of_lt (by omega), Nat.testBit_or, Nat.testBit_shiftLeft, hv]
  rcases hi with hi | hi
  · simp [hi, show ¬ 6 ≤ i by omega, show ¬ 2 ≤ i by omega]
  · have hp : part.testBit (i - 2) = false := Nat.testBit_lt_two_pow (lt_of_lt_of_le h (show (2 : Nat) ^ 4 ≤ 2 ^ (i - 2) from Nat.pow_le_pow_right (by decide) (by omega)))
    simp [hi, hp, show ¬ i < 2 by omega, show 6 + (i - 6) = i by omega]

theorem fld_withPart (v part hi lo : Nat) (h : part < 16) (hl : 6 ≤ lo) : fld (withPart v part) hi lo = fld v hi lo := by
  apply Nat.eq_of_testBit_eq
  intro i
  rw [testBit_fld, testBit_fld, testBit_withPart v part _ h (.inr (by omega))]

/-- Replacing the PART of a word leaves the other fields. -/
theorem vuDecode_withPart (v part : Nat) (h : part < 16) : vuDecode (withPart v part) = { vuDecode v with part := part } := by
  have hp : fld (withPart v part) 5 2 = part := by
    rw [withPart_eq v part h, fld, Nat.shiftRight_eq_div_pow]
    omega
  simp only [vuDecode, hp]
  simp only [fld_withPart v part _ _ h (show 6 ≤ 58 by omega), fld_withPart v part _ _ h (show 6 ≤ 52 by omega),
    fld_withPart v part _ _ h (show 6 ≤ 46 by omega), fld_withPart v part _ _ h (show 6 ≤ 40 by omega),
    fld_withPart v part _ _ h (show 6 ≤ 34 by omega), fld_withPart v part _ _ h (show 6 ≤ 29 by omega),
    fld_withPart v part _ _ h (show 6 ≤ 24 by omega), fld_withPart v part _ _ h (show 6 ≤ 19 by omega),
    fld_withPart v part _ _ h (show 6 ≤ 17 by omega), fld_withPart v part _ _ h (show 6 ≤ 15 by omega),
    fld_withPart v part _ _ h (show 6 ≤ 10 by omega), fld_withPart v part _ _ h (show 6 ≤ 8 by omega),
    testBit_withPart v part 14 h (by omega), testBit_withPart v part 7 h (by omega), testBit_withPart v part 6 h (by omega)]

/-! ### Accumulators -/

theorem lacc_iter_setLa (f : Nat → Spindle → BitVec 128) (j n : Nat) (hn : n ≤ 16) (p : Spindle)
    (hf : ∀ l q, q.lacc j l = p.lacc j l → f l q = f l p) (i l : Nat) (hl : l < 16) :
    (iter n (fun l q => q.setLa j l (f l q)) p).lacc i l = if i = j ∧ l < n then f l p else p.lacc i l := by
  induction n generalizing i l with
  | zero => simp [iter]
  | succ n ih =>
    have ih := ih (by omega)
    have e : iter (n + 1) (fun l q => q.setLa j l (f l q)) p =
        (iter n (fun l q => q.setLa j l (f l q)) p).setLa j n (f n (iter n (fun l q => q.setLa j l (f l q)) p)) := by
      simp [iter, List.range_succ]
    rw [e]
    by_cases h : i = j ∧ l = n
    · obtain ⟨rfl, rfl⟩ := h
      rw [Spindle.lacc_setLa_same, if_pos (by omega)]
      refine hf _ _ ?_
      rw [ih _ _ hl, if_neg (by omega)]
    · rw [Spindle.lacc_setLa_other _ _ (by omega), ih _ _ hl]
      by_cases h2 : i = j ∧ l < n
      · rw [if_pos h2, if_pos (by omega)]
      · rw [if_neg h2, if_neg (by omega)]

theorem vreg_iter_setLa (f : Nat → Spindle → BitVec 128) (j n : Nat) (p : Spindle) (r : Nat) :
    (iter n (fun l q => q.setLa j l (f l q)) p).vreg r = p.vreg r := by
  induction n with
  | zero => simp [iter]
  | succ n ih =>
    have e : iter (n + 1) (fun l q => q.setLa j l (f l q)) p =
        (iter n (fun l q => q.setLa j l (f l q)) p).setLa j n (f n (iter n (fun l q => q.setLa j l (f l q)) p)) := by
      simp [iter, List.range_succ]
    rw [e, Spindle.vreg_setLa, ih]

theorem wreg_iter_setLa (f : Nat → Spindle → BitVec 128) (j n : Nat) (p : Spindle) (k o : Nat) :
    (iter n (fun l q => q.setLa j l (f l q)) p).wreg k o = p.wreg k o := by
  induction n with
  | zero => simp [iter]
  | succ n ih =>
    have e : iter (n + 1) (fun l q => q.setLa j l (f l q)) p =
        (iter n (fun l q => q.setLa j l (f l q)) p).setLa j n (f n (iter n (fun l q => q.setLa j l (f l q)) p)) := by
      simp [iter, List.range_succ]
    rw [e, Spindle.wreg_setLa, ih]

/-! ### The result of an operation -/

/-- What an operation's result leaves in its spindle (R123, R133): DST bits, accumulators, scale exponents, flags; no other
register of the spindle. -/
theorem vuCommit_leaves (p : Spindle) (x : VuFly) (hk : x.ply < 4) : spinLeaves p (vuCommit p x) x.ply x.dst x.res false := by
  set p1 : Spindle := if x.res.mask = 0 then p
    else p.setV x.dst (BitVec.ofNat 512 (blend (p.vreg x.dst).toNat x.res.val x.res.mask)) with hp1
  have v1 : ∀ r, p1.vreg r = if r = x.dst ∧ x.res.mask ≠ 0 then
      BitVec.ofNat 512 (blend (p.vreg r).toNat x.res.val x.res.mask) else p.vreg r := by
    intro r
    rw [hp1]
    by_cases hm : x.res.mask = 0
    · simp [hm]
    · by_cases hr : r = x.dst
      · subst hr; simp [hm]
      · simp [hm, hr, Spindle.vreg_setV_other _ _ hr]
  have l1 : ∀ i l, p1.lacc i l = p.lacc i l := by intro i l; rw [hp1]; split <;> rfl
  have w1 : ∀ k o, p1.wreg k o = p.wreg k o := by intro k o; rw [hp1]; split <;> rfl
  have key : ∀ q : Spindle, (∀ r, q.vreg r = p1.vreg r) →
      (∀ i l, l < 16 → q.lacc i l = laAfter x.res.la p.lacc i l) →
      (∀ k o, o < 4096 → (k ≠ 7 ∨ o ≠ 0x44) → q.wreg k o = p1.wreg k o) →
      q.wreg 7 0x44 = scaleAfter x.res.la (p.wreg 7 0x44) →
      spinLeaves p (q.addFlags x.ply x.res.fl) x.ply x.dst x.res false := by
    intro q hv hl hw hs
    refine ⟨fun r => (hv r).trans (v1 r), hl, ?_, ?_, ?_, fun k o ho hne hne' _ => ?_⟩
    · rw [Spindle.addFlags, Spindle.wreg_setW_other _ _ (by omega)]
      exact hs
    · rw [Spindle.addFlags, Spindle.wreg_setW_same, hw _ _ (by omega) (by omega), w1]
    · rw [Spindle.addFlags, Spindle.wreg_setW_other _ _ (by omega), hw _ _ (by omega) (by omega), w1, if_neg (by decide)]
    · rw [Spindle.addFlags, Spindle.wreg_setW_other _ _ (by omega), hw _ _ ho (by omega), w1]
  -- a run of stores into the lanes of index j, and LA_SCALE after it
  have run : ∀ (j : Nat) (f : Nat → Spindle → BitVec 128) (g : Spindle → Spindle),
      (∀ l q, q.lacc j l = p1.lacc j l → f l q = f l p1) →
      (∀ i l, l < 16 → (if i = j ∧ l < 16 then f l p1 else p1.lacc i l) = laAfter x.res.la p.lacc i l) →
      (∀ q r, (g q).vreg r = q.vreg r) → (∀ q i l, (g q).lacc i l = q.lacc i l) →
      (∀ q k o, o < 4096 → (k ≠ 7 ∨ o ≠ 0x44) → (g q).wreg k o = q.wreg k o) →
      (∀ q : Spindle, q.wreg 7 0x44 = p.wreg 7 0x44 → (g q).wreg 7 0x44 = scaleAfter x.res.la (p.wreg 7 0x44)) →
      spinLeaves p ((g (iter 16 (fun l q => q.setLa j l (f l q)) p1)).addFlags x.ply x.res.fl) x.ply x.dst x.res false := by
    intro j f g hf hla gv gl gw gs
    refine key _ (fun r => ?_) (fun i l hl => ?_) (fun k o ho hne => ?_) ?_
    · rw [gv, vreg_iter_setLa]
    · rw [gl, lacc_iter_setLa f j 16 (le_refl _) p1 hf i l hl, hla i l hl]
    · rw [gw _ _ _ ho hne, wreg_iter_setLa]
    · exact gs _ ((wreg_iter_setLa _ _ _ _ _ _).trans (w1 _ _))
  unfold vuCommit
  dsimp only
  rw [← hp1]
  split
  · rename_i h
    refine key p1 (fun r => rfl) (fun i l _ => ?_) (fun _ _ _ _ => rfl) ?_
    · rw [h, l1]; rfl
    · rw [h, w1]; rfl
  · rename_i j vals h
    have H := run j (fun l q => q.lacc j l + nth 0#128 vals l) (fun q => q) (fun l q hq => by rw [hq]) (fun i l hl => by
        rw [h]; simp only [laAfter, l1]
        by_cases e : i = j
        · subst e; rw [if_pos ⟨rfl, hl⟩, if_pos rfl]
        · rw [if_neg (by omega), if_neg e])
      (fun _ _ => rfl) (fun _ _ _ => rfl) (fun _ _ _ _ _ => rfl) (fun q hq => by rw [h]; exact hq)
    exact H
  · rename_i j h
    have H := run j (fun _ _ => 0#128) (fun q => q) (fun _ _ _ => rfl) (fun i l hl => by
        rw [h]; simp only [laAfter, l1]
        by_cases e : i = j
        · rw [if_pos ⟨e, hl⟩, if_pos e]
        · rw [if_neg (by omega), if_neg e])
      (fun _ _ => rfl) (fun _ _ _ => rfl) (fun _ _ _ _ _ => rfl) (fun q hq => by rw [h]; exact hq)
    exact H
  · rename_i j sc h
    have H := run j (fun _ _ => 0#128) (fun q => q.setScale j sc.toNat) (fun _ _ _ => rfl) (fun i l hl => by
        rw [h]; simp only [laAfter, l1]
        by_cases e : i = j
        · rw [if_pos ⟨e, hl⟩, if_pos e]
        · rw [if_neg (by omega), if_neg e])
      (fun _ _ => rfl) (fun _ _ _ => rfl) (fun q k o ho hne => Spindle.wreg_setW_other _ _ (by omega))
      (fun q hq => by rw [h, scaleAfter, Spindle.setScale, Spindle.setWf, Spindle.wreg_setW_same, hq])
    exact H
  · rename_i j sc vals h
    have H := run j (fun l _ => nth 0#128 vals l) (fun q => q.setScale j sc.toNat) (fun _ _ _ => rfl) (fun i l hl => by
        rw [h]; simp only [laAfter, l1]
        by_cases e : i = j
        · rw [if_pos ⟨e, hl⟩, if_pos e]
        · rw [if_neg (by omega), if_neg e])
      (fun _ _ => rfl) (fun _ _ _ => rfl) (fun q k o ho hne => Spindle.wreg_setW_other _ _ (by omega))
      (fun q hq => by rw [h, scaleAfter, Spindle.setScale, Spindle.setWf, Spindle.wreg_setW_same, hq])
    exact H

/-- The step of the shadow lane changes SHADOW_PTR.LANE only (R75). -/
theorem nextLane_leaves {p q : Spindle} {k dst : Nat} {r : VuRes} (hk : k < 4) (h : spinLeaves p q k dst r false) :
    spinLeaves p (nextLane q) k dst r true := by
  obtain ⟨hv, hl, hs, hf, hn, hw⟩ := h
  rw [if_neg (by decide)] at hn
  refine ⟨hv, hl, ?_, ?_, ?_, fun g o ho h1 h2 h3 => ?_⟩
  · rw [nextLane, Spindle.setWf, Spindle.wreg_setW_other _ _ (by omega)]; exact hs
  · rw [nextLane, Spindle.setWf, Spindle.wreg_setW_other _ _ (by omega)]; exact hf
  · rw [nextLane, Spindle.setWf, Spindle.wreg_setW_same, Spindle.wf_, hn, if_pos rfl]
  · rw [nextLane, Spindle.setWf, Spindle.wreg_setW_other _ _ (by omega)]; exact hw g o ho h1 h2 h3

/-- A command of the vector unit acts on its spindle only, as its result says (R130). -/
theorem vuRow_leaves (s : State) (sid word : Nat) (hon : spinOn s sid = true) (hp : (s.spin sid).ply < 4) :
    vuLeaves s (vuRow s sid word) sid (vuDecode word)
      (vuCompute (vuDecode word) (vuArgs s sid (vuDecode word))) := by
  have H := vuCommit_leaves (s.spin sid) (vuStart (s.spin sid) sid (s.spin sid).ply ((s.spin sid).curAct (s.spin sid).ply) word) hp
  unfold vuRow
  rw [if_pos hon]
  refine ⟨rfl, fun j hj => State.spin_setSpin_other s _ hj, ?_⟩
  rw [State.spin_setSpin_same]
  cases h : vuRuns (vuDecode word).op
  · rw [if_neg (by decide)]; exact H
  · rw [if_pos rfl]; exact nextLane_leaves hp H

end Sys2Proof.Machine
end

