-- ==== Sys2Proof/WellFormed.lean ====
section
/-! DEFINITION. Well-formed commands: operands that name a part the engine has. -/
namespace Sys2Proof

/-- `n` 32-bit parts from BAR0 offset `off` lie in the 64 MiB of BAR0 (R32). -/
def bar0Fits (off n : Nat) : Bool := decide (off + 4 * n ≤ 0x4000000)

/-- A BAR2 request moves 1 to 4,096 bytes (R379). -/
def bar2Fits : Bar2 → Bool
  | .read n => decide (1 ≤ n) && decide (n ≤ 4096)
  | .write bs _ => decide (1 ≤ bs.length) && decide (bs.length ≤ 4096)

/-- A reel has a channel: 16 in a field reel, 32 in a host reel (R292). -/
def hasChannel (reel c : Nat) : Bool := decide (c < if reel < 64 then 16 else 32)

/-- A link record's position and kind (R438): 130 rows of 152 positions, kinds 0 to 8. -/
def linkFits (loc detail : Nat) : Bool := decide (loc < 130 * 152) && decide (detail ≤ 8)

/-- One sampling has every sensor (R482). -/
def samplesFit (x : Samples) : Bool :=
  x.temps.length = 64 && x.temps.all (fun l => l.length = 8) && x.rails.length = 64 && x.transit.length = 2 && x.coolant.length = 2

/-- A SEC-DED word exists (R458). -/
def secFits : SecWord → Bool
  | .vreg _ reg lane => decide (reg < 64) && decide (lane < 16)
  | .lacc _ index lane word => decide (index < 4) && decide (lane < 16) && decide (word < 4)
  | .scale _ => true
  | .chime c _ => decide (c < 32768)

/-- Whether the operands of a command name parts that the engine has. -/
def WellFormed (i : Instr) : Bool :=
  match i with
  | .bar0RegisterWrite _ _ off parts _ => off % 4 = 0 && parts.all (fun p => decide (p.1 < 16)) && bar0Fits off parts.length
  | .bar0LoReadLatch _ _ off => off % 4 = 0 && bar0Fits off 1
  | .bar0HiReadRelease _ _ off parts => off % 4 = 0 && parts.all (fun b => decide (b < 16)) && bar0Fits off parts.length
  | .evtStatusClear _ _ base _ _ _ => base % 0x1000 = 0 && bar0Fits base 1
  | .evtForce _ _ base _ => base % 0x1000 = 0 && bar0Fits base 1
  | .countClear _ _ base => base % 0x1000 = 0 && bar0Fits base 1
  | .bar2Function1Request _ _ _ a _ => bar2Fits a
  | .bar2Function0Request _ _ _ a _ => bar2Fits a
  | .spindleWindowWrite _ _ _ k o _ => k.val != 0 && o % 4 = 0 && decide (o < 0x1000)
  | .sequencerCycle _ _ => true
  | .plySwitch _ _ => true
  | .loadRequest _ _ => true
  | .counterUpdate _ _ => true
  | .tapIncrement _ _ => true
  | .mpStoreRead _ _ _ => true
  | .mpRqRead _ _ _ => true
  | .mpCqRead _ _ => true
  | .mpWrite _ _ _ => true
  | .storeCorrectedWriteBack _ => true
  | .send _ _ => true
  | .pop _ _ => true
  | .ipMessageInject _ _ => true
  | .ipMessageLeft _ => true
  | .vuNop _ _ => true
  | .mov _ _ => true
  | .and _ _ => true
  | .or _ _ => true
  | .xor _ _ => true
  | .shuf _ _ => true
  | .sel _ _ => true
  | .add _ _ => true
  | .sub _ _ => true
  | .max _ _ => true
  | .min _ _ => true
  | .cmpeq _ _ => true
  | .cmplt _ _ => true
  | .cmple _ _ => true
  | .cvt _ _ => true
  | .qsc _ _ => true
  | .pack _ _ => true
  | .unpack _ _ => true
  | .lutb _ _ => true
  | .lutw _ _ => true
  | .exp2 _ _ => true
  | .exp _ _ => true
  | .log2 _ _ => true
  | .rcp _ _ => true
  | .sqrt _ _ => true
  | .rsqrt _ _ => true
  | .sigmoid _ _ => true
  | .tanh _ _ => true
  | .silu _ _ => true
  | .gelu _ _ => true
  | .fnReserved _ _ => true
  | .mul _ _ => true
  | .fma _ _ => true
  | .dotf _ _ => true
  | .dotl _ _ => true
  | .dotx _ _ => true
  | .ladd _ _ => true
  | .lclr _ _ => true
  | .lscl _ _ => true
  | .lrgd _ _ => true
  | .lrd _ _ => true
  | .rsum _ _ => true
  | .rmax _ _ => true
  | .rmin _ _ => true
  | .rarg _ _ => true
  | .vuOpUnassigned _ _ => true
  | .vuResultWrite _ _ => true
  | .plyLoadStart _ => true
  | .plyLoadDone _ => true
  | .rgGo _ _ _ => true
  | .watchCallAccept _ => true
  | .waferCallDelivery _ => true
  | .callIssue _ => true
  | .callNop _ => true
  | .switch _ => true
  | .load _ => true
  | .restart _ => true
  | .tapAdd _ => true
  | .hold _ => true
  | .release _ => true
  | .callBad _ => true
  | .epQueueMessage _ _ _ _ => true
  | .epStoreWrite _ _ _ => true
  | .epStoreRead _ _ _ _ => true
  | .computeOffStoreAccess _ _ _ => true
  | .stallSkew _ _ _ _ => true
  | .spillCopy _ _ _ _ => true
  | .deadlockSuspect _ _ _ _ => true
  | .linkCodewordReceive _ loc detail _ _ => linkFits loc.val detail.val
  | .linkReplay _ loc detail _ _ _ _ => linkFits loc.val detail.val
  | .ageingGrant _ _ ready _ => ready.length = 4 && ready.all (fun l => l.all (fun r => decide (r.1 < 8)))
  | .calWindowExpiry _ loc detail => linkFits loc.val detail.val
  | .calSlotStart _ _ => true
  | .calSlotEnd _ _ _ _ => true
  | .chimeIncrement _ _ _ => true
  | .barrierArrival _ _ _ _ _ => true
  | .barrierRoundComplete _ _ => true
  | .chimeSpaceWrite _ _ _ _ => true
  | .chimeSpaceRead _ _ _ => true
  | .chValueWrite _ _ _ _ => true
  | .chCfgWrite _ _ _ _ => true
  | .watchFire _ _ => true
  | .bobbinRead _ _ _ _ _ => true
  | .bobbinWrite _ _ _ => true
  | .bobbinWriteBack _ => true
  | .refresh _ _ => true
  | .scrubAccess _ _ _ => true
  | .retrainSlot _ _ => true
  | .coReq _ _ _ _ => true
  | .changeoverStart _ => true
  | .coDone _ _ => true
  | .slotLost _ slot => decide (slot.val < 9)
  | .chStart _ _ reel c _ => hasChannel reel.val c.val
  | .chDisable _ _ reel c _ => hasChannel reel.val c.val
  | .chDescriptorWrite _ _ reel c o _ => hasChannel reel.val c.val && o.val % 4 = 0
  | .triggerFire reel channel => hasChannel reel.val channel.val
  | .channelAdmit _ => true
  | .reelReadRequest _ _ => true
  | .reelBeat _ _ => true
  | .reelWriteInject _ _ => true
  | .reelAckReceive _ _ => true
  | .xferDone reel channel => hasChannel reel.val channel.val
  | .loadPeal _ _ _ => true
  | .loadPealDone => true
  | .unloadPeal => true
  | .startRun => true
  | .stopRun => true
  | .drainDone => true
  | .abortRun => true
  | .faultAck _ _ => true
  | .faultAckDone => true
  | .issueStroke => true
  | .strokeBlockArrival _ _ _ _ => true
  | .strokeCopyIn _ _ _ => true
  | .strokeAdmit => true
  | .strokeCopyOut _ _ _ _ => true
  | .strokeRecord _ => true
  | .strokeCompletionEntry _ => true
  | .runFault code _ _ => decide (1 ≤ code.val) && decide (code.val ≤ 10)
  | .fenceStrokeBoundary => true
  | .digest _ _ _ => true
  | .probe _ => true
  | .setPolicy => true
  | .query => true
  | .cmdNop => true
  | .doorbell _ _ _ _ _ => true
  | .commandTake _ _ _ _ => true
  | .cplHeadWrite _ _ _ _ _ => true
  | .ringEnable _ _ _ _ _ _ => true
  | .ringReset _ _ _ _ => true
  | .completionEntryWrite _ _ => true
  | .msixSend _ _ _ => true
  | .hostRdErr _ _ _ _ => true
  | .hostFlushDone _ channel _ => decide (channel.val < 32) || channel.val = 63
  | .hostLinkChange _ up width speed => !up || ((width = 8 || width = 16) && decide (3 ≤ speed) && decide (speed ≤ 6))
  | .portReset _ => true
  | .functionLevelReset _ _ => true
  | .nirdorRetrain _ => true
  | .trainingDone _ _ _ margins _ _ partnerPort partnerNumber => margins.length = 42 && decide (partnerPort < 16) && decide (partnerNumber < 65536)
  | .portUp _ _ => true
  | .engineNumberWrite _ => true
  | .portDown _ => true
  | .linkFailure _ _ => true
  | .laneSpared _ _ _ _ => true
  | .frameReceive _ rx _ => match rx with | some r => decide (r.2.2.2.length ≤ 8) | none => true
  | .frameReplay _ _ _ => true
  | .packetBuild _ _ _ _ => true
  | .packetReceive _ => true
  | .packetDeliver _ _ _ => true
  | .creditSend _ _ _ => true
  | .creditReceive _ => true
  | .ackPacketSend _ _ _ _ => true
  | .ackPacketReceive _ => true
  | .packetRelay _ _ => true
  | .remoteLoss _ _ _ => true
  | .exportEntryWrite _ imp i _ => !imp || decide (i.val < 2)
  | .refLockChange _ _ => true
  | .refLost _ _ => true
  | .xoArmed => true
  | .xoLost _ => true
  | .xoRequal => true
  | .refSelectWrite _ _ => true
  | .portEligible _ => true
  | .sourceSwitch => true
  | .forcedSwitch => true
  | .relocked => true
  | .divChange _ => true
  | .throttleChange _ _ => true
  | .timebaseTick => true
  | .tbLoadGo => true
  | .coldReset source => decide (source.val ≤ 4)
  | .engineReset source => decide (source.val ≤ 4)
  | .fieldReset source _ => decide (source.val ≤ 4)
  | .runAbortReset _ _ => true
  | .resetDone => true
  | .powerOn => true
  | .belfryBoot _ _ => true
  | .transitOn => true
  | .fuseSheetRead _ => true
  | .fieldTestStart => true
  | .fieldTestDone _ _ _ _ _ _ => true
  | .mapDone => true
  | .sensorSample x => samplesFit x
  | .sensorFail _ => true
  | .hotOff _ => true
  | .hotBack _ => true
  | .engineTrip => true
  | .tripRecovery => true
  | .fuseTrip _ _ _ _ => true
  | .dieSuspect _ slot => decide (slot.val < 9)
  | .logPoll => true
  | .hourlySummary => true
  | .bfHeartbeat => true
  | .captureReadByBelfry _ => true
  | .hit => true
  | .suspectProbe _ _ => true
  | .hitExpiry _ => true
  | .sweep _ => true
  | .parityFailure _ _ _ => true
  | .secdedError word _ => secFits word
  | .mbSend _ _ => true
  | .info => true
  | .sensors => true
  | .logRead => true
  | .mapRead => true
  | .captureRead => true
  | .hitsRead => true
  | .fieldHold => true
  | .mailboxReset => true
  | .diePolicy => true
  | .updateBegin => true
  | .updateData => true
  | .updateEnd => true
  | .updateSessionTimeout => true
  | .trialConfirm _ => true
  | .smbusStatusRead _ _ => true
  | .smbusCoolantRead _ _ _ => true
  | .smbusInputRead _ _ _ => true
  | .smbusTmaxRead _ _ => true
  | .smbusResetWrite _ _ _ => true
  | .inputSwitchClose _ => true
  | .inputSwitchOpen _ => true
  | .transitOvercurrent _ => true
  | .unmappedPageRead _ _ off parts => off % 4 = 0 && parts.all (fun b => decide (b < 16)) && bar0Fits off parts.length
  | .retrainSlotEnd _ _ _ => true
  | .laneSwapSlotEnd _ => true
  | .managementNetworkMessage _ _ ws => ws.length = 64

end Sys2Proof
end

