-- ==== Sys2Proof/Tests/Slice0.lean ====
section
/-! SUPPORT. Tests of single commands against the spec's rules, ill-formed commands, and, for every statement of
Certificates/Slice0/Obligations.lean with hypotheses, a state and operands that meet them: one part per clause. -/
namespace Sys2Proof.Tests

-- One theorem at a time: each would otherwise take a thread with a stack of its own.
set_option Elab.async false

open Sys2Proof.Machine

/-! ### Small states -/

/-- A state with some registers changed. -/
def regs (rs : List (Nat × Word)) (s : State) : State := rs.foldl (fun t r => t.setReg r.1 r.2) s

/-- PAGE_READY 3 (both bits) in these pages, by number. -/
def ready (ps : List Nat) : List (Nat × Word) := ps.map (fun p => (p * 0x1000 + 0xC, 3#32))

/-- A W1-X after start-up, as far as the pages of field 0, host port 0, Nirdor ports 0, 1 and 15 and the engine's own show it:
OFFERED_SHAPE 896 × 1024, GRADE 1, the Belfry up, the clock LOCKED. -/
def up : State :=
  { State.reset with
    start := .done
    regs := ready [0] ++ [(0x48, 1#32), (0x50, 0x4000380#32)] ++ ready [1, 2, 0x10] ++ [(0x10040, 0x80000000#32)] ++
      ready (tab 8 (0x11 + ·) ++ [0x20]) ++ [(0x20044, 0x18000000#32)] ++ ready ([0x21, 0x22] ++ tab 16 (0x40 + ·) ++ [0x80, 0x81, 0x90, 0x91,
        0x170, 0x171, 0x180] ++ tab 8 (0x1000 + ·) ++ tab 3 (0x1010 + ·) ++ tab 25 (0x1020 + ·)) }

/-- `up` with one spindle in a state of its own. -/
def spun (p : Spindle) : State := { up with spindles := [(5, p)] }

/-- A run in RUNNING that places spindle 5, ply 1. -/
def live5 (p : Spindle) : State := regs [(pRun + 0x40, 3#32)] { spun p with run := { starts := [(5, 1)] } }

/-- Window registers of a spindle, by page and offset. -/
def win (ws : List (Nat × Nat × Nat)) : Spindle := ws.foldl (fun p w => p.setW w.1 w.2.1 (BitVec.ofNat 32 w.2.2)) {}

/-- An action word with these fields, by lowest bit. -/
def act (fs : List (Nat × Nat)) : BitVec 256 := BitVec.ofNat 256 (fs.foldl (fun w f => w + f.2 <<< f.1) 0)

/-- The register at this BAR0 offset is in service. -/
def serves (s : State) (off : Nat) : Bool :=
  match locate off with
  | some pg => (pageFields pg.kind (off - pg.base)).isSome && !pageOut s pg (off - pg.base) && !absent s pg
  | none => false

theorem serves_spec {s : State} {off : Nat} (h : serves s off = true) : ∃ pg fs, Serves s off pg fs := by
  unfold serves at h
  split at h
  · rename_i pg hp
    simp only [Bool.and_eq_true, Bool.not_eq_true', Option.isSome_iff_exists] at h
    obtain ⟨⟨⟨fs, hf⟩, ho⟩, ha⟩ := h
    exact ⟨pg, fs, hp, hf, ho, ha⟩
  · exact absurd h (by simp)

/-- A word of n bits with these fields, by lowest bit. -/
def bits (n : Nat) (fs : List (Nat × Nat)) : BitVec n := BitVec.ofNat n (fs.foldl (fun w f => w + f.2 <<< f.1) 0)

/-- A command of host port 0, function 0. -/
def cmd (fs : List (Nat × Nat)) : Cmd := ⟨⟨0, false⟩, bits 512 fs, true⟩

/-- A state in which one command has been taken and waits, in run state `st`. -/
def took (st : Nat) (c : Cmd) (r : Run := {}) (s : State := up) : State :=
  regs [(pRun + 0x40, BitVec.ofNat 32 st)] { s with run := { r with taken := [c] } }

/-- A line without a mark. -/
def ln (fs : List (Nat × Nat)) : Line := ⟨bits 256 fs, false⟩

/-- A peal of five lines: CHIME, PORT and ENTRY records at the ends of their ranges. -/
def pealWith (crc : Nat) : List Line :=
  [ln [(16, 1), (96, 5), (80, 3), (69, 896), (58, 1024), (52, 1), (128, crc), (192, 7)], ln [(0, 1), (64, 1)],
   ln [(0, 3), (32, 511), (64, 9)], ln [(0, 6), (32, 31), (37, 1), (40, 0x2000), (88, 4), (120, 511)], ln [(0, 7), (32, 255), (40, 511), (64, 5), (96, 1 <<< 31)]]

/-- The same peal with its CRC (`crc_peal5`). -/
def peal5 : List Line := pealWith 0x9B2B8BC4BB61F733

/-- The CRC's register after a byte stream, evaluated byte by byte. -/
def crcGo : List Byte → Nat → Nat
  | [], c => c
  | b :: l, 0 => crcGo l (crcByte 0 b).toNat
  | b :: l, n + 1 => crcGo l (crcByte (BitVec.ofNat 64 (n + 1)) b).toNat

theorem crcGo_eq : ∀ (l : List Byte) (c : BitVec 64), (l.foldl crcByte c).toNat = crcGo l c.toNat
  | [], c => rfl
  | b :: l, c => by
    rw [List.foldl_cons, crcGo_eq l]
    rcases h : c.toNat with _ | n
    · rw [crcGo, show c = 0#64 from BitVec.eq_of_toNat_eq h]; rfl
    · rw [crcGo, show BitVec.ofNat 64 (n + 1) = c by rw [← h, BitVec.ofNat_toNat, BitVec.setWidth_eq]]

theorem crc_peal5 : pealCrc peal5 = 0x9B2B8BC4BB61F733 := by
  unfold pealCrc crc64; rw [crcGo_eq]; decide +kernel

theorem crc_peal0 : pealCrc (pealWith 0) = 0x9B2B8BC4BB61F733 := by
  unfold pealCrc crc64; rw [crcGo_eq]; decide +kernel

/-- A state whose bobbin 3, the one below host port 0, holds these lines from offset 0x1000 on. -/
def holding (ls : List Line) (s : State) : State :=
  forEach ((List.range ls.length).zip ls) (fun x t => writeLine t (bobAddr 3 (0x1000 + 32 * x.1)) x.2) (regs [(pBob 3 0 + 0xC, 3#32)] s)

/-- The state in which LOAD_PEAL reads the peal. -/
def loadW (u : State) (c : Cmd) : State :=
  (((setRunState u 1).modRun (fun r => { r with
    loadCmd := some c, reading := true, fields := 0, bobbins := 0, starts := [], plies := [], chimes := [], watches := [], chans := [], lostFields := 0#64, lostBobbins := 0#64,
    fenceAt := none })).fset (pRun + 0x40) 15 12 0).fset (pRun + 0x60) 31 31 0

/-- A sufficient condition for `fits` that computes. -/
def fitsB (s : State) : Bool :=
  s.spindles.all (fun e => decide (e.2.ply < 4)) &&
  s.ringers.all (fun e => (e.2.calls ++ e.2.issued ++ e.2.tree.map (·.1) ++ e.2.held.map (·.2)).all (fun c => decide (c.ply < 4))) &&
  s.run.starts.all (fun x => decide (x.1 < 2 ^ 21 ∧ x.2 < 4)) && s.run.chimes.all (fun c => decide (c < 32768)) &&
  s.run.chans.all (fun x => decide (x.1 < 68 ∧ x.2 < reelChans x.1)) && s.chans.all (fun e => e.2.copy.isNone)

theorem get_all {α : Type} {d : Nat → α} {P : α → Prop} (hd : ∀ k, P (d k)) : ∀ {m : SMap α}, (∀ e ∈ m, P e.2) → ∀ k, P (SMap.get d m k)
  | [], _, k => hd k
  | e :: m, h, k => by
    rw [SMap.get_cons]
    split
    · exact h e (by simp)
    · exact get_all hd (fun e he => h e (by simp [he])) k

theorem fits_of {s : State} (h : fitsB s = true) : s.fits := by
  simp only [fitsB, Bool.and_eq_true, List.all_eq_true, decide_eq_true_eq, List.mem_append, List.mem_map] at h
  obtain ⟨⟨⟨⟨⟨h1, h2⟩, h3⟩, h4⟩, h5⟩, h6⟩ := h
  refine ⟨get_all (P := fun x : Spindle => x.ply < 4) (fun _ => by simp) h1, ?_, h3, h4, h5, ?_⟩
  · refine get_all (P := fun r : Ringer => (∀ c ∈ r.calls, c.ply < 4) ∧ (∀ c ∈ r.issued, c.ply < 4) ∧ (∀ c ∈ r.tree, c.1.ply < 4) ∧
      (∀ c ∈ r.held, c.2.ply < 4)) (fun _ => by simp) (fun e he => ?_)
    have := h2 e he
    exact ⟨fun c hc => this c (.inl (.inl (.inl hc))), fun c hc => this c (.inl (.inl (.inr hc))),
      fun c hc => this c.1 (.inl (.inr ⟨c, hc, rfl⟩)), fun c hc => this c.2 (.inr ⟨c, hc, rfl⟩)⟩
  · intro r c k hk
    have := get_all (d := fun _ => ({} : Chan)) (P := fun x : Chan => x.copy = none) (fun _ => rfl) (fun e he => Option.isNone_iff_eq_none.mp (h6 e he)) (r * 32 + c)
    unfold State.chan at hk
    simp_all

/-! ### Commands that are not well formed -/

theorem test_ill_formed_refused :
    WellFormed (.bar0RegisterWrite 0 false 2 [(15, 0#32)] false) = false ∧ WellFormed (.bar0RegisterWrite 0 false 0 [(16, 0#32)] false) = false ∧
    WellFormed (.bar0RegisterWrite 0 false 0x3FFFFFC [(15, 0#32), (15, 0#32)] false) = false ∧
    WellFormed (.bar0LoReadLatch 0 false 0x4000000) = false ∧ WellFormed (.bar0HiReadRelease 0 false 4 [16]) = false ∧
    WellFormed (.unmappedPageRead 0 false 6 [15]) = false ∧ WellFormed (.evtStatusClear 0 false 0x18 false 0#32 0#32) = false ∧
    WellFormed (.evtForce 0 false 0x1018 0#32) = false ∧ WellFormed (.countClear 0 false 8) = false ∧
    WellFormed (.bar2Function0Request 0 0 0 (.read 0) []) = false ∧ WellFormed (.bar2Function1Request 0 0 0 (.read 4097) []) = false ∧
    WellFormed (.bar2Function0Request 0 0 0 (.write [] false) []) = false ∧ WellFormed (.spindleWindowWrite 0 false 0 0 0x40 0#32) = false ∧
    WellFormed (.spindleWindowWrite 0 false 0 1 0x42 0#32) = false ∧ WellFormed (.linkCodewordReceive 0 19760 0 false .clean) = false ∧
    WellFormed (.linkReplay 0 0 9 false .clean [] none) = false ∧ WellFormed (.calWindowExpiry 0 19760 0) = false ∧
    WellFormed (.ageingGrant 0#21 0 [[], [], []] false) = false ∧
    WellFormed (.ageingGrant 0#21 0 [[], [], [(8, true)], []] false) = false := by decide

theorem test_ill_formed_refused_2 :
    WellFormed (.slotLost 0 9) = false ∧ WellFormed (.dieSuspect 0 9) = false ∧ WellFormed (.chStart 0 false 63 16 0#32) = false ∧
    WellFormed (.chDisable 0 false 0 16 0#32) = false ∧ WellFormed (.chDescriptorWrite 0 false 0 0 0x42 0#32) = false ∧
    WellFormed (.triggerFire 0 16) = false ∧ WellFormed (.xferDone 0 16) = false ∧ WellFormed (.runFault 0 none none) = false ∧
    WellFormed (.runFault 11 none none) = false ∧ WellFormed (.hostFlushDone 0 32 true) = false ∧ WellFormed (.hostLinkChange 0 true 4 6) = false ∧
    WellFormed (.hostLinkChange 0 true 16 2) = false ∧ WellFormed (.trainingDone 0 0#42 0#42 [] true false 0 0) = false ∧
    WellFormed (.exportEntryWrite 0 true 2 0#32) = false ∧ WellFormed (.coldReset 5) = false ∧ WellFormed (.engineReset 5) = false ∧
    WellFormed (.fieldReset 5 0) = false ∧ WellFormed (.secdedError (.vreg 0 64 0) false) = false ∧
    WellFormed (.secdedError (.lacc 0 4 0 0) false) = false ∧ WellFormed (.secdedError (.chime 32768 .value) false) = false ∧
    WellFormed (.managementNetworkMessage 0 true []) = false ∧
    WellFormed (.sensorSample { temps := [], rails := [], transit := [], coolant := [], input := none }) = false ∧
    WellFormed (.frameReceive 0 (some (0, true, 0#256, List.replicate 9 0#256)) none) = false := by decide


/-! ### Witnesses -/

/-- VuLogicRowsWriteDst, VuArithmeticRowsRoundOnce, VuComparisonRowsCompare, VuConversionRowsConvert, VuFunctionRowsEvaluate,
      VuAccumulatorRowsAccumulate and VuReductionRowsReduce: a spindle at each end of the SIDs, in its last ply. -/
theorem wit_vu_rows :
    (∀ s ∈ [up], spinOn s 5 = true ∧ (s.spin 5).ply < 4 ∧ 0xA ≤ (vuDecode (act [(2, 15)]).toNat).part) ∧
    (∀ s ∈ [spun { ply := 3 }], spinOn s 5 = true ∧ (s.spin 5).ply < 4) := by decide +kernel

/-- StepRunsFrontCommand. -/
theorem wit_step_runs_front :
    (∀ s ∈ [{ up with pending := [.cmdNop, .query] }], s.pending = Instr.cmdNop :: [.query]) ∧
    (∀ s ∈ [up], s.pending = []) := by decide +kernel

/-- RegisterWriteTakesByAccess: through function 0,
      and through function 1 with UNPRIV_READ and UNPRIV_WRITE set; the last VIA and RELAY entries. -/
theorem wit_register_write :
    (∀ s ∈ [up], serves s (pTb + 0x50) = true ∧
      (locate (pTb + 0x50)).all (fun pg => plainReg pg.kind 0x50 && writable s pg ⟨0, false⟩) = true) ∧
    (∀ s ∈ [regs [(pTb + 0x30, 3#32)] up], serves s (pTb + 0x50) = true ∧
      (locate (pTb + 0x50)).all (fun pg => plainReg pg.kind 0x50 && writable s pg ⟨3, true⟩) = true ∧ pGlobal + 0x74 < pTb + 0x50) ∧
    (∀ s ∈ [regs (ready [pRing / 4096] ++ [(pRing + 0x50, 0x7003F#32), (pRing + 0x80, 0xFFFF#32)]) up], 2 ≤ s.readyState pRing ∧
      s.fget (pRing + 0x50) 18 16 = 7 ∧ s.fget (pRing + 0x50) 5 0 = 63 ∧ s.fget (pRing + 0x80) 15 0 = 65535) := by decide +kernel

/-- UnmappedAndPartialAccesses. -/
theorem wit_unmapped_and_partial :
    (∀ s ∈ [up], locate 0x3000 = none ∧ locate 0x3FFFFFC = none ∧ serves s (pRun + 0x4C) = true) := by decide +kernel

/-- LoReadLatchesHi: without and with a latch held, read whole and in part. -/
theorem wit_lo_read_latches :
    (∀ s ∈ [regs [(pRun + 0xA0, 0xFFFFFFFF#32), (pRun + 0xA4, 9#32)] up], serves s (pRun + 0xA0) = true ∧ isPairLo .run 0xA0 = true ∧
      (pRun + 0xA0) % 8 = 0 ∧ (locate (pRun + 0xA0)).all (fun pg => visible s pg ⟨0, false⟩ && decide (pg.kind = .run)) = true ∧
      latchOf s ⟨0, false⟩ (pRun + 0xA0) = none) ∧
    (∀ s ∈ [{ up with latches := [((pRun + 0xA0) * 8, some 0x01020304#32)] }], latchOf s ⟨0, false⟩ (pRun + 0xA0) = some 0x01020304#32 ∧
      (locate (pRun + 0xA0)).all (fun pg => !pageOut s pg (pRun + 0xA4 - pg.base)) = true ∧ (0 : Nat) < 1 ∧
      (1 : Nat) < 16) := by decide +kernel

/-- EventClearLosesNothing and EventForceSetsStatus: a page in service, and one that is OUT. -/
theorem wit_event_clear_and_force :
    (∀ s ∈ [regs [(pRun + 0x18, 0xC000000F#32)] up], (locate pRun).all (fun pg => !absent s pg) = true ∧ pRun % 0x1000 = 0) ∧
    (∀ s ∈ [State.reset], (locate (pField 63)).all (fun pg => !absent s pg) = true ∧ pField 63 % 0x1000 = 0) ∧
    (∀ s ∈ [regs [(pRun + 0x20, 0x80000000#32), (pRun + 0x10, 1#32), (pField 31 + 0x20, 1#32), (pField 31 + 0x10, 1#32), (pField 63 + 0x20,
      1#32), (pField 63 + 0x10, 1#32)] up], 2 ≤ s.readyState pGlobal ∧ (27 : Nat) ≤ 31 ∧ s.bget (pRun + 0x20) 31 = true ∧
      s.bget (pRun + 0x10) 0 = true ∧ pRun ∈ topPages 2 ∧ 0 < evtCount .fieldCtrl ∧ s.bget (pField 31 + 0x20) 0 = true ∧
      s.bget (pField 31 + 0x10) 0 = true ∧ pField 31 ∈ fieldPages 31 ∧ s.bget (pField 63 + 0x20) 0 = true ∧
      s.bget (pField 63 + 0x10) 0 = true ∧ pField 63 ∈ fieldPages (31 + 32)) := by decide +kernel

/-- CountClearZeroesCounters: a page of registers; a window page of a live spindle, of one that is not, and with the compute domain off. -/
theorem wit_count_clear :
    (∀ s ∈ [regs [(pRun + 0xA0, 5#32), (pRun + 0xA4, 0x80000001#32)] up],
      (locate pRun).all (fun pg => !absent s pg && !isWindow pg) = true) ∧
    (∀ s ∈ [regs [(pWin 0 0 + 0x40, 5#32)] (live5 (win [(6, 0x54C, 7)]))],
      (locate (pWin 0 6)).all (fun pg => !absent s pg && isWindow pg && windowLive s pg.n) = true ∧ pWin 0 6 % 0x1000 = 0) ∧
    (∀ s ∈ [regs [(pWin 0 0 + 0x40, 5#32)] (spun (win [(6, 0x54C, 7), (6, 0x100, 1), (6, 0x48, 3)]))],
      (locate (pWin 0 6)).all (fun pg => !absent s pg && isWindow pg && !windowLive s pg.n && !windowOff s pg.n) = true ∧
      0x54C ∈ windowCounters 6 ∧ 0x100 ∈ windowCounters 6) ∧
    (∀ s ∈ [{ up with power := [(0, { computeOff := true })] }],
      (locate (pWin 0 6)).all (fun pg => !absent s pg && windowOff s pg.n) = true) := by decide +kernel

/-- WindowWriteRefusedWhileLive: a live spindle, and one that is not; page 7 through both functions, at the last lane,
      register and accumulator. -/
theorem wit_window_write :
    (∀ s ∈ [regs [(pWin 0 0 + 0x40, 5#32)] (live5 {})], (pageFields .ply 0x64).isSome = true ∧ 2 ≤ s.readyState (pWin 0 4) ∧
      windowOff s 0 = false ∧ s.live (swSid s 0) = true) ∧
    (∀ s ∈ [up], (pageFields .win6 0x48).isSome = false ∧ (pageFields .win5 0x44).isSome = true ∧ (pageFields .win6 0x108).isSome = true ∧
      2 ≤ s.readyState (pWin 0 6) ∧ windowOff s 0 = false ∧ s.live (swSid s 0) = false ∧ (pageFields .win7 0x40).isSome = true ∧
      (pageFields .win7 0x44).isSome = true ∧ 2 ≤ s.readyState (pWin 0 7)) ∧
    (∀ s ∈ [regs [(pWin 0 7 + 0x40, 63#32), (pWin 0 7 + 0x30, 3#32)] up], 2 ≤ s.readyState (pWin 0 7) ∧ windowOff s 0 = false ∧
      s.bget (pWin 0 7 + 0x30) 0 = true ∧ s.bget (pWin 0 7 + 0x30) 1 = true ∧ s.live (swSid s 0) = false ∧
      (pageFields .win7 (0x80 + 4 * 15)).isSome = true ∧
      (pageFields .win7 (0x400 + 0x100 * 3 + 0x10 * 15 + 4 * 3)).isSome = true) := by decide +kernel

/-- UnprivilegedWriteIsolated: a page that the unprivileged view may not write, and an access that spans no page. -/
theorem wit_unprivileged_write :
    (∀ s ∈ [up], ((locate (pTb + 0x50)).toList ++ (locate (pTb + 0x54)).toList).all (fun pg => !writable s pg ⟨0, true⟩) = true ∧
      locate 0x3000 = none) := by decide +kernel

/-- Bar2Function0ReachesApertureAddress: the first store line of the first spindle, and the first EA above the store row. -/
theorem wit_bar2_function0 :
    (∀ s ∈ [regs [(pHost 0 0 + 0x5C, 0x4000#32)] up], (0x400000000000 : Nat) % 32 = 0 ∧ decodeEA s 0x400000000000 = .store 0 0 ∧
      spOff s 0 = false ∧ s.links = [] ∧ ∀ fm ∈ s.maps, fm.2.fail = false ∧ (readLine s (storeAddr 0 0)).bad = false ∧
      s.fget (pHost 0 0 + 0x58) 31 12 * 4096 + 2 ^ 32 * s.fget (pHost 0 0 + 0x5C) 15 0 = 0x400000000000 ∧
      decodeEA s 0x402000000000 = .unmapped) := by decide +kernel

/-- Bar2Function1ObeysGrants: a write and a read inside a grant window, and requests with the window off, without read, without write,
      and past its end. -/
theorem wit_bar2_function1_1 :
    (∀ s ∈ [regs [(pHost 0 0 + 0x104, 0x4000#32), (pHost 0 0 + 0x108, 16#32), (pHost 0 0 + 0x10C, 7#32)] up], grantOn s 0 0 = true ∧
      s.bget (pHost 0 0 + 0x10C) 1 = true ∧ 0xFFE0 + 32 ≤ grantPages s 0 0 * 4096 ∧ grantBase s 0 0 = 0x400000000000 ∧
      decodeEA s 0x40000000FFE0 = .store 0 0xFFE0 ∧ spOff s 0 = false ∧ s.links = [] ∧ ∀ fm ∈ s.maps, fm.2.fail = false ∧
      (readLine s (storeAddr 0 2047)).bad = false) ∧
    (∀ s ∈ [regs [(pHost 0 0 + 0x104, 0x4000#32), (pHost 0 0 + 0x108, 16#32), (pHost 0 0 + 0x10C, 3#32)] up],
      s.bget (pHost 0 0 + 0x10C) 2 = false) := by decide +kernel

/-- Further clauses of the same statement as wit_bar2_function1_1. -/
theorem wit_bar2_function1_2 :
    (∀ s ∈ [regs [(pHost 0 0 + 0x104, 0x4000#32), (pHost 0 0 + 0x108, 16#32), (pHost 0 0 + 0x10C, 5#32)] up], grantOn s 0 0 = true ∧
      s.bget (pHost 0 0 + 0x10C) 2 = true ∧ 0xFFE0 + 32 ≤ grantPages s 0 0 * 4096 ∧ grantBase s 0 0 = 0x400000000000 ∧
      decodeEA s 0x40000000FFE0 = .store 0 0xFFE0 ∧ spOff s 0 = false ∧ s.links = [] ∧ ∀ fm ∈ s.maps, fm.2.fail = false ∧
      grantOn s 0 3 = false ∧ s.bget (pHost 0 0 + 0x10C) 1 = false ∧ grantPages s 0 0 * 4096 < 0xFFE0 + 33) := by decide +kernel

/-- RingRegisterWrites: CMD_TAIL at the last slot and at the size, CPL_HEAD at the tail and past it,
      sizes in and out of range; RESET with a posted OK entry; base and size registers with the ring off and on. -/
theorem wit_ring_writes_1 :
    (∀ s ∈ [regs [(pHost 0 1 + 0x64, 0x404#32), (pHost 0 1 + 0x60, 3#32)] up], 2 ≤ s.readyState (ringPage ⟨0, false⟩) ∧
      getF 15#32 15 0 < 2 ^ cmdLog s ⟨0, false⟩ ∧ 2 ^ cmdLog s ⟨0, false⟩ ≤ getF 16#32 15 0 ∧
      cplHead s ⟨0, false⟩ < 2 ^ cplLog s ⟨0, false⟩ ∧ cplTail s ⟨0, false⟩ < 2 ^ cplLog s ⟨0, false⟩ ∧
      getF 3#32 15 0 = (cplHead s ⟨0, false⟩ + 3) % 2 ^ cplLog s ⟨0, false⟩ ∧
      3 ≤ (2 ^ cplLog s ⟨0, false⟩ + cplTail s ⟨0, false⟩ - cplHead s ⟨0, false⟩) % 2 ^ cplLog s ⟨0, false⟩ ∧
      (2 ^ cplLog s ⟨0, false⟩ + cplTail s ⟨0, false⟩ - cplHead s ⟨0, false⟩) % 2 ^ cplLog s ⟨0, false⟩ < 4 ∧
      s.bget (ringPage ⟨0, false⟩ + 0x40) 0 = false) ∧
    (∀ s ∈ [up], ¬ (4 ≤ cmdLog s ⟨0, true⟩ ∧ cmdLog s ⟨0, true⟩ ≤ 16 ∧ 4 ≤ cplLog s ⟨0, true⟩ ∧ cplLog s ⟨0, true⟩ ≤ 16) ∧
      s.bget (ringPage ⟨0, true⟩ + 0x40) 0 = false ∧ 2 ≤ s.readyState (ringPage ⟨0, true⟩)) := by decide +kernel

/-- Further clauses of the same statement as wit_ring_writes_1. -/
theorem wit_ring_writes_2 :
    (∀ s ∈ [{ regs [(pHost 0 1 + 0x40, 0#32), (pRun + 0x50, 63#32)] up with run := { posted := [(63#32, ⟨0, false⟩)] } }],
      s.bget (ringPage ⟨0, false⟩ + 0x40) 0 = false ∧ s.run.posted = [(63#32, ⟨0, false⟩)] ∧ (s.ring ⟨0, false⟩).unsent.getLsbD 0 = false ∧
      s.reg (pRun + 0x50) = 63#32 ∧ (pageFields .hpRing 0x64).isSome = true ∧ (pageFields .hpRing 0x44).isSome = true) ∧
    (∀ s ∈ [regs [(pHost 0 1 + 0x40, 1#32)] up], s.bget (ringPage ⟨0, false⟩ + 0x40) 0 = true) := by decide +kernel

/-- CommandTakeReservesSlot. -/
theorem wit_command_take :
    (∀ s ∈ [regs [(pHost 0 1 + 0x64, 0x404#32), (pHost 0 1 + 0x40, 1#32), (pHost 0 1 + 0x4C, 1#32), (pHost 0 0 + 0x40, 0x80000000#32)] up],
      s.bget (ringPage ⟨0, false⟩ + 0x40) 0 = true ∧ s.bget (ringPage ⟨0, false⟩ + 0x68) 31 = false ∧
      cmdHead s ⟨0, false⟩ ≠ cmdTail s ⟨0, false⟩ ∧
      (2 ^ cplLog s ⟨0, false⟩ + cplTail s ⟨0, false⟩ % 2 ^ cplLog s ⟨0, false⟩ - cplHead s ⟨0, false⟩) % 2 ^ cplLog s ⟨0,
      false⟩ + ringPending s ⟨0, false⟩ < 2 ^ cplLog s ⟨0, false⟩ - 1 ∧ s.bget (pHost 0 0 + 0x40) 31 = true ∧
      cmdHead s ⟨0, false⟩ < 2 ^ cmdLog s ⟨0, false⟩ ∧ fld (0xB#512).toNat 7 0 ≤ 0xB ∧ 0xB < fld (0xC#512).toNat 7 0) := by decide +kernel

/-- CompletionEntryPosted: the last slot, where PHASE inverts,
      with the ring's interrupt enabled; and the OK entry of the stroke of lowest ID, without and with a vector-0 message to follow. -/
theorem wit_completion_entry_1 :
    (∀ s ∈ [{ regs [(pHost 0 1 + 0x64, 0x404#32), (pHost 0 1 + 0x40, 3#32), (pHost 0 1 + 0x60, 0x1000F#32), (pHost 0 1 + 0x68, 1#32), (pHost 0 0 + 0x40, 0x80000000#32)] up with hosts := [(0, { ring0 := { due := [⟨0xB, 7#32, 0, 0, 0#32, 9#128⟩] } })] }], (s.ring ⟨0, false⟩).due = [⟨0xB, 7#32, 0, 0, 0#32, 9#128⟩] ∧ s.bget (pHost 0 0 + 0x40) 31 = true ∧ cplLog s ⟨0, false⟩ ≤ 16 ∧ s.bget (ringPage ⟨0, false⟩ + 0x40) 1 = true ∧ msixMasked (s.ring ⟨0, false⟩) 0 = true) := by decide +kernel

/-- Further clauses of the same statement as wit_completion_entry_1. -/
theorem wit_completion_entry_2 :
    (∀ s ∈ [{ regs [(pHost 0 1 + 0x64, 0x404#32), (pHost 0 0 + 0x40, 0x80000000#32), (pHost 0 1 + 0x40, 1#32), (pRun + 0x50, 63#32)] up with hosts := [(0, { ring0 := { due := [⟨7, 7#32, 0, 0, 63#32, 0#128⟩], msix := [(3, 0#32)] } })], run := { posted := [(63#32, ⟨0, false⟩)] } }], (s.ring ⟨0, false⟩).due = ⟨7, 7#32, 0, 0, 63#32, 0#128⟩ :: [] ∧ s.bget (pHost 0 0 + 0x40) 31 = true ∧ cplLog s ⟨0, false⟩ ≤ 16 ∧ s.run.posted = [(63#32, ⟨0, false⟩)] ∧ s.reg (pRun + 0x50) = 63#32 ∧ s.bget (ringPage ⟨0, false⟩ + 0x40) 1 = false ∧ msixMasked (s.ring ⟨0, false⟩) 0 = false) := by decide +kernel

/-- Further clauses of the same statement as wit_completion_entry_1. -/
theorem wit_completion_entry_3 :
    (∀ s ∈ [{ regs [(pHost 0 1 + 0x64, 0x404#32), (pHost 0 0 + 0x40, 0x80000000#32), (pHost 0 1 + 0x40, 3#32), (pRun + 0x50, 63#32)] up with hosts := [(0, { ring0 := { due := [⟨7, 7#32, 0, 0, 63#32, 0#128⟩], msix := [(3, 0#32)] } })], run := { posted := [(63#32, ⟨0, false⟩)] } }], (s.ring ⟨0, false⟩).due = ⟨7, 7#32, 0, 0, 63#32, 0#128⟩ :: [] ∧ s.bget (pHost 0 0 + 0x40) 31 = true ∧ cplLog s ⟨0, false⟩ ≤ 16 ∧ s.run.posted = [(63#32, ⟨0, false⟩)] ∧ s.reg (pRun + 0x50) = 63#32 ∧ s.bget (ringPage ⟨0, false⟩ + 0x40) 1 = true ∧ msixMasked (s.ring ⟨0, false⟩) 0 = false) := by decide +kernel

/-- HostLinkFlushAndReadError: link up and down, the flush of a channel and of a stroke with the link up and down, a failed host read,
      and a read and a flush whose start has stopped. -/
theorem wit_host_link_1 :
    (∀ s ∈ [up], s.bget (pHost 0 0 + 0x40) 31 = false ∧ s.start = .done) ∧
    (∀ s ∈ [regs [(pHost 0 0 + 0x40, 0x80000000#32)] up], s.bget (pHost 0 0 + 0x40) 31 = true ∧ s.start = .done) ∧
    (∀ s ∈ [{ regs [(chanBase 64 0 + 0x18, 0x30000#32), (pHost 0 0 + 0x40, 0x80000000#32)] up with chans := [(2048, { flush := some 0, flushing := true })] }], chState s 64 0 = 3 ∧ (s.chan 64 0).flush.isSome = true ∧ (s.chan 64 0).flushing = true ∧ 0 ∉ (s.host 0).lateFlushes ∧ s.bget (pHost 0 0 + 0x40) 31 = true) ∧
    (∀ s ∈ [{ regs [(chanBase 64 0 + 0x18, 0x30000#32)] up with chans := [(2048, { flush := some 0, flushing := true })] }],
      chState s 64 0 = 3 ∧ (s.chan 64 0).flush.isSome = true ∧ (s.chan 64 0).flushing = true ∧ 0 ∉ (s.host 0).lateFlushes ∧
      s.bget (pHost 0 0 + 0x40) 31 = false) := by decide +kernel

/-- Further clauses of the same statement as wit_host_link_1. -/
theorem wit_host_link_2 :
    (∀ s ∈ [{ regs [(pHost 0 0 + 0x40, 0x80000000#32)] up with run := { strokes := [{ id := 1#32, cmd := ⟨⟨1, false⟩, 0#512, true⟩, stage := .copyingOut, descs := [], targets := [], flush := true }, { id := 2#32, cmd := ⟨⟨0, false⟩, 0#512, true⟩, stage := .copyingOut, descs := [], targets := [], flush := true }] } }], s.run.strokes = [{ id := 1#32, cmd := ⟨⟨1, false⟩, 0#512, true⟩, stage := .copyingOut, descs := [], targets := [], flush := true }] ++ { id := 2#32, cmd := ⟨⟨0, false⟩, 0#512, true⟩, stage := .copyingOut, descs := [], targets := [], flush := true } :: [] ∧ (∀ x ∈ s.run.strokes.take 1, ¬ (x.flush = true ∧ x.cmd.rq.port = 0)) ∧ s.bget (pHost 0 0 + 0x40) 31 = true) := by decide +kernel

/-- Further clauses of the same statement as wit_host_link_1. -/
theorem wit_host_link_3 :
    (∀ s ∈ [{ regs [] up with run := { strokes := [{ id := 1#32, cmd := ⟨⟨1, false⟩, 0#512, true⟩, stage := .copyingOut, descs := [], targets := [], flush := true }, { id := 2#32, cmd := ⟨⟨0, false⟩, 0#512, true⟩, stage := .copyingOut, descs := [], targets := [], flush := true }] } }], s.run.strokes = [{ id := 1#32, cmd := ⟨⟨1, false⟩, 0#512, true⟩, stage := .copyingOut, descs := [], targets := [], flush := true }] ++ { id := 2#32, cmd := ⟨⟨0, false⟩, 0#512, true⟩, stage := .copyingOut, descs := [], targets := [], flush := true } :: [] ∧ (∀ x ∈ s.run.strokes.take 1, ¬ (x.flush = true ∧ x.cmd.rq.port = 0)) ∧ s.bget (pHost 0 0 + 0x40) 31 = false) := by decide +kernel

/-- Further clauses of the same statement as wit_host_link_1. -/
theorem wit_host_link_4 :
    (∀ s ∈ [{ regs [(chanBase 64 0 + 0x18, 0x20000#32)] up with chans := [(2048, { bursts := [⟨0#48, 1, [⟨3, 0x800000000000#48, 1, true, []⟩]⟩] })] }], (s.chan 64 0).bursts = [⟨0#48, 1, [⟨3, 0x800000000000#48, 1, true, []⟩]⟩] ∧ hostEa 0x800000000000 = true ∧ chState s 64 0 = 2 ∧ s.mesh = []) ∧
    (∀ s ∈ [{ regs [(pHost 0 0 + 0x40, 0x80000000#32)] up with hosts := [(0, { lateFlushes := [31], lateReads := [31] })] }],
      (s.host 0).lateFlushes = 31 :: [] ∧ s.bget (pHost 0 0 + 0x40) 31 = true ∧ (s.host 0).lateReads = 31 :: []) := by decide +kernel

/-- HostPortResets: the link of a port that was reset returns. -/
theorem wit_port_resets :
    (∀ s ∈ [{ up with hosts := [(0, { resetPending := true })] }], (s.host 0).resetPending = true ∧ s.bget (pHost 0 0 + 0x40) 31 = false ∧
      s.start = .done) := by decide +kernel

/-- ActionControlFields. -/
theorem wit_action_control :
    (∀ s ∈ [up], spinUp s 5 = true ∧ (s.spin 5).ply < 4 ∧ fld (act [(236, 1), (234, 1)]).toNat 237 236 = 1 ∧
      fld (act [(236, 1), (234, 1)]).toNat 235 234 ≠ (s.spin 5).ply ∧ (act [(233, 1), (231, 3)]).toNat.testBit 233 = true ∧
      (s.spin 5).loadWait = none) := by decide +kernel

/-- MemoryPortMoves: a load by an address generator, from a receive queue and from a combining queue,
      stores of both halves and of some lanes, and a write-back. -/
theorem wit_memory_port_1 :
    (∀ s ∈ [writeLine up (storeAddr 5 1) ⟨7#256, false⟩], spinUp s 5 = true ∧ (act [(95, 1), (91, 2), (85, 7)]).toNat.testBit 95 = true ∧
      fld (act [(95, 1), (91, 2), (85, 7)]).toNat 94 91 ≤ 2 ∧ (readLine s (storeAddr 5 (agVal (s.spin 5) 0 2))).bad = false ∧
      (readLine s (storeAddr 5 (agVal (s.spin 5) 0 2 + 1))).bad = false ∧ (act [(84, 1), (82, 2)]).toNat.testBit 84 = true ∧
      fld (act [(84, 1), (82, 2)]).toNat 83 82 ≠ 3 ∧ fld (act [(84, 1), (74, 3), (66, 15)]).toNat 69 66 ≠ 0 ∧
      fld (act [(84, 1), (74, 3), (66, 15)]).toNat 73 70 = 0) ∧
    (∀ s ∈ [spun ({ vregs := [(4, (1#512 <<< 256) ||| 0xFFFFFFFFFFFFFFFFFFFFFFFFFFFFFFFF#512)] })], spinUp s 5 = true) := by decide +kernel

/-- Further clauses of the same statement as wit_memory_port_1. -/
theorem wit_memory_port_2 :
    (∀ s ∈ [writeLine (spun (win [(1, 0x40, 1), (1, 0x100, 0x80000000), (1, 0x104, 0x100000), (1, 0x10C, 0x20000), (1, 0x114,
      3)])) (storeAddr 5 0) ⟨0x21000000#256, false⟩], fld (act [(95, 1), (91, 8)]).toNat 94 91 = 8 + 0 ∧
      holdsToken (seenBy s 5) 5 0 8 = true ∧ (readLine s (storeAddr 5 1)).bad = false) ∧
    (∀ s ∈ [spun (win [(1, 0x230, 0x80010000), (1, 0x238, 0x8000)])], fld (act [(95, 1), (91, 7)]).toNat 94 91 = 4 + 3 ∧
      holdsToken (seenBy s 5) 5 0 (4 + 3) = true ∧ getB ((s.spin 5).wreg 1 (cqOff 3 + 8)) 14 = false ∧
      Fmt.ofCode (getF ((s.spin 5).wreg 1 (cqOff 3)) 16 12) = .la128) ∧
    (∀ s ∈ [spun { wback := [9] }], (s.spin 5).wback = 9 :: [] ∧ (s.spin 5).load = none ∧
      (bankOf 9 &&& (s.spin 5).busy) = 0#8) := by decide +kernel

/-- SendsAndPops: a send of a register, and pops of a receive, a combining and a hank queue. -/
theorem wit_sends_and_pops_1 :
    (∀ s ∈ [spun (win [(1, 0x320, 0x80000009), (1, 0x324, 0x83000000)])], spinUp s 5 = true ∧
      (act [(127, 1), (123, 2), (122, 1), (114, 4)]).toNat.testBit 127 = true ∧ routeOk (s.spin 5) 0 2 = true ∧ (s.spin 5).ip.length < 4 ∧
      (s.spin 5).ply < 4) ∧
    (∀ s ∈ [writeLine (spun (win [(1, 0x40, 1), (1, 0x100, 0x80000000), (1, 0x104, 0x100000), (1, 0x10C, 0x20000), (1, 0x114,
      3)])) (storeAddr 5 0) ⟨0x21000000#256, false⟩], fld (act [(110, 8)]).toNat 113 110 = 8 + 0 ∧ fld (act [(110, 8)]).toNat 109 106 ≤ 1 ∧
      holdsToken (seenBy s 5) 5 0 8 = true ∧ fld (ringLine s 5 0 0 (rqHead (s.spin 5) 0 0)) 31 29 ≠ 2 ∧ 1 ≤ rqSize (s.spin 5) 0 0) ∧
    (∀ s ∈ [spun (win [(1, 0x230, 0x80010000), (1, 0x238, 0x8000), (1, 0x700, 5)])], fld (act [(110, 7)]).toNat 113 110 = 4 + 3 ∧
      holdsToken (seenBy s 5) 5 0 (4 + 3) = true) := by decide +kernel

/-- Further clauses of the same statement as wit_sends_and_pops_1. -/
theorem wit_sends_and_pops_2 :
    (∀ s ∈ [spun (win [(1, 0x250, 0x82020020), (1, 0x258, 1)])], fld (act [(110, 3)]).toNat 113 110 = 2 + 1 ∧
      holdsToken (seenBy s 5) 5 0 (2 + 1) = true ∧ 1 ≤ getF ((s.spin 5).wreg 1 (hqOff 1)) 24 16) := by decide +kernel

/-- IpInjectsMessages: the header line, a payload line of the store, the last line, a read of a bobbin's last lines and of an unmapped EA,
      and a message that has left, without and with a tap; and a cycle in which the IP has injected its line. -/
theorem wit_ip_injects_1 :
    (∀ s ∈ [spun { ip := [⟨{ dst := .spindle 9, vc := 0, kind := 0, len := 1, dest := 9#21, src := 5#21 }, 3, some 4, [], none, false⟩] }],
      (s.spin 5).ip = [] ++ ⟨{ dst := .spindle 9, vc := 0, kind := 0, len := 1, dest := 9#21, src := 5#21 }, 3, some 4, [], none,
      false⟩ :: [] ∧ (s.spin 5).ipDone = false ∧ spinUp s 5 = true) ∧
    (∀ s ∈ [spun { ip := [⟨{ dst := .spindle 9, vc := 0, kind := 0, len := 1, dest := 9#21, src := 5#21 }, 3, some 4, [], none, false⟩], ipDone := true }], (s.spin 5).ip = [] ++ ⟨{ dst := .spindle 9, vc := 0, kind := 0, len := 1, dest := 9#21, src := 5#21 }, 3, some 4, [], none, false⟩ :: [] ∧ (s.spin 5).ipDone = true) ∧
    (∀ s ∈ [spun { ip := [⟨{ dst := .spindle 9, vc := 0, kind := 0, len := 1, dest := 9#21, src := 5#21 }, 2, some 2047, [], none, false⟩] }], (bankOf 2047 &&& (s.spin 5).busy) = 0#8 ∧ (readLine s (storeAddr 5 2047)).bad = false) := by decide +kernel

/-- Further clauses of the same statement as wit_ip_injects_1. -/
theorem wit_ip_injects_2 :
    (∀ s ∈ [spun { ip := [⟨{ dst := .spindle 9, vc := 0, kind := 0, len := 1, dest := 9#21, src := 5#21 }, 1, none, [⟨7#256, false⟩], none, false⟩] }], s.validSid 9 = true ∧ (9 : Nat) % 2048 ≠ 0x7FF ∧ cutField s { dst := .spindle 9, vc := 0, kind := 0, len := 1, dest := 9#21, src := 5#21 } = none) ∧
    (∀ s ∈ [spun { ip := [⟨{ dst := .spindle 9, vc := 1, req := true, len := 3, dest := 9#21, src := 5#21, ea := 0x8FFFFFF80#48 }, 1, none, [], none, false⟩] }], decodeEA s 0x8FFFFFF80 = .bobbin 0 0x8FFFFFF80 ∧ 0x8FFFFFF80 + 32 * 4 ≤ s.capacity ∧ outFive s (pBob 0 0) = false ∧ cutField s { ({ dst := .spindle 9, vc := 1, req := true, len := 3, dest := 9#21, src := 5#21, ea := 0x8FFFFFF80#48 } : Msg) with dst := .bobbin 0 } = none) := by decide +kernel

/-- Further clauses of the same statement as wit_ip_injects_1. -/
theorem wit_ip_injects_3 :
    (∀ s ∈ [spun { ip := [⟨{ dst := .spindle 9, vc := 1, req := true, len := 3, dest := 9#21, src := 5#21, ea := 0x900000000#48 }, 1, none, [], none, false⟩] }], decodeEA s 0x900000000 = .unmapped ∧ (∀ kl ∈ s.links, kl.2.down = false) ∧ ∀ fm ∈ s.maps, fm.2.fail = false) ∧
    (∀ s ∈ [spun { ip := [⟨{ dst := .spindle 9, vc := 0, kind := 0, len := 1, dest := 9#21, src := 5#21 }, 0, none, [], none, true⟩] }],
      (s.spin 5).ip = [⟨{ dst := .spindle 9, vc := 0, kind := 0, len := 1, dest := 9#21, src := 5#21 }, 0, none, [], none, true⟩]) ∧
    (∀ s ∈ [spun { ip := [⟨{ dst := .spindle 9, vc := 0, kind := 0, len := 1, dest := 9#21, src := 5#21 }, 0, none, [], some 15, true⟩] }],
      (s.spin 5).hqOfTap 15 = []) := by decide +kernel

/-- SequencerCycleFollowsTheRule: an idle spindle, a skip, a wait for a token, a fire with a switch and one without. -/
theorem wit_sequencer_cycle_1 :
    (∀ s ∈ [up], spinUp s 5 = true ∧ (cycleStart s 5 []).live 5 = false) ∧
    (∀ s ∈ [live5 { (win [(2, 0x40, 1), (2, 0x81C, 0x0490C000)]) with ply := 1 }], spinUp s 5 = true ∧ (cycleStart s 5 []).live 5 = true ∧
      ((cycleStart s 5 []).spin 5).loaded 1 = true ∧ ((cycleStart s 5 []).spin 5).ply = 1 ∧
      (((cycleStart s 5 []).spin 5).action 1 (((cycleStart s 5 []).spin 5).curAct 1)).testBit 238 = true ∧
      condOf ((cycleStart s 5 []).spin 5) 1 (((cycleStart s 5 []).spin 5).action 1 (((cycleStart s 5 []).spin 5).curAct 1)) = false) := by decide +kernel

/-- Further clauses of the same statement as wit_sequencer_cycle_1. -/
theorem wit_sequencer_cycle_2 :
    (∀ s ∈ [live5 { (win [(2, 0x40, 1), (2, 0x80C, 0x00020000)]) with ply := 1 }], spinUp s 5 = true ∧ (cycleStart s 5 []).live 5 = true ∧
      ((cycleStart s 5 []).spin 5).loaded 1 = true ∧ ((cycleStart s 5 []).spin 5).ply = 1 ∧
      (waitCodes (seenBy (cycleStart s 5 []) 5) 5 1 0 (((cycleStart s 5 []).spin 5).action 1 (((cycleStart s 5 []).spin 5).curAct 1)) ((cycleStart s 5 []).spin 5).busy) = 2 :: []) := by decide +kernel

/-- Further clauses of the same statement as wit_sequencer_cycle_1. -/
theorem wit_sequencer_cycle_3 :
    (∀ s ∈ [live5 { (win [(2, 0x40, 1), (2, 0x81C, 0x04901800)]) with ply := 1 }], spinUp s 5 = true ∧ (cycleStart s 5 []).live 5 = true ∧
      ((cycleStart s 5 []).spin 5).loaded 1 = true ∧ ((cycleStart s 5 []).spin 5).ply = 1 ∧
      (waitCodes (seenBy (cycleStart s 5 []) 5) 5 1 0 (((cycleStart s 5 []).spin 5).action 1 (((cycleStart s 5 []).spin 5).curAct 1)) ((cycleStart s 5 []).spin 5).busy) = [] ∧ fld (((cycleStart s 5 []).spin 5).action 1 (((cycleStart s 5 []).spin 5).curAct 1)) 237 236 = 1 ∧ fld (((cycleStart s 5 []).spin 5).action 1 (((cycleStart s 5 []).spin 5).curAct 1)) 235 234 ≠ 1) := by decide +kernel

/-- Further clauses of the same statement as wit_sequencer_cycle_1. -/
theorem wit_sequencer_cycle_4 :
    (∀ s ∈ [live5 { (win [(2, 0x40, 1), (2, 0x81C, 0x04900000)]) with ply := 1 }], spinUp s 5 = true ∧ (cycleStart s 5 []).live 5 = true ∧
      ((cycleStart s 5 []).spin 5).loaded 1 = true ∧ ((cycleStart s 5 []).spin 5).ply = 1 ∧
      (waitCodes (seenBy (cycleStart s 5 []) 5) 5 1 0 (((cycleStart s 5 []).spin 5).action 1 (((cycleStart s 5 []).spin 5).curAct 1)) ((cycleStart s 5 []).spin 5).busy) = [] ∧ (¬ (fld (((cycleStart s 5 []).spin 5).action 1 (((cycleStart s 5 []).spin 5).curAct 1)) 237 236 = 1 ∨ fld (((cycleStart s 5 []).spin 5).action 1 (((cycleStart s 5 []).spin 5).curAct 1)) 237 236 = 2))) := by decide +kernel

/-- VuResultIsWritten: a result whose latency has passed, without and with a mismatch, one that its check cannot make,
      two of one operation, and one of an operation still in the VU. -/
theorem wit_vu_result :
    (∀ s ∈ [spun { vu := [{ left := 0, ply := 3, act := 5, op := 8, dst := 4, lai := 0, res := fullRes 7 }, { left := 6, ply := 0, act := 0, op := 0x20, dst := 4, lai := 0, res := {}, word := 0x20 * 2 ^ 58 }] }], spinUp s 5 = true ∧ ((s.spin 5).vu.map (·.left)) = [0, 6] ∧ (s.spin 5).vu.tail.map (checkable · ⟨1, 0, 0, 15⟩) = [true] ∧ (s.spin 5).vu.map (checkable · ⟨0, 9#128, 0#5, 15⟩) = [true, false] ∧ (s.spin 5).vu.map (checkable · ⟨0, 8#128, 0#5, 0⟩) = [true, false] ∧ (s.spin 5).vu.map (checkable · ⟨5, 9#128, 0#5, 15⟩) = [false, false] ∧ (s.spin 5).mp = [] ∧ s.bget (fcPage s 5 + 0x200) 31 = false) := by decide +kernel

/-- PlyLoads: a request that waits, a start for another ply, without and with a message on its way into it, and for the active one,
      the end of a clean load, and the end of a load that met an uncorrectable line in a run. -/
theorem wit_ply_loads_1 :
    (∀ s ∈ [live5 { (win [(2, 0x40, 1)]) with ply := 1, loadWait := some (1, 1961, false) }], spinUp s 5 = true ∧ (s.spin 5).load = none ∧
      (s.spin 5).loadWait = some ((s.spin 5).ply, 1961, false) ∧ (s.spin 5).loaded (s.spin 5).ply = true ∧ s.live 5 = true) ∧
    (∀ s ∈ [live5 { (win [(2, 0x40, 1)]) with ply := 1, loadWait := some (1, 1961, true) }], (s.spin 5).load = none ∧
      (s.spin 5).loadWait = some (1, 1961, true) ∧ s.live 5 = true) ∧
    (∀ s ∈ [spun { loadWait := some (3, 1961, true) }], spinUp s 5 = true ∧ (s.spin 5).load = none ∧
      (s.spin 5).loadWait = some (3, 1961, true) ∧ ¬ ((s.spin 5).ply = 3 ∧ (s.spin 5).loaded 3 = true ∧ s.live 5 = true) ∧
      (∀ a ∈ (s.spin 5).arriving, tagPly a.hdr.tag ≠ 3) ∧ (∀ e ∈ (s.spin 5).fresh, e.2.ofPly 3 = false)) := by decide +kernel

/-- Further clauses of the same statement as wit_ply_loads_1. -/
theorem wit_ply_loads_2 :
    (∀ s ∈ [spun { loadWait := some (3, 1961, true), arriving := [⟨2, 1, { dst := .spindle 5, vc := 0, kind := 0, tag := 0xC080#16, src := 9#21 }⟩] }], (s.spin 5).load = none ∧ (s.spin 5).loadWait = some (3, 1961, true) ∧ (∃ a ∈ (s.spin 5).arriving, tagPly a.hdr.tag = 3)) ∧
    (∀ s ∈ [spun { load := some { ply := 3, base := 1961, next := 87, bad := false, data := List.replicate 87 1#256 } }],
      (s.spin 5).load.map (fun l => (l.ply, l.next, l.bad)) = some (3, 87, false)) ∧
    (∀ s ∈ [live5 { load := some { ply := 3, base := 1961, next := 87, bad := true, data := List.replicate 87 1#256 } }],
      (s.spin 5).load.map (fun l => (l.ply, l.next, l.bad)) = some (3, 87, true) ∧ s.live 5 = true) := by decide +kernel

/-- RingerTakesCalls: RG_GO with 16 calls waiting, refused, and accepted for a field and for the wafer; a watch call, a call from the tree,
      and an issue. -/
theorem wit_ringer_calls_1 :
    (∀ s ∈ [{ up with ringers := [(0, { calls := List.replicate 16 {} })] }], serves s (pRinger 0 + 0x4C) = true ∧
      16 ≤ (s.ringer 0).calls.length) ∧
    (∀ s ∈ [regs [(pRinger 0 + 0x44, 0x07FF0000#32), (pRinger 0 + 0x48, 0x03FF0000#32)] (live5 {})], (s.ringer 0).calls.length < 16 ∧
      callRefused s 0 (callOf (s.reg (pRinger 0 + 0x40)) (s.reg (pRinger 0 + 0x44)) (s.reg (pRinger 0 + 0x48))) = true) ∧
    (∀ s ∈ [{ regs [(pRinger 0 + 0x44, 0x07FF0000#32), (pRinger 0 + 0x48, 0x03FF0000#32)] up with ringers := [(0, { calls := List.replicate 15 {} })] }], (s.ringer 0).calls.length < 16 ∧ callRefused s 0 (callOf (s.reg (pRinger 0 + 0x40)) (s.reg (pRinger 0 + 0x44)) (s.reg (pRinger 0 + 0x48))) = false ∧ (callOf (s.reg (pRinger 0 + 0x40)) (s.reg (pRinger 0 + 0x44)) (s.reg (pRinger 0 + 0x48))).wafer = false) := by decide +kernel

/-- Further clauses of the same statement as wit_ringer_calls_1. -/
theorem wit_ringer_calls_2 :
    (∀ s ∈ [regs [(pRinger 0 + 0x40, 0x06200000#32), (pRinger 0 + 0x44, 0x07FF0000#32), (pRinger 0 + 0x48, 0x03FF0000#32)] up],
      callRefused s 0 (callOf (s.reg (pRinger 0 + 0x40)) (s.reg (pRinger 0 + 0x44)) (s.reg (pRinger 0 + 0x48))) = false ∧
      (callOf (s.reg (pRinger 0 + 0x40)) (s.reg (pRinger 0 + 0x44)) (s.reg (pRinger 0 + 0x48))).wafer = true) ∧
    (∀ s ∈ [{ up with ringers := [(0, { held := [(63, { code := 4 })] })] }], (s.ringer 0).held = (63, { code := 4 }) :: [] ∧
      callRefused s 0 { code := 4 } = false) ∧
    (∀ s ∈ [{ up with ringers := [(0, { tree := [({ code := 4 }, false)], calls := List.replicate 19 {} })] }],
      (s.ringer 0).tree = ({ code := 4 }, false) :: [] ∧ (s.ringer 0).calls.length < 20) ∧
    (∀ s ∈ [{ up with ringers := [(0, { calls := [{ code := 2 }] })] }], (s.ringer 0).calls = { code := 2 } :: [] ∧
      loadDelayed s 0 { code := 2 } = false) := by decide +kernel

/-- CallCodesTakeEffect: an issued call of each code, 7 and 15 for CALL_BAD, on a spindle whose ply 3 is loaded. -/
theorem wit_calls_take_effect_1 :
    (∀ s ∈ [{ spun (win [(4, 0x40, 1), (4, 0x4C, 9), (4, 0x64, 7)]) with ringers := [(0, { issued := [{ code := 0, ply := 3, arg := 0xF005, xlo := 5, xhi := 6 }] })] }], (s.ringer 0).issued = { code := 0, ply := 3, arg := 0xF005, xlo := 5, xhi := 6 } :: [] ∧ loadDelayed s 0 { code := 0, ply := 3, arg := 0xF005, xlo := 5, xhi := 6 } = false) ∧
    (∀ s ∈ [{ spun (win [(4, 0x40, 1), (4, 0x4C, 9), (4, 0x64, 7)]) with ringers := [(0, { issued := [{ code := 1, ply := 3, arg := 0xF005, xlo := 5, xhi := 6 }] })] }], (s.ringer 0).issued = { code := 1, ply := 3, arg := 0xF005, xlo := 5, xhi := 6 } :: [] ∧ loadDelayed s 0 { code := 1, ply := 3, arg := 0xF005, xlo := 5, xhi := 6 } = false ∧ 5 ∈ selected s 0 { code := 1, ply := 3, arg := 0xF005, xlo := 5, xhi := 6 }) := by decide +kernel

/-- Further clauses of the same statement as wit_calls_take_effect_1. -/
theorem wit_calls_take_effect_2 :
    (∀ s ∈ [{ spun (win [(4, 0x40, 1), (4, 0x4C, 9), (4, 0x64, 7)]) with ringers := [(0, { issued := [{ code := 2, ply := 3, arg := 0xF005, xlo := 5, xhi := 6 }] })] }], (s.ringer 0).issued = { code := 2, ply := 3, arg := 0xF005, xlo := 5, xhi := 6 } :: [] ∧ loadDelayed s 0 { code := 2, ply := 3, arg := 0xF005, xlo := 5, xhi := 6 } = false) ∧
    (∀ s ∈ [{ spun (win [(4, 0x40, 1), (4, 0x4C, 9), (4, 0x64, 7)]) with ringers := [(0, { issued := [{ code := 3, ply := 3, arg := 0xF005, xlo := 5, xhi := 6 }] })] }], (s.ringer 0).issued = { code := 3, ply := 3, arg := 0xF005, xlo := 5, xhi := 6 } :: [] ∧ loadDelayed s 0 { code := 3, ply := 3, arg := 0xF005, xlo := 5, xhi := 6 } = false) := by decide +kernel

/-- Further clauses of the same statement as wit_calls_take_effect_1. -/
theorem wit_calls_take_effect_3 :
    (∀ s ∈ [{ spun (win [(4, 0x40, 1), (4, 0x4C, 9), (4, 0x64, 7)]) with ringers := [(0, { issued := [{ code := 4, ply := 3, arg := 0xF005, xlo := 5, xhi := 6 }] })] }], (s.ringer 0).issued = { code := 4, ply := 3, arg := 0xF005, xlo := 5, xhi := 6 } :: [] ∧ loadDelayed s 0 { code := 4, ply := 3, arg := 0xF005, xlo := 5, xhi := 6 } = false) ∧
    (∀ s ∈ [{ spun (win [(4, 0x40, 1), (4, 0x4C, 9), (4, 0x64, 7)]) with ringers := [(0, { issued := [{ code := 5, ply := 3, arg := 0xF005, xlo := 5, xhi := 6 }] })] }], (s.ringer 0).issued = { code := 5, ply := 3, arg := 0xF005, xlo := 5, xhi := 6 } :: [] ∧ loadDelayed s 0 { code := 5, ply := 3, arg := 0xF005, xlo := 5, xhi := 6 } = false) := by decide +kernel

/-- Further clauses of the same statement as wit_calls_take_effect_1. -/
theorem wit_calls_take_effect_4 :
    (∀ s ∈ [{ spun (win [(4, 0x40, 1), (4, 0x4C, 9), (4, 0x64, 7)]) with ringers := [(0, { issued := [{ code := 6, ply := 3, arg := 0xF005, xlo := 5, xhi := 6 }] })] }], (s.ringer 0).issued = { code := 6, ply := 3, arg := 0xF005, xlo := 5, xhi := 6 } :: [] ∧ loadDelayed s 0 { code := 6, ply := 3, arg := 0xF005, xlo := 5, xhi := 6 } = false) ∧
    (∀ s ∈ [{ spun (win [(4, 0x40, 1), (4, 0x4C, 9), (4, 0x64, 7)]) with ringers := [(0, { issued := [{ code := 7, ply := 3, arg := 0xF005, xlo := 5, xhi := 6 }] })] }], (s.ringer 0).issued = { code := 7, ply := 3, arg := 0xF005, xlo := 5, xhi := 6 } :: [] ∧ loadDelayed s 0 { code := 7, ply := 3, arg := 0xF005, xlo := 5, xhi := 6 } = false) := by decide +kernel

/-- Further clauses of the same statement as wit_calls_take_effect_1. -/
theorem wit_calls_take_effect_5 :
    (∀ s ∈ [{ spun (win [(4, 0x40, 1), (4, 0x4C, 9), (4, 0x64, 7)]) with ringers := [(0, { issued := [{ code := 15, ply := 3, arg := 0xF005, xlo := 5, xhi := 6 }] })] }], (s.ringer 0).issued = { code := 15, ply := 3, arg := 0xF005, xlo := 5, xhi := 6 } :: [] ∧ loadDelayed s 0 { code := 15, ply := 3, arg := 0xF005, xlo := 5, xhi := 6 } = false) := by decide +kernel

/-- QueueMessagesAreDelivered: a record that just fits at the ring's end, the contribution that releases a combining queue,
      and a message of another epoch. -/
theorem wit_queue_messages_1 :
    (∀ s ∈ [{ spun (win [(1, 0x40, 1), (1, 0x100, 0x80000000), (1, 0x104, 0x100020), (1, 0x10C, 0xE0000), (1, 0x114, 0)]) with mesh := [{ dst := .spindle 5, vc := 0, kind := 0, src := 9#21, dest := 5#21, len := 0, payload := [⟨7#256, true⟩] }] }], takeAt s 5 0 9#21 (fun m => decide (m.kind ≤ 1) && !m.req && !m.isAck) = some ([], { dst := .spindle 5, vc := 0, kind := 0, src := 9#21, dest := 5#21, len := 0, payload := [⟨7#256, true⟩] }, []) ∧ spOff s 5 = false ∧ (s.spin 5).loaded 0 = true ∧ (s.spin 5).load = none ∧ (s.spin 5).epoch 0 = tagEpoch 0#16 ∧ rqOpen (s.spin 5) 0 0 = true ∧ ringPlace (s.spin 5) 0 0 (0 + 2) = .fits ∧ (s.spin 5).holes = [] ∧ ({ dst := .spindle 5, vc := 0, kind := 0, src := 9#21, dest := 5#21, len := 0, payload := [⟨7#256, true⟩] } : Msg).cut = false ∧ (9#21 : SID).toNat % 2048 ≠ 0x7FF) := by decide +kernel

/-- Further clauses of the same statement as wit_queue_messages_1. -/
theorem wit_queue_messages_2 :
    (∀ s ∈ [{ spun (win [(1, 0x40, 1), (1, 0x230, 0x80020000), (1, 0x234, 0x10002)]) with mesh := [{ dst := .spindle 5, vc := 0, kind := 1, src := 9#21, dest := 5#21, len := 0, tag := 0x180#16, payload := [⟨7#256, false⟩] }] }], takeAt s 5 0 9#21 (fun m => decide (m.kind ≤ 1) && !m.req && !m.isAck) = some ([], { dst := .spindle 5, vc := 0, kind := 1, src := 9#21, dest := 5#21, len := 0, tag := 0x180#16, payload := [⟨7#256, false⟩] }, []) ∧ (s.spin 5).loaded 0 = true ∧ (s.spin 5).epoch 0 = tagEpoch 0x180#16 ∧ tagQueue 0x180#16 = 3 ∧ cqOpen (s.spin 5) 0 3 = true ∧ cqReleased (s.spin 5) 0 3 = false) := by decide +kernel

/-- Further clauses of the same statement as wit_queue_messages_1. -/
theorem wit_queue_messages_3 :
    (∀ s ∈ [{ spun (win [(1, 0x40, 1), (1, 0x100, 0x80000000), (1, 0x104, 0x100020), (1, 0x10C, 0xE0000), (1, 0x114, 0)]) with mesh := [{ dst := .spindle 5, vc := 0, kind := 0, src := 9#21, dest := 5#21, len := 0, tag := 0x400#16, payload := [⟨7#256, false⟩] }] }], takeAt s 5 0 9#21 (fun m => decide (m.kind ≤ 1) && !m.req && !m.isAck) = some ([], { dst := .spindle 5, vc := 0, kind := 0, src := 9#21, dest := 5#21, len := 0, tag := 0x400#16, payload := [⟨7#256, false⟩] }, []) ∧ (s.spin 5).loaded 0 = true ∧ (s.spin 5).epoch 0 ≠ tagEpoch 0x400#16 ∧ s.live 5 = false) := by decide +kernel

/-- StoreAccessesFromOutside: a write and a read that wrap at the store's end, and both with the compute domain off. -/
theorem wit_store_accesses_1 :
    (∀ s ∈ [{ up with mesh := [{ dst := .spindle 5, vc := 0, kind := 2, src := 9#21, dest := 5#21, len := 1, ea := 0x40000005FFE0#48, payload := [⟨7#256, true⟩, ⟨8#256, false⟩] }] }], takeAt s 5 0 9#21 (fun m => m.kind = 2 && !m.req && !m.isAck) = some ([], { dst := .spindle 5, vc := 0, kind := 2, src := 9#21, dest := 5#21, len := 1, ea := 0x40000005FFE0#48, payload := [⟨7#256, true⟩, ⟨8#256, false⟩] }, []) ∧ spOff s 5 = false) := by decide +kernel

/-- Further clauses of the same statement as wit_store_accesses_1. -/
theorem wit_store_accesses_2 :
    (∀ s ∈ [{ up with mesh := [{ dst := .spindle 5, vc := 1, req := true, src := 9#21, dest := 9#21, len := 7, ea := 0x40000005FFE0#48 }] }], takeAt s 5 1 9#21 (fun m => m.req) = some ([], { dst := .spindle 5, vc := 1, req := true, src := 9#21, dest := 9#21, len := 7, ea := 0x40000005FFE0#48 }, []) ∧ spOff s 5 = false ∧ (∀ j ∈ List.range 8, (readLine s (storeAddr 5 (0xFFE0 / 32 + j))).bad = false) ∧ respDest 9#21 = some (.spindle 9) ∧ (∀ kl ∈ s.links, kl.2.down = false) ∧ ∀ fm ∈ s.maps, fm.2.fail = false) := by decide +kernel

/-- Further clauses of the same statement as wit_store_accesses_1. -/
theorem wit_store_accesses_3 :
    (∀ s ∈ [{ up with power := [(0, { computeOff := true })], mesh := [{ dst := .spindle 5, vc := 0, kind := 2, src := 9#21, dest := 5#21, len := 1, ea := 0x40000005FFE0#48, payload := [⟨7#256, true⟩, ⟨8#256, false⟩] }] }], takeAt s 5 0 9#21 (fun m => (m.req || m.kind = 2) && !m.isAck) = some ([], { dst := .spindle 5, vc := 0, kind := 2, src := 9#21, dest := 5#21, len := 1, ea := 0x40000005FFE0#48, payload := [⟨7#256, true⟩, ⟨8#256, false⟩] }, []) ∧ spOff s 5 = true) ∧
    (∀ s ∈ [{ up with power := [(0, { computeOff := true })], mesh := [{ dst := .spindle 5, vc := 1, req := true, src := 9#21, dest := 9#21, len := 7, ea := 0x40000005FFE0#48 }] }], takeAt s 5 1 9#21 (fun m => (m.req || m.kind = 2) && !m.isAck) = some ([], { dst := .spindle 5, vc := 1, req := true, src := 9#21, dest := 9#21, len := 7, ea := 0x40000005FFE0#48 }, []) ∧ spOff s 5 = true) := by decide +kernel

/-- SkewSpillsAndDeadlocks: the cycle after the watch's last, of a queue that spills too,
      the deadlock limit's last cycle in and outside a run, and a record that leaves the spill region empty. -/
theorem wit_skew_and_spill_1 :
    (∀ s ∈ [{ spun { (win [(1, 0x40, 1), (1, 0x100, 0xA0010004), (1, 0x104, 0x90020), (1, 0x108, 0x90040), (1, 0x114, 9), (1, 0x120, 0x80010000)]) with skew := [(0, { cyc := 5 })] } with mesh := [{ dst := .spindle 5, vc := 0, kind := 0, src := 9#21, dest := 5#21, len := 0, payload := [⟨7#256, false⟩], waiting := true }] }], ((s.spin 5).skewOf (skewKey 0 0 false)).raised = false ∧ skewWatch (s.spin 5) 0 0 false < 5 ∧ skewWatch (s.spin 5) 0 0 false ≠ 0) := by decide +kernel

/-- Further clauses of the same statement as wit_skew_and_spill_1. -/
theorem wit_skew_and_spill_2 :
    (∀ s ∈ [{ spun { (win [(1, 0x40, 1), (1, 0x100, 0xA0010004), (1, 0x104, 0x90020), (1, 0x108, 0x90040), (1, 0x114, 9), (1, 0x120, 0x80010000)]) with skew := [(0, { cyc := 9, raised := true, dead := 2 ^ 20 })] } with mesh := [{ dst := .spindle 5, vc := 0, kind := 0, src := 9#21, dest := 5#21, len := 0, payload := [⟨7#256, false⟩], waiting := true }] }], ((s.spin 5).skewOf (skewKey 0 0 false)).deadRaised = false ∧ ((s.spin 5).skewOf (skewKey 0 0 false)).raised = true ∧ ((s.spin 5).skewOf (skewKey 0 0 false)).dead = 2 ^ 20 ∧ 2 ^ s.fget (pRun + 0x4C) 4 0 ≤ 2 ^ 20 ∧ s.live 5 = false) := by decide +kernel

/-- Further clauses of the same statement as wit_skew_and_spill_1. -/
theorem wit_skew_and_spill_3 :
    (∀ s ∈ [{ spun { (win [(1, 0x40, 1), (1, 0x100, 0xA0010004), (1, 0x104, 0x90020), (1, 0x108, 0x90040), (1, 0x114, 9), (1, 0x120, 0x80010000)]) with skew := [(0, { cyc := 5, spilling := true, dead := 3 })] } with mesh := [{ dst := .spindle 5, vc := 0, kind := 0, src := 9#21, dest := 5#21, len := 0, payload := [⟨7#256, false⟩], waiting := true }] }], ((s.spin 5).skewOf (skewKey 0 0 false)).raised = false ∧ ((s.spin 5).skewOf (skewKey 0 0 false)).spilling = true ∧ maySpill (s.spin 5) 0 0 = true ∧ skewWatch (s.spin 5) 0 0 false < 5) := by decide +kernel

/-- Further clauses of the same statement as wit_skew_and_spill_1. -/
theorem wit_skew_and_spill_4 :
    (∀ s ∈ [{ live5 { (win [(1, 0x40, 1), (1, 0x100, 0xA0010004), (1, 0x104, 0x90020), (1, 0x108, 0x90040), (1, 0x114, 9), (1, 0x120, 0x80010000)]) with skew := [(0, { cyc := 9, spilling := true, dead := 2 ^ 20 })] } with mesh := [{ dst := .spindle 5, vc := 0, kind := 0, src := 9#21, dest := 5#21, len := 0, payload := [⟨7#256, false⟩], waiting := true }] }], ((s.spin 5).skewOf (skewKey 0 0 false)).spilling = true ∧ 2 ^ s.fget (pRun + 0x4C) 4 0 ≤ 2 ^ 20 ∧ s.live 5 = true) := by decide +kernel

/-- Further clauses of the same statement as wit_skew_and_spill_1. -/
theorem wit_skew_and_spill_5 :
    (∀ s ∈ [writeLine (writeLine (spun { (win [(1, 0x40, 1), (1, 0x100, 0xA0010004), (1, 0x104, 0x90020), (1, 0x108, 0x90040), (1, 0x114, 0x20000)]) with skew := [(0, { spilling := true })] }) (storeAddr 5 0x40) ⟨0x20000000#256, false⟩) (storeAddr 5 0x41) ⟨7#256, false⟩], maySpill (s.spin 5) 0 0 = true ∧ 2 ≤ spUsed (s.spin 5) 0 0 ∧ spOff s 5 = false ∧ (s.spin 5).loaded 0 = true ∧ fld (readLine s (storeAddr 5 0x40)).data.toNat 26 24 = 0 ∧ fld (readLine s (storeAddr 5 0x40)).data.toNat 31 29 ≠ 2 ∧ spUsed (s.spin 5) 0 0 = 2 ∧ placeIn (rqSize (s.spin 5) 0 0) (rqUsed (s.spin 5) 0 0 + SMap.get (fun _ => 0) (s.spin 5).freed 0) (rqTail (s.spin 5) 0 0) 2 = .fits ∧ rqSize (s.spin 5) 0 0 ≤ 1024 ∧ (s.spin 5).holes = [] ∧ (∀ j ∈ List.range 2, (readLine s (storeAddr 5 (0x40 + j))).bad = false)) := by decide +kernel

/-- LinksReplayCalibrateAndAge: a link of the last position and kind,
      by what its codewords have met; a codeword that makes a calibration due, a link in its slot, alone and beside one that is down,
      the fourth failed replay with a message on the route, and a window with corrected ones; waits of 27 and 28 cycles. -/
theorem wit_links_1 :
    (∀ s ∈ [up], (s.link (LinkId.key ⟨0, 19759, 8⟩)).down = false ∧ (s.link (LinkId.key ⟨0, 19759, 8⟩)).active = false ∧
      (s.link (LinkId.key ⟨0, 19759, 8⟩)).fwd.nak = false) ∧
    (∀ s ∈ [{ up with links := [(LinkId.key ⟨0, 19759, 8⟩, { active := true })] }], (s.link (LinkId.key ⟨0, 19759, 8⟩)).active = true) ∧
    (∀ s ∈ [{ up with links := [(LinkId.key ⟨0, 19759, 8⟩, { fwd := { corr := 15 } })] }], (s.link (LinkId.key ⟨0, 19759,
      8⟩)).active = false ∧ (s.link (LinkId.key ⟨0, 19759, 8⟩)).down = false ∧ (s.link (LinkId.key ⟨0, 19759, 8⟩)).fwd.nak = false ∧
      (s.bget (pField 0 + 0x180) 16 && !(s.link (LinkId.key ⟨0, 19759,
      8⟩)).fwd.asked && decide (s.fget (pField 0 + 0x180) 7 0 ≤ (s.link (LinkId.key ⟨0, 19759, 8⟩)).fwd.corr + 1)) = true ∧
      (s.fmap 0).calWait = []) := by decide +kernel

/-- Further clauses of the same statement as wit_links_1. -/
theorem wit_links_2 :
    (∀ s ∈ [{ up with outputs := [(43, { waits := [0, 28, 27, 0] })] }], vcInput (SMap.get (fun _ => ({} : RouterOut)) s.outputs 43) 1 [(7,
      true), (0, false)] = some (7, true) ∧ 28 ≤ nth 0 (SMap.get (fun _ => ({} : RouterOut)) s.outputs 43).waits 1 ∧
      [3, 2, 0].all (fun u => decide (nth 0 (SMap.get (fun _ => ({} : RouterOut)) s.outputs 43).waits u < 28)) = true) ∧
    (∀ s ∈ [{ up with outputs := [(43, { waits := [0, 27, 27, 0], held := [none, none, some 2, none] })] }],
      vcInput (SMap.get (fun _ => ({} : RouterOut)) s.outputs 43) 2 [(0, true), (2, false)] = some (2, false) ∧
      [3, 2, 0, 1].all (fun u => decide (nth 0 (SMap.get (fun _ => ({} : RouterOut)) s.outputs 43).waits u < 28)) = true ∧
      vcInput (SMap.get (fun _ => ({} : RouterOut)) s.outputs 43) 3 [] = none) := by decide +kernel

/-- Further clauses of the same statement as wit_links_1. -/
theorem wit_links_3 :
    (∀ s ∈ [{ up with links := [(LinkId.key ⟨0, 19759, 8⟩, { bwd := { nak := true, fails := 2 } })] }], (s.link (LinkId.key ⟨0, 19759,
      8⟩)).down = false ∧ (s.link (LinkId.key ⟨0, 19759, 8⟩)).bwd.nak = true ∧ (s.link (LinkId.key ⟨0, 19759, 8⟩)).bwd.fails < 3) ∧
    (∀ s ∈ [{ up with links := [(LinkId.key ⟨0, 19759, 8⟩, { bwd := { nak := true, fails := 3 } })] }], (s.link (LinkId.key ⟨0, 19759,
      8⟩)).bwd.fails = 3 ∧ s.mesh = []) := by decide +kernel

/-- Further clauses of the same statement as wit_links_1. -/
theorem wit_links_4 :
    (∀ s ∈ [{ up with links := [(LinkId.key ⟨0, 6, 0⟩, { bwd := { nak := true, fails := 3 } })], mesh := [{ dst := .spindle 9, vc := 0, kind := 0, len := 0, dest := 9#21, src := 5#21, payload := [⟨7#256, false⟩] }] }], (s.link (LinkId.key ⟨0, 6, 0⟩)).down = false ∧ (s.link (LinkId.key ⟨0, 6, 0⟩)).bwd.nak = true ∧ (s.link (LinkId.key ⟨0, 6, 0⟩)).bwd.fails = 3 ∧ s.running = false ∧ s.mesh = [{ dst := .spindle 9, vc := 0, kind := 0, len := 0, dest := 9#21, src := 5#21, payload := [⟨7#256, false⟩] }] ∧ ({ dst := .spindle 9, vc := 0, kind := 0, len := 0, dest := 9#21, src := 5#21, payload := [⟨7#256, false⟩] } : Msg).waiting = false ∧ crosses s ({ dst := .spindle 9, vc := 0, kind := 0, len := 0, dest := 9#21, src := 5#21, payload := [⟨7#256, false⟩] }) (routeEnds s ({ dst := .spindle 9, vc := 0, kind := 0, len := 0, dest := 9#21, src := 5#21, payload := [⟨7#256, false⟩] })).1 (routeEnds s ({ dst := .spindle 9, vc := 0, kind := 0, len := 0, dest := 9#21, src := 5#21, payload := [⟨7#256, false⟩] })).2 (linkCut s ⟨0, 6, 0⟩) = true ∧ s.fget (pField 0 + 0x2C) 30 0 + 1 + 1 < 2 ^ 31) := by decide +kernel

/-- Further clauses of the same statement as wit_links_1. -/
theorem wit_links_5 :
    (∀ s ∈ [{ up with links := [(LinkId.key ⟨0, 19759, 8⟩, { fwd := { corr := 300 } })] }], 16 ≤ (s.link (LinkId.key ⟨0, 19759,
      8⟩)).fwd.corr) ∧
    (∀ s ∈ [{ up with maps := [(0, { calWait := [LinkId.key ⟨0, 19759, 8⟩], lastSlot := some 4 })] }], (s.fmap 0).calWait = LinkId.key ⟨0,
      19759, 8⟩ :: [] ∧ calRunning s 0 = false ∧ (4 : Nat) + 4096 ≤ 4100 ∧ (s.fmap 0).lastSlot = some 4 ∧
      (s.link (LinkId.key ⟨0, 19759, 8⟩)).fwd.nak = false ∧ (s.link (LinkId.key ⟨0, 19759, 8⟩)).bwd.nak = false ∧
      (s.link (LinkId.key ⟨0, 19759, 8⟩)).down = false) := by decide +kernel

/-- Further clauses of the same statement as wit_links_1. -/
theorem wit_links_6 :
    (∀ s ∈ [regs [(pField 0 + 0x184, 0x10000#32)] ({ up with links := [(LinkId.key ⟨0, 19759, 8⟩, { active := true })] })],
      s.links = [(LinkId.key ⟨0, 19759, 8⟩, s.link (LinkId.key ⟨0, 19759, 8⟩))] ∧
      s.links.find? (fun kl => kl.2.active && decide ((LinkId.ofKey kl.1).field = 0)) = some (LinkId.key ⟨0, 19759, 8⟩,
      s.link (LinkId.key ⟨0, 19759, 8⟩)) ∧ s.running = false ∧ (s.link (LinkId.key ⟨0, 19759, 8⟩)).active = true ∧
      (s.link (LinkId.key ⟨0, 19759, 8⟩)).down = false ∧ s.mesh = []) ∧
    (∀ s ∈ [{ up with links := [(LinkId.key ⟨0, 6, 0⟩, { down := true }), (LinkId.key ⟨0, 19759, 8⟩, { active := true })] }],
      s.links.find? (fun kl => kl.2.active && decide ((LinkId.ofKey kl.1).field = 0)) = some (LinkId.key ⟨0, 19759, 8⟩,
      s.link (LinkId.key ⟨0, 19759, 8⟩)) ∧ (s.link (LinkId.key ⟨0, 19759, 8⟩)).down = false ∧ s.running = false) := by decide +kernel

/-- ChimesCountAndSynchronise: an increment of the last chime; arrivals that leave a round open, complete it at once and after a write,
      count for the next one, belong to neither, follow one kept in the cycle, overrun it,
      and come two in a cycle; a round that is complete; and the chime space's last line. -/
theorem wit_chimes_count_1 :
    (∀ s ∈ [{ up with mesh := [{ dst := .chimes 0, vc := 3, kind := 3, src := 9#21, ea := 0x500000000FE0#48, arg := 0xC0000005#32 }] }],
      takeMsg (fun m => isInc 0 m && m.vc = 3 && m.src = 9#21) [] s.mesh = some ([],
      { dst := .chimes 0, vc := 3, kind := 3, src := 9#21, ea := 0x500000000FE0#48, arg := 0xC0000005#32 }, []) ∧
      ({ dst := .chimes 0, vc := 3, kind := 3, src := 9#21, ea := 0x500000000FE0#48, arg := 0xC0000005#32 } : Msg).payload = [] ∧
      incChime ({ dst := .chimes 0, vc := 3, kind := 3, src := 9#21, ea := 0x500000000FE0#48, arg := 0xC0000005#32 }) = 511 ∧
      chPresent s 0 511 = true ∧ chBarrier s 0 511 = false) := by decide +kernel

/-- Further clauses of the same statement as wit_chimes_count_1. -/
theorem wit_chimes_count_2 :
    (∀ s ∈ [{ regs [(chBase 0 3 + 4, 0x80000004#32), (chBase 0 3 + 8, 1#32)] up with mesh := [{ dst := .chimes 0, vc := 3, kind := 3, src := 9#21, ea := 0x500000000000#48, arg := 0xC0020000#32 }] }], s.mesh = [{ dst := .chimes 0, vc := 3, kind := 3, src := 9#21, ea := 0x500000000000#48, arg := 0xC0020000#32 }] ∧ isInc 0 ({ dst := .chimes 0, vc := 3, kind := 3, src := 9#21, ea := 0x500000000000#48, arg := 0xC0020000#32 }) = true ∧ incChime ({ dst := .chimes 0, vc := 3, kind := 3, src := 9#21, ea := 0x500000000000#48, arg := 0xC0020000#32 }) = 3 ∧ chPresent s 0 3 = true ∧ chBarrier s 0 3 = true ∧ fld ({ dst := .chimes 0, vc := 3, kind := 3, src := 9#21, ea := 0x500000000000#48, arg := 0xC0020000#32 } : Msg).arg.toNat 29 16 ≠ 0 ∧ chValue s 0 3 % 65536 = 0 ∧ chCur s 0 3 + 2 < chExpect s 0 3 ∧ keptArrivals s 3 = none ∧ chNext s 0 3 ≤ chExpect s 0 3) := by decide +kernel

/-- Further clauses of the same statement as wit_chimes_count_1. -/
theorem wit_chimes_count_3 :
    (∀ s ∈ [{ regs [(chBase 0 3 + 4, 0x80000004#32), (chBase 0 3 + 8, 1#32)] up with mesh := [{ dst := .chimes 0, vc := 3, kind := 3, src := 9#21, ea := 0x500000000000#48, arg := 0xC0020000#32 }], arrivals := [(3, [⟨1, 0, 5#21, 63⟩])] }], s.mesh = [{ dst := .chimes 0, vc := 3, kind := 3, src := 9#21, ea := 0x500000000000#48, arg := 0xC0020000#32 }] ∧ isInc 0 ({ dst := .chimes 0, vc := 3, kind := 3, src := 9#21, ea := 0x500000000000#48, arg := 0xC0020000#32 }) = true ∧ incChime ({ dst := .chimes 0, vc := 3, kind := 3, src := 9#21, ea := 0x500000000000#48, arg := 0xC0020000#32 }) = 3 ∧ chPresent s 0 3 = true ∧ chBarrier s 0 3 = true ∧ fld ({ dst := .chimes 0, vc := 3, kind := 3, src := 9#21, ea := 0x500000000000#48, arg := 0xC0020000#32 } : Msg).arg.toNat 29 16 ≠ 0 ∧ keptArrivals s 3 = some [⟨1, 0, 5#21, 63⟩] ∧ incGate s 0 9#21 ≠ 63 ∧ chCur s 0 3 + 1 + 2 = chExpect s 0 3 ∧ chNext s 0 3 ≤ chExpect s 0 3) := by decide +kernel

/-- Further clauses of the same statement as wit_chimes_count_1. -/
theorem wit_chimes_count_4 :
    (∀ s ∈ [{ regs [(chBase 0 3 + 4, 0x80000004#32), (chBase 0 3 + 8, 3#32)] up with mesh := [{ dst := .chimes 0, vc := 3, kind := 3, src := 9#21, ea := 0x500000000000#48, arg := 0xC0020000#32 }] }], s.mesh = [{ dst := .chimes 0, vc := 3, kind := 3, src := 9#21, ea := 0x500000000000#48, arg := 0xC0020000#32 }] ∧ isInc 0 ({ dst := .chimes 0, vc := 3, kind := 3, src := 9#21, ea := 0x500000000000#48, arg := 0xC0020000#32 }) = true ∧ incChime ({ dst := .chimes 0, vc := 3, kind := 3, src := 9#21, ea := 0x500000000000#48, arg := 0xC0020000#32 }) = 3 ∧ chPresent s 0 3 = true ∧ chBarrier s 0 3 = true ∧ fld ({ dst := .chimes 0, vc := 3, kind := 3, src := 9#21, ea := 0x500000000000#48, arg := 0xC0020000#32 } : Msg).arg.toNat 29 16 ≠ 0 ∧ chExpect s 0 3 < chCur s 0 3 + 2 ∧ s.running = false) := by decide +kernel

/-- Further clauses of the same statement as wit_chimes_count_1. -/
theorem wit_chimes_count_5 :
    (∀ s ∈ [{ regs [(chBase 0 3 + 4, 0x80000004#32), (chBase 0 3 + 8, 0#32)] up with mesh := [{ dst := .chimes 0, vc := 3, kind := 3, src := 9#21, ea := 0x500000000000#48, arg := 0xC0020000#32 }, { dst := .chimes 0, vc := 3, kind := 3, src := 50#21, ea := 0x500000000000#48, arg := 0xC0010000#32 }] }], s.mesh = [{ dst := .chimes 0, vc := 3, kind := 3, src := 9#21, ea := 0x500000000000#48, arg := 0xC0020000#32 }, { dst := .chimes 0, vc := 3, kind := 3, src := 50#21, ea := 0x500000000000#48, arg := 0xC0010000#32 }] ∧ keptArrivals s (0 * 512 + 3) = none ∧ (∀ x ∈ [({ dst := .chimes 0, vc := 3, kind := 3, src := 9#21, ea := 0x500000000000#48, arg := 0xC0020000#32 } : Msg), { dst := .chimes 0, vc := 3, kind := 3, src := 50#21, ea := 0x500000000000#48, arg := 0xC0010000#32 }], isInc 0 x = true ∧ x.payload = [] ∧ incChime x = 3 ∧ fld x.arg.toNat 29 16 ≠ 0 ∧ fld x.arg.toNat 15 0 = chValue s 0 3 % 65536) ∧ incGate s 0 9#21 ≠ incGate s 0 50#21 ∧ chPresent s 0 3 = true ∧ chBarrier s 0 3 = true ∧ chNext s 0 3 ≤ chExpect s 0 3 ∧ chCur s 0 3 + 2 + 1 < chExpect s 0 3 ∧ s.running = false) := by decide +kernel

/-- Further clauses of the same statement as wit_chimes_count_1. -/
theorem wit_chimes_count_6 :
    (∀ s ∈ [{ regs [(chBase 0 3 + 4, 0x80000004#32), (chBase 0 3 + 8, 1#32)] up with mesh := [{ dst := .chimes 0, vc := 3, kind := 3, src := 9#21, ea := 0x500000000000#48, arg := 0xC0020000#32 }, { dst := .chimes 0, vc := 3, kind := 3, src := 50#21, ea := 0x500000000000#48, arg := 0xC0010000#32 }] }], s.mesh = [{ dst := .chimes 0, vc := 3, kind := 3, src := 9#21, ea := 0x500000000000#48, arg := 0xC0020000#32 }, { dst := .chimes 0, vc := 3, kind := 3, src := 50#21, ea := 0x500000000000#48, arg := 0xC0010000#32 }] ∧ keptArrivals s (0 * 512 + 3) = none ∧ (∀ x ∈ [({ dst := .chimes 0, vc := 3, kind := 3, src := 9#21, ea := 0x500000000000#48, arg := 0xC0020000#32 } : Msg), { dst := .chimes 0, vc := 3, kind := 3, src := 50#21, ea := 0x500000000000#48, arg := 0xC0010000#32 }], isInc 0 x = true ∧ x.payload = [] ∧ incChime x = 3 ∧ fld x.arg.toNat 29 16 ≠ 0 ∧ fld x.arg.toNat 15 0 = chValue s 0 3 % 65536) ∧ incGate s 0 9#21 ≠ incGate s 0 50#21 ∧ chPresent s 0 3 = true ∧ chBarrier s 0 3 = true ∧ chNext s 0 3 ≤ chExpect s 0 3 ∧ chCur s 0 3 + 2 + 1 = chExpect s 0 3 ∧ s.running = false) := by decide +kernel

/-- Further clauses of the same statement as wit_chimes_count_1. -/
theorem wit_chimes_count_7 :
    (∀ s ∈ [{ regs [(chBase 0 3 + 4, 0x80000004#32), (chBase 0 3 + 8, 2#32)] up with mesh := [{ dst := .chimes 0, vc := 3, kind := 3, src := 9#21, ea := 0x500000000000#48, arg := 0xC0020000#32 }, { dst := .chimes 0, vc := 3, kind := 3, src := 50#21, ea := 0x500000000000#48, arg := 0xC0010000#32 }] }], s.mesh = [{ dst := .chimes 0, vc := 3, kind := 3, src := 9#21, ea := 0x500000000000#48, arg := 0xC0020000#32 }, { dst := .chimes 0, vc := 3, kind := 3, src := 50#21, ea := 0x500000000000#48, arg := 0xC0010000#32 }] ∧ keptArrivals s (0 * 512 + 3) = none ∧ (∀ x ∈ [({ dst := .chimes 0, vc := 3, kind := 3, src := 9#21, ea := 0x500000000000#48, arg := 0xC0020000#32 } : Msg), { dst := .chimes 0, vc := 3, kind := 3, src := 50#21, ea := 0x500000000000#48, arg := 0xC0010000#32 }], isInc 0 x = true ∧ x.payload = [] ∧ incChime x = 3 ∧ fld x.arg.toNat 29 16 ≠ 0 ∧ fld x.arg.toNat 15 0 = chValue s 0 3 % 65536) ∧ incGate s 0 9#21 ≠ incGate s 0 50#21 ∧ chPresent s 0 3 = true ∧ chBarrier s 0 3 = true ∧ chNext s 0 3 ≤ chExpect s 0 3 ∧ chExpect s 0 3 < chCur s 0 3 + 2 + 1 ∧ s.running = false) := by decide +kernel

/-- Further clauses of the same statement as wit_chimes_count_1. -/
theorem wit_chimes_count_8 :
    (∀ s ∈ [{ regs [(chBase 0 3 + 4, 0x80000004#32), (chBase 0 3 + 8, 0x20002#32)] up with mesh := [{ dst := .chimes 0, vc := 3, kind := 3, src := 9#21, ea := 0x500000000000#48, arg := 0xC0020000#32 }] }], s.mesh = [{ dst := .chimes 0, vc := 3, kind := 3, src := 9#21, ea := 0x500000000000#48, arg := 0xC0020000#32 }] ∧ isInc 0 ({ dst := .chimes 0, vc := 3, kind := 3, src := 9#21, ea := 0x500000000000#48, arg := 0xC0020000#32 }) = true ∧ incChime ({ dst := .chimes 0, vc := 3, kind := 3, src := 9#21, ea := 0x500000000000#48, arg := 0xC0020000#32 }) = 3 ∧ chPresent s 0 3 = true ∧ chBarrier s 0 3 = true ∧ fld ({ dst := .chimes 0, vc := 3, kind := 3, src := 9#21, ea := 0x500000000000#48, arg := 0xC0020000#32 } : Msg).arg.toNat 29 16 ≠ 0 ∧ chCur s 0 3 + 2 = chExpect s 0 3 ∧ chNext s 0 3 ≤ chExpect s 0 3) := by decide +kernel

/-- Further clauses of the same statement as wit_chimes_count_1. -/
theorem wit_chimes_count_9 :
    (∀ s ∈ [{ regs [(chBase 0 3 + 4, 0x80000004#32), (chBase 0 3 + 8, 0x20003#32)] up with mesh := [{ dst := .chimes 0, vc := 3, kind := 3, src := 9#21, ea := 0x500000000000#48, arg := 0xC0020001#32 }] }], s.mesh = [{ dst := .chimes 0, vc := 3, kind := 3, src := 9#21, ea := 0x500000000000#48, arg := 0xC0020001#32 }] ∧ isInc 0 ({ dst := .chimes 0, vc := 3, kind := 3, src := 9#21, ea := 0x500000000000#48, arg := 0xC0020001#32 }) = true ∧ incChime ({ dst := .chimes 0, vc := 3, kind := 3, src := 9#21, ea := 0x500000000000#48, arg := 0xC0020001#32 }) = 3 ∧ chPresent s 0 3 = true ∧ chBarrier s 0 3 = true ∧ fld ({ dst := .chimes 0, vc := 3, kind := 3, src := 9#21, ea := 0x500000000000#48, arg := 0xC0020001#32 } : Msg).arg.toNat 29 16 ≠ 0 ∧ chNext s 0 3 + 2 ≤ chExpect s 0 3 ∧ chCur s 0 3 < chExpect s 0 3) := by decide +kernel

/-- Further clauses of the same statement as wit_chimes_count_1. -/
theorem wit_chimes_count_10 :
    (∀ s ∈ [{ regs [(chBase 0 3 + 4, 0x80000004#32)] up with mesh := [{ dst := .chimes 0, vc := 3, kind := 3, src := 9#21, ea := 0x500000000000#48, arg := 0xC0020002#32 }] }], s.mesh = [{ dst := .chimes 0, vc := 3, kind := 3, src := 9#21, ea := 0x500000000000#48, arg := 0xC0020002#32 }] ∧ isInc 0 ({ dst := .chimes 0, vc := 3, kind := 3, src := 9#21, ea := 0x500000000000#48, arg := 0xC0020002#32 }) = true ∧ incChime ({ dst := .chimes 0, vc := 3, kind := 3, src := 9#21, ea := 0x500000000000#48, arg := 0xC0020002#32 }) = 3 ∧ chPresent s 0 3 = true ∧ chBarrier s 0 3 = true ∧ fld ({ dst := .chimes 0, vc := 3, kind := 3, src := 9#21, ea := 0x500000000000#48, arg := 0xC0020002#32 } : Msg).arg.toNat 29 16 ≠ 0 ∧ s.running = false) := by decide +kernel

/-- Further clauses of the same statement as wit_chimes_count_1. -/
theorem wit_chimes_count_11 :
    (∀ s ∈ [regs [(chBase 0 3 + 4, 0x80000004#32), (chBase 0 3 + 8, 0x10004#32)] up], chPresent s 0 3 = true ∧ chBarrier s 0 3 = true ∧
      chExpect s 0 3 ≠ 0 ∧ chCur s 0 3 = chExpect s 0 3) ∧
    (∀ s ∈ [{ up with mesh := [{ dst := .chimes 0, vc := 0, kind := 2, src := 9#21, ea := 0x500000000FE0#48, payload := [⟨5#256, false⟩] }] }], takeMsg (fun m => m.dst = .chimes 0 && m.kind = 2 && !m.req && !m.isAck && m.vc = 0 && m.src = 9#21) [] s.mesh = some ([], { dst := .chimes 0, vc := 0, kind := 2, src := 9#21, ea := 0x500000000FE0#48, payload := [⟨5#256, false⟩] }, []) ∧ lineChime ({ dst := .chimes 0, vc := 0, kind := 2, src := 9#21, ea := 0x500000000FE0#48, payload := [⟨5#256, false⟩] }) + 3 < 512 ∧ (∀ j ∈ List.range 4, chPresent s 0 (508 + j) = true ∧ chBarrier s 0 (508 + j) = false)) := by decide +kernel

/-- Further clauses of the same statement as wit_chimes_count_1. -/
theorem wit_chimes_count_12 :
    (∀ s ∈ [{ regs [(chBase 0 511, 7#32)] up with mesh := [{ dst := .chimes 0, vc := 1, req := true, src := 9#21, dest := 9#21, ea := 0x500000000FE0#48 }] }], takeMsg (fun m => m.dst = .chimes 0 && m.req && m.vc = 1 && m.src = 9#21) [] s.mesh = some ([], { dst := .chimes 0, vc := 1, req := true, src := 9#21, dest := 9#21, ea := 0x500000000FE0#48 }, []) ∧ respDest 9#21 = some (.spindle 9) ∧ lineChime ({ dst := .chimes 0, vc := 1, req := true, src := 9#21, dest := 9#21, ea := 0x500000000FE0#48 }) + 4 * 0 + 3 < 512 ∧ (∀ kl ∈ s.links, kl.2.down = false) ∧ ∀ fm ∈ s.maps, fm.2.fail = false) := by decide +kernel

/-- ChimeRegistersAndWatches: the last chime of field 0, free and claimed by a running run; registers of its watch,
      so and so; a watch that both marks and calls, once and again and again. -/
theorem wit_chime_registers_1 :
    (∀ s ∈ [regs [(chBase 0 511 + 8, 0x30003#32)] up], chPresent s 0 511 = true ∧ serves s (chBase 0 511) = true ∧
      serves s (chBase 0 511 + 4) = true ∧ chimeLocked s 0 511 = false) ∧
    (∀ s ∈ [regs [(chBase 0 511 + 4, 0x40000000#32)] (live5 {})], chimeLocked s 0 511 = true ∧ serves s (chBase 0 511) = true) ∧
    (∀ s ∈ [regs [(chBase 0 511 + 4, 0x40000000#32), (wBase 0 63, 0x1FF#32)] (live5 {})], serves s (wBase 0 63 + 0x18) = true ∧
      serves s (wBase 0 63) = true ∧ chPresent s 0 (s.fget (wBase 0 63) 8 0) = true ∧ chimeLocked s 0 (s.fget (wBase 0 63) 8 0) = true) ∧
    (∀ s ∈ [regs [(wBase 0 63, 0x1FF#32)] up], serves s (wBase 0 63 + 4) = true ∧ chPresent s 0 (s.fget (wBase 0 63) 8 0) = true ∧
      chimeLocked s 0 (s.fget (wBase 0 63) 8 0) = false) := by decide +kernel

/-- Further clauses of the same statement as wit_chime_registers_1. -/
theorem wit_chime_registers_2 :
    (∀ s ∈ [regs [(wBase 0 63, 0xE00001FF#32), (wBase 0 63 + 4, 0x80000001#32), (chBase 0 511, 0x80000001#32)] up],
      s.fget (wBase 0 63) 31 30 ≠ 0 ∧ s.bget (wBase 0 63) 29 = true ∧ (∀ h ∈ (s.ringer 0).held, h.1 ≠ 63) ∧
      chPresent s 0 (s.fget (wBase 0 63) 8 0) = true ∧
      reached (chValue s 0 (s.fget (wBase 0 63) 8 0)) (s.reg (wBase 0 63 + 4)).toNat = true) ∧
    (∀ s ∈ [regs [(wBase 0 63, 0xA00001FF#32), (wBase 0 63 + 4, 0xFFFFFFFF#32), (wBase 0 63 + 8, 2#32)] up],
      s.fget (wBase 0 63) 31 30 ≠ 0 ∧
      reached (chValue s 0 (s.fget (wBase 0 63) 8 0)) (s.reg (wBase 0 63 + 4)).toNat = true) := by decide +kernel

/-- BobbinsReadWriteAndScrub: the last granule of the capacity read, and written by a spindle and by a reel,
      a read with the memory domain off, a write-back, and a scrub at the first position, at a slot's last and at the last of all. -/
theorem wit_bobbins_1 :
    (∀ s ∈ [{ up with mesh := [{ dst := .bobbin 0, vc := 1, req := true, src := 9#21, dest := 9#21, len := 1, ea := 0x8FFFFFFC0#48 }] }],
      takeMsg (fun m => m.dst = .bobbin 0 && m.req && m.src = 9#21) [] s.mesh = some ([],
      { dst := .bobbin 0, vc := 1, req := true, src := 9#21, dest := 9#21, len := 1, ea := 0x8FFFFFFC0#48 }, []) ∧
      respDest 9#21 = some (.spindle 9) ∧ (∀ kl ∈ s.links, kl.2.down = false) ∧ ∀ fm ∈ s.maps, fm.2.fail = false ∧
      outOfTurn s 0 7 ((gatewayFor s 0 9#21).getD 64) (granules 0x8FFFFFFC0 2) false = false ∧ (s.pow 0).memOff = false ∧
      bobbinOn s 0 = true ∧ (∀ g ∈ granules 0x8FFFFFFC0 2, inSlot s 0 (channelOf (g * 64)) = false) ∧
      (∀ i ∈ List.range 2, lineGone s 0 (0x8FFFFFFC0 + 32 * i) = false ∧
      (readLine s (bobAddr 0 (0x8FFFFFFC0 + 32 * i))).bad = false)) := by decide +kernel

/-- Further clauses of the same statement as wit_bobbins_1. -/
theorem wit_bobbins_2 :
    (∀ s ∈ [{ up with mesh := [{ dst := .bobbin 0, vc := 1, req := true, src := 9#21, dest := 9#21, len := 1, ea := 0x8FFFFFFC0#48 }], power := [(0, { memOff := true })] }], (s.pow 0).memOff = true) := by decide +kernel

/-- Further clauses of the same statement as wit_bobbins_1. -/
theorem wit_bobbins_3 :
    (∀ s ∈ [{ up with mesh := [{ dst := .bobbin 0, vc := 0, kind := 2, src := 9#21, len := 1, ea := 0x8FFFFFFC0#48, payload := [⟨5#256, false⟩, ⟨6#256, true⟩] }] }], takeMsg (fun m => m.dst = .bobbin 0 && m.kind = 2 && !m.req && !m.isAck && m.src = 9#21) [] s.mesh = some ([], { dst := .bobbin 0, vc := 0, kind := 2, src := 9#21, len := 1, ea := 0x8FFFFFFC0#48, payload := [⟨5#256, false⟩, ⟨6#256, true⟩] }, []) ∧ outOfTurn s 0 7 ((gatewayFor s 0 9#21).getD 64) (granules 0x8FFFFFFC0 2) true = false ∧ (s.pow 0).memOff = false ∧ bobbinOn s 0 = true ∧ (∀ g ∈ granules 0x8FFFFFFC0 2, inSlot s 0 (channelOf (g * 64)) = false) ∧ (9#21 : SID).toNat % 2048 ≠ 0x7FF ∧ (∀ i ∈ List.range 2, lineGone s 0 (0x8FFFFFFC0 + 32 * i) = false)) := by decide +kernel

/-- Further clauses of the same statement as wit_bobbins_1. -/
theorem wit_bobbins_4 :
    (∀ s ∈ [{ up with mesh := [{ dst := .bobbin 0, vc := 0, kind := 2, src := reelSrc 0, len := 1, ea := 0x8FFFFFFC0#48, payload := [⟨5#256, false⟩, ⟨6#256, true⟩] }] }], takeMsg (fun m => m.dst = .bobbin 0 && m.kind = 2 && !m.req && !m.isAck && m.src = reelSrc 0) [] s.mesh = some ([], { dst := .bobbin 0, vc := 0, kind := 2, src := reelSrc 0, len := 1, ea := 0x8FFFFFFC0#48, payload := [⟨5#256, false⟩, ⟨6#256, true⟩] }, []) ∧ outOfTurn s 0 7 ((gatewayFor s 0 (reelSrc 0)).getD 64) (granules 0x8FFFFFFC0 2) true = false ∧ (reelSrc 0).toNat % 2048 = 0x7FF ∧ codeDest ((reelSrc 0).toNat / 2048) = some (.reel 0) ∧ ({ dst := .bobbin 0, vc := 0, kind := 2, src := 9#21, len := 1, ea := 0x8FFFFFFC0#48, payload := [⟨5#256, false⟩, ⟨6#256, true⟩] } : Msg).cut = false ∧ (∀ kl ∈ s.links, kl.2.down = false) ∧ ∀ fm ∈ s.maps, fm.2.fail = false) := by decide +kernel

/-- Further clauses of the same statement as wit_bobbins_1. -/
theorem wit_bobbins_5 :
    (∀ s ∈ [{ up with bobbins := [(0, { wback := [7] })] }], bobbinOn s 0 = true ∧ inSlot s 0 (channelOf (7 * 32)) = false) ∧
    (∀ s ∈ [regs [(pBob 0 0 + 0x40, 0x10040#32), (pBob 0 0 + 0x58, 0x0#32)] up], s.bget (pBob 0 0 + 0x40) 16 = true ∧ bobbinOn s 0 = true ∧
      (s.pow 0).memOff = false ∧ 0 ∈ slotsOn s 0 ∧ (∀ c ∈ List.range 32, inSlot s 0 c = false) ∧ s.mem = [] ∧ s.marks = [] ∧
      1 / 2 ^ 21 ∈ slotsOn s 0 ∧ chanDown s 0 0 = false) ∧
    (∀ s ∈ [regs [(pBob 0 0 + 0x40, 0x10040#32), (pBob 0 0 + 0x58, 0x1FFFFF#32)] up], s.fget (pBob 0 0 + 0x58) 24 0 = 2 ^ 21 - 1 ∧
      (2 ^ 21 - 1 + 1) / 2 ^ 21 ∈ slotsOn s 0) ∧
    (∀ s ∈ [regs [(pBob 0 0 + 0x40, 0x10040#32), (pBob 0 0 + 0x58, 0x11FFFFF#32)] up], s.fget (pBob 0 0 + 0x58) 24 0 = 9 * 2 ^ 21 - 1 ∧
      (∀ x ∈ slotsOn s 0, x < (9 * 2 ^ 21 - 1 + 1) / 2 ^ 21)) := by decide +kernel

/-- BobbinsRetrainAndChangeOver: the last channel with no, two and three failed slots; a changeover asked for, refused,
      begun and ended; and a slot lost without a spare. -/
theorem wit_bobbin_repair_1 :
    (∀ s ∈ [up], bobbinOn s 0 = true ∧ (∀ k ∈ List.range 32, inSlot s 0 k = false)) ∧
    (∀ s ∈ [regs [(pBob 0 1 + 0x40 + 4 * 31, 0x20002#32)] up], inSlot s 0 31 = true ∧ chanDown s 0 31 = false ∧
      s.fget (pBob 0 1 + 0x40 + 4 * 31) 23 16 < 3) ∧
    (∀ s ∈ [regs [(pBob 0 1 + 0x40 + 4 * 31, 0x30002#32), (pBob 0 0 + 0x44, 0x190000#32)] up], inSlot s 0 31 = true ∧
      s.fget (pBob 0 1 + 0x40 + 4 * 31) 23 16 = 3 ∧ bobbinOn s 0 = true ∧ s.fget (pBob 0 0 + 0x44) 13 8 < 63 ∧
      s.belfry.softMap.length < 4096) ∧
    (∀ s ∈ [regs [(pBob 0 0 + 0x44, 0x190000#32)] up], serves s (pBob 0 0 + 0x48) = true ∧ s.fget (pBob 0 0 + 0x44) 19 16 ≤ 9 ∧
      s.fget (pBob 0 0 + 0x44) 23 20 ≠ 0 ∧ 8 < s.fget (pBob 0 0 + 0x44) 19 16 ∧ (s.bobbin 0).coCopying = false) := by decide +kernel

/-- Further clauses of the same statement as wit_bobbin_repair_1. -/
theorem wit_bobbin_repair_2 :
    (∀ s ∈ [{ regs [(pBob 0 0 + 0x44, 0x190000#32), (pBob 0 0 + 0x48, 0x80000008#32)] up with bobbins := [(0, { coWaiting := true })] }],
      (s.bobbin 0).coWaiting = true ∧ bobbinOn s 0 = true ∧ ¬ (s.running = true ∧ usesBobbin s 0 = true)) ∧
    (∀ s ∈ [{ regs [(pBob 0 0 + 0x44, 0x198008#32), (pBob 0 0 + 0x48, 0x80000008#32)] up with bobbins := [(0, { coCopying := true })] }],
      (s.bobbin 0).coCopying = true ∧ spareDie s 0 (s.fget (pBob 0 0 + 0x44) 3 0) = some 9 ∧ (∀ k ∈ List.range 32, inSlot s 0 k = false) ∧
      1 ≤ s.fget (pBob 0 0 + 0x44) 23 20 ∧ s.belfry.softMap.length + 1 < 4096) ∧
    (∀ s ∈ [regs [(pBob 0 0 + 0x44, 0x90000#32)] up], s.fget (pBob 0 0 + 0x44) 23 20 = 0 ∧ 8 ∈ slotsOn s 0 ∧ bobbinOn s 0 = true ∧
      1 ≤ s.fget (pBob 0 0 + 0x44) 19 16 ∧ s.belfry.softMap.length < 4096) := by decide +kernel

/-- ReelChannelsStartAndStop: the last channel of a field reel, IDLE, QUEUED, RUNNING, claimed by a running run,
      and with its trigger at the threshold. -/
theorem wit_reel_channels_1 :
    (∀ s ∈ [regs [(chanBase 0 15 + 0x10, 5#32)] up], serves s (chanBase 0 15 + 0x14) = true ∧ serves s (chanBase 0 15) = true ∧
      chState s 0 15 = 0 ∧ trigDue s 0 15 = false ∧ s.bget (chanBase 0 15 + 0x18) 19 = false ∧ chQmode s 0 15 = false ∧
      chCount s 0 15 ≠ 0 ∧ inFlight s 0 < reelSlots 0 ∧ ∀ k ∈ List.range (reelChans 0), chState s 0 k ≠ 1 ∧ ¬ (chClaimed s 0 15 = true ∧
      s.running = true)) ∧
    (∀ s ∈ [regs [(chanBase 0 15 + 0x10, 5#32), (chanBase 0 3 + 0x18, 0x10000#32)] up], chState s 0 15 = 0 ∧ trigDue s 0 15 = false ∧
      ¬ (inFlight s 0 < reelSlots 0 ∧ ∀ k ∈ List.range (reelChans 0), chState s 0 k ≠ 1) ∧ s.bget (chanBase 0 15 + 0x18) 19 = false ∧
      chQmode s 0 15 = false ∧ chCount s 0 15 ≠ 0) ∧
    (∀ s ∈ [regs [(chanBase 0 15 + 0x10, 5#32), (chanBase 0 15 + 0x18, 0x20000#32)] up], chState s 0 15 = 2 ∧ ¬ (chClaimed s 0 15 = true ∧
      s.running = true)) := by decide +kernel

/-- Further clauses of the same statement as wit_reel_channels_1. -/
theorem wit_reel_channels_2 :
    (∀ s ∈ [regs [(chanBase 0 15 + 0x10, 5#32), (chanBase 0 15 + 0x18, 0x10000#32)] up], chState s 0 15 = 1 ∧ reelOn s 0 = true ∧
      inFlight s 0 < reelSlots 0 ∧ (∀ k ∈ List.range (reelChans 0), k ≠ 15 → chState s 0 k ≠ 1)) ∧
    (∀ s ∈ [regs [(chanBase 0 15 + 0x14, 0x10000#32)] (live5 {})], chClaimed s 0 15 = true ∧ s.running = true) := by decide +kernel

/-- Further clauses of the same statement as wit_reel_channels_1. -/
theorem wit_reel_channels_3 :
    (∀ s ∈ [regs [(chanBase 0 15 + 0x14, 0x2000#32), (chanBase 0 15 + 0x2C, 511#32), (chanBase 0 15 + 0x30, 7#32), (chBase 0 511, 7#32),
      (chanBase 0 15 + 0x38, 6#32), (chanBase 0 15 + 0x34, 1#32)] up], reelOn s 0 = true ∧ chCtrl s 0 15 13 = true ∧ chState s 0 15 = 0 ∧
      15 < chansPresent s 0 ∧ reached (trigValue s 0 15) (s.reg (chanBase 0 15 + 0x30)).toNat = true ∧ s.runState ≠ 5 ∧
      s.reg (chanBase 0 15 + 0x38) ≠ 0#32 ∧ trigDue s 0 15 = true ∧ s.bget (chanBase 0 15 + 0x18) 19 = false ∧ chQmode s 0 15 = false ∧
      getB 0x301#32 1 = false ∧ ¬ (chClaimed s 0 15 = true ∧ s.running = true) ∧ serves s (chanBase 0 15 + 0x14) = true ∧
      inFlight s 0 < reelSlots 0 ∧ ∀ k ∈ List.range (reelChans 0), chState s 0 k ≠ 1) := by decide +kernel

/-- ReelsMoveLines: the last channel of a field reel reads its last line, takes it, writes it, is acknowledged as stale,
      and completes with and without a completion increment. -/
theorem wit_reels_move_1 :
    (∀ s ∈ [{ regs [(chanBase 0 15 + 0x18, 0x20000#32), (chanBase 0 15 + 0x40, 7#32), (chanBase 0 15 + 0x10, 1#32)] up with chans := [(15, { bursts := [], acks := 0, total := 3, seq := 255 })] }], 15 < reelChans 0 ∧ reelOn s 0 = true ∧ nextPort s 0 = some 15 ∧ (nextRead s 0 15).map (fun x => (x.2.n, x.2.ea)) = some (1, 0#48) ∧ decodeEA s 0 = .bobbin 0 0 ∧ 1 ≤ chCount s 0 15 ∧ outFive s (pBob 0 0) = false) := by decide +kernel

/-- Further clauses of the same statement as wit_reels_move_1. -/
theorem wit_reels_move_2 :
    (∀ s ∈ [{ regs [(chanBase 0 15 + 0x18, 0x20000#32), (chanBase 0 15 + 0x40, 7#32)] up with chans := [(15, { bursts := [⟨0x40#48, 1, [⟨5, 0x20#48, 1, true, []⟩]⟩], acks := 0, total := 3, seq := 255 })], mesh := [{ dst := .reel 0, vc := 2, kind := 2, src := bankSrc 0, ea := 0x20#48, seq := 9, tag := 15#16, payload := [⟨7#256, false⟩] }] }], s.mesh = [{ dst := .reel 0, vc := 2, kind := 2, src := bankSrc 0, ea := 0x20#48, seq := 9, tag := 15#16, payload := [⟨7#256, false⟩] }] ∧ (⟨7#256, false⟩ : Line).bad = false ∧ responseFor s 0 15 { dst := .reel 0, vc := 2, kind := 2, src := bankSrc 0, ea := 0x20#48, seq := 9, tag := 15#16, payload := [⟨7#256, false⟩] } = some ⟨5, 0x20#48, 1, true, []⟩) := by decide +kernel

/-- Further clauses of the same statement as wit_reels_move_1. -/
theorem wit_reels_move_3 :
    (∀ s ∈ [{ regs [(chanBase 0 15 + 0x18, 0x20000#32), (chanBase 0 15 + 0x40, 7#32)] up with chans := [(15, { bursts := [⟨0x40#48, 1, [⟨5, 0x20#48, 1, true, [⟨7#256, true⟩]⟩]⟩], acks := 0, total := 3, seq := 255 })] }], nextPort s 0 = some 15 ∧ bufferFull s 0 15 = true ∧ (s.chan 0 15).bursts = [⟨0x40#48, 1, [⟨5, 0x20#48, 1, true, [⟨7#256, true⟩]⟩]⟩] ∧ chQmode s 0 15 = false ∧ decodeEA s 0x40 = .bobbin 0 0x40 ∧ (s.chan 0 15).flush = none ∧ chCtrl s 0 15 15 = false ∧ chCount s 0 15 = 0) := by decide +kernel

/-- Further clauses of the same statement as wit_reels_move_1. -/
theorem wit_reels_move_4 :
    (∀ s ∈ [{ regs [(chanBase 0 15 + 0x18, 0x30000#32), (chanBase 0 15 + 0x40, 7#32)] up with chans := [(15, { bursts := [], acks := 1, total := 3, seq := 255 })], mesh := [{ dst := .reel 0, vc := 2, isAck := true, src := bankSrc 0, tag := 15#16, arg := 1#32 }] }], takeMsg (fun m => m.dst = .reel 0 && m.isAck && m.src = bankSrc 0) [] s.mesh = some ([], { dst := .reel 0, vc := 2, isAck := true, src := bankSrc 0, tag := 15#16, arg := 1#32 }, []) ∧ (bankSrc 0).toNat % 2048 = 0x7FF ∧ (bankSrc 0).toNat / 2048 / 64 = 1 ∧ (15 : Nat) = chanId s 0 15 ∧ chState s 0 15 = 3) ∧
    (∀ s ∈ [{ regs [(chanBase 0 15 + 0x18, 0x30000#32), (chanBase 0 15 + 0x40, 7#32)] up with chans := [(15, { bursts := [], acks := 0, total := 3, seq := 255 })] }], chState s 0 15 = 3 ∧ (s.chan 0 15).acks = 0 ∧ (s.chan 0 15).flush = none ∧ chCtrl s 0 15 12 = false) := by decide +kernel

/-- Further clauses of the same statement as wit_reels_move_1. -/
theorem wit_reels_move_5 :
    (∀ s ∈ [{ regs [(chanBase 0 15 + 0x18, 0x30000#32), (chanBase 0 15 + 0x40, 7#32), (chanBase 0 15 + 0x14, 0x1000#32)] up with chans := [(15, { bursts := [], acks := 0, total := 3, seq := 255 })] }], chState s 0 15 = 3 ∧ (s.chan 0 15).acks = 0 ∧ (s.chan 0 15).flush = none ∧ chCtrl s 0 15 12 = true ∧ outFive s (pChime (s.fget (chanBase 0 15 + 0x24) 14 0 / 512) 0) = false) := by decide +kernel

/-- RunCommandsAnswer: NOP; QUERY of each kind; SET_POLICY denied, reading and setting; PROBE of a live spindle,
      of no set and of one that passes; DIGEST of one line named from host memory. -/
theorem wit_run_commands_1 :
    (∀ s ∈ [took 0 (cmd [(0, 0)])], s.run.taken = cmd [(0, 0)] :: [] ∧ (cmd [(0, 0)]).op = 0) ∧
    (∀ s ∈ [took 3 (cmd [(0, 11), (64, 0)])], s.run.taken = cmd [(0, 11), (64, 0)] :: [] ∧ (cmd [(0, 11), (64, 0)]).op = 11 ∧
      (cmd [(0, 11), (64, 0)]).arg 71 64 = 0) ∧
    (∀ s ∈ [took 3 (cmd [(0, 11), (64, 1)])], s.run.taken = cmd [(0, 11), (64, 1)] :: [] ∧ (cmd [(0, 11), (64, 1)]).op = 11 ∧
      (cmd [(0, 11), (64, 1)]).arg 71 64 = 1) ∧
    (∀ s ∈ [took 3 (cmd [(0, 11), (64, 2)])], s.run.taken = cmd [(0, 11), (64, 2)] :: [] ∧ (cmd [(0, 11), (64, 2)]).op = 11 ∧
      (cmd [(0, 11), (64, 2)]).arg 71 64 = 2) := by decide +kernel

/-- Further clauses of the same statement as wit_run_commands_1. -/
theorem wit_run_commands_2 :
    (∀ s ∈ [took 0 ({ (cmd [(0, 10)]) with rq := ⟨3, true⟩ })], s.run.taken = { (cmd [(0, 10)]) with rq := ⟨3, true⟩ } :: [] ∧
      ({ (cmd [(0, 10)]) with rq := ⟨3, true⟩ }).op = 10 ∧ ({ (cmd [(0, 10)]) with rq := ⟨3, true⟩ }).rq.fn1 = true) ∧
    (∀ s ∈ [took 0 (cmd [(0, 10)])], s.run.taken = cmd [(0, 10)] :: [] ∧ (cmd [(0, 10)]).op = 10 ∧ (cmd [(0, 10)]).arg 64 64 = 0) ∧
    (∀ s ∈ [took 0 (cmd [(0, 10), (64, 1), (65, 1), (67, 1), (68, 15), (72, 2), (88, 3), (104, 4), (120, 1)])], s.run.taken = cmd [(0, 10),
      (64, 1), (65, 1), (67, 1), (68, 15), (72, 2), (88, 3), (104, 4), (120, 1)] :: [] ∧
      (cmd [(0, 10), (64, 1), (65, 1), (67, 1), (68, 15), (72, 2), (88, 3), (104, 4), (120, 1)]).op = 10 ∧
      (cmd [(0, 10), (64, 1), (65, 1), (67, 1), (68, 15), (72, 2), (88, 3), (104, 4), (120, 1)]).arg 64 64 = 1 ∧
      (cmd [(0, 10), (64, 1), (65, 1), (67, 1), (68, 15), (72, 2), (88, 3), (104, 4), (120, 1)]).arg 66 65 < 2) := by decide +kernel

/-- Further clauses of the same statement as wit_run_commands_1. -/
theorem wit_run_commands_3 :
    (∀ s ∈ [took 3 (cmd [(0, 9), (64, 5), (80, 5), (128, 5)]) { starts := [(5, 1)] }], s.run.taken = cmd [(0, 9), (64, 5), (80, 5), (128,
      5)] :: [] ∧ (cmd [(0, 9), (64, 5), (80, 5), (128, 5)]).op = 9 ∧ (cmd [(0, 9), (64, 5), (80, 5), (128, 5)]).rq.fn1 = false ∧
      (cmd [(0, 9), (64, 5), (80, 5), (128, 5)]).arg 74 64 = 5 ∧ (cmd [(0, 9), (64, 5), (80, 5), (128, 5)]).arg 90 80 = 5 ∧
      (cmd [(0, 9), (64, 5), (80, 5), (128, 5)]).arg 105 96 = 0 ∧ (cmd [(0, 9), (64, 5), (80, 5), (128, 5)]).arg 121 112 = 0 ∧
      (∃ n ∈ rectSids s 5 5 0 0, s.live n = true)) := by decide +kernel

/-- Further clauses of the same statement as wit_run_commands_1. -/
theorem wit_run_commands_4 :
    (∀ s ∈ [took 0 (cmd [(0, 9), (64, 5), (80, 5), (128, 5)])], s.run.taken = cmd [(0, 9), (64, 5), (80, 5), (128, 5)] :: [] ∧
      (∀ n ∈ rectSids s 5 5 0 0, s.live n = false) ∧
      (((probeSets s).filter (fun (x : Nat × List ProbeVec) => (cmd [(0, 9), (64, 5), (80, 5), (128,
      5)]).arg 143 128 = 0xFFFF || x.1 = (cmd [(0, 9), (64, 5), (80, 5), (128, 5)]).arg 143 128)).map (·.1)) = []) := by decide +kernel

/-- Further clauses of the same statement as wit_run_commands_1. -/
theorem wit_run_commands_5 :
    (∀ s ∈ [took 0 (cmd [(0, 9), (64, 5), (80, 5), (128,
      5)]) {} ({ up with belfry := { up.belfry with probes := [⟨5, 1, 320, [List.replicate 10 0#256]⟩] } })], s.run.taken = cmd [(0, 9),
      (64, 5), (80, 5), (128, 5)] :: [] ∧ (∀ n ∈ rectSids s 5 5 0 0, s.live n = false) ∧
      ((probeSets s).filter (fun (x : Nat × List ProbeVec) => (cmd [(0, 9), (64, 5), (80, 5), (128,
      5)]).arg 143 128 = 0xFFFF || x.1 = (cmd [(0, 9), (64, 5), (80, 5), (128, 5)]).arg 143 128)).map (·.1) = [5] ∧
      (∀ x ∈ (probeSets s).filter (fun (x : Nat × List ProbeVec) => (cmd [(0, 9), (64, 5), (80, 5), (128,
      5)]).arg 143 128 = 0xFFFF || x.1 = (cmd [(0, 9), (64, 5), (80, 5), (128, 5)]).arg 143 128), ∀ v ∈ x.2,
      probePass v = true)) := by decide +kernel

/-- Further clauses of the same statement as wit_run_commands_1. -/
theorem wit_run_commands_6 :
    (∀ s ∈ [took 2 (cmd [(0, 8), (64, 0x800000000000), (112, 1)]) {} (regs [(pHost 0 0 + 0x50, 1#32), (pHost 0 0 + 0x54, 1#32),
      (pHost 0 0 + 0x40, 0x80000000#32)] up)], s.run.taken = cmd [(0, 8), (64, 0x800000000000), (112, 1)] :: [] ∧
      (cmd [(0, 8), (64, 0x800000000000), (112, 1)]).op = 8 ∧ (cmd [(0, 8), (64, 0x800000000000), (112, 1)]).arg 117 112 = 1 ∧
      (cmd [(0, 8), (64, 0x800000000000), (112, 1)]).arg 111 64 = 0x800000000000 ∧ hostEa 0x800000000000 = true ∧
      portMapped s 0 0x800000000000 1 = true ∧ hostDown s 0 = false ∧ s.run.digests = [] ∧ bankHeld s 0 (some 0) false 0 1 = false ∧
      s.runState ≠ 1 ∧ s.running = false ∧ (ln [(0, 1), (64, 1)]).bad = false ∧
      digestRuns (ln [(0, 1), (64, 1)]).data.toNat = some [(0, 1)] ∧ decodeEA s 0 ≠ .unmapped) := by decide +kernel

/-- PealsLoadAndUnload: LOAD_PEAL denied, of a peal with an uncorrectable line when read first and when read again,
      of one with a false CRC, and of one whose chime, port and entry stand at the ends of their ranges; its end; and UNLOAD_PEAL. -/
theorem wit_peals_1 :
    (∀ s ∈ [took 0 ({ (cmd [(0, 1), (64, 0x3000001000), (128, 5)]) with rq := ⟨3, true⟩ })],
      s.run.taken = { (cmd [(0, 1), (64, 0x3000001000), (128, 5)]) with rq := ⟨3, true⟩ } :: [] ∧
      ({ (cmd [(0, 1), (64, 0x3000001000), (128, 5)]) with rq := ⟨3, true⟩ }).op = 1 ∧
      ({ (cmd [(0, 1), (64, 0x3000001000), (128, 5)]) with rq := ⟨3, true⟩ }).rq.fn1 = true ∧ s.run.reading = false) := by decide +kernel

/-- Further clauses of the same statement as wit_peals_1. -/
theorem wit_peals_2 :
    (∀ s ∈ [took 0 (cmd [(0, 1), (64, 0x3000001000), (128, 5)]) {} (holding peal5 up)], s.run.taken = cmd [(0, 1), (64, 0x3000001000),
      (128, 5)] :: [] ∧ (cmd [(0, 1), (64, 0x3000001000), (128, 5)]).op = 1 ∧ s.runState = 0 ∧
      (cmd [(0, 1), (64, 0x3000001000), (128, 5)]).arg 111 64 = 0x3000001000 ∧
      (cmd [(0, 1), (64, 0x3000001000), (128, 5)]).arg 159 128 = 5 ∧ hostEa 0x3000001000 = false ∧ portMapped s 0 0x3000001000 5 = true ∧
      bankHeld (loadW s (cmd [(0, 1), (64, 0x3000001000), (128, 5)])) 0 (some 0) false 0x3000001000 5 = false ∧
      (∃ l ∈ (portRead (loadW s (cmd [(0, 1), (64, 0x3000001000), (128, 5)])) ⟨0, false⟩ 0 0x3000001000 5 [] [.bad]).1.1,
      l.bad = true)) := by decide +kernel

/-- Further clauses of the same statement as wit_peals_1. -/
theorem wit_peals_3 :
    ∀ s ∈ [took 0 (cmd [(0, 1), (64, 0x3000001000), (128, 5)]) {} (holding (pealWith 0) up)], (s.run.taken = cmd [(0, 1), (64,
      0x3000001000), (128, 5)] :: [] ∧ (cmd [(0, 1), (64, 0x3000001000), (128, 5)]).op = 1 ∧ s.runState = 0 ∧
      (cmd [(0, 1), (64, 0x3000001000), (128, 5)]).arg 111 64 = 0x3000001000 ∧
      (cmd [(0, 1), (64, 0x3000001000), (128, 5)]).arg 159 128 = 5 ∧ hostEa 0x3000001000 = false ∧ portMapped s 0 0x3000001000 5 = true ∧
      bankHeld (loadW s (cmd [(0, 1), (64, 0x3000001000), (128, 5)])) 0 (some 0) false 0x3000001000 5 = false ∧
      (portRead (loadW s (cmd [(0, 1), (64, 0x3000001000), (128, 5)])) ⟨0, false⟩ 0 0x3000001000 5 [] []).1.1 = pealWith 0 ∧
      (∀ l ∈ pealWith 0, l.bad = false)) ∧
      pealRefusal (portRead (loadW s (cmd [(0, 1), (64, 0x3000001000), (128, 5)])) ⟨0,
      false⟩ 0 0x3000001000 5 [] []).2 (parsePeal ((portRead (loadW s (cmd [(0, 1), (64, 0x3000001000), (128, 5)])) ⟨0,
      false⟩ 0 0x3000001000 5 [] [])).2 0x3000001000 (pealWith 0)).1 (parsePeal ((portRead (loadW s (cmd [(0, 1), (64, 0x3000001000), (128,
      5)])) ⟨0, false⟩ 0 0x3000001000 5 [] [])).2 0x3000001000 (pealWith 0)).2.1 (parsePeal ((portRead (loadW s (cmd [(0, 1), (64,
      0x3000001000), (128, 5)])) ⟨0, false⟩ 0 0x3000001000 5 [] [])).2 0x3000001000 (pealWith 0)).2.2 (pealWith 0) = some (2, 2) := by
  intro s hs
  rw [List.mem_singleton] at hs
  subst hs
  refine ⟨by decide +kernel, ?_⟩
  unfold pealRefusal
  rw [crc_peal0]
  decide +kernel

/-- Further clauses of the same statement as wit_peals_1. -/
theorem wit_peals_4 :
    ∀ s ∈ [took 0 (cmd [(0, 1), (64, 0x3000001000), (128, 5)]) {} (holding peal5 up)], (s.run.taken = cmd [(0, 1), (64, 0x3000001000),
      (128, 5)] :: [] ∧ (cmd [(0, 1), (64, 0x3000001000), (128, 5)]).op = 1 ∧ s.runState = 0 ∧
      (cmd [(0, 1), (64, 0x3000001000), (128, 5)]).arg 111 64 = 0x3000001000 ∧
      (cmd [(0, 1), (64, 0x3000001000), (128, 5)]).arg 159 128 = 5 ∧ hostEa 0x3000001000 = false ∧ portMapped s 0 0x3000001000 5 = true ∧
      bankHeld (loadW s (cmd [(0, 1), (64, 0x3000001000), (128, 5)])) 0 (some 0) false 0x3000001000 5 = false ∧
      (portRead (loadW s (cmd [(0, 1), (64, 0x3000001000), (128, 5)])) ⟨0, false⟩ 0 0x3000001000 5 [] []).1.1 = peal5 ∧
      (∀ l ∈ peal5, l.bad = false) ∧
      (portRead (loadW s (cmd [(0, 1), (64, 0x3000001000), (128, 5)])) ⟨0, false⟩ 0 0x3000001000 5 [] []).1.2 = [] ∧
      (∀ l ∈ (portRead (portRead (loadW s (cmd [(0, 1), (64, 0x3000001000), (128, 5)])) ⟨0, false⟩ 0 0x3000001000 5 [] []).2 ⟨0,
      false⟩ 0 0x3000001000 5 (portRead (loadW s (cmd [(0, 1), (64, 0x3000001000), (128, 5)])) ⟨0,
      false⟩ 0 0x3000001000 5 [] []).1.2 (condsLeft (loadW s (cmd [(0, 1), (64, 0x3000001000), (128, 5)])) 0x3000001000 5 [])).1.1,
      l.bad = false)) ∧
      pealRefusal (portRead (loadW s (cmd [(0, 1), (64, 0x3000001000), (128, 5)])) ⟨0,
      false⟩ 0 0x3000001000 5 [] []).2 (parsePeal ((portRead (loadW s (cmd [(0, 1), (64, 0x3000001000), (128, 5)])) ⟨0,
      false⟩ 0 0x3000001000 5 [] [])).2 0x3000001000 peal5).1 (parsePeal ((portRead (loadW s (cmd [(0, 1), (64, 0x3000001000), (128,
      5)])) ⟨0, false⟩ 0 0x3000001000 5 [] [])).2 0x3000001000 peal5).2.1 (parsePeal ((portRead (loadW s (cmd [(0, 1), (64, 0x3000001000),
      (128, 5)])) ⟨0, false⟩ 0 0x3000001000 5 [] [])).2 0x3000001000 peal5).2.2 peal5 = none := by
  intro s hs
  rw [List.mem_singleton] at hs
  subst hs
  refine ⟨by decide +kernel, ?_⟩
  unfold pealRefusal
  rw [crc_peal5]
  decide +kernel

/-- Further clauses of the same statement as wit_peals_1. -/
theorem wit_peals_5 :
    (∀ s ∈ [took 0 (cmd [(0, 1), (64, 0x3000001000), (128, 5)]) {} (regs [(pBob 3 0 + 0x40, 0x10000#32)] (holding peal5 up))],
      (∀ l ∈ (portRead (loadW s (cmd [(0, 1), (64, 0x3000001000), (128, 5)])) ⟨0, false⟩ 0 0x3000001000 5 [] [.clean, .clean, .clean,
      .clean, .clean, .clean, .clean, .clean, .clean, .clean, .bad]).1.1, l.bad = false) ∧
      (∃ l ∈ (portRead (portRead (loadW s (cmd [(0, 1), (64, 0x3000001000), (128, 5)])) ⟨0, false⟩ 0 0x3000001000 5 [] [.clean, .clean,
      .clean, .clean, .clean, .clean, .clean, .clean, .clean, .clean, .bad]).2 ⟨0, false⟩ 0 0x3000001000 5 (portRead (loadW s (cmd [(0, 1),
      (64, 0x3000001000), (128, 5)])) ⟨0, false⟩ 0 0x3000001000 5 [] [.clean, .clean, .clean, .clean, .clean, .clean, .clean, .clean,
      .clean, .clean, .bad]).1.2 (condsLeft (loadW s (cmd [(0, 1), (64, 0x3000001000), (128, 5)])) 0x3000001000 5 [.clean, .clean, .clean,
      .clean, .clean, .clean, .clean, .clean, .clean, .clean, .bad])).1.1, l.bad = true)) := by decide +kernel

/-- Further clauses of the same statement as wit_peals_1. -/
theorem wit_peals_6 :
    (∀ s ∈ [regs [(pRun + 0x40, 1#32)] { up with run := { loadCmd := some (cmd [(0, 1), (64, 0x3000001000), (128, 5)]), peal := peal5, pealEa := 0x3000001000#48 } }], s.run.loadCmd = some (cmd [(0, 1), (64, 0x3000001000), (128, 5)]) ∧ s.runState = 1 ∧ s.run.reading = false ∧ s.run.jobs = [] ∧ recsOk (parsePeal s 0x3000001000 s.run.peal).2.1 = true ∧ Rec.chime 511 false 0 9 ∈ (parsePeal s 0x3000001000 s.run.peal).2.1) ∧
    (∀ s ∈ [took 2 (cmd [(0, 2)]) { chimes := [511], starts := [(5, 1)], chans := [(0, 15)], ports := [(31, some ⟨1, 0x2000#48, 4, 511⟩)] }], s.run.taken = cmd [(0, 2)] :: [] ∧ (cmd [(0, 2)]).op = 2 ∧ s.runState = 2 ∧ fitsB s = true) := by decide +kernel

/-- RunsStartStopAndFault: START_RUN with a field lost and with all READY; STOP_RUN; START_RUN,
      STOP_RUN and ABORT_RUN in states where they are illegal; the end of draining, before and after a channel stopped; ABORT_RUN,
      a run fault and a fence, with a stroke to end, behind one that owes its OK entry,
      and with RUN_FAULT already held; FAULT_ACK before and after the drain, and with RELOADS; its end with and without another fault. -/
theorem wit_runs_1 :
    (∀ s ∈ [took 2 (cmd [(0, 3), (64, 0xffffffff)]) { starts := [(5, 1)], chimes := [511], chans := [(0, 15)], lostFields := 1#64 } ({ (regs [(pRun + 0x88, 1#32), (pRun + 0x90, 1#32), (chanBase 0 15 + 0x18, 0x20000#32)] up) with spindles := [(5, (win [(2, 0x40, 0x1), (2, 0x4C, 9)]))] })], s.run.taken = cmd [(0, 3), (64, 0xffffffff)] :: [] ∧ (cmd [(0, 3), (64, 0xffffffff)]).op = 3 ∧ s.runState ≤ 5 ∧ fitsB s = true ∧ s.runState = 2 ∧ s.run.lostFields.toNat &&& fieldsUsed s ≠ 0) := by decide +kernel

/-- Further clauses of the same statement as wit_runs_1. -/
theorem wit_runs_2 :
    (∀ s ∈ [took 2 (cmd [(0, 3), (64, 0xffffffff)]) { starts := [(5, 1)], chimes := [511], chans := [(0, 15)] } ({ (regs [(pRun + 0x88, 1#32), (pRun + 0x90, 1#32), (chanBase 0 15 + 0x18, 0x20000#32)] up) with spindles := [(5, (win [(2, 0x40, 0x1), (2, 0x4C, 9)]))] })], s.run.taken = cmd [(0, 3), (64, 0xffffffff)] :: [] ∧ (cmd [(0, 3), (64, 0xffffffff)]).op = 3 ∧ s.runState ≤ 5 ∧ fitsB s = true ∧ s.runState = 2 ∧ (s.run.starts.map (·.1)).Nodup ∧ s.run.lostFields.toNat &&& fieldsUsed s = 0 ∧ s.run.lostBobbins.toNat &&& bobbinsUsed s = 0 ∧ (List.range 64).all (fun f => !(bobbinsUsed s).testBit f || !s.bget (pBob f 0 + 0x44) 15) = true ∧ unitsReady s (fieldsUsed s) (bobbinsUsed s) s.run.chimes s.run.chans = true) := by decide +kernel

/-- Further clauses of the same statement as wit_runs_1. -/
theorem wit_runs_3 :
    (∀ s ∈ [took 3 (cmd [(0, 4)]) { starts := [(5, 1)], chimes := [511], chans := [(0, 15)] } ({ (regs [(pRun + 0x88, 1#32), (pRun + 0x90, 1#32), (chanBase 0 15 + 0x18, 0x20000#32)] up) with spindles := [(5, (win [(2, 0x40, 0x1), (2, 0x4C, 9)]))] })], s.run.taken = cmd [(0, 4)] :: [] ∧ (cmd [(0, 4)]).op = 4 ∧ s.runState ≤ 5 ∧ fitsB s = true ∧ s.runState = 3) ∧
    (∀ s ∈ [took 0 (cmd [(0, 3), (64, 0xffffffff)]) {  } ({ (regs [(pRun + 0x88, 1#32), (pRun + 0x90, 1#32), (chanBase 0 15 + 0x18, 0x20000#32)] up) with spindles := [(5, (win [(2, 0x40, 0x1), (2, 0x4C, 9)]))] })], s.run.taken = cmd [(0, 3), (64, 0xffffffff)] :: [] ∧ (cmd [(0, 3), (64, 0xffffffff)]).op = 3 ∧ s.runState ≤ 5 ∧ fitsB s = true ∧ s.runState ≠ 2) := by decide +kernel

/-- Further clauses of the same statement as wit_runs_1. -/
theorem wit_runs_4 :
    (∀ s ∈ [took 2 (cmd [(0, 4)]) { starts := [(5, 1)], chimes := [511], chans := [(0, 15)] } ({ (regs [(pRun + 0x88, 1#32), (pRun + 0x90, 1#32), (chanBase 0 15 + 0x18, 0x20000#32)] up) with spindles := [(5, (win [(2, 0x40, 0x1), (2, 0x4C, 9)]))] })], s.run.taken = cmd [(0, 4)] :: [] ∧ (cmd [(0, 4)]).op = 4 ∧ s.runState ≤ 5 ∧ fitsB s = true ∧ s.runState ≠ 3) ∧
    (∀ s ∈ [took 5 (cmd [(0, 5), (32, 7)]) { starts := [(5, 1)], chimes := [511], chans := [(0, 15)] } ({ (regs [(pRun + 0x88, 1#32), (pRun + 0x90, 1#32), (chanBase 0 15 + 0x18, 0x20000#32)] up) with spindles := [(5, (win [(2, 0x40, 0x1), (2, 0x4C, 9)]))] })], s.run.taken = cmd [(0, 5), (32, 7)] :: [] ∧ (cmd [(0, 5), (32, 7)]).op = 5 ∧ s.runState ≤ 5 ∧ fitsB s = true ∧ (s.runState = 0 ∨ s.runState = 5)) := by decide +kernel

/-- Further clauses of the same statement as wit_runs_1. -/
theorem wit_runs_5 :
    (∀ s ∈ [regs [(pRun + 0x40, 4#32), (chanBase 0 15 + 0x18,
      0#32)] { up with run := { starts := [(5, 1)], chimes := [511], chans := [(0, 15)], stopCmd := some (cmd [(0, 4)]) } }],
      s.runState = 4 ∧ (∀ k ∈ s.run.strokes, k.open_ = false) ∧ (∀ x ∈ s.run.chans, chState s x.1 x.2 = 0) ∧
      s.run.stopCmd = some (cmd [(0, 4)]) ∧ s.run.fenceAt = none ∧ fitsB s = true) ∧
    (∀ s ∈ [regs [(pRun + 0x40, 4#32), (chanBase 0 15 + 0x18,
      0x40000#32)] { up with run := { starts := [(5, 1)], chimes := [511], chans := [(0, 15)], stopCmd := some (cmd [(0, 4)]) } }],
      s.runState = 4 ∧ (∀ k ∈ s.run.strokes, k.open_ = false) ∧ (∃ x ∈ s.run.chans, chState s x.1 x.2 ≠ 0) ∧
      s.run.stopCmd = some (cmd [(0, 4)]) ∧ s.run.fenceAt = none ∧ fitsB s = true) := by decide +kernel

/-- Further clauses of the same statement as wit_runs_1. -/
theorem wit_runs_6 :
    (∀ s ∈ [took 4 (cmd [(0, 5), (32, 7)]) { starts := [(5, 1)], chimes := [511], chans := [(0, 15)], strokes := [{ id := 63#32, cmd := cmd [(0, 7), (32, 9), (64, 0x3f)], stage := .admitted, descs := [], targets := [] }] } ({ (regs [(pRun + 0x88, 1#32), (pRun + 0x90, 1#32), (chanBase 0 15 + 0x18, 0x20000#32)] up) with spindles := [(5, (win [(2, 0x40, 0x1), (2, 0x4C, 9)]))] })], s.run.taken = cmd [(0, 5), (32, 7)] :: [] ∧ (cmd [(0, 5), (32, 7)]).op = 5 ∧ s.runState ≤ 5 ∧ fitsB s = true ∧ 1 ≤ s.runState ∧ s.runState ≤ 4 ∧ (cmd [(0, 5), (32, 7)]).live = true ∧ (∃ k ∈ s.run.strokes, k.faultable = true ∧ (k.id - s.reg (pRun + 0x50)).toNat < 64 ∧ k.cmd.live = true) ∧ s.bget (pRun + 0x60) 31 = false ∧ fitsB s = true ∧ (∃ x ∈ s.run.chans, chState s x.1 x.2 ∈ [1, 2, 3])) := by decide +kernel

/-- Further clauses of the same statement as wit_runs_1. -/
theorem wit_runs_7 :
    (∀ s ∈ [regs [(pRun + 0x40, 3#32)] { ({ (regs [(pRun + 0x88, 1#32), (pRun + 0x90, 1#32), (chanBase 0 15 + 0x18, 0x20000#32)] up) with spindles := [(5, (win [(2, 0x40, 0x1), (2, 0x4C, 9)]))] }) with run := { starts := [(5, 1)], chimes := [511], chans := [(0, 15)], strokes := [{ id := 63#32, cmd := cmd [(0, 7), (32, 9), (64, 0x3f)], stage := .admitted, descs := [], targets := [] }], fenceAt := some 5 } }], 1 ≤ s.runState ∧ s.runState ≤ 4 ∧ s.run.strokes.any Stroke.entryDue = false ∧ (∃ k ∈ s.run.strokes, k.faultable = true ∧ (k.id - s.reg (pRun + 0x50)).toNat < 64 ∧ k.cmd.live = true) ∧ s.bget (pRun + 0x60) 31 = false ∧ fitsB s = true ∧ (∃ x ∈ s.run.chans, chState s x.1 x.2 ∈ [1, 2, 3])) := by decide +kernel

/-- Further clauses of the same statement as wit_runs_1. -/
theorem wit_runs_8 :
    (∀ s ∈ [regs [(pRun + 0x40, 3#32)] { ({ (regs [(pRun + 0x88, 1#32), (pRun + 0x90, 1#32), (chanBase 0 15 + 0x18, 0x20000#32)] up) with spindles := [(5, (win [(2, 0x40, 0x1), (2, 0x4C, 9)]))] }) with run := { starts := [(5, 1)], chimes := [511], chans := [(0, 15)], strokes := [{ id := 62#32, cmd := cmd [(0, 7), (32, 8), (64, 0x3e)], stage := .recorded, descs := [], targets := [] }, { id := 63#32, cmd := cmd [(0, 7), (32, 9), (64, 0x3f)], stage := .admitted, descs := [], targets := [] }] } }], 1 ≤ s.runState ∧ s.runState ≤ 4 ∧ s.run.strokes.any Stroke.entryDue = true ∧ (∃ k ∈ s.run.strokes, k.faultable = true ∧ (k.id - s.reg (pRun + 0x50)).toNat < 64 ∧ k.cmd.live = true) ∧ s.bget (pRun + 0x60) 31 = false ∧ fitsB s = true ∧ (∃ x ∈ s.run.chans, chState s x.1 x.2 ∈ [1, 2, 3])) := by decide +kernel

/-- Further clauses of the same statement as wit_runs_1. -/
theorem wit_runs_9 :
    (∀ s ∈ [regs [(pRun + 0x40, 3#32), (pRun + 0x60,
      0x80000100#32)] { ({ (regs [(pRun + 0x88, 1#32), (pRun + 0x90, 1#32), (chanBase 0 15 + 0x18, 0x20000#32)] up) with spindles := [(5, (win [(2, 0x40, 0x1), (2, 0x4C, 9)]))] }) with run := { starts := [(5, 1)], chimes := [511], chans := [(0, 15)], fenceAt := some 5 } }], 1 ≤ s.runState ∧ s.runState ≤ 4 ∧ s.bget (pRun + 0x60) 31 = true ∧ s.run.fenceAt = some 5 ∧ strokeAdmitted s = false ∧ s.running = true ∧ fitsB s = true) := by decide +kernel

/-- Further clauses of the same statement as wit_runs_1. -/
theorem wit_runs_10 :
    (∀ s ∈ [took 5 (cmd [(0, 6)]) { starts := [(5, 1)], chimes := [511], chans := [(0, 15)] } ({ ({ (regs [(pRun + 0x88, 1#32), (pRun + 0x90, 1#32), (chanBase 0 15 + 0x18, 0x20000#32)] up) with spindles := [(5, (win [(2, 0x40, 0x1), (2, 0x4C, 9)]))] }) with mesh := [{ dst := .chimes 0, vc := 3, src := 5#21, kind := 3 }] })], s.run.taken = cmd [(0, 6)] :: [] ∧ (cmd [(0, 6)]).op = 6 ∧ s.runState ≤ 5 ∧ fitsB s = true ∧ s.runState = 5 ∧ s.run.ackApplied = false ∧ drained s = false) := by decide +kernel

/-- Further clauses of the same statement as wit_runs_1. -/
theorem wit_runs_11 :
    (∀ s ∈ [took 5 (cmd [(0, 6)]) { starts := [(5, 1)], chimes := [511], chans := [(0, 15)], strokes := [{ id := 63#32, cmd := cmd [(0, 7), (32, 9), (64, 0x3f)], stage := .admitted, descs := [], targets := [] }] } ({ (regs [(pRun + 0x88, 1#32), (pRun + 0x90, 1#32), (chanBase 0 15 + 0x18, 0x20000#32)] up) with spindles := [(5, (win [(2, 0x40, 0x1), (2, 0x4C, 9)]))] })], s.run.taken = cmd [(0, 6)] :: [] ∧ (cmd [(0, 6)]).op = 6 ∧ s.runState ≤ 5 ∧ fitsB s = true ∧ s.runState = 5 ∧ s.run.ackApplied = false ∧ (s.run.starts.map (·.1)).Nodup ∧ drained s = true ∧ s.bget (pRun + 0x40) 13 = false ∧ (s.spin 5).loaded 1 = true) := by decide +kernel

/-- Further clauses of the same statement as wit_runs_1. -/
theorem wit_runs_12 :
    (∀ s ∈ [took 8197 (cmd [(0, 6)]) { starts := [(5, 1)], chimes := [511], chans := [(0, 15)], plies := [(5, 1, 0)] } ({ (regs [(pRun + 0x88, 1#32), (pRun + 0x90, 1#32), (chanBase 0 15 + 0x18, 0x20000#32)] up) with spindles := [(5, (win [(2, 0x40, 0x1), (2, 0x4C, 9)]))] })], s.run.taken = cmd [(0, 6)] :: [] ∧ (cmd [(0, 6)]).op = 6 ∧ s.runState = 5 ∧ s.run.ackApplied = false ∧ drained s = true ∧ s.bget (pRun + 0x40) 13 = true ∧ fitsB s = true ∧ bankHeld s (ackPort { s with run := { s.run with ackCmds := [cmd [(0, 6)]] } }) (some 0) false s.run.pealEa.toNat s.run.pealLines = false) := by decide +kernel

/-- Further clauses of the same statement as wit_runs_1. -/
theorem wit_runs_13 :
    (∀ s ∈ [regs [(pRun + 0x40, 5#32), (pRun + 0x60,
      0x80000B00#32)] { ({ (regs [(pRun + 0x88, 1#32), (pRun + 0x90, 1#32), (chanBase 0 15 + 0x18, 0x20000#32)] up) with spindles := [(5, (win [(2, 0x40, 0x1), (2, 0x4C, 9)]))] }) with run := { starts := [(5, 1)], chimes := [511], chans := [(0, 15)], ackCmds := [cmd [(0, 6)]], acking := true, ackApplied := true, newFault := false } }], s.run.ackCmds = [cmd [(0, 6)]] ∧ s.run.acking = true ∧ s.run.ackApplied = true ∧ s.run.jobs = [] ∧ (∀ m ∈ s.mesh, runMsg s m = false) ∧ s.run.newFault = false ∧ fitsB s = true) := by decide +kernel

/-- Further clauses of the same statement as wit_runs_1. -/
theorem wit_runs_14 :
    (∀ s ∈ [regs [(pRun + 0x40, 0x1005#32), (pRun + 0x60,
      0x80000B00#32)] { ({ (regs [(pRun + 0x88, 1#32), (pRun + 0x90, 1#32), (chanBase 0 15 + 0x18, 0x20000#32)] up) with spindles := [(5, (win [(2, 0x40, 0x1), (2, 0x4C, 9)]))] }) with run := { starts := [(5, 1)], chimes := [511], chans := [(0, 15)], ackCmds := [cmd [(0, 6)]], acking := true, ackApplied := true, newFault := false } }], s.run.ackCmds = [cmd [(0, 6)]] ∧ s.run.acking = true ∧ s.run.ackApplied = true ∧ s.run.jobs = [] ∧ (∀ m ∈ s.mesh, runMsg s m = false) ∧ s.run.newFault = false ∧ fitsB s = true) := by decide +kernel

/-- Further clauses of the same statement as wit_runs_1. -/
theorem wit_runs_15 :
    (∀ s ∈ [regs [(pRun + 0x40, 5#32), (pRun + 0x60,
      0x80000B00#32)] { ({ (regs [(pRun + 0x88, 1#32), (pRun + 0x90, 1#32), (chanBase 0 15 + 0x18, 0x20000#32)] up) with spindles := [(5, (win [(2, 0x40, 0x1), (2, 0x4C, 9)]))] }) with run := { starts := [(5, 1)], chimes := [511], chans := [(0, 15)], ackCmds := [cmd [(0, 6)]], acking := true, ackApplied := true, newFault := true } }], s.run.ackCmds = [cmd [(0, 6)]] ∧ s.run.acking = true ∧ s.run.ackApplied = true ∧ s.run.jobs = [] ∧ (∀ m ∈ s.mesh, runMsg s m = false) ∧ s.run.newFault = true ∧ fitsB s = true) := by decide +kernel

/-- StrokesAreServed: ISSUE_STROKE denied, out of range, twice,
      for no entry and taken; its block marked and accepted; an IN port copied to the end of the capacity, an admission,
      an OUT port copied to a host window and no OUT port, a record and a completion entry,
      with the link up and down and where its ring was reset, for the last entry, port and chime of field 0. -/
theorem wit_strokes_1 :
    (∀ s ∈ [took 3 ({ (cmd [(0, 7), (32, 9), (64, 0x3f), (96, 0xff), (104, 1), (128, 0x3000001000), (192, 0x3000001020), (256, 6)]) with rq := ⟨3, true⟩ }) { ports := [(31, some ⟨0, 0x38FFFFFF80#48, 4, 511⟩)], entries := [(255, some ⟨511, 5, 0x80000000⟩)] }], s.run.taken = { (cmd [(0, 7), (32, 9), (64, 0x3f), (96, 0xff), (104, 1), (128, 0x3000001000), (192, 0x3000001020), (256, 6)]) with rq := ⟨3, true⟩ } :: [] ∧ ({ (cmd [(0, 7), (32, 9), (64, 0x3f), (96, 0xff), (104, 1), (128, 0x3000001000), (192, 0x3000001020), (256, 6)]) with rq := ⟨3, true⟩ }).op = 7 ∧ (granted s ({ (cmd [(0, 7), (32, 9), (64, 0x3f), (96, 0xff), (104, 1), (128, 0x3000001000), (192, 0x3000001020), (256, 6)]) with rq := ⟨3, true⟩ }).rq ({ (cmd [(0, 7), (32, 9), (64, 0x3f), (96, 0xff), (104, 1), (128, 0x3000001000), (192, 0x3000001020), (256, 6)]) with rq := ⟨3, true⟩ }).blockEa (max 1 ({ (cmd [(0, 7), (32, 9), (64, 0x3f), (96, 0xff), (104, 1), (128, 0x3000001000), (192, 0x3000001020), (256, 6)]) with rq := ⟨3, true⟩ }).blockLines) && granted s ({ (cmd [(0, 7), (32, 9), (64, 0x3f), (96, 0xff), (104, 1), (128, 0x3000001000), (192, 0x3000001020), (256, 6)]) with rq := ⟨3, true⟩ }).rq ({ (cmd [(0, 7), (32, 9), (64, 0x3f), (96, 0xff), (104, 1), (128, 0x3000001000), (192, 0x3000001020), (256, 6)]) with rq := ⟨3, true⟩ }).recordEa 1) = false) := by decide +kernel

/-- Further clauses of the same statement as wit_strokes_1. -/
theorem wit_strokes_2 :
    (∀ s ∈ [took 3 (cmd [(0, 7), (32, 9), (64, 0x40), (96, 0xff), (104, 1), (128, 0x3000001000), (192, 0x3000001020), (256,
      6)]) { ports := [(31, some ⟨0, 0x38FFFFFF80#48, 4, 511⟩)], entries := [(255, some ⟨511, 5, 0x80000000⟩)] }], s.run.taken = cmd [(0,
      7), (32, 9), (64, 0x40), (96, 0xff), (104, 1), (128, 0x3000001000), (192, 0x3000001020), (256, 6)] :: [] ∧
      (cmd [(0, 7), (32, 9), (64, 0x40), (96, 0xff), (104, 1), (128, 0x3000001000), (192, 0x3000001020), (256, 6)]).op = 7 ∧
      (granted s (cmd [(0, 7), (32, 9), (64, 0x40), (96, 0xff), (104, 1), (128, 0x3000001000), (192, 0x3000001020), (256, 6)]).rq (cmd [(0,
      7), (32, 9), (64, 0x40), (96, 0xff), (104, 1), (128, 0x3000001000), (192, 0x3000001020), (256, 6)]).blockEa (max 1 (cmd [(0, 7), (32,
      9), (64, 0x40), (96, 0xff), (104, 1), (128, 0x3000001000), (192, 0x3000001020), (256, 6)]).blockLines) && granted s (cmd [(0, 7),
      (32, 9), (64, 0x40), (96, 0xff), (104, 1), (128, 0x3000001000), (192, 0x3000001020), (256, 6)]).rq (cmd [(0, 7), (32, 9), (64, 0x40),
      (96, 0xff), (104, 1), (128, 0x3000001000), (192, 0x3000001020), (256, 6)]).recordEa 1) = true ∧ s.runState = 3 ∧
      ¬ (((cmd [(0, 7), (32, 9), (64, 0x40), (96, 0xff), (104, 1), (128, 0x3000001000), (192, 0x3000001020), (256,
      6)]).stroke - s.reg (pRun + 0x50)).toNat < 64)) := by decide +kernel

/-- Further clauses of the same statement as wit_strokes_1. -/
theorem wit_strokes_3 :
    (∀ s ∈ [took 3 (cmd [(0, 7), (32, 9), (64, 0x3f), (96, 0xff), (104, 1), (128, 0x3000001000), (192, 0x3000001020), (256,
      6)]) { ports := [(31, some ⟨0, 0x38FFFFFF80#48, 4, 511⟩)], entries := [(255, some ⟨511, 5, 0x80000000⟩)], strokes := [{ id := 63#32, cmd := cmd [(0, 7), (32, 9), (64, 0x3f), (96, 0xff), (104, 1), (128, 0x3000001000), (192, 0x3000001020), (256, 6)], stage := .accepted, descs := [], targets := [] }] }], s.run.taken = cmd [(0, 7), (32, 9), (64, 0x3f), (96, 0xff), (104, 1), (128, 0x3000001000), (192, 0x3000001020), (256, 6)] :: [] ∧ (granted s (cmd [(0, 7), (32, 9), (64, 0x3f), (96, 0xff), (104, 1), (128, 0x3000001000), (192, 0x3000001020), (256, 6)]).rq (cmd [(0, 7), (32, 9), (64, 0x3f), (96, 0xff), (104, 1), (128, 0x3000001000), (192, 0x3000001020), (256, 6)]).blockEa (max 1 (cmd [(0, 7), (32, 9), (64, 0x3f), (96, 0xff), (104, 1), (128, 0x3000001000), (192, 0x3000001020), (256, 6)]).blockLines) && granted s (cmd [(0, 7), (32, 9), (64, 0x3f), (96, 0xff), (104, 1), (128, 0x3000001000), (192, 0x3000001020), (256, 6)]).rq (cmd [(0, 7), (32, 9), (64, 0x3f), (96, 0xff), (104, 1), (128, 0x3000001000), (192, 0x3000001020), (256, 6)]).recordEa 1) = true ∧ s.runState = 3 ∧ ((cmd [(0, 7), (32, 9), (64, 0x3f), (96, 0xff), (104, 1), (128, 0x3000001000), (192, 0x3000001020), (256, 6)]).stroke - s.reg (pRun + 0x50)).toNat < 64 ∧ (∃ k ∈ s.run.strokes, k.id = (cmd [(0, 7), (32, 9), (64, 0x3f), (96, 0xff), (104, 1), (128, 0x3000001000), (192, 0x3000001020), (256, 6)]).stroke ∧ k.stage ≠ .failed)) := by decide +kernel

/-- Further clauses of the same statement as wit_strokes_1. -/
theorem wit_strokes_4 :
    (∀ s ∈ [took 3 (cmd [(0, 7), (32, 9), (64, 0x3f), (96, 0xff), (104, 1), (128, 0x3000001000), (192, 0x3000001020), (256,
      6)]) { ports := [(31, some ⟨0, 0x38FFFFFF80#48, 4, 511⟩)], entries := [(255, some ⟨511, 5, 0x80000000⟩)], posted := [(63#32, ⟨0, false⟩)] }], s.run.taken = cmd [(0, 7), (32, 9), (64, 0x3f), (96, 0xff), (104, 1), (128, 0x3000001000), (192, 0x3000001020), (256, 6)] :: [] ∧ (granted s (cmd [(0, 7), (32, 9), (64, 0x3f), (96, 0xff), (104, 1), (128, 0x3000001000), (192, 0x3000001020), (256, 6)]).rq (cmd [(0, 7), (32, 9), (64, 0x3f), (96, 0xff), (104, 1), (128, 0x3000001000), (192, 0x3000001020), (256, 6)]).blockEa (max 1 (cmd [(0, 7), (32, 9), (64, 0x3f), (96, 0xff), (104, 1), (128, 0x3000001000), (192, 0x3000001020), (256, 6)]).blockLines) && granted s (cmd [(0, 7), (32, 9), (64, 0x3f), (96, 0xff), (104, 1), (128, 0x3000001000), (192, 0x3000001020), (256, 6)]).rq (cmd [(0, 7), (32, 9), (64, 0x3f), (96, 0xff), (104, 1), (128, 0x3000001000), (192, 0x3000001020), (256, 6)]).recordEa 1) = true ∧ s.runState = 3 ∧ ((cmd [(0, 7), (32, 9), (64, 0x3f), (96, 0xff), (104, 1), (128, 0x3000001000), (192, 0x3000001020), (256, 6)]).stroke - s.reg (pRun + 0x50)).toNat < 64 ∧ (∃ x ∈ s.run.posted, x.1 = (cmd [(0, 7), (32, 9), (64, 0x3f), (96, 0xff), (104, 1), (128, 0x3000001000), (192, 0x3000001020), (256, 6)]).stroke)) := by decide +kernel

/-- Further clauses of the same statement as wit_strokes_1. -/
theorem wit_strokes_5 :
    (∀ s ∈ [took 3 (cmd [(0, 7), (32, 9), (64, 0x3f), (96, 0xff), (104, 1), (128, 0x3000001000), (192, 0x3000001020), (256, 6)])],
      s.run.taken = cmd [(0, 7), (32, 9), (64, 0x3f), (96, 0xff), (104, 1), (128, 0x3000001000), (192, 0x3000001020), (256, 6)] :: [] ∧
      (granted s (cmd [(0, 7), (32, 9), (64, 0x3f), (96, 0xff), (104, 1), (128, 0x3000001000), (192, 0x3000001020), (256, 6)]).rq (cmd [(0,
      7), (32, 9), (64, 0x3f), (96, 0xff), (104, 1), (128, 0x3000001000), (192, 0x3000001020), (256, 6)]).blockEa (max 1 (cmd [(0, 7), (32,
      9), (64, 0x3f), (96, 0xff), (104, 1), (128, 0x3000001000), (192, 0x3000001020), (256, 6)]).blockLines) && granted s (cmd [(0, 7),
      (32, 9), (64, 0x3f), (96, 0xff), (104, 1), (128, 0x3000001000), (192, 0x3000001020), (256, 6)]).rq (cmd [(0, 7), (32, 9), (64, 0x3f),
      (96, 0xff), (104, 1), (128, 0x3000001000), (192, 0x3000001020), (256, 6)]).recordEa 1) = true ∧ s.runState = 3 ∧
      ((cmd [(0, 7), (32, 9), (64, 0x3f), (96, 0xff), (104, 1), (128, 0x3000001000), (192, 0x3000001020), (256,
      6)]).stroke - s.reg (pRun + 0x50)).toNat < 64 ∧
      (∀ k ∈ s.run.strokes, ¬ (k.id = (cmd [(0, 7), (32, 9), (64, 0x3f), (96, 0xff), (104, 1), (128, 0x3000001000), (192, 0x3000001020),
      (256, 6)]).stroke ∧ k.stage ≠ .failed)) ∧
      entryRec s (cmd [(0, 7), (32, 9), (64, 0x3f), (96, 0xff), (104, 1), (128, 0x3000001000), (192, 0x3000001020), (256,
      6)]).entryNo = none) := by decide +kernel

/-- Further clauses of the same statement as wit_strokes_1. -/
theorem wit_strokes_6 :
    (∀ s ∈ [took 3 (cmd [(0, 7), (32, 9), (64, 0x3f), (96, 0xff), (104, 1), (128, 0x3000001000), (192, 0x3000001020), (256,
      6)]) { ports := [(31, some ⟨0, 0x38FFFFFF80#48, 4, 511⟩)], entries := [(255, some ⟨511, 5, 0x80000000⟩)], strokes := [{ id := 63#32, cmd := cmd [(0, 7), (32, 9), (64, 0x3f), (96, 0xff), (104, 1), (128, 0x3000001000), (192, 0x3000001020), (256, 6)], stage := .failed, descs := [], targets := [] }] }], s.run.taken = cmd [(0, 7), (32, 9), (64, 0x3f), (96, 0xff), (104, 1), (128, 0x3000001000), (192, 0x3000001020), (256, 6)] :: [] ∧ (granted s (cmd [(0, 7), (32, 9), (64, 0x3f), (96, 0xff), (104, 1), (128, 0x3000001000), (192, 0x3000001020), (256, 6)]).rq (cmd [(0, 7), (32, 9), (64, 0x3f), (96, 0xff), (104, 1), (128, 0x3000001000), (192, 0x3000001020), (256, 6)]).blockEa (max 1 (cmd [(0, 7), (32, 9), (64, 0x3f), (96, 0xff), (104, 1), (128, 0x3000001000), (192, 0x3000001020), (256, 6)]).blockLines) && granted s (cmd [(0, 7), (32, 9), (64, 0x3f), (96, 0xff), (104, 1), (128, 0x3000001000), (192, 0x3000001020), (256, 6)]).rq (cmd [(0, 7), (32, 9), (64, 0x3f), (96, 0xff), (104, 1), (128, 0x3000001000), (192, 0x3000001020), (256, 6)]).recordEa 1) = true ∧ s.runState = 3 ∧ ((cmd [(0, 7), (32, 9), (64, 0x3f), (96, 0xff), (104, 1), (128, 0x3000001000), (192, 0x3000001020), (256, 6)]).stroke - s.reg (pRun + 0x50)).toNat < 64 ∧ (∀ k ∈ s.run.strokes, ¬ (k.id = (cmd [(0, 7), (32, 9), (64, 0x3f), (96, 0xff), (104, 1), (128, 0x3000001000), (192, 0x3000001020), (256, 6)]).stroke ∧ k.stage ≠ .failed)) ∧ (entryRec s (cmd [(0, 7), (32, 9), (64, 0x3f), (96, 0xff), (104, 1), (128, 0x3000001000), (192, 0x3000001020), (256, 6)]).entryNo).isSome = true ∧ (cmd [(0, 7), (32, 9), (64, 0x3f), (96, 0xff), (104, 1), (128, 0x3000001000), (192, 0x3000001020), (256, 6)]).blockEa % 32 = 0 ∧ (cmd [(0, 7), (32, 9), (64, 0x3f), (96, 0xff), (104, 1), (128, 0x3000001000), (192, 0x3000001020), (256, 6)]).recordEa % 32 = 0 ∧ (cmd [(0, 7), (32, 9), (64, 0x3f), (96, 0xff), (104, 1), (128, 0x3000001000), (192, 0x3000001020), (256, 6)]).blockLines = 1 ∧ portMapped s 0 (cmd [(0, 7), (32, 9), (64, 0x3f), (96, 0xff), (104, 1), (128, 0x3000001000), (192, 0x3000001020), (256, 6)]).blockEa 1 = true ∧ portMapped s 0 (cmd [(0, 7), (32, 9), (64, 0x3f), (96, 0xff), (104, 1), (128, 0x3000001000), (192, 0x3000001020), (256, 6)]).recordEa 1 = true) := by decide +kernel

/-- Further clauses of the same statement as wit_strokes_1. -/
theorem wit_strokes_7 :
    (∀ s ∈ [regs [(pRun + 0x40, 3#32)] { (holding [ln [(0, 0x1f), (16, 1), (48, 0x800000000000), (96, 3)]] (regs [(pHost 0 0 + 0x50, 1#32), (pHost 0 0 + 0x54, 1#32), (pHost 0 0 + 0x40, 0x80000000#32)] up)) with run := { ports := [(31, some ⟨0, 0x38FFFFFF80#48, 4, 511⟩)], entries := [(255, some ⟨511, 5, 0x80000000⟩)], strokes := [{ id := 63#32, cmd := cmd [(0, 7), (32, 9), (64, 0x3f), (96, 0xff), (104, 1), (128, 0x3000001000), (192, 0x3000001020), (256, 6)], stage := .reserved, descs := [], targets := [] }] } }], strokeAt s 63#32 .reserved = s.run.strokes.head? ∧ mustWait s ⟨0, false⟩ (some 0) false 0x3000001000 1 = false ∧ (portRead s ⟨0, false⟩ 0 0x3000001000 1 [] [.bad]).2.runState = 3 ∧ (movedDescs (portRead s ⟨0, false⟩ 0 0x3000001000 1 [] [.bad]).2 (portRead s ⟨0, false⟩ 0 0x3000001000 1 [] [.bad]).1.1) = [] ∧ (∃ d ∈ (portRead s ⟨0, false⟩ 0 0x3000001000 1 [] [.bad]).1.1, d.bad = true)) := by decide +kernel

/-- Further clauses of the same statement as wit_strokes_1. -/
theorem wit_strokes_8 :
    (∀ s ∈ [regs [(pRun + 0x40, 3#32)] { (holding [ln [(0, 0x1f), (16, 1), (48, 0x800000000000), (96, 3)]] (regs [(pHost 0 0 + 0x50, 1#32), (pHost 0 0 + 0x54, 1#32), (pHost 0 0 + 0x40, 0x80000000#32)] up)) with run := { ports := [(31, some ⟨0, 0x38FFFFFF80#48, 4, 511⟩)], entries := [(255, some ⟨511, 5, 0x80000000⟩)], strokes := [{ id := 63#32, cmd := cmd [(0, 7), (32, 9), (64, 0x3f), (96, 0xff), (104, 1), (128, 0x3000001000), (192, 0x3000001020), (256, 6)], stage := .reserved, descs := [], targets := [] }] } }], strokeAt s 63#32 .reserved = s.run.strokes.head? ∧ mustWait s ⟨0, false⟩ (some 0) false 0x3000001000 1 = false ∧ (portRead s ⟨0, false⟩ 0 0x3000001000 1 [] []).2.runState = 3 ∧ (portRead s ⟨0, false⟩ 0 0x3000001000 1 [] []).1.1 = [ln [(0, 0x1f), (16, 1), (48, 0x800000000000), (96, 3)]] ∧ (ln [(0, 0x1f), (16, 1), (48, 0x800000000000), (96, 3)]).bad = false ∧ movedDescs (portRead s ⟨0, false⟩ 0 0x3000001000 1 [] []).2 [ln [(0, 0x1f), (16, 1), (48, 0x800000000000), (96, 3)]] = [ln [(0, 0x1f), (16, 1), (48, 0x800000000000), (96, 3)]] ∧ granted s ⟨0, false⟩ (dEa (ln [(0, 0x1f), (16, 1), (48, 0x800000000000), (96, 3)])) 1 = true ∧ blockOk (portRead s ⟨0, false⟩ 0 0x3000001000 1 [] []).2 ⟨511, 5, 0x80000000⟩ [ln [(0, 0x1f), (16, 1), (48, 0x800000000000), (96, 3)]] = true ∧ portMapped (portRead s ⟨0, false⟩ 0 0x3000001000 1 [] []).2 0 (dEa (ln [(0, 0x1f), (16, 1), (48, 0x800000000000), (96, 3)])) 1 = true) := by decide +kernel

/-- Further clauses of the same statement as wit_strokes_1. -/
theorem wit_strokes_9 :
    (∀ s ∈ [regs [(pRun + 0x40, 3#32), (pRun + 0x54,
      63#32)] { (regs [(pBob 3 0 + 0xC, 3#32)] (regs [(pHost 0 0 + 0x50, 1#32), (pHost 0 0 + 0x54, 1#32), (pHost 0 0 + 0x40, 0x80000000#32)] up)) with run := { ports := [(31, some ⟨0, 0x38FFFFFF80#48, 4, 511⟩)], entries := [(255, some ⟨511, 5, 0x80000000⟩)], strokes := [{ id := 63#32, cmd := cmd [(0, 7), (32, 9), (64, 0x3f), (96, 0xff), (104, 1), (128, 0x3000001000), (192, 0x3000001020), (256, 6)], stage := .accepted, descs := [ln [(0, 0x1f), (16, 1), (48, 0x800000000000), (96, 3)]], targets := [] }] } }], strokeAt s (s.reg (pRun + 0x54)) .accepted = s.run.strokes.head? ∧ s.running = true ∧ s.run.fenceAt = none ∧ portRec s (dPort (ln [(0, 0x1f), (16, 1), (48, 0x800000000000), (96, 3)])) = some ⟨0, 0x38FFFFFF80#48, 4, 511⟩ ∧ hostEa (dEa (ln [(0, 0x1f), (16, 1), (48, 0x800000000000), (96, 3)])) = true ∧ portMapped s 0 (dEa (ln [(0, 0x1f), (16, 1), (48, 0x800000000000), (96, 3)])) (dLines (ln [(0, 0x1f), (16, 1), (48, 0x800000000000), (96, 3)])) = true ∧ hostDown s 0 = false ∧ dLines (ln [(0, 0x1f), (16, 1), (48, 0x800000000000), (96, 3)]) = 1 ∧ partEa ⟨0, 0x38FFFFFF80#48, 4, 511⟩ (ln [(0, 0x1f), (16, 1), (48, 0x800000000000), (96, 3)]) = 0x38FFFFFFE0 ∧ decodeEA s 0x38FFFFFFE0 = .bobbin 3 0x8FFFFFFE0 ∧ (0x8FFFFFFE0 : Nat) + 32 ≤ s.capacity ∧ outFive s (pBob 3 0) = false ∧ s.links = [] ∧ ∀ fm ∈ s.maps, fm.2.fail = false ∧ (s.pow 3).memOff = false ∧ bobbinOn s 3 = true ∧ lineGone s 3 0x8FFFFFFE0 = false ∧ bankHeld s 0 (some 0) true 0x38FFFFFFE0 1 = false) := by decide +kernel

/-- Further clauses of the same statement as wit_strokes_1. -/
theorem wit_strokes_10 :
    (∀ s ∈ [regs [(pRun + 0x40, 3#32), (pRun + 0x54,
      63#32)] { (up) with run := { ports := [(31, some ⟨0, 0x38FFFFFF80#48, 4, 511⟩)], entries := [(255, some ⟨511, 5, 0x80000000⟩)], strokes := [{ id := 63#32, cmd := cmd [(0, 7), (32, 9), (64, 0x3f), (96, 0xff), (104, 1), (128, 0x3000001000), (192, 0x3000001020), (256, 6)], stage := .copyingIn, descs := [], targets := [] }] } }], strokeAt s (s.reg (pRun + 0x54)) .copyingIn = s.run.strokes.head? ∧ (∀ k ∈ s.run.strokes, k.flush = false ∧ k.lost = false) ∧ s.running = true ∧ s.run.fenceAt = none ∧ entryRec s (cmd [(0, 7), (32, 9), (64, 0x3f), (96, 0xff), (104, 1), (128, 0x3000001000), (192, 0x3000001020), (256, 6)]).entryNo = some ⟨511, 5, 0x80000000⟩ ∧ outFive s (pChime 0 0) = false ∧ s.links = [] ∧ ∀ fm ∈ s.maps, fm.2.fail = false) := by decide +kernel

/-- Further clauses of the same statement as wit_strokes_1. -/
theorem wit_strokes_11 :
    (∀ s ∈ [regs [(pRun + 0x40, 3#32), (chBase 0 511,
      5#32)] { (up) with run := { ports := [(31, some ⟨3, 0x38FFFFFF80#48, 4, 511⟩)], entries := [(255, some ⟨511, 5, 0x80000000⟩)], strokes := [{ id := 63#32, cmd := cmd [(0, 7), (32, 9), (64, 0x3f), (96, 0xff), (104, 1), (128, 0x3000001000), (192, 0x3000001020), (256, 6)], stage := .admitted, descs := [ln [(0, 0x1f), (16, 1), (48, 0x800000000000), (96, 3)]], targets := [(31, 5#32)] }] } }], strokeAt s 63#32 .admitted = s.run.strokes.head? ∧ s.running = true ∧ (portRec s 31).all (fun x => x.kind = 3) = true ∧ reached (chValue s 0 511) 5 = true) := by decide +kernel

/-- Further clauses of the same statement as wit_strokes_1. -/
theorem wit_strokes_12 :
    (∀ s ∈ [regs [(pRun + 0x40, 3#32), (chBase 0 511,
      5#32)] { (regs [(pBob 3 0 + 0xC, 3#32)] (regs [(pHost 0 0 + 0x50, 1#32), (pHost 0 0 + 0x54, 1#32), (pHost 0 0 + 0x40, 0x80000000#32)] up)) with run := { ports := [(31, some ⟨1, 0x38FFFFFF80#48, 4, 511⟩)], entries := [(255, some ⟨511, 5, 0x80000000⟩)], strokes := [{ id := 63#32, cmd := cmd [(0, 7), (32, 9), (64, 0x3f), (96, 0xff), (104, 1), (128, 0x3000001000), (192, 0x3000001020), (256, 6)], stage := .admitted, descs := [ln [(0, 0x1f), (16, 1), (48, 0x800000000000), (96, 3)]], targets := [(31, 5#32)] }] } }], strokeAt s 63#32 .admitted = s.run.strokes.head? ∧ s.running = true ∧ (portRec s 31).all (fun x => x.kind = 1) = true ∧ reached (chValue s 0 511) 5 = true ∧ hostEa (dEa (ln [(0, 0x1f), (16, 1), (48, 0x800000000000), (96, 3)])) = true ∧ dLines (ln [(0, 0x1f), (16, 1), (48, 0x800000000000), (96, 3)]) = 1 ∧ portMapped s 0 (dEa (ln [(0, 0x1f), (16, 1), (48, 0x800000000000), (96, 3)])) 1 = true ∧ hostDown s 0 = false ∧ mustWait s ⟨0, false⟩ (some 0) false (partEa ⟨1, 0x38FFFFFF80#48, 4, 511⟩ (ln [(0, 0x1f), (16, 1), (48, 0x800000000000), (96, 3)])) 1 = false ∧ portMapped (portRead s ⟨0, false⟩ 0 (partEa ⟨1, 0x38FFFFFF80#48, 4, 511⟩ (ln [(0, 0x1f), (16, 1), (48, 0x800000000000), (96, 3)])) 1 [] []).2 0 (dEa (ln [(0, 0x1f), (16, 1), (48, 0x800000000000), (96, 3)])) 1 = true) := by decide +kernel

/-- Further clauses of the same statement as wit_strokes_1. -/
theorem wit_strokes_13 :
    (∀ s ∈ [regs [(pRun + 0x40, 0x8003#32), (pRun + 0x44, 2#32), (pRun + 0x48,
      3#32)] { (up) with run := { ports := [(31, some ⟨1, 0x38FFFFFF80#48, 4, 511⟩)], entries := [(255, some ⟨511, 5, 0x80000000⟩)], strokes := [{ id := 63#32, cmd := cmd [(0, 7), (32, 9), (64, 0x3f), (96, 0xff), (104, 1), (128, 0x3000001000), (192, 0x3000001020), (256, 6)], stage := .copyingOut, descs := [], targets := [] }] } }], strokeAt s 63#32 .copyingOut = s.run.strokes.head? ∧ (∀ k ∈ s.run.strokes, k.flush = false ∧ k.lost = false) ∧ s.running = true ∧ earlierOpen s 63#32 Stroke.open_ = false ∧ mustWait s ⟨0, false⟩ none true (cmd [(0, 7), (32, 9), (64, 0x3f), (96, 0xff), (104, 1), (128, 0x3000001000), (192, 0x3000001020), (256, 6)]).recordEa 1 = false) := by decide +kernel

/-- Further clauses of the same statement as wit_strokes_1. -/
theorem wit_strokes_14 :
    (∀ s ∈ [regs [(pRun + 0x40, 3#32), (pHost 0 0 + 0x40,
      0x80000000#32)] { (up) with run := { ports := [(31, some ⟨1, 0x38FFFFFF80#48, 4, 511⟩)], entries := [(255, some ⟨511, 5, 0x80000000⟩)], strokes := [{ id := 63#32, cmd := cmd [(0, 7), (32, 9), (64, 0x3f), (96, 0xff), (104, 1), (128, 0x3000001000), (192, 0x3000001020), (256, 6)], stage := .recorded, descs := [], targets := [] }] } }], strokeAt s 63#32 .recorded = s.run.strokes.head? ∧ earlierOpen s 63#32 Stroke.entryDue = false ∧ (∀ k ∈ s.run.strokes, k.lost = false ∧ k.owed = none ∧ k.ended = false) ∧ s.run.posted = [] ∧ (cmd [(0, 7), (32, 9), (64, 0x3f), (96, 0xff), (104, 1), (128, 0x3000001000), (192, 0x3000001020), (256, 6)]).op = 7 ∧ (cmd [(0, 7), (32, 9), (64, 0x3f), (96, 0xff), (104, 1), (128, 0x3000001000), (192, 0x3000001020), (256, 6)]).stroke = 63#32 ∧ (∀ k ∈ s.run.strokes, k.cmd.live = true) ∧ hostDown s 0 = false ∧ (s.ring ⟨0, false⟩).due = [] ∧ (s.ring ⟨0, false⟩).unsent.getLsbD 0 = false) := by decide +kernel

/-- Further clauses of the same statement as wit_strokes_1. -/
theorem wit_strokes_15 :
    (∀ s ∈ [regs [(pRun + 0x40, 3#32), (pRun + 0x50,
      63#32)] { (up) with run := { ports := [(31, some ⟨1, 0x38FFFFFF80#48, 4, 511⟩)], entries := [(255, some ⟨511, 5, 0x80000000⟩)], strokes := [{ id := 63#32, cmd := cmd [(0, 7), (32, 9), (64, 0x3f), (96, 0xff), (104, 1), (128, 0x3000001000), (192, 0x3000001020), (256, 6)], stage := .recorded, descs := [], targets := [] }] } }], strokeAt s 63#32 .recorded = s.run.strokes.head? ∧ earlierOpen s 63#32 Stroke.entryDue = false ∧ (∀ k ∈ s.run.strokes, k.lost = false ∧ k.owed = none ∧ k.ended = false) ∧ s.run.posted = [] ∧ (cmd [(0, 7), (32, 9), (64, 0x3f), (96, 0xff), (104, 1), (128, 0x3000001000), (192, 0x3000001020), (256, 6)]).op = 7 ∧ (cmd [(0, 7), (32, 9), (64, 0x3f), (96, 0xff), (104, 1), (128, 0x3000001000), (192, 0x3000001020), (256, 6)]).stroke = 63#32 ∧ (∀ k ∈ s.run.strokes, k.cmd.live = true) ∧ hostDown s 0 = true ∧ (s.ring ⟨0, false⟩).due = [] ∧ (s.ring ⟨0, false⟩).unsent.getLsbD 0 = false) := by decide +kernel

/-- Further clauses of the same statement as wit_strokes_1. -/
theorem wit_strokes_16 :
    (∀ s ∈ [regs [(pRun + 0x40, 3#32), (pHost 0 0 + 0x40, 0x80000000#32), (pRun + 0x50,
      63#32)] { (up) with run := { ports := [(31, some ⟨1, 0x38FFFFFF80#48, 4, 511⟩)], entries := [(255, some ⟨511, 5, 0x80000000⟩)], strokes := [{ id := 63#32, cmd := { (cmd [(0, 7), (32, 9), (64, 0x3f), (96, 0xff), (104, 1), (128, 0x3000001000), (192, 0x3000001020), (256, 6)]) with live := false }, stage := .recorded, descs := [], targets := [] }] } }], strokeAt s 63#32 .recorded = s.run.strokes.head? ∧ earlierOpen s 63#32 Stroke.entryDue = false ∧ (∀ k ∈ s.run.strokes, k.lost = false ∧ k.owed = none ∧ k.ended = false) ∧ s.run.posted = [] ∧ ({ (cmd [(0, 7), (32, 9), (64, 0x3f), (96, 0xff), (104, 1), (128, 0x3000001000), (192, 0x3000001020), (256, 6)]) with live := false }).op = 7 ∧ ({ (cmd [(0, 7), (32, 9), (64, 0x3f), (96, 0xff), (104, 1), (128, 0x3000001000), (192, 0x3000001020), (256, 6)]) with live := false }).stroke = 63#32 ∧ (∀ k ∈ s.run.strokes, k.cmd.live = false) ∧ hostDown s 0 = false ∧ (s.ring ⟨0, false⟩).due = [] ∧ (s.ring ⟨0, false⟩).unsent.getLsbD 0 = false) := by decide +kernel

/-- Further clauses of the same statement as wit_strokes_1. -/
theorem wit_strokes_17 :
    (∀ s ∈ [regs [(pRun + 0x40, 3#32), (pHost 0 0 + 0x40,
      0x80000000#32)] { (up) with run := { ports := [(31, some ⟨1, 0x38FFFFFF80#48, 4, 511⟩)], entries := [(255, some ⟨511, 5, 0x80000000⟩)], strokes := [{ id := 63#32, cmd := { (cmd [(0, 7), (32, 9), (64, 0x3f), (96, 0xff), (104, 1), (128, 0x3000001000), (192, 0x3000001020), (256, 6)]) with live := false }, stage := .recorded, descs := [], targets := [] }] } }], strokeAt s 63#32 .recorded = s.run.strokes.head? ∧ earlierOpen s 63#32 Stroke.entryDue = false ∧ (∀ k ∈ s.run.strokes, k.lost = false ∧ k.owed = none ∧ k.ended = false) ∧ s.run.posted = [] ∧ ({ (cmd [(0, 7), (32, 9), (64, 0x3f), (96, 0xff), (104, 1), (128, 0x3000001000), (192, 0x3000001020), (256, 6)]) with live := false }).op = 7 ∧ ({ (cmd [(0, 7), (32, 9), (64, 0x3f), (96, 0xff), (104, 1), (128, 0x3000001000), (192, 0x3000001020), (256, 6)]) with live := false }).stroke = 63#32 ∧ (∀ k ∈ s.run.strokes, k.cmd.live = false) ∧ hostDown s 0 = false ∧ (s.ring ⟨0, false⟩).due = [] ∧ (s.ring ⟨0, false⟩).unsent.getLsbD 0 = false) := by decide +kernel

/-- NirdorLinksTrainAndFail, at the last port: RETRAIN from DOWN; training that fills 40 and 32 lanes, too few,
      too late; UP wide and narrow; FORCE_DOWN in TRAINING and HELD; a failure in UP with a packet of the run, seen by no one,
      and by a frame resent 8 times; lane 0 with enough margin, with less and a spare, without a spare,
      and without one in a narrow port; the partner's lane,
      in a wide and a narrow port; RETRAIN written; the end of a swap slot; clock locks; ENGINE_NUMBER. -/
theorem wit_nirdor_links_1 :
    (∀ s ∈ [{ (regs [(pNirdor 15 0 + 0x44, 0x280000#32), (pNirdor 15 0 + 0x40, 3#32)] up) with nirdors := [(15, {  })] }],
      linkState s 15 = 0 ∧ mayTrain s 15 = true ∧ s.bget (pNirdor 15 0 + 0x40) 1 = true) ∧
    (∀ s ∈ [{ (regs [(pNirdor 15 0 + 0x44, 0x40280000#32), (pNirdor 15 0 + 0x40, 3#32)] up) with nirdors := [(15, {  })] }],
      linkState s 15 = 1) ∧
    (∀ s ∈ [{ (regs [(pNirdor 15 0 + 0x44, 0x80280000#32), (pNirdor 15 0 + 0x40, 3#32), (pGlobal + 0x68, 0x80000007#32)] up) with nirdors := [(15, {  })] }], linkState s 15 = 2 ∧ engineValid s = true ∧ (s.nir 15).tx = [] ∧ (s.nir 15).transit = [] ∧ s.bget (pNirdor 15 0 + 0x44) 28 = false) := by decide +kernel

/-- Further clauses of the same statement as wit_nirdor_links_1. -/
theorem wit_nirdor_links_2 :
    (∀ s ∈ [{ (regs [(pNirdor 15 0 + 0x44, 0x80280000#32), (pNirdor 15 0 + 0x40, 3#32), (pGlobal + 0x68, 0x80000007#32), (pNirdor 15 0 + 0x44, 0x90200000#32)] up) with nirdors := [(15, {  })] }], linkState s 15 = 2 ∧ engineValid s = true ∧ (s.nir 15).tx = [] ∧ (s.nir 15).transit = [] ∧ s.bget (pNirdor 15 0 + 0x44) 28 = true) ∧
    (∀ s ∈ [{ (regs [(pNirdor 15 0 + 0x44, 0x40280000#32), (pNirdor 15 0 + 0x40, 7#32)] up) with nirdors := [(15, {  })] }],
      linkState s 15 = 1 ∧ s.bget (pNirdor 15 0 + 0x40) 2 = true) := by decide +kernel

/-- Further clauses of the same statement as wit_nirdor_links_1. -/
theorem wit_nirdor_links_3 :
    (∀ s ∈ [{ (regs [(pNirdor 15 0 + 0x44, 0x80280000#32), (pNirdor 15 0 + 0x40, 2#32), (pGlobal + 0x68, 0x80000007#32)] up) with nirdors := [(15, { tx := [{ srcEngine := 7, srcPort := 15, pkind := 2, payload := [⟨5#256, true⟩] }] })] }], linkState s 15 = 2 ∧ s.bget (pNirdor 15 0 + 0x40) 0 = false ∧ (∀ k ∈ (s.nir 15).replay.map (·.pkt) ++ (s.nir 15).tx ++ (s.nir 15).transit, scopeRunPacket s k = false)) ∧
    (∀ s ∈ [{ (regs [(pNirdor 15 0 + 0x44, 0xc0280000#32), (pNirdor 15 0 + 0x40, 3#32), (pGlobal + 0x68, 0x80000007#32), (pRun + 0x40, 3#32)] up) with nirdors := [(15, { replay := [⟨65535, { srcEngine := 7, srcPort := 15, pkind := 2, payload := [⟨5#256, true⟩] }, 1⟩], exp := [(0, 0x20000000#32)] })] }], linkState s 15 = 3 ∧ (∃ k ∈ (s.nir 15).replay.map (·.pkt) ++ (s.nir 15).tx ++ (s.nir 15).transit, scopeRunPacket s k = true) ∧ s.running = true ∧ s.run.chans = [] ∧ s.bget (pRun + 0x60) 31 = false) := by decide +kernel

/-- Further clauses of the same statement as wit_nirdor_links_1. -/
theorem wit_nirdor_links_4 :
    (∀ s ∈ [{ (regs [(pNirdor 15 0 + 0x44, 0xc0280000#32), (pNirdor 15 0 + 0x40, 3#32)] up) with nirdors := [(15, { replay := [⟨65535, { srcEngine := 7, srcPort := 15, pkind := 2, payload := [⟨5#256, true⟩] }, 7⟩] })] }], (∀ f ∈ (s.nir 15).replay, f.resent < 8)) ∧
    (∀ s ∈ [{ (regs [(pNirdor 15 0 + 0x44, 0xc0280000#32), (pNirdor 15 0 + 0x40, 3#32)] up) with nirdors := [(15, { replay := [⟨65535, { srcEngine := 7, srcPort := 15, pkind := 2, payload := [⟨5#256, true⟩] }, 8⟩] })] }], linkState s 15 = 3 ∧ (∃ f ∈ (s.nir 15).replay, 8 ≤ f.resent) ∧ s.running = false) := by decide +kernel

/-- Further clauses of the same statement as wit_nirdor_links_1. -/
theorem wit_nirdor_links_5 :
    (∀ s ∈ [{ (regs [(pNirdor 15 0 + 0x44, 0xc0280000#32), (pNirdor 15 0 + 0x40, 3#32), (laneReg 15 0, 0x80000000#32), (laneReg 15 1, 0x80010000#32), (laneReg 15 2, 0x80020000#32), (laneReg 15 3, 0x80030000#32), (laneReg 15 4, 0x80040000#32), (laneReg 15 5, 0x80050000#32), (laneReg 15 6, 0x80060000#32), (laneReg 15 7, 0x80070000#32), (laneReg 15 8, 0x80080000#32), (laneReg 15 9, 0x80090000#32), (laneReg 15 10, 0x800a0000#32), (laneReg 15 11, 0x800b0000#32), (laneReg 15 12, 0x800c0000#32), (laneReg 15 13, 0x800d0000#32), (laneReg 15 14, 0x800e0000#32), (laneReg 15 15, 0x800f0000#32), (laneReg 15 16, 0x80100000#32), (laneReg 15 17, 0x80110000#32), (laneReg 15 18, 0x80120000#32), (laneReg 15 19, 0x80130000#32), (laneReg 15 20, 0x80140000#32), (laneReg 15 21, 0x80150000#32), (laneReg 15 22, 0x80160000#32), (laneReg 15 23, 0x80170000#32), (laneReg 15 24, 0x80180000#32), (laneReg 15 25, 0x80190000#32), (laneReg 15 26, 0x801a0000#32), (laneReg 15 27, 0x801b0000#32), (laneReg 15 28, 0x801c0000#32), (laneReg 15 29, 0x801d0000#32), (laneReg 15 30, 0x801e0000#32), (laneReg 15 31, 0x801f0000#32), (laneReg 15 32, 0x80200000#32), (laneReg 15 33, 0x80210000#32), (laneReg 15 34, 0x80220000#32), (laneReg 15 35, 0x80230000#32), (laneReg 15 36, 0x80240000#32), (laneReg 15 37, 0x80250000#32), (laneReg 15 38, 0x80260000#32), (laneReg 15 39, 0x80270000#32), (laneReg 15 40, 0x40000000#32), (laneReg 15 41, 0x40000000#32)] up) with nirdors := [(15, {  })] }], linkState s 15 = 3 ∧ s.fget (laneReg 15 0) 31 30 = 2 ∧ 1 ≤ s.fget (pNirdor 15 0 + 0x44) 21 16 ∧ s.fget (laneReg 15 40) 31 30 = 1 ∧ (∀ i ∈ List.range 40, s.fget (laneReg 15 i) 31 30 ≠ 1) ∧ (s.nir 15).nak = false ∧ (s.nir 15).swap = false ∧ (s.nir 15).rxGood ≤ 42) := by decide +kernel

/-- Further clauses of the same statement as wit_nirdor_links_1. -/
theorem wit_nirdor_links_6 :
    (∀ s ∈ [{ (regs [(pNirdor 15 0 + 0x44, 0xc0280000#32), (pNirdor 15 0 + 0x40, 3#32), (pNirdor 15 0 + 0x44, 0xC0290000#32)] up) with nirdors := [(15, { rxGood := 42, txGood := 41 })] }], linkState s 15 = 3 ∧ (s.nir 15).nak = false ∧ (s.nir 15).swap = false ∧ (s.nir 15).rxGood ≤ 42 ∧ (if s.bget (pNirdor 15 0 + 0x44) 28 then 32 else 40) < (s.nir 15).txGood) ∧
    (∀ s ∈ [{ (regs [(pNirdor 15 0 + 0x44, 0xc0280000#32), (pNirdor 15 0 + 0x40, 3#32), (pNirdor 15 0 + 0x44, 0xD0210000#32)] up) with nirdors := [(15, { rxGood := 42, txGood := 33 })] }], linkState s 15 = 3 ∧ (s.nir 15).nak = false ∧ (s.nir 15).swap = false ∧ (s.nir 15).rxGood ≤ 42 ∧ (if s.bget (pNirdor 15 0 + 0x44) 28 then 32 else 40) < (s.nir 15).txGood) := by decide +kernel

/-- Further clauses of the same statement as wit_nirdor_links_1. -/
theorem wit_nirdor_links_7 :
    (∀ s ∈ [{ (regs [(pNirdor 15 0 + 0x44, 0x280000#32), (pNirdor 15 0 + 0x40, 3#32)] up) with nirdors := [(15, {  })] }],
      linkState s 15 = 0 ∧ populated s 15 = true ∧ transitUp s = true ∧ getB 0xB#32 3 = true ∧
      serves s (pNirdor 15 0 + 0x40) = true) := by decide +kernel

/-- Further clauses of the same statement as wit_nirdor_links_1. -/
theorem wit_nirdor_links_8 :
    (∀ s ∈ [{ (regs [(pNirdor 15 0 + 0x44, 0xc0280000#32), (pNirdor 15 0 + 0x40, 3#32), (laneReg 15 0, 0x80000000#32), (laneReg 15 1, 0x80010000#32), (laneReg 15 2, 0x80020000#32), (laneReg 15 3, 0x80030000#32), (laneReg 15 4, 0x80040000#32), (laneReg 15 5, 0x80050000#32), (laneReg 15 6, 0x80060000#32), (laneReg 15 7, 0x80070000#32), (laneReg 15 8, 0x80080000#32), (laneReg 15 9, 0x80090000#32), (laneReg 15 10, 0x800a0000#32), (laneReg 15 11, 0x800b0000#32), (laneReg 15 12, 0x800c0000#32), (laneReg 15 13, 0x800d0000#32), (laneReg 15 14, 0x800e0000#32), (laneReg 15 15, 0x800f0000#32), (laneReg 15 16, 0x80100000#32), (laneReg 15 17, 0x80110000#32), (laneReg 15 18, 0x80120000#32), (laneReg 15 19, 0x80130000#32), (laneReg 15 20, 0x80140000#32), (laneReg 15 21, 0x80150000#32), (laneReg 15 22, 0x80160000#32), (laneReg 15 23, 0x80170000#32), (laneReg 15 24, 0x80180000#32), (laneReg 15 25, 0x80190000#32), (laneReg 15 26, 0x801a0000#32), (laneReg 15 27, 0x801b0000#32), (laneReg 15 28, 0x801c0000#32), (laneReg 15 29, 0x801d0000#32), (laneReg 15 30, 0x801e0000#32), (laneReg 15 31, 0x801f0000#32), (laneReg 15 32, 0x80200000#32), (laneReg 15 33, 0x80210000#32), (laneReg 15 34, 0x80220000#32), (laneReg 15 35, 0x80230000#32), (laneReg 15 36, 0x80240000#32), (laneReg 15 37, 0x80250000#32), (laneReg 15 38, 0x80260000#32), (laneReg 15 39, 0x80270000#32), (laneReg 15 40, 0xc0000000#32), (laneReg 15 41, 0xc0000000#32)] up) with nirdors := [(15, {  })] }], linkState s 15 = 3 ∧ s.fget (laneReg 15 0) 31 30 = 2 ∧ (∀ j ∈ List.range 42, s.fget (laneReg 15 j) 31 30 ≠ 1) ∧ s.bget (pNirdor 15 0 + 0x44) 28 = false ∧ (s.nir 15).nak = false ∧ (s.nir 15).swap = false) := by decide +kernel

/-- Further clauses of the same statement as wit_nirdor_links_1. -/
theorem wit_nirdor_links_9 :
    (∀ s ∈ [{ (regs [(pNirdor 15 0 + 0x44, 0xc0280000#32), (pNirdor 15 0 + 0x40, 3#32), (pNirdor 15 0 + 0x44, 0xD0200000#32), (laneReg 15 0, 0x80000000#32), (laneReg 15 1, 0x80010000#32), (laneReg 15 2, 0x80020000#32), (laneReg 15 3, 0x80030000#32), (laneReg 15 4, 0x80040000#32), (laneReg 15 5, 0x80050000#32), (laneReg 15 6, 0x80060000#32), (laneReg 15 7, 0x80070000#32), (laneReg 15 8, 0x80080000#32), (laneReg 15 9, 0x80090000#32), (laneReg 15 10, 0x800a0000#32), (laneReg 15 11, 0x800b0000#32), (laneReg 15 12, 0x800c0000#32), (laneReg 15 13, 0x800d0000#32), (laneReg 15 14, 0x800e0000#32), (laneReg 15 15, 0x800f0000#32), (laneReg 15 16, 0x80100000#32), (laneReg 15 17, 0x80110000#32), (laneReg 15 18, 0x80120000#32), (laneReg 15 19, 0x80130000#32), (laneReg 15 20, 0x80140000#32), (laneReg 15 21, 0x80150000#32), (laneReg 15 22, 0x80160000#32), (laneReg 15 23, 0x80170000#32), (laneReg 15 24, 0x80180000#32), (laneReg 15 25, 0x80190000#32), (laneReg 15 26, 0x801a0000#32), (laneReg 15 27, 0x801b0000#32), (laneReg 15 28, 0x801c0000#32), (laneReg 15 29, 0x801d0000#32), (laneReg 15 30, 0x801e0000#32), (laneReg 15 31, 0x801f0000#32), (laneReg 15 32, 0x80200000#32), (laneReg 15 33, 0x80210000#32), (laneReg 15 34, 0x80220000#32), (laneReg 15 35, 0x80230000#32), (laneReg 15 36, 0x80240000#32), (laneReg 15 37, 0x80250000#32), (laneReg 15 38, 0x80260000#32), (laneReg 15 39, 0x80270000#32), (laneReg 15 40, 0xc0000000#32), (laneReg 15 41, 0xc0000000#32)] up) with nirdors := [(15, {  })] }], linkState s 15 = 3 ∧ s.fget (laneReg 15 0) 31 30 = 2 ∧ (∀ j ∈ List.range 42, s.fget (laneReg 15 j) 31 30 ≠ 1) ∧ s.bget (pNirdor 15 0 + 0x44) 28 = true ∧ (s.nir 15).nak = false ∧ (s.nir 15).swap = false ∧ ((s.nir 15).replay.map (·.pkt) ++ (s.nir 15).tx ++ (s.nir 15).transit) = []) := by decide +kernel

/-- Further clauses of the same statement as wit_nirdor_links_1. -/
theorem wit_nirdor_links_10 :
    (∀ s ∈ [{ (regs [(pNirdor 15 0 + 0x44, 0xc0280000#32), (pNirdor 15 0 + 0x40, 3#32)] up) with nirdors := [(15, { swap := true })] }],
      (s.nir 15).swap = true ∧ (s.nir 15).tx = [] ∧ (s.nir 15).transit = []) ∧
    (∀ s ∈ [{ (regs [(pNirdor 15 0 + 0x44, 0x80280000#32), (pNirdor 15 0 + 0x40, 3#32), (pClock + 0x40, 0xF00#32)] up) with nirdors := [(15, {  })] }], populated s 15 = true ∧ linkState s 15 = 2 ∧ s.fget (pClock + 0x40) 11 8 = 15) := by decide +kernel

/-- NirdorPortsCarryPackets, at the last port and its last export entry: a frame in order, one out of order and one with errors,
      an acknowledgement of the second of three frames, a replay from there; messages of an invalid entry, of one whose window is full,
      of a reel's block and of a spindle's increment; packets to relay without a candidate, by VIA, and with one hop left. -/
theorem wit_nirdor_packets_1 :
    (∀ s ∈ [{ (regs [(pNirdor 15 0 + 0x44, 0xc0280000#32), (pNirdor 15 0 + 0x40, 3#32), (pGlobal + 0x68, 0x80000007#32)] up) with nirdors := [(15, { rxSeq := 65535, replay := [⟨65534, { pkind := 2, payload := [⟨5#256, false⟩] }, 0⟩, ⟨65535, { pkind := 2, payload := [⟨5#256, false⟩] }, 0⟩, ⟨0, { pkind := 2, payload := [⟨5#256, false⟩] }, 0⟩] })] }], linkState s 15 = 3 ∧ (s.nir 15).tx = [] ∧ (s.nir 15).transit = [] ∧ (s.nir 15).swap = false ∧ (s.nir 15).rxSeq = 65535 ∧ (s.nir 15).replay = [⟨65534, { pkind := 2, payload := [⟨5#256, false⟩] }, 0⟩] ++ ⟨65535, { pkind := 2, payload := [⟨5#256, false⟩] }, 0⟩ :: [⟨0, { pkind := 2, payload := [⟨5#256, false⟩] }, 0⟩]) := by decide +kernel

/-- Further clauses of the same statement as wit_nirdor_packets_1. -/
theorem wit_nirdor_packets_2 :
    (∀ s ∈ [{ (regs [(pNirdor 15 0 + 0x44, 0xc0280000#32), (pNirdor 15 0 + 0x40, 3#32), (pGlobal + 0x68, 0x80000007#32)] up) with nirdors := [(15, {  })], mesh := [{ dst := .nirdor 15, vc := 0, kind := 2, src := 5#21, tag := 0x3FF#16, seq := 9, ea := 0x40#48, payload := [⟨7#256, true⟩] }] }], populated s 15 = true ∧ transitUp s = true ∧ takeMsg (fun m => m.dst = .nirdor 15 && !m.isAck && m.vc = 0 && (if portWaits s 15 0 then m.waiting else m.src = 5#21)) [] s.mesh = some ([], { dst := .nirdor 15, vc := 0, kind := 2, src := 5#21, tag := 0x3FF#16, seq := 9, ea := 0x40#48, payload := [⟨7#256, true⟩] }, []) ∧ expValid s 15 1023 = false) := by decide +kernel

/-- Further clauses of the same statement as wit_nirdor_packets_1. -/
theorem wit_nirdor_packets_3 :
    (∀ s ∈ [{ (regs [(pNirdor 15 0 + 0x44, 0xc0280000#32), (pNirdor 15 0 + 0x40, 3#32), (pGlobal + 0x68, 0x80000007#32)] up) with nirdors := [(15, { exp := [(8184, 0xcbc00fff#32), (8185, 0x12340005#32), (8186, 0xFFFFFFE0#32), (8187, 0x01000001#32), (8188, 0x0000FFFF#32)] })], mesh := [{ dst := .nirdor 15, vc := 0, kind := 2, src := 5#21, tag := 0x3FF#16, seq := 9, ea := 0x40#48, payload := [⟨7#256, true⟩] }] }], takeMsg (fun m => m.dst = .nirdor 15 && !m.isAck && m.vc = 0 && (if portWaits s 15 0 then m.waiting else m.src = 5#21)) [] s.mesh = some ([], { dst := .nirdor 15, vc := 0, kind := 2, src := 5#21, tag := 0x3FF#16, seq := 9, ea := 0x40#48, payload := [⟨7#256, true⟩] }, []) ∧ expValid s 15 1023 = true ∧ getF (expW s 15 1023 3) 31 24 ≤ (65536 + expNext s 15 1023 - expDone s 15 1023) % 65536) := by decide +kernel

/-- Further clauses of the same statement as wit_nirdor_packets_1. -/
theorem wit_nirdor_packets_4 :
    (∀ s ∈ [{ (regs [(pNirdor 15 0 + 0x44, 0xc0280000#32), (pNirdor 15 0 + 0x40, 3#32), (pGlobal + 0x68, 0x80000007#32), (pNirdor 0 0 + 0x44, 0xC0280000#32)] up) with nirdors := [(15, { exp := [(8184, 0xcbc00fff#32), (8185, 0x12340005#32), (8186, 0xFFFFFFE0#32), (8187, 0x10000001#32), (8188, 0xFFFFFFFF#32)] })], relay := [(0x1234, 0x8001#32), (0x55, 0x8000#32)], mesh := [{ dst := .nirdor 15, vc := 0, kind := 2, src := reelSrc 0, tag := 0x3FF#16, seq := 9, ea := 0x40#48, payload := [⟨7#256, true⟩] }] }], populated s 15 = true ∧ transitUp s = true ∧ takeMsg (fun m => m.dst = .nirdor 15 && !m.isAck && m.vc = 0 && (if portWaits s 15 0 then m.waiting else m.src = reelSrc 0)) [] s.mesh = some ([], { dst := .nirdor 15, vc := 0, kind := 2, src := reelSrc 0, tag := 0x3FF#16, seq := 9, ea := 0x40#48, payload := [⟨7#256, true⟩] }, []) ∧ expValid s 15 1023 = true ∧ (65536 + expNext s 15 1023 - expDone s 15 1023) % 65536 < getF (expW s 15 1023 3) 31 24 ∧ 1023 ∉ (s.nir 15).expLost ∧ (0x1234 : Nat) ≠ engineNumber s ∧ candidates s 0x1234 = [0, 15] ∧ nth 0 (candidates s 0x1234) ((expNext s 15 1023 + 0xFFF) % 2) = 0 ∧ linkState s 0 = 3 ∧ (s.nir 0).tx = [] ∧ (s.nir 0).transit = [] ∧ (s.nir 0).swap = false ∧ (s.nir 0).replay.length < 4096 ∧ (reelSrc 0).toNat % 2048 = 0x7FF) := by decide +kernel

/-- Further clauses of the same statement as wit_nirdor_packets_1. -/
theorem wit_nirdor_packets_5 :
    (∀ s ∈ [{ (regs [(pNirdor 15 0 + 0x44, 0xc0280000#32), (pNirdor 15 0 + 0x40, 3#32), (pGlobal + 0x68, 0x80000007#32), (pNirdor 0 0 + 0x44, 0xC0280000#32)] up) with nirdors := [(15, { exp := [(8184, 0xcfc00fff#32), (8185, 0x12340005#32), (8186, 0xFFFFFFE0#32), (8187, 0x10000001#32), (8188, 0xFFFFFFFF#32)] })], relay := [(0x1234, 0x8001#32), (0x55, 0x8000#32)], mesh := [{ dst := .nirdor 15, vc := 0, kind := 2, src := 5#21, tag := 0x3FF#16, seq := 9, ea := 0x40#48, payload := [⟨7#256, true⟩] }] }], populated s 15 = true ∧ transitUp s = true ∧ takeMsg (fun m => m.dst = .nirdor 15 && !m.isAck && m.vc = 0 && (if portWaits s 15 0 then m.waiting else m.src = 5#21)) [] s.mesh = some ([], { dst := .nirdor 15, vc := 0, kind := 2, src := 5#21, tag := 0x3FF#16, seq := 9, ea := 0x40#48, payload := [⟨7#256, true⟩] }, []) ∧ expValid s 15 1023 = true ∧ (65536 + expNext s 15 1023 - expDone s 15 1023) % 65536 < getF (expW s 15 1023 3) 31 24 ∧ 1023 ∉ (s.nir 15).expLost ∧ (0x1234 : Nat) ≠ engineNumber s ∧ candidates s 0x1234 = [0, 15] ∧ nth 0 (candidates s 0x1234) ((expNext s 15 1023 + 0xFFF) % 2) = 0 ∧ linkState s 0 = 3 ∧ (s.nir 0).tx = [] ∧ (s.nir 0).transit = [] ∧ (s.nir 0).swap = false ∧ (s.nir 0).replay.length < 4096 ∧ (5#21).toNat % 2048 ≠ 0x7FF) := by decide +kernel

/-- Further clauses of the same statement as wit_nirdor_packets_1. -/
theorem wit_nirdor_packets_6 :
    (∀ s ∈ [{ (regs [(pNirdor 15 0 + 0x44, 0xc0280000#32), (pNirdor 15 0 + 0x40, 3#32), (pGlobal + 0x68, 0x80000007#32), (pNirdor 0 0 + 0x44, 0#32)] up) with nirdors := [(15, { arrived := [{ destEngine := 0x1234, srcEngine := 9, via := 0xFFFF, flowSeq := 1, hops := 31, payload := [⟨5#256, true⟩] }] })] }], (takeArrived s 15 (fun k => k.destEngine != engineNumber s)).map (·.1) = some ({ destEngine := 0x1234, srcEngine := 9, via := 0xFFFF, flowSeq := 1, hops := 31, payload := [⟨5#256, true⟩] }) ∧ s.bget (pRing + 0x40) 0 = false ∧ candidates s 0x1234 = []) := by decide +kernel

/-- Further clauses of the same statement as wit_nirdor_packets_1. -/
theorem wit_nirdor_packets_7 :
    (∀ s ∈ [{ (regs [(pNirdor 15 0 + 0x44, 0xc0280000#32), (pNirdor 15 0 + 0x40, 3#32), (pGlobal + 0x68, 0x80000007#32), (pNirdor 0 0 + 0x44, 0xC0280000#32)] up) with nirdors := [(15, { arrived := [{ destEngine := 0x1234, srcEngine := 9, via := 0x55, flowSeq := 1, hops := 30, payload := [⟨5#256, true⟩] }] })], relay := [(0x1234, 0x8001#32), (0x55, 0x8000#32)] }], (takeArrived s 15 (fun k => k.destEngine != engineNumber s)).map (·.1) = some ({ destEngine := 0x1234, srcEngine := 9, via := 0x55, flowSeq := 1, hops := 30, payload := [⟨5#256, true⟩] }) ∧ candidates s 0x55 = [15] ∧ linkState s 15 = 3 ∧ (s.nir 15).tx = [] ∧ (s.nir 15).transit = [] ∧ (s.nir 15).swap = false ∧ (s.nir 15).replay.length < 4096) := by decide +kernel

/-- Further clauses of the same statement as wit_nirdor_packets_1. -/
theorem wit_nirdor_packets_8 :
    (∀ s ∈ [{ (regs [(pNirdor 15 0 + 0x44, 0xc0280000#32), (pNirdor 15 0 + 0x40, 3#32), (pGlobal + 0x68, 0x80000007#32), (pNirdor 0 0 + 0x44, 0xC0280000#32)] up) with nirdors := [(15, { arrived := [{ destEngine := 0x1234, srcEngine := 9, via := 7, flowSeq := 1, hops := 30, payload := [⟨5#256, true⟩] }] })], relay := [(0x1234, 0x8001#32), (0x55, 0x8000#32)] }], (takeArrived s 15 (fun k => k.destEngine != engineNumber s)).map (·.1) = some ({ destEngine := 0x1234, srcEngine := 9, via := 7, flowSeq := 1, hops := 30, payload := [⟨5#256, true⟩] }) ∧ engineNumber s = 7 ∧ candidates s 0x1234 = [0, 15] ∧ nth 0 (candidates s 0x1234) (1 % 2) = 15 ∧ linkState s 15 = 3 ∧ (s.nir 15).tx = [] ∧ (s.nir 15).transit = [] ∧ (s.nir 15).swap = false ∧ (s.nir 15).replay.length < 4096) := by decide +kernel

/-- NirdorFlowsDeliverInOrder, at the last port and its last entries: a packet of the wrong engine, of another attempt, 256 ahead,
      next in order, 255 ahead and unordered,
      and ahead and ordered; the next packet delivered to the end of a bobbin; a credit sent for progress and for a packet that waits,
      one moving forward, one back and one for an absent port; an acknowledgement sent, to another engine and for a packet of its own,
      and received; the three losses; entry writes, also of a scoped entry during a run. -/
theorem wit_nirdor_flows_1 :
    (∀ s ∈ [{ (regs [(pNirdor 15 0 + 0x44, 0xc0280000#32), (pNirdor 15 0 + 0x40, 3#32), (pGlobal + 0x68, 0x80000007#32)] up) with nirdors := [(15, { imp := [(8190, 0x80000008#32), (8191, 0xffff0000#32)], arrived := [{ destEngine := 7, srcEngine := 9, flowSeq := 65535, orderKey := 4095, attempt := 0, destPort := 15, pkind := 2, ordered := true, ea := 0x8FFFFFFE0#48, tag := 3#16, payload := [⟨5#256, true⟩] }] })] }], (takeArrived s 15 (fun k => k.destEngine = engineNumber s && k.pkind != 4 && k.pkind != 5)).map (·.1) = some ({ destEngine := 7, srcEngine := 9, flowSeq := 65535, orderKey := 4095, attempt := 0, destPort := 15, pkind := 2, ordered := true, ea := 0x8FFFFFFE0#48, tag := 3#16, payload := [⟨5#256, true⟩] }) ∧ engineNumber s = 7 ∧ populated s 15 = true ∧ ¬ (getB (impW s 15 4095 0) 31 = true ∧ getF (impW s 15 4095 0) 15 0 = 9)) := by decide +kernel

/-- Further clauses of the same statement as wit_nirdor_flows_1. -/
theorem wit_nirdor_flows_2 :
    (∀ s ∈ [{ (regs [(pNirdor 15 0 + 0x44, 0xc0280000#32), (pNirdor 15 0 + 0x40, 3#32), (pGlobal + 0x68, 0x80000007#32)] up) with nirdors := [(15, { imp := [(8190, 0xa0000009#32), (8191, 0xffff0000#32)], arrived := [{ destEngine := 7, srcEngine := 9, flowSeq := 65535, orderKey := 4095, attempt := 1, destPort := 15, pkind := 2, ordered := true, ea := 0x8FFFFFFE0#48, tag := 3#16, payload := [⟨5#256, true⟩] }] })] }], (takeArrived s 15 (fun k => k.destEngine = engineNumber s && k.pkind != 4 && k.pkind != 5)).map (·.1) = some ({ destEngine := 7, srcEngine := 9, flowSeq := 65535, orderKey := 4095, attempt := 1, destPort := 15, pkind := 2, ordered := true, ea := 0x8FFFFFFE0#48, tag := 3#16, payload := [⟨5#256, true⟩] }) ∧ engineNumber s = 7 ∧ populated s 15 = true ∧ getB (impW s 15 4095 0) 31 = true ∧ getF (impW s 15 4095 0) 15 0 = 9 ∧ impRun s 15 4095 = true ∧ (1 : Nat) ≠ (s.reg (pRun + 0x44)).toNat % 16) := by decide +kernel

/-- Further clauses of the same statement as wit_nirdor_flows_1. -/
theorem wit_nirdor_flows_3 :
    (∀ s ∈ [{ (regs [(pNirdor 15 0 + 0x44, 0xc0280000#32), (pNirdor 15 0 + 0x40, 3#32), (pGlobal + 0x68, 0x80000007#32)] up) with nirdors := [(15, { imp := [(8190, 0x80000009#32), (8191, 0xffff0000#32)], arrived := [{ destEngine := 7, srcEngine := 9, flowSeq := 255, orderKey := 4095, attempt := 0, destPort := 15, pkind := 2, ordered := false, ea := 0x8FFFFFFE0#48, tag := 3#16, payload := [⟨5#256, true⟩] }] })] }], (takeArrived s 15 (fun k => k.destEngine = engineNumber s && k.pkind != 4 && k.pkind != 5)).map (·.1) = some ({ destEngine := 7, srcEngine := 9, flowSeq := 255, orderKey := 4095, attempt := 0, destPort := 15, pkind := 2, ordered := false, ea := 0x8FFFFFFE0#48, tag := 3#16, payload := [⟨5#256, true⟩] }) ∧ engineNumber s = 7 ∧ populated s 15 = true ∧ getB (impW s 15 4095 0) 31 = true ∧ getF (impW s 15 4095 0) 15 0 = 9 ∧ impRun s 15 4095 = false ∧ (65536 + ({ destEngine := 7, srcEngine := 9, flowSeq := 255, orderKey := 4095, attempt := 0, destPort := 15, pkind := 2, ordered := false, ea := 0x8FFFFFFE0#48, tag := 3#16, payload := [⟨5#256, true⟩] } : Packet).flowSeq - impNext s 15 4095) % 65536 = 256) := by decide +kernel

/-- Further clauses of the same statement as wit_nirdor_flows_1. -/
theorem wit_nirdor_flows_4 :
    (∀ s ∈ [{ (regs [(pNirdor 15 0 + 0x44, 0xc0280000#32), (pNirdor 15 0 + 0x40, 3#32), (pGlobal + 0x68, 0x80000007#32)] up) with nirdors := [(15, { imp := [(8190, 0xa0000009#32), (8191, 0xffff0000#32)], arrived := [{ destEngine := 7, srcEngine := 9, flowSeq := 65535, orderKey := 4095, attempt := 0, destPort := 15, pkind := 2, ordered := true, ea := 0x8FFFFFFE0#48, tag := 3#16, payload := [⟨5#256, true⟩] }], seen := [(4095, [0])] })] }], (takeArrived s 15 (fun k => k.destEngine = engineNumber s && k.pkind != 4 && k.pkind != 5)).map (·.1) = some ({ destEngine := 7, srcEngine := 9, flowSeq := 65535, orderKey := 4095, attempt := 0, destPort := 15, pkind := 2, ordered := true, ea := 0x8FFFFFFE0#48, tag := 3#16, payload := [⟨5#256, true⟩] }) ∧ engineNumber s = 7 ∧ populated s 15 = true ∧ getB (impW s 15 4095 0) 31 = true ∧ getF (impW s 15 4095 0) 15 0 = 9 ∧ (0 : Nat) = (s.reg (pRun + 0x44)).toNat % 16 ∧ (65536 + ({ destEngine := 7, srcEngine := 9, flowSeq := 65535, orderKey := 4095, attempt := 0, destPort := 15, pkind := 2, ordered := true, ea := 0x8FFFFFFE0#48, tag := 3#16, payload := [⟨5#256, true⟩] } : Packet).flowSeq - impNext s 15 4095) % 65536 = 0 ∧ 65535 ∉ SMap.get (fun _ => []) (s.nir 15).seen 4095) := by decide +kernel

/-- Further clauses of the same statement as wit_nirdor_flows_1. -/
theorem wit_nirdor_flows_5 :
    (∀ s ∈ [{ (regs [(pNirdor 15 0 + 0x44, 0xc0280000#32), (pNirdor 15 0 + 0x40, 3#32), (pGlobal + 0x68, 0x80000007#32)] up) with nirdors := [(15, { imp := [(8190, 0x80000009#32), (8191, 0xffff0000#32)], arrived := [{ destEngine := 7, srcEngine := 9, flowSeq := 254, orderKey := 4095, attempt := 0, destPort := 15, pkind := 2, ordered := false, ea := 0x8FFFFFFE0#48, tag := 3#16, payload := [⟨5#256, true⟩] }] })] }], (takeArrived s 15 (fun k => k.destEngine = engineNumber s && k.pkind != 4 && k.pkind != 5)).map (·.1) = some ({ destEngine := 7, srcEngine := 9, flowSeq := 254, orderKey := 4095, attempt := 0, destPort := 15, pkind := 2, ordered := false, ea := 0x8FFFFFFE0#48, tag := 3#16, payload := [⟨5#256, true⟩] }) ∧ engineNumber s = 7 ∧ populated s 15 = true ∧ getB (impW s 15 4095 0) 31 = true ∧ getF (impW s 15 4095 0) 15 0 = 9 ∧ (65536 + ({ destEngine := 7, srcEngine := 9, flowSeq := 254, orderKey := 4095, attempt := 0, destPort := 15, pkind := 2, ordered := false, ea := 0x8FFFFFFE0#48, tag := 3#16, payload := [⟨5#256, true⟩] } : Packet).flowSeq - impNext s 15 4095) % 65536 = 255) := by decide +kernel

/-- Further clauses of the same statement as wit_nirdor_flows_1. -/
theorem wit_nirdor_flows_6 :
    (∀ s ∈ [{ (regs [(pNirdor 15 0 + 0x44, 0xc0280000#32), (pNirdor 15 0 + 0x40, 3#32), (pGlobal + 0x68, 0x80000007#32)] up) with nirdors := [(15, { imp := [(8190, 0x80000009#32), (8191, 0xffff0000#32)], arrived := [{ destEngine := 7, srcEngine := 9, flowSeq := 254, orderKey := 4095, attempt := 0, destPort := 15, pkind := 2, ordered := true, ea := 0x8FFFFFFE0#48, tag := 3#16, payload := [⟨5#256, true⟩] }] })] }], (takeArrived s 15 (fun k => k.destEngine = engineNumber s && k.pkind != 4 && k.pkind != 5)).map (·.1) = some ({ destEngine := 7, srcEngine := 9, flowSeq := 254, orderKey := 4095, attempt := 0, destPort := 15, pkind := 2, ordered := true, ea := 0x8FFFFFFE0#48, tag := 3#16, payload := [⟨5#256, true⟩] }) ∧ engineNumber s = 7 ∧ populated s 15 = true ∧ getB (impW s 15 4095 0) 31 = true ∧ getF (impW s 15 4095 0) 15 0 = 9 ∧ (65536 + ({ destEngine := 7, srcEngine := 9, flowSeq := 254, orderKey := 4095, attempt := 0, destPort := 15, pkind := 2, ordered := true, ea := 0x8FFFFFFE0#48, tag := 3#16, payload := [⟨5#256, true⟩] } : Packet).flowSeq - impNext s 15 4095) % 65536 = 255) := by decide +kernel

/-- Further clauses of the same statement as wit_nirdor_flows_1. -/
theorem wit_nirdor_flows_7 :
    (∀ s ∈ [{ (regs [(pNirdor 15 0 + 0x44, 0xc0280000#32), (pNirdor 15 0 + 0x40, 3#32), (pGlobal + 0x68, 0x80000007#32)] up) with nirdors := [(15, { rx := [{ destEngine := 7, srcEngine := 9, flowSeq := 65535, orderKey := 4095, destPort := 15, pkind := 2, ea := 0x8FFFFFFE0#48, tag := 3#16, payload := [⟨5#256, true⟩] }], seen := [(4095, [65535])], imp := [(8190, 0x80000009#32), (8191, 0xffff0000#32)] })] }], (s.nir 15).rx = [{ destEngine := 7, srcEngine := 9, flowSeq := 65535, orderKey := 4095, destPort := 15, pkind := 2, ea := 0x8FFFFFFE0#48, tag := 3#16, payload := [⟨5#256, true⟩] }] ∧ (s.nir 15).impLost = [] ∧ (s.nir 15).held = [] ∧ impNext s 15 4095 = 65535 ∧ SMap.get (fun _ => []) (s.nir 15).seen 4095 = [65535] ∧ mappedLines s none 0x8FFFFFFE0 1 = true ∧ unitOut s 0x8FFFFFFE0 1 = none ∧ s.links = [] ∧ ∀ fm ∈ s.maps, fm.2.fail = false) := by decide +kernel

/-- Further clauses of the same statement as wit_nirdor_flows_1. -/
theorem wit_nirdor_flows_8 :
    (∀ s ∈ [{ (regs [(pNirdor 15 0 + 0x44, 0xc0280000#32), (pNirdor 15 0 + 0x40, 3#32), (pGlobal + 0x68, 0x80000007#32)] up) with nirdors := [(15, { flows := [(4095, some { destEngine := 7, srcEngine := 9, flowSeq := 5, orderKey := 4095, srcPort := 3, srcExport := 8, payload := [] })], imp := [(8190, 0x80000009#32), (8191, 0x60000#32)] })] }], SMap.get (fun _ => none) (s.nir 15).flows 4095 = some { destEngine := 7, srcEngine := 9, flowSeq := 5, orderKey := 4095, srcPort := 3, srcExport := 8, payload := [] } ∧ impNext s 15 4095 ≠ SMap.get (fun _ => 0) (s.nir 15).reported 4095) := by decide +kernel

/-- Further clauses of the same statement as wit_nirdor_flows_1. -/
theorem wit_nirdor_flows_9 :
    (∀ s ∈ [{ (regs [(pNirdor 15 0 + 0x44, 0xc0280000#32), (pNirdor 15 0 + 0x40, 3#32), (pGlobal + 0x68, 0x80000007#32)] up) with nirdors := [(15, { flows := [(4095, some { destEngine := 7, srcEngine := 9, flowSeq := 5, orderKey := 4095, srcPort := 3, srcExport := 8, payload := [] })], reported := [(4095, 6)], held := [(4095, { destEngine := 7, srcEngine := 9, flowSeq := 5, orderKey := 4095, srcPort := 3, srcExport := 8, payload := [] })], imp := [(8190, 0x80000009#32), (8191, 0x60000#32)] })] }], SMap.get (fun _ => none) (s.nir 15).flows 4095 = some { destEngine := 7, srcEngine := 9, flowSeq := 5, orderKey := 4095, srcPort := 3, srcExport := 8, payload := [] } ∧ impNext s 15 4095 = SMap.get (fun _ => 0) (s.nir 15).reported 4095 ∧ (∃ h ∈ (s.nir 15).held, h.1 = 4095)) := by decide +kernel

/-- Further clauses of the same statement as wit_nirdor_flows_1. -/
theorem wit_nirdor_flows_10 :
    (∀ s ∈ [{ (regs [(pNirdor 15 0 + 0x44, 0xc0280000#32), (pNirdor 15 0 + 0x40, 3#32), (pGlobal + 0x68, 0x80000007#32)] up) with nirdors := [(15, { arrived := [{ destEngine := 7, srcEngine := 9, destPort := 15, srcExport := 1023, pkind := 5, arg := 0#32 }], exp := [(8184, 0xcbc00fff#32), (8185, 0x12340005#32), (8186, 0xFFFFFFE0#32), (8187, 0x10000001#32), (8188, 0xFFFFFFFF#32)] })] }], (takeArrived s 15 (fun k => k.destEngine = engineNumber s && k.pkind = 5)).map (·.1) = some ({ destEngine := 7, srcEngine := 9, destPort := 15, srcExport := 1023, pkind := 5, arg := 0#32 }) ∧ (65536 + 0 - expDone s 15 1023) % 65536 < 32768) := by decide +kernel

/-- Further clauses of the same statement as wit_nirdor_flows_1. -/
theorem wit_nirdor_flows_11 :
    (∀ s ∈ [{ (regs [(pNirdor 15 0 + 0x44, 0xc0280000#32), (pNirdor 15 0 + 0x40, 3#32), (pGlobal + 0x68, 0x80000007#32)] up) with nirdors := [(15, { arrived := [{ destEngine := 7, srcEngine := 9, destPort := 15, srcExport := 1023, pkind := 5, arg := 32767#32 }], exp := [(8184, 0xcbc00fff#32), (8185, 0x12340005#32), (8186, 0xFFFFFFE0#32), (8187, 0x10000001#32), (8188, 0xFFFFFFFF#32)] })] }], (takeArrived s 15 (fun k => k.destEngine = engineNumber s && k.pkind = 5)).map (·.1) = some ({ destEngine := 7, srcEngine := 9, destPort := 15, srcExport := 1023, pkind := 5, arg := 32767#32 }) ∧ (65536 + 32767 - expDone s 15 1023) % 65536 ≥ 32768) := by decide +kernel

/-- Further clauses of the same statement as wit_nirdor_flows_1. -/
theorem wit_nirdor_flows_12 :
    (∀ s ∈ [{ (regs [(pNirdor 15 0 + 0x44, 0xc0280000#32), (pNirdor 15 0 + 0x40, 3#32), (pGlobal + 0x68, 0x80000007#32)] { up with fuses := { grade := 3 } }) with nirdors := [(15, { arrived := [{ destEngine := 7, srcEngine := 9, destPort := 3, srcExport := 1023, pkind := 5, arg := 0#32 }], exp := [(8184, 0xcbc00fff#32), (8185, 0x12340005#32), (8186, 0xFFFFFFE0#32), (8187, 0x10000001#32), (8188, 0xFFFFFFFF#32)] })] }], (takeArrived s 15 (fun k => k.destEngine = engineNumber s && k.pkind = 5)).map (·.1) = some ({ destEngine := 7, srcEngine := 9, destPort := 3, srcExport := 1023, pkind := 5, arg := 0#32 }) ∧ populated s 3 = false) := by decide +kernel

/-- Further clauses of the same statement as wit_nirdor_flows_1. -/
theorem wit_nirdor_flows_13 :
    (∀ s ∈ [{ (regs [(pNirdor 15 0 + 0x44, 0xc0280000#32), (pNirdor 15 0 + 0x40, 3#32), (pGlobal + 0x68, 0x80000007#32)] up) with nirdors := [(15, { slots := [(254, { destEngine := 7, srcEngine := 9, flowSeq := 5, orderKey := 4095, srcPort := 3, srcExport := 8, payload := [] })] })], mesh := [{ dst := .nirdor 15, vc := 2, isAck := true, src := bankSrc 0, seq := 254, arg := 1#32 }] }], s.mesh = [{ dst := .nirdor 15, vc := 2, isAck := true, src := bankSrc 0, seq := 254, arg := 1#32 }] ∧ (s.nir 15).slots.find? (fun k => k.1 = 254) = some (254, { destEngine := 7, srcEngine := 9, flowSeq := 5, orderKey := 4095, srcPort := 3, srcExport := 8, payload := [] }) ∧ ownRecord s { destEngine := 7, srcEngine := 9, flowSeq := 5, orderKey := 4095, srcPort := 3, srcExport := 8, payload := [] } = none) := by decide +kernel

/-- Further clauses of the same statement as wit_nirdor_flows_1. -/
theorem wit_nirdor_flows_14 :
    (∀ s ∈ [{ (regs [(pNirdor 15 0 + 0x44, 0xc0280000#32), (pNirdor 15 0 + 0x40, 3#32), (pGlobal + 0x68, 0x80000007#32)] up) with nirdors := [(15, { slots := [(254, { destEngine := 7, srcEngine := 7, flowSeq := 5, orderKey := 4095, srcPort := 15, srcExport := 8, srcSid := 5#21, payload := [] })], sends := [⟨8, 5, 5#21, 6#16, 0, 0x20#48⟩] })], mesh := [{ dst := .nirdor 15, vc := 2, isAck := true, src := bankSrc 0, seq := 254, arg := 1#32 }] }], s.mesh = [{ dst := .nirdor 15, vc := 2, isAck := true, src := bankSrc 0, seq := 254, arg := 1#32 }] ∧ (s.nir 15).slots.find? (fun k => k.1 = 254) = some (254, { destEngine := 7, srcEngine := 7, flowSeq := 5, orderKey := 4095, srcPort := 15, srcExport := 8, srcSid := 5#21, payload := [] }) ∧ ownRecord s { destEngine := 7, srcEngine := 7, flowSeq := 5, orderKey := 4095, srcPort := 15, srcExport := 8, srcSid := 5#21, payload := [] } ≠ none) := by decide +kernel

/-- Further clauses of the same statement as wit_nirdor_flows_1. -/
theorem wit_nirdor_flows_15 :
    (∀ s ∈ [{ (regs [(pNirdor 15 0 + 0x44, 0xc0280000#32), (pNirdor 15 0 + 0x40, 3#32), (pGlobal + 0x68, 0x80000007#32)] up) with nirdors := [(15, { slots := [(254, { destEngine := 7, srcEngine := 9, flowSeq := 5, orderKey := 4095, srcPort := 3, srcExport := 8, payload := [] })] })], mesh := [{ dst := .nirdor 15, vc := 2, isAck := true, src := bankSrc 0, seq := 254, arg := 1#32 }] }], s.mesh = [{ dst := .nirdor 15, vc := 2, isAck := true, src := bankSrc 0, seq := 254, arg := 1#32 }] ∧ (∀ m ∈ s.mesh, m.waiting = false) ∧ (s.nir 15).slots.find? (fun k => k.1 = 254) = some (254, { destEngine := 7, srcEngine := 9, flowSeq := 5, orderKey := 4095, srcPort := 3, srcExport := 8, payload := [] })) := by decide +kernel

/-- Further clauses of the same statement as wit_nirdor_flows_1. -/
theorem wit_nirdor_flows_16 :
    (∀ s ∈ [{ (regs [(pNirdor 15 0 + 0x44, 0xc0280000#32), (pNirdor 15 0 + 0x40, 3#32), (pGlobal + 0x68, 0x80000007#32)] up) with nirdors := [(15, { arrived := [{ destEngine := 7, srcEngine := 9, destPort := 15, srcExport := 1023, pkind := 4, srcSid := reelSrc 0, tag := 6#16, ea := 0x20#48, seq := 9, arg := 1#32 }], sends := [⟨1023, 4, reelSrc 0, 6#16, 9, 0x20#48⟩] })] }], (takeArrived s 15 (fun k => k.destEngine = engineNumber s && k.pkind = 4)).map (·.1) = some ({ destEngine := 7, srcEngine := 9, destPort := 15, srcExport := 1023, pkind := 4, srcSid := reelSrc 0, tag := 6#16, ea := 0x20#48, seq := 9, arg := 1#32 }) ∧ (s.nir 15).sends.find? (fun r => r.exp = 1023 && r.src = reelSrc 0 && r.tag = 6#16 && r.seq = 9 && r.cookie = 0x20#48) = some ⟨1023, 4, reelSrc 0, 6#16, 9, 0x20#48⟩ ∧ (reelSrc 0).toNat % 2048 = 0x7FF ∧ (codeDest ((reelSrc 0).toNat / 2048)).isSome = true ∧ s.links = [] ∧ ∀ fm ∈ s.maps, fm.2.fail = false) := by decide +kernel

/-- Further clauses of the same statement as wit_nirdor_flows_1. -/
theorem wit_nirdor_flows_17 :
    (∀ s ∈ [{ (regs [(pNirdor 15 0 + 0x44, 0xc0280000#32), (pNirdor 15 0 + 0x40, 3#32), (pGlobal + 0x68, 0x80000007#32), (pNirdor 15 0 + 0x4C, 1#32)] up) with nirdors := [(15, { seen := [(4095, [1])], imp := [(8190, 0x80000009#32), (8191, 0x0#32)] })] }], s.fget (pNirdor 15 0 + 0x4C) 15 0 ≠ 0 ∧ s.running = false ∧ gapAt s 15 4095 = true ∧ 4095 ∉ (s.nir 15).impLost ∧ populated s 15 = true ∧ s.bget (pNirdor 15 0 + 0x50) 31 = false) := by decide +kernel

/-- Further clauses of the same statement as wit_nirdor_flows_1. -/
theorem wit_nirdor_flows_18 :
    (∀ s ∈ [{ (regs [(pNirdor 15 0 + 0x44, 0xc0280000#32), (pNirdor 15 0 + 0x40, 3#32), (pGlobal + 0x68, 0x80000007#32), (pNirdor 15 0 + 0x4C, 1#32)] up) with nirdors := [(15, { exp := [(8188, 0x00010000#32)], sends := [⟨1023, 4, reelSrc 0, 6#16, 9, 0x20#48⟩] })] }], s.fget (pNirdor 15 0 + 0x4C) 15 0 ≠ 0 ∧ expNext s 15 1023 ≠ expDone s 15 1023 ∧ 1023 ∉ (s.nir 15).expLost ∧ answered s 15 2 1023 = false ∧ answered s 15 3 1023 = false ∧ (∃ r ∈ (s.nir 15).sends, r.exp = 1023) ∧ 1023 ∉ (s.nir 15).expLost ∧ populated s 15 = true ∧ s.running = false ∧ s.bget (pNirdor 15 0 + 0x50) 31 = false) := by decide +kernel

/-- Further clauses of the same statement as wit_nirdor_flows_1. -/
theorem wit_nirdor_flows_19 :
    (∀ s ∈ [{ (regs [(pNirdor 15 0 + 0x44, 0xc0280000#32), (pNirdor 15 0 + 0x40, 3#32), (pGlobal + 0x68, 0x80000007#32), (pNirdor 15 0 + 0xA0, 1023#32), (pNirdor 15 0 + 0xA4, 4095#32)] up) with nirdors := [(15, { exp := [(8184, 0xcbc00fff#32), (8185, 0x12340005#32), (8186, 0xFFFFFFE0#32), (8187, 0x10000001#32), (8188, 0xFFFFFFFF#32)], imp := [(8190, 0x80000009#32), (8191, 0xffff0000#32)] })] }], 2 ≤ s.readyState (pNirdor 15 0) ∧ s.running = false ∧ s.fget (pNirdor 15 0 + 0xA0) 9 0 = 1023 ∧ s.fget (pNirdor 15 0 + 0xA4) 11 0 = 4095) := by decide +kernel

/-- Further clauses of the same statement as wit_nirdor_flows_1. -/
theorem wit_nirdor_flows_20 :
    (∀ s ∈ [{ (regs [(pNirdor 15 0 + 0x44, 0xc0280000#32), (pNirdor 15 0 + 0x40, 3#32), (pGlobal + 0x68, 0x80000007#32), (pRun + 0x40, 3#32), (pNirdor 15 0 + 0xA4, 4095#32)] up) with nirdors := [(15, { exp := [(8184, 0xcbc00fff#32), (8185, 0x12340005#32), (8186, 0xFFFFFFE0#32), (8187, 0x10000001#32), (8188, 0xFFFFFFFF#32)], imp := [(8190, 0xa0000009#32), (8191, 0xffff0000#32)] })] }], 2 ≤ s.readyState (pNirdor 15 0) ∧ s.running = true ∧ s.fget (pNirdor 15 0 + 0xA4) 11 0 = 4095 ∧ impRun s 15 4095 = true) := by decide +kernel

/-- ClocksSwitchAndTick: the XO and a recovered clock lost and out of range, and the clock that a switch leaves lost; the XO armed,
      lost and requalified; REF_SEL written during a switch and outside one,
      the same value too; the last port eligible; planned and forced switches to each source; RELOCKED with and without a waiting write; a divider; the last tick; loads just ahead, half way, and at the present. -/
theorem wit_clocks_1 :
    (∀ s ∈ [{ (regs [(pClock + 0x44, 0x59000000#32)] up) with clocks := {  } }], curSource s = .xo ∧ refSel s = false ∧ xoArmed s = true) ∧
    (∀ s ∈ [{ (regs [(pClock + 0x44, 0x5af00000#32), (pClock + 0x40, 0xf80#32)] up) with clocks := { eligible := true } }],
      curSource s = .port 15 ∧ xoArmed s = true ∧ pageOut s ⟨.clock, pClock, 5, 0, 0⟩ 0x40 = false) ∧
    (∀ s ∈ [{ (regs [(pClock + 0x44, 0xdb000000#32)] up) with clocks := { target := some (.port 3), leaving := .port 15, oldRuns := true } }], curSource s = .none ∧ s.clocks.target = some (.port 3) ∧ s.clocks.leaving = .port 15) ∧
    (∀ s ∈ [{ (regs [(pClock + 0x44, 0x5af00000#32), (pClock + 0x40, 0xf80#32)] up) with clocks := { eligible := true, hadPort := true } }], curSource s = .port 15 ∧ xoArmed s = true) := by decide +kernel

/-- Further clauses of the same statement as wit_clocks_1. -/
theorem wit_clocks_2 :
    (∀ s ∈ [{ (regs [(pClock + 0x44, 0x0#32)] up) with clocks := {  } }], xoArmed s = false ∧ transitUp s = true ∧ curSource s = .none ∧
      refSel s = false ∧ switching s = false) ∧
    (∀ s ∈ [{ (regs [(pClock + 0x44, 0x5b000000#32)] up) with clocks := { target := some .xo } }], switching s = true ∧
      pageOut s ⟨.clock, pClock, 5, 0, 0⟩ 0x40 = false) ∧
    (∀ s ∈ [{ (regs [(pClock + 0x44, 0x59000000#32), (pClock + 0x40, 0xf80#32)] up) with clocks := { fellBack := true, eligible := true, waitSel := some 0#32 } }], switching s = false ∧ pageOut s ⟨.clock, pClock, 5, 0, 0⟩ 0x40 = false ∧ refSel s = true ∧ refPort s = 15) := by decide +kernel

/-- Further clauses of the same statement as wit_clocks_1. -/
theorem wit_clocks_3 :
    (∀ s ∈ [{ (regs [(pClock + 0x44, 0x59000000#32), (pClock + 0x40, 0xf80#32), (pNirdor 15 0 + 0x44, 0xE0000000#32)] up) with clocks := {  } }], refSel s = true ∧ refPort s = 15 ∧ s.bget (pNirdor 15 0 + 0x44) 29 = true ∧ populated s 15 = true ∧ switching s = false ∧ curSource s = .xo ∧ s.clocks.fellBack = false) ∧
    (∀ s ∈ [{ (regs [(pClock + 0x44, 0xc3000000#32)] up) with clocks := { target := some .xo, leaving := .port 15, oldRuns := true } }],
      s.clocks.target = some .xo ∧ s.clocks.oldRuns = true) ∧
    (∀ s ∈ [{ (regs [(pClock + 0x44, 0xc3000000#32)] up) with clocks := { target := some (.port 15), leaving := .xo } }],
      s.clocks.target = some (.port 15) ∧ s.clocks.oldRuns = false) ∧
    (∀ s ∈ [{ (regs [(pClock + 0x44, 0xc1000000#32)] up) with clocks := { relocking := true } }], s.clocks.relocking = true ∧
      s.clocks.target = none ∧ chooseSource s = some (curSource s) ∧ s.clocks.waitSel = none) := by decide +kernel

/-- Further clauses of the same statement as wit_clocks_1. -/
theorem wit_clocks_4 :
    (∀ s ∈ [{ (regs [(pClock + 0x44, 0xc2f00000#32), (pClock + 0x40, 0xf80#32)] up) with clocks := { relocking := true, eligible := true, waitSel := some 0x380#32 } }], s.clocks.relocking = true ∧ s.clocks.target = none ∧ chooseSource s = some (curSource s) ∧ s.clocks.waitSel = some 0x380#32) ∧
    (∀ s ∈ [regs [(pClock + 0x44, 0x59007700#32)] up], s.fget (pClock + 0x44) 10 8 ≠ wantDiv s false ∧
      s.fget (pClock + 0x44) 14 12 ≠ wantDiv s true) ∧
    (∀ s ∈ [regs [(pTb + 0x40, 0xffffffff#32), (pTb + 0x44, 0xffffffff#32), (pTb + 0x50, 0xfffffffe#32), (pTb + 0x54, 0x7fffffff#32)] up],
      transitUp s = true ∧ pageOut s ⟨.timebase, pTb, 7, 0, 0⟩ 0x58 = false ∧
      (let l := (s.reg (pTb + 0x50)).toNat + 2 ^ 32 * (s.reg (pTb + 0x54)).toNat
   (1 ≤ (2 ^ 64 + l - s.tb) % 2 ^ 64 ∧ (2 ^ 64 + l - s.tb) % 2 ^ 64 < 2 ^ 63)) ∧ s.tb = 2 ^ 64 - 1) := by decide +kernel

/-- Further clauses of the same statement as wit_clocks_1. -/
theorem wit_clocks_5 :
    (∀ s ∈ [regs [(pTb + 0x40, 0x5#32), (pTb + 0x44, 0x0#32), (pTb + 0x50, 0x5#32), (pTb + 0x54, 0x0#32)] up], pageOut s ⟨.timebase, pTb,
      7, 0, 0⟩ 0x58 = false ∧ (let l := (s.reg (pTb + 0x50)).toNat + 2 ^ 32 * (s.reg (pTb + 0x54)).toNat
   ¬ (1 ≤ (2 ^ 64 + l - s.tb) % 2 ^ 64 ∧ (2 ^ 64 + l - s.tb) % 2 ^ 64 < 2 ^ 63))) ∧
    (∀ s ∈ [regs [(pTb + 0x40, 0x5#32), (pTb + 0x44, 0x0#32), (pTb + 0x50, 0x6#32), (pTb + 0x54, 0x0#32)] up], pageOut s ⟨.timebase, pTb,
      7, 0, 0⟩ 0x58 = false ∧ (let l := (s.reg (pTb + 0x50)).toNat + 2 ^ 32 * (s.reg (pTb + 0x54)).toNat
   (1 ≤ (2 ^ 64 + l - s.tb) % 2 ^ 64 ∧ (2 ^ 64 + l - s.tb) % 2 ^ 64 < 2 ^ 63))) := by decide +kernel

/-- Further clauses of the same statement as wit_clocks_1. -/
theorem wit_clocks_6 :
    (∀ s ∈ [regs [(pTb + 0x40, 0x5#32), (pTb + 0x44, 0x0#32), (pTb + 0x50, 0x5#32), (pTb + 0x54, 0x80000000#32)] up], pageOut s ⟨.timebase,
      pTb, 7, 0, 0⟩ 0x58 = false ∧ (let l := (s.reg (pTb + 0x50)).toNat + 2 ^ 32 * (s.reg (pTb + 0x54)).toNat
   ¬ (1 ≤ (2 ^ 64 + l - s.tb) % 2 ^ 64 ∧ (2 ^ 64 + l - s.tb) % 2 ^ 64 < 2 ^ 63))) := by decide +kernel

/-- ResetsRestoreTheirScope: each class requested and, where it may be, refused, for the last field; and RESET_DONE of each class. -/
theorem wit_resets_1 :
    (∀ s ∈ [{ (live5 { vregs := [(0, 7#512)], ply := 3 }) with mem := [(0, 5#8)] }], s.inputOn = true ∧ 2 ≤ s.readyState pReset ∧
      fitsB s = true ∧ resetBusy s = false ∧ 1 ≤ s.runState ∧ s.runState ≤ 5 ∧ (s.runState = 5 ∨ ∀ k ∈ s.run.strokes, k.owed = none) ∧
      s.run.ackApplied = false ∧ s.bget (pRun + 0x40) 13 = false) ∧
    (∀ s ∈ [regs [(pRun + 0x88, 0#32), (pRun + 0x8C, 0x80000000#32), (pRun + 0x40, 2#32)] up], s.inputOn = true ∧ 2 ≤ s.readyState pReset ∧
      fitsB s = true ∧ resetBusy s = false ∧ (usesField s 63 && (s.runState = 1 || s.runState = 3 || s.runState = 4)) = false ∧
      usesField s 63 = true) ∧
    (∀ s ∈ [regs [(pRun + 0x88, 0#32), (pRun + 0x8C, 0x80000000#32), (pRun + 0x40, 3#32)] up], s.inputOn = true ∧ 2 ≤ s.readyState pReset ∧
      fitsB s = true ∧ (usesField s 63 && (s.runState = 1 || s.runState = 3 || s.runState = 4)) = true) := by decide +kernel

/-- Further clauses of the same statement as wit_resets_1. -/
theorem wit_resets_2 :
    (∀ s ∈ [regs [(pReset + 0x44, 0x80000100#32)] { (up) with rstSource := 4 }], s.inputOn = true ∧ 2 ≤ s.readyState pReset ∧
      fitsB s = true ∧ resetBusy s = true ∧ s.run.acking = false) ∧
    (∀ s ∈ [up], s.inputOn = true ∧ 2 ≤ s.readyState pReset ∧ fitsB s = true ∧ s.run.acking = false ∧ s.runState = 0) ∧
    (∀ s ∈ [regs [(pReset + 0x44, 0x80000000#32)] { (up) with rstSource := 4 }], fitsB s = true ∧ resetBusy s = true ∧
      s.fget (pReset + 0x44) 9 8 = 0 ∧ s.start = .done) ∧
    (∀ s ∈ [regs [(pReset + 0x44, 0x80000100#32)] { (up) with rstSource := 4 }], fitsB s = true ∧ resetBusy s = true ∧
      s.fget (pReset + 0x44) 9 8 = 1 ∧ s.start = .done) := by decide +kernel

/-- Further clauses of the same statement as wit_resets_1. -/
theorem wit_resets_3 :
    (∀ s ∈ [regs [(pReset + 0x44, 0x8000023f#32), (pField 63 + 0xC, 2#32)] { (up) with rstSource := 4 }], fitsB s = true ∧
      resetBusy s = true ∧ s.fget (pReset + 0x44) 9 8 = 2 ∧ 2 ≤ s.readyState (pField (s.fget (pReset + 0x44) 5 0))) ∧
    (∀ s ∈ [regs [(pReset + 0x44, 0x80000300#32)] { (up) with rstSource := 4 }], fitsB s = true ∧ resetBusy s = true ∧
      s.fget (pReset + 0x44) 9 8 = 3 ∧ s.run.acking = false) := by decide +kernel

/-- StartUpTestsAndMaps: power on, a boot and none, the transit rails, the fuse sheet read, the first field started,
      left out for a FIELD record and for a fuse, a report of no columns that the records forbid and that they ask,
      the end of start-up without columns and with all, and a trial confirmed. -/
theorem wit_startup_1 :
    (∀ s ∈ [{ State.reset with start := .off }], s.inputOn = true ∧ s.start = .off) ∧
    (∀ s ∈ [State.reset], s.inputOn = true ∧ s.start = .booting ∧ s.belfry.trial = none ∧
      slotOk s (slotOf? s.belfry s.belfry.preferred) = true) ∧
    (∀ s ∈ [{ State.reset with start := .belfryUp }], s.inputOn = true ∧ s.start = .belfryUp) ∧
    (∀ s ∈ [regs [(pClock + 0x44, 0x1C004400#32)] { State.reset with start := .transitOn }], s.start = .transitOn ∧
      s.fget (pClock + 0x44) 28 27 = 3 ∧ s.fuses.ok = true) := by decide +kernel

/-- Further clauses of the same statement as wit_startup_1. -/
theorem wit_startup_2 :
    (∀ s ∈ [regs [(pClock + 0x44, 0x1C004400#32)] { State.reset with start := .transitOn, fuses := { ok := false } }],
      s.start = .transitOn ∧ s.fget (pClock + 0x44) 28 27 = 3 ∧ s.fuses.ok = false) ∧
    (∀ s ∈ [regs [(pMbox 0 + 0x40, 0x80000000#32), (pFuse + 0x4C, 7#32)] { State.reset with start := .testing }],
      testOrder.find? (fun f => s.readyState (pField f) = 0 && s.readyReason (pField f) = 1 && !tooHot s f) = some 0 ∧ belfryUp s = true ∧
      (s.start = .testing ∨ s.start = .done) ∧ s.fget (pFuse + 0x4C) 3 0 < 8 ∧ fieldRecord s 0 = false) ∧
    (∀ s ∈ [regs [(pMbox 0 + 0x40, 0x80000000#32)] { ({ State.reset with start := .testing }) with fuses := { records := [defect 9 0 0 0] } }], testOrder.find? (fun f => s.readyState (pField f) = 0 && s.readyReason (pField f) = 1 && !tooHot s f) = some 0 ∧ belfryUp s = true ∧ fieldRecord s 0 = true) := by decide +kernel

/-- Further clauses of the same statement as wit_startup_1. -/
theorem wit_startup_3 :
    (∀ s ∈ [regs [(pMbox 0 + 0x40, 0x80000000#32)] { ({ State.reset with start := .testing }) with belfry := { softMap := [(defect 9 0 0 0, 0x60000000#32)] } }], testOrder.find? (fun f => s.readyState (pField f) = 0 && s.readyReason (pField f) = 1 && !tooHot s f) = some 0 ∧ belfryUp s = true ∧ fieldRecord s 0 = true ∧ fuseRecord s 0 = true) ∧
    (∀ s ∈ [regs [(pField 63 + 0xC, 1#32), (pFuse + 0x4C, 0x3F01#32), (pGlobal + 0x48, 1#32), (pGlobal + 0x50,
      0x4000480#32)] { State.reset with start := .testing }], s.readyState (pField 63) = 1 ∧ s.fget (pReset + 0x44) 9 8 ≤ 1 ∧
      s.start = .testing ∧ s.bget (pFuse + 0x4C) 31 = false ∧ 63 ∉ s.belfry.back ∧ s.links = [] ∧ s.cols = gradeCols s ∧
      gradeCols s = 144 ∧ colsOk s (inForce s []) 63 0 = false) := by decide +kernel

/-- Further clauses of the same statement as wit_startup_1. -/
theorem wit_startup_4 :
    (∀ s ∈ [regs ((tab 64 (fun f => (pField f + 0xC, 3#32))) ++ [(pFuse + 0x4C, 0x4000#32)]) { State.reset with start := .testing }],
      s.start = .testing ∧ allMapped s = true ∧ s.runState = 0 ∧
      ((List.range 64).foldl (fun a f => min a (if s.readyState (pField f) < 2 then 0 else s.fget (pFuse + 0x100 + 4 * f) 31 24)) (gradeCols s)) = 0) ∧
    (∀ s ∈ [regs ((tab 64 (fun f => (pField f + 0xC, 3#32))) ++ [(pFuse + 0x4C, 0x4000#32)] ++ (tab 64 (fun f => (pFuse + 0x100 + 4 * f,
      0x90000000#32))) ++ [(pGlobal + 0x48, 1#32), (pGlobal + 0x50, 0x4000480#32)]) { State.reset with start := .testing }],
      s.start = .testing ∧ allMapped s = true ∧ s.runState = 0 ∧
      ((List.range 64).foldl (fun a f => min a (if s.readyState (pField f) < 2 then 0 else s.fget (pFuse + 0x100 + 4 * f) 31 24)) (gradeCols s)) = 144) := by decide +kernel

/-- Further clauses of the same statement as wit_startup_1. -/
theorem wit_startup_5 :
    (∀ s ∈ [regs [(pMbox 0 + 0x40, 0x88000000#32)] { up with belfry := { slotB := some { version := 7#32, sec := 3 }, trial := some true } }], s.belfry.trial = some true ∧ belfryUp s = true ∧ runSlot s = true ∧ slotOf? s.belfry true = some { version := 7#32, sec := 3 } ∧ s.start = .done) := by decide +kernel

/-- BelfryWatchesTheEngine: samples, one that finds a field under test too hot; the last sensor, the last of a field,
      in a held field and while a trip is due, and the last but one condition of a half, at their exact times; a field off for heat,
      its return; a trip and the recovery; a fuse trip for each limit, and currents at them; a suspect die at the limits; the log's poll,
      the hourly summary, and a capture. -/
theorem wit_belfry_1 :
    (∀ s ∈ [up], belfryUp s = true) ∧
    (∀ s ∈ [regs [(pField 63 + 0xC, 1#32)] { (up) with belfry := {  } }], belfryUp s = true ∧ s.readyState (pField 63) = 1) ∧
    (∀ s ∈ [regs [] { (up) with belfry := { counts := [(1000 + 511, 11)], failed := [504, 505], held := [63] } }], belfryUp s = true ∧
      sensorFailed s 511 = false ∧ holds s (1000 + 511) = true ∧ 511 / 8 ∈ s.belfry.held) ∧
    (∀ s ∈ [regs [] { (up) with belfry := { counts := [(1000 + 511, 11), (20, 1)], failed := [504, 505] } }], belfryUp s = true ∧
      sensorFailed s 511 = false ∧ holds s (1000 + 511) = true ∧ tripGoverns s = true) := by decide +kernel

/-- Further clauses of the same statement as wit_belfry_1. -/
theorem wit_belfry_2 :
    (∀ s ∈ [regs [] { (up) with belfry := { counts := [(1000 + 511, 11), (1000 + 580, 11)], failed := [504] } }], belfryUp s = true ∧
      sensorFailed s 580 = false ∧ holds s (1000 + 580) = true ∧ sensorFailed s 511 = false ∧ holds s (1000 + 511) = true ∧
      ((List.range 8).filter (fun j => sensorFailed s (511 / 8 * 8 + j))).length < 2) ∧
    (∀ s ∈ [regs [] { (up) with belfry := { counts := [(18, 101), (0, 1)] } }], belfryUp s = true ∧ s.bget (pMbox 0 + 0x60) 12 = false ∧
      holds s 18 = true ∧ s.bget (pMbox 0 + 0x60) 0 = false ∧ holds s 0 = true) ∧
    (∀ s ∈ [regs [(pMbox 0 + 0x60, 0x1000#32), (pClock + 0x44, 0x18080000#32)] { (up) with belfry := { counts := [(19, 1001)] } }],
      belfryUp s = true ∧ s.bget (pMbox 0 + 0x60) 12 = true ∧ holds s 19 = true) := by decide +kernel

/-- Further clauses of the same statement as wit_belfry_1. -/
theorem wit_belfry_3 :
    (∀ s ∈ [regs [(pField 63 + 0xC, 2#32), (pPower 63 + 0x68, 0#32)] { (up) with belfry := { counts := [(163, 11)] } }],
      belfryUp s = true ∧ holds s 163 = true ∧ (s.pow 63).computeOff = false ∧ (s.pow 63).fuse = false ∧ tripGoverns s = false ∧
      s.fget (pPower 63 + 0x68) 2 0 = 0 ∧ s.readyState (pField 63) ≠ 1 ∧ hotHour s 63 < 3 ∧
      (¬ ((usesField s 63 = true ∨ usesBobbin s 63 = true) ∧ faultState s = true))) ∧
    (∀ s ∈ [regs [] { (up) with belfry := { counts := [(263, 10001)], hot := [63] } }], belfryUp s = true ∧ 63 ∈ s.belfry.hot ∧
      63 ∉ s.belfry.held ∧ holds s 263 = true ∧ tripGoverns s = false ∧ s.start ≠ .testing ∧ resetBusy s = false ∧
      (¬ ((usesField s 63 = true ∨ usesBobbin s 63 = true) ∧ faultState s = true))) ∧
    (∀ s ∈ [regs [] { (up) with belfry := { counts := [(20, 1)] } }], belfryUp s = true ∧ s.bget (pMbox 0 + 0x40) 30 = false ∧
      holds s 20 = true ∧ s.runState = 0) := by decide +kernel

/-- Further clauses of the same statement as wit_belfry_1. -/
theorem wit_belfry_4 :
    (∀ s ∈ [regs [(pMbox 0 + 0x40, 0xC0000000#32)] { (up) with belfry := { counts := [(22, 100001)], tripRecord := true } }],
      belfryUp s = true ∧ s.bget (pMbox 0 + 0x40) 30 = true ∧ holds s 22 = true) ∧
    (∀ s ∈ [regs [] { (up) with belfry := { softMap := List.replicate 5 (0#32, 0#32) } }], belfryUp s = true ∧ s.inputOn = true ∧
      (s.pow 63).fuse = false ∧ (s.pow 63).memOff = false ∧ s.readyState (pField 63) ≠ 1 ∧
      (¬ ((usesField s 63 = true ∨ usesBobbin s 63 = true) ∧ faultState s = true)) ∧ s.belfry.softMap.length < 4096) ∧
    (∀ s ∈ [regs [(pBob 0 0 + 0x44, 0x190000#32), (pBob 0 0 + 0x104, 4#32)] { (up) with belfry := { die := { autoCo := true } } }],
      belfryUp s = true ∧ bobbinOn s 0 = true ∧ 0 ∈ slotsOn s 0 ∧ s.belfry.die.uncorrLim = 4 ∧ slotRise s 0 0 (·.2) = 4 ∧
      s.fget (pBob 0 0 + 0x44) 23 20 ≠ 0 ∧ 0 < s.fget (pBob 0 0 + 0x44) 19 16 ∧ (s.bobbin 0).coCopying = false) := by decide +kernel

/-- Further clauses of the same statement as wit_belfry_1. -/
theorem wit_belfry_5 :
    (∀ s ∈ [regs [(pBob 0 0 + 0x44, 0x190000#32), (pBob 0 0 + 0x104, 4#32)] { (up) with belfry := { die := { autoCo := false } } }],
      belfryUp s = true ∧ bobbinOn s 0 = true ∧ 0 ∈ slotsOn s 0 ∧ s.belfry.die.uncorrLim = 4 ∧ slotRise s 0 0 (·.2) = 4 ∧
      s.fget (pBob 0 0 + 0x44) 23 20 ≠ 0 ∧ 0 < s.fget (pBob 0 0 + 0x44) 19 16 ∧ (s.bobbin 0).coCopying = false) ∧
    (∀ s ∈ [regs [(pPower 0 + 0x18, 0x10#32)] up], belfryUp s = true ∧ s.tablesWf = true ∧ (locate (pPower 0 + 0x18)).isSome = true ∧
      (pPower 0 + 0x18) % 4096 = 0x18 ∧ s.reg (pPower 0 + 0x18) = 1#32 <<< 4 ∧ s.reg (pPower 0 + 0x18 + 4) = 0#32 ∧
      (∀ e ∈ s.regs, e.1 % 4096 = 0x18 ∨ e.1 % 4096 = 0x1C → e.1 = pPower 0 + 0x18) ∧
      SMap.get (fun _ => 0#32) s.belfry.polled (pPower 0 + 0x18) = 0#32 ∧ s.belfry.ramLog.length < 2048) := by decide +kernel

/-- Further clauses of the same statement as wit_belfry_1. -/
theorem wit_belfry_6 :
    (∀ s ∈ [regs [(pMbox 0 + 0x40, 0x80000000#32), (pPower 63 + 0x28, 5#32), (pField 63 + 0x214,
      1#32)] { State.reset with belfry := { buffers := [(63, some [7#256])] } }], belfryUp s = true ∧
      ((fieldPages 63).map (fun pg => s.fget (pg + 0x28) 30 0)).foldl (· + ·) 0 ≠ SMap.get (fun _ => 0) s.belfry.hourly 63 ∧
      s.belfry.ramLog.length < 2048 ∧
      (∀ g ∈ List.range 63, ((fieldPages g).map (fun pg => s.fget (pg + 0x28) 30 0)).foldl (· + ·) 0 = SMap.get (fun _ => 0) s.belfry.hourly g) ∧ SMap.get (fun _ => none) s.belfry.buffers 63 = some [7#256] ∧ s.belfry.captures.length < 2048) := by decide +kernel

/-- SilentErrorsAreCaught: the last register word, accumulator word and chime, corrected and not; a parity failure,
      and another on the same spindle; hits on a fenced spindle, below the policy's count, at it,
      and with FENCE; a hit that expires; and what the Belfry's own probes need. -/
theorem wit_silent_errors_1 :
    (∀ s ∈ [live5 {}], secExists s (.vreg 5 63 15) = true ∧ secExists s (.lacc 5 3 15 3) = true ∧ secExists s (.chime 511 .save) = true ∧
      secExists s (.scale 5) = true) ∧
    (∀ s ∈ [spun { vregs := [(63, 7#512), (0, 9#512)] }], secExists s (.vreg 5 63 15) = true ∧ secExists s (.chime 511 .save) = true ∧
      s.running = false) ∧
    (∀ s ∈ [spun (win [(4, 0x40, 1)])], spinUp s 5 = true ∧ s.fieldOf 5 < 64 ∧ s.runState = 0 ∧ (s.spin 5).ip = [] ∧
      s.bget (pField 0 + 0x210) 31 = false) ∧
    (∀ s ∈ [{ up with spindles := [(5, { dead := true })] }], spinUp s 5 = true ∧ (s.spin 5).dead = true ∧
      s.runState = 0) := by decide +kernel

/-- Further clauses of the same statement as wit_silent_errors_1. -/
theorem wit_silent_errors_2 :
    (∀ s ∈ [{ (regs [] up) with belfry := { suspects := [(suspectKey up 5, { state := 2, hits := [] })], hitsDue := [(suspectKey up 5, false, 9)], policy := {  } } }], s.belfry.hitsDue = (suspectKey up 5, false, 9) :: [] ∧ belfryUp s = true ∧ (s.belfry.suspect (suspectKey up 5)).state = 2) ∧
    (∀ s ∈ [{ (regs [] up) with belfry := { suspects := [(suspectKey up 5, { state := 1, hits := [(8, false)] })], hitsDue := [(suspectKey up 5, false, 9)], policy := {  } } }], s.belfry.hitsDue = (suspectKey up 5, false, 9) :: [] ∧ belfryUp s = true ∧ (s.belfry.suspect (suspectKey up 5)).state ≠ 2 ∧ (¬ (s.belfry.policy.fence = true ∨ s.belfry.policy.hits ≤ (((s.belfry.suspect (suspectKey up 5)).hits ++ [(9, false)]).filter (hitFresh s)).length)) ∧ suspectKey up 5 < 64 * 32768 ∧ s.running = false ∧ s.belfry.softMap.length < 4096) := by decide +kernel

/-- Further clauses of the same statement as wit_silent_errors_1. -/
theorem wit_silent_errors_3 :
    (∀ s ∈ [{ (regs [] up) with belfry := { suspects := [(suspectKey up 5, { state := 1, hits := [(7, true), (8, false)] })], hitsDue := [(suspectKey up 5, false, 9)], policy := {  } } }], s.belfry.hitsDue = (suspectKey up 5, false, 9) :: [] ∧ belfryUp s = true ∧ (s.belfry.suspect (suspectKey up 5)).state ≠ 2 ∧ ((s.belfry.policy.fence = true ∨ s.belfry.policy.hits ≤ (((s.belfry.suspect (suspectKey up 5)).hits ++ [(9, false)]).filter (hitFresh s)).length)) ∧ suspectKey up 5 < 64 * 32768 ∧ s.running = false ∧ s.belfry.softMap.length < 4096) := by decide +kernel

/-- Further clauses of the same statement as wit_silent_errors_1. -/
theorem wit_silent_errors_4 :
    (∀ s ∈ [{ (regs [] up) with belfry := { suspects := [(suspectKey up 5, { state := 0, hits := [] })], hitsDue := [(suspectKey up 5, false, 9)], policy := { fence := true } } }], s.belfry.hitsDue = (suspectKey up 5, false, 9) :: [] ∧ belfryUp s = true ∧ (s.belfry.suspect (suspectKey up 5)).state ≠ 2 ∧ ((s.belfry.policy.fence = true ∨ s.belfry.policy.hits ≤ (((s.belfry.suspect (suspectKey up 5)).hits ++ [(9, false)]).filter (hitFresh s)).length)) ∧ suspectKey up 5 < 64 * 32768 ∧ s.running = false ∧ s.belfry.softMap.length < 4096) ∧
    (∀ s ∈ [{ (regs [(pTb + 0x44, 0x7FFFFFFF#32)] up) with belfry := { suspects := [(suspectKey up 5, { state := 1, hits := [(7, true), (8, false)] })], hitsDue := [], policy := {  } } }], (s.belfry.suspect (suspectKey s 5)).hits = (7, true) :: [(8, false)] ∧ (s.belfry.suspect (suspectKey s 5)).state = 1 ∧ hitFresh s (7, true) = false ∧ belfryUp s = true) := by decide +kernel

/-- Further clauses of the same statement as wit_silent_errors_1. -/
theorem wit_silent_errors_5 :
    (∀ s ∈ [{ up with belfry := { suspects := [(suspectKey up 5, { state := 1, hits := [(7, true)] })], policy := { sweepEn := true } } }],
      belfryUp s = true ∧ (s.belfry.suspect (suspectKey s 5)).state = 1 ∧ s.live 5 = false ∧ spinUp s 5 = true ∧
      s.belfry.policy.sweepEn = true) := by decide +kernel

/-- MailboxCommandsAnswer: the last channel busy, without a Belfry,
      taking the last command and an unknown one; the management network's first; every command denied to an unprivileged channel,
      and each answered on the last privileged one; a field held,
      refused and released; an update that is refused; a session that times out. -/
theorem wit_mailbox_1 :
    (∀ s ∈ [regs [(pMbox 8 + 0x100, 1#32), (pMbox 8 + 0x44, 1#32)] up], 2 ≤ s.readyState (pMbox 8) ∧ s.bget (pMbox 8 + 0x44) 0 = true) ∧
    (∀ s ∈ [regs [(pMbox 8 + 0x100, 0xC#32), (pMbox 0 + 0x40, 0#32), (pMbox 8 + 0x44, 0#32)] { up with start := .recovery }],
      2 ≤ s.readyState (pMbox 8) ∧ s.bget (pMbox 8 + 0x44) 0 = false ∧ belfryUp s = false ∧ (s.start ≠ .recovery ∨ 8 ≠ 1)) ∧
    (∀ s ∈ [regs [(pMbox 8 + 0x100, 0xC#32), (pMbox 8 + 0x44, 0#32)] up], belfryUp s = true ∧ 2 ≤ s.readyState (pMbox 8) ∧
      s.bget (pMbox 8 + 0x44) 0 = false ∧ 1 ≤ mbCmd (tab 64 (fun i => s.reg (pMbox 8 + 0x100 + 4 * i))) ∧
      mbCmd (tab 64 (fun i => s.reg (pMbox 8 + 0x100 + 4 * i))) ≤ 0xC) ∧
    (∀ s ∈ [regs [(pMbox 8 + 0x100, 0xD#32), (pMbox 8 + 0x44, 0#32)] up], 2 ≤ s.readyState (pMbox 8) ∧ s.bget (pMbox 8 + 0x44) 0 = false ∧
      0xC < mbCmd (tab 64 (fun i => s.reg (pMbox 8 + 0x100 + 4 * i))) ∧ belfryUp s = true) := by decide +kernel

/-- Further clauses of the same statement as wit_mailbox_1. -/
theorem wit_mailbox_2 :
    (∀ s ∈ [up], belfryUp s = true ∧ mbCmd (tab 64 (fun i => nth 0#32 [1#32] i)) = 1) ∧
    (∀ s ∈ [{ (regs [] up) with belfry := { busy := [(8, [0x3#32, 0x77#32, 0x0#32, 0x0#32])] } }], s.belfry.busy = (8, [0x3#32, 0x77#32,
      0x0#32, 0x0#32]) :: [] ∧ belfryUp s = true ∧ s.belfry.resetAfter = none ∧ mbCmd ([0x3#32, 0x77#32, 0x0#32, 0x0#32] : List Word) = 3 ∧
      mbPrivileged 8 = false) ∧
    (∀ s ∈ [{ (regs [] up) with belfry := { busy := [(8, [0x4#32, 0x77#32, 0x0#32, 0x0#32])] } }], s.belfry.busy = (8, [0x4#32, 0x77#32,
      0x0#32, 0x0#32]) :: [] ∧ belfryUp s = true ∧ s.belfry.resetAfter = none ∧ mbCmd ([0x4#32, 0x77#32, 0x0#32, 0x0#32] : List Word) = 4 ∧
      mbPrivileged 8 = false) := by decide +kernel

/-- Further clauses of the same statement as wit_mailbox_1. -/
theorem wit_mailbox_3 :
    (∀ s ∈ [{ (regs [] up) with belfry := { busy := [(8, [0x5#32, 0x77#32, 0x0#32, 0x0#32])] } }], s.belfry.busy = (8, [0x5#32, 0x77#32,
      0x0#32, 0x0#32]) :: [] ∧ belfryUp s = true ∧ s.belfry.resetAfter = none ∧ mbCmd ([0x5#32, 0x77#32, 0x0#32, 0x0#32] : List Word) = 5 ∧
      mbPrivileged 8 = false) ∧
    (∀ s ∈ [{ (regs [] up) with belfry := { busy := [(8, [0x6#32, 0x77#32, 0x0#32, 0x0#32])] } }], s.belfry.busy = (8, [0x6#32, 0x77#32,
      0x0#32, 0x0#32]) :: [] ∧ belfryUp s = true ∧ s.belfry.resetAfter = none ∧ mbCmd ([0x6#32, 0x77#32, 0x0#32, 0x0#32] : List Word) = 6 ∧
      mbPrivileged 8 = false) ∧
    (∀ s ∈ [{ (regs [] up) with belfry := { busy := [(8, [0x7#32, 0x77#32, 0x0#32, 0x0#32])] } }], s.belfry.busy = (8, [0x7#32, 0x77#32,
      0x0#32, 0x0#32]) :: [] ∧ belfryUp s = true ∧ s.belfry.resetAfter = none ∧ mbCmd ([0x7#32, 0x77#32, 0x0#32, 0x0#32] : List Word) = 7 ∧
      mbPrivileged 8 = false) := by decide +kernel

/-- Further clauses of the same statement as wit_mailbox_1. -/
theorem wit_mailbox_4 :
    (∀ s ∈ [{ (regs [] up) with belfry := { busy := [(8, [0x8#32, 0x77#32, 0x0#32, 0x0#32])] } }], s.belfry.busy = (8, [0x8#32, 0x77#32,
      0x0#32, 0x0#32]) :: [] ∧ belfryUp s = true ∧ s.belfry.resetAfter = none ∧ mbCmd ([0x8#32, 0x77#32, 0x0#32, 0x0#32] : List Word) = 8 ∧
      mbPrivileged 8 = false) ∧
    (∀ s ∈ [{ (regs [] up) with belfry := { busy := [(8, [0x9#32, 0x77#32, 0x0#32, 0x0#32])] } }], s.belfry.busy = (8, [0x9#32, 0x77#32,
      0x0#32, 0x0#32]) :: [] ∧ belfryUp s = true ∧ s.belfry.resetAfter = none ∧ mbCmd ([0x9#32, 0x77#32, 0x0#32, 0x0#32] : List Word) = 9 ∧
      mbPrivileged 8 = false) ∧
    (∀ s ∈ [{ (regs [] up) with belfry := { busy := [(8, [0xa#32, 0x77#32, 0x0#32, 0x0#32])] } }], s.belfry.busy = (8, [0xa#32, 0x77#32,
      0x0#32, 0x0#32]) :: [] ∧ belfryUp s = true ∧ s.belfry.resetAfter = none ∧
      mbCmd ([0xa#32, 0x77#32, 0x0#32, 0x0#32] : List Word) = 10 ∧ mbPrivileged 8 = false) := by decide +kernel

/-- Further clauses of the same statement as wit_mailbox_1. -/
theorem wit_mailbox_5 :
    (∀ s ∈ [{ (regs [] up) with belfry := { busy := [(8, [0xb#32, 0x77#32, 0x0#32, 0x0#32])] } }], s.belfry.busy = (8, [0xb#32, 0x77#32,
      0x0#32, 0x0#32]) :: [] ∧ belfryUp s = true ∧ s.belfry.resetAfter = none ∧
      mbCmd ([0xb#32, 0x77#32, 0x0#32, 0x0#32] : List Word) = 11 ∧ mbPrivileged 8 = false) ∧
    (∀ s ∈ [{ (regs [] up) with belfry := { busy := [(8, [0xc#32, 0x77#32, 0x0#32, 0x0#32])] } }], s.belfry.busy = (8, [0xc#32, 0x77#32,
      0x0#32, 0x0#32]) :: [] ∧ belfryUp s = true ∧ s.belfry.resetAfter = none ∧
      mbCmd ([0xc#32, 0x77#32, 0x0#32, 0x0#32] : List Word) = 12 ∧ mbPrivileged 8 = false) ∧
    (∀ s ∈ [{ (regs [] up) with belfry := { busy := [(7, [0x1#32, 0x77#32, 0x0#32, 0x0#32])] } }], s.belfry.busy = (7, [0x1#32, 0x77#32,
      0x0#32, 0x0#32]) :: [] ∧ belfryUp s = true ∧ s.belfry.resetAfter = none ∧ mbCmd ([0x1#32, 0x77#32, 0x0#32, 0x0#32] : List Word) = 1 ∧
      mbPrivileged 7 = true) := by decide +kernel

/-- Further clauses of the same statement as wit_mailbox_1. -/
theorem wit_mailbox_6 :
    (∀ s ∈ [{ (regs [] up) with belfry := { busy := [(7, [0x20002#32, 0x77#32, 0x0#32, 0x0#32, 0x739#32])] } }], s.belfry.busy = (7,
      [0x20002#32, 0x77#32, 0x0#32, 0x0#32, 0x739#32]) :: [] ∧ belfryUp s = true ∧ s.belfry.resetAfter = none ∧
      mbCmd ([0x20002#32, 0x77#32, 0x0#32, 0x0#32, 0x739#32] : List Word) = 2 ∧ mbPrivileged 7 = true ∧
      mbArg ([0x20002#32, 0x77#32, 0x0#32, 0x0#32, 0x739#32]) 0 1 + mbArg ([0x20002#32, 0x77#32, 0x0#32, 0x0#32,
      0x739#32]) 1 1 = 64) := by decide +kernel

/-- Further clauses of the same statement as wit_mailbox_1. -/
theorem wit_mailbox_7 :
    (∀ s ∈ [{ (regs [] up) with belfry := { busy := [(7, [0x60003#32, 0x77#32, 0x0#32, 0x0#32, 0x2#32, 0x7#32])], ramLog := [{ seq := 1#32, code := 5, severity := 1, tb := 9 }, { seq := 2#32, code := 5, severity := 1, tb := 9 }] } }], s.belfry.busy = (7, [0x60003#32, 0x77#32, 0x0#32, 0x0#32, 0x2#32, 0x7#32]) :: [] ∧ belfryUp s = true ∧ s.belfry.resetAfter = none ∧ mbCmd ([0x60003#32, 0x77#32, 0x0#32, 0x0#32, 0x2#32, 0x7#32] : List Word) = 3 ∧ mbPrivileged 7 = true ∧ mbArg ([0x60003#32, 0x77#32, 0x0#32, 0x0#32, 0x2#32, 0x7#32]) 4 1 = 7 ∧ mbArg ([0x60003#32, 0x77#32, 0x0#32, 0x0#32, 0x2#32, 0x7#32]) 5 1 = 0 ∧ mbArg ([0x60003#32, 0x77#32, 0x0#32, 0x0#32, 0x2#32, 0x7#32]) 0 4 = 2 ∧ ((s.belfry.ramLog.filter (fun e => decide ((e.seq - 2#32).toNat < 2 ^ 31))).take 7).map (·.seq) = [2#32]) := by decide +kernel

/-- Further clauses of the same statement as wit_mailbox_1. -/
theorem wit_mailbox_8 :
    (∀ s ∈ [{ (regs [] up) with belfry := { busy := [(7, [0x50004#32, 0x77#32, 0x0#32, 0x0#32, 0x40001#32, 0x1c#32])], softMap := List.replicate 5 (3#32, 4#32) } }], s.belfry.busy = (7, [0x50004#32, 0x77#32, 0x0#32, 0x0#32, 0x40001#32, 0x1c#32]) :: [] ∧ belfryUp s = true ∧ s.belfry.resetAfter = none ∧ mbCmd ([0x50004#32, 0x77#32, 0x0#32, 0x0#32, 0x40001#32, 0x1c#32] : List Word) = 4 ∧ mbPrivileged 7 = true ∧ mbArg ([0x50004#32, 0x77#32, 0x0#32, 0x0#32, 0x40001#32, 0x1c#32]) 0 1 = 1 ∧ mbArg ([0x50004#32, 0x77#32, 0x0#32, 0x0#32, 0x40001#32, 0x1c#32]) 4 1 = 28 ∧ mbArg ([0x50004#32, 0x77#32, 0x0#32, 0x0#32, 0x40001#32, 0x1c#32]) 2 2 = 4) := by decide +kernel

/-- Further clauses of the same statement as wit_mailbox_1. -/
theorem wit_mailbox_9 :
    (∀ s ∈ [{ (regs [] up) with belfry := { busy := [(7, [0x50005#32, 0x77#32, 0x0#32, 0x0#32, 0x9#32, 0x0#32])], firstCapture := 9, captures := [List.replicate 8 7#256] } }], s.belfry.busy = (7, [0x50005#32, 0x77#32, 0x0#32, 0x0#32, 0x9#32, 0x0#32]) :: [] ∧ belfryUp s = true ∧ s.belfry.resetAfter = none ∧ mbCmd ([0x50005#32, 0x77#32, 0x0#32, 0x0#32, 0x9#32, 0x0#32] : List Word) = 5 ∧ mbPrivileged 7 = true ∧ mbArg ([0x50005#32, 0x77#32, 0x0#32, 0x0#32, 0x9#32, 0x0#32]) 4 1 = 0 ∧ mbArg ([0x50005#32, 0x77#32, 0x0#32, 0x0#32, 0x9#32, 0x0#32]) 0 4 = 9) := by decide +kernel

/-- Further clauses of the same statement as wit_mailbox_1. -/
theorem wit_mailbox_10 :
    (∀ s ∈ [{ (regs [] up) with belfry := { busy := [(7, [0x30006#32, 0x77#32, 0x0#32, 0x0#32, 0x5#32])] } }], s.belfry.busy = (7,
      [0x30006#32, 0x77#32, 0x0#32, 0x0#32, 0x5#32]) :: [] ∧ belfryUp s = true ∧ s.belfry.resetAfter = none ∧
      mbCmd ([0x30006#32, 0x77#32, 0x0#32, 0x0#32, 0x5#32] : List Word) = 6 ∧ mbPrivileged 7 = true ∧
      s.validSid (mbArg ([0x30006#32, 0x77#32, 0x0#32, 0x0#32, 0x5#32]) 0 3) = true) := by decide +kernel

/-- Further clauses of the same statement as wit_mailbox_1. -/
theorem wit_mailbox_11 :
    (∀ s ∈ [{ (regs [(pRun + 0x40, 3#32), (pRun + 0x88, 1#32)] up) with belfry := { busy := [(7, [0x20007#32, 0x77#32, 0x0#32, 0x0#32, 0x100#32])] } }], s.belfry.busy = (7, [0x20007#32, 0x77#32, 0x0#32, 0x0#32, 0x100#32]) :: [] ∧ belfryUp s = true ∧ s.belfry.resetAfter = none ∧ mbCmd ([0x20007#32, 0x77#32, 0x0#32, 0x0#32, 0x100#32] : List Word) = 7 ∧ mbPrivileged 7 = true ∧ mbArg ([0x20007#32, 0x77#32, 0x0#32, 0x0#32, 0x100#32]) 0 1 = 0 ∧ mbArg ([0x20007#32, 0x77#32, 0x0#32, 0x0#32, 0x100#32]) 1 1 = 1 ∧ usesField s 0 = true ∧ faultState s = true) := by decide +kernel

/-- Further clauses of the same statement as wit_mailbox_1. -/
theorem wit_mailbox_12 :
    (∀ s ∈ [{ (regs [] up) with belfry := { busy := [(7, [0x20007#32, 0x77#32, 0x0#32, 0x0#32, 0x13f#32])] } }], s.belfry.busy = (7,
      [0x20007#32, 0x77#32, 0x0#32, 0x0#32, 0x13f#32]) :: [] ∧ belfryUp s = true ∧ s.belfry.resetAfter = none ∧
      mbCmd ([0x20007#32, 0x77#32, 0x0#32, 0x0#32, 0x13f#32] : List Word) = 7 ∧ mbPrivileged 7 = true ∧
      mbArg ([0x20007#32, 0x77#32, 0x0#32, 0x0#32, 0x13f#32]) 0 1 = 63 ∧ mbArg ([0x20007#32, 0x77#32, 0x0#32, 0x0#32, 0x13f#32]) 1 1 = 1 ∧
      63 ∉ s.belfry.held ∧ usesField s 63 = false ∧ usesBobbin s 63 = false) := by decide +kernel

/-- Further clauses of the same statement as wit_mailbox_1. -/
theorem wit_mailbox_13 :
    (∀ s ∈ [{ (regs [] up) with belfry := { busy := [(7, [0x20007#32, 0x77#32, 0x0#32, 0x0#32, 0x3f#32])], held := [63] } }],
      s.belfry.busy = (7, [0x20007#32, 0x77#32, 0x0#32, 0x0#32, 0x3f#32]) :: [] ∧ belfryUp s = true ∧ s.belfry.resetAfter = none ∧
      mbCmd ([0x20007#32, 0x77#32, 0x0#32, 0x0#32, 0x3f#32] : List Word) = 7 ∧ mbPrivileged 7 = true ∧
      mbArg ([0x20007#32, 0x77#32, 0x0#32, 0x0#32, 0x3f#32]) 0 1 = 63 ∧ mbArg ([0x20007#32, 0x77#32, 0x0#32, 0x0#32, 0x3f#32]) 1 1 = 0 ∧
      63 ∈ s.belfry.held ∧ 63 ∉ s.belfry.hot ∧ resetBusy s = false ∧ usesField s 63 = false) := by decide +kernel

/-- Further clauses of the same statement as wit_mailbox_1. -/
theorem wit_mailbox_14 :
    (∀ s ∈ [{ (regs [] up) with belfry := { busy := [(7, [0x20008#32, 0x77#32, 0x0#32, 0x0#32, 0x3f02#32])] } }], s.belfry.busy = (7,
      [0x20008#32, 0x77#32, 0x0#32, 0x0#32, 0x3f02#32]) :: [] ∧ belfryUp s = true ∧ s.belfry.resetAfter = none ∧
      mbCmd ([0x20008#32, 0x77#32, 0x0#32, 0x0#32, 0x3f02#32] : List Word) = 8 ∧ mbPrivileged 7 = true ∧
      mbArg ([0x20008#32, 0x77#32, 0x0#32, 0x0#32, 0x3f02#32]) 0 1 = 2 ∧
      mbArg ([0x20008#32, 0x77#32, 0x0#32, 0x0#32, 0x3f02#32]) 1 1 = 63) := by decide +kernel

/-- Further clauses of the same statement as wit_mailbox_1. -/
theorem wit_mailbox_15 :
    (∀ s ∈ [{ (regs [] up) with belfry := { busy := [(7, [0xc0009#32, 0x77#32, 0x0#32, 0x0#32, 0x1#32, 0x9#32, 0x0#32])] } }],
      s.belfry.busy = (7, [0xc0009#32, 0x77#32, 0x0#32, 0x0#32, 0x1#32, 0x9#32, 0x0#32]) :: [] ∧ belfryUp s = true ∧
      s.belfry.resetAfter = none ∧ mbCmd ([0xc0009#32, 0x77#32, 0x0#32, 0x0#32, 0x1#32, 0x9#32, 0x0#32] : List Word) = 9 ∧
      mbPrivileged 7 = true ∧ mbArg ([0xc0009#32, 0x77#32, 0x0#32, 0x0#32, 0x1#32, 0x9#32, 0x0#32]) 0 1 = 1 ∧
      mbArg ([0xc0009#32, 0x77#32, 0x0#32, 0x0#32, 0x1#32, 0x9#32, 0x0#32]) 1 1 = 0 ∧
      mbArg ([0xc0009#32, 0x77#32, 0x0#32, 0x0#32, 0x1#32, 0x9#32, 0x0#32]) 4 4 = 9 ∧
      mbArg ([0xc0009#32, 0x77#32, 0x0#32, 0x0#32, 0x1#32, 0x9#32, 0x0#32]) 8 4 = 0) := by decide +kernel

/-- Further clauses of the same statement as wit_mailbox_1. -/
theorem wit_mailbox_16 :
    (∀ s ∈ [{ (regs [] up) with belfry := { busy := [(7, [0x4000a#32, 0x77#32, 0x0#32, 0x0#32, 0xa0#32])] } }], s.belfry.busy = (7,
      [0x4000a#32, 0x77#32, 0x0#32, 0x0#32, 0xa0#32]) :: [] ∧ belfryUp s = true ∧ s.belfry.resetAfter = none ∧
      mbCmd ([0x4000a#32, 0x77#32, 0x0#32, 0x0#32, 0xa0#32] : List Word) = 10 ∧ mbPrivileged 7 = true ∧ s.belfry.session = none ∧
      mbArg ([0x4000a#32, 0x77#32, 0x0#32, 0x0#32, 0xa0#32]) 0 4 = 160) := by decide +kernel

/-- Further clauses of the same statement as wit_mailbox_1. -/
theorem wit_mailbox_17 :
    (∀ s ∈ [{ (regs [] up) with belfry := { busy := [(7, [0x9000b#32, 0x77#32, 0x0#32, 0x0#32, 0x3#32, 0x9#32, 0x7#32])], session := some ⟨3, 10, []⟩ } }], s.belfry.busy = (7, [0x9000b#32, 0x77#32, 0x0#32, 0x0#32, 0x3#32, 0x9#32, 0x7#32]) :: [] ∧ belfryUp s = true ∧ s.belfry.resetAfter = none ∧ mbCmd ([0x9000b#32, 0x77#32, 0x0#32, 0x0#32, 0x3#32, 0x9#32, 0x7#32] : List Word) = 11 ∧ mbPrivileged 7 = true ∧ s.belfry.session = some ⟨3, 10, []⟩ ∧ mbArg ([0x9000b#32, 0x77#32, 0x0#32, 0x0#32, 0x3#32, 0x9#32, 0x7#32]) 0 4 = 3 ∧ mbLen ([0x9000b#32, 0x77#32, 0x0#32, 0x0#32, 0x3#32, 0x9#32, 0x7#32]) = 9 ∧ mbArg ([0x9000b#32, 0x77#32, 0x0#32, 0x0#32, 0x3#32, 0x9#32, 0x7#32]) 4 4 = 9) := by decide +kernel

/-- Further clauses of the same statement as wit_mailbox_1. -/
theorem wit_mailbox_18 :
    (∀ s ∈ [{ (regs [] up) with belfry := { busy := [(7, [0x5000c#32, 0x77#32, 0x0#32, 0x0#32, 0x3#32, 0x0#32])], session := some ⟨3, 10, []⟩ } }], s.belfry.busy = (7, [0x5000c#32, 0x77#32, 0x0#32, 0x0#32, 0x3#32, 0x0#32]) :: [] ∧ belfryUp s = true ∧ s.belfry.resetAfter = none ∧ mbCmd ([0x5000c#32, 0x77#32, 0x0#32, 0x0#32, 0x3#32, 0x0#32] : List Word) = 12 ∧ mbPrivileged 7 = true ∧ s.belfry.session = some ⟨3, 10, []⟩ ∧ mbArg ([0x5000c#32, 0x77#32, 0x0#32, 0x0#32, 0x3#32, 0x0#32]) 0 4 = 3 ∧ imgRefusal s ⟨3, 10, []⟩ = some (2, 1)) ∧
    (∀ s ∈ [{ (regs [] up) with belfry := { busy := [(1, [0x1#32, 0x77#32, 0x0#32, 0x0#32])], session := some ⟨3, 10, []⟩ } }],
      s.belfry.session.isSome = true) := by decide +kernel

/-- SmbusAndInputPower: with the input on and the Belfry up, with every strap grounded, and with the input off. -/
theorem wit_smbus :
    (∀ s ∈ [up], s.inputOn = true ∧ belfryUp s = true ∧ resetBusy s = false ∧ s.runState = 0 ∧ fitsB s = true) ∧
    (∀ s ∈ [up], BitVec.ofNat 8 (pec [2 * (0x58#7 + s.straps.setWidth 7).toNat, 0x10, 2]) = 0xB3#8 ∧
      BitVec.ofNat 8 (pec [2 * (0x58#7 + s.straps.setWidth 7).toNat, 0x10, 1]) = 0xBA#8 ∧
      (0xBA#8).toNat ≠ pec [2 * (0x58#7 + s.straps.setWidth 7).toNat, 0x10, 2]) ∧
    (∀ s ∈ [{ up with straps := 7#3 }], s.inputOn = true ∧ belfryUp s = true ∧ 0x58#7 + s.straps.setWidth 7 = 0x5F#7 ∧
      (0x58#7 : BitVec 7) ≠ 0x58#7 + s.straps.setWidth 7) ∧
    (∀ s ∈ [{ State.reset with inputOn := false, start := .off }], s.inputOn = false) := by decide +kernel

/-- TablesStayCanonical and PliesAndClaimsStayInRange: a state with a command waiting. -/
theorem wit_invariants :
    (∀ s ∈ [{ live5 {} with pending := [.timebaseTick] }], s.tablesWf = true ∧ fitsB s = true) := by decide +kernel


/-- Vector 0, once due, stays due, with the same table and the same entries due, when the vectors are brought up to date (R397). -/
theorem sync_keeps_vector_0 (s : State) (rq : Req) (h : (s.ring rq).unsent.getLsbD 0 = true) :
    ((syncVectors s).ring rq).unsent.getLsbD 0 = true ∧ ((syncVectors s).ring rq).msix = (s.ring rq).msix ∧
      ((syncVectors s).ring rq).due = (s.ring rq).due := by
  refine forEach_inv (fun (t : State) => (t.ring rq).unsent.getLsbD 0 = true ∧ (t.ring rq).msix = (s.ring rq).msix ∧
    (t.ring rq).due = (s.ring rq).due) _ (fun a t ht => ?_) _ _ ⟨h, rfl, rfl⟩
  by_cases e : a = rq
  · subst e
    simp [syncRing, Ring.due_, ht.1, ht.2.1, ht.2.2]
  · have : (syncRing t a).ring rq = t.ring rq := State.ring_setRing_other t _ (Ne.symm e)
    rw [this]; exact ht

/-- A port whose ring of function 0 owes a message of vector 0, with this MSI-X table. -/
def owing (tbl : SMap Word) : State :=
  { State.reset with regs := [(pHost 0 0 + 0x40, 0x80000000#32)], hosts := [(0, { ring0 := { unsent := 1#128, msix := tbl } })] }

/-- The same port, after the OK entry of stroke 63. -/
def posting : State :=
  { owing [] with regs := [(pRun + 0x50, 63#32), (pHost 0 0 + 0x40, 0x80000000#32)], run := { posted := [(63#32, ⟨0, false⟩)] } }

/-- MsixMessageSent: a masked vector and an unmasked one; the message that follows the OK entry of the stroke of lowest ID; the last table word of
the own port and of another. -/
theorem wit_msix_send :
    (let r := (syncVectors (owing [])).ring ⟨0, false⟩
     r.unsent.getLsbD 0 = true ∧ (owing []).bget (pHost 0 0 + 0x40) 31 = true ∧ getB (msixWord r 3) 0 = true) ∧
    (let s := owing [(0, 0x1000#32), (2, 7#32), (3, 0#32)]
     let r := (syncVectors s).ring ⟨0, false⟩
     r.unsent.getLsbD 0 = true ∧ s.bget (pHost 0 0 + 0x40) 31 = true ∧ getB (msixWord r 3) 0 = false) ∧
    (let s := posting
     let r := (syncVectors s).ring ⟨0, false⟩
     r.unsent.getLsbD 0 = true ∧ s.bget (pHost 0 0 + 0x40) 31 = true ∧ s.run.posted = [(63#32, ⟨0, false⟩)] ∧ r.due = [] ∧ s.reg (pRun + 0x50) = 63#32) ∧
    (2 ≤ (regs [(pHost 3 3 + 0xC, 3#32)] up).readyState (pHost 3 3) ∧ (511 : Nat) < 512 ∧ (3 : Fin 4) ≠ 0) := by
  have h := fun tbl => sync_keeps_vector_0 (owing tbl) ⟨0, false⟩ (show (1#128).getLsbD 0 = true by decide)
  have p := sync_keeps_vector_0 posting ⟨0, false⟩ (show (1#128).getLsbD 0 = true by decide)
  refine ⟨⟨(h _).1, by decide +kernel, ?_⟩, ⟨(h _).1, by decide +kernel, ?_⟩, ⟨p.1, by decide +kernel, rfl, ?_, by decide +kernel⟩, by decide +kernel⟩
  · simp only [msixWord, (h _).2.1]; decide +kernel
  · simp only [msixWord, (h _).2.1]; decide +kernel
  · simp only [p.2.2]; decide +kernel

/-- The shift map of a field without defects. -/
def idMap : ShiftMap := tab 128 (fun r => (r, []))

theorem routerBad_nil (f pr pc : Nat) : routerBad [] f pr pc = false := by
  unfold routerBad
  simp only [List.any_nil, Bool.or_false, Bool.false_or, Bool.not_false, Bool.true_and, Bool.and_true]
  repeat' split
  all_goals rfl

theorem idMap_row {r : Nat} (h : r < 128) : smRow idMap r = r ∧ ∀ lx, smCol idMap r lx = lx := by
  have : (List.range 128).all (fun r => decide (smRow idMap r = r ∧ (nth (r, []) idMap r).2 = [])) = true := by decide +kernel
  have := List.all_eq_true.mp this r (by simpa using h)
  simp only [decide_eq_true_eq] at this
  exact ⟨this.1, fun lx => by unfold smCol; rw [this.2]; rfl⟩

theorem rowOk_idMap {r : Nat} (h : r < 128) : rowOk [] 63 144 idMap r = true := by
  simp only [rowOk, (idMap_row h).1, (idMap_row h).2, routerBad_nil, spindleBad, linkBad, List.any_nil, Bool.not_false, Bool.and_true, Bool.or_false]
  simp
  exact ⟨by omega, fun x hx => by omega⟩

theorem stepOk_idMap {r : Nat} (h : r < 127) :
    stepOk [] 63 144 (smRow idMap r) (smRow idMap (r + 1)) (smCol idMap r) (smCol idMap (r + 1)) = true := by
  simp only [stepOk, (idMap_row (show r < 128 by omega)).1, (idMap_row (show r + 1 < 128 by omega)).1, (idMap_row (show r < 128 by omega)).2,
    (idMap_row (show r + 1 < 128 by omega)).2, linkBad, List.any_nil]
  simp

theorem mapOk_idMap (s : State) (h : s.maps = []) : mapOk s [] 63 144 idMap = true := by
  have hn : ∀ g, mapOf s g = none := fun g => by simp [mapOf, State.fmap, h]
  simp only [mapOk, hn, Bool.and_eq_true, List.all_eq_true, List.mem_range, decide_eq_true_eq]
  refine ⟨⟨⟨⟨⟨⟨by decide +kernel, fun r hr => rowOk_idMap hr⟩, fun r hr => stepOk_idMap hr⟩, ?_⟩, ?_⟩, ?_⟩, ?_⟩ <;> simp

/-- StartUpTestsAndMaps: a field of a W1-X without defects, mapped. -/
theorem wit_startup_mapped :
    (let s := regs [(pField 63 + 0xC, 1#32), (pFuse + 0x4C, 0x3F01#32), (pGlobal + 0x48, 1#32), (pGlobal + 0x50, 0x4000480#32)]
       { State.reset with start := .testing }
     s.readyState (pField 63) = 1 ∧ s.fget (pReset + 0x44) 9 8 ≤ 1 ∧ s.start = .testing ∧ s.bget (pFuse + 0x4C) 31 = false ∧ 63 ∉ s.belfry.back ∧
     s.links = [] ∧ s.cols = gradeCols s ∧ gradeCols s = 144 ∧ inForce s [] = [] ∧ mapOk s (inForce s []) 63 s.cols idMap = true ∧
     gatesOk (placeMap s (inForce s []) 63 s.cols idMap) 63 = true) := by
  intro s
  have hi : inForce s [] = [] := by decide +kernel
  have hc : s.cols = 144 := by decide +kernel
  rw [hi, hc]
  refine ⟨by decide +kernel, by decide +kernel, by decide +kernel, by decide +kernel, by decide +kernel, by decide +kernel, by decide +kernel, by decide +kernel, rfl, mapOk_idMap _ (by decide +kernel), ?_⟩
  decide +kernel

/-- Fewer than 128 rows without a ROW record hold no field, whatever the count of columns. -/
theorem rowsHold_short (rs : List Word) (f c : Nat)
    (h : ((List.range 130).filter (fun pr => !rs.any (fun x => recKind x = 4 && recField x = f && recLoc x = pr))).length < 128) :
    rowsHold rs f c = false := by
  have := (List.monotone_filter_right (List.range 130) (p := fun pr => !rs.any (fun x => recKind x = 4 && recField x = f && recLoc x = pr)
    && decide (c ≤ ((List.range 152).filter (fun pc => !spindleBad rs f pr pc)).length))
    (q := fun pr => !rs.any (fun x => recKind x = 4 && recField x = f && recLoc x = pr)) (fun a ha => by simp_all)).length_le
  unfold rowsHold
  exact decide_eq_false (by omega)

/-- StartUpTestsAndMaps: a field of a W1-X with three bad rows, for which no count of columns has a map. -/
theorem wit_startup_no_columns :
    (let s := regs [(pField 63 + 0xC, 1#32), (pFuse + 0x4C, 0x3F01#32), (pGlobal + 0x48, 1#32), (pGlobal + 0x50, 0x4000480#32)]
       { State.reset with start := .testing, fuses := { records := [defect 4 63 0 0, defect 4 63 1 0, defect 4 63 129 0] } }
     s.readyState (pField 63) = 1 ∧ s.fget (pReset + 0x44) 9 8 ≤ 1 ∧ s.start = .testing ∧ s.bget (pFuse + 0x4C) 31 = false ∧ 63 ∉ s.belfry.back ∧
     s.links = [] ∧ s.cols = gradeCols s ∧ gradeCols s = 144 ∧ s.runState = 0 ∧ colsOk s (inForce s []) 63 0 = true) := by
  intro s
  have hi : inForce s [] = [defect 4 63 0 0, defect 4 63 1 0, defect 4 63 129 0] := by decide +kernel
  have hc : ∀ c, colsExist s [defect 4 63 0 0, defect 4 63 1 0, defect 4 63 129 0] 63 c = false := fun c => by
    unfold colsExist
    rw [rowsHold_short _ _ _ (by decide +kernel), Bool.false_and, Bool.or_false]
    decide +kernel
  refine ⟨by decide +kernel, by decide +kernel, by decide +kernel, by decide +kernel, by decide +kernel, by decide +kernel, by decide +kernel,
    by decide +kernel, by decide +kernel, ?_⟩
  simp only [hi, colsOk, hc]
  simp

/-- A staged firmware image of VERSION 7, and a probe set with ID 5 and one vector. -/
def staged : Session := ⟨3, 160, [(0, 0x50), (1, 0x55), (2, 0x48), (3, 0x53), (4, 1), (6, 1), (8, 7)]⟩
def stagedProbe : Session := ⟨3, 480, [(0, 0x42), (1, 0x4F), (2, 0x52), (3, 0x50), (4, 1), (6, 5), (8, 7), (12, 1), (16, 1)]⟩

/-- The words of UPDATE_END for session 3, without ACTIVATE and with it. -/
def endWords (activate : Bool) : List Word := [0x5000C#32, 0#32, 0#32, 0#32, 3#32, BitVec.ofNat 32 activate.toNat]

/-- A state whose UPDATE_END is at the front of the Belfry's messages; `loaded` says that a peal is. -/
def ending (x : Session) (activate loaded : Bool) : State :=
  { (regs [(pRun + 0x40, if loaded then 2#32 else 0#32)] up) with belfry := { busy := [(7, endWords activate)], session := some x } }

/-- MailboxCommandsAnswer, the clauses of UPDATE_END in which an image is installed, and in which its activation is accepted or refused:
whether a signature verifies is a free value of `Config`, so the witness is for a signature that verifies. -/
theorem wit_update_installed (h : ∀ x ∈ [staged, stagedProbe], Config.signatureValid (imgBytes x 0 x.len) = true) :
    (∀ x ∈ [staged, stagedProbe], ∀ activate loaded, (ending x activate loaded).belfry.session = some x ∧ belfryUp (ending x activate loaded) = true ∧
      (ending x activate loaded).belfry.resetAfter = none ∧ (ending x activate loaded).runState = (if loaded then 2 else 0) ∧
      mbCmd (endWords activate) = 0xC ∧ mbPrivileged 7 = true ∧ mbArg (endWords activate) 0 4 = x.num ∧
      mbArg (endWords activate) 4 1 % 2 = activate.toNat ∧ imgRefusal (ending x activate loaded) x = none) ∧
    isProbe staged = false ∧ imgKind staged = 1 ∧ isProbe stagedProbe = true := by
  have f : imgShape staged = true ∧ isProbe staged = false ∧ imgKind staged = 1 ∧ img staged 24 8 = 0 ∧ img staged 12 1 = 0 := by decide +kernel
  have p : imgShape stagedProbe = true ∧ isProbe stagedProbe = true ∧ imgKind stagedProbe = 5 ∧ img stagedProbe 16 4 = 1 := by decide +kernel
  have hs := h staged (by simp)
  have hp := h stagedProbe (by simp)
  refine ⟨?_, f.2.1, f.2.2.1, p.2.1⟩
  intro x hx activate loaded
  simp only [List.mem_cons, List.not_mem_nil, or_false] at hx
  rcases hx with rfl | rfl
  · refine ⟨rfl, ?_, rfl, ?_, ?_, by decide +kernel, ?_, ?_, ?_⟩
    all_goals first | (cases activate <;> cases loaded <;> decide +kernel) | skip
    have e : (ending staged activate loaded).fuses.ar = 0 ∧ (ending staged activate loaded).belfry.probes = [] := ⟨rfl, rfl⟩
    simp [imgRefusal, imgSigned, f, hs, e]
  · refine ⟨rfl, ?_, rfl, ?_, ?_, by decide +kernel, ?_, ?_, ?_⟩
    all_goals first | (cases activate <;> cases loaded <;> decide +kernel) | skip
    have e : (ending stagedProbe activate loaded).fuses.grade = 1 ∧ (ending stagedProbe activate loaded).belfry.probes = [] := ⟨rfl, rfl⟩
    have e2 : stagedProbe.len = 480 := rfl
    rw [e2] at hp
    simp [imgRefusal, imgSigned, p, hp, e, e2]


end Sys2Proof.Tests
end

section
/-! RegisterWriteTakesByAccess and ResetLeavesTheSpecValues: registers at power-on, and whole register writes. -/
namespace Sys2Proof.Machine

/-! ### Power-on -/

/-- The only register that power-on leaves away from its reset value is RST_STATUS (R427, R428). -/
theorem reg_reset_eq_resetOf {o : Nat} (h : o ≠ pReset + 0x44) : State.reset.reg o = resetOf o :=
  SMap.get_unlisted resetOf (fun _ he hk => h (by rw [← hk, List.mem_singleton.1 he]; rfl))

/-- A register of a located page, RST_STATUS apart, holds at power-on what its page's table gives (R11). -/
theorem reg_reset_eq_pageReset {base o : Nat} {pg : Page} (hl : locate (base + o) = some pg) (hb : pg.base = base)
    (h : base + o ≠ pReset + 0x44) : State.reset.reg (base + o) = pageReset pg o := by
  rw [reg_reset_eq_resetOf h, resetOf, hl]
  exact congrArg (pageReset pg) (by rw [hb, Nat.add_sub_cancel_left])

/-- Field blocks and host ports lie above the RESET page (R32). -/
theorem pReset_lt_pField (f : Nat) : pReset + 0x44 < pField f := by unfold pReset pField fieldBase; omega

theorem pReset_lt_ringPage (rq : Req) : pReset + 0x44 < ringPage rq := by unfold pReset ringPage pHost; omega

theorem reg_reset_fieldCtrl {f o : Nat} (hf : f < 64) (ho : o < 0x1000) :
    State.reset.reg (pField f + o) = pageReset ⟨.fieldCtrl, pField f, 0x20, f, 0⟩ o :=
  reg_reset_eq_pageReset (locate_fieldCtrl hf ho) rfl (by have := pReset_lt_pField f; omega)

theorem reg_reset_bob0 {f o : Nat} (hf : f < 64) (ho : o < 0x1000) :
    State.reset.reg (pBob f 0 + o) = pageReset ⟨.bob0, pBob f 0, 0x23, f, 0⟩ o :=
  reg_reset_eq_pageReset (locate_bob0 hf ho) rfl (by have := pReset_lt_pField f; unfold pField at this; unfold pBob; omega)

theorem reg_reset_power {f o : Nat} (hf : f < 64) (ho : o < 0x1000) :
    State.reset.reg (pPower f + o) = pageReset ⟨.power, pPower f, 0x26, f, 0⟩ o :=
  reg_reset_eq_pageReset (locate_power hf ho) rfl (by have := pReset_lt_pField f; unfold pField at this; unfold pPower; omega)

theorem reg_reset_ring (rq : Req) {o : Nat} (ho : o < 0x1000) :
    State.reset.reg (ringPage rq + o) = pageReset ⟨.hpRing, ringPage rq, 0x10, rq.port.val, if rq.fn1 then 2 else 1⟩ o :=
  reg_reset_eq_pageReset (locate_ring rq ho) rfl (by have := pReset_lt_ringPage rq; omega)

/-- MESH_CTRL, BB_CTRL, PT_STATE and PAGE_READY of a field at power-on (R232, R288, R484, R435). -/
theorem reset_fieldRegs {f : Nat} (hf : f < 64) :
    State.reset.reg (pField f + 0x180) = 0x10010#32 ∧ State.reset.reg (pBob f 0 + 0x40) = 0x10040#32 ∧
    State.reset.reg (pPower f + 0x68) = 4#32 ∧ State.reset.readyState (pField f) = 0 ∧ State.reset.readyReason (pField f) = 1 := by
  have hready : State.reset.reg (pField f + 0xC) = 0x100#32 := reg_reset_fieldCtrl hf (by omega)
  refine ⟨reg_reset_fieldCtrl hf (by omega), reg_reset_bob0 hf (by omega), reg_reset_power hf (by omega), ?_, ?_⟩
  · rw [State.readyState, State.fget, hready]; decide
  · rw [State.readyReason, State.fget, hready]; decide

/-- At power-on the tables of registers, memory and marks are in canonical form. -/
theorem reset_tablesWf : State.reset.tablesWf = true := by decide

/-- At power-on no ply but 0 is active, nothing is claimed, and no channel holds a copy. -/
theorem reset_fits : State.reset.fits := by
  refine ⟨fun _ => Nat.succ_pos 3, fun _ => ⟨?_, ?_, ?_, ?_⟩, ?_, ?_, ?_, fun _ _ _ h => nomatch h⟩
  all_goals exact fun _ h => nomatch h

/-- Settles O58: RST_STATUS apart, every register is at its reset value, which its page's table gives. -/
theorem resetLeavesTheSpecValues : Obligations.ResetLeavesTheSpecValues := by
  refine ⟨fun o => reg_reset_eq_resetOf, rfl, ?_, ?_, ?_, ?_, fun f => reset_fieldRegs, fun rq => reg_reset_ring rq (by omega),
    fun _ => rfl, fun _ => rfl, fun _ _ _ => rfl, ?_, rfl, rfl, reset_tablesWf, reset_fits⟩
  · exact reg_reset_eq_pageReset (locate_clock (by omega)) rfl (by decide)
  · exact reg_reset_eq_pageReset (locate_clock (by omega)) rfl (by decide)
  · exact reg_reset_eq_pageReset (locate_timebase (by omega)) rfl (by decide)
  · exact reg_reset_eq_pageReset (locate_run (by omega)) rfl (by decide)
  · rw [State.runState, State.fget, reg_reset_eq_pageReset (locate_run (by omega)) rfl (by decide)]; decide

/-! ### Whole register writes (R9, R35) -/

/-- A whole write of one register is `writeReg` at its offset. -/
theorem exec_wholeWrite (s : State) (port : Fin 4) (fn1 : Bool) {off : Nat} (d : Word) (h : off % 4 = 0) :
    exec (.bar0RegisterWrite port fn1 off [(15, d)] false) s = .next (writeReg s ⟨port, fn1⟩ off d) := by
  have e : exec (.bar0RegisterWrite port fn1 off [(15, d)] false) s = .next (writeReg s ⟨port, fn1⟩ (off / 4 * 4) d) := rfl
  rw [e, align4 h]

/-- A permitted whole write of a register from +0x40 is `writeBlock`, after at most a denial of fields that function 1 may not
write (R45); function 0 is denied nothing. -/
theorem writeReg_serves {s : State} {rq : Req} {off : Nat} {pg : Page} {fs : List RField} (d : Word) (hs : Serves s off pg fs)
    (hf : foreign pg rq (off - pg.base) = false) (hm : pg.kind ≠ .hpMsix) (hw : writable s pg rq = true) (ho : 0x40 ≤ off - pg.base) :
    ∃ u, onlyRegsAt denialReg s u ∧ (rq.fn1 = false → u = s) ∧
      writeReg s rq off d = writeBlock u rq pg (off - pg.base) fs (written rq fs (u.reg off) d) d := by
  obtain ⟨hpage, hfields, hin, hpres⟩ := hs
  unfold writeReg
  simp only [hpage, hfields, hin, hpres, hf, hw, hm, decide_false, Bool.false_and, Bool.or_self, Bool.false_eq_true, if_false,
    Bool.not_true, if_neg (Nat.not_lt.2 ho)]
  exact ⟨_, filtered_cases _ _ _ _ _, fun h0 => by simp [filtered, h0], rfl⟩

/-- There is one EDGE_RING page (R32): every other branch of the page map has another kind. -/
theorem base_of_edgeRing {a : Nat} {pg : Page} (h : locate a = some pg) : pg.kind = .edgeRing → pg.base = pRing := by
  revert h
  unfold locate fieldPage
  dsimp only
  refine ite_some (P := fun p => p.kind = .edgeRing → p.base = pRing) (fun _ => ?_) (fun _ => ?_) pg
  all_goals
    repeat' refine ite_some (fun _ => ?_) (fun _ => ?_)
    all_goals
      rintro p ⟨⟩ <;> simp

/-- A whole write of a plain register stores what R9 gives and changes nothing else but denial registers. -/
theorem writeReg_plain {s : State} {port : Fin 4} {fn1 : Bool} {off : Nat} {pg : Page} {fs : List RField} (d : Word)
    (hs : Serves s off pg fs) (hp : plainReg pg.kind (off - pg.base) = true) (hw : writable s pg ⟨port, fn1⟩ = true)
    (hd : fn1 = true → ¬ denialReg off) :
    (writeReg s ⟨port, fn1⟩ off d).reg off = written ⟨port, fn1⟩ fs (s.reg off) d ∧
    onlyRegsAt (fun o => o = off ∨ (fn1 = true ∧ denialReg o)) s (writeReg s ⟨port, fn1⟩ off d) := by
  obtain ⟨hmsix, hpba, hmbox, h40, -⟩ := plain_kind hp
  obtain ⟨u, hu, hu0, hwrite⟩ := writeReg_serves d hs (foreign_plain hmsix hpba hmbox) hmsix hw h40
  have hkeep : ∀ o, ¬ (fn1 = true ∧ denialReg o) → u.reg o = s.reg o := by
    intro o ho
    cases fn1 with
    | false => rw [hu0 rfl]
    | true => exact hu.2 o (fun h => ho ⟨rfl, h⟩)
  have hoff : pg.base + (off - pg.base) = off := by omega
  rw [hwrite, writeBlock_plain hp (base_of_edgeRing hs.page), hoff, hkeep off (fun h => hd h.1 h.2)]
  refine ⟨State.reg_setReg_same _ _ _, hu.1.trans (State.onlyRegs_setReg _ _ _), fun o ho => ?_⟩
  rw [not_or] at ho
  rw [State.reg_setReg_other _ _ ho.1, hkeep o ho.2]

/-! ### The EDGE_RING page (R377) -/

theorem locate_edgeRing {o : Nat} (ho : o < 0x1000) : locate (pRing + o) = some ⟨.edgeRing, pRing, 0x12, 0, 0⟩ := by
  rw [locate_congr (b := pRing) (by unfold pRing; omega)]
  rfl

/-- A privileged whole write of an EDGE_RING register in service. -/
theorem writeReg_edgeRing {s : State} (port : Fin 4) {o : Nat} (d : Word) {fs : List RField} (h0 : 0x40 ≤ o) (ho : o < 0x1000)
    (hr : 2 ≤ s.readyState pRing) (hf : pageFields .edgeRing o = some fs) :
    writeReg s ⟨port, false⟩ (pRing + o) d = writeEdgeRing s o (written ⟨port, false⟩ fs (s.reg (pRing + o)) d) := by
  have hsub : pRing + o - pRing = o := Nat.add_sub_cancel_left _ _
  have hs : Serves s (pRing + o) ⟨.edgeRing, pRing, 0x12, 0, 0⟩ fs :=
    ⟨locate_edgeRing ho, by rw [hsub]; exact hf, by simp [pageOut, Nat.not_lt.2 hr], by simp [absent]⟩
  obtain ⟨u, -, hu, hw⟩ := writeReg_serves (rq := ⟨port, false⟩) d hs (foreign_plain nofun nofun nofun) nofun (writable_priv _ _ _)
    (by rw [hsub]; exact h0)
  rw [hw, hu rfl, hsub]
  rfl

/-- The fields of a table's data register: its low 16 bits (R377). -/
def dataFields : List RField := [⟨15, 0, .rwp, 0⟩]

/-- A table's data register takes the low 16 bits written. -/
theorem written_dataFields (port : Fin 4) (w d : Word) : written ⟨port, false⟩ dataFields w d &&& 0xFFFF#32 = d &&& 0xFFFF#32 := by
  refine BitVec.eq_of_getLsbD_eq fun i hi => ?_
  have hmask : ∀ j, j < 32 → (0xFFFF#32).getLsbD j = decide (j < 16) := by decide
  rw [BitVec.getLsbD_and, BitVec.getLsbD_and, hmask i hi]
  by_cases h : i < 16
  · have hfield : bitAcc dataFields (fun a => a = .rw ∨ (a = .rwp ∧ false = false)) i :=
      ⟨⟨15, 0, .rwp, 0⟩, List.mem_singleton.2 rfl, Nat.zero_le _, Nat.le_of_lt_succ h, .inr ⟨rfl, rfl⟩⟩
    rw [(written_bit port false dataFields w d i hi).1 hfield]
  · simp [h]

/-- A write to VIA_DATA. -/
theorem writeReg_viaData {s : State} (port : Fin 4) (d : Word) (hr : 2 ≤ s.readyState pRing) :
    writeReg s ⟨port, false⟩ (pRing + 0x54) d = { s with
      via := SMap.set (fun _ => 0#32) s.via (s.fget (pRing + 0x50) 18 16 * 64 + s.fget (pRing + 0x50) 5 0) (d &&& 0xFFFF#32) } := by
  rw [writeReg_edgeRing port d (by omega) (by omega) hr (fs := dataFields) rfl, writeEdgeRing, if_pos rfl, written_dataFields]

/-- A write to RELAY_DATA. -/
theorem writeReg_relayData {s : State} (port : Fin 4) (d : Word) (hr : 2 ≤ s.readyState pRing) :
    writeReg s ⟨port, false⟩ (pRing + 0x84) d =
      { s with relay := SMap.set (fun _ => 0#32) s.relay (s.fget (pRing + 0x80) 15 0) (d &&& 0xFFFF#32) } := by
  rw [writeReg_edgeRing port d (by omega) (by omega) hr (fs := dataFields) rfl, writeEdgeRing, if_neg (by omega), if_pos rfl,
    written_dataFields]

theorem fields_viaSize {i : Nat} (hi : i < 8) : pageFields .edgeRing (0x60 + 4 * i) = some [⟨6, 0, .rwp, 0⟩] := by
  have h : ∀ i, i < 8 → pageFields .edgeRing (0x60 + 4 * i) = some [⟨6, 0, .rwp, 0⟩] := by decide
  exact h i hi

/-- A write to VIA_SIZE_s stores the size, 64 at most. -/
theorem writeReg_viaSize {s : State} (port : Fin 4) (d : Word) {i : Nat} (hi : i < 8) (hr : 2 ≤ s.readyState pRing) :
    writeReg s ⟨port, false⟩ (pRing + 0x60 + 4 * i) d = s.setReg (pRing + 0x60 + 4 * i) (BitVec.ofNat 32 (min 64 (getF d 6 0))) := by
  have hrange : (decide (0x60 ≤ 0x60 + 4 * i) && decide (0x60 + 4 * i < 0x80)) = true := by simp; omega
  rw [Nat.add_assoc, writeReg_edgeRing port d (by omega) (by omega) hr (fields_viaSize hi), writeEdgeRing, if_neg (by omega),
    if_neg (by omega), if_pos hrange, getF_written port _ _ _ 6 0 (by omega) ⟨_, List.mem_singleton.2 rfl, by simp⟩]

/-- A VIA table entry after a write of the entry that VIA_SEL names. -/
theorem get_via_set (m : SMap Word) {g e G E : Nat} (v : Word) (he : e < 64) (hE : E < 64) :
    SMap.get (fun _ => 0#32) (SMap.set (fun _ => 0#32) m (G * 64 + E) v) (g * 64 + e) =
      if g = G ∧ e = E then v else SMap.get (fun _ => 0#32) m (g * 64 + e) := by
  rw [SMap.get_set]
  exact if_congr (by omega) rfl rfl

/-! ### Poisoned writes (R382, R383) -/

/-- The state after a poisoned BAR0 write was counted by its port, and the free choice whether it takes effect was drawn. -/
def poisonCounted (s : State) (port : Fin 4) : State :=
  let p := pHost port.val 0
  (((s.bump48 p (p + 0x68) 1).raise p 2).free 1).2

/-- A poisoned write is counted; then it takes effect, or it does not. -/
theorem bar0Request_poisoned (s : State) (rq : Req) (off : Nat) (parts : List (Nat × Word)) :
    bar0Request s rq off parts true = poisonCounted s rq.port ∨
    bar0Request s rq off parts true = bar0Write (poisonCounted s rq.port) rq off parts := by
  unfold bar0Request
  rw [if_neg (by decide)]
  dsimp only
  split
  · exact .inr rfl
  · exact .inl rfl

/-- Counting a poisoned write: POISON_RX one up, its event set, and no other register but the counter's high word and EVT_AGAIN. -/
theorem poisonCounted_does (s : State) (port : Fin 4) :
    let p := pHost port.val 0
    let c := poisonCounted s port
    c.reg (p + 0x68) = s.reg (p + 0x68) + 1#32 ∧ c.bget (p + 0x18) 2 = true ∧
    sameRegs (fun a => a = p + 0x68 ∨ a = p + 0x6C ∨ a = p + 0x18 ∨ a = p + 0x1C) s c ∧
    c = { s with regs := c.regs, freeCtr := c.freeCtr } := by
  intro p c
  have hregs : ∀ o, c.reg o = ((s.bump48 p (p + 0x68) 1).raise p 2).reg o := fun _ => rfl
  refine ⟨?_, ?_, fun o ho => ?_, ?_⟩
  · rw [hregs, State.reg_raise_other _ _ _ (by omega) (by omega), State.reg_bump48_lo _ _ _ _ (by omega) (by omega)]
  · rw [State.bget, hregs]
    exact State.bget_raise _ p (by omega)
  · simp only [not_or] at ho
    obtain ⟨hlo, hhi, hevt, hagain⟩ := ho
    rw [hregs, State.reg_raise_other _ _ _ hevt hagain, State.reg_bump48_other _ _ _ _ hlo hhi hevt hagain]
  · have h := (State.onlyRegs_bump48 s p (p + 0x68) 1).trans (State.onlyRegs_raise _ p 2)
    exact congrArg (fun t : State => { t with freeCtr := c.freeCtr }) h

/-- Settles O9: plain registers by `writeReg_plain` and `written_bit`, the EDGE_RING tables by what each data register stores, and a
poisoned write by counting it first. -/
theorem registerWriteTakesByAccess : Obligations.RegisterWriteTakesByAccess := by
  refine ⟨fun s port fn1 off d pg fs ha hs hp hw hd => ?_, fun s port d hr => ⟨?_, ?_, fun i hi => ?_⟩,
    fun s port fn1 off parts => ?_⟩
  · obtain ⟨hreg, hframe⟩ := writeReg_plain d hs hp hw hd
    refine ⟨_, exec_wholeWrite s port fn1 d ha, hframe, fun i hi => ?_⟩
    rw [hreg]
    exact written_bit port fn1 fs (s.reg off) d i hi
  · refine ⟨_, exec_wholeWrite s port false d (by unfold pRing; omega), ?_⟩
    rw [writeReg_viaData port d hr]
    exact ⟨fun g e _ he => get_via_set s.via _ he (getF_lt _ 5 0), rfl⟩
  · refine ⟨_, exec_wholeWrite s port false d (by unfold pRing; omega), ?_⟩
    rw [writeReg_relayData port d hr]
    exact ⟨fun e => SMap.get_set _ _ _ _ _, rfl⟩
  · refine ⟨_, exec_wholeWrite s port false d (by unfold pRing; omega), ?_⟩
    rw [writeReg_viaSize port d hi hr]
    refine ⟨?_, State.onlyRegs_setReg _ _ _, fun o ho => State.reg_setReg_other _ _ ho⟩
    rw [State.reg_setReg_same, BitVec.toNat_ofNat]
    exact Nat.mod_eq_of_lt (by omega)
  · obtain ⟨hcount, hevt, hsame, hrest⟩ := poisonCounted_does s port
    refine ⟨_, rfl, poisonCounted s port, hcount, hevt, hsame, hrest, ?_⟩
    exact (bar0Request_poisoned s ⟨port, fn1⟩ (off / 4 * 4) parts).imp id (fun h => congrArg _ h.symm)

end Sys2Proof.Machine
end

