-- ==== Sys2Proof/Proofs/Fits.lean ====
section
/-! PROOF. The refutation of PliesAndClaimsStayInRange.

`State.fits` sees a table through its look-ups, which find the first entry of a key. A FIELD reset drops every spindle whose record is the
default one (`resetSpindles`), so in a table that lists a spindle twice, first with the default record, the second record comes into view:
the statement lacks the premise that the tables are canonical. -/
namespace Sys2Proof.Machine

/-- The mailbox has asked for a FIELD reset of field 1, and the table lists spindle 0, of field 0, twice: first with the default record,
then with the active ply 4. -/
def hiddenPly : State :=
  { State.reset with
    regs := []
    belfry := { resetAfter := some (2, 3, 1) }
    spindles := [(0, {}), (0, { ply := 4 })]
    pending := [.fieldReset 3 1] }

/-- The active ply of spindle 0 in the state that an outcome leaves; none when it leaves none. -/
def plyLeft : Out → Option Nat
  | .next t => some (t.spin 0).ply
  | _ => none

/-- A look-up finds the default record of spindle 0, and no other spindle is listed. -/
theorem spin_hiddenPly (sid : Nat) : hiddenPly.spin sid = {} := by
  by_cases h : sid = 0
  · rw [h]; rfl
  · simp [State.spin, hiddenPly, SMap.get, Ne.symm h]

theorem hiddenPly_fits : hiddenPly.fits := by
  obtain ⟨_, hrest⟩ := reset_fits
  exact ⟨fun sid => by simp [spin_hiddenPly], hrest⟩

/-- The reset of field 1 uncovers ply 4 of spindle 0. -/
theorem plyLeft_step_hiddenPly : plyLeft (step hiddenPly) = some 4 := by decide +kernel

/-- Refutes O60: a FIELD reset of field 1 drops the default record of spindle 0 that stood in front of one with active ply 4. -/
theorem not_pliesAndClaimsStayInRange : ¬ Obligations.PliesAndClaimsStayInRange := by
  unfold Obligations.PliesAndClaimsStayInRange
  intro hkeeps
  have hply := plyLeft_step_hiddenPly
  cases hstep : step hiddenPly with
  | next t =>
    obtain ⟨hplies, _⟩ := hkeeps hiddenPly t hiddenPly_fits hstep
    have hlt : (t.spin 0).ply < 4 := hplies 0
    simp [hstep, plyLeft] at hply
    omega
  | _ => simp [hstep, plyLeft] at hply

end Sys2Proof.Machine
end

