-- ==== Sys2Proof/Proofs/NirdorPorts.lean ====
section
/-! PROOF. The rules of a Nirdor port as a whole: what it leaves alone, how it goes down, and what a running run loses with it. -/
namespace Sys2Proof.Machine

/-! ### The pages of a Nirdor port (R32) -/

theorem pNirdor_one (p : Nat) : pNirdor p 1 = pNirdor p 0 + 0x1000 := by unfold pNirdor; omega

theorem le_pNirdor (p k : Nat) : 0x80000 ≤ pNirdor p k := by unfold pNirdor; omega

theorem laneReg_eq (p l : Nat) : laneReg p l = pNirdor p 0 + 0x1040 + 4 * l := by unfold laneReg pNirdor; omega

theorem laneReg_ne (p : Nat) {l m : Nat} (h : l ≠ m) : laneReg p l ≠ laneReg p m := by
  unfold laneReg
  omega

/-- The lane registers stand outside the header (R32). -/
theorem laneReg_aligned (p : Nat) {l : Nat} (h : l < 42) : 0x40 ≤ laneReg p l % 0x1000 := by
  unfold laneReg pNirdor
  omega

/-! ### Port records after an update of the registers -/

namespace State
variable (s : State)

theorem nir_setReg (o : Nat) (v : Word) (q : Nat) : (s.setReg o v).nir q = s.nir q := rfl
theorem nir_fset (o hi lo v q : Nat) : (s.fset o hi lo v).nir q = s.nir q := rfl
theorem nir_raise (pg b q : Nat) : (s.raise pg b).nir q = s.nir q := by rw [nir, raise_nirdors, nir]
theorem nir_bump48 (pg lo n q : Nat) : (s.bump48 pg lo n).nir q = s.nir q := by rw [nir, bump48_nirdors, nir]
theorem nir_modClk (f : Clocks → Clocks) (q : Nat) : (s.modClk f).nir q = s.nir q := rfl

end State

/-! ### States that differ in one port -/

/-- `t` is `s` but for its registers and the record of port p. -/
def onlyPort (p : Nat) (s t : State) : Prop :=
  (∀ q, q ≠ p → t.nir q = s.nir q) ∧ t = { s with regs := t.regs, nirdors := t.nirdors }

namespace onlyPort
variable {p : Nat} {s t u : State}

theorem refl (p : Nat) (s : State) : onlyPort p s s := ⟨fun _ _ => rfl, rfl⟩

theorem trans (h : onlyPort p s t) (k : onlyPort p t u) : onlyPort p s u := by
  obtain ⟨hn, ht⟩ := h
  obtain ⟨kn, ku⟩ := k
  refine ⟨fun q hq => (kn q hq).trans (hn q hq), ?_⟩
  rw [ku, ht]

theorem of_onlyRegs (h : onlyRegs s t) : onlyPort p s t := by
  refine ⟨fun q _ => by rw [State.nir, h.nirdors]; rfl, ?_⟩
  rw [onlyRegs] at h
  rw [h]

theorem setReg (o : Nat) (v : Word) (h : onlyPort p s t) : onlyPort p s (t.setReg o v) := h.trans (of_onlyRegs (State.onlyRegs_setReg _ _ _))
theorem fset (o hi lo v : Nat) (h : onlyPort p s t) : onlyPort p s (t.fset o hi lo v) := h.trans (of_onlyRegs (State.onlyRegs_fset _ _ _ _ _))
theorem raise (pg b : Nat) (h : onlyPort p s t) : onlyPort p s (t.raise pg b) := h.trans (of_onlyRegs (State.onlyRegs_raise _ _ _))
theorem bump48 (pg lo n : Nat) (h : onlyPort p s t) : onlyPort p s (t.bump48 pg lo n) := h.trans (of_onlyRegs (State.onlyRegs_bump48 _ _ _ _))
theorem portReady (q st reason : Nat) (h : onlyPort p s t) : onlyPort p s (portReady t q st reason) :=
  h.trans (of_onlyRegs ((State.onlyRegs_setReady _ _ _ _).trans (State.onlyRegs_setReady _ _ _ _)))
theorem setNir (x : Nirdor) (h : onlyPort p s t) : onlyPort p s (t.setNir p x) :=
  h.trans ⟨fun _ hq => State.nir_setNir_other _ _ hq, rfl⟩

end onlyPort

/-! ### Shared operations -/

/-- Starting to train changes LINK only, and only from DOWN (R352). -/
theorem startTraining_does (s : State) (p : Nat) (asked : Bool) :
    linkState (startTraining s p asked) p =
      (if linkState s p = 0 ∧ mayTrain s p = true ∧ (asked = true ∨ s.bget (pNirdor p 0 + 0x40) 1 = true) then 1 else linkState s p) ∧
    onlyRegsAt (fun o => o = pNirdor p 0 + 0x44) s (startTraining s p asked) := by
  unfold startTraining
  split
  next h =>
    simp only [Bool.and_eq_true, Bool.or_eq_true, decide_eq_true_eq, and_assoc] at h
    rw [if_pos h]
    exact ⟨State.fget_fset_same _ _ _ (by omega), State.onlyRegs_fset _ _ _ _ _, fun o ho => State.reg_fset_other _ _ _ _ ho⟩
  next h =>
    simp only [Bool.and_eq_true, Bool.or_eq_true, decide_eq_true_eq, and_assoc] at h
    rw [if_neg h]
    exact ⟨rfl, rfl, fun _ _ => rfl⟩

/-- With no packet waiting, no frame is sent. -/
theorem pumpAll_idle {s : State} {p : Nat} (h1 : (s.nir p).tx = []) (h2 : (s.nir p).transit = []) : pumpAll s p = s := by
  rw [pumpAll, h1, h2]
  rfl

/-- What a change of PAGE_READY of both pages of a port leaves (R37). -/
theorem readiness_portReady (s : State) (p st reason : Nat) {k : Nat} (hk : k < 2) :
    (portReady s p st reason).readyState (pNirdor p k) = st % 4 ∧ (portReady s p st reason).readyReason (pNirdor p k) = reason % 16 := by
  unfold portReady
  rcases Nat.lt_or_ge k 1 with h0 | h1
  · obtain rfl : k = 0 := by omega
    have hreg : ((s.setReady (pNirdor p 0) st reason).setReady (pNirdor p 1) st reason).reg (pNirdor p 0 + 0xC) =
        (s.setReady (pNirdor p 0) st reason).reg (pNirdor p 0 + 0xC) := by
      have := pNirdor_one p
      exact State.reg_setReady_other _ _ _ _ (by omega) (by omega) (by omega)
    have hst := State.readyState_setReady s (pNirdor p 0) st reason
    have hre := State.readyReason_setReady s (pNirdor p 0) st reason
    unfold State.readyState State.readyReason State.fget at *
    rw [hreg]
    exact ⟨hst, hre⟩
  · obtain rfl : k = 1 := by omega
    exact ⟨State.readyState_setReady _ _ _ _, State.readyReason_setReady _ _ _ _⟩

/-- A change of PAGE_READY touches the header registers of both pages only. -/
theorem reg_portReady_other (s : State) (p st reason : Nat) {o : Nat} (h : 0x40 ≤ o % 0x1000) : (portReady s p st reason).reg o = s.reg o := by
  unfold portReady
  rw [State.reg_setReady_other _ _ _ _ _ _ _, State.reg_setReady_other]
  all_goals unfold pNirdor; omega

/-- An event that has occurred stays set through a change of PAGE_READY. -/
theorem bget_portReady_keeps (s : State) (p st reason i : Nat) (h : s.bget (pNirdor p 0 + 0x18) i = true) :
    (portReady s p st reason).bget (pNirdor p 0 + 0x18) i = true := by
  have hone := pNirdor_one p
  have h0 : (s.setReady (pNirdor p 0) st reason).bget (pNirdor p 0 + 0x18) i = true := by
    unfold State.setReady State.raiseIf
    dsimp only
    have hset : ((s.fset (pNirdor p 0 + 0xC) 1 0 st).fset (pNirdor p 0 + 0xC) 11 8 reason).bget (pNirdor p 0 + 0x18) i = true := by
      rw [State.bget, State.reg_fset_other _ _ _ _ (by omega), State.reg_fset_other _ _ _ _ (by omega)]
      exact h
    split
    · exact State.bget_raise_keeps _ _ _ _ hset
    · exact hset
  rw [State.bget, portReady, State.reg_setReady_other _ _ _ _ (by omega) (by omega) (by omega)]
  exact h0

/-- A count of port p touches its own pair and header registers only. -/
theorem reg_countPort_other (s : State) (p off n : Nat) {o : Nat} (h1 : o ≠ pNirdor p 0 + off) (h2 : o ≠ pNirdor p 0 + off + 4)
    (h : 0x40 ≤ o % 0x1000) : (countPort s p off n).reg o = s.reg o :=
  State.reg_bump48_other _ _ _ _ h1 h2 (by unfold pNirdor; omega) (by unfold pNirdor; omega)

/-! ### A port leaves HELD or UP (R356) -/

/-- The packets that a port holds for its link: in its replay buffer, its own, and those it relays. -/
def heldPackets (s : State) (p : Nat) : List Packet := (s.nir p).replay.map (·.pkt) ++ (s.nir p).tx ++ (s.nir p).transit

/-- The record of a port that left HELD or UP. -/
def Nirdor.emptied (x : Nirdor) : Nirdor :=
  { x with replay := [], tx := [], transit := [], nak := false, swap := false, txSeq := 0, rxSeq := 0 }

/-- The state in which `portDown` looks at what it discarded. -/
def lowered (s : State) (p : Nat) : State :=
  countPort ((dropRef (setLinkState (s.setNir p (s.nir p).emptied) p 0) p).fset (pNirdor p 0 + 0x44) 28 28 0) p 0x88 (heldPackets s p).length

/-- `t` is `s` but for its registers, the record of port p, and the reference that the port provides no more (R374). -/
def unreferenced (p : Nat) (s t : State) : Prop :=
  (∀ q, q ≠ p → t.nir q = s.nir q) ∧ t = { s with regs := t.regs, nirdors := t.nirdors, clocks := t.clocks } ∧
    t.clocks = (if s.fget (pClock + 0x40) 11 8 = p then { s.clocks with eligible := false } else s.clocks)

namespace unreferenced
variable {p : Nat} {s t u : State}

/-- What follows touches the port only. -/
theorem trans (h : unreferenced p s t) (k : onlyPort p t u) : unreferenced p s u := by
  obtain ⟨hn, ht, hc⟩ := h
  obtain ⟨kn, ku⟩ := k
  refine ⟨fun q hq => (kn q hq).trans (hn q hq), ?_, ?_⟩
  · rw [ku, ht]
  · rw [ku, ← hc]

/-- What came before touched the port only. -/
theorem after (h : onlyPort p s t) (href : t.reg (pClock + 0x40) = s.reg (pClock + 0x40)) (k : unreferenced p t u) : unreferenced p s u := by
  obtain ⟨hn, ht⟩ := h
  obtain ⟨kn, ku, kc⟩ := k
  have hclocks : t.clocks = s.clocks := by rw [ht]
  refine ⟨fun q hq => (kn q hq).trans (hn q hq), ?_, ?_⟩
  · rw [ku, ht]
  · rw [kc, State.fget, href, hclocks]
    rfl

end unreferenced

/-- Losing the lock withdraws the reference that the port provides, and clears the lock bit of PORT_STATUS. -/
theorem dropRef_eq (s : State) (p : Nat) : dropRef s p =
    (s.modClk (fun c => if s.fget (pClock + 0x40) 11 8 = p then { c with eligible := false } else c)).fset (pNirdor p 0 + 0x44) 29 29 0 := by
  unfold dropRef
  by_cases h : s.fget (pClock + 0x40) 11 8 = p
  · simp only [if_pos h]
  · simp only [if_neg h]
    rfl

theorem fset_clocks_frame (s : State) (o hi lo v : Nat) :
    s.fset o hi lo v = { s with regs := (s.fset o hi lo v).regs, clocks := (s.fset o hi lo v).clocks } := rfl

/-- A field stored after a change of the clock records. -/
theorem fset_modClk_frame (s : State) (f : Clocks → Clocks) (o hi lo v : Nat) :
    let t := (s.modClk f).fset o hi lo v
    t = { s with regs := t.regs, nirdors := t.nirdors, clocks := t.clocks } ∧ t = { s with regs := t.regs, clocks := t.clocks } ∧
      t.clocks = f s.clocks := ⟨rfl, rfl, rfl⟩

theorem unreferenced_dropRef (s : State) (p : Nat) : unreferenced p s (dropRef s p) := by
  rw [dropRef_eq]
  obtain ⟨hframe, _, hclocks⟩ := fset_modClk_frame s (fun c => if s.fget (pClock + 0x40) 11 8 = p then { c with eligible := false } else c)
    (pNirdor p 0 + 0x44) 29 29 0
  exact ⟨fun q _ => by rw [State.nir_fset, State.nir_modClk], hframe, hclocks⟩

theorem reg_dropRef (s : State) (p o : Nat) :
    (dropRef s p).reg o = if o = pNirdor p 0 + 0x44 then putF (s.reg (pNirdor p 0 + 0x44)) 29 29 0 else s.reg o := by
  rw [dropRef_eq, State.reg_fset, State.reg_modClk, State.reg_modClk]

section
variable (s : State) (p : Nat)

theorem unreferenced_lowered : unreferenced p s (lowered s p) := by
  have hlink : onlyPort p s (setLinkState (s.setNir p (s.nir p).emptied) p 0) :=
    onlyPort.fset _ _ _ _ (onlyPort.setNir _ (onlyPort.refl p s))
  refine (unreferenced.after hlink ?_ (unreferenced_dropRef _ p)).trans ?_
  · have := le_pNirdor p 0
    exact State.reg_setReg_other _ _ (by unfold pClock; omega)
  · exact onlyPort.bump48 _ _ _ (onlyPort.fset _ _ _ _ (onlyPort.refl _ _))

theorem nir_lowered : (lowered s p).nir p = (s.nir p).emptied := by
  unfold lowered countPort setLinkState
  rw [dropRef_eq, State.nir_bump48, State.nir_fset, State.nir_fset, State.nir_modClk, State.nir_fset, State.nir_setNir_same]

/-- PORT_STATUS of a port that left HELD or UP: DOWN, not NARROW, no reference. -/
theorem reg_lowered_status :
    (lowered s p).reg (pNirdor p 0 + 0x44) = putF (putF (putF (s.reg (pNirdor p 0 + 0x44)) 31 30 0) 29 29 0) 28 28 0 := by
  unfold lowered
  rw [reg_countPort_other _ _ _ _ (by omega) (by omega) (by unfold pNirdor; omega), State.reg_fset, if_pos rfl, reg_dropRef, if_pos rfl,
    setLinkState, State.reg_fset, if_pos rfl, State.reg_setNir]

/-- The other registers outside the header, the count of discarded packets apart. -/
theorem reg_lowered_other {o : Nat} (h44 : o ≠ pNirdor p 0 + 0x44) (h88 : o ≠ pNirdor p 0 + 0x88) (h8C : o ≠ pNirdor p 0 + 0x8C)
    (ho : 0x40 ≤ o % 0x1000) : (lowered s p).reg o = s.reg o := by
  unfold lowered
  rw [reg_countPort_other _ _ _ _ h88 h8C ho, State.reg_fset, if_neg h44, reg_dropRef, if_neg h44, setLinkState, State.reg_fset, if_neg h44,
    State.reg_setNir]

/-- Each packet discarded counts. -/
theorem reg_lowered_count :
    (lowered s p).reg (pNirdor p 0 + 0x88) = s.reg (pNirdor p 0 + 0x88) + BitVec.ofNat 32 (heldPackets s p).length := by
  unfold lowered countPort
  rw [State.reg_bump48_lo _ _ _ _ (by omega) (by omega), State.reg_fset, if_neg (by omega), reg_dropRef, if_neg (by omega), setLinkState,
    State.reg_fset, if_neg (by omega), State.reg_setNir]

end

/-- Whether a packet belongs to an entry with SCOPE_RUN 1 depends on the engine number and the entries. -/
theorem scopeRunPacket_lowered (s : State) (p : Nat) (k : Packet) : scopeRunPacket (lowered s p) k = scopeRunPacket s k := by
  have hnum : engineNumber (lowered s p) = engineNumber s := by
    have := le_pNirdor p 0
    unfold engineNumber State.fget
    rw [reg_lowered_other] <;> unfold pGlobal <;> omega
  have hentry : ∀ q, ((lowered s p).nir q).exp = (s.nir q).exp ∧ ((lowered s p).nir q).imp = (s.nir q).imp := by
    intro q
    by_cases h : q = p
    · rw [h, nir_lowered]
      exact ⟨rfl, rfl⟩
    · obtain ⟨hother, _⟩ := unreferenced_lowered s p
      rw [hother q h]
      exact ⟨rfl, rfl⟩
  have hexp : ∀ q e, expRun (lowered s p) q e = expRun s q e := fun q e => by rw [expRun, expW, (hentry q).1]; rfl
  have himp : ∀ q e, impRun (lowered s p) q e = impRun s q e := fun q e => by rw [impRun, impW, (hentry q).2]; rfl
  unfold scopeRunPacket
  rw [hnum, hexp, himp]

theorem running_lowered (s : State) (p : Nat) : (lowered s p).running = s.running := by
  have hreg : (lowered s p).reg (pRun + 0x40) = s.reg (pRun + 0x40) := by
    have := le_pNirdor p 0
    apply reg_lowered_other <;> unfold pRun <;> omega
  unfold State.running State.runState State.fget
  rw [hreg]

/-- The loss that a port's fall means to a running run, if it discarded a packet `k` of the run (R356). -/
def lossTaken (u : State) (p : Nat) : Option Packet → State
  | some k => if u.running then runFault (loss u p 0 k.orderKey k.destEngine 0) ⟨3, none, none⟩ else u
  | none => u

theorem portDown_eq {s : State} {p : Nat} (h2 : 2 ≤ linkState s p) :
    portDown s p =
      portReady ((lossTaken (lowered s p) p ((heldPackets s p).find? (scopeRunPacket (lowered s p)))).raise (pNirdor p 0) 0) p 0 7 := by
  unfold portDown
  rw [if_neg (by omega)]
  rfl

/-- What `portDown` leaves when it loses nothing of a running run. -/
theorem portDown_quiet {s : State} {p : Nat} (h2 : 2 ≤ linkState s p)
    (hq : s.running = false ∨ ∀ k ∈ heldPackets s p, scopeRunPacket s k = false) :
    portDown s p = portReady ((lowered s p).raise (pNirdor p 0) 0) p 0 7 := by
  rw [portDown_eq h2]
  cases hfind : (heldPackets s p).find? (scopeRunPacket (lowered s p)) with
  | none => rfl
  | some k =>
    have hscope : scopeRunPacket s k = true := by rw [← scopeRunPacket_lowered s p]; exact List.find?_some hfind
    have hrun : s.running = false := hq.resolve_right fun h => by simp [h k (List.mem_of_find?_eq_some hfind)] at hscope
    rw [lossTaken, running_lowered, hrun, if_neg Bool.false_ne_true]

/-- What `portDown` leaves when a packet of the running run is lost. -/
theorem portDown_loss {s : State} {p : Nat} (h2 : 2 ≤ linkState s p) (hk : ∃ k ∈ heldPackets s p, scopeRunPacket s k = true)
    (hrun : s.running = true) :
    ∃ k : Packet, portDown s p =
      portReady ((runFault (loss (lowered s p) p 0 k.orderKey k.destEngine 0) ⟨3, none, none⟩).raise (pNirdor p 0) 0) p 0 7 := by
  rw [portDown_eq h2]
  cases hfind : (heldPackets s p).find? (scopeRunPacket (lowered s p)) with
  | none =>
    obtain ⟨k, hmem, hscope⟩ := hk
    exact absurd ((scopeRunPacket_lowered s p k).trans hscope) (List.find?_eq_none.1 hfind k hmem)
  | some k =>
    refine ⟨k, ?_⟩
    rw [lossTaken, running_lowered, hrun, if_pos rfl]

theorem linkState_lowered (s : State) (p : Nat) : linkState (lowered s p) p = 0 := by
  rw [linkState, State.fget, reg_lowered_status, getF_putF_apart _ _ (by omega) (by omega), getF_putF_apart _ _ (by omega) (by omega),
    getF_putF_same _ _ (by omega)]
  rfl

/-! ### A fault of a running run (R335) -/

/-- A log entry touches LOG_SEQ and the events of the mailbox page only. -/
theorem reg_addLog_other (s : State) (code sev : Nat) (l : List Nat) (a b : Nat) (st : Option (Nat × Nat)) {o : Nat}
    (h64 : o ≠ pMbox 0 + 0x64) (h18 : o ≠ pMbox 0 + 0x18) (h1C : o ≠ pMbox 0 + 0x1C) : (addLog s code sev l a b st).reg o = s.reg o := by
  unfold addLog
  split
  · rfl
  · dsimp only
    rw [State.reg_raiseIf_other _ _ _ _ h18 h1C, State.reg_setReg_other _ _ h64, State.reg_modBel]

theorem run_addLog (s : State) (code sev : Nat) (l : List Nat) (a b : Nat) (st : Option (Nat × Nat)) : (addLog s code sev l a b st).run = s.run := by
  unfold addLog
  split <;> simp

/-- Recording a fault touches the fault registers only. -/
theorem reg_recordFault_other (s : State) (c : Cause) {o : Nat} (h : o < pRun + 0x60 ∨ pRun + 0x70 < o) : (recordFault s c).reg o = s.reg o := by
  unfold recordFault
  dsimp only
  iterate 5 rw [State.reg_setReg_other _ _ (by omega)]

/-- FAULT holds the code of a fault that names neither field nor spindle. -/
theorem fget_recordFault_code (s : State) {code : Nat} (h : code < 256) : (recordFault s ⟨code, none, none⟩).fget (pRun + 0x60) 15 8 = code := by
  unfold recordFault State.fget
  dsimp only
  iterate 4 rw [State.reg_setReg_other _ _ (by omega)]
  rw [State.reg_setReg_same]
  simp [getF, fld, Nat.shiftRight_eq_div_pow]
  omega

/-- A change of the run state touches RUN_STATUS and the events of the run page only. -/
theorem reg_setRunState_other (s : State) (v : Nat) {o : Nat} (h40 : o ≠ pRun + 0x40) (h18 : o ≠ pRun + 0x18) (h1C : o ≠ pRun + 0x1C) :
    (setRunState s v).reg o = s.reg o := by
  unfold setRunState
  dsimp only
  rw [State.reg_raiseIf_other _ _ _ _ h18 h1C, State.reg_fset_other _ _ _ _ h40]

theorem runState_setRunState (s : State) (v : Nat) : (setRunState s v).runState = v % 8 := by
  unfold setRunState State.runState
  dsimp only
  rw [State.fget, State.reg_raiseIf_other _ _ _ _ (by unfold pRun; omega) (by unfold pRun; omega)]
  exact State.fget_fset_same _ _ _ (by omega)

/-- The completion entries that strokes are owed change no register. -/
theorem regs_postOwed (s : State) : (postOwed s).regs = s.regs := by
  unfold postOwed
  split
  · rfl
  · exact forEach_inv (fun t : State => t.regs = s.regs) _ (fun k t h => (State.postCpl_regs _ _ _ _ _ _).trans h) _ _ rfl

/-- The state of a fault in RUNNING or DRAINING, once the registers of the run page are set. -/
def faultShown (s : State) (c : Cause) : State :=
  let s := addLog s 0x101 3 [c.code, c.field.getD 0, c.sid.getD 0, (s.reg (pRun + 0x50)).toNat] 3 0 (some (s.tb, Config.runStampSouth.toNat))
  let s := s.bump48 pRun (pRun + 0xA0) 1
  let s := if s.bget (pRun + 0x60) 31 then s else recordFault s c
  (setRunState s 5).raise pRun 0

theorem onlyRegs_recordFault (s : State) (c : Cause) : onlyRegs s (recordFault s c) := by
  unfold recordFault
  extract_lets w s1 s2 s3 s4
  have h1 : onlyRegs s s1 := State.onlyRegs_setReg _ _ _
  have h2 : onlyRegs s s2 := h1.trans (State.onlyRegs_setReg _ _ _)
  have h3 : onlyRegs s s3 := h2.trans (State.onlyRegs_setReg _ _ _)
  have h4 : onlyRegs s s4 := h3.trans (State.onlyRegs_setReg _ _ _)
  exact h4.trans (State.onlyRegs_setReg _ _ _)

theorem onlyRegs_setRunState (s : State) (v : Nat) : onlyRegs s (setRunState s v) :=
  (State.onlyRegs_fset _ _ _ _ _).trans (State.onlyRegs_raiseIf _ _ _ _)

theorem run_faultShown (s : State) (c : Cause) : (faultShown s c).run = s.run := by
  unfold faultShown
  extract_lets s1 s2 s3
  have h3 : s3.run = s2.run := by
    unfold s3
    split
    · rfl
    · exact (onlyRegs_recordFault s2 c).run
  have h2 : s2.run = s.run := (State.bump48_run _ _ _ _).trans (run_addLog _ _ _ _ _ _ _)
  rw [State.raise_run, (onlyRegs_setRunState s3 5).run, h3, h2]

/-- The rest of a fault in RUNNING or DRAINING changes no register when the peal has no channels. -/
theorem regs_runFault_running {s : State} (c : Cause) (hrun : s.running = true) (hchans : s.run.chans = []) :
    (runFault s c).regs = (faultShown s c).regs := by
  have hst : s.runState = 3 ∨ s.runState = 4 := by simpa [State.running] using hrun
  unfold runFault
  extract_lets st s1 s2 s3 s4 s5 s6 s7 s8 s9 s10 s11 s12 s13
  have h7 : s7 = faultShown s c := by
    have h1 : s1 = _ := if_neg (show ¬ st = 0 by omega)
    have h4 : s4 = s1 := if_neg (show ¬ st = 1 by omega)
    unfold s7 s6 s5 faultShown
    rw [h4, h1]
  obtain ⟨h8, hrun8⟩ : s8.regs = s7.regs ∧ s8.run = s7.run := by
    refine forEach_inv (fun t : State => t.regs = s7.regs ∧ t.run = s7.run) _ (fun _ _ h => ?_) _ _ ⟨rfl, rfl⟩
    exact h
  have h9 : s9 = s8 := by
    unfold s9
    rw [hrun8, h7, run_faultShown, hchans]
    rfl
  have h10 : s10.regs = s9.regs := by
    refine forEach_inv (fun t : State => t.regs = s9.regs) _ (fun _ _ h => ?_) _ _ rfl
    exact h
  have h11 : s11.regs = s10.regs := (regs_postOwed _).trans (State.modRun_regs _ _)
  have h12 : s12.regs = s11.regs := by
    unfold s12
    split
    · exact State.postCpl_regs _ _ _ _ _ _
    · rfl
  have h13 : s13.regs = s12.regs := by
    unfold s13
    split
    · exact State.postCpl_regs _ _ _ _ _ _
    · rfl
  rw [if_neg (show ¬ st = 0 by omega), if_neg (show ¬ st = 5 by omega)]
  rw [State.modRun_regs, h13, h12, h11, h10, h9, h8, h7]

/-- A fault in RUNNING or DRAINING of a peal without channels: FAULTED, the first fault recorded, the blocks above the run page and the mailbox
left alone. -/
theorem runFault_running {s : State} {code : Nat} (hcode : code < 256) (hrun : s.running = true) (hchans : s.run.chans = []) :
    let t := runFault s ⟨code, none, none⟩
    t.runState = 5 ∧ (s.bget (pRun + 0x60) 31 = false → t.fget (pRun + 0x60) 15 8 = code) ∧ ∀ o, 0x80000 ≤ o → t.reg o = s.reg o := by
  intro t
  have hreg : ∀ o, t.reg o = (faultShown s ⟨code, none, none⟩).reg o := fun o => by
    rw [State.reg, regs_runFault_running _ hrun hchans]
    rfl
  unfold State.runState State.fget
  simp only [hreg]
  unfold faultShown
  extract_lets s1 s2 s3
  have hpRun : pRun = 0x2000 := rfl
  have hpMbox : pMbox 0 = 0x10000 := rfl
  have h60 : s2.reg (pRun + 0x60) = s.reg (pRun + 0x60) := by
    rw [State.reg_bump48_other _ _ _ _ (by omega) (by omega) (by omega) (by omega), reg_addLog_other _ _ _ _ _ _ _ (by omega) (by omega) (by omega)]
  refine ⟨?_, fun h => ?_, fun o ho => ?_⟩
  · rw [State.reg_raise_other _ _ _ (by omega) (by omega)]
    exact runState_setRunState s3 5
  · have h3 : s3 = recordFault s2 ⟨code, none, none⟩ := if_neg (by rw [State.bget, h60]; simpa [State.bget] using h)
    rw [State.reg_raise_other _ _ _ (by omega) (by omega), reg_setRunState_other _ _ (by omega) (by omega) (by omega), h3]
    exact fget_recordFault_code s2 hcode
  · have h3 : s3.reg o = s2.reg o := by
      unfold s3
      split
      · rfl
      · exact reg_recordFault_other _ _ (by omega)
    rw [State.reg_raise_other _ _ _ (by omega) (by omega), reg_setRunState_other _ _ (by omega) (by omega) (by omega), h3,
      State.reg_bump48_other _ _ _ _ (by omega) (by omega) (by omega) (by omega),
      reg_addLog_other _ _ _ _ _ _ _ (by omega) (by omega) (by omega)]

/-! ### What a port that goes down shows -/

/-- An event that has occurred stays set while a counter of its page counts. -/
theorem bget_bump48_keeps (s : State) (pg lo n i : Nat) (hlo : pg + 0x18 ≠ lo) (hhi : pg + 0x18 ≠ lo + 4) (h : s.bget (pg + 0x18) i = true) :
    (s.bump48 pg lo n).bget (pg + 0x18) i = true := by
  have hset : ∀ (t : State) (v : Word), t.bget (pg + 0x18) i = true → (t.setReg (lo + 4) v).bget (pg + 0x18) i = true := fun t v ht => by
    rw [State.bget_setReg_other _ _ _ hhi]
    exact ht
  have hcount : ∀ v w : Word, ((s.setReg lo v).setReg (lo + 4) w).bget (pg + 0x18) i = true := fun v w =>
    hset _ w (by rw [State.bget_setReg_other _ _ _ hlo]; exact h)
  unfold State.bump48
  dsimp only
  split
  · exact State.bget_raise_keeps _ _ _ _ (hset _ _ (hcount _ _))
  · exact hcount _ _

section
variable {s : State} {p : Nat}

theorem bget_lowered_keeps {i : Nat} (h : s.bget (pNirdor p 0 + 0x18) i = true) : (lowered s p).bget (pNirdor p 0 + 0x18) i = true := by
  refine bget_bump48_keeps _ _ _ _ _ (by omega) (by omega) ?_
  rw [State.bget, State.reg_fset, if_neg (by omega), reg_dropRef, if_neg (by omega), setLinkState, State.reg_fset, if_neg (by omega),
    State.reg_setNir]
  exact h

/-- A register outside the headers reads after the fall of the port as the state it went down in gives it. -/
theorem reg_down_other (u : State) {o : Nat} (ho : 0x40 ≤ o % 0x1000) :
    (portReady (u.raise (pNirdor p 0) 0) p 0 7).reg o = u.reg o := by
  rw [reg_portReady_other _ _ _ _ ho]
  exact State.reg_raise_other _ _ _ (by unfold pNirdor; omega) (by unfold pNirdor; omega)

theorem status_aligned (p : Nat) : 0x40 ≤ (pNirdor p 0 + 0x44) % 0x1000 := by unfold pNirdor; omega

theorem linkState_down (u : State) : linkState (portReady (u.raise (pNirdor p 0) 0) p 0 7) p = linkState u p := by
  rw [linkState, State.fget, reg_down_other _ (status_aligned p)]
  rfl

theorem bget_down_keeps {u : State} {i : Nat} (h : u.bget (pNirdor p 0 + 0x18) i = true) :
    (portReady (u.raise (pNirdor p 0) 0) p 0 7).bget (pNirdor p 0 + 0x18) i = true :=
  bget_portReady_keeps _ _ _ _ _ (State.bget_raise_keeps _ _ _ _ h)

theorem bget_down_event (u : State) : (portReady (u.raise (pNirdor p 0) 0) p 0 7).bget (pNirdor p 0 + 0x18) 0 = true :=
  bget_portReady_keeps _ _ _ _ _ (State.bget_raise _ _ (by omega))

theorem nir_portReady (u : State) (st reason q : Nat) : (portReady u p st reason).nir q = u.nir q := by
  unfold portReady State.nir
  rw [State.setReady_nirdors, State.setReady_nirdors]

theorem nir_down (u : State) (q : Nat) : (portReady (u.raise (pNirdor p 0) 0) p 0 7).nir q = u.nir q := by
  rw [nir_portReady, State.nir_raise]

/-- Both pages of port p are in this state, for this reason. -/
def portIs (t : State) (p st reason : Nat) : Prop :=
  ∀ k, k < 2 → t.readyState (pNirdor p k) = st ∧ t.readyReason (pNirdor p k) = reason

/-- A port that leaves HELD or UP while no packet of a running run is lost (R356). -/
theorem portDown_quiet_does (h2 : 2 ≤ linkState s p) (hq : s.running = false ∨ ∀ k ∈ heldPackets s p, scopeRunPacket s k = false) :
    let t := portDown s p
    linkState t p = 0 ∧ t.nir p = (s.nir p).emptied ∧ t.bget (pNirdor p 0 + 0x44) 28 = false ∧ t.bget (pNirdor p 0 + 0x44) 29 = false ∧
    t.bget (pNirdor p 0 + 0x18) 0 = true ∧ portIs t p 0 7 ∧
    t.reg (pNirdor p 0 + 0x88) = s.reg (pNirdor p 0 + 0x88) + BitVec.ofNat 32 (heldPackets s p).length ∧ unreferenced p s t := by
  rw [portDown_quiet h2 hq]
  refine ⟨?_, ?_, ?_, ?_, bget_down_event _, fun k hk => readiness_portReady _ _ _ _ hk, ?_, ?_⟩
  · rw [linkState_down, linkState_lowered]
  · rw [nir_down, nir_lowered]
  · rw [State.bget, reg_down_other _ (status_aligned p), reg_lowered_status, getB_putF_in _ _ _ (by omega)]
    rfl
  · rw [State.bget, reg_down_other _ (status_aligned p), reg_lowered_status, getB_putF_apart _ _ (by omega), getB_putF_in _ _ _ (by omega)]
    rfl
  · rw [reg_down_other _ (by unfold pNirdor; omega), reg_lowered_count]
  · exact (unreferenced_lowered s p).trans (onlyPort.portReady _ _ _ (onlyPort.raise _ _ (onlyPort.refl _ _)))

/-! ### A packet of the run is lost (R356) -/

/-- Recording a loss touches LOSS_LAST and the events of the port's page only. -/
theorem reg_loss_other (key engine : Nat) {o : Nat} (h50 : o ≠ pNirdor p 0 + 0x50) (h54 : o ≠ pNirdor p 0 + 0x54) (h18 : o ≠ pNirdor p 0 + 0x18)
    (h1C : o ≠ pNirdor p 0 + 0x1C) : (loss s p 0 key engine 0).reg o = s.reg o := by
  unfold loss
  dsimp only
  rw [State.reg_raise_other _ _ _ h18 h1C]
  split
  · rfl
  · rw [State.reg_setReg_other _ _ h54, State.reg_setReg_other _ _ h50]

/-- LOSS_LAST is valid after a loss, and REMOTE_LOSS is set. -/
theorem bget_loss (key engine : Nat) : (loss s p 0 key engine 0).bget (pNirdor p 0 + 0x50) 31 = true ∧
    (loss s p 0 key engine 0).bget (pNirdor p 0 + 0x18) 3 = true := by
  refine ⟨?_, State.bget_raise _ _ (by omega)⟩
  unfold loss
  dsimp only
  rw [State.bget, State.reg_raise_other _ _ _ (by omega) (by omega)]
  split
  next h => exact h
  next =>
    rw [State.reg_setReg_other _ _ (by omega), State.reg_setReg_same, getB_eq]
    simp only [BitVec.getLsbD_ofNat, Nat.testBit, Nat.shiftRight_eq_div_pow]
    simp
    omega

theorem run_loss (key engine : Nat) : (loss s p 0 key engine 0).run = s.run := by
  unfold loss
  dsimp only
  rw [State.raise_run]
  split
  · rfl
  · rw [State.setReg_run, State.setReg_run]

theorem run_lowered : (lowered s p).run = s.run := by
  obtain ⟨_, h, _⟩ := unreferenced_lowered s p
  rw [h]

/-- A port that leaves HELD or UP and loses a packet of a running run, whose peal has no channels (R356, R335). -/
theorem portDown_loss_does (h2 : 2 ≤ linkState s p) (hk : ∃ k ∈ heldPackets s p, scopeRunPacket s k = true) (hrun : s.running = true)
    (hchans : s.run.chans = []) :
    let t := portDown s p
    linkState t p = 0 ∧ t.runState = 5 ∧ t.bget (pNirdor p 0 + 0x18) 3 = true ∧ t.bget (pNirdor p 0 + 0x50) 31 = true ∧
      (s.bget (pRun + 0x60) 31 = false → t.fget (pRun + 0x60) 15 8 = 3) := by
  obtain ⟨k, e⟩ := portDown_loss h2 hk hrun
  rw [e]
  have hp := le_pNirdor p 0
  have hpRun : pRun = 0x2000 := rfl
  generalize hu : loss (lowered s p) p 0 k.orderKey k.destEngine 0 = u
  have hrunReg : ∀ o, pRun + 0x40 ≤ o → o < pRun + 0x80 → u.reg o = s.reg o := fun o h1 h3 => by
    rw [← hu, reg_loss_other _ _ (by omega) (by omega) (by omega) (by omega), reg_lowered_other _ _ (by omega) (by omega) (by omega) (by omega)]
  have hurun : u.running = true := by
    unfold State.running State.runState State.fget
    rw [hrunReg _ (by omega) (by omega)]
    exact hrun
  have huchans : u.run.chans = [] := by rw [← hu, run_loss, run_lowered, hchans]
  have hulink : linkState u p = 0 := by
    rw [linkState, State.fget, ← hu, reg_loss_other _ _ (by omega) (by omega) (by omega) (by omega)]
    exact linkState_lowered s p
  obtain ⟨hstate, hcode, habove⟩ := runFault_running (code := 3) (by omega) hurun huchans
  obtain ⟨hlast, hevent⟩ := bget_loss (s := lowered s p) (p := p) k.orderKey k.destEngine
  rw [hu] at hlast hevent
  refine ⟨?_, ?_, ?_, ?_, fun h => ?_⟩
  · rw [linkState_down, linkState, State.fget, habove _ (by omega)]
    exact hulink
  · rw [State.runState, State.fget, reg_down_other _ (by omega)]
    exact hstate
  · refine bget_down_keeps ?_
    rw [State.bget, habove _ (by omega)]
    exact hevent
  · rw [State.bget, reg_down_other _ (by unfold pNirdor; omega), habove _ (by omega)]
    exact hlast
  · rw [State.fget, reg_down_other _ (by omega)]
    exact hcode (by rw [State.bget, hrunReg _ (by omega) (by omega)]; exact h)

end

end Sys2Proof.Machine
end

