-- ==== Sys2Proof/Proofs/NirdorLanes.lean ====
section
/-! PROOF. Lanes, and the link states they lead to: trainings, ports that come up, and lanes given up. -/
namespace Sys2Proof.Machine

/-! ### Placing lanes (R350) -/

/-- The good lanes below lane l. -/
def goodBelow (good : Nat → Bool) (l : Nat) : Nat := ((List.range l).filter good).length

theorem goodBelow_succ (good : Nat → Bool) (l : Nat) : goodBelow good (l + 1) = goodBelow good l + (good l).toNat := by
  unfold goodBelow
  rw [List.range_succ, List.filter_append, List.length_append]
  cases h : good l <;> simp [h]

theorem goodBelow_le (good : Nat → Bool) (l : Nat) : goodBelow good l ≤ l :=
  (List.length_filter_le _ _).trans (Nat.le_of_eq List.length_range)

/-- The state that `placeLanes` gives lane l: 3 failed, 2 in service, 1 spare. -/
def laneRole (width : Nat) (good : Nat → Bool) (l : Nat) : Nat := if good l then (if goodBelow good l < width then 2 else 1) else 3

/-- The register of lane l, which held w, after `placeLanes`. -/
def placedWord (width : Nat) (good : Nat → Bool) (l : Nat) (w : Word) : Word :=
  putF (putF w 31 30 (laneRole width good l)) 21 16 (if laneRole width good l = 2 then goodBelow good l else 0)

/-- One turn of `placeLanes`. -/
def placeLane (p width : Nat) (good : Nat → Bool) (l : Nat) (st : State × Nat) : State × Nat :=
  let r := laneReg p l
  let w := (st.1.reg r)
  if !good l then (st.1.setReg r (putF (putF w 31 30 3) 21 16 0), st.2)
  else if st.2 < width then (st.1.setReg r (putF (putF w 31 30 2) 21 16 st.2), st.2 + 1)
  else (st.1.setReg r (putF (putF w 31 30 1) 21 16 0), st.2 + 1)

/-- A turn of `placeLanes` stores the lane's word and counts the lane if it is good. -/
theorem placeLane_eq (p width : Nat) (good : Nat → Bool) (l : Nat) (t : State) :
    placeLane p width good l (t, goodBelow good l) =
      (t.setReg (laneReg p l) (placedWord width good l (t.reg (laneReg p l))), goodBelow good (l + 1)) := by
  rw [goodBelow_succ]
  unfold placeLane placedWord laneRole
  cases hg : good l
  · rfl
  · by_cases hw : goodBelow good l < width
    · simp [hw]
    · simp [hw]

/-- What the first n turns of `placeLanes` leave: the words of the first n lanes, and nothing else. -/
theorem placeLanes_turns (s : State) (p width : Nat) (good : Nat → Bool) (n : Nat) :
    let r := iter n (placeLane p width good) (s, 0)
    r.2 = goodBelow good n ∧ onlyRegs s r.1 ∧ (∀ l, l < n → r.1.reg (laneReg p l) = placedWord width good l (s.reg (laneReg p l))) ∧
      ∀ o, (∀ l, l < n → o ≠ laneReg p l) → r.1.reg o = s.reg o := by
  induction n with
  | zero => exact ⟨rfl, rfl, fun l h => absurd h (Nat.not_lt_zero l), fun _ _ => rfl⟩
  | succ n ih =>
    intro r
    obtain ⟨hcount, honly, hlanes, hother⟩ := ih
    have hr : r = placeLane p width good n ((iter n (placeLane p width good) (s, 0)).1, goodBelow good n) := by
      rw [← hcount]
      exact iter_succ _ _ _
    rw [placeLane_eq] at hr
    rw [hr]
    refine ⟨rfl, honly.trans (State.onlyRegs_setReg _ _ _), fun l hl => ?_, fun o ho => ?_⟩
    · by_cases e : l = n
      · rw [e, State.reg_setReg_same, hother (laneReg p n) fun m hm => laneReg_ne p (by omega)]
      · rw [State.reg_setReg_other _ _ (laneReg_ne p e)]
        exact hlanes l (by omega)
    · rw [State.reg_setReg_other _ _ (ho n (by omega))]
      exact hother o fun l hl => ho l (by omega)

section
variable (s : State) (p width : Nat) (good : Nat → Bool)

theorem onlyRegs_placeLanes : onlyRegs s (placeLanes s p width good) := by
  obtain ⟨_, honly, _, _⟩ := placeLanes_turns s p width good 42
  exact honly

theorem reg_placeLanes_lane {l : Nat} (hl : l < 42) :
    (placeLanes s p width good).reg (laneReg p l) = placedWord width good l (s.reg (laneReg p l)) := by
  obtain ⟨_, _, hlanes, _⟩ := placeLanes_turns s p width good 42
  exact hlanes l hl

theorem reg_placeLanes_other {o : Nat} (ho : o < pNirdor p 1 ∨ pNirdor p 1 + 0xE8 ≤ o) : (placeLanes s p width good).reg o = s.reg o := by
  obtain ⟨_, _, _, hother⟩ := placeLanes_turns s p width good 42
  exact hother o fun l hl => by rw [laneReg]; omega

end

theorem getF_placedWord (width : Nat) (good : Nat → Bool) (l : Nat) (w : Word) :
    getF (placedWord width good l w) 31 30 = laneRole width good l := by
  rw [placedWord, getF_putF_apart _ _ (by omega) (by omega), getF_putF_same _ _ (by omega)]
  unfold laneRole
  split
  · split <;> rfl
  · rfl

theorem laneRole_failed (width : Nat) (good : Nat → Bool) (l : Nat) : laneRole width good l = 3 ↔ good l = false := by
  unfold laneRole
  cases good l
  · simp
  · simp
    split <;> omega

/-- As many lanes are in service as the width asks for, or as are good. -/
theorem inService_count (width : Nat) (good : Nat → Bool) (n : Nat) :
    ((List.range n).filter (fun l => decide (laneRole width good l = 2))).length = min width (goodBelow good n) := by
  induction n with
  | zero => simp [goodBelow]
  | succ n ih =>
    rw [List.range_succ, List.filter_append, List.length_append, ih, goodBelow_succ]
    cases hg : good n
    · simp [laneRole, hg]
    · by_cases hw : goodBelow good n < width
      · simp [laneRole, hg, hw]
        omega
      · simp [laneRole, hg, hw]
        omega

/-! ### Training (R350, R352) -/

/-- The margins measured, in the lane registers (R378). -/
def showMargins (s : State) (p : Nat) (margins : List Nat) (n : Nat) : State := iter n (fun l s => s.fset (laneReg p l) 7 0 (nth 0 margins l)) s

theorem showMargins_does (s : State) (p : Nat) (margins : List Nat) (n : Nat) :
    let t := showMargins s p margins n
    onlyRegs s t ∧ (∀ l, l < n → t.reg (laneReg p l) = putF (s.reg (laneReg p l)) 7 0 (nth 0 margins l)) ∧
      ∀ o, (∀ l, l < n → o ≠ laneReg p l) → t.reg o = s.reg o := by
  induction n with
  | zero => exact ⟨rfl, fun l h => absurd h (Nat.not_lt_zero l), fun _ _ => rfl⟩
  | succ n ih =>
    intro t
    obtain ⟨honly, hlanes, hother⟩ := ih
    have ht : t = (showMargins s p margins n).fset (laneReg p n) 7 0 (nth 0 margins n) := iter_succ _ _ _
    rw [ht]
    refine ⟨honly.trans (State.onlyRegs_fset _ _ _ _ _), fun l hl => ?_, fun o ho => ?_⟩
    · by_cases e : l = n
      · rw [e, State.reg_fset, if_pos rfl, hother (laneReg p n) fun m hm => laneReg_ne p (by omega)]
      · rw [State.reg_fset_other _ _ _ _ (laneReg_ne p e)]
        exact hlanes l (by omega)
    · rw [State.reg_fset_other _ _ _ _ (ho n (by omega))]
      exact hother o fun l hl => ho l (by omega)

/-- The lanes good in both directions count as the lower of the two (R375). -/
def lanesGood (rx tx : BitVec 42) : Nat := min (goodBelow rx.getLsbD 42) (goodBelow tx.getLsbD 42)

/-- The width of the port with n good lanes (R350). -/
def trainedWidth (n : Nat) : Nat := if 40 ≤ n then 40 else 32

/-- The good lanes, counted (R351, R375). -/
def lanesCounted (s : State) (p : Nat) (rx tx : BitVec 42) : State :=
  (s.fset (pNirdor p 0 + 0x44) 21 16 (lanesGood rx tx)).modNir p
    (fun x => { x with rxGood := goodBelow rx.getLsbD 42, txGood := goodBelow tx.getLsbD 42 })

/-- The good lanes, counted and placed in service up to the width of the port: none of them when they are too few. -/
def lanesPlaced (s : State) (p : Nat) (rx tx : BitVec 42) : State :=
  placeLanes (lanesCounted s p rx tx) p (if 32 ≤ lanesGood rx tx then trainedWidth (lanesGood rx tx) else 0) rx.getLsbD

/-- The state at the end of a training, before the port leaves TRAINING: what it measured, and the lanes placed. -/
def lanesTrained (s : State) (p : Nat) (rx tx : BitVec 42) (margins : List Nat) : State := showMargins (lanesPlaced s p rx tx) p margins 42

/-- A training that fails (R352). -/
def trainingFailed (s : State) (p : Nat) : State := portReady (countPort (setLinkState s p 0) p 0x90 1) p 0 7

/-- A training that succeeds: HELD, with what the partner told (R352, R375). -/
def trainingHeld (s : State) (p : Nat) (narrow : Bool) (told : Word) : State :=
  (((setLinkState s p 2).fset (pNirdor p 0 + 0x44) 28 28 narrow.toNat).setReg (pNirdor p 0 + 0x48) told).modNir p
    (fun x => { x with txSeq := 0, rxSeq := 0, nak := false, swap := false })

/-- What the partner told, as PORT_PARTNER shows it. -/
def partnerWord (switch : Bool) (port number : Nat) : Word := BitVec.ofNat 32 (2 ^ 31 + switch.toNat * 2 ^ 30 + port % 16 * 65536 + number % 65536)

theorem trainingDone_eq {s : State} {p : Nat} (h1 : linkState s p = 1) (rx tx : BitVec 42) (margins : List Nat) (inTime switch : Bool)
    (port number : Nat) :
    trainingDone s p rx tx margins inTime (switch, port, number) =
      if lanesGood rx tx < 32 || !inTime then trainingFailed (lanesTrained s p rx tx margins) p
      else trainingHeld (lanesTrained s p rx tx margins) p (decide (trainedWidth (lanesGood rx tx) = 32)) (partnerWord switch port number) := by
  unfold trainingDone
  rw [if_neg (by simp [h1])]
  rfl

section
variable (s : State) (p : Nat)

theorem onlyPort_lanesTrained (rx tx : BitVec 42) (margins : List Nat) : onlyPort p s (lanesTrained s p rx tx margins) := by
  obtain ⟨hmargins, _, _⟩ := showMargins_does (lanesPlaced s p rx tx) p margins 42
  refine onlyPort.trans ?_ (.of_onlyRegs ((onlyRegs_placeLanes _ _ _ _).trans hmargins))
  exact onlyPort.setNir _ (onlyPort.fset _ _ _ _ (onlyPort.refl _ _))

theorem reg_lanesTrained_lane (rx tx : BitVec 42) (margins : List Nat) {l : Nat} (hl : l < 42) :
    (lanesTrained s p rx tx margins).reg (laneReg p l) =
      putF (placedWord (if 32 ≤ lanesGood rx tx then trainedWidth (lanesGood rx tx) else 0) rx.getLsbD l (s.reg (laneReg p l))) 7 0 (nth 0 margins l) := by
  obtain ⟨_, hlanes, _⟩ := showMargins_does (lanesPlaced s p rx tx) p margins 42
  rw [lanesTrained, hlanes l hl, lanesPlaced, reg_placeLanes_lane _ _ _ _ hl, lanesCounted, State.reg_modNir,
    State.reg_fset_other _ _ _ _ (by rw [laneReg_eq]; omega)]

/-- Below the lane registers, a training measures LANES_GOOD only. -/
theorem reg_lanesTrained_low (rx tx : BitVec 42) (margins : List Nat) {o : Nat} (ho : o < pNirdor p 1) :
    (lanesTrained s p rx tx margins).reg o = (s.fset (pNirdor p 0 + 0x44) 21 16 (lanesGood rx tx)).reg o := by
  obtain ⟨_, _, hother⟩ := showMargins_does (lanesPlaced s p rx tx) p margins 42
  rw [lanesTrained, hother o fun l _ => by rw [laneReg]; omega, lanesPlaced, reg_placeLanes_other _ _ _ _ (.inl ho), lanesCounted, State.reg_modNir]

theorem onlyPort_trainingFailed : onlyPort p s (trainingFailed s p) :=
  onlyPort.portReady _ _ _ (onlyPort.bump48 _ _ _ (onlyPort.fset _ _ _ _ (onlyPort.refl _ _)))

theorem onlyPort_trainingHeld (narrow : Bool) (told : Word) : onlyPort p s (trainingHeld s p narrow told) :=
  onlyPort.setNir _ (onlyPort.setReg _ _ (onlyPort.fset _ _ _ _ (onlyPort.fset _ _ _ _ (onlyPort.refl _ _))))

theorem reg_trainingFailed_status : (trainingFailed s p).reg (pNirdor p 0 + 0x44) = putF (s.reg (pNirdor p 0 + 0x44)) 31 30 0 := by
  unfold trainingFailed
  rw [reg_portReady_other _ _ _ _ (status_aligned p), reg_countPort_other _ _ _ _ (by omega) (by omega) (status_aligned p), setLinkState,
    State.reg_fset, if_pos rfl]

theorem reg_trainingFailed_lane {l : Nat} (hl : l < 42) : (trainingFailed s p).reg (laneReg p l) = s.reg (laneReg p l) := by
  have haligned := laneReg_aligned p hl
  unfold trainingFailed
  rw [reg_portReady_other _ _ _ _ haligned, reg_countPort_other _ _ _ _ (by rw [laneReg_eq]; omega) (by rw [laneReg_eq]; omega) haligned,
    setLinkState, State.reg_fset_other _ _ _ _ (by rw [laneReg_eq]; omega)]

/-- A failed training counts (R352). -/
theorem reg_trainingFailed_count : (trainingFailed s p).reg (pNirdor p 0 + 0x90) = s.reg (pNirdor p 0 + 0x90) + 1#32 := by
  unfold trainingFailed
  rw [reg_portReady_other _ _ _ _ (by unfold pNirdor; omega), countPort, State.reg_bump48_lo _ _ _ _ (by omega) (by omega), setLinkState,
    State.reg_fset_other _ _ _ _ (by omega)]

theorem reg_trainingHeld_status (narrow : Bool) (told : Word) :
    (trainingHeld s p narrow told).reg (pNirdor p 0 + 0x44) = putF (putF (s.reg (pNirdor p 0 + 0x44)) 31 30 2) 28 28 narrow.toNat := by
  unfold trainingHeld
  rw [State.reg_modNir, State.reg_setReg_other _ _ (by omega), State.reg_fset, if_pos rfl, setLinkState, State.reg_fset, if_pos rfl]

theorem reg_trainingHeld_lane (narrow : Bool) (told : Word) (l : Nat) : (trainingHeld s p narrow told).reg (laneReg p l) = s.reg (laneReg p l) := by
  have h44 : laneReg p l ≠ pNirdor p 0 + 0x44 := by rw [laneReg_eq]; omega
  unfold trainingHeld
  rw [State.reg_modNir, State.reg_setReg_other _ _ (by rw [laneReg_eq]; omega), State.reg_fset_other _ _ _ _ h44, setLinkState,
    State.reg_fset_other _ _ _ _ h44]

theorem reg_trainingHeld_partner (narrow : Bool) (told : Word) : (trainingHeld s p narrow told).reg (pNirdor p 0 + 0x48) = told := by
  unfold trainingHeld
  rw [State.reg_modNir, State.reg_setReg_same]

end

/-- A lane's margin and state after a training. -/
theorem lanesTrained_lane (s : State) (p : Nat) (rx tx : BitVec 42) (margins : List Nat) {l : Nat} (hl : l < 42) :
    let t := lanesTrained s p rx tx margins
    t.fget (laneReg p l) 7 0 = nth 0 margins l % 256 ∧
      t.fget (laneReg p l) 31 30 = laneRole (if 32 ≤ lanesGood rx tx then trainedWidth (lanesGood rx tx) else 0) rx.getLsbD l := by
  intro t
  rw [State.fget, State.fget, reg_lanesTrained_lane s p rx tx margins hl]
  refine ⟨getF_putF_same _ _ (by omega), ?_⟩
  rw [getF_putF_apart _ _ (by omega) (by omega), getF_placedWord]

theorem lanesTrained_good (s : State) (p : Nat) (rx tx : BitVec 42) (margins : List Nat) :
    (lanesTrained s p rx tx margins).fget (pNirdor p 0 + 0x44) 21 16 = lanesGood rx tx := by
  rw [State.fget, reg_lanesTrained_low _ _ _ _ _ (by rw [pNirdor_one]; omega), ← State.fget, State.fget_fset_same _ _ _ (by omega)]
  have : goodBelow rx.getLsbD 42 ≤ 42 := goodBelow_le _ _
  exact Nat.mod_eq_of_lt (by unfold lanesGood; omega)

/-- TRAINING_DONE in TRAINING (R350, R352, R375): what a training leaves in any case, in HELD, and in DOWN. -/
theorem trainingDone_does {s : State} {p : Nat} (h1 : linkState s p = 1) (rx tx : BitVec 42) (margins : List Nat) (inTime switch : Bool)
    (port number : Nat) :
    let t := trainingDone s p rx tx margins inTime (switch, port, number)
    let n := lanesGood rx tx
    let lane := fun l => t.fget (laneReg p l) 31 30
    t.fget (pNirdor p 0 + 0x44) 21 16 = n ∧ (∀ l, l < 42 → t.fget (laneReg p l) 7 0 = nth 0 margins l % 256) ∧
    (∀ l, l < 42 → (lane l = 3 ↔ rx.getLsbD l = false)) ∧ onlyPort p s t ∧
    (32 ≤ n → inTime = true → linkState t p = 2 ∧ t.bget (pNirdor p 0 + 0x44) 28 = decide (n < 40) ∧
      ((List.range 42).filter (fun l => decide (lane l = 2))).length = (if 40 ≤ n then 40 else 32) ∧
      t.reg (pNirdor p 0 + 0x48) = partnerWord switch port number ∧ (t.nir p).txSeq = 0 ∧ (t.nir p).rxSeq = 0) ∧
    (n < 32 ∨ inTime = false → linkState t p = 0 ∧ t.reg (pNirdor p 0 + 0x90) = s.reg (pNirdor p 0 + 0x90) + 1#32 ∧ portIs t p 0 7) := by
  intro t n lane
  have hgood := lanesTrained_good s p rx tx margins
  have hlanes := fun l (hl : l < 42) => lanesTrained_lane s p rx tx margins hl
  have hframe := onlyPort_lanesTrained s p rx tx margins
  have ht : t = _ := trainingDone_eq h1 rx tx margins inTime switch port number
  set u := lanesTrained s p rx tx margins with hu
  have hlane : ∀ l, l < 42 → t.reg (laneReg p l) = u.reg (laneReg p l) := by
    intro l hl
    rw [ht]
    split
    · exact reg_trainingFailed_lane u p hl
    · exact reg_trainingHeld_lane u p _ _ l
  have hstatus : t.fget (pNirdor p 0 + 0x44) 21 16 = u.fget (pNirdor p 0 + 0x44) 21 16 := by
    rw [ht, State.fget, State.fget]
    split
    · rw [reg_trainingFailed_status, getF_putF_apart _ _ (by omega) (by omega)]
    · rw [reg_trainingHeld_status, getF_putF_apart _ _ (by omega) (by omega), getF_putF_apart _ _ (by omega) (by omega)]
  have hrole : ∀ l, l < 42 → lane l = laneRole (if 32 ≤ n then trainedWidth n else 0) rx.getLsbD l := by
    intro l hl
    obtain ⟨_, hst⟩ := hlanes l hl
    rw [← hst]
    exact congrArg (fun w => getF w 31 30) (hlane l hl)
  refine ⟨hstatus.trans hgood, fun l hl => ?_, fun l hl => ?_, ?_, fun hn hin => ?_, fun hfail => ?_⟩
  · obtain ⟨hmargin, _⟩ := hlanes l hl
    rw [State.fget, hlane l hl]
    exact hmargin
  · rw [hrole l hl]
    exact laneRole_failed _ _ _
  · refine hframe.trans ?_
    rw [ht]
    split
    · exact onlyPort_trainingFailed u p
    · exact onlyPort_trainingHeld u p _ _
  · rw [if_neg (by simp [hin]; exact hn)] at ht
    have hcount : ((List.range 42).filter (fun l => decide (lane l = 2))).length = trainedWidth n := by
      rw [List.filter_congr (q := fun l => decide (laneRole (trainedWidth n) rx.getLsbD l = 2)) fun l hl => by
        rw [hrole l (List.mem_range.1 hl), if_pos hn], inService_count]
      have : n ≤ goodBelow rx.getLsbD 42 := Nat.min_le_left _ _
      unfold trainedWidth
      split <;> omega
    refine ⟨?_, ?_, hcount, ?_, ?_, ?_⟩
    · rw [ht, linkState, State.fget, reg_trainingHeld_status, getF_putF_apart _ _ (by omega) (by omega), getF_putF_same _ _ (by omega)]
      rfl
    · rw [ht, State.bget, reg_trainingHeld_status, getB_putF_in _ _ _ (by omega)]
      unfold trainedWidth
      by_cases h40 : 40 ≤ lanesGood rx tx
      · simp [h40, n]
      · simp [h40, n]
        omega
    · rw [ht, reg_trainingHeld_partner]
    · rw [ht, trainingHeld, State.nir_modNir_same]
    · rw [ht, trainingHeld, State.nir_modNir_same]
  · rw [if_pos (by simpa [n] using hfail)] at ht
    have hcount : u.reg (pNirdor p 0 + 0x90) = s.reg (pNirdor p 0 + 0x90) := by
      rw [hu, reg_lanesTrained_low _ _ _ _ _ (by rw [pNirdor_one]; omega), State.reg_fset_other _ _ _ _ (by omega)]
    rw [ht]
    refine ⟨?_, ?_, fun k hk => readiness_portReady _ _ _ _ hk⟩
    · rw [linkState, State.fget, reg_trainingFailed_status, getF_putF_same _ _ (by omega)]
      rfl
    · rw [reg_trainingFailed_count, hcount]

/-! ### A port comes up (R352, R29) -/

theorem portUp_does {s : State} {p : Nat} (h2 : linkState s p = 2) (hv : engineValid s = true) (htx : (s.nir p).tx = [])
    (htransit : (s.nir p).transit = []) :
    let t := portUp s p true
    linkState t p = 3 ∧ t.bget (pNirdor p 0 + 0x18) 1 = true ∧ (if s.bget (pNirdor p 0 + 0x44) 28 then portIs t p 2 8 else portIs t p 3 0) ∧
      onlyPort p s t := by
  have hstatus : ((setLinkState s p 3).raise (pNirdor p 0) 1).reg (pNirdor p 0 + 0x44) = putF (s.reg (pNirdor p 0 + 0x44)) 31 30 3 := by
    rw [State.reg_raise_other _ _ _ (by omega) (by omega), setLinkState, State.reg_fset, if_pos rfl]
  have hnarrow : ((setLinkState s p 3).raise (pNirdor p 0) 1).bget (pNirdor p 0 + 0x44) 28 = s.bget (pNirdor p 0 + 0x44) 28 := by
    rw [State.bget, hstatus, getB_putF_apart _ _ (by omega)]
    rfl
  have hnir : ∀ q, ((setLinkState s p 3).raise (pNirdor p 0) 1).nir q = s.nir q := fun q => by
    rw [State.nir_raise, setLinkState, State.nir_fset]
  have hup : ∀ st reason, pumpAll (portReady ((setLinkState s p 3).raise (pNirdor p 0) 1) p st reason) p =
      portReady ((setLinkState s p 3).raise (pNirdor p 0) 1) p st reason := fun st reason =>
    pumpAll_idle (by rw [nir_portReady, hnir]; exact htx) (by rw [nir_portReady, hnir]; exact htransit)
  have hshown : ∀ st reason, let t := portReady ((setLinkState s p 3).raise (pNirdor p 0) 1) p st reason
      linkState t p = 3 ∧ t.bget (pNirdor p 0 + 0x18) 1 = true ∧ onlyPort p s t := by
    intro st reason t
    refine ⟨?_, bget_portReady_keeps _ _ _ _ _ (State.bget_raise _ _ (by omega)), ?_⟩
    · rw [linkState, State.fget, reg_portReady_other _ _ _ _ (status_aligned p), hstatus, getF_putF_same _ _ (by omega)]
      rfl
    · exact onlyPort.portReady _ _ _ (onlyPort.raise _ _ (onlyPort.fset _ _ _ _ (onlyPort.refl _ _)))
  unfold portUp
  rw [if_neg (by simp [h2, hv])]
  dsimp only
  rw [hnarrow]
  split
  · rw [hup]
    obtain ⟨hlink, hevent, hframe⟩ := hshown 2 8
    exact ⟨hlink, hevent, fun k hk => readiness_portReady _ _ _ _ hk, hframe⟩
  · rw [hup]
    obtain ⟨hlink, hevent, hframe⟩ := hshown 3 0
    exact ⟨hlink, hevent, fun k hk => readiness_portReady _ _ _ _ hk, hframe⟩

/-! ### FORCE_DOWN and ENABLE 0 in TRAINING (R352) -/

theorem portDownDue_training {s : State} {p : Nat} (hdue : s.bget (pNirdor p 0 + 0x40) 0 = false ∨ s.bget (pNirdor p 0 + 0x40) 2 = true)
    (h1 : linkState s p = 1) :
    let t := portDownDue s p
    linkState t p = 0 ∧ t.reg (pNirdor p 0 + 0x90) = s.reg (pNirdor p 0 + 0x90) + 1#32 ∧
      onlyRegsAt (fun o => o = pNirdor p 0 + 0x44 ∨ o = pNirdor p 0 + 0x90 ∨ o = pNirdor p 0 + 0x94 ∨ o = pNirdor p 0 + 0x18 ∨
        o = pNirdor p 0 + 0x1C) s t := by
  intro t
  have ht : t = countPort (setLinkState s p 0) p 0x90 1 := by
    unfold t portDownDue
    rw [if_neg (by rcases hdue with h | h <;> simp [h]), if_pos h1]
  rw [ht]
  refine ⟨?_, ?_, (State.onlyRegs_fset _ _ _ _ _).trans (State.onlyRegs_bump48 _ _ _ _), fun o ho => ?_⟩
  · rw [linkState, State.fget, reg_countPort_other _ _ _ _ (by omega) (by omega) (status_aligned p), ← State.fget, setLinkState,
      State.fget_fset_same _ _ _ (by omega)]
    rfl
  · rw [countPort, State.reg_bump48_lo _ _ _ _ (by omega) (by omega), setLinkState, State.reg_fset_other _ _ _ _ (by omega)]
  · rw [countPort, State.reg_bump48_other _ _ _ _ (by omega) (by omega) (by omega) (by omega), setLinkState,
      State.reg_fset_other _ _ _ _ (by omega)]

theorem portDownDue_up {s : State} {p : Nat} (hdue : s.bget (pNirdor p 0 + 0x40) 0 = false ∨ s.bget (pNirdor p 0 + 0x40) 2 = true)
    (h2 : 2 ≤ linkState s p) : portDownDue s p = portDown s p := by
  unfold portDownDue
  rw [if_neg (by rcases hdue with h | h <;> simp [h]), if_neg (by omega)]

/-! ### A lane is given up (R351) -/

section
variable (s : State) (p : Nat)

theorem onlyPort_loseLane (tx : Bool) : onlyPort p s (loseLane s p tx) :=
  onlyPort.raise _ _ (onlyPort.fset _ _ _ _ (onlyPort.setNir _ (onlyPort.refl _ _)))

/-- The record of a port that gave up a lane of one direction. -/
def Nirdor.lessOne (x : Nirdor) (tx : Bool) : Nirdor := if tx then { x with txGood := x.txGood - 1 } else { x with rxGood := x.rxGood - 1 }

theorem nir_loseLane (tx : Bool) : (loseLane s p tx).nir p = (s.nir p).lessOne tx := by
  unfold loseLane
  dsimp only
  rw [State.nir_raise, State.nir_fset, State.nir_modNir_same]
  rfl

theorem reg_loseLane_status (tx : Bool) : (loseLane s p tx).reg (pNirdor p 0 + 0x44) =
    putF (s.reg (pNirdor p 0 + 0x44)) 21 16 (min ((s.nir p).lessOne tx).rxGood ((s.nir p).lessOne tx).txGood) := by
  unfold loseLane
  dsimp only
  rw [State.reg_raise_other _ _ _ (by omega) (by omega), State.reg_fset, if_pos rfl, State.nir_modNir_same]
  rfl

theorem reg_loseLane_other (tx : Bool) {o : Nat} (h44 : o ≠ pNirdor p 0 + 0x44) (ho : 0x40 ≤ o % 0x1000) :
    (loseLane s p tx).reg o = s.reg o := by
  unfold loseLane
  dsimp only
  rw [State.reg_raise_other _ _ _ (by unfold pNirdor; omega) (by unfold pNirdor; omega), State.reg_fset_other _ _ _ _ h44, State.reg_modNir]

theorem bget_loseLane (tx : Bool) : (loseLane s p tx).bget (pNirdor p 0 + 0x18) 2 = true := State.bget_raise _ _ (by omega)

theorem onlyPort_swapSlot : onlyPort p s (swapSlot s p) := onlyPort.setNir _ (onlyPort.bump48 _ _ _ (onlyPort.refl _ _))

theorem nir_swapSlot : (swapSlot s p).nir p = { s.nir p with swap := true } := by
  unfold swapSlot
  rw [State.nir_modNir_same, State.nir_bump48]

/-- A lane-swap slot touches the count of slots and the events of its page only. -/
theorem reg_swapSlot_other {o : Nat} (ho : o < pNirdor p 1 ∨ pNirdor p 1 + 0x40 ≤ o ∧ o < pNirdor p 1 + 0x100) :
    (swapSlot s p).reg o = s.reg o := by
  unfold swapSlot
  rw [State.reg_modNir, State.reg_bump48_other _ _ _ _ (by omega) (by omega) (by omega) (by omega)]

/-- The state in which a lane of the receiver has failed and its place is not taken yet. -/
def laneFailed (s : State) (p l margin : Nat) : State :=
  let s := loseLane (s.fset (laneReg p l) 7 0 margin) p false
  s.setReg (laneReg p l) (putF (putF (s.reg (laneReg p l)) 31 30 3) 21 16 0)

variable {l : Nat} (margin : Nat)

theorem onlyPort_laneFailed : onlyPort p s (laneFailed s p l margin) :=
  onlyPort.setReg _ _ ((onlyPort.fset _ _ _ _ (onlyPort.refl _ _)).trans (onlyPort_loseLane _ _ _))

theorem nir_laneFailed : (laneFailed s p l margin).nir p = { s.nir p with rxGood := (s.nir p).rxGood - 1 } := by
  unfold laneFailed
  dsimp only
  rw [State.nir_setReg, nir_loseLane, State.nir_fset]
  rfl

theorem reg_laneFailed_status : (laneFailed s p l margin).reg (pNirdor p 0 + 0x44) =
    putF (s.reg (pNirdor p 0 + 0x44)) 21 16 (min ((s.nir p).rxGood - 1) (s.nir p).txGood) := by
  unfold laneFailed
  dsimp only
  rw [State.reg_setReg_other _ _ (by rw [laneReg_eq]; omega), reg_loseLane_status, State.reg_fset_other _ _ _ _ (by rw [laneReg_eq]; omega),
    State.nir_fset]
  rfl

theorem reg_laneFailed_lane (hl : l < 42) : (laneFailed s p l margin).reg (laneReg p l) =
    putF (putF (putF (s.reg (laneReg p l)) 7 0 margin) 31 30 3) 21 16 0 := by
  unfold laneFailed
  dsimp only
  rw [State.reg_setReg_same, reg_loseLane_other _ _ _ (by rw [laneReg_eq]; omega) (laneReg_aligned p hl), State.reg_fset, if_pos rfl]

theorem reg_laneFailed_other {o : Nat} (h44 : o ≠ pNirdor p 0 + 0x44) (hlane : o ≠ laneReg p l) (ho : 0x40 ≤ o % 0x1000) :
    (laneFailed s p l margin).reg o = s.reg o := by
  unfold laneFailed
  dsimp only
  rw [State.reg_setReg_other _ _ hlane, reg_loseLane_other _ _ _ h44 ho, State.reg_fset_other _ _ _ _ hlane]

theorem bget_laneFailed : (laneFailed s p l margin).bget (pNirdor p 0 + 0x18) 2 = true := by
  unfold laneFailed
  dsimp only
  rw [State.bget_setReg_other _ _ _ (by rw [laneReg_eq]; omega)]
  exact bget_loseLane _ _ _

end

section
variable {s : State} {p l margin : Nat}

/-- A lane found with enough margin shows it, and no more. -/
theorem laneSpared_enough (h2 : 2 ≤ linkState s p) (hl : l < 42) (hlane : s.fget (laneReg p l) 31 30 = 2) (hm : 0x20 ≤ margin) :
    laneSpared s p l margin false = s.fset (laneReg p l) 7 0 margin := by
  unfold laneSpared
  rw [if_neg (by simp [hlane]; omega)]
  exact if_pos (by simp [hm])

/-- The partner's receiver found enough margin. -/
theorem laneSpared_partner_enough (h2 : 2 ≤ linkState s p) (hl : l < 42) (hm : 0x20 ≤ margin) : laneSpared s p l margin true = s := by
  unfold laneSpared
  rw [if_neg (by simp; omega)]
  exact if_pos (by simp [hm])

/-- A lane below its margin moves to the first spare. -/
theorem laneSpared_spare {j : Nat} (h2 : 2 ≤ linkState s p) (hl : l < 42) (hlane : s.fget (laneReg p l) 31 30 = 2) (hm : margin < 0x20)
    (hnak : (s.nir p).nak = false) (hswap : (s.nir p).swap = false) (hj : j < 42) (hspare : s.fget (laneReg p j) 31 30 = 1)
    (hfirst : ∀ i, i < j → s.fget (laneReg p i) 31 30 ≠ 1) :
    laneSpared s p l margin false = swapSlot ((laneFailed s p l margin).setReg (laneReg p j)
      (putF (putF ((laneFailed s p l margin).reg (laneReg p j)) 31 30 2) 21 16 ((s.fset (laneReg p l) 7 0 margin).fget (laneReg p l) 21 16))) p := by
  have hfind : (List.range 42).find? (fun j => decide (s.fget (laneReg p j) 31 30 = 1)) = some j :=
    List.find?_range_eq_some.2 ⟨by simpa using hspare, List.mem_range.2 hj, fun i hi => by simpa using hfirst i hi⟩
  unfold laneSpared
  rw [if_neg (by simp [hlane]; omega)]
  dsimp only
  rw [if_neg Bool.false_ne_true, if_neg (by simp [State.nir] at hnak hswap; simp [State.nir, hnak, hswap]; omega), if_neg Bool.false_ne_true, hfind]
  rfl

/-- A lane below its margin without a spare narrows the port. -/
theorem laneSpared_none (h2 : 2 ≤ linkState s p) (hl : l < 42) (hlane : s.fget (laneReg p l) 31 30 = 2) (hm : margin < 0x20)
    (hnak : (s.nir p).nak = false) (hswap : (s.nir p).swap = false) (hnone : ∀ j, j < 42 → s.fget (laneReg p j) 31 30 ≠ 1) :
    laneSpared s p l margin false =
      narrowPort (laneFailed s p l margin) p (fun j => decide (j ≠ l) && decide (s.fget (laneReg p j) 31 30 = 2)) := by
  have hfind : (List.range 42).find? (fun j => decide (s.fget (laneReg p j) 31 30 = 1)) = none :=
    List.find?_eq_none.2 fun j hj => by simpa using hnone j (List.mem_range.1 hj)
  unfold laneSpared
  rw [if_neg (by simp [hlane]; omega)]
  dsimp only
  rw [if_neg Bool.false_ne_true, if_neg (by simp [State.nir] at hnak hswap; simp [State.nir, hnak, hswap]; omega), if_neg Bool.false_ne_true, hfind]
  rfl

/-- The partner's receiver found a lane below its margin, and this end has a spare for it. -/
theorem laneSpared_partner_spare (h2 : 2 ≤ linkState s p) (hl : l < 42) (hm : margin < 0x20)
    (hnak : (s.nir p).nak = false) (hswap : (s.nir p).swap = false)
    (hspare : (if s.bget (pNirdor p 0 + 0x44) 28 then 32 else 40) < (s.nir p).txGood) :
    laneSpared s p l margin true = swapSlot (loseLane s p true) p := by
  unfold laneSpared
  rw [if_neg (by simp; omega)]
  dsimp only
  rw [if_pos rfl, if_neg (by simp [hnak, hswap]; omega), if_pos rfl, if_pos (by simpa using hspare)]

end

end Sys2Proof.Machine
end

