-- ==== Sys2Proof/Proofs/NirdorLinks.lean ====
section
/-! PROOF. The statement on link states and lanes. -/
namespace Sys2Proof.Machine

/-! ### What a lane below its margin leaves (R351, R378) -/

/-- `t` shows the lane count of `s` with one receive lane less, LANE_SPARED, and a link state as before. -/
def laneGone (s t : State) (p good : Nat) : Prop :=
  t.fget (pNirdor p 0 + 0x44) 21 16 = good ∧ t.bget (pNirdor p 0 + 0x18) 2 = true ∧ linkState t p = linkState s p ∧ onlyPort p s t

section
variable {s : State} {p l margin : Nat}

theorem laneReg_lt_slot {i : Nat} (hi : i < 42) : pNirdor p 1 + 0x40 ≤ laneReg p i ∧ laneReg p i < pNirdor p 1 + 0x100 := by
  unfold laneReg
  omega

/-- The partner's lane moves to a spare of this end (R351). -/
theorem laneSpared_partner_spare_does (h2 : 2 ≤ linkState s p) (hl : l < 42) (hm : margin < 0x20) (hnak : (s.nir p).nak = false)
    (hswap : (s.nir p).swap = false) (hspare : (if s.bget (pNirdor p 0 + 0x44) 28 then 32 else 40) < (s.nir p).txGood)
    (hgood : (s.nir p).rxGood ≤ 42) :
    let t := laneSpared s p l margin true
    (∀ i, i < 42 → t.reg (laneReg p i) = s.reg (laneReg p i)) ∧
      t.nir p = { s.nir p with txGood := (s.nir p).txGood - 1, swap := true } ∧
      laneGone s t p (min (s.nir p).rxGood ((s.nir p).txGood - 1)) := by
  rw [laneSpared_partner_spare h2 hl hm hnak hswap hspare]
  have hone := pNirdor_one p
  have hstatus : (swapSlot (loseLane s p true) p).reg (pNirdor p 0 + 0x44) =
      putF (s.reg (pNirdor p 0 + 0x44)) 21 16 (min (s.nir p).rxGood ((s.nir p).txGood - 1)) := by
    rw [reg_swapSlot_other _ _ (.inl (by omega)), reg_loseLane_status]
    rfl
  refine ⟨fun i hi => ?_, ?_, ?_, ?_, ?_, (onlyPort_loseLane s p true).trans (onlyPort_swapSlot _ p)⟩
  · rw [reg_swapSlot_other _ _ (.inr (laneReg_lt_slot hi)), reg_loseLane_other _ _ _ (by rw [laneReg_eq]; omega) (laneReg_aligned p hi)]
  · rw [nir_swapSlot, nir_loseLane]
    rfl
  · rw [State.fget, hstatus, getF_putF_same _ _ (by omega)]
    exact Nat.mod_eq_of_lt (by omega)
  · rw [State.bget, reg_swapSlot_other _ _ (.inl (by omega))]
    exact bget_loseLane s p true
  · rw [linkState, State.fget, hstatus, getF_putF_apart _ _ (by omega) (by omega)]
    rfl

/-- What the failed lane's register shows. -/
theorem laneFailed_lane (s : State) (p : Nat) {l margin : Nat} (hl : l < 42) (hm : margin < 0x20) :
    (laneFailed s p l margin).fget (laneReg p l) 7 0 = margin ∧ (laneFailed s p l margin).fget (laneReg p l) 31 30 = 3 := by
  rw [State.fget, State.fget, reg_laneFailed_lane s p margin hl]
  refine ⟨?_, ?_⟩
  · rw [getF_putF_apart _ _ (by omega) (by omega), getF_putF_apart _ _ (by omega) (by omega), getF_putF_same _ _ (by omega)]
    exact Nat.mod_eq_of_lt (by omega)
  · rw [getF_putF_apart _ _ (by omega) (by omega), getF_putF_same _ _ (by omega)]
    rfl

/-- Another lane's register is as before. -/
theorem reg_laneFailed_lane_other (s : State) (p : Nat) {l margin i : Nat} (hi : i < 42) (hne : i ≠ l) :
    (laneFailed s p l margin).reg (laneReg p i) = s.reg (laneReg p i) :=
  reg_laneFailed_other s p margin (by rw [laneReg_eq]; omega) (laneReg_ne p hne) (laneReg_aligned p hi)

variable (h2 : 2 ≤ linkState s p) (hl : l < 42) (hlane : s.fget (laneReg p l) 31 30 = 2) (hm : margin < 0x20)
  (hnak : (s.nir p).nak = false) (hswap : (s.nir p).swap = false) (hgood : (s.nir p).rxGood ≤ 42)
include h2 hl hlane hm hnak hswap hgood

/-- A lane below its margin moves to the first spare (R351). -/
theorem laneSpared_spare_does {j : Nat} (hj : j < 42) (hspare : s.fget (laneReg p j) 31 30 = 1)
    (hfirst : ∀ i, i < j → s.fget (laneReg p i) 31 30 ≠ 1) :
    let t := laneSpared s p l margin false
    let lane := fun (t : State) l => t.fget (laneReg p l) 31 30
    let pos := fun (t : State) l => t.fget (laneReg p l) 21 16
    t.fget (laneReg p l) 7 0 = margin ∧ lane t l = 3 ∧ lane t j = 2 ∧ pos t j = pos s l ∧
      (∀ i, i < 42 → i ≠ j → i ≠ l → lane t i = lane s i ∧ pos t i = pos s i) ∧
      t.nir p = { s.nir p with rxGood := (s.nir p).rxGood - 1, swap := true } ∧
      laneGone s t p (min ((s.nir p).rxGood - 1) (s.nir p).txGood) := by
  intro t lane pos
  have hjl : j ≠ l := fun e => by rw [e, hlane] at hspare; omega
  have hone := pNirdor_one p
  have h44 : ∀ i, laneReg p i ≠ pNirdor p 0 + 0x44 := fun i => by rw [laneReg_eq]; omega
  have ht : t = _ := laneSpared_spare h2 hl hlane hm hnak hswap hj hspare hfirst
  have hlow : ∀ o, o < pNirdor p 1 → t.reg o = (laneFailed s p l margin).reg o := fun o ho => by
    rw [ht, reg_swapSlot_other _ _ (.inl ho), State.reg_setReg_other _ _ (by rw [laneReg_eq]; omega)]
  have hregs : ∀ i, i < 42 → t.reg (laneReg p i) = if i = j
      then putF (putF (s.reg (laneReg p j)) 31 30 2) 21 16 ((s.fset (laneReg p l) 7 0 margin).fget (laneReg p l) 21 16)
      else (laneFailed s p l margin).reg (laneReg p i) := fun i hi => by
    rw [ht, reg_swapSlot_other _ _ (.inr (laneReg_lt_slot hi))]
    split
    next e => rw [e, State.reg_setReg_same, reg_laneFailed_lane_other s p hj hjl]
    next e => rw [State.reg_setReg_other _ _ (laneReg_ne p e)]
  obtain ⟨hmargin, hfailed⟩ := laneFailed_lane s p hl hm
  refine ⟨?_, ?_, ?_, ?_, fun i hi hij hil => ?_, ?_, ?_, ?_, ?_, ?_⟩
  · rw [State.fget, hregs l hl, if_neg (Ne.symm hjl)]
    exact hmargin
  · show getF (t.reg (laneReg p l)) 31 30 = 3
    rw [hregs l hl, if_neg (Ne.symm hjl)]
    exact hfailed
  · show getF (t.reg (laneReg p j)) 31 30 = 2
    rw [hregs j hj, if_pos rfl, getF_putF_apart _ _ (by omega) (by omega), getF_putF_same _ _ (by omega)]
    rfl
  · show getF (t.reg (laneReg p j)) 21 16 = getF (s.reg (laneReg p l)) 21 16
    rw [hregs j hj, if_pos rfl, getF_putF_same _ _ (by omega), State.fget_fset_apart _ _ (by omega) (by omega)]
    exact Nat.mod_eq_of_lt (getF_lt _ _ _)
  · have e : t.reg (laneReg p i) = s.reg (laneReg p i) := by rw [hregs i hi, if_neg hij, reg_laneFailed_lane_other s p hi hil]
    exact ⟨congrArg (fun w => getF w 31 30) e, congrArg (fun w => getF w 21 16) e⟩
  · rw [ht, nir_swapSlot, State.nir_setReg, nir_laneFailed]
  · rw [State.fget, hlow _ (by omega), reg_laneFailed_status, getF_putF_same _ _ (by omega)]
    exact Nat.mod_eq_of_lt (by omega)
  · rw [State.bget, hlow _ (by omega)]
    exact bget_laneFailed s p margin
  · rw [linkState, State.fget, hlow _ (by omega), reg_laneFailed_status, getF_putF_apart _ _ (by omega) (by omega)]
    rfl
  · rw [ht]
    exact (onlyPort.setReg _ _ (onlyPort_laneFailed s p margin)).trans (onlyPort_swapSlot _ p)

/-- Without a spare, a wide port narrows (R351). -/
theorem laneSpared_narrows (hnone : ∀ j, j < 42 → s.fget (laneReg p j) 31 30 ≠ 1) (hwide : s.bget (pNirdor p 0 + 0x44) 28 = false) :
    let t := laneSpared s p l margin false
    t.fget (laneReg p l) 31 30 = 3 ∧ t.bget (pNirdor p 0 + 0x44) 28 = true ∧
      t.nir p = { s.nir p with rxGood := (s.nir p).rxGood - 1, swap := true } ∧
      (linkState s p = 3 → portIs t p 2 8) ∧ laneGone s t p (min ((s.nir p).rxGood - 1) (s.nir p).txGood) := by
  intro t
  have hone := pNirdor_one p
  have ht : t = _ := laneSpared_none h2 hl hlane hm hnak hswap hnone
  set good := fun j => decide (j ≠ l) && decide (s.fget (laneReg p j) 31 30 = 2)
  set u := swapSlot ((placeLanes (laneFailed s p l margin) p 32 good).fset (pNirdor p 0 + 0x44) 28 28 1) p with hu
  have hstatus : u.reg (pNirdor p 0 + 0x44) =
      putF (putF (s.reg (pNirdor p 0 + 0x44)) 21 16 (min ((s.nir p).rxGood - 1) (s.nir p).txGood)) 28 28 1 := by
    rw [hu, reg_swapSlot_other _ _ (.inl (by omega)), State.reg_fset, if_pos rfl, reg_placeLanes_other _ _ _ _ (.inl (by omega)),
      reg_laneFailed_status]
  have hlink : linkState u p = linkState s p := by
    rw [linkState, State.fget, hstatus, getF_putF_apart _ _ (by omega) (by omega), getF_putF_apart _ _ (by omega) (by omega)]
    rfl
  have hnir : u.nir p = { s.nir p with rxGood := (s.nir p).rxGood - 1, swap := true } := by
    rw [hu, nir_swapSlot, State.nir_fset, State.nir, (onlyRegs_placeLanes _ p 32 good).nirdors, ← State.nir, nir_laneFailed]
  have hevent : u.bget (pNirdor p 0 + 0x18) 2 = true := by
    rw [State.bget, hu, reg_swapSlot_other _ _ (.inl (by omega)), State.reg_fset_other _ _ _ _ (by omega),
      reg_placeLanes_other _ _ _ _ (.inl (by omega))]
    exact bget_laneFailed s p margin
  have hlaneReg : u.reg (laneReg p l) = placedWord 32 good l ((laneFailed s p l margin).reg (laneReg p l)) := by
    rw [hu, reg_swapSlot_other _ _ (.inr (laneReg_lt_slot hl)), State.reg_fset_other _ _ _ _ (by rw [laneReg_eq]; omega),
      reg_placeLanes_lane _ _ _ _ hl]
  have hframe : onlyPort p s u :=
    (((onlyPort_laneFailed s p margin).trans (.of_onlyRegs (onlyRegs_placeLanes _ p 32 good))).fset _ _ _ _).trans (onlyPort_swapSlot _ p)
  have hfailed : u.fget (laneReg p l) 31 30 = 3 := by
    rw [State.fget, hlaneReg, getF_placedWord]
    exact (laneRole_failed _ _ _).2 (by simp [good])
  have hnarrow : u.bget (pNirdor p 0 + 0x44) 28 = true := by
    rw [State.bget, hstatus, getB_putF_in _ _ _ (by omega)]
    rfl
  have hcount : u.fget (pNirdor p 0 + 0x44) 21 16 = min ((s.nir p).rxGood - 1) (s.nir p).txGood := by
    rw [State.fget, hstatus, getF_putF_apart _ _ (by omega) (by omega), getF_putF_same _ _ (by omega)]
    exact Nat.mod_eq_of_lt (by omega)
  have hwide' : (laneFailed s p l margin).bget (pNirdor p 0 + 0x44) 28 = false := by
    rw [State.bget, reg_laneFailed_status, getB_putF_apart _ _ (by omega)]
    exact hwide
  have htu : t = if linkState u p = 3 then portReady u p 2 8 else u := by
    rw [ht, narrowPort, if_neg (by rw [hwide']; exact Bool.false_ne_true)]
  rw [htu]
  split
  · refine ⟨?_, ?_, ?_, fun _ k hk => readiness_portReady _ _ _ _ hk, ?_, bget_portReady_keeps _ _ _ _ _ hevent, ?_, hframe.portReady _ _ _⟩
    · rw [State.fget, reg_portReady_other _ _ _ _ (laneReg_aligned p hl)]
      exact hfailed
    · rw [State.bget, reg_portReady_other _ _ _ _ (status_aligned p)]
      exact hnarrow
    · rw [nir_portReady, hnir]
    · rw [State.fget, reg_portReady_other _ _ _ _ (status_aligned p)]
      exact hcount
    · rw [linkState, State.fget, reg_portReady_other _ _ _ _ (status_aligned p)]
      exact hlink
  next hnot => exact ⟨hfailed, hnarrow, hnir, fun h3 => absurd (hlink.trans h3) hnot, hcount, hevent, hlink, hframe⟩

omit hgood in
/-- Without a spare, a narrow port that holds no packet goes down (R351, R352). -/
theorem laneSpared_down (hnone : ∀ j, j < 42 → s.fget (laneReg p j) 31 30 ≠ 1) (hnarrow : s.bget (pNirdor p 0 + 0x44) 28 = true)
    (hempty : heldPackets s p = []) :
    let t := laneSpared s p l margin false
    t.fget (laneReg p l) 31 30 = 3 ∧ linkState t p = 0 ∧ portIs t p 0 7 ∧ t.bget (pNirdor p 0 + 0x18) 2 = true ∧
      t.bget (pNirdor p 0 + 0x18) 0 = true ∧ unreferenced p s t := by
  intro t
  have hnarrow' : (laneFailed s p l margin).bget (pNirdor p 0 + 0x44) 28 = true := by
    rw [State.bget, reg_laneFailed_status, getB_putF_apart _ _ (by omega)]
    exact hnarrow
  have ht : t = portDown (laneFailed s p l margin) p := by
    rw [show t = _ from laneSpared_none h2 hl hlane hm hnak hswap hnone, narrowPort, if_pos hnarrow']
  have hlink : 2 ≤ linkState (laneFailed s p l margin) p := by
    rw [linkState, State.fget, reg_laneFailed_status, getF_putF_apart _ _ (by omega) (by omega)]
    exact h2
  have hquiet : ∀ k ∈ heldPackets (laneFailed s p l margin) p, scopeRunPacket (laneFailed s p l margin) k = false := by
    have hheld : heldPackets (laneFailed s p l margin) p = [] := by
      unfold heldPackets
      rw [nir_laneFailed]
      exact hempty
    rw [hheld]
    exact fun _ h => nomatch h
  obtain ⟨hdown, _, _, _, hevent, hready, _, hframe⟩ := portDown_quiet_does hlink (.inr hquiet)
  rw [ht]
  refine ⟨?_, hdown, hready, ?_, hevent, unreferenced.after (onlyPort_laneFailed s p margin) ?_ hframe⟩
  · obtain ⟨_, hfailed⟩ := laneFailed_lane s p hl hm
    rw [portDown_quiet hlink (.inr hquiet), State.fget, reg_down_other _ (laneReg_aligned p hl),
      reg_lowered_other _ _ (by rw [laneReg_eq]; omega) (by rw [laneReg_eq]; omega) (by rw [laneReg_eq]; omega) (laneReg_aligned p hl)]
    exact hfailed
  · rw [portDown_quiet hlink (.inr hquiet)]
    exact bget_down_keeps (bget_lowered_keeps (bget_laneFailed s p margin))
  · have := le_pNirdor p 0
    have hclock : pClock = 0x20000 := rfl
    exact reg_laneFailed_other s p margin (by omega) (by rw [laneReg_eq]; omega) (by omega)

end

/-! ### The recovered clock (R374) -/

theorem refLock_does {s : State} {p : Nat} {locked : Bool} (hpop : populated s p = true) (h2 : locked = true → 2 ≤ linkState s p) :
    let t := refLock s p locked
    t.bget (pNirdor p 0 + 0x44) 29 = locked ∧ sameRegs (fun o => o = pNirdor p 0 + 0x44) s t ∧
      t.clocks = (if locked = false ∧ s.fget (pClock + 0x40) 11 8 = p then { s.clocks with eligible := false } else s.clocks) ∧
      t = { s with regs := t.regs, clocks := t.clocks } := by
  unfold refLock
  have hacts : ¬ (!populated s p || (locked && decide (linkState s p < 2))) = true := by
    cases locked with
    | true =>
      have := h2 rfl
      simp [hpop]
      omega
    | false => simp [hpop]
  rw [if_neg hacts]
  cases locked with
  | true =>
    refine ⟨?_, fun o ho => State.reg_fset_other _ _ _ _ ho, State.fset_clocks _ _ _ _ _, fset_clocks_frame _ _ _ _ _⟩
    rw [if_pos rfl, State.bget, State.reg_fset, if_pos rfl, getB_putF_in _ _ _ (by omega)]
    rfl
  | false =>
    rw [if_neg Bool.false_ne_true]
    obtain ⟨_, hframe, hclocks⟩ := fset_modClk_frame s (fun c => if s.fget (pClock + 0x40) 11 8 = p then { c with eligible := false } else c)
      (pNirdor p 0 + 0x44) 29 29 0
    refine ⟨?_, fun o ho => by rw [reg_dropRef, if_neg ho], ?_, ?_⟩
    · rw [State.bget, reg_dropRef, if_pos rfl, getB_putF_in _ _ _ (by omega)]
      rfl
    · rw [dropRef_eq, hclocks]
      simp
    · rw [dropRef_eq]
      exact hframe

/-! ### PORT_CTRL (R352, R375) -/

/-- The fields of PORT_CTRL: RETRAIN, FORCE_DOWN, and two that stay. -/
def portCtrlFields : List RField := [⟨3, 3, .ws, 0x0⟩, ⟨2, 2, .rwp, 0x0⟩, ⟨1, 1, .rwp, 0x1⟩, ⟨0, 0, .rwp, 0x1⟩]

theorem fields_portCtrl : pageFields .nirdor0 0x40 = some portCtrlFields := rfl

theorem writeBlock_portCtrl (s : State) (rq : Req) (base typ n k : Nat) (fs : List RField) (v d : Word) :
    writeBlock s rq ⟨.nirdor0, base, typ, n, k⟩ 0x40 fs v d = writePortCtrl s n v (d &&& wsBits fs) := by
  simp [writeBlock]

/-- A privileged whole write of PORT_CTRL in service. -/
theorem writeReg_portCtrl {s : State} {p : Fin 16} (port : Fin 4) (d : Word) {page : Page} {fs : List RField}
    (hs : Serves s (pNirdor p.val 0 + 0x40) page fs) :
    writeReg s ⟨port, false⟩ (pNirdor p.val 0 + 0x40) d =
      writePortCtrl s p.val (written ⟨port, false⟩ portCtrlFields (s.reg (pNirdor p.val 0 + 0x40)) d) (d &&& wsBits portCtrlFields) := by
  obtain rfl : page = ⟨.nirdor0, pNirdor p.val 0, 0x11, p.val, 0⟩ :=
    Option.some.inj (hs.page.symm.trans (locate_nirdor0 p.isLt (by omega)))
  have hsub : pNirdor p.val 0 + 0x40 - pNirdor p.val 0 = 0x40 := Nat.add_sub_cancel_left _ _
  have hfields := hs.fields
  rw [hsub] at hfields
  obtain rfl : fs = portCtrlFields := Option.some.inj (hfields.symm.trans fields_portCtrl)
  obtain ⟨u, -, hu, hw⟩ := writeReg_serves (rq := ⟨port, false⟩) d hs (foreign_plain nofun nofun nofun) nofun (writable_priv _ _ _)
    (by rw [hsub])
  rw [hw, hu rfl, hsub, writeBlock_portCtrl]

/-- RETRAIN written in DOWN starts a training, where the word written enables the port and does not hold it down (R352). -/
theorem writePortCtrl_does {s : State} {p : Nat} (port : Fin 4) (w d : Word) (h0 : linkState s p = 0) (hpop : populated s p = true)
    (hup : transitUp s = true) (hretrain : getB d 3 = true) :
    let t := writePortCtrl s p (written ⟨port, false⟩ portCtrlFields w d) (d &&& wsBits portCtrlFields)
    linkState t p = (if getB d 0 = true ∧ getB d 2 = false then 1 else 0) ∧
      onlyRegsAt (fun o => o = pNirdor p 0 + 0x40 ∨ o = pNirdor p 0 + 0x44) s t := by
  have hws : getB (d &&& wsBits portCtrlFields) 3 = true := by
    have hbit : (wsBits portCtrlFields).getLsbD 3 = true := by decide
    rw [getB_eq, BitVec.getLsbD_and, hbit, ← getB_eq, hretrain]
    rfl
  have hb : ∀ i, i = 0 ∨ i = 2 → getB (written ⟨port, false⟩ portCtrlFields w d) i = getB d i := by
    rintro i (rfl | rfl)
    · exact getB_written port _ w d 0 (by omega) ⟨⟨0, 0, .rwp, 0x1⟩, by simp [portCtrlFields], by simp⟩
    · exact getB_written port _ w d 2 (by omega) ⟨⟨2, 2, .rwp, 0x0⟩, by simp [portCtrlFields], by simp⟩
  unfold writePortCtrl
  rw [if_pos hws]
  set v := written ⟨port, false⟩ portCtrlFields w d
  have hlink : linkState (s.setReg (pNirdor p 0 + 0x40) v) p = 0 := by
    rw [linkState, State.fget_setReg_other _ _ _ _ (by omega)]
    exact h0
  have hmay : mayTrain (s.setReg (pNirdor p 0 + 0x40) v) p = (getB d 0 && !getB d 2) := by
    have hpop' : populated (s.setReg (pNirdor p 0 + 0x40) v) p = true := by
      rw [populated, State.setReg_fuses]
      exact hpop
    have hup' : transitUp (s.setReg (pNirdor p 0 + 0x40) v) = true := by
      rw [transitUp, State.setReg_inputOn, State.setReg_start]
      exact hup
    rw [mayTrain, hpop', hup', State.bget, State.bget, State.reg_setReg_same, hb 0 (.inl rfl), hb 2 (.inr rfl)]
    simp
  obtain ⟨hto, honly, hsame⟩ := startTraining_does (s.setReg (pNirdor p 0 + 0x40) v) p true
  refine ⟨?_, (State.onlyRegs_setReg _ _ _).trans honly, fun o ho => ?_⟩
  · rw [hto, hlink, hmay]
    simp
  · rw [not_or] at ho
    obtain ⟨h40, h44⟩ := ho
    rw [hsame o h44, State.reg_setReg_other _ _ h40]

/-! ### The engine number (R29) -/

theorem writeEngineNumber_does (s : State) (v : Word) :
    let t := writeEngineNumber s v
    engineNumber t = getF v 15 0 ∧ engineValid t = true ∧ onlyRegsAt (fun o => o = pGlobal + 0x68) s t := by
  have hlt : getF v 15 0 < 2 ^ 16 := getF_lt v 15 0
  have hw : (BitVec.ofNat 32 (2 ^ 31 + getF v 15 0)).toNat = 2 ^ 31 + getF v 15 0 := by
    rw [BitVec.toNat_ofNat]
    exact Nat.mod_eq_of_lt (by omega)
  refine ⟨?_, ?_, State.onlyRegs_setReg _ _ _, fun o ho => State.reg_setReg_other _ _ ho⟩
  · unfold engineNumber State.fget writeEngineNumber
    rw [State.reg_setReg_same, getF, fld, hw, Nat.shiftRight_zero]
    omega
  · unfold engineValid State.bget writeEngineNumber
    rw [State.reg_setReg_same, getB_eq, BitVec.getLsbD, hw, Nat.testBit_eq_decide_div_mod_eq]
    simp
    omega

/-! ### Link failures (R355) -/

/-- A failure that was seen, or a frame resent 8 times, takes the port down. -/
theorem linkFailure_fails {s : State} {p : Nat} {seen : Bool} (h : seen = true ∨ ∃ f ∈ (s.nir p).replay, 8 ≤ f.resent) :
    linkFailure s p seen = portDown s p := by
  unfold linkFailure
  rw [if_pos (by simpa using h)]

theorem linkFailure_none {s : State} {p : Nat} (h : ∀ f ∈ (s.nir p).replay, f.resent < 8) : linkFailure s p false = s := by
  unfold linkFailure
  rw [if_neg (by simpa using h)]

/-! ### The statement -/

/-- Settles O48: each command by what its function leaves of a port: trainings by `trainingDone_does`, falls by `portDown_quiet_does` and
`portDown_loss_does`, lanes by the `laneSpared` lemmas. -/
theorem nirdorLinksTrainAndFail : Obligations.NirdorLinksTrainAndFail := by
  intro s p pg st x lane pos ready gone frame unref
  refine ⟨⟨_, rfl, ?_⟩, ?_, fun h2 hv htx htr => ⟨_, rfl, ?_⟩,
    fun hdue => ⟨fun h1 => ⟨_, rfl, portDownDue_training hdue h1⟩, fun h2 hgone => ⟨_, rfl, ?_⟩⟩,
    fun h2 hgone hrun hchans => ⟨_, rfl, ?_⟩, fun hresent => ⟨_, rfl, ?_⟩,
    fun h2 hresent hrun => ⟨_, rfl, ?_⟩, fun l margin h2 hm => ⟨_, rfl, laneSpared_partner_enough h2 l.isLt hm⟩,
    fun l margin h2 hlane hm => ⟨_, rfl, ?_⟩, fun l margin h2 hnak hswap hlane hgood hm => ⟨fun j hj hspare hfirst => ⟨_, rfl, ?_⟩,
      fun hnone hwide => ⟨_, rfl, ?_⟩, fun hnone hnarrow hempty => ⟨_, rfl, ?_⟩⟩,
    fun l margin h2 hnak hswap hgood hm hspare => ⟨_, rfl, ?_⟩,
    fun port d page fs h0 hpop hup hretrain hs => ⟨_, exec_wholeWrite s port false d (by unfold pg pNirdor; omega), ?_⟩,
    fun hswap htx htr => ⟨_, rfl, ?_⟩, fun locked hpop h2 => ⟨_, rfl, refLock_does hpop h2⟩, fun v => ⟨_, rfl, ?_⟩⟩
  · obtain ⟨hlink, honly⟩ := startTraining_does s p.val false
    exact ⟨by simpa using hlink, honly⟩
  · intro rx tx margins inTime switch port number ones n h1
    exact ⟨_, rfl, trainingDone_does h1 rx tx margins inTime switch port number⟩
  · exact portUp_does h2 hv htx htr
  · rw [portDownDue_up hdue h2]
    exact portDown_quiet_does h2 (.inr hgone)
  · rw [linkFailure_fails (.inl rfl)]
    exact portDown_loss_does h2 hgone hrun hchans
  · exact linkFailure_none hresent
  · obtain ⟨hdown, hnir, _, _, _, hready, _, hframe⟩ := portDown_quiet_does (p := p.val) h2 (.inl hrun)
    rw [linkFailure_fails (.inr hresent)]
    exact ⟨hdown, by rw [hnir]; rfl, hready, hframe⟩
  · rw [laneSpared_enough h2 l.isLt hlane hm]
    refine ⟨?_, ?_, ?_, State.onlyRegs_fset _ _ _ _ _, fun o ho => State.reg_fset_other _ _ _ _ ho⟩
    · rw [State.fget_fset_same _ _ _ (by omega)]
      exact Nat.mod_eq_of_lt margin.isLt
    · exact (State.fget_fset_apart _ _ (by omega) (by omega)).trans hlane
    · exact State.fget_fset_apart _ _ (by omega) (by omega)
  · obtain ⟨hmargin, hfailed, htook, hpos, hothers, hnir, hcount, hevent, hlink, hframe⟩ :=
      laneSpared_spare_does h2 l.isLt hlane hm hnak hswap hgood hj hspare hfirst
    exact ⟨hmargin, hfailed, htook, hpos, hothers, hcount, hevent, hnir, hlink, hframe⟩
  · obtain ⟨hfailed, hnarrow, hnir, hready, hcount, hevent, hlink, hframe⟩ :=
      laneSpared_narrows h2 l.isLt hlane hm hnak hswap hgood hnone hwide
    exact ⟨hfailed, hnarrow, hnir, hcount, hevent, hready, hlink, hframe⟩
  · exact laneSpared_down h2 l.isLt hlane hm hnak hswap hnone hnarrow hempty
  · obtain ⟨hlanes, hnir, hcount, hevent, hlink, hframe⟩ := laneSpared_partner_spare_does h2 l.isLt hm hnak hswap hspare hgood
    exact ⟨hlanes, hnir, hcount, hevent, hlink, hframe⟩
  · rw [writeReg_portCtrl port d hs]
    exact writePortCtrl_does port _ d h0 hpop hup hretrain
  · have hend : laneSwapEnd s p.val = s.modNir p.val (fun x => { x with swap := false }) := by
      unfold laneSwapEnd
      rw [if_pos hswap, pumpAll_idle (by rw [State.nir_modNir_same]; exact htx) (by rw [State.nir_modNir_same]; exact htr)]
    rw [hend]
    exact ⟨State.nir_modNir_same s p.val _, fun q hq => State.nir_setNir_other s _ hq, rfl⟩
  · exact writeEngineNumber_does s v

end Sys2Proof.Machine
end

