-- ==== Sys2Proof/Proofs/RegisterAccess.lean ====
section
/-! PROOF. Writes that the view filter stops, and 32-bit reads of counter pairs. -/
namespace Sys2Proof.Machine

/-! ### Writes through function 1 (R45) -/

/-- What the view filter reads of a page is its VIEW_MASK. -/
theorem writable_congr {s t : State} {pg : Page} (h : t.reg (pg.base + 0x30) = s.reg (pg.base + 0x30)) (rq : Req) :
    writable t pg rq = writable s pg rq := by
  simp [writable, visible, State.bget, h]

/-- A write whose every part falls on pages that function 1 may not write changes the denial registers only. -/
theorem bar0Write_fn1 (port : Fin 4) (parts : List (Nat × Word)) : ∀ (s : State) (off : Nat),
    (∀ i, i < parts.length → ∀ pg, locate (off + 4 * i) = some pg → writable s pg ⟨port, true⟩ = false) →
    onlyRegsAt denialReg s (bar0Write s ⟨port, true⟩ off parts) := by
  induction parts with
  | nil => exact fun s off _ => ⟨rfl, fun _ _ => rfl⟩
  | cons p parts ih =>
    intro s off h
    have hpart : onlyRegsAt denialReg s (writePart s ⟨port, true⟩ off p.1 p.2) := writePart_fn1 s port off p.1 p.2 (h 0 (Nat.succ_pos _))
    refine denial_trans hpart (ih _ (off + 4) fun i hi pg hl => ?_)
    have hnext : locate (off + 4 * (i + 1)) = some pg := by rw [← hl]; congr 1; omega
    rw [writable_denial hpart hl]
    exact h (i + 1) (Nat.succ_lt_succ hi) pg hnext

/-- The counting of a poisoned write makes no page writable. -/
theorem writable_poisonCounted (s : State) (port : Fin 4) {a : Nat} {pg : Page} (hl : locate a = some pg) (rq : Req) :
    writable (poisonCounted s port) pg rq = writable s pg rq := by
  obtain ⟨_, _, hsame, _⟩ := poisonCounted_does s port
  have hbase := locate_base_mod hl
  exact writable_congr (hsame _ (by unfold pHost; omega)) rq

/-- Settles O16: part by part by `bar0Write_fn1`; a poisoned write is counted first. -/
theorem unprivilegedWriteIsolated : Obligations.UnprivilegedWriteIsolated := by
  intro s port off parts h
  refine ⟨⟨_, rfl, bar0Write_fn1 port parts s _ h⟩, _, rfl, ?_⟩
  obtain ⟨_, _, hsame, hframe⟩ := poisonCounted_does s port
  rcases bar0Request_poisoned s ⟨port, true⟩ (off / 4 * 4) parts with e | e
  · rw [e]
    exact ⟨hframe, fun o ho => hsame o (fun hx => ho (.inr hx))⟩
  · rw [e]
    have hwrite : onlyRegsAt denialReg (poisonCounted s port) (bar0Write (poisonCounted s port) ⟨port, true⟩ (off / 4 * 4) parts) :=
      bar0Write_fn1 port parts _ _ fun i hi pg hl => by
        rw [writable_poisonCounted s port hl]
        exact h i hi pg hl
    obtain ⟨honly, hkeep⟩ := hwrite
    refine ⟨?_, fun o ho => (hkeep o fun hx => ho (.inl hx)).trans (hsame o fun hx => ho (.inr hx))⟩
    rw [onlyRegs] at honly
    rw [honly, hframe]

/-! ### Latches (R43, R35) -/

/-- A read with all byte enables answers the whole word. -/
@[simp] theorem maskBytes_full (w : Word) : maskBytes 15 w = w := BitVec.and_allOnes

/-- What a requester finds does not depend on what was handed to the outside. -/
theorem seenReg_emit (s : State) (x : Output) (rq : Req) (pg : Page) (o : Nat) : seenReg (s.emit x) rq pg o = seenReg s rq pg o := rfl

/-- The two registers of a pair lie in one page. -/
theorem locate_pairHi {off : Nat} {pg : Page} (h8 : off % 8 = 0) (hl : locate off = some pg) : locate (off + 4) = some pg := by
  rw [← hl]
  exact locate_congr (by omega)

theorem base_le_of_locate {off : Nat} {pg : Page} (hl : locate off = some pg) : pg.base ≤ off := by
  rw [locate_base hl]
  omega

/-- A _HI register is no _LO register. -/
theorem isPairLo_hi (k : PKind) {off base : Nat} (h8 : off % 8 = 0) (hb : base % 0x1000 = 0) (hle : base ≤ off) :
    isPairLo k (off + 4 - base) = false := by
  have h : ¬ (off + 4 - base) % 8 = 0 := by omega
  simp [isPairLo, h]

section
variable {s : State} {rq : Req} {off be : Nat} {pg : Page} (hl : locate off = some pg) (hvis : visible s pg rq = true)
include hl

/-- Half of an 8-byte read of a pair takes no latch and releases none. -/
theorem readPart_atomic : readPart s rq off be true = s.emit (.bar0 rq off (maskBytes be (seenReg s rq pg (off - pg.base)))) := by
  unfold readPart
  simp [hl]

include hvis
variable (hin : pageOut s pg (off - pg.base) = false) (hbe : be % 16 ≠ 0)
include hin hbe

/-- A read of a _LO register latches the pair's _HI. -/
theorem readPart_lo (hlo : isPairLo pg.kind (off - pg.base) = true) :
    readPart s rq off be false = (setLatch s rq off (some (seenReg s rq pg (off - pg.base + 4)))).emit
      (.bar0 rq off (maskBytes be (seenReg s rq pg (off - pg.base)))) := by
  unfold readPart
  simp [hl, hvis, hin, hbe, hlo]

/-- A read of a _HI register while a latch is held answers the latched word and releases it. -/
theorem readPart_latched {h : Word} (hlo : isPairLo pg.kind (off - pg.base) = false) (hh : latchOf s rq (off - 4) = some h) :
    readPart s rq off be false = (setLatch s rq (off - 4) none).emit (.bar0 rq off (maskBytes be h)) := by
  unfold readPart
  simp [hl, hvis, hin, hbe, hlo, hh]

/-- With no latch, a read answers what is found. -/
theorem readPart_unlatched (hlo : isPairLo pg.kind (off - pg.base) = false) (hh : latchOf s rq (off - 4) = none) :
    readPart s rq off be false = s.emit (.bar0 rq off (maskBytes be (seenReg s rq pg (off - pg.base)))) := by
  unfold readPart
  simp [hl, hvis, hin, hbe, hlo, hh]

end

/-- An 8-byte read of a pair takes both halves as they stand (R43). -/
theorem bar0Read_pair {s : State} {rq : Req} {off : Nat} {pg : Page} (h8 : off % 8 = 0) (hl : locate off = some pg)
    (hlo : isPairLo pg.kind (off - pg.base) = true) :
    bar0Read s rq off [15, 15] = readPart (readPart s rq off 15 true) rq (off + 4) 15 true := by
  simp [bar0Read, h8, hl, hlo]

/-- The read rows, at the offset of a register. -/
theorem exec_loRead (s : State) (port : Fin 4) (fn1 : Bool) {off : Nat} (h : off % 4 = 0) :
    exec (.bar0LoReadLatch port fn1 off) s = .next (readPart s ⟨port, fn1⟩ off 15 false) := by
  have e : exec (.bar0LoReadLatch port fn1 off) s = .next (readPart s ⟨port, fn1⟩ (off / 4 * 4) 15 false) := rfl
  rw [e, align4 h]

theorem exec_hiRead (s : State) (port : Fin 4) (fn1 : Bool) {off : Nat} (parts : List Nat) (h : off % 4 = 0) :
    exec (.bar0HiReadRelease port fn1 off parts) s = .next (bar0Read s ⟨port, fn1⟩ off parts) := by
  have e : exec (.bar0HiReadRelease port fn1 off parts) s = .next (bar0Read s ⟨port, fn1⟩ (off / 4 * 4) parts) := rfl
  rw [e, align4 h]

/-- A latch set or released is that of one requester for one pair. -/
theorem latchOf_emit_setLatch (s : State) (rq : Req) (lo : Nat) (v : Option Word) (x : Output) :
    latchOf ((setLatch s rq lo v).emit x) rq lo = v ∧
      ∀ rq' lo', ¬ (rq' = rq ∧ lo' = lo) → latchOf ((setLatch s rq lo v).emit x) rq' lo' = latchOf s rq' lo' :=
  ⟨latchOf_setLatch_same s rq lo v, fun _ _ h => latchOf_setLatch_other s v h⟩

/-- Settles O11: a read of _LO by `readPart_lo`, of _HI by `readPart_latched` and `readPart_unlatched`, of both by `readPart_atomic`. -/
theorem loReadLatchesHi : Obligations.LoReadLatchesHi := by
  intro s port fn1 off pg h8 hl hlo hin hvis
  have hlhi := locate_pairHi h8 hl
  have hhi : isPairLo pg.kind (off + 4 - pg.base) = false := isPairLo_hi _ h8 (locate_base_mod hl) (base_le_of_locate hl)
  have h4 : (off + 4) % 4 = 0 := by omega
  refine ⟨⟨_, exec_loRead s port fn1 (by omega), ?_⟩, fun h hh hinHi => ⟨_, exec_hiRead s port fn1 [15] h4, ?_⟩,
    fun hh hinHi => ⟨_, exec_hiRead s port fn1 [15] h4, ?_⟩, fun be h h0 h16 hh hinHi => ⟨_, exec_hiRead s port fn1 [be] h4, ?_⟩,
    _, exec_hiRead s port fn1 [15, 15] (by omega), ?_⟩
  · rw [readPart_lo hl hvis hin (by decide) hlo, maskBytes_full]
    obtain ⟨hsame, hother⟩ := latchOf_emit_setLatch s ⟨port, fn1⟩ off (some (seenReg s ⟨port, fn1⟩ pg (off - pg.base + 4)))
      (.bar0 ⟨port, fn1⟩ off (seenReg s ⟨port, fn1⟩ pg (off - pg.base)))
    exact ⟨hsame, hother, rfl, rfl⟩
  · rw [bar0Read, readPart_latched hlhi hvis hinHi (by decide) hhi hh, maskBytes_full]
    obtain ⟨hsame, hother⟩ := latchOf_emit_setLatch s ⟨port, fn1⟩ off none (.bar0 ⟨port, fn1⟩ (off + 4) h)
    exact ⟨rfl, hsame, hother, rfl⟩
  · rw [bar0Read, readPart_unlatched hlhi hvis hinHi (by decide) hhi hh, maskBytes_full]
    rfl
  · rw [bar0Read, readPart_latched hlhi hvis hinHi (by omega) hhi hh]
    obtain ⟨hsame, _⟩ := latchOf_emit_setLatch s ⟨port, fn1⟩ off none (.bar0 ⟨port, fn1⟩ (off + 4) (maskBytes be h))
    exact ⟨rfl, hsame⟩
  · rw [bar0Read_pair h8 hl hlo, readPart_atomic hl, readPart_atomic hlhi, maskBytes_full, maskBytes_full, seenReg_emit]
    simp [State.emit]

end Sys2Proof.Machine
end

