-- ==== Sys2Proof/Proofs/RegisterEvents.lean ====
section
/-! PROOF. EVT_STATUS, EVT_AGAIN and EVT_FORCE, and the summary bits. -/
namespace Sys2Proof.Machine

/-! ### EVT_STATUS_CLEAR (R39, R40) -/

theorem regsHosts.refl (s : State) : regsHosts s s := Eq.refl s

/-- The fields of EVT_STATUS and EVT_AGAIN define the events of their page. -/
theorem w1cBits_evt (k : PKind) {o : Nat} (ho : o = 0x18 ∨ o = 0x1C) : ∃ fs, pageFields k o = some fs ∧ w1cBits fs = evtMask k := by
  obtain ⟨hstatus, hagain, _⟩ := evt_mask k
  rcases ho with rfl | rfl
  · exact hstatus
  · exact hagain

/-- EVT_STATUS_CLEAR of a present page is `clearEvents`, whether or not the engine sets a bit in the same cycle. -/
theorem exec_evtStatusClear (s : State) (port : Fin 4) {base : Nat} (again : Bool) (d same : Word) {pg : Page} (hb : base % 0x1000 = 0)
    (hl : locate base = some pg) (ha : absent s pg = false) :
    pg.base = base ∧ exec (.evtStatusClear port false base again d same) s =
      .next (clearEvents (syncVectors s) pg (if again then 0x1C else 0x18) (d &&& evtMask pg.kind) same) := by
  set o := if again then 0x1C else 0x18 with ho
  have ho2 : o = 0x18 ∨ o = 0x1C := by cases again <;> simp [ho]
  have hlt : o < 0x40 := by omega
  obtain ⟨fs, hf, hmask⟩ := w1cBits_evt pg.kind ho2
  obtain ⟨hbase, hwrite⟩ := writeReg_hdr s port pg base o d fs hb hlt hl ha hf
  have hlo : locate (base + o) = some pg := by rw [← hl]; exact locate_congr (by omega)
  have hsub : base + o - pg.base = o := by omega
  have hoff : base / 0x1000 * 0x1000 + o = base + o := by omega
  have hexec : exec (.evtStatusClear port false base again d same) s =
      execEvtStatusClear port false base again d same s := rfl
  refine ⟨hbase, ?_⟩
  rw [hexec, execEvtStatusClear, ← ho, hoff]
  simp only [hlo, writable_priv, ha, hsub, hf, Option.getD_some, hmask, Bool.not_true, Bool.or_false]
  split
  next h =>
    have hsame : same = 0#32 := by simpa using h
    have hne : o ≠ 0x10 := by omega
    rw [hwrite, writeHeader, if_neg hne, if_pos (by simpa using ho2), hmask, hsame]
  next => rfl

/-- What a write to EVT_AGAIN leaves (R40). -/
theorem clearEvents_again (s : State) (pg : Page) (d same : Word) :
    regsHosts s (clearEvents s pg 0x1C d same) ∧
    (clearEvents s pg 0x1C d same).reg (pg.base + 0x1C) = s.reg (pg.base + 0x1C) &&& ~~~(d &&& ~~~(same &&& s.reg (pg.base + 0x1C))) ∧
    sameRegs (fun o => o = pg.base + 0x1C) s (clearEvents s pg 0x1C d same) := by
  have hclear : clearEvents s pg 0x1C d same =
      evtWritten (s.setReg (pg.base + 0x1C) (s.reg (pg.base + 0x1C) &&& ~~~(d &&& ~~~(same &&& s.reg (pg.base + 0x1C))))) pg.base := rfl
  rw [hclear]
  refine ⟨(State.onlyRegs_setReg _ _ _).rh.trans (evtWritten_hosts _ _).rh, ?_, fun o ho => ?_⟩
  · rw [(evtWritten_hosts _ _).reg, State.reg_setReg_same]
  · rw [(evtWritten_hosts _ _).reg, State.reg_setReg_other _ _ ho]

/-- Settles O12: a bit of the register written by `evt_bits`, after `exec_evtStatusClear`. -/
theorem eventClearLosesNothing : Obligations.EventClearLosesNothing := by
  intro s port base d same pg hb hl ha
  have hsync : ∀ o, (syncVectors s).reg o = s.reg o := (syncVectors_hosts s).reg
  have hmask : ∀ i, i < 32 → evtBit pg.kind i → (evtMask pg.kind).getLsbD i = true := evtMask_bit pg.kind
  refine ⟨?_, ?_⟩
  · obtain ⟨rfl, hexec⟩ := exec_evtStatusClear s port false d same hb hl ha
    refine ⟨_, hexec, ?_⟩
    rw [if_neg Bool.false_ne_true]
    obtain ⟨hframe, hstatus, hagain, hkeep⟩ := clearEvents_frame (syncVectors s) pg (d &&& evtMask pg.kind) same
    refine ⟨fun i hi hev => ⟨?_, ?_⟩, fun o ho => (hkeep o ho).trans (hsync o), (syncVectors_hosts s).rh.trans hframe⟩
    · rw [State.bget, hstatus, hsync, getB_eq, evt_bits _ _ _ _ i hi (hmask i hi hev)]
      rfl
    · rw [State.bget, hagain, hsync, hsync, getB_eq]
      simp only [BitVec.getLsbD_or, BitVec.getLsbD_and, hmask i hi hev, State.bget, getB_eq, Bool.and_true]
      ac_rfl
  · obtain ⟨rfl, hexec⟩ := exec_evtStatusClear s port true d same hb hl ha
    refine ⟨_, hexec, ?_⟩
    rw [if_pos rfl]
    obtain ⟨hframe, hagain, hkeep⟩ := clearEvents_again (syncVectors s) pg (d &&& evtMask pg.kind) same
    have hother : ∀ o, ¬ o = pg.base + 0x1C → (clearEvents (syncVectors s) pg 0x1C (d &&& evtMask pg.kind) same).reg o = s.reg o :=
      fun o ho => (hkeep o ho).trans (hsync o)
    refine ⟨fun i hi hev => ⟨?_, ?_⟩, fun o ho => hother o (fun hx => ho (.inr hx)), (syncVectors_hosts s).rh.trans hframe⟩
    · rw [State.bget, hother _ (by omega)]
      rfl
    · rw [State.bget, hagain, hsync, getB_eq, evt_bits _ _ _ _ i hi (hmask i hi hev), State.bget, getB_eq, Bool.and_or_distrib_left]

/-! ### Summary bits (R39, R51) -/

theorem bitsOf_succ (n : Nat) (p : Nat → Bool) : bitsOf (n + 1) p = bitsOf n p + (if p n then 2 ^ n else 0) := by
  unfold bitsOf
  rw [List.range_succ, List.foldl_append]
  cases h : p n <;> simp [h]

theorem bitsOf_lt (n : Nat) (p : Nat → Bool) : bitsOf n p < 2 ^ n := by
  induction n with
  | zero => simp [bitsOf]
  | succ n ih =>
    rw [bitsOf_succ, pow_succ]
    split <;> omega

/-- The bits of `bitsOf` are those for which the predicate holds. -/
theorem testBit_bitsOf {n i : Nat} (p : Nat → Bool) (hi : i < n) : (bitsOf n p).testBit i = p i := by
  induction n with
  | zero => omega
  | succ n ih =>
    have hlt := bitsOf_lt n p
    rw [bitsOf_succ]
    rcases Nat.lt_or_ge i n with h | h
    · rw [← ih h]
      split
      · rw [Nat.add_comm, Nat.testBit_two_pow_add_gt h]
      · rfl
    · obtain rfl : i = n := by omega
      cases hp : p i
      · simpa using Nat.testBit_lt_two_pow hlt
      · rw [if_pos rfl, Nat.add_comm, Nat.testBit_two_pow_add_eq, Nat.testBit_lt_two_pow hlt]
        rfl

theorem getB_bitsOf {n i : Nat} (p : Nat → Bool) (hi : i < n) (hn : n ≤ 32) : getB (BitVec.ofNat 32 (bitsOf n p)) i = p i := by
  rw [getB_eq, BitVec.getLsbD_ofNat, testBit_bitsOf p hi, decide_eq_true (by omega), Bool.true_and]

/-- A GLOBAL register of a page in service. -/
theorem readReg_global {s : State} {o : Nat} (h0 : 0x40 ≤ o) (ho : o < 0x1000) (hr : 2 ≤ s.readyState pGlobal)
    (hf : (regFields .global o).isSome = true) : readReg s (pGlobal + o) = globalReg s o := by
  have hsub : pGlobal + o - pGlobal = o := Nat.add_sub_cancel_left _ _
  obtain ⟨fs, hfs⟩ := Option.isSome_iff_exists.1 hf
  have hin : pageOut s ⟨.global, pGlobal, 1, 0, 0⟩ o = false := by simp [pageOut, Nat.not_lt.2 hr]
  have hpresent : absent s ⟨.global, pGlobal, 1, 0, 0⟩ = false := by simp [absent]
  unfold readReg pageReg
  simp only [locate_global ho, hsub, hfs, hpresent, hin, Bool.false_eq_true, if_false]
  rw [liveReg, if_neg (by omega)]

/-- A page with an event that is set and enabled is pending where IRQ_EN is 1. -/
theorem pageIrq_of_event {s : State} {pg i : Nat} (hi : i < 32) (hstatus : s.bget (pg + 0x18) i = true) (hen : s.bget (pg + 0x20) i = true)
    (hirq : s.bget (pg + 0x10) 0 = true) : pageIrq s pg = true := by
  have hbit : (s.reg (pg + 0x18) &&& s.reg (pg + 0x20) &&& 0xFFFFFFFF#32).getLsbD i = true := by
    have hall : ∀ i, i < 32 → (0xFFFFFFFF#32).getLsbD i = true := by decide
    rw [State.bget, getB_eq] at hstatus hen
    simp only [BitVec.getLsbD_and, hstatus, hen, hall i hi, Bool.and_self]
  have hne : s.reg (pg + 0x18) &&& s.reg (pg + 0x20) &&& 0xFFFFFFFF#32 ≠ 0#32 := fun e => by
    rw [e] at hbit
    simp at hbit
  simp [pageIrq, hne, hirq]

/-- The summary bit of a block reads 1 while a page of it is pending with IRQ_EN 1. -/
theorem summary_of_pageIrq {s : State} {base : Nat} (hr : 2 ≤ s.readyState pGlobal) (hirq : pageIrq s base = true) :
    (∀ n, n < 27 → base ∈ topPages n → getB (readReg s (pGlobal + 0x78)) n = true) ∧
    (∀ f, f < 32 → base ∈ fieldPages f → getB (readReg s (pGlobal + 0x80)) f = true) ∧
    (∀ f, f < 32 → base ∈ fieldPages (f + 32) → getB (readReg s (pGlobal + 0x84)) f = true) := by
  have hany : ∀ l, base ∈ l → anyIrq s l = true := fun l hmem => List.any_eq_true.2 ⟨base, hmem, hirq⟩
  have htop : readReg s (pGlobal + 0x78) = BitVec.ofNat 32 (bitsOf 27 (fun i => anyIrq s (topPages i))) :=
    readReg_global (by omega) (by omega) hr rfl
  have hlow : readReg s (pGlobal + 0x80) = BitVec.ofNat 32 (bitsOf 32 (fun f => anyIrq s (fieldPages f))) :=
    readReg_global (by omega) (by omega) hr rfl
  have hhigh : readReg s (pGlobal + 0x84) = BitVec.ofNat 32 (bitsOf 32 (fun f => anyIrq s (fieldPages (f + 32)))) :=
    readReg_global (by omega) (by omega) hr rfl
  refine ⟨fun n hn hmem => ?_, fun f hf hmem => ?_, fun f hf hmem => ?_⟩
  · rw [htop, getB_bitsOf _ hn (by omega)]
    exact hany _ hmem
  · rw [hlow, getB_bitsOf _ hf (by omega)]
    exact hany _ hmem
  · rw [hhigh, getB_bitsOf _ hf (by omega)]
    exact hany _ hmem

/-! ### EVT_FORCE (R41) -/

/-- The events that a word written to EVT_FORCE names, raised (R41), with the vectors brought up to date. -/
def forced (s : State) (base : Nat) (w : Word) : State :=
  syncVectors (forEach (List.range 32) (fun i s => s.raiseIf (getB w i) base i) (syncVectors s))

/-- Forced events are set as by occurrences, and nothing else changes but the records of the vectors. -/
theorem forced_does (s : State) (base : Nat) (w : Word) :
    (∀ i, i < 32 → (forced s base w).bget (base + 0x18) i = (s.bget (base + 0x18) i || w.getLsbD i) ∧
      (forced s base w).bget (base + 0x1C) i = (s.bget (base + 0x1C) i || (s.bget (base + 0x18) i && w.getLsbD i))) ∧
    sameRegs (fun o => o = base + 0x18 ∨ o = base + 0x1C) s (forced s base w) ∧ regsHosts s (forced s base w) := by
  obtain ⟨honly, hkeep, hbits⟩ := raiseAll (syncVectors s) base (getB w) 32 (le_refl _)
  have hbefore : ∀ o, (syncVectors s).reg o = s.reg o := (syncVectors_hosts s).reg
  have hafter : ∀ o, (forced s base w).reg o = _ := (syncVectors_hosts _).reg
  refine ⟨fun i hi => ?_, fun o ho => ?_, ((syncVectors_hosts s).rh.trans honly.rh).trans (syncVectors_hosts _).rh⟩
  · obtain ⟨hstatus, hagain⟩ := hbits i hi
    simp only [State.bget, hbefore, hi, decide_true, Bool.true_and] at hstatus hagain
    simp only [State.bget, hafter]
    exact ⟨hstatus, hagain⟩
  · rw [hafter, hkeep o ho, hbefore]

/-- A write of a header register through function 1 is a denial at most, and where the page is writable the write besides (R45). -/
theorem writeReg_hdr_fn1 (s : State) (port : Fin 4) {pg : Page} {base o : Nat} (d : Word) {fs : List RField} (hb : base % 0x1000 = 0)
    (ho : o < 0x40) (hl : locate base = some pg) (ha : absent s pg = false) (hf : pageFields pg.kind o = some fs) :
    ∃ u, onlyRegsAt denialReg s u ∧ (writeReg s ⟨port, true⟩ (base + o) d = u ∨
      writeReg s ⟨port, true⟩ (base + o) d = writeHeader u ⟨port, true⟩ pg o fs (written ⟨port, true⟩ fs (u.reg (base + o)) d) d) := by
  have hbase : pg.base = base := by have := locate_base hl; omega
  have hlo : locate (base + o) = some pg := by rw [← hl]; exact locate_congr (by omega)
  have hsub : base + o - pg.base = o := by omega
  have hmsix : ¬ 0x800 ≤ o := by omega
  unfold writeReg
  simp only [hlo, hsub, pageOut_hdr s pg ho, ha, foreign_hdr pg _ ho, hf, hmsix, decide_false, Bool.or_self, Bool.and_false,
    Bool.false_eq_true, if_false, if_pos ho]
  cases writable s pg ⟨port, true⟩
  · exact ⟨_, filtered_cases _ _ _ _ _, .inl rfl⟩
  · exact ⟨_, filtered_cases _ _ _ _ _, .inr rfl⟩

/-- EVT_FORCE written through function 1 raises nothing (R41). -/
theorem writeReg_evtForce_fn1 (s : State) (port : Fin 4) {pg : Page} {base : Nat} (d : Word) (hb : base % 0x1000 = 0)
    (hl : locate base = some pg) (ha : absent s pg = false) :
    sameRegs denialReg s (writeReg s ⟨port, true⟩ (base + 0x24) d) ∧ regsHosts s (writeReg s ⟨port, true⟩ (base + 0x24) d) := by
  obtain ⟨_, _, fs, hf, _⟩ := evt_mask pg.kind
  obtain ⟨u, ⟨honly, hkeep⟩, hw | hw⟩ := writeReg_hdr_fn1 s port d hb (by omega) hl ha hf
  · rw [hw]
    exact ⟨hkeep, honly.rh⟩
  · have hnone : writeReg s ⟨port, true⟩ (base + 0x24) d = syncVectors u := hw
    rw [hnone]
    exact ⟨fun o ho => ((syncVectors_hosts u).reg o).trans (hkeep o ho), honly.rh.trans (syncVectors_hosts u).rh⟩

/-- Settles O13: a privileged write by `forced_does`, with the summary by `summary_of_pageIrq`; one through function 1 by
`writeReg_evtForce_fn1`. -/
theorem eventForceSetsStatus : Obligations.EventForceSetsStatus := by
  intro s port base d pg hb hl ha
  have hoff : base / 0x1000 * 0x1000 + 0x24 = base + 0x24 := by omega
  have hexec : ∀ fn1, exec (.evtForce port fn1 base d) s = .next (writeReg s ⟨port, fn1⟩ (base + 0x24) d) := fun fn1 => by
    rw [← hoff]
    rfl
  obtain ⟨_, _, fs, hf, hmask⟩ := evt_mask pg.kind
  obtain ⟨rfl, hwrite⟩ := writeReg_hdr s port pg base 0x24 d fs hb (by omega) hl ha hf
  have hforced : writeReg s ⟨port, false⟩ (pg.base + 0x24) d = forced s pg.base (d &&& evtMask pg.kind) := by
    rw [hwrite, ← hmask]
    rfl
  obtain ⟨hbits, hkeep, hframe⟩ := forced_does s pg.base (d &&& evtMask pg.kind)
  have hset : ∀ i, i < 32 → evtBit pg.kind i → (d &&& evtMask pg.kind).getLsbD i = d.getLsbD i := fun i hi hev => by
    rw [BitVec.getLsbD_and, evtMask_bit pg.kind i hi hev, Bool.and_true]
  refine ⟨⟨_, hexec false, ?_⟩, _, hexec true, writeReg_evtForce_fn1 s port d hb hl ha⟩
  rw [hforced]
  refine ⟨fun i hi hev => ?_, fun i hi hev hd hr hen hirq => ?_, hkeep, hframe⟩
  · rw [← hset i hi hev]
    exact hbits i hi
  · obtain ⟨hstatus, _⟩ := hbits i hi
    rw [hset i hi hev, hd, Bool.or_true] at hstatus
    refine summary_of_pageIrq ?_ (pageIrq_of_event hi hstatus ?_ ?_)
    · rw [State.readyState, State.fget, hkeep _ (by unfold pGlobal; omega)]
      exact hr
    · rw [State.bget, hkeep _ (by omega)]
      exact hen
    · rw [State.bget, hkeep _ (by omega)]
      exact hirq

end Sys2Proof.Machine
end

