-- ==== Sys2Proof/Proofs/SpindleWindow.lean ====
section
/-! PROOF. The spindle window: which spindle it shows, writes through it, and COUNT_CLEAR. -/
namespace Sys2Proof.Machine

/-! ### What the window reads of the engine (R50, R81) -/

section
variable {s t : State} {f : Nat}

theorem swSid_congr (hsel : t.reg (pWin f 0 + 0x40) = s.reg (pWin f 0 + 0x40)) : swSid t f = swSid s f := by
  rw [swSid, State.fget, hsel]
  rfl

/-- Whether a window is off depends on SW_SELECT, the offered shape and the power of the field. -/
theorem windowOff_congr (hsel : t.reg (pWin f 0 + 0x40) = s.reg (pWin f 0 + 0x40)) (hshape : t.reg (pGlobal + 0x50) = s.reg (pGlobal + 0x50))
    (hpow : t.power = s.power) : windowOff t f = windowOff s f := by
  have hcols : t.cols = s.cols := by rw [State.cols, State.fget, hshape]; rfl
  have hrows : t.rows = s.rows := by rw [State.rows, State.fget, hshape]; rfl
  have hp : t.pow f = s.pow f := by rw [State.pow, hpow]; rfl
  simp only [windowOff, badSid, swSid_congr hsel, State.validSid, State.fieldOf, hcols, hrows, hp]

/-- Whether a spindle is live depends on RUN_STATE and the placement. -/
theorem live_congr (hstate : t.reg (pRun + 0x40) = s.reg (pRun + 0x40)) (hrun : t.run = s.run) (sid : Nat) : t.live sid = s.live sid := by
  have h1 : t.runState = s.runState := by rw [State.runState, State.fget, hstate]; rfl
  have h2 : t.placed sid = s.placed sid := by rw [State.placed, hrun]; rfl
  rw [State.live, State.running, h1, h2]
  rfl

end

/-- WRITE_REFUSED is set, and nothing else changes. -/
theorem refuseWindow_does (s : State) (f : Nat) :
    (refuseWindow s f).bget (pWin f 0 + 0x44) 2 = true ∧ onlyRegsAt (fun a => a = pWin f 0 + 0x44) s (refuseWindow s f) := by
  unfold refuseWindow
  refine ⟨?_, State.onlyRegs_fset _ _ _ _ _, fun o ho => State.reg_fset_other _ _ _ _ ho⟩
  rw [State.bget, State.reg_fset, if_pos rfl, getB_putF_in _ _ _ (by omega)]
  rfl

/-! ### Words of a vector register and of a long accumulator (R88) -/

/-- Numbers without a common bit add up bit by bit. -/
theorem add_eq_or_of_and_eq_zero {a b : Nat} (h : a &&& b = 0) : a + b = a ||| b := by
  have hw : a + b < 2 ^ (a + b) := Nat.lt_two_pow_self
  have hdisj : BitVec.ofNat (a + b) a &&& BitVec.ofNat (a + b) b = 0#(a + b) := by rw [← BitVec.ofNat_and, h]
  have hsum := congrArg BitVec.toNat (BitVec.add_eq_or_of_and_eq_zero _ _ hdisj)
  rwa [← BitVec.ofNat_add, ← BitVec.ofNat_or, BitVec.toNat_ofNat, BitVec.toNat_ofNat, Nat.mod_eq_of_lt hw,
    Nat.mod_eq_of_lt (Nat.or_lt_two_pow (by omega) (by omega))] at hsum

/-- `blend` takes the bits that the mask names from the new number, the others from the old. -/
theorem testBit_blend (old new mask i : Nat) : (blend old new mask).testBit i = if mask.testBit i then new.testBit i else old.testBit i := by
  set keep := old ^^^ (old &&& mask) with hkeep
  have hkeepBit : ∀ j, keep.testBit j = (old.testBit j && !mask.testBit j) := fun j => by
    rw [hkeep, Nat.testBit_xor, Nat.testBit_and]
    cases old.testBit j <;> cases mask.testBit j <;> rfl
  have hdisj : ∀ x, keep &&& (x &&& mask) = 0 := fun x => Nat.eq_of_testBit_eq fun j => by
    rw [Nat.testBit_and, Nat.testBit_and, hkeepBit, Nat.zero_testBit]
    cases mask.testBit j <;> simp
  have hsplit : old = keep + (old &&& mask) := by
    rw [add_eq_or_of_and_eq_zero (hdisj old)]
    refine Nat.eq_of_testBit_eq fun j => ?_
    rw [Nat.testBit_or, Nat.testBit_and, hkeepBit]
    cases old.testBit j <;> cases mask.testBit j <;> rfl
  have hblend : blend old new mask = keep ||| (new &&& mask) := by
    rw [← add_eq_or_of_and_eq_zero (hdisj new), blend]
    omega
  rw [hblend, Nat.testBit_or, Nat.testBit_and, hkeepBit]
  cases mask.testBit i <;> simp

/-- A number with its 32-bit word l replaced. -/
def putWord {n : Nat} (v : BitVec n) (l : Nat) (d : Word) : BitVec n :=
  BitVec.ofNat n (blend v.toNat (d.toNat * 2 ^ (32 * l)) ((2 ^ 32 - 1) * 2 ^ (32 * l)))

/-- The word that was replaced reads what was stored, the others as before. -/
theorem extractLsb'_putWord {n : Nat} (v : BitVec n) {l i : Nat} (d : Word) (hi : 32 * i + 32 ≤ n) :
    (putWord v l d).extractLsb' (32 * i) 32 = if i = l then d else v.extractLsb' (32 * i) 32 := by
  refine BitVec.eq_of_getLsbD_eq fun j hj => ?_
  have hmask : ((2 ^ 32 - 1) * 2 ^ (32 * l)).testBit (32 * i + j) = decide (i = l) := by
    rw [← Nat.shiftLeft_eq, Nat.testBit_shiftLeft, Nat.testBit_two_pow_sub_one, Bool.eq_iff_iff]
    simp
    omega
  rw [BitVec.getLsbD_extractLsb', putWord, BitVec.getLsbD_ofNat, testBit_blend, hmask, decide_eq_true hj, decide_eq_true (by omega : 32 * i + j < n)]
  by_cases h : i = l
  · have hlow : 32 * i + j - 32 * l = j := by omega
    rw [if_pos (by simpa using h), if_pos h, ← Nat.shiftLeft_eq, Nat.testBit_shiftLeft, hlow, decide_eq_true (by omega)]
    rfl
  · rw [if_neg (by simpa using h), if_neg h, BitVec.getLsbD_extractLsb', decide_eq_true hj]
    rfl

/-! ### Writes through the window (R50) -/

/-- The four kinds of window pages have no rule of their own in the page map or the view filter. -/
theorem winKind_plain (k : Nat) : winKind k ≠ .hpMsix ∧ winKind k ≠ .hpPba ∧ winKind k ≠ .mboxCh ∧ winKind k ≠ .nirdor0 ∧
    winKind k ≠ .nirdor1 ∧ (winKind k).privOnly = false := by
  unfold winKind
  split
  · decide
  · split
    · decide
    · split <;> decide

/-- A block write of a window page is a window write. -/
theorem writeBlock_win (s : State) (rq : Req) (f k base typ o : Nat) (fs : List RField) (v d : Word) :
    writeBlock s rq ⟨winKind k, base, typ, f, k⟩ o fs v d = writeWindow s rq f k o fs d := by
  unfold winKind
  split
  · rfl
  · split
    · rfl
    · split <;> rfl

/-- A whole write of a window register in service that the requester may write is `writeWindow`, after at most a denial of fields that
function 1 may not write. -/
theorem writeReg_win {s : State} {rq : Req} {f k o : Nat} {fs : List RField} (d : Word) (hf : f < 64) (h1 : 1 ≤ k) (hk : k ≤ 7)
    (h40 : 0x40 ≤ o) (ho : o < 0x1000) (hfields : pageFields (winKind k) o = some fs) (hr : 2 ≤ s.readyState (pWin f k))
    (hview : rq.fn1 = true → s.bget (pWin f k + 0x30) 0 = true ∧ s.bget (pWin f k + 0x30) 1 = true) :
    ∃ u, onlyRegsAt (fun a => rq.fn1 = true ∧ denialReg a) s u ∧ writeReg s rq (pWin f k + o) d = writeWindow u rq f k o fs d := by
  obtain ⟨hmsix, hpba, hmbox, hnir0, hnir1, hpriv⟩ := winKind_plain k
  have hsub : pWin f k + o - pWin f k = o := Nat.add_sub_cancel_left _ _
  have hserves : Serves s (pWin f k + o) ⟨winKind k, pWin f k, 0x25, f, k⟩ fs :=
    ⟨locate_win hf h1 hk ho, by rw [hsub]; exact hfields, by simp [pageOut, Nat.not_lt.2 hr], by simp [absent, hnir0, hnir1]⟩
  have hwritable : writable s ⟨winKind k, pWin f k, 0x25, f, k⟩ rq = true := by
    cases hfn : rq.fn1 with
    | false => simp [writable, hfn]
    | true =>
      obtain ⟨hvis, hwr⟩ := hview hfn
      simp [writable, visible, hpriv, hvis, hwr]
  obtain ⟨u, ⟨honly, hkeep⟩, hsame, hwrite⟩ := writeReg_serves d hserves (foreign_plain hmsix hpba hmbox) hmsix hwritable
    (by rw [hsub]; exact h40)
  refine ⟨u, ⟨honly, fun a ha => ?_⟩, by rw [hwrite, hsub, writeBlock_win]⟩
  cases hfn : rq.fn1 with
  | false => rw [hsame hfn]
  | true => exact hkeep a fun hx => ha ⟨hfn, hx⟩

section
variable {s : State} {rq : Req} {f k o : Nat} {fs : List RField} {d : Word}

theorem writeWindow_live (hoff : windowOff s f = false) (hlive : s.live (swSid s f) = true) :
    writeWindow s rq f k o fs d = refuseWindow s f := by
  simp [writeWindow, hoff, hlive]

variable (hoff : windowOff s f = false) (hidle : s.live (swSid s f) = false)
include hoff hidle

theorem writeWindow_select : writeWindow s rq f 7 0x40 fs d = s.setReg (pWin f 7 + 0x40) (written rq fs (s.reg (pWin f 7 + 0x40)) d) := by
  simp [writeWindow, hoff, hidle]

theorem writeWindow_reg (hreg : k ≤ 6 ∨ o = 0x44) :
    writeWindow s rq f k o fs d = s.modSpin (swSid s f) (fun p => p.setW k o (written rq fs (p.wreg k o) d)) := by
  have hsel : ¬ (k = 7 ∧ o = 0x40) := by omega
  have hlane : ¬ ((k = 7 ∧ 0x80 ≤ o) ∧ o < 0xC0) := by omega
  have hacc : ¬ ((k = 7 ∧ 0x400 ≤ o) ∧ o < 0x800) := by omega
  simp [writeWindow, hoff, hidle, hsel, hlane, hacc]

theorem writeWindow_lane {l : Nat} (hl : l < 16) :
    writeWindow s rq f 7 (0x80 + 4 * l) fs d = s.modSpin (swSid s f) (fun p =>
      p.setV (s.fget (pWin f 7 + 0x40) 5 0) (putWord (p.vreg (s.fget (pWin f 7 + 0x40) 5 0)) l d)) := by
  have hsel : ¬ 0x80 + 4 * l = 0x40 := by omega
  have hlt : 0x80 + 4 * l < 0xC0 := by omega
  have hlane : (0x80 + 4 * l - 0x80) / 4 = l := by omega
  simp only [writeWindow, hoff, hidle, hsel, hlt, hlane, Nat.le_add_right, decide_true, decide_false, Bool.and_true, Bool.and_false,
    Bool.false_eq_true, if_false, if_true]
  rfl

theorem writeWindow_acc {i l j : Nat} (hi : i < 4) (hl : l < 16) (hj : j < 4) :
    writeWindow s rq f 7 (0x400 + 0x100 * i + 0x10 * l + 4 * j) fs d = s.modSpin (swSid s f) (fun p =>
      p.setLa i l (putWord (p.lacc i l) j d)) := by
  have hsel : ¬ 0x400 + 0x100 * i + 0x10 * l + 4 * j = 0x40 := by omega
  have hvec : ¬ 0x400 + 0x100 * i + 0x10 * l + 4 * j < 0xC0 := by omega
  have hge : 0x400 ≤ 0x400 + 0x100 * i + 0x10 * l + 4 * j := by omega
  have hlt : 0x400 + 0x100 * i + 0x10 * l + 4 * j < 0x800 := by omega
  have hindex : (0x400 + 0x100 * i + 0x10 * l + 4 * j - 0x400) / 0x100 = i := by omega
  have hlane : (0x400 + 0x100 * i + 0x10 * l + 4 * j - 0x400) / 0x10 % 16 = l := by omega
  have hword : (0x400 + 0x100 * i + 0x10 * l + 4 * j) / 4 % 4 = j := by omega
  simp only [writeWindow, hoff, hidle, hsel, hvec, hge, hlt, hindex, hlane, hword, decide_true, decide_false, Bool.and_true, Bool.and_false,
    Bool.false_eq_true, if_false, if_true]
  rfl

end

/-- A change of one spindle, after changes of registers. -/
theorem modSpin_after {p : Nat → Prop} {s u : State} (h : onlyRegsAt p s u) (sid : Nat) (g : Spindle → Spindle) :
    (u.modSpin sid g).spin sid = g (s.spin sid) ∧ (∀ j, j ≠ sid → (u.modSpin sid g).spin j = s.spin j) ∧ sameRegs p s (u.modSpin sid g) ∧
      u.modSpin sid g = { s with spindles := (u.modSpin sid g).spindles, regs := (u.modSpin sid g).regs } := by
  obtain ⟨honly, hkeep⟩ := h
  have hspin : ∀ j, u.spin j = s.spin j := fun j => by rw [State.spin, honly.spindles]; rfl
  refine ⟨?_, fun j hj => ?_, fun o ho => ?_, ?_⟩
  · rw [State.modSpin, State.spin_setSpin_same, hspin]
  · rw [State.modSpin, State.spin_setSpin_other _ _ hj, hspin]
  · rw [State.reg_modSpin]
    exact hkeep o ho
  · rw [onlyRegs] at honly
    rw [honly]
    rfl

/-- Settles O15: the write is `writeWindow` by `writeReg_win`, and each case of it is one of the `writeWindow` lemmas. -/
theorem windowWriteRefusedWhileLive : Obligations.WindowWriteRefusedWhileLive := by
  intro s port fn1 field k o d fs h1 h4 h40 ho hfields hr hoff hview rq sid vs inSpin
  obtain ⟨u, hu, hwrite⟩ := writeReg_win (rq := rq) d field.isLt h1 (by omega) h40 ho hfields hr hview
  have hexec : exec (.spindleWindowWrite port fn1 field k o d) s = .next (writeWindow u rq field.val k.val o fs d) := by
    have hstart : exec (.spindleWindowWrite port fn1 field k o d) s = .next (writeReg s rq (pWin field.val k.val + o % 0x1000 / 4 * 4) d) := rfl
    have hreg : o % 0x1000 / 4 * 4 = o := by omega
    rw [hstart, hreg, hwrite]
  obtain ⟨honly, hkeep⟩ := id hu
  have hwin : ∀ k c, c < 0x1000 → ¬ (fn1 = true ∧ denialReg (pWin field.val k + c)) := fun k c _ hx => by
    have hd := hx.2
    unfold denialReg pGlobal pWin fieldBase at hd
    omega
  have hsel := hkeep _ (hwin 0 0x40 (by omega))
  have hshape : u.reg (pGlobal + 0x50) = s.reg (pGlobal + 0x50) := hkeep _ fun hx => by unfold denialReg at hx; omega
  have hstate : u.reg (pRun + 0x40) = s.reg (pRun + 0x40) := hkeep _ fun hx => by unfold denialReg pRun pGlobal at hx; omega
  have hvs : u.reg vs = s.reg vs := hkeep _ (hwin 7 0x40 (by omega))
  have hsid : swSid u field.val = sid := swSid_congr hsel
  have hoffU : windowOff u field.val = false := (windowOff_congr hsel hshape honly.power).trans hoff
  have hliveU : u.live (swSid u field.val) = s.live sid := by rw [hsid]; exact live_congr hstate honly.run sid
  refine ⟨fun hlive => ⟨_, hexec, ?_⟩, fun hidle hk => ⟨_, hexec, ?_⟩, fun hidle hk hoV => ⟨_, hexec, ?_⟩,
    fun l hl hidle hk hoV => ⟨_, hexec, ?_⟩, fun i l j hi hl hj hidle hk hoV => ⟨_, hexec, ?_⟩⟩
  · rw [writeWindow_live hoffU (hliveU.trans hlive)]
    obtain ⟨hset, hlast, hsame⟩ := refuseWindow_does u field.val
    refine ⟨hset, honly.trans hlast, fun a ha => ?_⟩
    rw [not_or] at ha
    rw [hsame a ha.1, hkeep a ha.2]
  · rw [writeWindow_reg hoffU (hliveU.trans hidle) hk, hsid]
    obtain ⟨hspin, hin⟩ := modSpin_after hu sid (fun p => p.setW k.val o (written rq fs (p.wreg k.val o) d))
    rw [hspin]
    exact ⟨Spindle.wreg_setW_same _ _ _ _, fun g a ha hne => Spindle.wreg_setW_other _ _ (by omega), rfl, hin⟩
  · rw [hk, hoV, writeWindow_select hoffU (hliveU.trans hidle)]
    refine ⟨?_, honly.trans (State.onlyRegs_setReg _ _ _), fun a ha => ?_⟩
    · rw [State.reg_setReg_same, ← hvs]
    · rw [not_or] at ha
      rw [State.reg_setReg_other _ _ ha.1, hkeep a ha.2]
  · have hrow : writeWindow u rq field.val 7 (0x80 + 4 * l) fs d =
        u.modSpin sid (fun p => p.setV (s.fget vs 5 0) (putWord (p.vreg (s.fget vs 5 0)) l d)) := by
      have hr : u.fget vs 5 0 = s.fget vs 5 0 := by rw [State.fget, hvs]; rfl
      rw [writeWindow_lane hoffU (hliveU.trans hidle) hl, hsid, hr]
    rw [hk, hoV, hrow]
    beta_reduce
    obtain ⟨hspin, hin⟩ := modSpin_after hu sid (fun p => p.setV (s.fget vs 5 0) (putWord (p.vreg (s.fget vs 5 0)) l d))
    rw [hspin]
    refine ⟨fun i hi => ?_, fun r hne => Spindle.vreg_setV_other _ _ hne, rfl, hin⟩
    rw [Spindle.vreg_setV_same]
    exact extractLsb'_putWord _ d (by omega)
  · rw [hk, hoV, writeWindow_acc hoffU (hliveU.trans hidle) hi hl hj, hsid]
    obtain ⟨hspin, hin⟩ := modSpin_after hu sid (fun p => p.setLa i l (putWord (p.lacc i l) j d))
    rw [hspin]
    refine ⟨fun m hm => ?_, fun i' l' hl' hne => Spindle.lacc_setLa_other _ _ (by omega), rfl, hin⟩
    rw [Spindle.lacc_setLa_same]
    exact extractLsb'_putWord _ d (by omega)

/-! ### COUNT_CLEAR (R38, R42, R81) -/

/-- Window pages lie in their field's block (R32). -/
theorem base_of_window {a : Nat} {pg : Page} (h : locate a = some pg) : isWindow pg = true → pg.base = pWin pg.n pg.k ∧ 1 ≤ pg.k := by
  revert h
  unfold locate fieldPage
  dsimp only
  refine ite_some (P := fun p => isWindow p = true → p.base = pWin p.n p.k ∧ 1 ≤ p.k) (fun _ => ?_) (fun _ => ?_) pg
  all_goals
    repeat' refine ite_some (fun _ => ?_) (fun _ => ?_)
    all_goals
      rintro p ⟨⟩ <;>
        (intro hw
         simp only [isWindow, Bool.and_eq_true, decide_eq_true_eq] at hw
         simp only [pWin]
         omega)

/-- The registers of a page that COUNT_CLEAR clears. -/
def clearedAt (pg : Page) (a : Nat) : Prop := pg.base ≤ a ∧ a < pg.base + 0x1000 ∧ cleared pg.kind (a - pg.base) = true

/-- The state with the counter registers of a page at their reset values. -/
def countsDropped (s : State) (pg : Page) : State :=
  { s with regs := s.regs.filter (fun e =>
      !(decide (pg.base ≤ e.1) && decide (e.1 < pg.base + 0x1000) && cleared pg.kind (e.1 - pg.base))) }

theorem clearCounts_eq (s : State) (pg : Page) : clearCounts s pg =
    if isWindow pg && !windowOff (countsDropped s pg) pg.n then
      (countsDropped s pg).modSpin (swSid (countsDropped s pg) pg.n) (fun p => forEach (windowCounters pg.k) (fun o p => p.setW pg.k o 0#32) p)
    else countsDropped s pg := rfl

theorem countsDropped_does (s : State) (pg : Page) :
    (∀ a, clearedAt pg a → (countsDropped s pg).reg a = resetOf a) ∧ onlyRegsAt (clearedAt pg) s (countsDropped s pg) := by
  have hread : ∀ a, (countsDropped s pg).reg a = if (decide (pg.base ≤ a) && decide (a < pg.base + 0x1000) && cleared pg.kind (a - pg.base)) = true
      then resetOf a else s.reg a := fun a =>
    get_filter resetOf (fun a => decide (pg.base ≤ a) && decide (a < pg.base + 0x1000) && cleared pg.kind (a - pg.base)) s.regs a
  have hiff : ∀ a, (decide (pg.base ≤ a) && decide (a < pg.base + 0x1000) && cleared pg.kind (a - pg.base)) = true ↔ clearedAt pg a := fun a => by
    simp [clearedAt, and_assoc]
  refine ⟨fun a ha => ?_, rfl, fun a ha => ?_⟩
  · rw [hread, if_pos ((hiff a).2 ha)]
  · rw [hread, if_neg fun hx => ha ((hiff a).1 hx)]

theorem mem_tab {α : Type} {n : Nat} {f : Nat → α} {a : α} : a ∈ tab n f ↔ ∃ i, i < n ∧ f i = a := by
  simp [tab]

theorem windowCounters_lt {k o : Nat} (h : o ∈ windowCounters k) : o < 0x1000 := by
  have hply : ∀ o ∈ tab 8 (fun q => 0x118 + 32 * q) ++ tab 4 (fun q => 0x20C + 16 * q), o < 0x1000 := by decide
  have h5 : ∀ o ∈ [0x48, 0x50, 0x54, 0x80, 0x84, 0x88, 0x8C], o < 0x1000 := by decide
  have h6 : ∀ o ∈ tab 224 (fun i => 0x100 + 4 * i) ++ tab 20 (fun i => 0x500 + 4 * i), o < 0x1000 := fun o h => by
    rcases List.mem_append.1 h with h | h
    · obtain ⟨i, hi, rfl⟩ := mem_tab.1 h
      omega
    · obtain ⟨i, hi, rfl⟩ := mem_tab.1 h
      omega
  unfold windowCounters at h
  split at h
  · exact hply o h
  · split at h
    · exact h5 o h
    · split at h
      · exact h6 o h
      · exact nomatch h

/-- Clearing counters of one window page of a spindle leaves every other register of it. -/
theorem zeroCounters_does (k : Nat) (l : List Nat) (hl : ∀ o ∈ l, o < 0x1000) : ∀ p : Spindle,
    let q := forEach l (fun o p => p.setW k o 0#32) p
    (∀ o ∈ l, q.wreg k o = 0#32) ∧ (∀ g a, a < 4096 → ¬ (g = k ∧ a ∈ l) → q.wreg g a = p.wreg g a) ∧ q = { p with win := q.win } := by
  induction l with
  | nil => exact fun p => ⟨nofun, fun _ _ _ _ => rfl, rfl⟩
  | cons o l ih =>
    intro p q
    have ho : o < 0x1000 := hl o (.head _)
    obtain ⟨hzero, hkeep, hrest⟩ := ih (fun x hx => hl x (.tail _ hx)) (p.setW k o 0#32)
    refine ⟨fun x hx => ?_, fun g a ha hne => ?_, hrest⟩
    · by_cases hmem : x ∈ l
      · exact hzero x hmem
      · obtain rfl : x = o := (List.mem_cons.1 hx).resolve_right hmem
        exact (hkeep k x ho fun h => hmem h.2).trans (Spindle.wreg_setW_same _ _ _ _)
    · have hother : g * 4096 + a ≠ k * 4096 + o := fun e => hne ⟨by omega, by rw [show a = o by omega]; exact .head _⟩
      exact (hkeep g a ha fun h => hne ⟨h.1, .tail _ h.2⟩).trans (Spindle.wreg_setW_other _ _ hother)

/-- The state in which COUNT_CLEAR acts: PAGE_CTRL is written, and the vectors are brought up to date before. -/
def ctrlWritten (s : State) (pg : Page) (v : Word) : State := (syncVectors s).setReg (pg.base + 0x10) v

theorem ctrlWritten_frame (s : State) (pg : Page) (v : Word) :
    regsHosts s (ctrlWritten s pg v) ∧ sameRegs (fun a => a = pg.base + 0x10) s (ctrlWritten s pg v) :=
  ⟨(syncVectors_hosts s).rh.trans (State.onlyRegs_setReg _ _ _).rh, fun a ha =>
    (State.reg_setReg_other _ _ ha).trans ((syncVectors_hosts s).reg a)⟩

/-- COUNT_CLEAR through function 0 writes PAGE_CTRL, then clears or is refused. -/
theorem exec_countClear (s : State) (port : Fin 4) {base : Nat} {pg : Page} (hb : base % 0x1000 = 0) (hl : locate base = some pg)
    (ha : absent s pg = false) : pg.base = base ∧ ∃ v, exec (.countClear port false base) s =
      .next (syncVectors (countClear (ctrlWritten s pg v) pg)) := by
  obtain ⟨fs, hf⟩ := ctl_fields pg.kind
  obtain ⟨hbase, hwrite⟩ := writeReg_hdr s port pg base 0x10 (readReg s (base + 0x10) ||| 2#32) fs hb (by omega) hl ha hf
  have hset : getB (readReg s (base + 0x10) ||| 2#32) 1 = true := by
    rw [getB_eq, BitVec.getLsbD_or]
    simp
  have hoff : base / 0x1000 * 0x1000 + 0x10 = base + 0x10 := by omega
  have hexec : exec (.countClear port false base) s =
      .next (writeReg s ⟨port, false⟩ (base / 0x1000 * 0x1000 + 0x10) (readReg s (base / 0x1000 * 0x1000 + 0x10) ||| 2#32)) := rfl
  refine ⟨hbase, written ⟨port, false⟩ fs (s.reg (base + 0x10)) (readReg s (base + 0x10) ||| 2#32), ?_⟩
  rw [hexec, hoff, hwrite, writeHeader]
  dsimp only
  rw [if_pos rfl, if_pos hset]
  rfl

section
variable {s : State} {pg : Page} (v : Word) (hb : pg.base % 0x1000 = 0)
include hb

/-- Writing PAGE_CTRL changes nothing that the window reads of the engine. -/
theorem window_ctrlWritten (f : Nat) : swSid (ctrlWritten s pg v) f = swSid s f ∧ windowOff (ctrlWritten s pg v) f = windowOff s f ∧
    windowLive (ctrlWritten s pg v) f = windowLive s f := by
  obtain ⟨hframe, hkeep⟩ := ctrlWritten_frame s pg v
  have hpow : (ctrlWritten s pg v).power = s.power := by rw [hframe]
  have hrun : (ctrlWritten s pg v).run = s.run := by rw [hframe]
  have hsel : (ctrlWritten s pg v).reg (pWin f 0 + 0x40) = s.reg (pWin f 0 + 0x40) := hkeep _ (by unfold pWin fieldBase; omega)
  have hsid := swSid_congr hsel
  have hoff := windowOff_congr hsel (hkeep _ (by unfold pGlobal; omega)) hpow
  refine ⟨hsid, hoff, ?_⟩
  rw [windowLive, hsid, hoff, live_congr (hkeep _ (by unfold pRun; omega)) hrun]
  rfl

/-- Dropping the counters of a window page changes nothing that the window reads of the engine. -/
theorem window_countsDropped (u : State) (hl : locate pg.base = some pg) (hw : isWindow pg = true) :
    swSid (countsDropped u pg) pg.n = swSid u pg.n ∧ windowOff (countsDropped u pg) pg.n = windowOff u pg.n := by
  obtain ⟨_, _, hkeep⟩ := countsDropped_does u pg
  obtain ⟨hbase, hk⟩ := base_of_window hl hw
  have hsel : (countsDropped u pg).reg (pWin pg.n 0 + 0x40) = u.reg (pWin pg.n 0 + 0x40) :=
    hkeep _ fun h => by have := h.1; unfold pWin at *; omega
  exact ⟨swSid_congr hsel, windowOff_congr hsel (hkeep _ fun h => by have := h.1; unfold pWin fieldBase pGlobal at *; omega) rfl⟩

end

theorem onlyHosts.spin {s t : State} (h : onlyHosts s t) (j : Nat) : t.spin j = s.spin j := by rw [h]; rfl

/-- The vectors brought up to date after counters of a page were dropped. -/
theorem syncVectors_countsDropped (s : State) (pg : Page) (v : Word) (t : State) (hreg : ∀ a, t.reg a = (countsDropped (ctrlWritten s pg v) pg).reg a) :
    (∀ o, o < 0x1000 → cleared pg.kind o = true → (syncVectors t).reg (pg.base + o) = resetOf (pg.base + o)) ∧
    sameRegs (fun a => a = pg.base + 0x10 ∨ (pg.base ≤ a ∧ a < pg.base + 0x1000 ∧ cleared pg.kind (a - pg.base) = true)) s (syncVectors t) := by
  obtain ⟨hdrop, _, hkeep⟩ := countsDropped_does (ctrlWritten s pg v) pg
  obtain ⟨_, hctrl⟩ := ctrlWritten_frame s pg v
  refine ⟨fun o ho hc => ?_, fun a ha => ?_⟩
  · rw [(syncVectors_hosts t).reg, hreg]
    exact hdrop _ ⟨by omega, by omega, by rw [Nat.add_sub_cancel_left]; exact hc⟩
  · rw [not_or] at ha
    rw [(syncVectors_hosts t).reg, hreg, hkeep a ha.2, hctrl a ha.1]

/-! ### COUNT_CLEAR by case (R38, R81) -/

section
variable {u : State} {pg : Page}

/-- In the window of a live spindle it is refused. -/
theorem countClear_refused (hw : isWindow pg = true) (hlive : windowLive u pg.n = true) : countClear u pg = refuseWindow u pg.n := by
  rw [countClear, hw, hlive]
  rfl

/-- The selected spindle with its counters of the window page zero. -/
def spindleCleared (u : State) (pg : Page) (sid : Nat) : State := u.modSpin sid (fun p => forEach (windowCounters pg.k) (fun o p => p.setW pg.k o 0#32) p)

variable (hb : pg.base % 0x1000 = 0) (hl : locate pg.base = some pg)
include hb hl

/-- In the window of a spindle that is not live it clears the counters of the page and of the spindle. -/
theorem countClear_window (hw : isWindow pg = true) (hlive : windowLive u pg.n = false) (hoff : windowOff u pg.n = false) :
    countClear u pg = spindleCleared (countsDropped u pg) pg (swSid u pg.n) := by
  obtain ⟨hsidDrop, hoffDrop⟩ := window_countsDropped hb u hl hw
  rw [countClear, hlive, Bool.and_false, if_neg Bool.false_ne_true, clearCounts_eq, hoffDrop, hoff, hw, hsidDrop]
  rfl

/-- Elsewhere it clears the counters of the page. -/
theorem countClear_page (hplain : isWindow pg = false ∨ windowOff u pg.n = true) : countClear u pg = countsDropped u pg := by
  have hidle : (isWindow pg && windowLive u pg.n) = false := by
    rcases hplain with h | h
    · rw [h, Bool.false_and]
    · rw [windowLive, h, Bool.not_true, Bool.false_and, Bool.and_false]
  have hnone : (isWindow pg && !windowOff (countsDropped u pg) pg.n) = false := by
    cases hw : isWindow pg with
    | false => rfl
    | true =>
      obtain ⟨_, hoffDrop⟩ := window_countsDropped hb u hl hw
      rw [hoffDrop, hplain.resolve_left (by rw [hw]; decide)]
      rfl
  rw [countClear, hidle, if_neg Bool.false_ne_true, clearCounts_eq, hnone, if_neg Bool.false_ne_true]

end

/-- What clearing a spindle's counters leaves of the spindles. -/
theorem spin_spindleCleared (u : State) (pg : Page) (sid : Nat) :
    (spindleCleared u pg sid).spin sid = forEach (windowCounters pg.k) (fun o p => p.setW pg.k o 0#32) (u.spin sid) ∧
    (∀ j, j ≠ sid → (spindleCleared u pg sid).spin j = u.spin j) ∧
    spindleCleared u pg sid = { u with spindles := (spindleCleared u pg sid).spindles } :=
  ⟨State.spin_setSpin_same .., fun _ hj => State.spin_setSpin_other _ _ hj, rfl⟩

/-- Settles O14: after `exec_countClear`, the refusal by `refuseWindow_does`, the registers by `syncVectors_countsDropped`, and the counters of a
spindle by `zeroCounters_does`. -/
theorem countClearZeroesCounters : Obligations.CountClearZeroesCounters := by
  intro s port base pg hb hl ha
  obtain ⟨rfl, v, hexec⟩ := exec_countClear s port hb hl ha
  obtain ⟨hframe, hctrl⟩ := ctrlWritten_frame s pg v
  obtain ⟨hsidEq, hoffEq, hliveEq⟩ := window_ctrlWritten (s := s) v hb pg.n
  refine ⟨fun hw hlive => ⟨_, hexec, ?_⟩, fun hw hlive hoff => ⟨_, hexec, ?_⟩, fun hplain => ⟨_, hexec, ?_⟩⟩
  · rw [countClear_refused hw (hliveEq.trans hlive)]
    obtain ⟨hset, honly, hkeep⟩ := refuseWindow_does (ctrlWritten s pg v) pg.n
    refine ⟨?_, fun a ha => ?_, (hframe.trans honly.rh).trans (syncVectors_hosts _).rh⟩
    · rw [State.bget, (syncVectors_hosts _).reg]
      exact hset
    · rw [not_or] at ha
      rw [(syncVectors_hosts _).reg, hkeep a ha.2, hctrl a ha.1]
  · rw [countClear_window hb hl hw (hliveEq.trans hlive) (hoffEq.trans hoff), hsidEq]
    obtain ⟨hreset, hkeep⟩ := syncVectors_countsDropped s pg v (spindleCleared (countsDropped (ctrlWritten s pg v) pg) pg (swSid s pg.n))
      fun a => State.reg_modSpin _ _ _ a
    obtain ⟨hsame, hothers, hspindles⟩ := spin_spindleCleared (countsDropped (ctrlWritten s pg v) pg) pg (swSid s pg.n)
    have hbefore : ∀ j, (countsDropped (ctrlWritten s pg v) pg).spin j = s.spin j := fun j => by
      rw [State.spin, countsDropped, hframe]
      rfl
    obtain ⟨hzero, hother, hrest⟩ := zeroCounters_does pg.k (windowCounters pg.k) (fun _ => windowCounters_lt) (s.spin (swSid s pg.n))
    rw [(syncVectors_hosts _).spin, hsame, hbefore]
    refine ⟨hzero, hother, hrest, fun j hj => ?_, hreset, hkeep, ?_⟩
    · rw [(syncVectors_hosts _).spin, hothers j hj, hbefore]
    · rw [syncVectors_hosts (spindleCleared _ _ _), hspindles, countsDropped, hframe]
  · rw [countClear_page hb hl (hplain.imp id hoffEq.trans)]
    obtain ⟨hreset, hkeep⟩ := syncVectors_countsDropped s pg v _ fun _ => rfl
    obtain ⟨_, honly, _⟩ := countsDropped_does (ctrlWritten s pg v) pg
    exact ⟨hreset, hkeep, (hframe.trans honly.rh).trans (syncVectors_hosts _).rh⟩

end Sys2Proof.Machine
end

