-- ==== Sys2Proof/Proofs/StoreLineAccess.lean ====
section
/-! PROOF. Accesses of a host port to one store line on whole routes. -/
namespace Sys2Proof.Machine

/-! ### Whole routes (R228, R437) -/

/-- Whether every route is whole depends on links and maps. -/
theorem routesWhole_congr {s t : State} (hlinks : t.links = s.links) (hmaps : t.maps = s.maps) (h : routesWhole s) : routesWhole t := by
  rw [routesWhole, hlinks, hmaps]
  exact h

/-- With no link down and no field mapped out, no message is cut. -/
theorem cutOn_whole {s : State} (h : routesWhole s) (m : Msg) : cutOn s m = none := by
  obtain ⟨hlinks, hmaps⟩ := h
  have hdown : downOn s m = none := by
    have hnone : s.links.filterMap (fun kl => if kl.2.down then (crossAt m (routeEnds s m).1 (routeEnds s m).2 (gateInto s m)
        (linkCut s (LinkId.ofKey kl.1))).map (fun n => (n, (LinkId.ofKey kl.1).field)) else none) = [] :=
      List.filterMap_eq_nil_iff.2 fun kl hkl => if_neg (by rw [hlinks kl hkl]; decide)
    unfold downOn
    simp only [hnone]
  have hfail : s.maps.any (fun fm => fm.2.fail) = false := List.any_eq_false.2 fun fm hfm => by rw [hmaps fm hfm]; decide
  unfold cutOn
  simp [hdown, hfail]

/-- A message to a spindle or a host port that no bank answers arrives with its route counted. -/
theorem carry_whole {s : State} (h : routesWhole s) {m : Msg} (hdst : (∃ n, m.dst = .spindle n) ∨ ∃ p, m.dst = .host p) (hvia : m.via = none) :
    carry s m = (true, countRoute s m) := by
  unfold carry
  rw [cutOn_whole h]
  dsimp only
  rcases hdst with ⟨n, e⟩ | ⟨p, e⟩
  · rw [e, hvia]
    cases srcBlock m.src <;> rfl
  · rw [e, hvia]
    cases srcBlock m.src <;> rfl

/-- What counting a route leaves: counters and their events. -/
def counted (s t : State) : Prop :=
  routed (fun _ => False) s t ∧ t = { s with regs := t.regs, spindles := t.spindles } ∧ ∀ j, (t.spin j).ep = (s.spin j).ep

theorem countRoute_counted (s : State) (m : Msg) : counted s (countRoute s m) := countRoute_routed s m true

theorem routed.trans {p : Nat → Prop} {s t u : State} (h : routed (fun _ => False) s t) (k : routed p t u) : routed p s u := by
  obtain ⟨hregs, hspin⟩ := h
  obtain ⟨kregs, kspin⟩ := k
  refine ⟨fun o ho => ?_, fun j => ?_⟩
  · rw [kregs o ho, hregs o fun hx => ho (hx.elim False.elim .inr)]
  · obtain ⟨he, hw⟩ := hspin j
    obtain ⟨ke, kw⟩ := kspin j
    refine ⟨?_, fun g o ho hg => (kw g o ho hg).trans (hw g o ho hg)⟩
    rw [ke, he]

/-! ### Store lines in service (R25, R62) -/

theorem readByte_congr {s t : State} (hmem : t.mem = s.mem) (c : Nat) : readByte t c = readByte s c := by
  rw [readByte, readByte, hmem]

theorem markOf_congr {s t : State} (hmarks : t.marks = s.marks) (k : Nat) : markOf t k = markOf s k := by
  rw [markOf, markOf, hmarks]

/-- What a line reads depends on the memory and its marks. -/
theorem readLine_congr {s t : State} (hmem : t.mem = s.mem) (hmarks : t.marks = s.marks) (a : Nat) : readLine t a = readLine s a := by
  simp only [readLine, readBytes, readByte, markOf, hmem, hmarks]

/-- Whether an EA names a store line in service depends on the offered shape, the grade, and the power and readiness of fields. -/
theorem storeEa_congr {s t : State} {ea sid o : Nat} (hshape : t.reg (pGlobal + 0x50) = s.reg (pGlobal + 0x50))
    (hgrade : t.reg (pGlobal + 0x48) = s.reg (pGlobal + 0x48)) (hready : ∀ f, t.reg (pField f + 0xC) = s.reg (pField f + 0xC))
    (hpow : t.power = s.power) (h : storeEa s ea sid o) : storeEa t ea sid o := by
  have hcols : t.cols = s.cols := by rw [State.cols, State.fget, hshape]; rfl
  have hrows : t.rows = s.rows := by rw [State.rows, State.fget, hshape]; rfl
  have hcap : t.capacity = s.capacity := by rw [State.capacity, State.fget, hgrade]; rfl
  have hvalid : ∀ n, t.validSid n = s.validSid n := fun n => by rw [State.validSid, hcols, hrows]; rfl
  have hfield : ∀ n, t.fieldOf n = s.fieldOf n := fun n => by rw [State.fieldOf, hcols]; rfl
  have hdecode : decodeEA t ea = decodeEA s ea := by
    unfold decodeEA
    simp only [hcap, hvalid]
  have hoff : spOff t sid = spOff s sid := by
    have hp : ∀ f, t.pow f = s.pow f := fun f => by rw [State.pow, hpow]; rfl
    have hr : ∀ f, t.readyState (pField f) = s.readyState (pField f) := fun f => by rw [State.readyState, State.fget, hready]; rfl
    rw [spOff, fieldIdle, hfield, hp, hr]
    rfl
  obtain ⟨h32, hlt, hd, hs⟩ := h
  exact ⟨h32, hlt, hdecode.trans hd, hoff.trans hs⟩

section
variable {s t : State} (h : counted s t)
include h

theorem counted.reg {o : Nat} (ho : ∀ f, o ≠ pWin f 6 + 0x18 ∧ o ≠ pWin f 6 + 0x1C) : t.reg o = s.reg o := by
  obtain ⟨⟨hregs, _⟩, _, _⟩ := h
  exact hregs o fun hx => hx.elim False.elim fun ⟨f, hf⟩ => hf.elim (ho f).1 (ho f).2

theorem counted.storeEa {ea sid o : Nat} (hs : storeEa s ea sid o) : Machine.storeEa t ea sid o := by
  have hlow : ∀ o, o < 0x1000000 → t.reg o = s.reg o := fun o ho => h.reg fun f => by unfold pWin fieldBase; omega
  obtain ⟨_, hframe, _⟩ := id h
  refine storeEa_congr (hlow _ (by unfold pGlobal; omega)) (hlow _ (by unfold pGlobal; omega)) (fun f => h.reg fun g => ?_) ?_ hs
  · unfold pWin pField fieldBase
    omega
  · rw [hframe]

theorem counted.routesWhole (hw : routesWhole s) : Machine.routesWhole t := by
  obtain ⟨_, hframe, _⟩ := id h
  exact routesWhole_congr (by rw [hframe]) (by rw [hframe]) hw

theorem counted.readByte (c : Nat) : Machine.readByte t c = Machine.readByte s c := by
  obtain ⟨_, hframe, _⟩ := id h
  exact readByte_congr (by rw [hframe]) c

theorem counted.markOf (k : Nat) : Machine.markOf t k = Machine.markOf s k := by
  obtain ⟨_, hframe, _⟩ := id h
  exact markOf_congr (by rw [hframe]) k

theorem counted.readLine (a : Nat) : Machine.readLine t a = Machine.readLine s a := by
  obtain ⟨_, hframe, _⟩ := id h
  exact readLine_congr (by rw [hframe]) (by rw [hframe]) a

end

/-! ### Accesses of a host port to one store line (R62, R386) -/

/-- The state after a line of store offset `o` was stored from outside: the route of the write, the EP's line, the line, the route of the
acknowledgement. -/
def lineWritten (s : State) (m m' : Msg) (sid o : Nat) (l : Line) : State :=
  countRoute (writeLine (epServe (countRoute s m) sid [o / 32 % 2048]) (storeAddr sid (o / 32)) l) m'

/-- The state after a line of store offset `o` was read from outside. -/
def lineRead (s : State) (m m' : Msg) (sid o : Nat) : State := countRoute (epServe (countRoute s m) sid [o / 32 % 2048]) m'

/-- What the EP of a spindle has to pass for one store line: a header and the line. -/
theorem epServe_line (s : State) (sid L : Nat) :
    (∀ j, ((epServe s sid [L % 2048]).spin j).ep = if j = sid then (s.spin j).ep ++ [0#8, bankOf L] else (s.spin j).ep) ∧
    (∀ j, (epServe s sid [L % 2048]).spin j = { s.spin j with ep := ((epServe s sid [L % 2048]).spin j).ep }) := by
  have hbank : bankOf (L % 2048) = bankOf L := by
    have : L % 2048 % 8 = L % 8 := by omega
    rw [bankOf, bankOf, this]
  have hsame : (epServe s sid [L % 2048]).spin sid = (s.spin sid).epPass [0#8, bankOf L] := by
    rw [epServe, State.modSpin, State.spin_setSpin_same, List.map_singleton, hbank]
  have hother : ∀ j, j ≠ sid → (epServe s sid [L % 2048]).spin j = s.spin j := fun j hj => by
    rw [epServe, State.modSpin, State.spin_setSpin_other _ _ hj]
  refine ⟨fun j => ?_, fun j => ?_⟩
  · split
    next e => rw [e, hsame]; rfl
    next e => rw [hother j e]
  · by_cases e : j = sid
    · rw [e, hsame]; rfl
    · rw [hother j e]

/-- Serving a line leaves registers, memory and routes. -/
theorem epServe_frame (s : State) (sid : Nat) (ls : List Nat) :
    epServe s sid ls = { s with spindles := (epServe s sid ls).spindles } := rfl

theorem routesWhole_epServe {s : State} (h : routesWhole s) (sid : Nat) (ls : List Nat) : routesWhole (epServe s sid ls) :=
  routesWhole_congr rfl rfl h

theorem readLine_epServe (s : State) (sid : Nat) (ls : List Nat) (a : Nat) : readLine (epServe s sid ls) a = readLine s a :=
  readLine_congr rfl rfl a

/-- A line stored changes bytes and marks only. -/
theorem writeBytes_frame (s : State) (a n w : Nat) : writeBytes s a n w = { s with mem := (writeBytes s a n w).mem } := by
  induction n with
  | zero => rfl
  | succ n ih =>
    rw [writeBytes_succ, ih]
    rfl

theorem writeLine_frame (s : State) (a : Nat) (l : Line) :
    writeLine s a l = { s with mem := (writeLine s a l).mem, marks := (writeLine s a l).marks } := by
  have h := writeBytes_frame s a 32 l.data.toNat
  rw [writeLine]
  generalize writeBytes s a 32 l.data.toNat = u at h
  rw [h]
  rfl

theorem writeLine_regs (s : State) (a : Nat) (l : Line) : (writeLine s a l).regs = s.regs := by
  rw [writeLine_frame]

theorem writeLine_spindles (s : State) (a : Nat) (l : Line) : (writeLine s a l).spindles = s.spindles := by
  rw [writeLine_frame]

theorem spin_writeLine (s : State) (a : Nat) (l : Line) (j : Nat) : (writeLine s a l).spin j = s.spin j := by
  rw [State.spin, State.spin, writeLine_spindles]

theorem routesWhole_writeLine {s : State} (h : routesWhole s) (a : Nat) (l : Line) : routesWhole (writeLine s a l) :=
  routesWhole_congr (by rw [writeLine_frame]) (by rw [writeLine_frame]) h

section
variable {s : State} {ea sid o : Nat} (hs : storeEa s ea sid o) (hw : routesWhole s) (pg h : Nat)
include hs hw

/-- Port h writes one store line. -/
theorem chunkStore_line (t : Option Nat) (l : Line) (mask : Nat) :
    ∃ m m', chunkStore s t pg h ea [(l, mask)] = (true, lineWritten s m m' sid o l) := by
  obtain ⟨_, _, hdecode, _⟩ := id hs
  set m := portMsg s h ea 1 false [l] with hm
  have hdst : m.dst = .spindle sid := by rw [hm, portMsg, hdecode]; rfl
  have hunit : unitOut s ea 1 = none := by rw [unitOut, hdecode]
  have hcarry : carry s m = (true, countRoute s m) := carry_whole hw (.inl ⟨sid, hdst⟩) rfl
  have hcounted := countRoute_counted s m
  obtain ⟨_, _, hdecode', hon⟩ := hcounted.storeEa hs
  have hstore : unitStore (countRoute s m) t ea m.src [(l, mask)] =
      writeLine (epServe (countRoute s m) sid [o / 32 % 2048]) (storeAddr sid (o / 32)) l := by
    unfold unitStore
    rw [hdecode']
    dsimp only
    rw [hon]
    rfl
  have hwhole : routesWhole (writeLine (epServe (countRoute s m) sid [o / 32 % 2048]) (storeAddr sid (o / 32)) l) :=
    routesWhole_writeLine (routesWhole_epServe (hcounted.routesWhole hw) _ _) _ _
  have hgate : gateInto (countRoute s m) m = none := by rw [gateInto, hdst]
  have hback := carry_whole hwhole (m := portAnswer (countRoute s m) h m []) (.inr ⟨h, rfl⟩) hgate
  refine ⟨m, portAnswer (countRoute s m) h m [], ?_⟩
  unfold chunkStore
  simp only [List.length_singleton, hunit, List.map_singleton, ← hm, hcarry, hstore, hback, lineWritten]

/-- Port h reads one store line without findings. -/
theorem chunkLines_line (t : Nat) (hclean : (readLine s (storeAddr sid (o / 32))).bad = false) :
    ∃ m m', chunkLines s pg h t ea 1 [] = ([readLine s (storeAddr sid (o / 32))], lineRead s m m' sid o) := by
  obtain ⟨_, _, hdecode, _⟩ := id hs
  set l := readLine s (storeAddr sid (o / 32)) with hl
  set m := portMsg s h ea 1 true [] with hm
  have hdst : m.dst = .spindle sid := by rw [hm, portMsg, hdecode]; rfl
  have hunit : unitOut s ea 1 = none := by rw [unitOut, hdecode]
  have hcarry : carry s m = (true, countRoute s m) := carry_whole hw (.inl ⟨sid, hdst⟩) rfl
  have hcounted := countRoute_counted s m
  obtain ⟨_, _, hdecode', hon⟩ := hcounted.storeEa hs
  have hserved : readLine (epServe (countRoute s m) sid [o / 32 % 2048]) (storeAddr sid (o / 32)) = l :=
    (readLine_epServe _ _ _ _).trans (hcounted.readLine _)
  have hread : storeRead (epServe (countRoute s m) sid [o / 32 % 2048]) sid (o / 32) .clean =
      (l, epServe (countRoute s m) sid [o / 32 % 2048]) := by
    rw [storeRead_clean _ _ _ (by rw [hserved]; exact hclean), hserved]
  have hlines : unitLines (countRoute s m) m.src t ea 1 [] = ([l], epServe (countRoute s m) sid [o / 32 % 2048]) := by
    unfold unitLines
    rw [hdecode']
    dsimp only
    rw [hon]
    simp [tab, nth, hread]
  set u := epServe (countRoute s m) sid [o / 32 % 2048] with hu
  have hwhole : routesWhole u := routesWhole_epServe (hcounted.routesWhole hw) _ _
  have hgate : gateInto u m = none := by rw [gateInto, hdst]
  have hback := carry_whole hwhole (m := portAnswer u h m [l]) (.inr ⟨h, rfl⟩) hgate
  have hnone : ∀ v, consumed v pg [l] = v := fun v => by simp [consumed, hclean, forEach]
  refine ⟨m, portAnswer u h m [l], ?_⟩
  unfold chunkLines
  simp only [hunit, ← hm, hcarry, hlines, hback, hnone, lineRead, ← hu]

end

/-! ### What such an access leaves (R87, R386) -/

/-- A state with the same registers and spindles has no route counted. -/
theorem routed_of_eq {p : Nat → Prop} {s t : State} (hregs : t.regs = s.regs) (hspin : t.spindles = s.spindles) : routed p s t := by
  have hs : ∀ j, t.spin j = s.spin j := fun j => by rw [State.spin, hspin]; rfl
  refine ⟨fun o _ => by rw [State.reg, hregs]; rfl, fun j => ?_⟩
  rw [hs]
  exact ⟨rfl, fun _ _ _ _ => rfl⟩

theorem routed_epServe (s : State) (sid L : Nat) : routed (fun _ => False) s (epServe s sid [L % 2048]) := by
  obtain ⟨_, hframe⟩ := epServe_line s sid L
  refine ⟨fun _ _ => rfl, fun j => ?_⟩
  rw [hframe j]
  exact ⟨rfl, fun _ _ _ _ => rfl⟩

/-- A line served after a counted route leaves counters and the EP's line. -/
theorem served_does (s : State) (m : Msg) (sid o : Nat) :
    let u := epServe (countRoute s m) sid [o / 32 % 2048]
    routed (fun _ => False) s u ∧ epPassed s u sid o ∧ u = { s with regs := u.regs, spindles := u.spindles } := by
  obtain ⟨hrouted, hframe, hep⟩ := countRoute_counted s m
  obtain ⟨hserved, _⟩ := epServe_line (countRoute s m) sid (o / 32)
  refine ⟨hrouted.trans (routed_epServe _ _ _), fun j => ?_, ?_⟩
  · rw [hserved, hep]
  · rw [epServe_frame, hframe]

/-- Bytes, marks, registers and spindles are all that three steps of a line's write change. -/
theorem frame_trans {s u v t : State} (hu : u = { s with regs := u.regs, spindles := u.spindles })
    (hv : v = { u with mem := v.mem, marks := v.marks }) (ht : t = { v with regs := t.regs, spindles := t.spindles }) :
    t = { s with mem := t.mem, marks := t.marks, regs := t.regs, spindles := t.spindles } := by
  have hmem : t.mem = v.mem := by rw [ht]
  have hmarks : t.marks = v.marks := by rw [ht]
  rw [hmem, hmarks]
  calc t = { v with regs := t.regs, spindles := t.spindles } := ht
    _ = { ({ u with mem := v.mem, marks := v.marks } : State) with regs := t.regs, spindles := t.spindles } :=
      congrArg (fun w : State => { w with regs := t.regs, spindles := t.spindles }) hv
    _ = _ := congrArg (fun w : State => { w with mem := v.mem, marks := v.marks, regs := t.regs, spindles := t.spindles }) hu

section
variable (s : State) (m m' : Msg) (sid o : Nat)

/-- A read of a line leaves counted routes and the EP's line. -/
theorem lineRead_does : routed (fun _ => False) s (lineRead s m m' sid o) ∧ epPassed s (lineRead s m m' sid o) sid o ∧
    lineRead s m m' sid o = { s with regs := (lineRead s m m' sid o).regs, spindles := (lineRead s m m' sid o).spindles } := by
  obtain ⟨hrouted, hep, hframe⟩ := served_does s m sid o
  rw [lineRead]
  generalize epServe (countRoute s m) sid [o / 32 % 2048] = u at *
  obtain ⟨krouted, kframe, kep⟩ := countRoute_counted u m'
  refine ⟨hrouted.trans krouted, fun j => (kep j).trans (hep j), ?_⟩
  calc countRoute u m' = { u with regs := (countRoute u m').regs, spindles := (countRoute u m').spindles } := kframe
    _ = _ := congrArg (fun w : State => { w with regs := (countRoute u m').regs, spindles := (countRoute u m').spindles }) hframe

/-- A write of a line leaves counted routes, the EP's line, and the line stored. -/
theorem lineWritten_does (l : Line) :
    let t := lineWritten s m m' sid o l
    let a := storeAddr sid (o / 32)
    (∀ c, readByte t c = if a ≤ c ∧ c < a + 32 then BitVec.ofNat 8 (byteOf l.data.toNat (c - a)) else readByte s c) ∧
      markOf t (a / 32) = l.bad ∧ (∀ k, k ≠ a / 32 → markOf t k = markOf s k) ∧ routed (fun _ => False) s t ∧ epPassed s t sid o ∧
      t = { s with mem := t.mem, marks := t.marks, regs := t.regs, spindles := t.spindles } := by
  obtain ⟨hrouted, hep, hframe⟩ := served_does s m sid o
  intro t a
  have ht : t = countRoute (writeLine (epServe (countRoute s m) sid [o / 32 % 2048]) a l) m' := rfl
  clear_value t a
  generalize epServe (countRoute s m) sid [o / 32 % 2048] = u at *
  have hwritten := countRoute_counted (writeLine u a l) m'
  rw [← ht] at hwritten
  obtain ⟨krouted, kframe, kep⟩ := id hwritten
  have hmem : u.mem = s.mem := by rw [hframe]
  have hmarks : u.marks = s.marks := by rw [hframe]
  refine ⟨fun c => ?_, ?_, fun k hk => ?_, ?_, fun j => ?_, ?_⟩
  · rw [hwritten.readByte, mark_line_readByte, readByte_congr hmem]
  · rw [hwritten.markOf, markOf_writeLine_same]
  · rw [hwritten.markOf, markOf_writeLine_other _ _ _ hk, markOf_congr hmarks]
  · exact (hrouted.trans (routed_of_eq (writeLine_regs ..) (writeLine_spindles ..))).trans krouted
  · rw [kep, spin_writeLine, hep]
  · exact frame_trans hframe (writeLine_frame u a l) kframe

end

end Sys2Proof.Machine
end

