-- ==== Sys2Proof/Proofs/Bar2Grants.lean ====
section
/-! PROOF. BAR2 requests of function 1: a whole store line inside a grant, and refusals. -/
namespace Sys2Proof.Machine

/-! ### Poisoned writes (R386) -/

/-- The state in which a BAR2 write takes effect: a poisoned one has been counted in POISON_RX of port h, with its event. -/
def poisonNoted (s : State) (h : Nat) (poisoned : Bool) : State :=
  if poisoned then (s.bump48 (pHost h 0) (pHost h 0 + 0x68) 1).raise (pHost h 0) 2 else s

theorem poisonNoted_frame (s : State) (h : Nat) (poisoned : Bool) :
    onlyRegsAt (fun r => poisoned = true ∧ (r = pHost h 0 + 0x68 ∨ r = pHost h 0 + 0x6C ∨ r = pHost h 0 + 0x18 ∨ r = pHost h 0 + 0x1C))
      s (poisonNoted s h poisoned) := by
  cases poisoned with
  | false => exact ⟨rfl, fun _ _ => rfl⟩
  | true =>
    refine ⟨(State.onlyRegs_bump48 _ _ _ _).trans (State.onlyRegs_raise _ _ _), fun r hr => ?_⟩
    simp only [true_and, not_or] at hr
    obtain ⟨hlo, hhi, hevt, hagain⟩ := hr
    rw [poisonNoted, if_pos rfl, State.reg_raise_other _ _ _ hevt hagain, State.reg_bump48_other _ _ _ _ hlo hhi hevt hagain]

theorem reg_poisonNoted (s : State) (h : Nat) : (poisonNoted s h true).reg (pHost h 0 + 0x68) = s.reg (pHost h 0 + 0x68) + 1#32 := by
  rw [poisonNoted, if_pos rfl, State.reg_raise_other _ _ _ (by omega) (by omega), State.reg_bump48_lo _ _ _ _ (by omega) (by omega)]

theorem storeEa_poisonNoted {s : State} {ea sid o : Nat} (hs : storeEa s ea sid o) (h : Nat) (poisoned : Bool) :
    storeEa (poisonNoted s h poisoned) ea sid o := by
  obtain ⟨hregs, hkeep⟩ := poisonNoted_frame s h poisoned
  have hsame : ∀ {r}, r % 0x1000 = 0x50 ∨ r % 0x1000 = 0x48 ∨ r % 0x1000 = 0xC → (poisonNoted s h poisoned).reg r = s.reg r :=
    fun {r} _ => hkeep r fun ⟨_, hr⟩ => by
      unfold pHost at hr
      omega
  exact storeEa_congr (hsame (.inl rfl)) (hsame (.inr (.inl rfl)))
    (fun f => hsame (.inr (.inr (by unfold pField fieldBase; omega)))) hregs.power hs

theorem routesWhole_poisonNoted {s : State} (hw : routesWhole s) (h : Nat) (poisoned : Bool) : routesWhole (poisonNoted s h poisoned) := by
  obtain ⟨hregs, _⟩ := poisonNoted_frame s h poisoned
  exact routesWhole_congr hregs.links hregs.maps hw

/-! ### A whole line through BAR2 (R386) -/

/-- One line is one run. -/
theorem runsFrom_line (s : State) (ea : Nat) : runsFrom s 1 ea 1 = [(ea, 1)] := rfl

/-- The lines of a one-line write. -/
theorem eaStore_line (s : State) (t : Option Nat) (pg h ea : Nat) (l : Line × Nat) :
    (eaStore s t pg h ea [l]).2 = (chunkStore s t pg h ea [l]).2 := by
  rw [eaStore, List.length_singleton, runsFrom_line, List.foldl_cons, List.foldl_nil, Nat.sub_self]
  rfl

theorem eaLines_line (s : State) (pg h t ea : Nat) : eaLines s pg h t ea 1 [] = chunkLines s pg h t ea 1 [] := by
  rw [eaLines, runsFrom_line]
  rfl

theorem toBytesLE_length (n w : Nat) : (toBytesLE n w).length = n := by
  induction n generalizing w with
  | zero => rfl
  | succ n ih => rw [toBytesLE, List.length_cons, ih]

/-- The byte of a BAR2 write at `ea` that byte j of the line at `ea` takes (R386). -/
def coveredByte (ea : Nat) (bs : List (Option Byte)) (j : Nat) : Option Byte := if ea + j < ea then none else nth none bs (ea + j - ea)

theorem coveredByte_map_some (ea : Nat) {bs : List Byte} {j : Nat} (h : j < bs.length) :
    coveredByte ea (bs.map some) j = some (bs.getD j 0#8) := by
  rw [coveredByte, if_neg (by omega), Nat.add_sub_cancel_left]
  simp [nth, h]

section
variable {s : State} {ea sid o : Nat} (hs : storeEa s ea sid o)
include hs

/-- No access of a store line waits. -/
theorem bankHeld_store (h : Nat) (t : Option Nat) (w : Bool) : bankHeld s h t w ea 1 = false := by
  obtain ⟨halign, _, hdecode, _⟩ := hs
  have hfirst : ea / 32 * 32 + 32 * 0 = ea := by omega
  rw [bankHeld]
  refine List.any_eq_false.2 fun i hi => ?_
  rw [show i = 0 by simpa using hi, hfirst, hdecode]
  exact Bool.false_ne_true

theorem linesMapped_store : linesMapped s ea 1 = true := by
  obtain ⟨_, _, hdecode, _⟩ := hs
  rw [linesMapped]
  refine List.all_eq_true.2 fun i hi => ?_
  rw [show i = 0 by simpa using hi, Nat.mul_zero, Nat.add_zero, hdecode]

/-- A write of 32 bytes at a line's address covers the line. -/
theorem bar2Line_whole (h t : Nat) {bs : List Byte} (hbs : bs.length = 32) (poisoned : Bool) (conds : List Cond) :
    bar2Line s h t ea (bs.map some) poisoned 0 conds = ((⟨BitVec.ofNat 256 (ofBytesLE bs), poisoned⟩, 2 ^ 32 - 1), s) := by
  obtain ⟨halign, _, hdecode, _⟩ := hs
  have hfirst : ea / 32 * 32 + 32 * 0 = ea := by omega
  have hcovered : ∀ j ∈ List.range 32, coveredByte ea (bs.map some) j = some (bs.getD j 0#8) := fun j hj => by
    rw [List.mem_range] at hj
    exact coveredByte_map_some ea (by omega)
  have hmask : (List.range 32).foldl (fun m j => if (coveredByte ea (bs.map some) j).isSome then m + 2 ^ j else m) 0 = 2 ^ 32 - 1 := by
    rw [List.foldl_ext _ (fun m j => m + 2 ^ j) 0 fun m j hj => by rw [hcovered j hj]; rfl]
    decide
  have hdata : (List.range 32).foldl (fun m j => m + ((coveredByte ea (bs.map some) j).getD 0#8).toNat * 256 ^ j) 0 = ofBytesLE bs := by
    rw [List.foldl_ext _ (fun m j => m + (bs.getD j 0#8).toNat * 256 ^ j) 0 fun m j hj => by rw [hcovered j hj]; rfl,
      foldBytes bs 32 (by omega), List.take_of_length_le (by omega)]
  unfold coveredByte at hmask hdata
  unfold bar2Line
  simp only [hfirst, hdecode, hmask, hdata]
  rfl

/-- A BAR2 write of one whole store line. -/
theorem bar2Access_write (rq : Req) (t : Nat) {bs : List Byte} (hbs : bs.length = 32) (poisoned : Bool) (conds : List Cond) :
    bar2Access s rq ea t (.write (bs.map some) poisoned) conds =
      (chunkStore (poisonNoted s rq.port.val poisoned) (some t) (pHost rq.port.val 0) rq.port.val ea
        [(⟨BitVec.ofNat 256 (ofBytesLE bs), poisoned⟩, 2 ^ 32 - 1)]).2 := by
  have hnoted := storeEa_poisonNoted hs rq.port.val poisoned
  have hheld := bankHeld_store hs rq.port.val (some t) true
  have hmapped := linesMapped_store hnoted
  have hline := bar2Line_whole hnoted rq.port.val t hbs poisoned conds
  obtain ⟨halign, hlt, _, _⟩ := hs
  have hmod : ea % 2 ^ 48 = ea := Nat.mod_eq_of_lt hlt
  have hfirst : ea / 32 * 32 = ea := by omega
  have hlen : bar2Len (.write (bs.map some) poisoned) = 32 := by rw [bar2Len, List.length_map, hbs]
  have hk : (0 + 32 + 31) / 32 = 1 := rfl
  unfold bar2Access
  simp only [hmod, hfirst, hlen, halign, hk, hheld]
  cases poisoned with
  | false =>
    rw [poisonNoted, if_neg Bool.false_ne_true] at hmapped hline ⊢
    simp [hmapped, hline, eaStore_line]
  | true =>
    rw [poisonNoted, if_pos rfl] at hmapped hline ⊢
    simp [hmapped, hline, eaStore_line]

/-- A BAR2 read of one whole store line. -/
theorem bar2Access_read (rq : Req) (t : Nat) {l : Line} {u : State}
    (hread : chunkLines s (pHost rq.port.val 0) rq.port.val t ea 1 [] = ([l], u)) :
    bar2Access s rq ea t (.read 32) [] = u.emit (.bar2 rq (toBytesLE 32 l.data.toNat) l.bad) := by
  have hheld := bankHeld_store hs rq.port.val (some t) false
  have hmapped := linesMapped_store hs
  obtain ⟨halign, hlt, _, _⟩ := hs
  have hmod : ea % 2 ^ 48 = ea := Nat.mod_eq_of_lt hlt
  have hfirst : ea / 32 * 32 = ea := by omega
  have hk : (0 + 32 + 31) / 32 = 1 := rfl
  have hbytes : (toBytesLE 32 l.data.toNat).take 32 = toBytesLE 32 l.data.toNat :=
    List.take_of_length_le (toBytesLE_length 32 _).le
  unfold bar2Access
  simp only [hmod, hfirst, bar2Len, halign, hk, hheld]
  simp [hmapped, eaLines_line, hread, hbytes]

end

/-! ### Refusals (R48) -/

section
variable (s : State) (p space off : Nat)

/-- The count and the event of a denial, before DENIED_LAST. -/
theorem reg_deny_other {r : Nat} (h : r ≠ pGlobal + 0x6C) :
    (deny s p space off).reg r = ((s.bump48 pGlobal (pGlobal + 0x70) 1).raise pGlobal 0).reg r := by
  unfold deny
  dsimp only
  split
  · rfl
  · exact State.reg_setReg_other _ _ h

/-- A denial counts in HOST_VIEW_DENIED_LO. -/
theorem reg_deny_count : (deny s p space off).reg (pGlobal + 0x70) = s.reg (pGlobal + 0x70) + 1#32 := by
  rw [reg_deny_other _ _ _ _ (by omega), State.reg_raise_other _ _ _ (by omega) (by omega), State.reg_bump48_lo _ _ _ _ (by omega) (by omega)]

/-- A denial raises the event HOST_VIEW_DENIED. -/
theorem bget_deny_event : (deny s p space off).bget (pGlobal + 0x18) 0 = true := by
  rw [State.bget, reg_deny_other _ _ _ _ (by omega)]
  exact State.bget_raise _ _ (by omega)

/-- DENIED_LAST records a denial while it is not VALID. -/
theorem reg_deny_last (h : s.bget (pGlobal + 0x6C) 29 = false) :
    (deny s p space off).reg (pGlobal + 0x6C) = BitVec.ofNat 32 (p % 4 * 2 ^ 30 + 2 ^ 29 + space * 2 ^ 28 + off % 2 ^ 26) := by
  have hvalid : ((s.bump48 pGlobal (pGlobal + 0x70) 1).raise pGlobal 0).bget (pGlobal + 0x6C) 29 = false := by
    rw [State.bget, State.reg_raise_other _ _ _ (by omega) (by omega),
      State.reg_bump48_other _ _ _ _ (by omega) (by omega) (by omega) (by omega)]
    exact h
  unfold deny
  dsimp only
  rw [if_neg (by rw [hvalid]; exact Bool.false_ne_true), State.reg_setReg_same]

end

/-- The word recorded of a BAR2 denial names the port and SPACE 1. -/
theorem deniedWord_bar2 (port : Fin 4) (off : Nat) :
    let w := BitVec.ofNat 32 (port.val % 4 * 2 ^ 30 + 2 ^ 29 + 1 * 2 ^ 28 + off % 2 ^ 26)
    getF w 31 30 = port.val ∧ getB w 28 = true := by
  intro w
  have hport := port.isLt
  have hw : w.toNat = port.val * 2 ^ 30 + 2 ^ 29 + 2 ^ 28 + off % 2 ^ 26 := by
    rw [BitVec.toNat_ofNat]
    omega
  constructor
  · rw [getF, fld, hw, Nat.shiftRight_eq_div_pow]
    omega
  · rw [getB, hw, Nat.testBit_eq_decide_div_mod_eq]
    exact decide_eq_true (by omega)

/-! ### Grants (R48) -/

/-- The request of function 1 lies inside an enabled and valid grant window that allows its kind. -/
def inGrant (s : State) (port : Fin 4) (off kind len : Nat) : Prop :=
  off / 2 ^ 34 < 4 ∧ grantOn s port.val (off / 2 ^ 34) = true ∧ off % 2 ^ 34 + len ≤ grantPages s port.val (off / 2 ^ 34) * 4096 ∧
  s.bget (pHost port.val 0 + 0x10C + off / 2 ^ 34 * 0x10) kind = true

section
variable {s : State} {port : Fin 4} {off : Nat}

theorem inGrant_iff {kind len : Nat} :
    (decide (off / 2 ^ 34 < 4) && grantOn s port.val (off / 2 ^ 34) &&
      decide (off % 2 ^ 34 + len ≤ grantPages s port.val (off / 2 ^ 34) * 4096) &&
      s.bget (pHost port.val 0 + 0x10C + off / 2 ^ 34 * 0x10) kind) = true ↔ inGrant s port off kind len := by
  simp only [inGrant, Bool.and_eq_true, decide_eq_true_eq, and_assoc]

variable (t : Nat) (conds : List Cond)

theorem bar2Fn1_write {bs : List (Option Byte)} (poisoned : Bool) (h : inGrant s port off 2 (bar2Len (.write bs poisoned))) :
    bar2Fn1 s port off t (.write bs poisoned) conds =
      bar2Access s ⟨port, true⟩ (grantBase s port.val (off / 2 ^ 34) + off % 2 ^ 34) t (.write bs poisoned) conds := by
  unfold bar2Fn1
  exact if_pos (inGrant_iff.2 h)

theorem bar2Fn1_read {len : Nat} (h : inGrant s port off 1 (bar2Len (.read len))) :
    bar2Fn1 s port off t (.read len) conds =
      bar2Access s ⟨port, true⟩ (grantBase s port.val (off / 2 ^ 34) + off % 2 ^ 34) t (.read len) conds := by
  unfold bar2Fn1
  exact if_pos (inGrant_iff.2 h)

theorem bar2Fn1_write_refused {bs : List (Option Byte)} (h : ¬ inGrant s port off 2 (bar2Len (.write bs false))) :
    bar2Fn1 s port off t (.write bs false) conds = deny s port.val 1 (off / 4096) := by
  unfold bar2Fn1
  exact (if_neg (mt inGrant_iff.1 h)).trans (if_neg Bool.false_ne_true)

theorem bar2Fn1_read_refused {len : Nat} (h : ¬ inGrant s port off 1 (bar2Len (.read len))) :
    bar2Fn1 s port off t (.read len) conds = (deny s port.val 1 (off / 4096)).emit (.bar2 ⟨port, true⟩ (List.replicate len 0#8) false) := by
  unfold bar2Fn1
  exact if_neg (mt inGrant_iff.1 h)

theorem not_inGrant {kind len : Nat} (h : grantOn s port.val (off / 2 ^ 34) = false ∨
    s.bget (pHost port.val 0 + 0x10C + off / 2 ^ 34 * 0x10) kind = false ∨ grantPages s port.val (off / 2 ^ 34) * 4096 < off % 2 ^ 34 + len) :
    ¬ inGrant s port off kind len := by
  rintro ⟨_, hon, hin, hkind⟩
  rcases h with h | h | h
  · rw [hon] at h
    exact Bool.noConfusion h
  · rw [hkind] at h
    exact Bool.noConfusion h
  · omega

end

/-! ### What an access inside a grant leaves -/

/-- The answer goes out after what else changed. -/
theorem emit_frame {s u : State} (h : u = { s with regs := u.regs, spindles := u.spindles }) (x : Output) :
    u.emit x = { s with regs := (u.emit x).regs, spindles := (u.emit x).spindles, out := (u.emit x).out } :=
  congrArg (fun v : State => { v with out := u.out ++ [x] }) h

theorem onlyRegs.emit_frame {s u : State} (h : onlyRegs s u) (x : Output) :
    u.emit x = { s with regs := (u.emit x).regs, out := (u.emit x).out } :=
  congrArg (fun v : State => { v with out := u.out ++ [x] }) h

/-- A line of 32 bytes stored after a poisoned write was counted. -/
theorem storeLineWritten_lineWritten (s : State) (m m' : Msg) (h sid o : Nat) {bs : List Byte} (hbs : bs.length = 32) (poisoned : Bool) :
    storeLineWritten s (lineWritten (poisonNoted s h poisoned) m m' sid o ⟨BitVec.ofNat 256 (ofBytesLE bs), poisoned⟩) h sid o bs poisoned := by
  obtain ⟨hregs, hkeep⟩ := poisonNoted_frame s h poisoned
  have hcount : poisoned = true → (poisonNoted s h poisoned).reg (pHost h 0 + 0x68) = s.reg (pHost h 0 + 0x68) + 1#32 := by
    rintro rfl
    exact reg_poisonNoted s h
  generalize poisonNoted s h poisoned = u at *
  have hdoes := lineWritten_does u m m' sid o ⟨BitVec.ofNat 256 (ofBytesLE bs), poisoned⟩
  generalize lineWritten u m m' sid o ⟨BitVec.ofNat 256 (ofBytesLE bs), poisoned⟩ = t at *
  obtain ⟨hbytes, hmark, hmarks, ⟨hrouted, hspins⟩, hep, hframe⟩ := hdoes
  have hdata : (BitVec.ofNat 256 (ofBytesLE bs)).toNat = ofBytesLE bs := by
    have hlt := ofBytesLE_lt bs
    rw [hbs] at hlt
    rw [BitVec.toNat_ofNat, Nat.mod_eq_of_lt (by rw [show (2 : Nat) ^ 256 = 256 ^ 32 by norm_num]; exact hlt)]
  have hspin : ∀ j, u.spin j = s.spin j := fun j => by rw [State.spin, State.spin, hregs.spindles]
  refine ⟨fun j hj => ?_, hmark, fun c hc => ?_, fun l hl => ?_, ⟨fun r hr => ?_, fun j => ?_⟩, fun hp => ?_, fun j => ?_, ?_⟩
  · rw [hbytes, if_pos (by omega), hdata, Nat.add_sub_cancel_left, byteOf_ofBytesLE bs j (by omega)]
    rfl
  · rw [hbytes, if_neg (by omega), readByte_congr hregs.mem]
  · rw [hmarks l hl, markOf_congr hregs.marks]
  · rw [hrouted r fun hx => hr (hx.elim False.elim .inr), hkeep r fun hx => hr (.inl hx)]
  · rw [← hspin]
    exact hspins j
  · rw [hrouted _ fun hx => hx.elim False.elim fun ⟨f, hf⟩ => by unfold pHost pWin fieldBase at hf; omega, hcount hp]
  · rw [hep, hspin]
  · rw [onlyRegs] at hregs
    rw [hregs] at hframe
    exact hframe

/-- Settles O18: inside the grant by `chunkStore_line` and `chunkLines_line`, outside it by what a denial leaves. -/
theorem bar2Function1ObeysGrants : Obligations.Bar2Function1ObeysGrants := by
  intro s port off cyc conds
  refine ⟨fun bs poisoned sid o hbs hn hon hkind hin hs hw => ⟨_, rfl, ?_⟩, fun sid o hn hon hkind hin hs hw hclean => ⟨_, rfl, ?_⟩,
    fun bs h => ⟨_, rfl, ?_⟩, fun n h => ⟨_, rfl, ?_⟩⟩
  · have hgranted : inGrant s port off 2 (bs.map some).length := ⟨hn, hon, by rw [List.length_map, hbs]; exact hin, hkind⟩
    obtain ⟨m, m', hstore⟩ := chunkStore_line (storeEa_poisonNoted hs port.val poisoned) (routesWhole_poisonNoted hw port.val poisoned)
      (pHost port.val 0) port.val (some cyc) ⟨BitVec.ofNat 256 (ofBytesLE bs), poisoned⟩ (2 ^ 32 - 1)
    rw [bar2Fn1_write _ _ _ hgranted, bar2Access_write hs ⟨port, true⟩ _ hbs, hstore]
    exact storeLineWritten_lineWritten s m m' port.val sid o hbs poisoned
  · obtain ⟨m, m', hread⟩ := chunkLines_line hs hw (pHost port.val 0) port.val cyc hclean
    rw [bar2Fn1_read _ _ ⟨hn, hon, hin, hkind⟩, bar2Access_read hs ⟨port, true⟩ cyc hread, hclean]
    obtain ⟨hrouted, hep, hframe⟩ := lineRead_does s m m' sid o
    generalize lineRead s m m' sid o = u at *
    refine ⟨?_, hrouted, hep, emit_frame hframe _⟩
    rw [State.emit, hframe]
  · rw [bar2Fn1_write_refused _ _ (not_inGrant h)]
    exact ⟨reg_deny_count .., deny_frame ..⟩
  · rw [bar2Fn1_read_refused _ _ (not_inGrant h)]
    obtain ⟨hregs, hkeep⟩ := deny_frame s port.val 1 (off / 4096)
    have hlast := reg_deny_last s port.val 1 (off / 4096)
    have hcount := reg_deny_count s port.val 1 (off / 4096)
    have hevent := bget_deny_event s port.val 1 (off / 4096)
    generalize deny s port.val 1 (off / 4096) = u at *
    refine ⟨congrArg (· ++ _) hregs.out, hcount, hevent, fun hvalid => ?_, hkeep, hregs.emit_frame _⟩
    obtain ⟨hport, hspace⟩ := deniedWord_bar2 port (off / 4096)
    rw [← hlast hvalid] at hport hspace
    exact ⟨hport, hspace⟩

end Sys2Proof.Machine
end

