-- ==== Sys2Proof/Proofs/SpindleRules.lean ====
section
/-! PROOF. Rules for the steps of one spindle: its record stored twice, words put together from fields, and what goes out on whole routes. -/
namespace Sys2Proof.SMap
variable {α : Type}

theorem erase_erase (m : SMap α) (k : Nat) : erase (erase m k) k = erase m k := by
  unfold erase
  rw [List.filter_filter]
  simp

theorem erase_ins (m : SMap α) (k : Nat) (v : α) : erase (ins k v m) k = erase m k := by
  induction m with
  | nil => simp [ins, erase]
  | cons e m ih =>
    unfold ins
    split
    · simp [erase]
    · unfold erase at ih ⊢
      rw [List.filter_cons, List.filter_cons, ih]

/-- The second of two stores at one key counts. -/
theorem set_set [DecidableEq α] (d : Nat → α) (m : SMap α) (k : Nat) (v w : α) : set d (set d m k v) k w = set d m k w := by
  have herase : erase (set d m k v) k = erase m k := by
    unfold set
    split
    · exact erase_erase m k
    · rw [erase_ins, erase_erase]
  rw [set, herase, set]

end Sys2Proof.SMap

namespace Sys2Proof.Machine

/-! ### One spindle stored more than once -/

namespace State
variable (s : State)

theorem setSpin_setSpin (k : Nat) (p q : Spindle) : (s.setSpin k p).setSpin k q = s.setSpin k q := by
  unfold setSpin
  simp only [SMap.set_set]

theorem modSpin_modSpin (k : Nat) (f g : Spindle → Spindle) : (s.modSpin k f).modSpin k g = s.modSpin k (fun p => g (f p)) := by
  simp only [modSpin, spin_setSpin_same, setSpin_setSpin]

/-- An event leaves every spindle. -/
theorem spin_raise (pg b j : Nat) : (s.raise pg b).spin j = s.spin j := by
  rw [spin, raise_spindles]
  rfl

end State

/-! ### Fields of a word that is put together -/

theorem getF_ofNat (n : Nat) {hi lo : Nat} (h : hi < 32) : getF (BitVec.ofNat 32 n) hi lo = n / 2 ^ lo % 2 ^ (hi + 1 - lo) := by
  apply Nat.eq_of_testBit_eq
  intro i
  rw [testBit_getF, Nat.testBit_mod_two_pow, ← Nat.shiftRight_eq_div_pow, Nat.testBit_shiftRight, BitVec.getLsbD_ofNat]
  by_cases hi' : i < hi + 1 - lo
  · simp [hi', show lo + i < 32 by omega]
  · simp [hi']

theorem getB_ofNat (n : Nat) {i : Nat} (h : i < 32) : getB (BitVec.ofNat 32 n) i = decide (n / 2 ^ i % 2 = 1) := by
  rw [getB_eq, BitVec.getLsbD_ofNat, Nat.testBit_eq_decide_div_mod_eq]
  simp [h]

/-! ### Messages on whole routes (R228, R437) -/

/-- A message enters the mesh where no route is cut. -/
theorem send_whole {s : State} (h : routesWhole s) (m : Msg) : send s m = s.enqueue m := by
  rw [send, cutOn_whole h]

/-- A message whose route is not cut enters the mesh. -/
theorem send_uncut {s : State} {m : Msg} (h : cutField s m = none) : send s m = s.enqueue m := by
  have hcut : cutOn s m = none := Option.map_eq_none_iff.1 h
  rw [send, hcut]

/-- The response to a read request (R184). -/
def responseTo (m : Msg) (src : SID) (lines : List Line) (d : Dest) : Msg :=
  { dst := d, vc := 2, kind := m.kind, req := false, len := m.len, dest := m.dest, src := src, tag := m.tag, ea := m.ea, seq := m.seq,
    payload := lines }

/-- On whole routes a response enters the mesh. -/
theorem respond_whole {s : State} (h : routesWhole s) {m : Msg} {d : Dest} (hd : respDest m.dest = some d) (src : SID) (lines : List Line) :
    respond s m src lines = s.enqueue (responseTo m src lines d) := by
  unfold respond
  simp only [hd]
  exact send_whole h _

/-- A write from a spindle is acknowledged at its router, by no message (R271). -/
theorem sendAck_spindle (s : State) {m : Msg} (h : m.src.toNat % 2048 ≠ 0x7FF) (src : SID) (stale : Bool) : sendAck s m src stale = s := by
  rw [sendAck, if_neg h]

/-! ### Uncorrectable errors of a page (R37) -/

/-- A count below its top counts one more. -/
theorem fget_errUncorr (s : State) (pg : Nat) (h : s.fget (pg + 0x2C) 30 0 < 2 ^ 31 - 1) :
    (s.errUncorr pg).fget (pg + 0x2C) 30 0 = s.fget (pg + 0x2C) 30 0 + 1 := by
  have hlt : s.fget (pg + 0x2C) 30 0 + 1 < 2 ^ 31 := by omega
  rw [State.errUncorr, State.fget_raise_other _ _ _ _ _ (by omega) (by omega), State.bump31,
    if_neg (by omega), State.fget, State.reg_setReg_same, getF_putF_same _ _ (by omega)]
  exact Nat.mod_eq_of_lt hlt

theorem bget_errUncorr (s : State) (pg : Nat) : (s.errUncorr pg).bget (pg + 0x18) 29 = true := State.bget_raise _ _ (by omega)

theorem reg_errUncorr_other (s : State) (pg : Nat) {o : Nat} (h18 : o ≠ pg + 0x18) (h1C : o ≠ pg + 0x1C) (h2C : o ≠ pg + 0x2C) :
    (s.errUncorr pg).reg o = s.reg o := by
  rw [State.errUncorr, State.reg_raise_other _ _ _ h18 h1C, State.reg_bump31_other _ _ _ _ h2C h18 h1C]

end Sys2Proof.Machine
end

