-- ==== Sys2Proof/Proofs/StoreFromOutside.lean ====
section
/-! PROOF. Store accesses from outside: lines written, lines read, and what both meet while the compute domain is off. -/
namespace Sys2Proof.Machine

/-! ### The lines that a message names (R62) -/

/-- The payload of a write falls on the named lines in order. -/
theorem namedLines_zip_payload {m : Msg} (h : m.payload.length = m.len + 1) :
    (namedLines m).zip m.payload = tab (m.len + 1) (fun j => ((m.ea.toNat % 65536 / 32 + j) % 2048, nth {} m.payload j)) := by
  refine List.ext_getElem (by simp [namedLines, h]) fun i h1 h2 => ?_
  have hi : i < m.payload.length := by
    rw [tab_length] at h2
    omega
  simp [namedLines, tab, nth, hi]

theorem storeAddr_aligned (sid L : Nat) : storeAddr sid L % 32 = 0 := by unfold storeAddr; omega

/-- Lines of a store less than 2,048 apart lie apart. -/
theorem storeAddr_ne (sid L : Nat) {i j : Nat} (h : i < j) (hj : j < 2048) : storeAddr sid (L + i) ≠ storeAddr sid (L + j) := by
  unfold storeAddr
  omega

/-- The state after `n` lines from line L on of a spindle's store were written. -/
def linesWritten (s : State) (sid L n : Nat) (f : Nat → Line) : State :=
  iter n (fun j u => writeLine u (storeAddr sid ((L + j) % 2048)) (f j)) s

theorem linesWritten_succ (s : State) (sid L n : Nat) (f : Nat → Line) :
    linesWritten s sid L (n + 1) f = writeLine (linesWritten s sid L n f) (storeAddr sid (L + n)) (f n) := by
  rw [linesWritten, iter_succ, storeAddr_mod]
  rfl

/-- A write stores its payload in the named lines. -/
theorem forEach_namedLines (s : State) (sid : Nat) {m : Msg} (h : m.payload.length = m.len + 1) :
    forEach ((namedLines m).zip m.payload) (fun Ll s => writeLine s (storeAddr sid Ll.1) Ll.2) s
      = linesWritten s sid (m.ea.toNat % 65536 / 32) (m.len + 1) (nth {} m.payload) := by
  rw [namedLines_zip_payload h, forEach, tab, List.foldl_map]
  rfl

/-- Writing lines changes bytes and marks only. -/
theorem linesWritten_frame (s : State) (sid L n : Nat) (f : Nat → Line) :
    linesWritten s sid L n f = { s with mem := (linesWritten s sid L n f).mem, marks := (linesWritten s sid L n f).marks } := by
  refine iter_inv (fun t : State => t = { s with mem := t.mem, marks := t.marks }) n _ (fun j u hu => ?_) s rfl
  have hwritten := writeLine_frame u (storeAddr sid ((L + j) % 2048)) (f j)
  generalize writeLine u (storeAddr sid ((L + j) % 2048)) (f j) = v at *
  exact hwritten.trans (congrArg (fun w : State => { w with mem := v.mem, marks := v.marks }) hu)

theorem mesh_linesWritten (s : State) (sid L n : Nat) (f : Nat → Line) : (linesWritten s sid L n f).mesh = s.mesh := by
  rw [linesWritten_frame]

theorem routed_linesWritten (s : State) (sid L n : Nat) (f : Nat → Line) : routed (fun _ => False) s (linesWritten s sid L n f) :=
  routed_of_eq (by rw [linesWritten_frame]) (by rw [linesWritten_frame])

/-- Each of the lines written reads what it was given. -/
theorem readLine_linesWritten (s : State) (sid L : Nat) (f : Nat → Line) {n : Nat} (hn : n ≤ 2048) {j : Nat} (hj : j < n) :
    readLine (linesWritten s sid L n f) (storeAddr sid (L + j)) = f j := by
  induction n with
  | zero => omega
  | succ n ih =>
    rw [linesWritten_succ]
    rcases Nat.lt_or_eq_of_le (Nat.lt_succ_iff.1 hj) with hlt | rfl
    · rw [readLine_writeLine_other _ _ _ (storeAddr_aligned ..) (storeAddr_aligned ..) (storeAddr_ne sid L hlt (by omega))]
      exact ih (by omega) hlt
    · exact readLine_writeLine_same _ _ _

/-- A byte in none of the lines written reads as before. -/
theorem readByte_linesWritten (s : State) (sid L n : Nat) (f : Nat → Line) {a : Nat}
    (h : ∀ j, j < n → a < storeAddr sid (L + j) ∨ storeAddr sid (L + j) + 32 ≤ a) :
    readByte (linesWritten s sid L n f) a = readByte s a := by
  induction n with
  | zero => rfl
  | succ n ih =>
    rw [linesWritten_succ, readByte_writeLine_other _ _ _ (h n (by omega))]
    exact ih fun j hj => h j (by omega)

/-- One line more is read. -/
def lineAdded (sid : Nat) (conds : List Cond) (st : List Line × State) (iL : Nat × Nat) : List Line × State :=
  (st.1 ++ [(storeRead st.2 sid iL.2 (nth .clean conds iL.1)).1], (storeRead st.2 sid iL.2 (nth .clean conds iL.1)).2)

/-- Reads of lines that decode cleanly and carry no mark return the lines and change nothing. -/
theorem foldl_lineAdded_clean (s : State) (sid : Nat) (l : List (Nat × Nat)) (h : ∀ iL ∈ l, (readLine s (storeAddr sid iL.2)).bad = false)
    (acc : List Line) :
    l.foldl (lineAdded sid []) (acc, s) = (acc ++ (l.map (·.2)).map (fun L => readLine s (storeAddr sid L)), s) := by
  induction l generalizing acc with
  | nil => simp
  | cons iL l ih =>
    have hread : storeRead s sid iL.2 (nth .clean [] iL.1) = (readLine s (storeAddr sid iL.2), s) := storeRead_clean s sid _ (h iL (by simp))
    rw [List.foldl_cons, lineAdded, hread, ih (fun x hx => h x (by simp [hx]))]
    simp

/-- What a read returns of lines that carry no mark. -/
theorem namedLines_read (s : State) (sid : Nat) (m : Msg)
    (h : ∀ j, j ≤ m.len → (readLine s (storeAddr sid (m.ea.toNat % 65536 / 32 + j))).bad = false) :
    ((List.range (namedLines m).length).zip (namedLines m)).foldl (lineAdded sid []) ([], s)
      = (tab (m.len + 1) (fun j => readLine s (storeAddr sid (m.ea.toNat % 65536 / 32 + j))), s) := by
  have hlines : (namedLines m).map (fun L => readLine s (storeAddr sid L))
      = tab (m.len + 1) (fun j => readLine s (storeAddr sid (m.ea.toNat % 65536 / 32 + j))) := by
    simp [namedLines, tab, storeAddr_mod]
  rw [foldl_lineAdded_clean, List.map_snd_zip (by simp), hlines, List.nil_append]
  intro iL hiL
  obtain ⟨j, hj, hL⟩ := List.mem_map.1 (List.of_mem_zip hiL).2
  rw [← hL, storeAddr_mod]
  exact h j (Nat.lt_succ_iff.1 (List.mem_range.1 hj))

/-! ### What the EP leaves of the other spindles (R56, R87) -/

/-- Lines that the EP has to pass change no register. -/
theorem routed_epPass (s : State) (sid : Nat) (banks : List (BitVec 8)) : routed (fun _ => False) s (s.modSpin sid (fun p => p.epPass banks)) := by
  refine ⟨fun _ _ => rfl, fun j => ?_⟩
  by_cases hj : j = sid
  · rw [hj, State.spin_modSpin_same]
    exact ⟨rfl, fun _ _ _ _ => rfl⟩
  · rw [State.spin_modSpin_other _ _ hj]
    exact ⟨rfl, fun _ _ _ _ => rfl⟩

/-- Counted routes leave the spindles' registers outside page 6. -/
theorem routed.onlyCounted {p : Nat → Prop} {s t : State} (h : routed p s t) (sid : Nat) : Machine.onlyCounted s t sid := by
  obtain ⟨_, hspin⟩ := h
  intro j
  obtain ⟨heq, hwreg⟩ := hspin j
  refine ⟨fun g o ho hg _ => hwreg g o ho hg, fun r => ?_⟩
  rw [heq]
  rfl

/-! ### A message taken from the mesh (R87) -/

/-- The state after a message left the mesh and its header was counted on its route; `out` says that it also left its last router. -/
def messageTaken (s : State) (pre : List Msg) (m : Msg) (post : List Msg) (out : Bool) : State :=
  countRoute { s with mesh := pre ++ post } m out

section
variable (s : State) (pre : List Msg) (m : Msg) (post : List Msg) (out : Bool)

theorem messageTaken_frame : messageTaken s pre m post out =
    { s with mesh := pre ++ post, regs := (messageTaken s pre m post out).regs, spindles := (messageTaken s pre m post out).spindles } := by
  obtain ⟨_, hframe, _⟩ := countRoute_routed { s with mesh := pre ++ post } m out
  exact hframe

theorem routed_messageTaken : routed (fun _ => False) s (messageTaken s pre m post out) := by
  obtain ⟨hrouted, _⟩ := countRoute_routed { s with mesh := pre ++ post } m out
  exact (routed_of_eq rfl rfl).trans hrouted

theorem mesh_messageTaken : (messageTaken s pre m post out).mesh = pre ++ post := by rw [messageTaken_frame]

theorem readByte_messageTaken (a : Nat) : readByte (messageTaken s pre m post out) a = readByte s a :=
  readByte_congr (by rw [messageTaken_frame]) a

theorem markOf_messageTaken (l : Nat) : markOf (messageTaken s pre m post out) l = markOf s l :=
  markOf_congr (by rw [messageTaken_frame]) l

theorem readLine_messageTaken (a : Nat) : readLine (messageTaken s pre m post out) a = readLine s a :=
  readLine_congr (by rw [messageTaken_frame]) (by rw [messageTaken_frame]) a

theorem routesWhole_messageTaken {s : State} (h : routesWhole s) : routesWhole (messageTaken s pre m post out) :=
  routesWhole_congr (by rw [messageTaken_frame]) (by rw [messageTaken_frame]) h

end

/-! ### The three commands -/

section
variable {s : State} {sid vc : Nat} {src : SID} {pre post : List Msg} {m : Msg}

/-- EP_STORE_WRITE of a write from a spindle, to a spindle that works. -/
theorem epWrite_from_spindle (htake : takeAt s sid vc src (fun m => m.kind = 2 && !m.req && !m.isAck) = some (pre, m, post))
    (hon : spOff s sid = false) (hlen : m.payload.length = m.len + 1) (hsrc : m.src.toNat % 2048 ≠ 0x7FF) :
    epWrite s sid vc src =
      (linesWritten (messageTaken s pre m post true) sid (m.ea.toNat % 65536 / 32) (m.len + 1) (nth {} m.payload)).modSpin sid
        (fun p => p.epPass (0#8 :: ((namedLines m).zip m.payload).map (fun Ll => bankOf Ll.1))) := by
  unfold epWrite
  simp only [htake, hon, forEach_namedLines _ _ hlen, sendAck_spindle _ hsrc]
  rfl

/-- EP_STORE_READ of lines without findings, on whole routes, from a spindle that works. -/
theorem epRead_clean {d : Dest} (htake : takeAt s sid vc src (fun m => m.req) = some (pre, m, post)) (hon : spOff s sid = false)
    (hclean : ∀ j, j ≤ m.len → (readLine s (storeAddr sid (m.ea.toNat % 65536 / 32 + j))).bad = false)
    (hd : respDest m.dest = some d) (hw : routesWhole s) :
    epRead s sid vc src [] = ((messageTaken s pre m post true).modSpin sid (fun p => p.epPass (0#8 :: (namedLines m).map bankOf))).enqueue
      (responseTo m (BitVec.ofNat 21 sid) (tab (m.len + 1) (fun j => readLine s (storeAddr sid (m.ea.toNat % 65536 / 32 + j)))) d) := by
  have hreads := namedLines_read (messageTaken s pre m post true) sid m (by simpa only [readLine_messageTaken] using hclean)
  simp only [readLine_messageTaken] at hreads
  have hread : epRead s sid vc src [] =
      (let r := ((List.range (namedLines m).length).zip (namedLines m)).foldl (lineAdded sid []) ([], messageTaken s pre m post true)
       respond (r.2.modSpin sid (fun p => p.epPass (0#8 :: (namedLines m).map bankOf))) m (BitVec.ofNat 21 sid) r.1) := by
    unfold epRead
    simp only [htake, hon]
    rfl
  rw [hread, hreads]
  have hwhole := routesWhole_messageTaken pre m post true hw
  exact respond_whole (routesWhole_congr (State.modSpin_links ..) (State.modSpin_maps ..) hwhole) hd _ _

/-- An access that a spindle without its compute domain cannot serve: the message is taken, and counts as one uncorrectable error of the
field (R63). -/
def accessLost (s : State) (sid : Nat) (pre : List Msg) (m : Msg) (post : List Msg) : State :=
  (messageTaken s pre m post false).errUncorr (fcPage s sid)

theorem accessLost_does (s : State) (sid : Nat) (pre : List Msg) (m : Msg) (post : List Msg) :
    (accessLost s sid pre m post).bget (fcPage s sid + 0x18) 29 = true ∧
    (s.fget (fcPage s sid + 0x2C) 30 0 < 2 ^ 31 - 1 →
      (accessLost s sid pre m post).fget (fcPage s sid + 0x2C) 30 0 = s.fget (fcPage s sid + 0x2C) 30 0 + 1) ∧
    (accessLost s sid pre m post).mesh = pre ++ post ∧ sameMemory s (accessLost s sid pre m post) := by
  have hcount : (messageTaken s pre m post false).fget (fcPage s sid + 0x2C) 30 0 = s.fget (fcPage s sid + 0x2C) 30 0 := by
    obtain ⟨hregs, _⟩ := routed_messageTaken s pre m post false
    rw [State.fget, hregs]
    · rfl
    · rintro (hf | ⟨f, hf⟩)
      · exact hf
      · unfold fcPage pField pWin fieldBase at hf
        omega
  have hregs := State.onlyRegs_errUncorr (messageTaken s pre m post false) (fcPage s sid)
  refine ⟨bget_errUncorr _ _, fun hlt => ?_, hregs.mesh.trans (mesh_messageTaken ..), fun a => ?_, fun l => ?_⟩
  · rw [accessLost, fget_errUncorr _ _ (by rw [hcount]; exact hlt), hcount]
  · exact (readByte_congr hregs.mem a).trans (readByte_messageTaken ..)
  · exact (markOf_congr hregs.marks l).trans (markOf_messageTaken ..)

/-- COMPUTE_OFF_STORE_ACCESS of a read, on whole routes. -/
theorem offAccess_read {d : Dest} (htake : takeAt s sid vc src (fun m => (m.req || m.kind = 2) && !m.isAck) = some (pre, m, post))
    (hoff : spOff s sid = true) (hreq : m.req = true) (hd : respDest m.dest = some d) (hw : routesWhole s) :
    offAccess s sid vc src = (accessLost s sid pre m post).enqueue (responseTo m (BitVec.ofNat 21 sid)
      ((namedLines m).map (fun L => goneLine (accessLost s sid pre m post) (storeAddr sid L))) d) := by
  unfold offAccess
  simp only [htake, hoff, hreq]
  have hwhole := routesWhole_messageTaken pre m post false hw
  exact respond_whole (routesWhole_congr (State.errUncorr_links ..) (State.errUncorr_maps ..) hwhole) hd _ _

/-- COMPUTE_OFF_STORE_ACCESS of a read that no block awaits. -/
theorem offAccess_read_lost (htake : takeAt s sid vc src (fun m => (m.req || m.kind = 2) && !m.isAck) = some (pre, m, post))
    (hoff : spOff s sid = true) (hreq : m.req = true) (hd : respDest m.dest = none) :
    offAccess s sid vc src = accessLost s sid pre m post := by
  unfold offAccess respond
  simp only [htake, hoff, hreq, hd]
  rfl

/-- COMPUTE_OFF_STORE_ACCESS of a write from a spindle. -/
theorem offAccess_write (htake : takeAt s sid vc src (fun m => (m.req || m.kind = 2) && !m.isAck) = some (pre, m, post))
    (hoff : spOff s sid = true) (hreq : m.req = false) (hsrc : m.src.toNat % 2048 ≠ 0x7FF) :
    offAccess s sid vc src = accessLost s sid pre m post := by
  unfold offAccess
  simp only [htake, hoff, hreq, sendAck_spindle _ hsrc]
  rfl

end

/-- Settles O35: `epWrite_from_spindle`, `epRead_clean`, and the `offAccess` lemmas with the domain off. -/
theorem storeAccessesFromOutside : Obligations.StoreAccessesFromOutside := by
  intro s sid vc src pre m post hlen hack line L
  refine ⟨fun htake hon hpay hsrc => ⟨_, rfl, ?_⟩, fun d htake hon hclean hd hw => ⟨_, rfl, ?_⟩,
    fun htake hoff hkind hw => ⟨_, rfl, ?_⟩⟩
  · rw [epWrite_from_spindle htake hon hpay hsrc]
    refine ⟨fun j hj => ?_, fun a ha => ?_, ?_, ?_⟩
    · exact readLine_linesWritten _ sid.toNat L _ (by omega) (Nat.lt_succ_iff.2 hj)
    · exact (readByte_linesWritten _ sid.toNat L _ _ fun j hj => ha j (Nat.lt_succ_iff.1 hj)).trans (readByte_messageTaken ..)
    · exact (mesh_linesWritten ..).trans (mesh_messageTaken ..)
    · exact (((routed_messageTaken ..).trans (routed_linesWritten ..)).trans (routed_epPass ..)).onlyCounted _
  · rw [epRead_clean htake hon hclean hd hw]
    refine ⟨⟨_, congrArg (· ++ _) (mesh_messageTaken s pre m post true), rfl, rfl, rfl, rfl, rfl, rfl, ?_, rfl, rfl⟩,
      ⟨fun a => readByte_messageTaken s pre m post true a, fun l => markOf_messageTaken s pre m post true l⟩,
      ((routed_messageTaken s pre m post true).trans (routed_epPass ..)).onlyCounted _⟩
    simp [responseTo]
  · obtain ⟨hevent, hcount, hmesh, hmem⟩ := accessLost_does s sid.toNat pre m post
    cases hreq : m.req with
    | false =>
      rw [offAccess_write htake hoff hreq (hkind.resolve_left (by simp [hreq]))]
      exact ⟨hevent, hcount, fun _ => hmesh, fun d h => by simp at h, hmem⟩
    | true =>
      cases hd : respDest m.dest with
      | none =>
        rw [offAccess_read_lost htake hoff hreq hd]
        exact ⟨hevent, hcount, fun h => by simp at h, fun d _ h => by simp at h, hmem⟩
      | some d =>
        rw [offAccess_read htake hoff hreq hd hw]
        refine ⟨hevent, hcount, fun h => by simp at h, fun d' _ h => ?_, hmem⟩
        obtain rfl := Option.some.inj h
        refine ⟨_, congrArg (· ++ _) hmesh, rfl, rfl, rfl, ?_, fun l hl => ?_⟩
        · simp [responseTo, namedLines]
        · obtain ⟨L', _, rfl⟩ := List.mem_map.1 hl
          rfl

end Sys2Proof.Machine
end

