-- ==== Sys2Proof/Proofs/IpInjection.lean ====
section
/-! PROOF. The injection port: a message leaves line by line, and with its last line enters the mesh. -/
namespace Sys2Proof.Machine

/-! ### The lines of a message (R68) -/

/-- A message of KIND 0b00 to 0b10 that is no read request has a header and a payload (R182). -/
theorem single_of_kind {m : Msg} (hreq : m.req = false) (hkind : m.kind ≠ 3) : m.single = false := by
  simp [Msg.single, hreq, hkind]

theorem single_of_req {m : Msg} (hreq : m.req = true) : m.single = true := by
  rw [Msg.single, hreq, Bool.true_or]

/-- A message with one payload line more. -/
def withLine (m : Msg) (l : Line) : Msg := { m with payload := m.payload ++ [l] }

/-- A message with its last line, of a register, injected. -/
def lastSent (m : IpMsg) : IpMsg := { m with sent := true, todo := 0, regs := m.regs.drop 1, hdr := withLine m.hdr (nth {} m.regs 0) }

/-- A read request injected. -/
def requestSent (m : IpMsg) : IpMsg := { m with sent := true, todo := 0 }

/-- The state after the IP has injected its line of the cycle: its oldest message that has not left became `m'`. -/
def injected (s : State) (sid : Nat) (pre : List IpMsg) (m' : IpMsg) (post : List IpMsg) : State :=
  s.setSpin sid { s.spin sid with ipDone := true, ip := pre ++ m' :: post }

/-- The oldest message that has not left stands behind those that have. -/
theorem find?_unsent {pre : List IpMsg} {m : IpMsg} (post : List IpMsg) (hpre : ∀ x ∈ pre, x.sent = true) (hsent : m.sent = false) :
    (pre ++ m :: post).find? (fun x => !x.sent) = some m := by
  have hnone : pre.find? (fun x => !x.sent) = none := List.find?_eq_none.2 fun x hx => by simp [hpre x hx]
  simp [List.find?_append, hnone, hsent]

/-- The oldest message that has not left is stored as `m'`, after a change of the spindle that leaves the IP's messages. -/
theorem putOldest_eq {s : State} {sid : Nat} {pre : List IpMsg} {m : IpMsg} (m' : IpMsg) {post : List IpMsg} (f : Spindle → Spindle)
    (hip : (f (s.spin sid)).ip = pre ++ m :: post) (hpre : ∀ x ∈ pre, x.sent = true) (hsent : m.sent = false) :
    (s.modSpin sid f).modSpin sid (fun p => { p with ip := mapFirst (fun x => !x.sent) (fun _ => m') p.ip })
      = s.setSpin sid { f (s.spin sid) with ip := pre ++ m' :: post } := by
  have hput : mapFirst (fun x => !x.sent) (fun _ => m') (f (s.spin sid)).ip = pre ++ m' :: post := by
    rw [hip]
    exact mapFirst_at _ _ pre m post (fun x hx => by simp [hpre x hx]) (by simp [hsent])
  rw [State.modSpin_modSpin, State.modSpin, hput]

/-- The IP's line of the cycle. -/
theorem injected_eq {s : State} {sid : Nat} {pre : List IpMsg} {m : IpMsg} (m' : IpMsg) {post : List IpMsg}
    (hip : (s.spin sid).ip = pre ++ m :: post) (hpre : ∀ x ∈ pre, x.sent = true) (hsent : m.sent = false) :
    (s.modSpin sid (fun p => { p with ipDone := true })).modSpin sid
      (fun p => { p with ip := mapFirst (fun x => !x.sent) (fun _ => m') p.ip }) = injected s sid pre m' post :=
  putOldest_eq m' (fun p => { p with ipDone := true }) hip hpre hsent

/-- The IP injects one line a cycle. -/
theorem ipInject_waits {s : State} {sid : Nat} (hdone : (s.spin sid).ipDone = true) (c : Cond) : ipInject s sid c = s := by
  unfold ipInject
  simp only [hdone, Bool.or_true, if_true]

section
variable {s : State} {sid : Nat} {pre : List IpMsg} {m : IpMsg} {post : List IpMsg}
  (hup : spinUp s sid = true) (hip : (s.spin sid).ip = pre ++ m :: post) (hpre : ∀ x ∈ pre, x.sent = true)
  (hdone : (s.spin sid).ipDone = false) (hsent : m.sent = false)
include hup hip hpre hdone hsent

/-- The header line. -/
theorem ipInject_header (hsingle : m.hdr.single = false) (htodo : m.todo = m.hdr.len + 2) (c : Cond) :
    ipInject s sid c = injected s sid pre { m with todo := m.hdr.len + 1 } post := by
  have hfind : (s.spin sid).ip.find? (fun x => !x.sent) = some m := by rw [hip, find?_unsent post hpre hsent]
  unfold ipInject
  simp only [hup, hdone, hfind, hsingle, htodo, Bool.not_true, Bool.not_false, Bool.or_self, Bool.and_true, decide_true, Bool.false_eq_true,
    if_false, if_true]
  exact injected_eq _ hip hpre hsent

/-- A payload line of the store, with others to follow. -/
theorem ipInject_store (hsingle : m.hdr.single = false) {L : Nat} (hstore : m.store = some L) (hmore : 1 < m.todo) (htodo : m.todo ≠ m.hdr.len + 2)
    (hbank : (bankOf L &&& (s.spin sid).busy) = 0#8) (hclean : (readLine s (storeAddr sid L)).bad = false) :
    ipInject s sid .clean = s.setSpin sid { s.spin sid with
      ipDone := true, busy := (s.spin sid).busy ||| bankOf L, ip := pre ++ { m with
        todo := m.todo - 1, store := some ((L + 1) % 2048),
        hdr := { m.hdr with payload := m.hdr.payload ++ [readLine s (storeAddr sid L)] } } :: post } := by
  have hfind : (s.spin sid).ip.find? (fun x => !x.sent) = some m := by rw [hip, find?_unsent post hpre hsent]
  have hread : storeRead (s.modSpin sid (fun p => { p with ipDone := true })) sid L .clean =
      (readLine s (storeAddr sid L), s.modSpin sid (fun p => { p with ipDone := true })) := storeRead_clean _ sid L hclean
  have hrest : ¬ m.todo - 1 = 0 := by omega
  unfold ipInject
  simp only [hup, hdone, hfind, hsingle, htodo, hstore, hbank, hread, hrest, Bool.not_true, Bool.not_false, Bool.or_self, Bool.true_and,
    decide_false, Bool.false_eq_true, if_false, if_true, bne_self_eq_false]
  rw [State.modSpin_modSpin s, putOldest_eq _ (fun p => { p with ipDone := true, busy := p.busy ||| bankOf L }) hip hpre hsent]

/-- The last line, of a register. -/
theorem ipInject_last (hsingle : m.hdr.single = false) (hstore : m.store = none) (htodo : m.todo = 1) (c : Cond) :
    ipInject s sid c = ipFinish (injected s sid pre (lastSent m) post) sid (lastSent m).hdr := by
  have hfind : (s.spin sid).ip.find? (fun x => !x.sent) = some m := by rw [hip, find?_unsent post hpre hsent]
  have hne : ¬ 1 = m.hdr.len + 2 := by omega
  unfold ipInject
  simp only [hup, hdone, hfind, hsingle, htodo, hstore, hne, Bool.not_true, Bool.not_false, Bool.or_self, Bool.true_and,
    decide_false, Bool.false_eq_true, if_false, if_true, Nat.sub_self]
  rw [injected_eq _ hip hpre hsent, lastSent, hstore]
  rfl

/-- A read request is its header alone. -/
theorem ipInject_request (hreq : m.hdr.req = true) (hstore : m.store = none) (c : Cond) :
    ipInject s sid c = ipFinish (injected s sid pre (requestSent m) post) sid m.hdr := by
  have hfind : (s.spin sid).ip.find? (fun x => !x.sent) = some m := by rw [hip, find?_unsent post hpre hsent]
  unfold ipInject
  simp only [hup, hdone, hfind, single_of_req hreq, hstore, Bool.not_true, Bool.or_self, Bool.false_and, Bool.false_eq_true, if_false, if_true]
  rw [injected_eq _ hip hpre hsent, requestSent, hstore]

end

/-! ### A message that is complete (R26, R71, R218) -/

/-- What a spindle's unmapped access leaves (R26, R71). -/
theorem eaRecord_does (s : State) (sid kind ea : Nat) :
    onlyRegs s (eaRecord s sid kind ea) ∧ (eaRecord s sid kind ea).bget (fcPage s sid + 0x18) 28 = true ∧
    (eaRecord s sid kind ea).bget (fcPage s sid + 0x18) 29 = true ∧
    (s.bget (fcPage s sid + 0x140) 31 = false →
      (eaRecord s sid kind ea).reg (fcPage s sid + 0x140) = BitVec.ofNat 32 (2 ^ 31 + kind * 2 ^ 21 + sid % 2 ^ 21) ∧
      (eaRecord s sid kind ea).reg (fcPage s sid + 0x144) = BitVec.ofNat 32 ea ∧
      (eaRecord s sid kind ea).reg (fcPage s sid + 0x148) = BitVec.ofNat 32 (ea / 2 ^ 32 % 65536)) := by
  unfold eaRecord
  dsimp only
  generalize fcPage s sid = pg
  have hregs := State.onlyRegs_eaUnmapped s pg
  have h28 : (s.eaUnmapped pg).bget (pg + 0x18) 28 = true := State.bget_raise _ _ (by omega)
  have h29 : (s.eaUnmapped pg).bget (pg + 0x18) 29 = true := State.bget_raise_keeps _ _ _ _ (bget_errUncorr s pg)
  have hvalid : (s.eaUnmapped pg).bget (pg + 0x140) 31 = s.bget (pg + 0x140) 31 := by
    rw [State.bget, State.eaUnmapped, State.reg_raise_other _ _ _ (by omega) (by omega),
      reg_errUncorr_other _ _ (by omega) (by omega) (by omega), State.bget]
  generalize s.eaUnmapped pg = u at *
  split
  next h =>
    refine ⟨hregs, h28, h29, fun hnone => ?_⟩
    rw [hvalid, hnone] at h
    exact absurd h (by decide)
  next h =>
    refine ⟨((hregs.trans (State.onlyRegs_setReg _ _ _)).trans (State.onlyRegs_setReg _ _ _)).trans (State.onlyRegs_setReg _ _ _), ?_, ?_, fun _ => ⟨?_, ?_, ?_⟩⟩
    · iterate 3 rw [State.bget_setReg_other _ _ _ (by omega)]
      exact h28
    · iterate 3 rw [State.bget_setReg_other _ _ _ (by omega)]
      exact h29
    · iterate 2 rw [State.reg_setReg_other _ _ (by omega)]
      exact State.reg_setReg_same _ _ _
    · rw [State.reg_setReg_other _ _ (by omega)]
      exact State.reg_setReg_same _ _ _
    · exact State.reg_setReg_same _ _ _

section
variable {s : State} {m : Msg} (hvalid : s.validSid m.dest.toNat = true) (hcode : m.dest.toNat % 2048 ≠ 0x7FF)
include hvalid hcode

/-- A queue message or a response to a spindle of the offered shape goes there. -/
theorem sidDest_spindle : sidDest s none m.dest = some (.spindle m.dest.toNat) := by
  unfold sidDest
  simp only [hcode, hvalid, if_false, if_true]

/-- A message to a spindle enters the mesh. -/
theorem ipFinish_write (sid : Nat) (hreq : m.req = false) (hkind : m.kind ≠ 3) :
    ipFinish s sid m = send s { m with dst := .spindle m.dest.toNat } := by
  unfold ipFinish
  simp only [single_of_kind hreq hkind, hreq, sidDest_spindle hvalid hcode, Bool.false_and, Bool.false_eq_true, if_false]

/-- A read of lines of a bobbin in service enters the mesh. -/
theorem ipFinish_read_bobbin (sid : Nat) (hreq : m.req = true) {f o : Nat} (hea : decodeEA s m.ea.toNat = .bobbin f o)
    (hend : o + 32 * (m.len + 1) ≤ s.capacity) (hin : outFive s (pBob f 0) = false) :
    ipFinish s sid m = send s { m with dst := .bobbin f } := by
  have hmapped : mappedLines s none m.ea.toNat (m.len + 1) = true := by
    rw [mappedLines, hea]
    exact decide_eq_true hend
  have hunit : unitOut s m.ea.toNat (m.len + 1) = none := by
    rw [unitOut, hea]
    simp only [hin, Bool.false_eq_true, if_false]
  unfold ipFinish
  simp only [hreq, sidDest_spindle hvalid hcode, hmapped, hunit, hea, eaDest, Bool.not_true, Bool.and_false, Bool.false_eq_true, if_false, if_true]

/-- A read of an unmapped EA is recorded and answered with zero lines. -/
theorem ipFinish_read_unmapped (sid : Nat) (hreq : m.req = true) (hea : decodeEA s m.ea.toNat = .unmapped) :
    ipFinish s sid m = respond (eaRecord s sid 0 m.ea.toNat) m (BitVec.ofNat 21 sid) (List.replicate (m.len + 1) {}) := by
  have hmapped : mappedLines s none m.ea.toNat (m.len + 1) = false := by rw [mappedLines, hea]
  unfold ipFinish
  simp only [hreq, sidDest_spindle hvalid hcode, hmapped, Bool.not_true, Bool.and_false, Bool.false_eq_true, if_false, if_true]

end

/-! ### A message that has left (R73) -/

section
variable {s : State} {sid : Nat} {m : IpMsg} {post : List IpMsg} (hup : spinUp s sid = true) (hip : (s.spin sid).ip = m :: post)
  (hsent : m.sent = true)
include hup hip hsent

theorem ipLeft_without_tap (htap : m.tap = none) : ipLeft s sid = s.setSpin sid { s.spin sid with ip := post } := by
  unfold ipLeft
  simp only [hup, hip, hsent, htap, Bool.not_true, Bool.false_eq_true, if_false]
  rfl

theorem ipLeft_with_tap {i : Nat} (htap : m.tap = some i) :
    ipLeft s sid = tapAdd (s.setSpin sid { s.spin sid with ip := post }) sid i 1 := by
  unfold ipLeft
  simp only [hup, hip, hsent, htap, Bool.not_true, Bool.false_eq_true, if_false]
  rfl

end

/-- An increment of a tap that no hank queue follows is the tap's alone. -/
theorem tapAdd_alone {s : State} {sid t n : Nat} (h : (s.spin sid).hqOfTap t = []) :
    tapAdd s sid t n = s.setSpin sid ((s.spin sid).setTap t ((s.spin sid).tap t + n)) := by
  unfold tapAdd
  simp only [h]
  split <;> rfl

/-- A message enters the mesh after a change of registers. -/
theorem onlyRegs.enqueue_frame {s u : State} (h : onlyRegs s u) (x : Msg) :
    u.enqueue x = { s with regs := (u.enqueue x).regs, mesh := (u.enqueue x).mesh } :=
  congrArg (fun v : State => { v with mesh := u.mesh ++ [x] }) h

/-- What a read of an unmapped EA leaves: the record of the access, and zero lines on their way back. -/
theorem unmappedRead_does (u : State) (hw : routesWhole u) (sid : SID) (m : Msg) (hcode : m.dest.toNat % 2048 ≠ 0x7FF) :
    let t := respond (eaRecord u sid.toNat 0 m.ea.toNat) m (BitVec.ofNat 21 sid.toNat) (List.replicate (m.len + 1) {})
    let pg := fcPage u sid.toNat
    t.bget (pg + 0x18) 28 = true ∧ t.bget (pg + 0x18) 29 = true ∧
      (u.bget (pg + 0x140) 31 = false → t.bget (pg + 0x140) 31 = true ∧ t.fget (pg + 0x140) 20 0 = sid.toNat ∧ t.fget (pg + 0x140) 22 21 = 0 ∧
        t.fget (pg + 0x144) 31 0 = m.ea.toNat % 2 ^ 32 ∧ t.fget (pg + 0x148) 15 0 = m.ea.toNat / 2 ^ 32 % 65536) ∧
      (∃ r : Msg, t.mesh = u.mesh ++ [r] ∧ r.dst = .spindle m.dest.toNat ∧ r.vc = 2 ∧ r.kind = m.kind ∧ r.tag = m.tag ∧
        r.payload = List.replicate (m.len + 1) {}) ∧
      t = { u with regs := t.regs, mesh := t.mesh } := by
  obtain ⟨hregs, h28, h29, hrecord⟩ := eaRecord_does u sid.toNat 0 m.ea.toNat
  have hd : respDest m.dest = some (.spindle m.dest.toNat) := by rw [respDest, if_neg hcode]
  have hsid := sid.isLt
  intro t pg
  have ht : t = _ := respond_whole (routesWhole_congr hregs.links hregs.maps hw) hd _ _
  clear_value t
  subst ht
  refine ⟨h28, h29, fun hnone => ?_, ⟨_, congrArg (· ++ _) hregs.mesh, rfl, rfl, rfl, rfl, rfl⟩, hregs.enqueue_frame _⟩
  · obtain ⟨h140, h144, h148⟩ := hrecord hnone
    simp only [State.bget, State.fget, State.reg_enqueue]
    rw [h140, h144, h148, getB_ofNat _ (by omega), getF_ofNat _ (by omega), getF_ofNat _ (by omega), getF_ofNat _ (by omega),
      getF_ofNat _ (by omega)]
    refine ⟨decide_eq_true ?_, ?_, ?_, ?_, ?_⟩ <;> omega

/-- Settles O28: each clause is the `ipInject` lemma of its line, then the `ipFinish` lemma of a complete message; a message that has left by the
`ipLeft` lemmas. -/
theorem ipInjectsMessages : Obligations.IpInjectsMessages := by
  intro s sid pre m post hup p hip hpre
  refine ⟨fun hdone c => ?_, fun hdone hsent hreq hkind htodo c => ⟨_, rfl, ?_⟩,
    fun L hdone hsent hreq hkind hmore htodo hstore hbank hclean => ⟨_, rfl, ?_⟩,
    fun hdone hsent hreq hkind htodo hstore hvalid hcode hcut c => ⟨_, rfl, ?_⟩,
    fun hdone hsent hreq hstore hvalid hcode => ⟨fun f o hea hend hin hcut c => ⟨_, rfl, ?_⟩, fun hea hw c => ⟨_, rfl, ?_⟩⟩,
    fun hnil hsent htap => ⟨_, rfl, ?_⟩, fun i hi hnil hsent htap hq => ⟨_, rfl, ?_⟩⟩
  · rw [show exec (.ipMessageInject sid c) s = .next (ipInject s sid.toNat c) from rfl, ipInject_waits hdone]
  · rw [ipInject_header hup hip hpre hdone hsent (single_of_kind hreq hkind) htodo c]
    exact ⟨State.spin_setSpin_same _ _ _, onlySpin_setSpin _ _ _⟩
  · rw [ipInject_store hup hip hpre hdone hsent (single_of_kind hreq hkind) hstore hmore (by omega) hbank hclean]
    exact ⟨State.spin_setSpin_same _ _ _, onlySpin_setSpin _ _ _⟩
  · rw [ipInject_last hup hip hpre hdone hsent (single_of_kind hreq hkind) hstore htodo c,
      ipFinish_write (s := injected s sid.toNat pre (lastSent m) post) (m := (lastSent m).hdr) hvalid hcode _ hreq hkind]
    exact send_uncut hcut
  · rw [ipInject_request hup hip hpre hdone hsent hreq hstore c,
      ipFinish_read_bobbin (s := injected s sid.toNat pre (requestSent m) post) hvalid hcode _ hreq hea hend hin]
    exact send_uncut hcut
  · rw [ipInject_request hup hip hpre hdone hsent hreq hstore c,
      ipFinish_read_unmapped (s := injected s sid.toNat pre (requestSent m) post) hvalid hcode _ hreq hea]
    exact unmappedRead_does (injected s sid.toNat pre (requestSent m) post) (routesWhole_congr rfl rfl hw) sid m.hdr hcode
  · subst hnil
    rw [ipLeft_without_tap hup hip hsent htap]
    exact ⟨State.spin_setSpin_same _ _ _, onlySpin_setSpin _ _ _⟩
  · subst hnil
    rw [ipLeft_with_tap hup hip hsent htap, tapAdd_alone (by rw [State.spin_setSpin_same]; exact hq), State.setSpin_setSpin,
      State.spin_setSpin_same]
    refine ⟨?_, fun j hj hne => ?_, ?_, onlySpin_setSpin _ _ _⟩
    · rw [State.spin_setSpin_same, Spindle.tap_setTap_same]
      rfl
    · rw [State.spin_setSpin_same, tap_setTap_other _ hne]
      rfl
    · rw [State.spin_setSpin_same]
      rfl

end Sys2Proof.Machine
end

