-- ==== Sys2Proof/Proofs/VuResults.lean ====
section
/-! PROOF. VU results: what an operation writes when its latency has passed, and what a failed check records. -/
namespace Sys2Proof.Machine

/-! ### Changes of the window registers of one spindle (R81) -/

/-- `t` is `s` but for the window registers of spindle `sid` and for registers that satisfy `p`. -/
def onlyWindow (p : Nat → Prop) (sid : Nat) (s t : State) : Prop :=
  t.spin sid = { s.spin sid with win := (t.spin sid).win } ∧ (∀ j, j ≠ sid → t.spin j = s.spin j) ∧ sameRegs p s t ∧
  t = { s with spindles := t.spindles, regs := t.regs }

namespace onlyWindow
variable {p : Nat → Prop} {sid : Nat} {s t u : State}

theorem refl (p : Nat → Prop) (sid : Nat) (s : State) : onlyWindow p sid s s := ⟨rfl, fun _ _ => rfl, fun _ _ => rfl, rfl⟩

theorem trans (h : onlyWindow p sid s t) (k : onlyWindow p sid t u) : onlyWindow p sid s u := by
  obtain ⟨hspin, hother, hregs, hframe⟩ := h
  obtain ⟨kspin, kother, kregs, kframe⟩ := k
  refine ⟨?_, fun j hj => (kother j hj).trans (hother j hj), fun o ho => (kregs o ho).trans (hregs o ho), ?_⟩
  · rw [kspin, hspin]
  · rw [kframe, hframe]

theorem of_onlyRegsAt (h : onlyRegsAt p s t) : onlyWindow p sid s t := by
  obtain ⟨honly, hregs⟩ := h
  have hspin : ∀ j, t.spin j = s.spin j := fun j => by rw [State.spin, honly.spindles]; rfl
  refine ⟨by rw [hspin], fun j _ => hspin j, hregs, ?_⟩
  rw [onlyRegs] at honly
  rw [honly]

theorem setSpin {q : Spindle} (h : q = { s.spin sid with win := q.win }) : onlyWindow p sid s (s.setSpin sid q) := by
  refine ⟨?_, fun j hj => State.spin_setSpin_other _ _ hj, fun _ _ => rfl, rfl⟩
  rw [State.spin_setSpin_same]
  exact h

end onlyWindow

/-- A 31-bit count of a spindle's page changes the page's window register, and the page's events (R44). -/
theorem onlyWindow_wbump31 (s : State) (sid page off n : Nat) :
    onlyWindow (fun o => o = pWin (s.fieldOf sid) page + 0x18 ∨ o = pWin (s.fieldOf sid) page + 0x1C) sid s (wbump31 s sid page off n) := by
  unfold wbump31
  dsimp only
  split
  · exact (onlyWindow.setSpin rfl).trans (onlyWindow.of_onlyRegsAt ⟨State.onlyRegs_raise _ _ _, fun o ho =>
      State.reg_raise_other _ _ _ (fun e => ho (.inl e)) (fun e => ho (.inr e))⟩)
  · exact onlyWindow.setSpin rfl

theorem wreg_wbump31_other (s : State) (sid page off n : Nat) {g o : Nat} (h : g * 4096 + o ≠ page * 4096 + off) :
    ((wbump31 s sid page off n).spin sid).wreg g o = (s.spin sid).wreg g o := by
  unfold wbump31
  dsimp only
  split
  · rw [State.spin_raise, State.spin_setSpin_same, Spindle.wreg_setW_other _ _ h, Spindle.setWf, Spindle.wreg_setW_other _ _ h]
  · rw [State.spin_setSpin_same, Spindle.setWf, Spindle.wreg_setW_other _ _ h]

theorem getB_spFlag (p : Spindle) {i : Nat} (h : i < 32) : getB ((p.spFlag i).wreg 5 0x44) i = true := by
  rw [Spindle.spFlag, Spindle.wreg_setW_same, getB_putB_same _ _ h]

/-! ### What a failed check records (R77, R463) -/

/-- `t` is `s` but for registers of fields, of which page `pg` keeps its events, and for the capture buffers. -/
def onlyNoted (pg : Nat) (s t : State) : Prop :=
  (∀ o, o < 0x1000000 → t.reg o = s.reg o) ∧ (∀ i, s.bget (pg + 0x18) i = true → t.bget (pg + 0x18) i = true) ∧
  t = { s with regs := t.regs, belfry := { s.belfry with buffers := t.belfry.buffers } }

theorem onlyNoted.trans {pg : Nat} {s t u : State} (h : onlyNoted pg s t) (k : onlyNoted pg t u) : onlyNoted pg s u := by
  obtain ⟨hlow, hkeep, hframe⟩ := h
  obtain ⟨klow, kkeep, kframe⟩ := k
  refine ⟨fun o ho => (klow o ho).trans (hlow o ho), fun i hi => kkeep i (hkeep i hi), ?_⟩
  rw [kframe, hframe]

theorem onlyNoted.of_onlyRegs {pg : Nat} {s t : State} (h : onlyRegs s t) (hlow : ∀ o, o < 0x1000000 → t.reg o = s.reg o)
    (hkeep : ∀ i, s.bget (pg + 0x18) i = true → t.bget (pg + 0x18) i = true) : onlyNoted pg s t := by
  refine ⟨hlow, hkeep, ?_⟩
  rw [onlyRegs] at h
  rw [h]

/-- A register of the page beyond its header is stored. -/
theorem onlyNoted_setReg (s : State) {pg o : Nat} (v : Word) (hpg : 0x1000000 ≤ pg) (ho : 0x40 ≤ o) : onlyNoted pg s (s.setReg (pg + o) v) :=
  .of_onlyRegs rfl (fun _ h => State.reg_setReg_other _ _ (by omega)) (fun i h => by rw [State.bget_setReg_other _ _ _ (by omega)]; exact h)

/-- The mismatch counted at its spindle: its flags, and CLAPPER_COUNT. -/
def mismatchCounted (s : State) (sid : Nat) (mm : Mismatch) : State :=
  wbump31 (s.modSpin sid (fun p => (p.spFlag (clapperFlag mm)).spFlag 5)) sid 5 0x48 1

/-- The mismatch counted in the field's page `pg`, with event 7. -/
def mismatchRaised (s : State) (pg : Nat) : State := (s.raise pg 7).bump48 pg (pg + 0x218) 1

/-- Whether the capture buffer of field f is free. -/
def captureFree (s : State) (f : Nat) : Bool := (SMap.get (fun _ => none) s.belfry.buffers f).isNone

/-- The capture kept in field f's buffer while it is free. -/
def captureKept (s : State) (pg f : Nat) (capture : List (BitVec 256)) : State :=
  if captureFree s f then
    (s.modBel (fun b => { b with buffers := SMap.set (fun _ => none) b.buffers f (some capture) })).fset (pg + 0x214) 0 0 1
  else s

/-- The mismatch named in CLAPPER_LAST of page `pg` while that holds none. -/
def mismatchNamed (s : State) (pg sid : Nat) (x : VuFly) (mm : Mismatch) (kept : Bool) : State :=
  if s.bget (pg + 0x200) 31 then s
  else
    let s := s.setReg (pg + 0x200) (BitVec.ofNat 32 (2 ^ 31 + mm.kind % 8 * 2 ^ 28 + laneOf x mm % 16 * 2 ^ 24 + x.ply % 4 * 2 ^ 21 + sid % 2 ^ 21))
    let s := s.setReg (pg + 0x204) (BitVec.ofNat 32 (x.op % 64 * 2 ^ 26 + x.act % 64 * 2 ^ 20 + kept.toNat))
    let s := s.setReg (pg + 0x208) (s.reg (pTb + 0x40))
    s.setReg (pg + 0x20C) (s.reg (pTb + 0x44))

theorem clapperRecord_eq (s : State) (sid : Nat) (p : Spindle) (x : VuFly) (mm : Mismatch) :
    clapperRecord s sid p x mm =
      let u := mismatchRaised (mismatchCounted s sid mm) (fcPage s sid)
      mismatchNamed (captureKept u (fcPage s sid) (s.fieldOf sid) (captureRecord u sid p x mm)) (fcPage s sid) sid x mm
        (captureFree u (s.fieldOf sid)) := rfl

section
variable (s : State) {pg : Nat} (hpg : 0x1000000 ≤ pg)
include hpg

theorem mismatchRaised_does : (mismatchRaised s pg).bget (pg + 0x18) 7 = true ∧ onlyNoted pg s (mismatchRaised s pg) ∧
    (mismatchRaised s pg).reg (pg + 0x200) = s.reg (pg + 0x200) := by
  refine ⟨bget_bump48_keeps _ _ _ _ _ (by omega) (by omega) (State.bget_raise _ _ (by omega)),
    .of_onlyRegs ((State.onlyRegs_raise _ _ _).trans (State.onlyRegs_bump48 _ _ _ _)) (fun o ho => ?_) (fun i hi => ?_), ?_⟩
  · rw [mismatchRaised, State.reg_bump48_other _ _ _ _ (by omega) (by omega) (by omega) (by omega), State.reg_raise_other _ _ _ (by omega) (by omega)]
  · exact bget_bump48_keeps _ _ _ _ _ (by omega) (by omega) (State.bget_raise_keeps _ _ _ _ hi)
  · rw [mismatchRaised, State.reg_bump48_other _ _ _ _ (by omega) (by omega) (by omega) (by omega), State.reg_raise_other _ _ _ (by omega) (by omega)]

theorem captureKept_does (f : Nat) (capture : List (BitVec 256)) : onlyNoted pg s (captureKept s pg f capture) ∧
    (captureKept s pg f capture).reg (pg + 0x200) = s.reg (pg + 0x200) := by
  unfold captureKept
  split
  · have hkept : onlyNoted pg s (s.modBel fun b => { b with buffers := SMap.set (fun _ => none) b.buffers f (some capture) }) :=
      ⟨fun _ _ => rfl, fun _ h => h, rfl⟩
    exact ⟨hkept.trans (onlyNoted_setReg _ _ hpg (by omega)), State.reg_fset_other _ _ _ _ (by omega)⟩
  · exact ⟨⟨fun _ _ => rfl, fun _ h => h, rfl⟩, rfl⟩

theorem mismatchNamed_does (sid : Nat) (x : VuFly) (mm : Mismatch) (kept : Bool) : onlyNoted pg s (mismatchNamed s pg sid x mm kept) ∧
    (s.bget (pg + 0x200) 31 = false →
      (mismatchNamed s pg sid x mm kept).reg (pg + 0x200)
        = BitVec.ofNat 32 (2 ^ 31 + mm.kind % 8 * 2 ^ 28 + laneOf x mm % 16 * 2 ^ 24 + x.ply % 4 * 2 ^ 21 + sid % 2 ^ 21) ∧
      (mismatchNamed s pg sid x mm kept).reg (pg + 0x204) = BitVec.ofNat 32 (x.op % 64 * 2 ^ 26 + x.act % 64 * 2 ^ 20 + kept.toNat)) := by
  unfold mismatchNamed
  split
  next h => exact ⟨⟨fun _ _ => rfl, fun _ h => h, rfl⟩, fun hnone => absurd (hnone.symm.trans h) (by decide)⟩
  next h =>
    refine ⟨(((onlyNoted_setReg _ _ hpg (by omega)).trans (onlyNoted_setReg _ _ hpg (by omega))).trans (onlyNoted_setReg _ _ hpg (by omega))).trans
      (onlyNoted_setReg _ _ hpg (by omega)), fun _ => ⟨?_, ?_⟩⟩
    · iterate 3 rw [State.reg_setReg_other _ _ (by omega)]
      exact State.reg_setReg_same _ _ _
    · iterate 2 rw [State.reg_setReg_other _ _ (by omega)]
      exact State.reg_setReg_same _ _ _

end

/-! ### The mismatch of the checks of one operation -/

/-- The field of a spindle, its position and the time base stand in registers below the fields' and in the field maps. -/
theorem place_of_low {s t : State} (hlow : ∀ o, o < 0x1000000 → t.reg o = s.reg o) (hmaps : t.maps = s.maps) (sid : Nat) :
    t.fieldOf sid = s.fieldOf sid ∧ locOf t sid = locOf s sid ∧ t.tb = s.tb := by
  have hcols : t.cols = s.cols := by rw [State.cols, State.fget, hlow _ (by decide)]; rfl
  have hfield : t.fieldOf sid = s.fieldOf sid := by rw [State.fieldOf, hcols]; rfl
  refine ⟨hfield, ?_, ?_⟩
  · simp only [locOf, physOf, State.fmap, hmaps, hfield, hcols]
  · rw [State.tb, hlow _ (by decide), hlow _ (by decide)]
    rfl

/-- `t` comes of `s` by a mismatch `mm` of operation `x` of spindle `sid`: its flag and event, its name in CLAPPER_LAST where that holds
none, and its hit (R77, R463, R467). -/
structure MismatchSeen (s t : State) (sid : Nat) (x : VuFly) (mm : Mismatch) : Prop where
  spin : t.spin sid = { s.spin sid with win := (t.spin sid).win }
  other : ∀ j, j ≠ sid → t.spin j = s.spin j
  flag : getB ((t.spin sid).wreg 5 0x44) 5 = true
  event : t.bget (fcPage s sid + 0x18) 7 = true
  named : s.bget (fcPage s sid + 0x200) 31 = false →
    t.reg (fcPage s sid + 0x200) = BitVec.ofNat 32 (2 ^ 31 + mm.kind % 8 * 2 ^ 28 + laneOf x mm % 16 * 2 ^ 24 + x.ply % 4 * 2 ^ 21 + sid % 2 ^ 21) ∧
    ∃ kept : Bool, t.reg (fcPage s sid + 0x204) = BitVec.ofNat 32 (x.op % 64 * 2 ^ 26 + x.act % 64 * 2 ^ 20 + kept.toNat)
  hit : t.belfry.hitsDue = s.belfry.hitsDue ++ [(s.fieldOf sid * 32768 + locOf s sid, false, s.tb)]
  frame : t = { s with spindles := t.spindles, regs := t.regs, belfry := t.belfry }

/-- The hit of a mismatch whose record is `z`. -/
theorem MismatchSeen.of_record {s v z : State} {sid : Nat} {x : VuFly} {mm : Mismatch} {p : Nat → Prop} (hv : onlyWindow p sid s v)
    (hp : ∀ o, p o → 0x1000000 ≤ o) (hflag : getB ((v.spin sid).wreg 5 0x44) 5 = true) (hz : onlyNoted (fcPage s sid) v z)
    (hevent : z.bget (fcPage s sid + 0x18) 7 = true)
    (hnamed : s.bget (fcPage s sid + 0x200) 31 = false →
      z.reg (fcPage s sid + 0x200) = BitVec.ofNat 32 (2 ^ 31 + mm.kind % 8 * 2 ^ 28 + laneOf x mm % 16 * 2 ^ 24 + x.ply % 4 * 2 ^ 21 + sid % 2 ^ 21) ∧
      ∃ kept : Bool, z.reg (fcPage s sid + 0x204) = BitVec.ofNat 32 (x.op % 64 * 2 ^ 26 + x.act % 64 * 2 ^ 20 + kept.toNat)) :
    MismatchSeen s (makeHit z sid false) sid x mm := by
  obtain ⟨vspin, vother, vregs, vframe⟩ := hv
  obtain ⟨zlow, -, zframe⟩ := hz
  have hmaps : z.maps = s.maps := by rw [zframe, vframe]
  have hdue : z.belfry.hitsDue = s.belfry.hitsDue := by rw [zframe, vframe]
  have hspin : ∀ j, (makeHit z sid false).spin j = v.spin j := fun j => by rw [zframe]; rfl
  obtain ⟨hfield, hloc, htb⟩ := place_of_low (s := s) (t := z)
    (fun o ho => (zlow o ho).trans (vregs o (fun h => absurd (hp o h) (by omega)))) hmaps sid
  refine ⟨by rw [hspin, ← vspin], fun j hj => (hspin j).trans (vother j hj), by rw [hspin]; exact hflag, hevent, hnamed, ?_, ?_⟩
  · rw [← hdue, ← hfield, ← hloc, ← htb]
    rfl
  · rw [makeHit, State.modBel]
    rw [zframe, vframe]

theorem pField_ge (f : Nat) : 0x1000000 ≤ pField f := by unfold pField fieldBase; omega

/-- A failed check is counted at its spindle, without a change of the field's clapper registers. -/
theorem onlyWindow_mismatchCounted (s : State) (sid : Nat) (mm : Mismatch) :
    onlyWindow (fun o => o = pWin (s.fieldOf sid) 5 + 0x18 ∨ o = pWin (s.fieldOf sid) 5 + 0x1C) sid s (mismatchCounted s sid mm) :=
  (onlyWindow.setSpin rfl).trans (onlyWindow_wbump31 (s.modSpin sid _) _ _ _ _)

/-- A clapper mismatch is recorded and makes a hit. -/
theorem clapper_seen (s : State) (sid : Nat) (x : VuFly) (mm : Mismatch) : MismatchSeen s (clapper s sid x mm) sid x mm := by
  have hpg : 0x1000000 ≤ fcPage s sid := pField_ge _
  have hcounted := onlyWindow_mismatchCounted s sid mm
  have hflag : getB (((mismatchCounted s sid mm).spin sid).wreg 5 0x44) 5 = true := by
    rw [mismatchCounted, wreg_wbump31_other _ _ _ _ _ (by omega), State.spin_modSpin_same, getB_spFlag _ (by omega)]
  have hlast : (mismatchCounted s sid mm).reg (fcPage s sid + 0x200) = s.reg (fcPage s sid + 0x200) :=
    hcounted.2.2.1 _ (by unfold fcPage pWin pField; omega)
  rw [clapper, clapperRecord_eq]
  generalize mismatchCounted s sid mm = v at hcounted hflag hlast ⊢
  obtain ⟨hevent, hraised, hlast1⟩ := mismatchRaised_does v hpg
  generalize mismatchRaised v (fcPage s sid) = u at hevent hraised hlast1 ⊢
  dsimp only
  generalize captureRecord u sid (s.spin sid) x mm = capture
  generalize captureFree u (s.fieldOf sid) = kept
  obtain ⟨hkept, hlast2⟩ := captureKept_does u hpg (s.fieldOf sid) capture
  generalize captureKept u (fcPage s sid) (s.fieldOf sid) capture = w at hkept hlast2 ⊢
  obtain ⟨hnoted, hnamed⟩ := mismatchNamed_does w hpg sid x mm kept
  refine .of_record hcounted (fun o ho => ?_) hflag ((hraised.trans hkept).trans hnoted) (hnoted.2.1 7 (hkept.2.1 7 hevent)) (fun hnone => ?_)
  · have := pField_ge (s.fieldOf sid)
    unfold pWin at ho
    unfold pField at this
    omega
  · obtain ⟨h200, h204⟩ := hnamed (by rw [State.bget, hlast2, hlast1, hlast]; exact hnone)
    exact ⟨h200, kept, h204⟩

/-- Flags of the spindle that are set before the mismatch is recorded. -/
theorem MismatchSeen.after_flags {s v t : State} {sid : Nat} {x : VuFly} {mm : Mismatch} (hv : onlyWindow (fun _ => False) sid s v)
    (h : MismatchSeen v t sid x mm) : MismatchSeen s t sid x mm := by
  obtain ⟨vspin, vother, vregs, vframe⟩ := hv
  obtain ⟨hspin, hother, hflag, hevent, hnamed, hhit, hframe⟩ := h
  have hreg : ∀ o, v.reg o = s.reg o := fun o => vregs o not_false
  obtain ⟨hfield, hloc, htb⟩ := place_of_low (s := s) (t := v) (fun o _ => hreg o) (by rw [vframe]) sid
  have hpage : fcPage v sid = fcPage s sid := by rw [fcPage, hfield]; rfl
  have hdue : v.belfry = s.belfry := by rw [vframe]
  rw [hpage] at hevent hnamed
  rw [hfield, hloc, htb, hdue] at hhit
  refine ⟨by rw [hspin, vspin], fun j hj => (hother j hj).trans (vother j hj), hflag, hevent, fun hnone => hnamed ?_, hhit, ?_⟩
  · rw [State.bget, hreg]
    exact hnone
  · rw [hframe, vframe]

/-- The checks of an operation that fail in one cycle make one mismatch, the lowest KIND (R77). -/
theorem clapperChecks_seen (s : State) (sid : Nat) (x : VuFly) (m : Mismatch) (rest : List Mismatch) :
    MismatchSeen s (clapperChecks s sid x (m :: rest)) sid x (rest.foldl (fun a b => if b.kind < a.kind then b else a) m) := by
  have hflags : onlyWindow (fun _ => False) sid s (forEach rest (fun y s => s.modSpin sid (fun p => p.spFlag (clapperFlag y))) s) :=
    forEach_mem (onlyWindow (fun _ => False) sid s) _ rest s (fun _ _ _ h => h.trans (onlyWindow.setSpin rfl)) (.refl _ _ _)
  exact (clapper_seen _ _ _ _).after_flags (hflags.trans (onlyWindow.setSpin rfl))

/-! ### The result write (R123, R133) -/

/-- The findings that their checks can make in this cycle, operation by operation (R147). -/
def vuChecks (s : State) (sid : Nat) (fly : List VuFly) (found : List (Nat × Mismatch)) : State :=
  forEach (found.map (·.1)).eraseDups (fun i s => match fly[i]? with
    | some x => clapperChecks s sid x ((found.filter (fun im => im.1 = i && checkable x im.2)).map (·.2))
    | none => s) s

section
variable {fly : List VuFly} {i : Nat} {y : VuFly} (h : fly[i]? = some y) (s : State) (sid : Nat) {m m' : Mismatch}
include h

/-- A finding that its check can make is the cycle's mismatch. -/
theorem vuChecks_seen (hm : checkable y m = true) : MismatchSeen s (vuChecks s sid fly [(i, m)]) sid y m := by
  have hchecks : vuChecks s sid fly [(i, m)] = clapperChecks s sid y [m] := by
    simp [vuChecks, List.eraseDups_cons, forEach, h, hm]
  rw [hchecks]
  exact clapperChecks_seen s sid y m []

theorem vuChecks_uncheckable (hm : checkable y m = false) : vuChecks s sid fly [(i, m)] = s := by
  simp [vuChecks, List.eraseDups_cons, forEach, h, hm, clapperChecks]

/-- Of two findings in one operation the one of the lower KIND is the cycle's mismatch (R77). -/
theorem vuChecks_seen_pair (hm : checkable y m = true) (hm' : checkable y m' = true) :
    MismatchSeen s (vuChecks s sid fly [(i, m), (i, m')]) sid y (if m'.kind < m.kind then m' else m) := by
  have hchecks : vuChecks s sid fly [(i, m), (i, m')] = clapperChecks s sid y [m, m'] := by
    simp [vuChecks, List.eraseDups_cons, forEach, h, hm, hm']
  rw [hchecks]
  exact clapperChecks_seen s sid y m [m']

end

/-- What no store of a vector register, an accumulator lane or a window register changes, a commit leaves. -/
theorem vuCommit_keeps {α : Type} (g : Spindle → α) (hreg : ∀ p r v, g (p.setV r v) = g p) (hacc : ∀ p i l v, g (p.setLa i l v) = g p)
    (hwin : ∀ p k o v, g (p.setW k o v) = g p) (p : Spindle) (x : VuFly) : g (vuCommit p x) = g p := by
  have hiter : ∀ (f : Nat → Spindle → BitVec 128) (i n : Nat) (q : Spindle), g (iter n (fun l q => q.setLa i l (f l q)) q) = g q :=
    fun f i n q => iter_inv (fun r => g r = g q) n _ (fun _ _ h => (hacc _ _ _ _).trans h) q rfl
  have hdst : g (if x.res.mask = 0 then p else p.setV x.dst (BitVec.ofNat 512 (blend (p.vreg x.dst).toNat x.res.val x.res.mask))) = g p := by
    split
    · rfl
    · exact hreg _ _ _
  unfold vuCommit
  dsimp only
  rw [Spindle.addFlags, hwin]
  cases x.res.la with
  | none => exact hdst
  | add i vals => exact (hiter (fun l q => q.lacc i l + nth 0#128 vals l) _ _ _).trans hdst
  | clr i => exact (hiter (fun _ _ => 0#128) _ _ _).trans hdst
  | scl i sc => exact (hwin _ _ _ _).trans ((hiter (fun _ _ => 0#128) _ _ _).trans hdst)
  | regrid i sc vals => exact (hwin _ _ _ _).trans ((hiter (fun l _ => nth 0#128 vals l) _ _ _).trans hdst)

theorem vu_vuCommit (p : Spindle) (x : VuFly) : (vuCommit p x).vu = p.vu :=
  vuCommit_keeps Spindle.vu (fun _ _ _ => rfl) (fun _ _ _ _ => rfl) (fun _ _ _ _ => rfl) p x

theorem mp_vuCommit (p : Spindle) (x : VuFly) : (vuCommit p x).mp = p.mp :=
  vuCommit_keeps Spindle.mp (fun _ _ _ => rfl) (fun _ _ _ _ => rfl) (fun _ _ _ _ => rfl) p x

/-- The one due operation `x` of a spindle has its result written after the cycle's checks; the others stay in the VU. -/
theorem vuResultWrite_due {s : State} {sid : Nat} {x : VuFly} {rest : List VuFly} (hup : spinUp s sid = true) (hvu : (s.spin sid).vu = x :: rest)
    (hleft : x.left = 0) (hrest : ∀ y ∈ rest, y.left ≠ 0) (hmp : ∀ m ∈ (s.spin sid).mp, m.left = 0 → m.reg ≠ x.dst)
    (found : List (Nat × Mismatch))
    (hspin : ((vuChecks s sid (x :: rest) found).spin sid) = { s.spin sid with win := ((vuChecks s sid (x :: rest) found).spin sid).win }) :
    vuResultWrite s sid found = (vuChecks s sid (x :: rest) found).modSpin sid (fun p => { vuCommit p x with vu := rest }) := by
  have hstay : rest.filter (fun y => y.left != 0) = rest := List.filter_eq_self.2 (fun y hy => by simpa using hrest y hy)
  have hdue : (x :: rest).filter (fun y => y.left = 0) = [x] := by
    rw [List.filter_cons_of_pos (by simpa using hleft), List.filter_eq_nil_iff.2 (fun y hy => by simpa using hrest y hy)]
  unfold vuResultWrite
  rw [if_neg (by rw [hup]; decide)]
  change State.modSpin (vuChecks s sid (s.spin sid).vu found) sid _ = _
  rw [hvu, State.modSpin, State.modSpin]
  generalize vuChecks s sid (x :: rest) found = u at hspin ⊢
  have hvu' : (vuCommit (u.spin sid) x).vu = x :: rest := by rw [vu_vuCommit, hspin]; exact hvu
  have hmp' : (vuCommit (u.spin sid) x).mp = (s.spin sid).mp := by rw [mp_vuCommit, hspin]
  have hclash : ∀ m ∈ (vuCommit (u.spin sid) x).mp,
      ¬ (decide (m.left = 0) && [x].any (fun y => y.res.mask != 0 && decide (y.dst = m.reg))) = true := by
    intro m hm
    rw [hmp'] at hm
    simpa using fun h0 _ h => hmp m hm h0 h.symm
  congr 1
  simp only [hdue, List.foldl_cons, List.foldl_nil]
  rw [if_neg (fun h => have ⟨m, hm, h⟩ := List.any_eq_true.1 h; hclash m hm h), hvu', List.filter_cons_of_neg (by simpa using hleft), hstay,
    List.filter_eq_self.2 (fun m hm => by simpa [Decidable.imp_iff_not_or] using hclash m hm)]

/-- The commit of a due operation after checks that leave all of its spindle but the window registers. -/
theorem vuResultWrite_completes {s : State} {sid : SID} {x : VuFly} {rest : List VuFly} (hup : spinUp s sid.toNat = true)
    (hvu : (s.spin sid.toNat).vu = x :: rest) (hleft : x.left = 0) (hrest : ∀ y ∈ rest, y.left ≠ 0)
    (hmp : ∀ m ∈ (s.spin sid.toNat).mp, m.left = 0 → m.reg ≠ x.dst) {found : List (Nat × Mismatch)} {u : State}
    (hu : vuChecks s sid.toNat (x :: rest) found = u) (hspin : u.spin sid.toNat = { s.spin sid.toNat with win := (u.spin sid.toNat).win })
    {P : State → Prop} (hP : P (u.modSpin sid.toNat (fun p => { vuCommit p x with vu := rest }))) :
    completes (.vuResultWrite sid found) s P := by
  subst hu
  exact ⟨_, congrArg Host.Outcome.next (vuResultWrite_due hup hvu hleft hrest hmp found hspin), hP⟩

theorem spinLeaves_vu {p q : Spindle} {k dst : Nat} {r : VuRes} {lane : Bool} (h : spinLeaves p q k dst r lane) (v : List VuFly) :
    spinLeaves p { q with vu := v } k dst r lane := h

/-- What CLAPPER_LAST names of a mismatch, field by field. -/
theorem MismatchSeen.fields {s t : State} {sid : SID} {x : VuFly} {mm : Mismatch} (h : MismatchSeen s t sid.toNat x mm)
    (hnone : s.bget (fcPage s sid.toNat + 0x200) 31 = false) :
    t.bget (fcPage s sid.toNat + 0x200) 31 = true ∧ t.fget (fcPage s sid.toNat + 0x200) 30 28 = mm.kind % 8 ∧
    t.fget (fcPage s sid.toNat + 0x200) 27 24 = laneOf x mm % 16 ∧ t.fget (fcPage s sid.toNat + 0x200) 20 0 = sid.toNat ∧
    t.fget (fcPage s sid.toNat + 0x204) 31 26 = x.op % 64 ∧ t.fget (fcPage s sid.toNat + 0x204) 25 20 = x.act % 64 := by
  obtain ⟨h200, kept, h204⟩ := h.named hnone
  have hsid : sid.toNat < 2 ^ 21 := sid.isLt
  have hkept : kept.toNat < 2 := Bool.toNat_lt kept
  simp only [State.bget, State.fget, h200, h204, getF_ofNat _ (show 30 < 32 by omega), getF_ofNat _ (show 27 < 32 by omega),
    getF_ofNat _ (show 20 < 32 by omega), getF_ofNat _ (show 31 < 32 by omega), getF_ofNat _ (show 25 < 32 by omega),
    getB_ofNat _ (show 31 < 32 by omega), decide_eq_true_eq]
  refine ⟨?_, ?_, ?_, ?_, ?_, ?_⟩ <;> omega

theorem completes_mono {i : Instr} {s : State} {P Q : State → Prop} (h : completes i s P) (hPQ : ∀ t, P t → Q t) : completes i s Q :=
  h.imp fun t ⟨ht, hP⟩ => ⟨ht, hPQ t hP⟩

section
variable {s : State} {sid : SID} {x : VuFly} {rest : List VuFly} (hup : spinUp s sid.toNat = true) (hvu : (s.spin sid.toNat).vu = x :: rest)
  (hleft : x.left = 0) (hrest : ∀ y ∈ rest, y.left ≠ 0) (hply : x.ply < 4) (hmp : ∀ m ∈ (s.spin sid.toNat).mp, m.left = 0 → m.reg ≠ x.dst)
include hup hvu hleft hrest hply hmp

/-- Without a finding that its check can make, the result is written and nothing else. -/
theorem vuResultWrite_clean {found : List (Nat × Mismatch)} (hclean : vuChecks s sid.toNat (x :: rest) found = s) :
    completes (.vuResultWrite sid found) s (fun t =>
      spinLeaves (s.spin sid.toNat) (t.spin sid.toNat) x.ply x.dst x.res false ∧ (t.spin sid.toNat).vu = rest ∧
      (t.spin sid.toNat).mp = (s.spin sid.toNat).mp ∧ onlySpin s t sid.toNat) := by
  refine vuResultWrite_completes hup hvu hleft hrest hmp hclean rfl ?_
  rw [State.spin_modSpin_same]
  exact ⟨spinLeaves_vu (vuCommit_leaves _ _ hply) _, rfl, mp_vuCommit _ _, rfl, fun j hj => State.spin_modSpin_other _ _ hj⟩

/-- The result of the due operation is written after the mismatch of the failed checks of operation `y`, the due one or one behind it. -/
theorem vuResultWrite_seen {found : List (Nat × Mismatch)} {y : VuFly} {mm : Mismatch}
    (hseen : MismatchSeen s (vuChecks s sid.toNat (x :: rest) found) sid.toNat y mm) :
    completes (.vuResultWrite sid found) s (fun t =>
      (∀ v, (t.spin sid.toNat).vreg v = if v = x.dst ∧ x.res.mask ≠ 0 then
        BitVec.ofNat 512 (blend ((s.spin sid.toNat).vreg v).toNat x.res.val x.res.mask) else (s.spin sid.toNat).vreg v) ∧
      (t.spin sid.toNat).vu = rest ∧ getB ((t.spin sid.toNat).wreg 5 0x44) 5 = true ∧ t.bget (fcPage s sid.toNat + 0x18) 7 = true ∧
      (s.bget (fcPage s sid.toNat + 0x200) 31 = false →
        t.bget (fcPage s sid.toNat + 0x200) 31 = true ∧ t.fget (fcPage s sid.toNat + 0x200) 30 28 = mm.kind % 8 ∧
        t.fget (fcPage s sid.toNat + 0x200) 27 24 = laneOf y mm % 16 ∧ t.fget (fcPage s sid.toNat + 0x200) 20 0 = sid.toNat ∧
        t.fget (fcPage s sid.toNat + 0x204) 31 26 = y.op % 64 ∧ t.fget (fcPage s sid.toNat + 0x204) 25 20 = y.act % 64) ∧
      t.belfry.hitsDue = s.belfry.hitsDue ++ [(s.fieldOf sid.toNat * 32768 + locOf s sid.toNat, false, s.tb)] ∧
      (∀ j, j ≠ sid.toNat → t.spin j = s.spin j) ∧ t = { s with spindles := t.spindles, regs := t.regs, belfry := t.belfry }) := by
  refine vuResultWrite_completes hup hvu hleft hrest hmp rfl hseen.spin ?_
  generalize vuChecks s sid.toNat (x :: rest) found = u at hseen ⊢
  obtain ⟨hvreg, -, -, -, -, hwreg⟩ := vuCommit_leaves (u.spin sid.toNat) x hply
  have hreg : ∀ v, (u.spin sid.toNat).vreg v = (s.spin sid.toNat).vreg v := fun v => by rw [hseen.spin]; rfl
  have hflags : (vuCommit (u.spin sid.toNat) x).wreg 5 0x44 = (u.spin sid.toNat).wreg 5 0x44 :=
    hwreg 5 0x44 (by omega) (by omega) (by omega) (by omega)
  rw [State.spin_modSpin_same]
  refine ⟨fun v => ?_, rfl, (congrArg (getB · 5) hflags).trans hseen.flag, hseen.event, hseen.fields, hseen.hit,
    fun j hj => (State.spin_modSpin_other _ _ hj).trans (hseen.other j hj), ?_⟩
  · rw [← hreg]
    exact hvreg v
  · rw [State.modSpin, State.setSpin]
    rw [hseen.frame]

end

/-- Settles O30: the checks of a cycle change the spindle's window registers only, so that the due result is written as without them; their
mismatch is the one named, of the due operation or of one behind it. -/
theorem vuResultIsWritten : Obligations.VuResultIsWritten := by
  intro s sid x rest hup p pg hvu hleft hrest hply hmp
  have written {found y mm} := vuResultWrite_seen (found := found) (y := y) (mm := mm) hup hvu hleft hrest hply hmp
  refine ⟨vuResultWrite_clean hup hvu hleft hrest hply hmp rfl, fun i y m hy hkind hcheck => ?_, fun m hcheck => ?_,
    fun m m' hcheck hcheck' => ?_, fun m hcheck => ?_⟩
  · refine completes_mono (written (vuChecks_seen (i := i + 1) hy s _ hcheck)) ?_
    rintro t ⟨-, hrest, -, hevent, hnamed, hhit, -, -⟩
    refine ⟨hrest, hevent, fun hnone => ?_, hhit⟩
    obtain ⟨-, -, hlane, -, hop, -⟩ := hnamed hnone
    rw [laneOf, if_neg hkind, Nat.mod_mod] at hlane
    exact ⟨hlane, hop⟩
  · exact completes_mono (vuResultWrite_clean hup hvu hleft hrest hply hmp (vuChecks_uncheckable (i := 0) rfl s _ hcheck))
      fun t ⟨hleaves, _, _, honly⟩ => ⟨hleaves, honly⟩
  · refine completes_mono (written (vuChecks_seen_pair (i := 0) rfl s _ hcheck hcheck')) ?_
    rintro t ⟨-, -, -, -, hnamed, hhit, -, -⟩
    refine ⟨hhit, fun hnone => ?_⟩
    obtain ⟨-, hkind, -⟩ := hnamed hnone
    have hmin : (if m'.kind < m.kind then m' else m).kind = min m.kind m'.kind := by split <;> omega
    rw [← hmin]
    exact hkind
  · exact written (vuChecks_seen (i := 0) rfl s _ hcheck)

end Sys2Proof.Machine
end

