-- ==== Sys2Proof/Proofs/VuRows.lean ====
section
/-! PROOF. The rows of the vector unit: each completes and leaves what its line of R130 computes. -/
namespace Sys2Proof.Machine

/-! ### A row and its line of the table -/

/-- A row that runs its VU word with OP `op` does what the line of `op` computes (R130). That it runs this word, and what the line is,
stand in the definitions of `exec` and `vuCompute`, so each use leaves both to `rfl`. -/
theorem vuDoes_of_line {row : SID → BitVec 64 → Instr} {op : Nat} {r : VuW → VuIn → VuRes} (hop : op < 64 := by decide)
    (hexec : ∀ sid vu s, exec (row sid vu) s = .next (vuRow s sid.toNat (withOp vu.toNat op)) := by intros; rfl)
    (hline : ∀ (w : VuW) (x : VuIn), vuCompute { w with op := op } x = r { w with op := op } x := by intros; rfl) :
    vuDoes row op r := by
  intro s sid vu hon hp
  have hleaves := vuRow_leaves s sid.toNat (withOp vu.toNat op) hon hp
  rw [vuDecode_withOp _ _ hop, hline] at hleaves
  exact ⟨_, hexec sid vu s, hleaves⟩

/-- The word of a row of FN: its OP and its PART replaced, the other fields left (R124, R140). -/
theorem vuDecode_withPart_withOp (v part : Nat) (h : part < 16) :
    vuDecode (withPart (withOp v 0x16) part) = { vuDecode v with op := 0x16, part := part } := by
  rw [vuDecode_withPart _ _ h, vuDecode_withOp _ _ (by decide)]

/-- FN with PART `part` evaluates function number `part`, a reserved one included (R140). -/
theorem vuRow_fn_leaves (s : State) (sid v part : Nat) (h : part < 16) (hon : spinOn s sid = true) (hp : (s.spin sid).ply < 4) :
    vuLeaves s (vuRow s sid (withPart (withOp v 0x16) part)) sid { vuDecode v with op := 0x16, part := part }
      (fnRes part { vuDecode v with op := 0x16, part := part } (vuArgs s sid { vuDecode v with op := 0x16, part := part })) := by
  have hleaves := vuRow_leaves s sid (withPart (withOp v 0x16) part) hon hp
  rw [vuDecode_withPart_withOp _ _ h] at hleaves
  exact hleaves

theorem fnDoes_of_exec {row : SID → BitVec 64 → Instr} {part : Nat} (h : part < 16 := by decide)
    (hexec : ∀ sid vu s, exec (row sid vu) s = .next (vuRow s sid.toNat (withPart (withOp vu.toNat 0x16) part)) := by intros; rfl) :
    fnDoes row part (fnRes part) :=
  fun s sid vu hon hp => ⟨_, hexec sid vu s, vuRow_fn_leaves s sid.toNat vu.toNat part h hon hp⟩

/-! ### Operations that the table does not assign -/

/-- The table has no line for an unassigned OP (R125). -/
theorem vuCompute_unassigned {w : VuW} (h : vuAssigned w.op = false) (x : VuIn) : vuCompute w x = { fl := flInvalid } := by
  unfold vuCompute
  split
  case h_36 => rfl
  all_goals
    next hop =>
      rw [hop] at h
      exact absurd h (by decide)

/-- Of its word, what a result leaves depends on DST and on whether the VU executes the OP (R75, R123). -/
theorem vuLeaves_congr {s t : State} {sid : Nat} {w w' : VuW} {r : VuRes} (hdst : w.dst = w'.dst) (hruns : vuRuns w.op = vuRuns w'.op)
    (h : vuLeaves s t sid w r) : vuLeaves s t sid w' r := by
  rw [vuLeaves, ← hdst, ← hruns]
  exact h

/-- An unassigned OP sets INVALID and does nothing else; another unassigned OP in its place does the same (R125). -/
theorem vuRow_unassigned_leaves {s : State} {sid word : Nat} {w : VuW} (hon : spinOn s sid = true) (hp : (s.spin sid).ply < 4)
    (hword : vuAssigned (vuDecode word).op = false) (hdst : (vuDecode word).dst = w.dst) (hw : vuAssigned w.op = false) :
    vuLeaves s (vuRow s sid word) sid w { fl := flInvalid } := by
  have hleaves := vuRow_leaves s sid word hon hp
  rw [vuCompute_unassigned hword] at hleaves
  exact vuLeaves_congr hdst (by rw [vuRuns, vuRuns, hword, hw]; rfl) hleaves

/-- The word on which VU_OP_UNASSIGNED acts: the operand, with OP 0x3F where the table assigns the operand's OP (R125). -/
def unassignedWord (v : Nat) : Nat := if vuAssigned (fld v 63 58) then withOp v 0x3F else v

theorem vuAssigned_op_unassignedWord (v : Nat) : vuAssigned (vuDecode (unassignedWord v)).op = false := by
  unfold unassignedWord
  split
  next =>
    rw [vuDecode_withOp _ _ (by decide)]
    rfl
  next h => exact Bool.eq_false_iff.2 h

theorem dst_unassignedWord (v : Nat) : (vuDecode (unassignedWord v)).dst = (vuDecode v).dst := by
  unfold unassignedWord
  split
  next => rw [vuDecode_withOp _ _ (by decide)]
  next => rfl

/-- The row of an unassigned OP sets INVALID and does nothing else (R125). -/
theorem vuOpUnassigned_completes (s : State) (sid : SID) (vu : BitVec 64) (hon : spinOn s sid.toNat = true) (hp : (s.spin sid.toNat).ply < 4) :
    completes (.vuOpUnassigned sid vu) s (fun t =>
      vuLeaves s t sid.toNat { vuDecode vu.toNat with op := 0x3F } { fl := flInvalid }) :=
  ⟨vuRow s sid.toNat (unassignedWord vu.toNat), rfl,
    vuRow_unassigned_leaves hon hp (vuAssigned_op_unassignedWord _) (dst_unassignedWord _) rfl⟩

/-! ### The statements -/

/-- Settles O1: each row by its line of the table. -/
theorem vuLogicRowsWriteDst : Obligations.VuLogicRowsWriteDst :=
  ⟨vuDoes_of_line, vuDoes_of_line, vuDoes_of_line, vuDoes_of_line, vuDoes_of_line, vuDoes_of_line, vuDoes_of_line⟩

/-- Settles O2: each row by its line of the table. -/
theorem vuArithmeticRowsRoundOnce : Obligations.VuArithmeticRowsRoundOnce :=
  ⟨vuDoes_of_line, vuDoes_of_line, vuDoes_of_line, vuDoes_of_line⟩

/-- Settles O3: each row by its line of the table. -/
theorem vuComparisonRowsCompare : Obligations.VuComparisonRowsCompare :=
  ⟨vuDoes_of_line, vuDoes_of_line, vuDoes_of_line, vuDoes_of_line, vuDoes_of_line⟩

/-- Settles O4: each row by its line of the table. -/
theorem vuConversionRowsConvert : Obligations.VuConversionRowsConvert := by
  have cvt : vuDoes .cvt 0x10 vuCvt := vuDoes_of_line
  have qsc : vuDoes .qsc 0x11 vuQsc := vuDoes_of_line
  have pack : vuDoes .pack 0x12 vuPack := vuDoes_of_line
  have unpack : vuDoes .unpack 0x13 vuUnpack := vuDoes_of_line
  have lutb : vuDoes .lutb 0x14 (vuLut · · true) := vuDoes_of_line
  have lutw : vuDoes .lutw 0x15 (vuLut · · false) := vuDoes_of_line
  intro s sid vu hon hp
  exact ⟨cvt s sid vu hon hp, qsc s sid vu hon hp, pack s sid vu hon hp, unpack s sid vu hon hp, lutb s sid vu hon hp,
    lutw s sid vu hon hp⟩

/-- Settles O5: the rows of the ten functions by their PARTs; a reserved PART is the operand's own, or 0xA where that is lower. -/
theorem vuFunctionRowsEvaluate : Obligations.VuFunctionRowsEvaluate := by
  refine ⟨fnDoes_of_exec, fnDoes_of_exec, fnDoes_of_exec, fnDoes_of_exec, fnDoes_of_exec, fnDoes_of_exec, fnDoes_of_exec,
    fnDoes_of_exec, fnDoes_of_exec, fnDoes_of_exec, fun s sid vu hon hp => ?_⟩
  have hpart : (vuDecode vu.toNat).part < 16 := Nat.mod_lt _ (by decide)
  have hmax : max 0xA (vuDecode vu.toNat).part < 16 := max_lt (by decide) hpart
  exact ⟨max 0xA (vuDecode vu.toNat).part, le_max_left _ _, hmax, max_eq_right,
    _, rfl, vuRow_fn_leaves s sid.toNat vu.toNat _ hmax hon hp⟩

/-- Settles O6: each row by its line of the table. -/
theorem vuAccumulatorRowsAccumulate : Obligations.VuAccumulatorRowsAccumulate := by
  have dotf : vuDoes .dotf 0x22 vuDotf := vuDoes_of_line
  have dotl : vuDoes .dotl 0x23 (vuDotLa · · false) := vuDoes_of_line
  have dotx : vuDoes .dotx 0x24 (vuDotLa · · true) := vuDoes_of_line
  have ladd : vuDoes .ladd 0x28 vuLadd := vuDoes_of_line
  have lclr : vuDoes .lclr 0x29 (fun w _ => { la := .clr w.lai }) := vuDoes_of_line
  have lscl : vuDoes .lscl 0x2A (fun w x => { la := .scl w.lai (scaleArg x) }) := vuDoes_of_line
  have lrgd : vuDoes .lrgd 0x2B vuLrgd := vuDoes_of_line
  have lrd : vuDoes .lrd 0x2C vuLrd := vuDoes_of_line
  intro s sid vu hon hp
  exact ⟨dotf s sid vu hon hp, dotl s sid vu hon hp, dotx s sid vu hon hp, ladd s sid vu hon hp, lclr s sid vu hon hp,
    lscl s sid vu hon hp, lrgd s sid vu hon hp, lrd s sid vu hon hp⟩

/-- Settles O7: each reduction by its line of the table, and an unassigned OP by the want of one. -/
theorem vuReductionRowsReduce : Obligations.VuReductionRowsReduce := by
  have rsum : vuDoes .rsum 0x30 vuReduce := vuDoes_of_line
  have rmax : vuDoes .rmax 0x31 vuReduce := vuDoes_of_line
  have rmin : vuDoes .rmin 0x32 vuReduce := vuDoes_of_line
  have rarg : vuDoes .rarg 0x33 vuArg := vuDoes_of_line
  intro s sid vu hon hp
  exact ⟨rsum s sid vu hon hp, rmax s sid vu hon hp, rmin s sid vu hon hp, rarg s sid vu hon hp,
    vuOpUnassigned_completes s sid vu hon hp⟩

end Sys2Proof.Machine
end

