-- ==== Sys2Proof/Proofs/SpindleRecord.lean ====
section
/-! PROOF. The record of a spindle: what its registers, plies and counters read after each of its stores. -/
namespace Sys2Proof.Machine

namespace State

/-- A state with the same table of spindles has the same spindles. -/
theorem spin_congr {s t : State} (h : t.spindles = s.spindles) (j : Nat) : t.spin j = s.spin j := by
  rw [spin, h]
  rfl

end State

/-- A change of one spindle changes that spindle alone. -/
theorem onlySpin_modSpin (s : State) (k : Nat) (f : Spindle → Spindle) : onlySpin s (s.modSpin k f) k := onlySpin_setSpin _ _ _

/-! ### Plies and their actions (R82, R163) -/

section
variable (p : Spindle)

@[simp] theorem wreg_setCur (k a g o : Nat) : (p.setCur k a).wreg g o = p.wreg g o := rfl
@[simp] theorem saved_setCur (k a j : Nat) : (p.setCur k a).saved j = p.saved j := rfl
@[simp] theorem ctr_setCur (k a j i : Nat) : (p.setCur k a).ctr j i = p.ctr j i := rfl
@[simp] theorem vreg_setCur (k a r : Nat) : (p.setCur k a).vreg r = p.vreg r := rfl
@[simp] theorem ply_setCur (k a : Nat) : (p.setCur k a).ply = p.ply := rfl
@[simp] theorem curAct_setCur_same (k a : Nat) : (p.setCur k a).curAct k = a := SMap.get_set_same _ _ _ _

@[simp] theorem wreg_setActive (k g o : Nat) (b : Bool) : (p.setActive k b).wreg g o = p.wreg g o := rfl
@[simp] theorem saved_setActive (k j : Nat) (b : Bool) : (p.setActive k b).saved j = p.saved j := rfl
@[simp] theorem vreg_setActive (k r : Nat) (b : Bool) : (p.setActive k b).vreg r = p.vreg r := rfl
@[simp] theorem curAct_setActive (k j : Nat) (b : Bool) : (p.setActive k b).curAct j = p.curAct j := rfl
@[simp] theorem ply_setActive (k : Nat) (b : Bool) : (p.setActive k b).ply = p.ply := rfl

theorem entry_lt (k : Nat) : p.entry k < 64 := getF_lt _ _ _

@[simp] theorem saved_setSaved_same (k a : Nat) : (p.setSaved k a).saved k = a % 64 := Spindle.wf_setWf_same _ _ _ _ (by decide)

theorem saved_setSaved_other {j k : Nat} (a : Nat) (h : j ≠ k) : (p.setSaved k a).saved j = p.saved j := wf_setWf_ne _ _ _ _ _ _ (by omega)

/-- SAVED and ENTRY stand in one register, apart (R82). -/
@[simp] theorem entry_setSaved (j k a : Nat) : (p.setSaved k a).entry j = p.entry j := by
  unfold Spindle.entry Spindle.setSaved
  by_cases h : j = k
  · rw [h, Spindle.wf_, Spindle.setWf, Spindle.wreg_setW_same]
    exact getF_putF_apart _ _ (by decide) (by decide)
  · exact wf_setWf_ne _ _ _ _ _ _ (by omega)

/-- A ply that becomes active is the one, and no register of the spindle changes. -/
theorem enterPly_keeps (q : Nat) : (enterPly p q).ply = q ∧ (∀ j, (enterPly p q).saved j = p.saved j) ∧ ∀ r, (enterPly p q).vreg r = p.vreg r := by
  unfold enterPly
  refine ⟨?_, fun j => ?_, fun r => ?_⟩
  · rw [ply_setActive, ply_setCur]
  · rw [saved_setActive, saved_setCur]
    rfl
  · rw [vreg_setActive, vreg_setCur]
    rfl

/-- A ply that becomes active resumes where it was left, or starts when it has not been active since its load (R163, R325). -/
theorem curAct_enterPly (q : Nat) : (enterPly p q).curAct q = if p.wasActive q then p.saved q else p.entry q := by
  unfold enterPly
  rw [curAct_setActive, curAct_setCur_same]
  rfl

theorem ply_switchPly (q next : Nat) : (switchPly p q next).ply = q := (enterPly_keeps _ q).1

theorem vreg_switchPly (q next r : Nat) : (switchPly p q next).vreg r = p.vreg r := (enterPly_keeps _ q).2.2 r

/-- The ply left resumes at `next`. -/
theorem saved_switchPly (q next : Nat) : (switchPly p q next).saved p.ply = next % 64 := by
  rw [switchPly, (enterPly_keeps _ q).2.1, saved_setSaved_same]

theorem curAct_switchPly {q : Nat} (next : Nat) (h : q ≠ p.ply) :
    (switchPly p q next).curAct q = if p.wasActive q then p.saved q else p.entry q := by
  rw [switchPly, curAct_enterPly, saved_setSaved_other _ _ h, entry_setSaved]
  rfl

end

/-- The loop counters below n of ply k become 0; every other register, the active ply and the current actions stay. -/
theorem ctrsCleared_does (k : Nat) {n : Nat} (hn : n ≤ 6) (p : Spindle) :
    let q := iter n (fun i p => p.setCtr k i 0) p
    (∀ i, i < n → q.ctr k i = 0) ∧ (∀ g o, o < 4096 → ¬ (g = 1 + k ∧ ∃ i, i < n ∧ o = 0x64 + 8 * i) → q.wreg g o = p.wreg g o) ∧
      q.ply = p.ply ∧ q.cur = p.cur := by
  induction n with
  | zero => exact ⟨fun _ h => absurd h (Nat.not_lt_zero _), fun _ _ _ _ => rfl, rfl, rfl⟩
  | succ n ih =>
    obtain ⟨hctr, hreg, hply, hcur⟩ := ih (by omega)
    simp only [iter_succ]
    refine ⟨fun i hi => ?_, fun g o ho h => ?_, hply, hcur⟩
    · by_cases e : i = n
      · rw [e]
        exact Spindle.wf_setWf_same _ _ _ _ (by decide)
      · exact (wf_setWf_ne _ _ _ _ _ _ (by omega)).trans (hctr i (by omega))
    · rw [Spindle.setCtr, Spindle.setWf, Spindle.wreg_setW_other _ _ (fun e => h ⟨by omega, n, by omega, by omega⟩)]
      exact hreg g o ho fun ⟨hg, i, hi, he⟩ => h ⟨hg, i, by omega, he⟩

end Sys2Proof.Machine
end

