-- ==== Sys2Proof/Proofs/Calls.lean ====
section
/-! PROOF. Calls: how a call comes to wait in a ringer, how it is issued, and what each code does at its boundary. -/
namespace Sys2Proof.Machine

/-! ### The boundary of a call (R170, R172) -/

/-- Every position of the offered shape has an x below 2,048: a field is at most 255 columns wide (R17). -/
theorem cols_lt (s : State) : s.cols < 256 := by
  have h : s.fget (pGlobal + 0x50) 10 0 < 2 ^ (10 + 1 - 0) := getF_lt _ _ _
  unfold State.cols
  omega

/-- A call selects each spindle once. -/
theorem selected_nodup (s : State) (f : Nat) (c : Call) : (selected s f c).Nodup := by
  unfold selected
  extract_lets x0 x1 y0 y1
  have hx1 : x1 ≤ 2040 := by
    have hcols := cols_lt s
    have hle : x1 ≤ (f % 8 + 1) * s.cols := min_le_right _ _
    have hmul : (f % 8 + 1) * s.cols ≤ 8 * 255 := Nat.mul_le_mul (by omega) (by omega)
    omega
  have hat : ∀ j i i', i < x1 - x0 → i' < x1 - x0 → ∀ j', sidAt (x0 + i) (y0 + j) = sidAt (x0 + i') (y0 + j') → i = i' ∧ j = j' := by
    intro j i i' hi hi' j' h
    unfold sidAt at h
    omega
  refine List.Nodup.filter _ (List.nodup_flatten.2 ⟨fun l hl => ?_, ?_⟩)
  · obtain ⟨j, -, rfl⟩ := List.mem_map.1 hl
    refine List.nodup_range.map_on fun i hi i' hi' h => ?_
    exact (hat j i i' (List.mem_range.1 hi) (List.mem_range.1 hi') j h).1
  · refine List.pairwise_map.2 (List.nodup_range.imp fun hne => ?_)
    refine List.disjoint_left.2 fun n hn hn' => hne ?_
    obtain ⟨i, hi, rfl⟩ := List.mem_map.1 hn
    obtain ⟨i', hi', h⟩ := List.mem_map.1 hn'
    exact (hat _ i i' (List.mem_range.1 hi) (List.mem_range.1 hi') _ h.symm).2

/-- `t` is `s` but for spindle `n`, whose two records `R` relates, and for registers that satisfy `p`. -/
structure SpindleStep (R : Spindle → Spindle → Prop) (p : Nat → Prop) (n : Nat) (s t : State) : Prop where
  spin : R (s.spin n) (t.spin n)
  other : ∀ j, j ≠ n → t.spin j = s.spin j
  regs : sameRegs p s t
  frame : t = { s with regs := t.regs, spindles := t.spindles }

theorem SpindleStep.of_modSpin {R : Spindle → Spindle → Prop} (p : Nat → Prop) (n : Nat) (s : State) {g : Spindle → Spindle}
    (h : R (s.spin n) (g (s.spin n))) : SpindleStep R p n s (s.modSpin n g) :=
  ⟨by rw [State.spin_modSpin_same]; exact h, fun _ hj => State.spin_modSpin_other _ _ hj, fun _ _ => rfl, rfl⟩

/-- A walk over spindles steps each of them, and no other. -/
theorem forEach_spindles {R : Spindle → Spindle → Prop} {p : Nat → Prop} {eff : Nat → State → State}
    (heff : ∀ n s, SpindleStep R p n s (eff n s)) : ∀ (l : List Nat), l.Nodup → ∀ s,
      (∀ n ∈ l, R (s.spin n) ((forEach l eff s).spin n)) ∧ (∀ n, n ∉ l → (forEach l eff s).spin n = s.spin n) ∧
      sameRegs p s (forEach l eff s) ∧ forEach l eff s = { s with regs := (forEach l eff s).regs, spindles := (forEach l eff s).spindles }
  | [], _, _ => ⟨fun _ h => absurd h (List.not_mem_nil), fun _ _ => rfl, fun _ _ => rfl, rfl⟩
  | a :: l, hnd, s => by
    obtain ⟨ha, hl⟩ := List.nodup_cons.1 hnd
    obtain ⟨hspin, hother, hregs, hframe⟩ := heff a s
    obtain ⟨ihsel, ihother, ihregs, ihframe⟩ := forEach_spindles heff l hl (eff a s)
    change (∀ n ∈ a :: l, R _ ((forEach l eff (eff a s)).spin n)) ∧ (∀ n, n ∉ a :: l → (forEach l eff (eff a s)).spin n = _) ∧
      sameRegs p s (forEach l eff (eff a s)) ∧ forEach l eff (eff a s) =
        { s with regs := (forEach l eff (eff a s)).regs, spindles := (forEach l eff (eff a s)).spindles }
    refine ⟨fun n hn => ?_, fun n hn => ?_, fun o ho => (ihregs o ho).trans (hregs o ho), ?_⟩
    · rcases List.mem_cons.1 hn with rfl | hn
      · rw [ihother n ha]
        exact hspin
      · rw [← hother n (fun e => ha (e ▸ hn))]
        exact ihsel n hn
    · rw [List.mem_cons, not_or] at hn
      rw [ihother n hn.2, hother n hn.1]
    · rw [ihframe, hframe]

/-- The oldest issued call of ringer f has left, and RG_LAST_TB is recorded. -/
def callLeft (s : State) (f : Nat) (rest : List Call) : State :=
  ((s.setRinger f { s.ringer f with issued := rest }).setReg (pRinger f + 0x60) (s.reg (pTb + 0x40))).setReg (pRinger f + 0x64)
    (s.reg (pTb + 0x44))

theorem callLeft_spindles (s : State) (f : Nat) (rest : List Call) : (callLeft s f rest).spindles = s.spindles := by
  rw [callLeft, State.setReg_spindles, State.setReg_spindles, State.setRinger_spindles]

theorem onlyRegs_setReg_setReg (s : State) (a b : Nat) (v w : Word) : onlyRegs s ((s.setReg a v).setReg b w) := rfl

theorem callLeft_frame (s : State) (f : Nat) (rest : List Call) :
    onlyRegs (s.setRinger f { s.ringer f with issued := rest }) (callLeft s f rest) := by
  rw [callLeft]
  exact onlyRegs_setReg_setReg _ _ _ _ _

/-- The boundary of the oldest issued call. -/
theorem callEffect_issued {s : State} {f : Nat} {c : Call} {rest : List Call} {codes : Nat → Bool} (eff : Call → Nat → State → State)
    (hissued : (s.ringer f).issued = c :: rest) (hcode : codes c.code = true) (hdelay : loadDelayed s f c = false) :
    callEffect s f codes eff = forEach (selected s f c) (eff c) (callLeft s f rest) := by
  unfold callEffect
  simp only [hissued, hcode, hdelay, Bool.not_true, Bool.or_self, Bool.false_eq_true, if_false]
  rfl

/-- RG_LAST_TB of a ringer, which its own calls record, is no other register of a call. -/
def sparesLastTb (regs : Nat → Nat → Prop) : Prop := ∀ f, ¬ regs f (pRinger f + 0x60) ∧ ¬ regs f (pRinger f + 0x64)

/-- What the boundary of a call leaves, of what it does to each selected spindle. -/
theorem callEffect_runs {codes : Nat → Bool} {eff : Call → Nat → State → State} {R : Call → Spindle → Spindle → Prop} {regs : Nat → Nat → Prop}
    (hspare : sparesLastTb regs) {f : Nat} (heff : ∀ c n s, SpindleStep (R c) (regs f) n s (eff c n s)) {s : State} {c : Call} {rest : List Call}
    (hissued : (s.ringer f).issued = c :: rest) (hcode : codes c.code = true) (hdelay : loadDelayed s f c = false) :
    let t := callEffect s f codes eff
    t.ringer f = { s.ringer f with issued := rest } ∧ (∀ g, g ≠ f → t.ringer g = s.ringer g) ∧
      t.reg (pRinger f + 0x60) = s.reg (pTb + 0x40) ∧ t.reg (pRinger f + 0x64) = s.reg (pTb + 0x44) ∧
      (∀ n, n ∈ selected s f c → R c (s.spin n) (t.spin n)) ∧ (∀ n, n ∉ selected s f c → t.spin n = s.spin n) ∧
      sameRegs (fun o => o = pRinger f + 0x60 ∨ o = pRinger f + 0x64 ∨ regs f o) s t ∧
      t = { s with regs := t.regs, ringers := t.ringers, spindles := t.spindles } := by
  obtain ⟨hsel, hother, hregs, hframe⟩ := forEach_spindles (heff c) (selected s f c) (selected_nodup s f c) (callLeft s f rest)
  rw [← callEffect_issued (codes := codes) eff hissued hcode hdelay] at hsel hother hregs hframe
  have hspin := State.spin_congr (callLeft_spindles s f rest)
  obtain ⟨h60, h64⟩ := hspare f
  dsimp only
  generalize callEffect s f codes eff = t at hsel hother hregs hframe ⊢
  have hringer : ∀ g, t.ringer g = (s.setRinger f { s.ringer f with issued := rest }).ringer g := fun g => by
    rw [State.ringer, hframe, callLeft_frame]
    rfl
  refine ⟨?_, fun g hg => ?_, ?_, ?_, fun n hn => ?_, fun n hn => ?_, fun o ho => ?_, ?_⟩
  · rw [hringer, State.ringer_setRinger_same]
  · rw [hringer, State.ringer_setRinger_other _ _ hg]
  · rw [hregs _ h60, callLeft, State.reg_setReg_other _ _ (by omega), State.reg_setReg_same]
  · rw [hregs _ h64, callLeft, State.reg_setReg_same]
  · rw [← hspin]
    exact hsel n hn
  · rw [← hspin]
    exact hother n hn
  · rw [not_or, not_or] at ho
    rw [hregs o ho.2.2, callLeft, State.reg_setReg_other _ _ ho.2.1, State.reg_setReg_other _ _ ho.1, State.reg_setRinger]
  · rw [hframe, callLeft_frame s f rest]
    rfl

/-- The row of a call code whose effect steps each selected spindle. -/
theorem callRuns_of_step {row : Fin 64 → Instr} {code : Nat} {eff : Call → Nat → State → State} {R : Call → Spindle → Spindle → Prop}
    {regs : Nat → Nat → Prop} (hspare : sparesLastTb regs) (heff : ∀ f c n s, SpindleStep (R c) (regs f) n s (eff c n s))
    (hexec : ∀ f s, exec (row f) s = .next (callEffect s f.val (fun k => k = code) eff) := by intros; rfl) :
    callRuns row (· = code) R regs := by
  intro s f c rest hissued hcode hdelay
  exact ⟨_, hexec f s, callEffect_runs hspare (heff f.val) hissued (decide_eq_true hcode) hdelay⟩

theorem sparesLastTb_none : sparesLastTb (fun _ _ => False) := fun _ => ⟨not_false, not_false⟩

/-! ### What each code does to a spindle (R167) -/

theorem callSwitch_does (c : Call) (p : Spindle) : (c.ply = p.ply → callSwitch p c.ply = p) ∧ (c.ply ≠ p.ply →
    (callSwitch p c.ply).ply = c.ply ∧ (callSwitch p c.ply).saved p.ply = p.curAct p.ply % 64 ∧
    (callSwitch p c.ply).curAct c.ply = (if p.wasActive c.ply then p.saved c.ply else p.entry c.ply) ∧
    ∀ r, (callSwitch p c.ply).vreg r = p.vreg r) := by
  refine ⟨fun h => if_pos h.symm, fun h => ?_⟩
  rw [callSwitch, if_neg (Ne.symm h)]
  exact ⟨ply_switchPly _ _ _, saved_switchPly _ _ _, curAct_switchPly _ _ h, vreg_switchPly _ _ _⟩

theorem restartPly_does (k : Nat) (p : Spindle) : (p.loaded k = false → restartPly p k = p) ∧ (p.loaded k = true →
    (restartPly p k).saved k = p.entry k ∧ (∀ i, i < 6 → (restartPly p k).ctr k i = 0) ∧ (restartPly p k).ply = p.ply ∧
    (restartPly p k).curAct p.ply = (if p.ply = k then p.entry k else p.curAct p.ply)) := by
  obtain ⟨hctr, hreg, hply, hcur⟩ := ctrsCleared_does k (le_refl 6) (p.setSaved k (p.entry k))
  unfold restartPly
  generalize iter 6 (fun i p => p.setCtr k i 0) (p.setSaved k (p.entry k)) = q at hctr hreg hply hcur ⊢
  have hword : q.wreg (1 + k) 0x4C = (p.setSaved k (p.entry k)).wreg (1 + k) 0x4C := hreg _ _ (by omega) (by omega)
  have hsaved : q.saved k = p.entry k := by
    rw [Spindle.saved, Spindle.wf_, hword]
    exact (saved_setSaved_same _ _ _).trans (Nat.mod_eq_of_lt (entry_lt _ _))
  have hentry : q.entry k = p.entry k := by
    rw [Spindle.entry, Spindle.wf_, hword]
    exact entry_setSaved _ _ _ _
  have hply : q.ply = p.ply := hply
  refine ⟨fun h => if_pos (by rw [h]; decide), fun h => ?_⟩
  dsimp only
  rw [if_neg (by rw [h]; decide), hentry, hply]
  split
  next hk =>
    refine ⟨(saved_setCur _ _ _ _).trans hsaved, fun i hi => (ctr_setCur _ _ _ _ _).trans (hctr i hi), (ply_setCur _ _ _).trans hply, ?_⟩
    rw [hk]
    exact curAct_setCur_same _ _ _
  next =>
    refine ⟨hsaved, hctr, hply, ?_⟩
    rw [Spindle.curAct, hcur]
    rfl

theorem tap_lt (p : Spindle) (i : Nat) : p.tap i < 2 ^ 16 := by
  have h : p.tap i < 2 ^ (16 * (i % 2) + 15 + 1 - 16 * (i % 2)) := getF_lt _ _ _
  rwa [show 16 * (i % 2) + 15 + 1 - 16 * (i % 2) = 16 by omega] at h

/-- What a call adds to the taps of a spindle. -/
theorem tapAdd_adds (s : State) (sid t n : Nat) {i : Nat} (hi : i < 16) :
    ((tapAdd s sid t n).spin sid).tap i = ((s.spin sid).tap i + if i = t then n else 0) % 2 ^ 16 := by
  rw [tapAdd_taps s sid t n i hi]
  split
  next h => rw [h]
  next => rw [Nat.add_zero, Nat.mod_eq_of_lt (tap_lt _ _)]

theorem callLoad_steps (c : Call) (n : Nat) (s : State) : SpindleStep
    (fun p q => q = { p with loadWait := some (c.ply, c.arg % 2048, c.ply != p.was || !(p.loaded c.ply || p.loading c.ply)) })
    (fun _ => False) n s (requestLoad s n c.ply (c.arg % 2048) (s.spin n).was) :=
  SpindleStep.of_modSpin _ _ _ (by rw [Nat.mod_mod])

namespace SpindleStep

variable {R : Spindle → Spindle → Prop} {p : Nat → Prop} {n : Nat} {s t : State}

/-- Another record of the spindle. -/
theorem setSpin (h : SpindleStep (fun _ _ => True) p n s t) (q : Spindle) : SpindleStep (fun _ _ => True) p n s (t.setSpin n q) := by
  obtain ⟨-, hother, hregs, hframe⟩ := h
  refine ⟨trivial, fun j hj => (State.spin_setSpin_other _ _ hj).trans (hother j hj), hregs, ?_⟩
  rw [State.setSpin, hframe]

/-- An event among the registers of the step. -/
theorem raiseIf (h : SpindleStep R p n s t) {pg : Nat} (h18 : p (pg + 0x18)) (h1C : p (pg + 0x1C)) (c : Bool) (b : Nat) :
    SpindleStep R p n s (t.raiseIf c pg b) := by
  obtain ⟨hspin, hother, hregs, hframe⟩ := h
  have hraise : onlyRegs t (t.raiseIf c pg b) := State.onlyRegs_raiseIf _ _ _ _
  refine ⟨?_, fun j hj => (spin_raiseIf _ _ _ _ _).trans (hother j hj), fun o ho => ?_, ?_⟩
  · rw [spin_raiseIf]
    exact hspin
  · rw [State.reg_raiseIf_other _ _ _ _ (fun e => ho (by rw [e]; exact h18)) (fun e => ho (by rw [e]; exact h1C))]
    exact hregs o ho
  · rw [hraise, hframe]

/-- A step that changes nothing. -/
theorem refl (hR : ∀ q, R q q) : SpindleStep R p n s s := ⟨hR _, fun _ _ => rfl, fun _ _ => rfl, rfl⟩

end SpindleStep

/-- An increment changes the tap's spindle, and raises events of its field (R73). -/
theorem tapAdd_steps (s : State) (sid t n : Nat) :
    SpindleStep (fun _ _ => True) (fun o => ∃ f, o = pField f + 0x18 ∨ o = pField f + 0x1C) sid s (tapAdd s sid t n) := by
  have hstart := (SpindleStep.refl (s := s) (n := sid) (p := fun o => ∃ f, o = pField f + 0x18 ∨ o = pField f + 0x1C)
    (R := fun _ _ => True) (fun _ => trivial)).setSpin
  unfold tapAdd
  dsimp only
  split
  · exact hstart _
  · refine forEach_inv (SpindleStep (fun _ _ => True) _ sid s) _ (fun kq u hu => ?_) _ _ (hstart _)
    exact (hu.setSpin _).raiseIf ⟨_, .inl rfl⟩ ⟨_, .inr rfl⟩ _ _

theorem callTapAdd_steps (c : Call) (n : Nat) (s : State) : SpindleStep
    (fun p q => ∀ i, i < 16 → q.tap i = (p.tap i + if i = fld c.arg 15 12 then fld c.arg 11 0 else 0) % 2 ^ 16)
    (fun o => ∃ f, o = pField f + 0x18 ∨ o = pField f + 0x1C) n s (tapAdd s n (fld c.arg 15 12) (fld c.arg 11 0)) :=
  let h := tapAdd_steps s n (fld c.arg 15 12) (fld c.arg 11 0)
  ⟨fun _ hi => tapAdd_adds _ _ _ _ hi, h.other, h.regs, h.frame⟩

/-- The ringer pages stand above the field pages. -/
theorem sparesLastTb_fields : sparesLastTb (fun _ o => ∃ f, o = pField f + 0x18 ∨ o = pField f + 0x1C) := fun f =>
  ⟨fun ⟨g, h⟩ => by simp only [pRinger, pField, fieldBase] at h; omega, fun ⟨g, h⟩ => by simp only [pRinger, pField, fieldBase] at h; omega⟩

/-! ### A call whose code is reserved (R167) -/

/-- The boundary of a call with a reserved code changes no spindle, and raises an event of its ringer. -/
theorem execCallBad_reserved {s : State} {f : Fin 64} {c : Call} {rest : List Call} (hissued : (s.ringer f.val).issued = c :: rest)
    (hcode : 7 ≤ c.code) :
    exec (.callBad f) s = .next ((callEffect s f.val (fun k => decide (7 ≤ k)) (fun _ _ s => s)).raise (pRinger f.val) 2) := by
  change execCallBad f s = _
  unfold execCallBad
  simp only [hissued, hcode, if_true]

theorem callBad_runs : callRuns .callBad (7 ≤ ·) (fun _ p q => q = p) (fun f o => o = pRinger f + 0x18 ∨ o = pRinger f + 0x1C) := by
  intro s f c rest hissued hcode hdelay
  refine ⟨_, execCallBad_reserved hissued hcode, ?_⟩
  have hruns := callEffect_runs (R := fun _ p q => q = p) sparesLastTb_none (f := f.val)
    (fun c n s => SpindleStep.refl (fun _ => rfl)) hissued (codes := fun k => decide (7 ≤ k)) (decide_eq_true hcode) hdelay
  dsimp only at hruns
  generalize callEffect s f.val (fun k => decide (7 ≤ k)) (fun _ _ s => s) = t at hruns ⊢
  obtain ⟨hown, hrings, h60, h64, hsel, hother, hregs, hframe⟩ := hruns
  have hraise : onlyRegs t (t.raise (pRinger f.val) 2) := State.onlyRegs_raise _ _ _
  have hring : ∀ g, (t.raise (pRinger f.val) 2).ringer g = t.ringer g := fun g => by rw [State.ringer, State.raise_ringers]; rfl
  refine ⟨?_, fun g hg => ?_, ?_, ?_, fun n hn => ?_, fun n hn => ?_, fun o ho => ?_, ?_⟩
  · rw [hring, hown]
  · rw [hring, hrings g hg]
  · rw [State.reg_raise_other _ _ _ (by omega) (by omega), h60]
  · rw [State.reg_raise_other _ _ _ (by omega) (by omega), h64]
  · rw [State.spin_raise, hsel n hn]
  · rw [State.spin_raise, hother n hn]
  · rw [not_or, not_or, not_or] at ho
    obtain ⟨ho60, ho64, ho18, ho1C⟩ := ho
    rw [State.reg_raise_other _ _ _ ho18 ho1C]
    exact hregs o (by simp [ho60, ho64])
  · rw [hraise, hframe]

theorem callBad_raises (s : State) (f : Fin 64) (c : Call) (rest : List Call) (hissued : (s.ringer f.val).issued = c :: rest)
    (hcode : 7 ≤ c.code) : completes (.callBad f) s (fun t => t.bget (pRinger f.val + 0x18) 2 = true) :=
  ⟨_, execCallBad_reserved hissued hcode, State.bget_raise _ _ (by decide)⟩

/-- Settles O33: a call is the step that its code makes of each selected spindle, at most once of each. -/
theorem callCodesTakeEffect : Obligations.CallCodesTakeEffect := by
  refine ⟨?nop, ?switch, ?load, ?restart, ?tapAdd, ?hold, ?release, callBad_runs, callBad_raises⟩
  case nop => exact callRuns_of_step sparesLastTb_none (eff := fun _ _ s => s) (fun _ _ _ _ => SpindleStep.refl fun _ => rfl)
  case switch => exact callRuns_of_step sparesLastTb_none (fun _ c _ _ => SpindleStep.of_modSpin _ _ _ (callSwitch_does c _))
  case load => exact callRuns_of_step sparesLastTb_none (fun _ c n s => callLoad_steps c n s)
  case restart => exact callRuns_of_step sparesLastTb_none (fun _ c _ _ => SpindleStep.of_modSpin _ _ _ (restartPly_does c.ply _))
  case tapAdd => exact callRuns_of_step sparesLastTb_fields (fun _ c n s => callTapAdd_steps c n s)
  case hold => exact callRuns_of_step sparesLastTb_none (fun _ _ _ _ => SpindleStep.of_modSpin _ _ _ rfl)
  case release => exact callRuns_of_step sparesLastTb_none (fun _ _ _ _ => SpindleStep.of_modSpin _ _ _ rfl)

end Sys2Proof.Machine
end

