-- ==== Sys2Proof/Proofs/Ringers.lean ====
section
/-! PROOF. Ringers: how a call comes to wait, from RG_GO, a watch or the call tree, and how it is issued. -/
namespace Sys2Proof.Machine

/-- A walk over the first n ringers changes each of them once. -/
theorem forEach_ringers (h : Nat → Ringer → Ringer) (s : State) (n : Nat) :
    let t := forEach (List.range n) (fun g s => s.setRinger g (h g (s.ringer g))) s
    (∀ g, t.ringer g = if g < n then h g (s.ringer g) else s.ringer g) ∧ t = { s with ringers := t.ringers } := by
  induction n with
  | zero => exact ⟨fun _ => rfl, rfl⟩
  | succ n ih =>
    have hstep : forEach (List.range (n + 1)) (fun g s => s.setRinger g (h g (s.ringer g))) s =
        (forEach (List.range n) (fun g s => s.setRinger g (h g (s.ringer g))) s).setRinger n
          (h n ((forEach (List.range n) (fun g s => s.setRinger g (h g (s.ringer g))) s).ringer n)) := by
      unfold forEach
      rw [List.range_succ, List.foldl_append, List.foldl_cons, List.foldl_nil]
    dsimp only
    rw [hstep]
    generalize forEach (List.range n) (fun g s => s.setRinger g (h g (s.ringer g))) s = t at ih ⊢
    obtain ⟨hring, hframe⟩ := ih
    refine ⟨fun g => ?_, ?_⟩
    · by_cases hg : g = n
      · rw [hg, State.ringer_setRinger_same, hring, if_neg (by omega), if_pos (by omega)]
      · rw [State.ringer_setRinger_other _ _ hg, hring]
        exact if_congr (by omega) rfl rfl
    · rw [hframe]
      rfl

/-- A ringer's record and registers have changed. -/
theorem ringer_regs_frame {s u : State} (f : Nat) (r : Ringer) (h : onlyRegs (s.setRinger f r) u) : u = { s with regs := u.regs, ringers := u.ringers } := by
  rw [h]
  rfl

/-- The counter of accepted calls steps, and no ringer changes (R169). -/
theorem callCounted (s : State) (f : Nat) (g : Nat) : (s.bump48 (pRinger f) (pRinger f + 0x58) 1).ringer g = s.ringer g := by
  rw [State.ringer, State.bump48_ringers]
  rfl

/-- RG_CALLS after one more call. -/
theorem reg_callCounted (s : State) (f : Nat) :
    (s.bump48 (pRinger f) (pRinger f + 0x58) 1).reg (pRinger f + 0x58) = s.reg (pRinger f + 0x58) + 1#32 :=
  State.reg_bump48_lo _ _ _ _ (by omega) (by omega)

/-- An accepted call is counted; it waits in its ringer, or goes up the call tree (R169, R171). -/
theorem acceptCall_does (s : State) (f : Nat) (c : Call) :
    let t := acceptCall s f c
    t.reg (pRinger f + 0x58) = s.reg (pRinger f + 0x58) + 1#32 ∧
      (c.wafer = false → t.ringer f = { s.ringer f with calls := (s.ringer f).calls ++ [c] } ∧ ∀ g, g ≠ f → t.ringer g = s.ringer g) ∧
      (c.wafer = true → ∀ g, g < 64 → t.ringer g = { s.ringer g with tree := (s.ringer g).tree ++ [(c, decide (g = f))] }) ∧
      t = { s with regs := t.regs, ringers := t.ringers } := by
  have hreg := reg_callCounted s f
  have hring := callCounted s f
  have honly : onlyRegs s (s.bump48 (pRinger f) (pRinger f + 0x58) 1) := State.onlyRegs_bump48 _ _ _ _
  unfold acceptCall
  dsimp only
  generalize s.bump48 (pRinger f) (pRinger f + 0x58) 1 = u at hreg hring honly ⊢
  cases hc : c.wafer with
  | false =>
    rw [if_neg Bool.false_ne_true]
    refine ⟨hreg, fun _ => ⟨?_, fun g hg => ?_⟩, nofun, ?_⟩
    · rw [State.ringer_setRinger_same, hring]
    · rw [State.ringer_setRinger_other _ _ hg, hring]
    · rw [honly]
      rfl
  | true =>
    rw [if_pos rfl]
    obtain ⟨htree, hframe⟩ := forEach_ringers (fun g r => { r with tree := r.tree ++ [(c, decide (g = f))] }) u 64
    generalize forEach (List.range 64) _ u = t at htree hframe ⊢
    refine ⟨?_, nofun, fun _ g hg => ?_, ?_⟩
    · rw [hframe]
      exact hreg
    · rw [htree, if_pos hg, hring]
    · rw [hframe, honly]

/-! ### RG_GO (R166, R169) -/

theorem writeBlock_rgGo (s : State) (rq : Req) (b f : Nat) (fs : List RField) (v : Word) :
    writeBlock s rq ⟨.ringer, b, 0x21, f, 0⟩ 0x4C fs v 1#32 = ringerGo s f := by
  unfold writeBlock
  dsimp only
  rw [if_pos rfl, if_pos (by decide)]

theorem writeReg_rgGo {s : State} {f : Fin 64} (port : Fin 4) {pg : Page} {fs : List RField} (hs : Serves s (pRinger f.val + 0x4C) pg fs) :
    writeReg s ⟨port, false⟩ (pRinger f.val + 0x4C) 1#32 = ringerGo s f.val := by
  obtain rfl : pg = ⟨.ringer, pRinger f.val, 0x21, f.val, 0⟩ := Option.some.inj (hs.page.symm.trans (locate_ringer f.isLt (by omega)))
  have hsub : pRinger f.val + 0x4C - pRinger f.val = 0x4C := Nat.add_sub_cancel_left _ _
  obtain ⟨u, -, hu, hw⟩ := writeReg_serves (rq := ⟨port, false⟩) 1#32 hs (foreign_plain nofun nofun nofun) nofun (writable_priv _ _ _)
    (by rw [hsub]; decide)
  rw [hw, hu rfl, hsub, writeBlock_rgGo]

/-- What an event of the ringer leaves. -/
theorem ringerEvent_does (s : State) (f : Nat) {b : Nat} (hb : b < 32) : (s.raise (pRinger f) b).bget (pRinger f + 0x18) b = true ∧
    onlyRegsAt (fun o => o = pRinger f + 0x18 ∨ o = pRinger f + 0x1C) s (s.raise (pRinger f) b) := by
  refine ⟨State.bget_raise _ _ hb, State.onlyRegs_raise _ _ _, fun o ho => ?_⟩
  rw [not_or] at ho
  exact State.reg_raise_other _ _ _ ho.1 ho.2

theorem ringerGo_full {s : State} {f : Nat} (h : 16 ≤ (s.ringer f).calls.length) : ringerGo s f = s.raise (pRinger f) 0 := if_pos h

theorem ringerGo_refused {s : State} {f : Nat} (h : (s.ringer f).calls.length < 16)
    (hr : callRefused s f (callOf (s.reg (pRinger f + 0x40)) (s.reg (pRinger f + 0x44)) (s.reg (pRinger f + 0x48))) = true) :
    ringerGo s f = s.raise (pRinger f) 1 := (if_neg (Nat.not_le.2 h)).trans (if_pos hr)

theorem ringerGo_accepted {s : State} {f : Nat} (h : (s.ringer f).calls.length < 16)
    (hr : callRefused s f (callOf (s.reg (pRinger f + 0x40)) (s.reg (pRinger f + 0x44)) (s.reg (pRinger f + 0x48))) = false) :
    ringerGo s f = acceptCall s f (callOf (s.reg (pRinger f + 0x40)) (s.reg (pRinger f + 0x44)) (s.reg (pRinger f + 0x48))) :=
  (if_neg (Nat.not_le.2 h)).trans (if_neg (Bool.eq_false_iff.1 hr))

/-! ### A watch's call, the call tree, and the issue (R170, R171, R249) -/

theorem watchCallAccept_accepts {s : State} {f w : Nat} {c : Call} {rest : List (Nat × Call)} (hheld : (s.ringer f).held = (w, c) :: rest)
    (hroom : (s.ringer f).calls.length < 16) (hok : watchClaimed s f w = true ∨ callRefused s f c = false) :
    watchCallAccept s f = acceptCall (s.setRinger f { s.ringer f with held := rest }) f c := by
  unfold watchCallAccept
  simp only [hheld, if_neg (Nat.not_le.2 hroom)]
  refine if_neg ?_
  rcases hok with h | h <;> rw [h] <;> simp

theorem watchCall_does {s : State} {f w : Nat} {c : Call} {rest : List (Nat × Call)} (hheld : (s.ringer f).held = (w, c) :: rest)
    (hroom : (s.ringer f).calls.length < 16) (hok : watchClaimed s f w = true ∨ callRefused s f c = false) (hfield : c.wafer = false) :
    let t := watchCallAccept s f
    t.ringer f = { s.ringer f with held := rest, calls := (s.ringer f).calls ++ [c] } ∧ (∀ g, g ≠ f → t.ringer g = s.ringer g) ∧
      t.reg (pRinger f + 0x58) = s.reg (pRinger f + 0x58) + 1#32 ∧ t = { s with regs := t.regs, ringers := t.ringers } := by
  rw [watchCallAccept_accepts hheld hroom hok]
  obtain ⟨hreg, hown, -, hframe⟩ := acceptCall_does (s.setRinger f { s.ringer f with held := rest }) f c
  obtain ⟨hring, hother⟩ := hown hfield
  refine ⟨?_, fun g hg => ?_, hreg, hframe⟩
  · rw [hring, State.ringer_setRinger_same]
  · rw [hother g hg, State.ringer_setRinger_other _ _ hg]

theorem waferDeliver_does {s : State} {f : Nat} {c : Call} {own : Bool} {rest : List (Call × Bool)}
    (htree : (s.ringer f).tree = (c, own) :: rest) (hroom : (s.ringer f).calls.length < 20) :
    let t := waferDeliver s f
    t.ringer f = { s.ringer f with tree := rest, calls := (s.ringer f).calls ++ [c] } ∧ (∀ g, g ≠ f → t.ringer g = s.ringer g) ∧
      t.reg (pRinger f + 0x58) = (if own then s.reg (pRinger f + 0x58) else s.reg (pRinger f + 0x58) + 1#32) ∧
      t = { s with regs := t.regs, ringers := t.ringers } := by
  unfold waferDeliver
  simp only [htree, if_neg (Nat.not_le.2 hroom)]
  generalize hr : ({ s.ringer f with tree := rest, calls := (s.ringer f).calls ++ [c] } : Ringer) = r
  have hown := State.ringer_setRinger_same s f r
  have hother : ∀ g, g ≠ f → (s.setRinger f r).ringer g = s.ringer g := fun g hg => State.ringer_setRinger_other _ _ hg
  cases own with
  | true =>
    simp only [if_true]
    exact ⟨hown, hother, State.reg_setRinger _ _ _ _, ringer_regs_frame f r rfl⟩
  | false =>
    simp only [Bool.false_eq_true, if_false]
    refine ⟨(callCounted _ _ _).trans hown, fun g hg => (callCounted _ _ _).trans (hother g hg), ?_, ?_⟩
    · rw [reg_callCounted, State.reg_setRinger]
    · exact ringer_regs_frame f r (State.onlyRegs_bump48 _ _ _ _)

theorem callIssue_does {s : State} {f : Nat} {c : Call} {rest : List Call} (hcalls : (s.ringer f).calls = c :: rest)
    (hdelay : loadDelayed s f c = false) :
    callIssue s f = s.setRinger f { s.ringer f with calls := rest, issued := (s.ringer f).issued ++ [c] } := by
  unfold callIssue
  simp only [hcalls, hdelay, Bool.false_eq_true, if_false]

/-- Settles O32. -/
theorem ringerTakesCalls : Obligations.RingerTakesCalls := by
  intro s f
  dsimp only
  refine ⟨fun port pg fs hs => ?go, fun w c rest hheld hroom hok hfield => ?watch, fun c own rest htree hroom => ?tree,
    fun c rest hcalls hdelay => ?issue⟩
  case go =>
    have hexec : ∀ {t}, ringerGo s f.val = t → exec (.rgGo port false f) s = .next t := fun h =>
      congrArg Host.Outcome.next ((writeReg_rgGo port hs).trans h)
    refine ⟨fun hfull => ⟨_, hexec (ringerGo_full hfull), ringerEvent_does _ _ (by decide)⟩,
      fun hroom hr => ⟨_, hexec (ringerGo_refused hroom hr), ringerEvent_does _ _ (by decide)⟩,
      fun hroom hr => ⟨_, hexec (ringerGo_accepted hroom hr), acceptCall_does _ _ _⟩⟩
  case watch => exact ⟨_, rfl, watchCall_does hheld hroom hok hfield⟩
  case tree => exact ⟨_, rfl, waferDeliver_does htree hroom⟩
  case issue =>
    refine ⟨_, congrArg Host.Outcome.next (callIssue_does hcalls hdelay), State.ringer_setRinger_same _ _ _, fun g hg => ?_, rfl⟩
    exact State.ringer_setRinger_other _ _ hg

end Sys2Proof.Machine
end

