-- ==== Sys2Proof/Proofs/ActionFields.lean ====
section
/-! PROOF. A firing action's switch, load request, counter codes and tap increments. -/
namespace Sys2Proof.Machine

theorem fld_lt (w hi lo : Nat) : fld w hi lo < 2 ^ (hi + 1 - lo) := Nat.mod_lt _ (Nat.two_pow_pos _)

theorem nextAct_lt (p : Spindle) (k w : Nat) : nextAct p k w < 64 := by
  unfold nextAct
  split
  · exact fld_lt _ 255 250
  · exact fld_lt _ 249 244

/-- An action with SW_MODE 1 that names another ply switches to it (R157). -/
theorem plySwitch_switches {s : State} {sid w : Nat} (hup : spinUp s sid = true) (hmode : fld w 237 236 = 1)
    (hother : fld w 235 234 ≠ (s.spin sid).ply) :
    plySwitch s sid w = s.setSpin sid (switchPly (s.spin sid) (fld w 235 234) (nextAct (s.spin sid) (s.spin sid).ply w)) := by
  unfold plySwitch nextAct
  simp only [hup, hmode, Bool.not_true, Bool.false_eq_true, if_false, Bool.or_eq_true, Bool.true_and, bne_iff_ne, ne_eq, hother, not_false_eq_true, if_true]

theorem loadRequest_requests {s : State} {sid w : Nat} (hup : spinUp s sid = true) (hload : w.testBit 233 = true)
    (hfree : (s.spin sid).loadWait = none) :
    loadRequest s sid w = requestLoad s sid (fld w 232 231) (agVal (s.spin sid) (s.spin sid).ply (fld w 230 229)) (s.spin sid).ply := by
  unfold loadRequest
  rw [if_neg (by rw [hup, hload, hfree]; decide)]

theorem counterUpdate_up {s : State} {sid : Nat} (hup : spinUp s sid = true) (w : Nat) :
    counterUpdate s sid w = s.modSpin sid (fun p => ctrUpdate p p.ply w) := if_neg (by rw [hup]; decide)

theorem tapIncrement_up {s : State} {sid : Nat} (hup : spinUp s sid = true) (w : Nat) : tapIncrement s sid w = fireTaps s sid w :=
  if_neg (by rw [hup]; decide)

/-- The two increments of an action add up, on one tap or on two (R156). -/
theorem fireTaps_adds (s : State) (sid w : Nat) {i : Nat} (hi : i < 16) : ((fireTaps s sid w).spin sid).tap i =
    ((s.spin sid).tap i + (if i = fld w 171 168 then fld w 167 164 else 0) + (if i = fld w 163 160 then fld w 159 156 else 0)) % 2 ^ 16 := by
  unfold fireTaps
  dsimp only
  by_cases h : fld w 171 168 = fld w 163 160
  · rw [if_pos h, tapAdd_adds _ _ _ _ hi, h]
    split
    · rw [Nat.add_assoc]
    · rfl
  · rw [if_neg h, tapAdd_adds _ _ _ _ hi, tapAdd_adds _ _ _ _ hi, Nat.mod_add_mod]

/-- Settles O25. -/
theorem actionControlFields : Obligations.ActionControlFields := by
  intro s sid act hup _
  dsimp only
  refine ⟨fun hmode hother => ?switch, fun hload hfree => ?load, ?counters, ?taps⟩
  case switch =>
    refine ⟨_, congrArg Host.Outcome.next (plySwitch_switches hup hmode hother), ?_⟩
    dsimp only
    rw [State.spin_setSpin_same]
    refine ⟨ply_switchPly _ _ _, ?_, curAct_switchPly _ _ hother, vreg_switchPly _ _ _, onlySpin_setSpin _ _ _⟩
    rw [saved_switchPly, Nat.mod_eq_of_lt (nextAct_lt _ _ _)]
  case load =>
    refine ⟨_, congrArg Host.Outcome.next (loadRequest_requests hup hload hfree), ?_, onlySpin_modSpin _ _ _⟩
    rw [requestLoad, State.spin_modSpin_same]
  case counters =>
    obtain ⟨hctr, hkeep⟩ := ctrUpdate_does (s.spin sid.toNat) (s.spin sid.toNat).ply act.toNat
    refine ⟨_, congrArg Host.Outcome.next (counterUpdate_up hup _), ?_⟩
    dsimp only
    rw [State.spin_modSpin_same]
    exact ⟨hctr, hkeep, onlySpin_modSpin _ _ _⟩
  case taps => exact ⟨_, congrArg Host.Outcome.next (tapIncrement_up hup _), fun i hi => fireTaps_adds _ _ _ hi⟩

end Sys2Proof.Machine
end

