-- ==== Sys2Proof/Proofs/MemoryPort.lean ====
section
/-! PROOF. The memory port: what it loads, what it stores, and the write-back of a corrected line. -/
namespace Sys2Proof.Machine

/-! ### Loads (R153) -/

theorem mpRead_up {s : State} {sid w : Nat} {ok : Nat → Bool} (conds : List Cond) (hup : spinUp s sid = true) (hread : w.testBit 95 = true)
    (hsrc : ok (fld w 94 91) = true) (htoken : 4 ≤ fld w 94 91 → holdsToken (seenBy s sid) sid (s.spin sid).ply (fld w 94 91) = true) :
    mpRead s sid w ok conds =
      let x := if 4 ≤ fld w 94 91 ∧ fld w 94 91 ≤ 7 then
          cqReadVal s sid (fld w 90 85) (s.spin sid).ply (fld w 94 91 - 4) (fld w 105 104)
        else mpReadVal s sid (fld w 90 85) (mpLines s sid (s.spin sid).ply (fld w 94 91) (fld w 105 104)) conds
      x.2.modSpin sid (fun p => p.setV (fld w 90 85) x.1) := by
  unfold mpRead
  dsimp only
  refine if_neg ?_
  rw [hup, hread, hsrc]
  by_cases h : 4 ≤ fld w 94 91
  · rw [htoken h]
    simp
  · simp [h]

/-- A load of lines that read cleanly. -/
theorem mpRead_lines {s : State} {sid w : Nat} {ok : Nat → Bool} {l0 l1 : Option Nat} (hup : spinUp s sid = true) (hread : w.testBit 95 = true)
    (hsrc : ok (fld w 94 91) = true) (htoken : 4 ≤ fld w 94 91 → holdsToken (seenBy s sid) sid (s.spin sid).ply (fld w 94 91) = true)
    (hlines : ¬ (4 ≤ fld w 94 91 ∧ fld w 94 91 ≤ 7)) (hl : mpLines s sid (s.spin sid).ply (fld w 94 91) (fld w 105 104) = [l0, l1])
    (h0 : ∀ L, l0 = some L → (readLine s (storeAddr sid L)).bad = false) (h1 : ∀ L, l1 = some L → (readLine s (storeAddr sid L)).bad = false) :
    mpRead s sid w ok [] = s.modSpin sid (fun p => p.setV (fld w 90 85) (mpLine s sid l1 ++ mpLine s sid l0)) := by
  rw [mpRead_up [] hup hread hsrc htoken, if_neg hlines, hl, mpReadVal_clean s sid _ _ _ h0 h1]

theorem mpLine_some (s : State) (sid L : Nat) : mpLine s sid (some (L % 2048)) = (readLine s (storeAddr sid L)).data := by
  rw [mpLine, storeAddr_mod]

/-- What a load leaves of its spindle. -/
theorem loaded_does (s : State) (sid r : Nat) (v : BitVec 512) :
    (s.modSpin sid (fun p => p.setV r v)).spin sid = (s.spin sid).setV r v ∧ onlySpin s (s.modSpin sid (fun p => p.setV r v)) sid :=
  ⟨State.spin_modSpin_same _ _ _, onlySpin_modSpin _ _ _⟩

theorem mpStoreRead_loads {s : State} {sid w : Nat} (hup : spinUp s sid = true) (hread : w.testBit 95 = true) (hsrc : fld w 94 91 ≤ 2)
    (h0 : (readLine s (storeAddr sid (agVal (s.spin sid) (s.spin sid).ply (fld w 94 91)))).bad = false)
    (h1 : (readLine s (storeAddr sid (agVal (s.spin sid) (s.spin sid).ply (fld w 94 91) + 1))).bad = false) :
    mpRead s sid w (fun src => decide (src ≤ 2)) [] = s.modSpin sid (fun p => p.setV (fld w 90 85)
      ((readLine s (storeAddr sid (agVal (s.spin sid) (s.spin sid).ply (fld w 94 91) + 1))).data ++
        (readLine s (storeAddr sid (agVal (s.spin sid) (s.spin sid).ply (fld w 94 91)))).data)) := by
  rw [mpRead_lines hup hread (decide_eq_true hsrc) (fun h => absurd h (by omega)) (by omega) (if_pos hsrc)
    (fun L h => by obtain rfl := Option.some.inj h; rw [storeAddr_mod]; exact h0)
    (fun L h => by obtain rfl := Option.some.inj h; rw [storeAddr_mod]; exact h1), mpLine_some, mpLine_some]

/-- Line j of the message at ring offset h of a receive queue, zero beyond its payload (R153). -/
def queueLine (s : State) (sid k q h j : Nat) : Line :=
  if j ≤ fld (ringLine s sid k q h) 26 24 then readLine s (storeAddr sid (rqBase (s.spin sid) k q + h + 1 + j)) else {}

/-- The store line that holds it. -/
def queueLineAt (s : State) (sid k q h j : Nat) : Option Nat :=
  if j ≤ fld (ringLine s sid k q h) 26 24 then some ((rqBase (s.spin sid) k q + h + 1 + j) % 2048) else none

theorem mpLine_queueLineAt (s : State) (sid k q h j : Nat) : mpLine s sid (queueLineAt s sid k q h j) = (queueLine s sid k q h j).data := by
  unfold queueLineAt queueLine
  split
  · exact mpLine_some _ _ _
  · rfl

theorem queueLineAt_clean {s : State} {sid k q h j : Nat} (hc : (queueLine s sid k q h j).bad = false) (L : Nat)
    (hL : queueLineAt s sid k q h j = some L) : (readLine s (storeAddr sid L)).bad = false := by
  unfold queueLineAt at hL
  unfold queueLine at hc
  split at hL
  next hj =>
    obtain rfl := Option.some.inj hL
    rw [storeAddr_mod]
    rwa [if_pos hj] at hc
  next => exact absurd hL nofun

theorem mpLines_queue (s : State) (sid k q qag : Nat) : mpLines s sid k (8 + q) qag =
    [queueLineAt s sid k q (rqHeadRec s sid k q).1 (agVal (s.spin sid) k qag % 8),
      queueLineAt s sid k q (rqHeadRec s sid k q).1 (agVal (s.spin sid) k qag % 8 + 1)] := by
  unfold mpLines
  rw [if_neg (by omega), if_pos (by omega), Nat.add_sub_cancel_left]
  rfl

theorem mpRqRead_loads {s : State} {sid w q : Nat} (hup : spinUp s sid = true) (hread : w.testBit 95 = true) (hsrc : fld w 94 91 = 8 + q)
    (htoken : holdsToken (seenBy s sid) sid (s.spin sid).ply (8 + q) = true) {h o : Nat} (hh : (rqHeadRec s sid (s.spin sid).ply q).1 = h)
    (ho : agVal (s.spin sid) (s.spin sid).ply (fld w 105 104) % 8 = o) (h0 : (queueLine s sid (s.spin sid).ply q h o).bad = false)
    (h1 : (queueLine s sid (s.spin sid).ply q h (o + 1)).bad = false) :
    mpRead s sid w (fun src => decide (8 ≤ src)) [] = s.modSpin sid (fun p => p.setV (fld w 90 85)
      ((queueLine s sid (s.spin sid).ply q h (o + 1)).data ++ (queueLine s sid (s.spin sid).ply q h o).data)) := by
  have hl := mpLines_queue s sid (s.spin sid).ply q (fld w 105 104)
  rw [hh, ho, ← hsrc] at hl
  rw [mpRead_lines hup hread (decide_eq_true (by omega)) (fun _ => by rw [hsrc]; exact htoken) (by omega) hl (queueLineAt_clean h0)
    (queueLineAt_clean h1), mpLine_queueLineAt, mpLine_queueLineAt]

/-! ### Reads of a combining queue (R199) -/

/-- No flag leaves SP_FLAGS as it is. -/
theorem wreg_addFlags_noFlags (p : Spindle) (k : Nat) {g o : Nat} : (p.addFlags k noFlags).wreg g o = p.wreg g o := by
  have hbits : p.wreg (1 + k) 0x48 ||| BitVec.ofNat 32 noFlags.bits = p.wreg (1 + k) 0x48 := BitVec.or_zero
  rw [Spindle.addFlags, hbits]
  by_cases h : g * 4096 + o = (1 + k) * 4096 + 0x48
  · unfold Spindle.wreg Spindle.setW
    rw [h]
    exact SMap.get_set_same _ _ _ _
  · exact Spindle.wreg_setW_other _ _ h

/-- The value that a read of a combining queue of 128-bit lanes loads. -/
def cqQuarter (p : Spindle) (k q j : Nat) : BitVec 512 := cqAcc p k q (4 * j + 3) ++ cqAcc p k q (4 * j + 2) ++ cqAcc p k q (4 * j + 1) ++ cqAcc p k q (4 * j)

theorem cqSum_la128 {p : Spindle} {k q : Nat} (qag : Nat) (hfmt : Fmt.ofCode (getF (p.wreg (1 + k) (cqOff q)) 16 12) = .la128) :
    cqSum p k q qag = (cqQuarter p k q (agVal p k qag % 4), noFlags) := by
  unfold cqSum
  dsimp only
  rw [hfmt]
  rfl

theorem mpCqRead_loads {s : State} {sid w q : Nat} (hup : spinUp s sid = true) (hq : q < 4) (hread : w.testBit 95 = true)
    (hsrc : fld w 94 91 = 4 + q) (htoken : holdsToken (seenBy s sid) sid (s.spin sid).ply (4 + q) = true)
    (hclean : getB ((s.spin sid).wreg (1 + (s.spin sid).ply) (cqOff q + 8)) 14 = false)
    (hfmt : Fmt.ofCode (getF ((s.spin sid).wreg (1 + (s.spin sid).ply) (cqOff q)) 16 12) = .la128) :
    mpRead s sid w (fun src => decide (4 ≤ src) && decide (src ≤ 7)) [] = s.modSpin sid (fun p => (p.addFlags p.ply noFlags).setV (fld w 90 85)
      (cqQuarter (s.spin sid) (s.spin sid).ply q (agVal (s.spin sid) (s.spin sid).ply (fld w 105 104) % 4))) := by
  have hcq : 4 ≤ fld w 94 91 ∧ fld w 94 91 ≤ 7 := by omega
  rw [mpRead_up [] hup hread (by rw [decide_eq_true hcq.1, decide_eq_true hcq.2]; rfl) (fun _ => by rw [hsrc]; exact htoken), if_pos hcq]
  unfold cqReadVal
  dsimp only
  rw [hsrc, Nat.add_sub_cancel_left, cqSum_la128 _ hfmt, hclean, if_neg Bool.false_ne_true]
  dsimp only
  rw [State.modSpin_modSpin]

theorem cqLoaded_does (p : Spindle) (r : Nat) (v : BitVec 512) :
    let q := (p.addFlags p.ply noFlags).setV r v
    (∀ j, q.vreg j = if j = r then v else p.vreg j) ∧ (∀ g o, o < 4096 → q.wreg g o = p.wreg g o) ∧
      q = { p with vregs := q.vregs, win := q.win } := by
  refine ⟨fun j => ?_, fun g o _ => ?_, rfl⟩
  · split
    next h => rw [h, Spindle.vreg_setV_same]
    next h => rw [Spindle.vreg_setV_other _ _ h, Spindle.addFlags, Spindle.vreg_setW]
  · rw [Spindle.wreg_setV, wreg_addFlags_noFlags]

/-! ### Stores (R153, R60) -/

theorem storeWrite_whole (s : State) (sid L : Nat) (d : BitVec 256) (c : Cond) :
    storeWrite s sid (L % 2048) 15 d c = writeLine s (storeAddr sid L) ⟨d, false⟩ := by
  unfold storeWrite
  rw [if_neg (by decide), if_pos rfl, storeAddr_mod]

/-- A blend under a full mask is the new line. -/
theorem blend_full (old new : BitVec 256) : BitVec.ofNat 256 (blend old.toNat new.toNat (laneMask 15)) = new := by
  have hmask : laneMask 15 = 2 ^ 256 - 1 := by decide
  refine BitVec.eq_of_toNat_eq ?_
  rw [BitVec.toNat_ofNat]
  refine Nat.eq_of_testBit_eq fun i => ?_
  rw [Nat.testBit_mod_two_pow, testBit_blend, hmask, Nat.testBit_two_pow_sub_one]
  by_cases hi : i < 256
  · simp [hi]
  · simp [hi, BitVec.testBit_toNat, BitVec.getLsbD_of_ge _ _ (Nat.not_lt.1 hi)]

/-- A write of some lanes of a line that reads cleanly keeps the others (R60). -/
theorem storeWrite_lanes {s : State} {sid L nib : Nat} (d : BitVec 256) (hnib : nib ≠ 0) (hclean : (readLine s (storeAddr sid L)).bad = false) :
    storeWrite s sid (L % 2048) nib d .clean =
      writeLine s (storeAddr sid L) ⟨BitVec.ofNat 256 (blend (readLine s (storeAddr sid L)).data.toNat d.toNat (laneMask nib)), false⟩ := by
  by_cases h15 : nib = 15
  · rw [h15, storeWrite_whole, blend_full]
  · unfold storeWrite effCond
    rw [storeAddr_mod]
    simp only [if_neg hnib, if_neg h15, hclean, Bool.false_eq_true, if_false]

section
variable {p : Spindle} {k w : Nat} (hwrite : w.testBit 84 = true) (hag : fld w 83 82 ≠ 3)
include hwrite hag

theorem mwTargets_on : mwTargets p k w = [(agVal p k (fld w 83 82) % 2048, (mwLanes (fld w 75 74) (fld w 73 66)).1),
    ((agVal p k (fld w 83 82) + 1) % 2048, (mwLanes (fld w 75 74) (fld w 73 66)).2)].filter (fun t => t.2 != 0) := by
  unfold mwTargets
  rw [if_pos (by rw [hwrite, bne_iff_ne.2 hag]; rfl)]

/-- The half of the register that a store of one line takes: the high one with size 1. -/
theorem fireWrite_one (s : State) (sid : Nat) (h1 : (mwLanes (fld w 75 74) (fld w 73 66)).1 ≠ 0) (h2 : (mwLanes (fld w 75 74) (fld w 73 66)).2 = 0) :
    fireWrite s p sid k w [] = storeWrite s sid (agVal p k (fld w 83 82) % 2048) (mwLanes (fld w 75 74) (fld w 73 66)).1
      (if fld w 75 74 = 1 then (p.vreg (fld w 81 76) >>> 256).setWidth 256 else (p.vreg (fld w 81 76)).setWidth 256) .clean := by
  have ht : mwTargets p k w = [(agVal p k (fld w 83 82) % 2048, (mwLanes (fld w 75 74) (fld w 73 66)).1)] := by
    rw [mwTargets_on hwrite hag]
    simp [h1, h2]
  unfold fireWrite
  rw [ht]
  simp [forEach, nth]

theorem fireWrite_two (s : State) (sid : Nat) (hsize : fld w 75 74 = 2) : fireWrite s p sid k w [] =
    storeWrite (storeWrite s sid (agVal p k (fld w 83 82) % 2048) 15 ((p.vreg (fld w 81 76)).setWidth 256) .clean) sid
      ((agVal p k (fld w 83 82) + 1) % 2048) 15 ((p.vreg (fld w 81 76) >>> 256).setWidth 256) .clean := by
  have ht : mwTargets p k w = [(agVal p k (fld w 83 82) % 2048, 15), ((agVal p k (fld w 83 82) + 1) % 2048, 15)] := by
    rw [mwTargets_on hwrite hag, hsize]
    simp [mwLanes]
  have hnext : (agVal p k (fld w 83 82) + 1) % 2048 ≠ agVal p k (fld w 83 82) % 2048 := by omega
  unfold fireWrite
  rw [ht]
  simp [forEach, nth, hsize, hnext]

theorem fireWrite_low (s : State) (sid : Nat) (hsize : fld w 75 74 = 0) : fireWrite s p sid k w [] =
    writeLine s (storeAddr sid (agVal p k (fld w 83 82))) ⟨(p.vreg (fld w 81 76)).setWidth 256, false⟩ := by
  have hlanes : mwLanes (fld w 75 74) (fld w 73 66) = (15, 0) := by rw [hsize, mwLanes]
  rw [fireWrite_one hwrite hag s sid (by rw [hlanes]; exact nofun) (by rw [hlanes]), hlanes, hsize, storeWrite_whole, if_neg (by decide)]

theorem fireWrite_high (s : State) (sid : Nat) (hsize : fld w 75 74 = 1) : fireWrite s p sid k w [] =
    writeLine s (storeAddr sid (agVal p k (fld w 83 82))) ⟨(p.vreg (fld w 81 76) >>> 256).setWidth 256, false⟩ := by
  have hlanes : mwLanes (fld w 75 74) (fld w 73 66) = (15, 0) := by rw [hsize, mwLanes]
  rw [fireWrite_one hwrite hag s sid (by rw [hlanes]; exact nofun) (by rw [hlanes]), hlanes, hsize, storeWrite_whole, if_pos rfl]

theorem fireWrite_both (s : State) (sid : Nat) (hsize : fld w 75 74 = 2) : fireWrite s p sid k w [] =
    writeLine (writeLine s (storeAddr sid (agVal p k (fld w 83 82))) ⟨(p.vreg (fld w 81 76)).setWidth 256, false⟩)
      (storeAddr sid (agVal p k (fld w 83 82) + 1)) ⟨(p.vreg (fld w 81 76) >>> 256).setWidth 256, false⟩ := by
  rw [fireWrite_two hwrite hag s sid hsize, storeWrite_whole, storeWrite_whole]

theorem fireWrite_lanes {s : State} {sid : Nat} (hsize : fld w 75 74 = 3) (hlow : fld w 69 66 ≠ 0) (hhigh : fld w 73 70 = 0)
    (hclean : (readLine s (storeAddr sid (agVal p k (fld w 83 82)))).bad = false) : fireWrite s p sid k w [] =
    writeLine s (storeAddr sid (agVal p k (fld w 83 82))) ⟨BitVec.ofNat 256 (blend (readLine s (storeAddr sid (agVal p k (fld w 83 82)))).data.toNat
      ((p.vreg (fld w 81 76)).setWidth 256 : BitVec 256).toNat (laneMask (fld w 69 66))), false⟩ := by
  have hlanes : mwLanes (fld w 75 74) (fld w 73 66) = (fld w 69 66, 0) := by
    have hl : fld w 73 66 % 16 = fld w 69 66 := by simp only [fld, Nat.shiftRight_eq_div_pow]; omega
    have hh : fld w 73 66 / 16 % 16 = fld w 73 70 := by simp only [fld, Nat.shiftRight_eq_div_pow]; omega
    rw [hsize, mwLanes, hl, hh, hhigh]
    all_goals exact nofun
  rw [fireWrite_one hwrite hag s sid (by rw [hlanes]; exact hlow) (by rw [hlanes]), hlanes, hsize, if_neg (by decide),
    storeWrite_lanes _ hlow hclean]

/-- A store of whole lines changes memory alone. -/
theorem fireWrite_frame (s : State) (sid : Nat) (hsize : fld w 75 74 ≠ 3) :
    fireWrite s p sid k w [] = { s with mem := (fireWrite s p sid k w []).mem, marks := (fireWrite s p sid k w []).marks } := by
  have hlt : fld w 75 74 < 4 := fld_lt _ _ _
  obtain h | h | h : fld w 75 74 = 0 ∨ fld w 75 74 = 1 ∨ fld w 75 74 = 2 := by omega
  · rw [fireWrite_low hwrite hag s sid h]
    exact writeLine_frame _ _ _
  · rw [fireWrite_high hwrite hag s sid h]
    exact writeLine_frame _ _ _
  · rw [fireWrite_both hwrite hag s sid h, writeLine_frame, writeLine_frame s]

end

/-- What a store of one line leaves. -/
theorem writeLine_does (s : State) (a : Nat) (l : Line) :
    readLine (writeLine s a l) a = l ∧ ∀ c, (c < a ∨ a + 32 ≤ c) → readByte (writeLine s a l) c = readByte s c :=
  ⟨readLine_writeLine_same _ _ _, fun _ h => readByte_writeLine_other _ _ _ h⟩

theorem writeTwo_does (s : State) (sid L : Nat) (x y : Line) :
    let t := writeLine (writeLine s (storeAddr sid L) x) (storeAddr sid (L + 1)) y
    readLine t (storeAddr sid L) = x ∧ readLine t (storeAddr sid (L + 1)) = y ∧
      ∀ c, (c < storeAddr sid L ∨ storeAddr sid L + 32 ≤ c) → (c < storeAddr sid (L + 1) ∨ storeAddr sid (L + 1) + 32 ≤ c) →
        readByte t c = readByte s c := by
  refine ⟨?_, readLine_writeLine_same _ _ _, fun c h0 h1 => ?_⟩
  · have hne : storeAddr sid L ≠ storeAddr sid (L + 1) := storeAddr_ne sid L (i := 0) (j := 1) (by decide) (by decide)
    rw [readLine_writeLine_other _ _ _ (storeAddr_aligned _ _) (storeAddr_aligned _ _) hne, readLine_writeLine_same]
  · rw [readByte_writeLine_other _ _ _ h1, readByte_writeLine_other _ _ _ h0]

theorem mpWrite_up {s : State} {sid : Nat} (hup : spinUp s sid = true) (w : Nat) (conds : List Cond) :
    mpWrite s sid w conds = fireWrite s (s.spin sid) sid (s.spin sid).ply w conds := if_neg (by rw [hup]; decide)

/-! ### The write-back of a corrected line (R61) -/

/-- The oldest corrected line is written back while its bank is idle. -/
theorem writeBack_oldest {s : State} {sid L : Nat} {rest : List Nat} (hup : spinUp s sid = true) (hwback : (s.spin sid).wback = L :: rest)
    (hload : (s.spin sid).load = none) (hidle : (bankOf L &&& (s.spin sid).busy) = 0#8) :
    writeBack s sid = s.setSpin sid { s.spin sid with wback := rest, busy := (s.spin sid).busy ||| bankOf L } := by
  unfold writeBack
  simp [hwback, hload, hidle, hup, dropFirst]

/-- Settles O26. -/
theorem memoryPortMoves : Obligations.MemoryPortMoves := by
  intro s sid act hup
  dsimp only
  refine ⟨fun hread hsrc h0 h1 => ?store, fun q hread hsrc htoken h0 h1 => ?queue, fun q hq hread hsrc htoken hclean hfmt => ?comb,
    fun hwrite hag => ?write, fun L rest hwback hload hidle => ?back⟩
  case store => exact ⟨_, congrArg Host.Outcome.next (mpStoreRead_loads hup hread hsrc h0 h1), loaded_does _ _ _ _⟩
  case queue => exact ⟨_, congrArg Host.Outcome.next (mpRqRead_loads hup hread hsrc htoken rfl rfl h0 h1), loaded_does _ _ _ _⟩
  case comb =>
    refine ⟨_, congrArg Host.Outcome.next (mpCqRead_loads hup hq hread hsrc htoken hclean hfmt), ?_⟩
    dsimp only
    rw [State.spin_modSpin_same]
    obtain ⟨hvreg, hwreg, hframe⟩ := cqLoaded_does (s.spin sid.toNat) (fld act.toNat 90 85) _
    exact ⟨hvreg, hwreg, hframe, onlySpin_modSpin _ _ _⟩
  case write =>
    refine ⟨_, congrArg Host.Outcome.next (mpWrite_up hup _ _), ?_⟩
    dsimp only
    refine ⟨fun h => ?_, fun h => ?_, fun h => ?_, fun h hclean hlow hhigh => ?_, fireWrite_frame hwrite hag _ _⟩
    · rw [fireWrite_low hwrite hag _ _ h]
      exact writeLine_does _ _ _
    · rw [fireWrite_high hwrite hag _ _ h]
      exact writeLine_does _ _ _
    · rw [fireWrite_both hwrite hag _ _ h]
      exact writeTwo_does _ _ _ _ _
    · rw [fireWrite_lanes hwrite hag h hlow hhigh hclean]
      exact writeLine_does _ _ _
  case back =>
    refine ⟨_, congrArg Host.Outcome.next (writeBack_oldest hup hwback hload hidle), State.spin_setSpin_same _ _ _, onlySpin_setSpin _ _ _⟩

end Sys2Proof.Machine
end

