-- ==== Sys2Proof/Proofs/SendsPops.lean ====
section
/-! PROOF. Sends start messages with the header of their route entry; pops take what their queue holds. -/
namespace Sys2Proof.Machine

/-! ### The 48-bit counts of a spindle (R42, R87) -/

theorem bump48_lo (p : Spindle) (page lo n : Nat) : (p.bump48 page lo n).1.wreg page lo = p.wreg page lo + BitVec.ofNat 32 n := by
  have key : BitVec.ofNat 32 ((p.wreg page lo).toNat + 2 ^ 32 * p.wf_ page (lo + 4) 15 0 + n) = p.wreg page lo + BitVec.ofNat 32 n := by
    refine BitVec.eq_of_toNat_eq ?_
    rw [BitVec.toNat_ofNat, BitVec.toNat_add, BitVec.toNat_ofNat]
    omega
  have hlo : ∀ v, (p.setW page lo v).wreg page lo = v := fun v => Spindle.wreg_setW_same _ _ _ _
  unfold Spindle.bump48
  dsimp only
  split
  · rw [Spindle.wreg_setW_other _ _ (by omega), Spindle.setWf, Spindle.wreg_setW_other _ _ (by omega), hlo, key]
  · rw [Spindle.setWf, Spindle.wreg_setW_other _ _ (by omega), hlo, key]

theorem wreg_bump48_other (p : Spindle) (page lo n : Nat) {g o : Nat} (h : g * 4096 + o ≠ page * 4096 + lo)
    (h4 : g * 4096 + o ≠ page * 4096 + (lo + 4)) : (p.bump48 page lo n).1.wreg g o = p.wreg g o := by
  unfold Spindle.bump48
  dsimp only
  split
  · rw [Spindle.wreg_setW_other _ _ h4, Spindle.setWf, Spindle.wreg_setW_other _ _ h4, Spindle.wreg_setW_other _ _ h]
  · rw [Spindle.setWf, Spindle.wreg_setW_other _ _ h4, Spindle.wreg_setW_other _ _ h]

theorem bump48_win (p : Spindle) (page lo n : Nat) : (p.bump48 page lo n).1 = { p with win := (p.bump48 page lo n).1.win } := by
  unfold Spindle.bump48
  dsimp only
  split <;> rfl

/-- A counted event is a step of the count, and where it wraps an event of the page. -/
theorem wbump48_cases (s : State) (sid page lo n : Nat) :
    let u := s.setSpin sid ((s.spin sid).bump48 page lo n).1
    wbump48 s sid page lo n = u ∨ wbump48 s sid page lo n = u.raise (pWin (s.fieldOf sid) page) 31 := by
  unfold wbump48
  dsimp only
  split
  · exact .inr rfl
  · exact .inl rfl

theorem spin_wbump48 (s : State) (sid page lo n : Nat) : (wbump48 s sid page lo n).spin sid = ((s.spin sid).bump48 page lo n).1 := by
  obtain h | h := wbump48_cases s sid page lo n
  · rw [h, State.spin_setSpin_same]
  · rw [h, State.spin_raise, State.spin_setSpin_same]

theorem onlyWindow_wbump48 (s : State) (sid page lo n : Nat) :
    onlyWindow (fun o => o = pWin (s.fieldOf sid) page + 0x18 ∨ o = pWin (s.fieldOf sid) page + 0x1C) sid s (wbump48 s sid page lo n) := by
  have hset := onlyWindow.setSpin (p := fun o => o = pWin (s.fieldOf sid) page + 0x18 ∨ o = pWin (s.fieldOf sid) page + 0x1C)
    (bump48_win (s.spin sid) page lo n)
  obtain h | h := wbump48_cases s sid page lo n
  · rw [h]
    exact hset
  · rw [h]
    exact hset.trans (onlyWindow.of_onlyRegsAt ⟨State.onlyRegs_raise _ _ _, fun o ho =>
      State.reg_raise_other _ _ _ (fun e => ho (.inl e)) (fun e => ho (.inr e))⟩)

/-! ### Sends (R154, R182) -/

theorem fld_mod_pow (x : Nat) {n hi lo : Nat} (h : hi < n) : fld (x % 2 ^ n) hi lo = fld x hi lo := by
  refine Nat.eq_of_testBit_eq fun i => ?_
  rw [testBit_fld, testBit_fld, Nat.testBit_mod_two_pow]
  by_cases hi' : i < hi + 1 - lo
  · rw [decide_eq_true (show lo + i < n by omega), Bool.true_and]
  · rw [decide_eq_false hi', Bool.false_and, Bool.false_and]

/-- The tag of a route entry with the abort count K added to its epoch (R84, R177). -/
def sentTag (t : Word) (K : Nat) : BitVec 16 := BitVec.ofNat 16 (putF (BitVec.ofNat 32 (getF t 15 0)) 13 10 (getF t 13 10 + K)).toNat

theorem sentTag_epoch (t : Word) (K : Nat) : fld (sentTag t K).toNat 13 10 = (getF t 13 10 + K) % 16 := by
  rw [sentTag, BitVec.toNat_ofNat, fld_mod_pow _ (by decide)]
  exact getF_putF_same _ _ (by decide)

theorem sentTag_rest (t : Word) (K : Nat) {i : Nat} (hi : i < 16) (h : ¬ (10 ≤ i ∧ i ≤ 13)) : (sentTag t K).getLsbD i = t.getLsbD i := by
  have hbit : (sentTag t K).getLsbD i = (putF (BitVec.ofNat 32 (getF t 15 0)) 13 10 (getF t 13 10 + K)).getLsbD i := by
    rw [sentTag, BitVec.getLsbD_ofNat, decide_eq_true hi, Bool.true_and]
    rfl
  rw [hbit, getLsbD_putF, if_neg (by omega), BitVec.getLsbD_ofNat, testBit_getF]
  simp [show i < 32 by omega, hi]

/-- The EA base of a route entry. -/
def routeEa (p : Spindle) (k rt : Nat) : Nat :=
  (p.wreg (1 + k) (0x300 + 0x10 * rt + 8)).toNat / 32 * 32 + 2 ^ 32 * p.wf_ (1 + k) (0x300 + 0x10 * rt + 12) 15 0

/-- A request, and a message of kind 3, carry the route's EA and the address generator's lines. -/
theorem buildMsg_ea_route {s : State} {sid k w : Nat} {d : Word} (hd : (s.spin sid).wreg (1 + k) (0x300 + 0x10 * fld w 126 123) = d)
    (h : getB d 23 = true ∨ getF d 30 29 = 3) : (buildMsg s sid k w).hdr.ea.toNat =
      (routeEa (s.spin sid) k (fld w 126 123) + agVal (s.spin sid) k (fld w 121 120) * 32) % 2 ^ 48 := by
  have hea : (getB d 23 || (decide (getF d 30 29 = 3) && !portCode (BitVec.ofNat 21 (getF d 20 0))) || portCode (BitVec.ofNat 21 (getF d 20 0))) = true := by
    rcases h with h | h <;> rw [h] <;> cases portCode (BitVec.ofNat 21 (getF d 20 0)) <;> simp
  unfold buildMsg
  dsimp only
  rw [hd, if_pos hea, BitVec.toNat_ofNat]
  rfl

theorem portCode_low {d : Nat} (hlt : d < 2 ^ 21) (h : d % 2048 ≠ 0x7FF) : portCode (BitVec.ofNat 21 d) = false := by
  unfold portCode
  rw [BitVec.toNat_ofNat, Nat.mod_eq_of_lt hlt, decide_eq_false h, Bool.false_and]

/-- A store write names the addressed store line of its destination. -/
theorem buildMsg_ea_store {s : State} {sid k w : Nat} {d : Word} (hd : (s.spin sid).wreg (1 + k) (0x300 + 0x10 * fld w 126 123) = d)
    (hreq : getB d 23 = false) (hkind : getF d 30 29 = 2) (hdest : getF d 20 0 % 2048 ≠ 0x7FF) :
    (buildMsg s sid k w).hdr.ea.toNat = storeAddr (getF d 20 0) (agVal (s.spin sid) k (fld w 121 120)) := by
  have hlt : getF d 20 0 < 2 ^ 21 := getF_lt _ _ _
  unfold buildMsg
  dsimp only
  rw [hd, hreq, hkind, portCode_low hlt hdest, if_neg (by decide), if_pos rfl, BitVec.toNat_ofNat]
  unfold storeAddr
  omega

theorem buildMsg_dest (s : State) (sid k w : Nat) :
    (buildMsg s sid k w).hdr.dest.toNat = getF ((s.spin sid).wreg (1 + k) (0x300 + 0x10 * fld w 126 123)) 20 0 := by
  have hlt : getF ((s.spin sid).wreg (1 + k) (0x300 + 0x10 * fld w 126 123)) 20 0 < 2 ^ 21 := getF_lt _ _ _
  exact (BitVec.toNat_ofNat _ _).trans (Nat.mod_eq_of_lt hlt)

theorem buildMsg_src (s : State) (sid : SID) (k w : Nat) : (buildMsg s sid.toNat k w).hdr.src = sid := BitVec.ofNat_toNat _ _

/-- A send from a register carries its two halves. -/
theorem buildMsg_fromReg {s : State} {sid k w : Nat} {d : Word} (hd : (s.spin sid).wreg (1 + k) (0x300 + 0x10 * fld w 126 123) = d)
    (hreg : w.testBit 122 = true) (hreq : getB d 23 = false) : (buildMsg s sid k w).store = none ∧ (buildMsg s sid k w).regs =
      [⟨((s.spin sid).vreg (fld w 119 114)).setWidth 256, false⟩, ⟨((s.spin sid).vreg (fld w 119 114) >>> 256).setWidth 256, false⟩] := by
  unfold buildMsg
  dsimp only
  rw [hd, hreg, hreq]
  exact ⟨rfl, rfl⟩

/-- A send from the store reads from the line that the address generator gives. -/
theorem buildMsg_fromStore {s : State} {sid k w : Nat} {d : Word} (hd : (s.spin sid).wreg (1 + k) (0x300 + 0x10 * fld w 126 123) = d)
    (hreg : w.testBit 122 = false) (hreq : getB d 23 = false) :
    (buildMsg s sid k w).store = some (agVal (s.spin sid) k (fld w 121 120) % 2048) := by
  unfold buildMsg
  dsimp only
  rw [hd, hreg, hreq]
  rfl

theorem sendRow_sends {s : State} {sid w : Nat} (hup : spinUp s sid = true) (hsend : w.testBit 127 = true)
    (hroute : routeOk (s.spin sid) (s.spin sid).ply (fld w 126 123) = true) (hroom : (s.spin sid).ip.length < 4) :
    sendRow s sid w = startSend s sid (s.spin sid).ply w := by
  unfold sendRow
  exact if_neg (by rw [hup, hsend, hroute, decide_eq_false (Nat.not_le.2 hroom)]; decide)

/-- What a started send leaves of its spindle. -/
theorem startSend_does (s : State) (sid k w : Nat) :
    let t := startSend s sid k w
    let i := k * 16 + fld w 126 123
    SMap.get (fun _ => 0) (t.spin sid).seqs i = (SMap.get (fun _ => 0) (s.spin sid).seqs i + 1) % 256 ∧
      t.spin sid = { s.spin sid with ip := (s.spin sid).ip ++ [buildMsg s sid k w], seqs := (t.spin sid).seqs } ∧ onlySpin s t sid := by
  unfold startSend
  dsimp only
  rw [State.spin_modSpin_same]
  exact ⟨SMap.get_set_same _ _ _ _, rfl, onlySpin_modSpin _ _ _⟩

/-! ### Pops of a receive queue (R155, R195) -/

/-- A pop of one code. -/
theorem popRow_pops {s : State} {sid w : Nat} (hup : spinUp s sid = true) (hb : fld w 109 106 ≤ 1)
    (htoken : holdsToken (seenBy s sid) sid (s.spin sid).ply (fld w 113 110) = true) :
    popRow s sid w = popCode s sid (s.spin sid).ply (fld w 113 110) := by
  have htokenB : holdsToken (seenBy s sid) sid (s.spin sid).ply (fld w 109 106) = true := if_pos hb
  have hnone : ∀ u k, popCode u sid k (fld w 109 106) = u := fun u k => if_pos hb
  unfold popRow firePops
  dsimp only
  rw [hup, List.all_cons, List.all_cons, List.all_nil, htoken, htokenB, if_neg (by decide), hnone]
  split <;> rfl

theorem popCode_rq (s : State) (sid k q : Nat) : popCode s sid k (8 + q) = popRq s sid k q := by
  unfold popCode
  rw [if_neg (by omega), if_neg (by omega), if_neg (by omega), Nat.add_sub_cancel_left]

theorem popCode_cq (s : State) (sid k : Nat) {q : Nat} (hq : q < 4) : popCode s sid k (4 + q) = s.modSpin sid (fun p => popCq p k q) := by
  unfold popCode
  rw [if_neg (by omega), if_neg (by omega), if_pos (by omega), Nat.add_sub_cancel_left]

theorem popCode_hq (s : State) (sid k : Nat) {q : Nat} (hq : q < 2) : popCode s sid k (2 + q) = popHq s sid k q := by
  unfold popCode
  rw [if_neg (by omega), if_pos (by omega), Nat.add_sub_cancel_left]

/-- The record of a spindle after a pop of a receive queue. -/
def rqPopped (p : Spindle) (k q h u n : Nat) : Spindle :=
  { (p.setWf (1 + k) (rqOff q + 0xC) 10 0 h).setWf (1 + k) (rqOff q + 0x14) 10 0 u with freed := SMap.set (fun _ => 0) p.freed (k * 8 + q) n }

theorem wreg_freed (p : Spindle) (f : SMap Nat) (g o : Nat) : ({ p with freed := f } : Spindle).wreg g o = p.wreg g o := rfl

theorem rqPopped_does (p : Spindle) (k q n : Nat) {h u : Nat} (hh : h < 2048) (hu : u < 2048) :
    rqHead (rqPopped p k q h u n) k q = h ∧ rqUsed (rqPopped p k q h u n) k q = u ∧
      ∀ g o, o < 4096 → q < 8 → ¬ (g = 1 + k ∧ (o = rqOff q + 0xC ∨ o = rqOff q + 0x14)) → (rqPopped p k q h u n).wreg g o = p.wreg g o := by
  have hwf : ∀ o hi lo, (rqPopped p k q h u n).wf_ (1 + k) o hi lo =
      ((p.setWf (1 + k) (rqOff q + 0xC) 10 0 h).setWf (1 + k) (rqOff q + 0x14) 10 0 u).wf_ (1 + k) o hi lo := fun o hi lo => by
    rw [Spindle.wf_, rqPopped, wreg_freed]
    rfl
  refine ⟨?_, ?_, fun g o ho hq hne => ?_⟩
  · rw [rqHead, hwf, wf_setWf_ne _ _ _ _ _ _ (by omega), Spindle.wf_setWf_same _ _ _ _ (by decide)]
    exact Nat.mod_eq_of_lt hh
  · rw [rqUsed, hwf, Spindle.wf_setWf_same _ _ _ _ (by decide)]
    exact Nat.mod_eq_of_lt hu
  · unfold rqOff at hne
    rw [rqPopped, wreg_freed, Spindle.setWf, Spindle.wreg_setW_other _ _ (by unfold rqOff; omega), Spindle.setWf,
      Spindle.wreg_setW_other _ _ (by unfold rqOff; omega)]

/-- Without a skip record at the head, a pop frees the head's record, and a skip record behind it. -/
theorem popRq_pops {s : State} {sid k q h u : Nat} (hrec : fld (ringLine s sid k q (rqHead (s.spin sid) k q)) 31 29 ≠ 2)
    (hsize : 1 ≤ rqSize (s.spin sid) k q)
    (hh : (rqHead (s.spin sid) k q + (fld (ringLine s sid k q (rqHead (s.spin sid) k q)) 26 24 + 2)) % rqSize (s.spin sid) k q = h)
    (hu : rqUsed (s.spin sid) k q - (fld (ringLine s sid k q (rqHead (s.spin sid) k q)) 26 24 + 2) = u) :
    ∃ n, popRq s sid k q = s.setSpin sid (rqPopped (s.spin sid) k q (if u ≠ 0 ∧ fld (ringLine s sid k q h) 31 29 = 2 then 0 else h)
      (if u ≠ 0 ∧ fld (ringLine s sid k q h) 31 29 = 2 then u - fld (ringLine s sid k q h) 42 32 else u) n) := by
  have hhead : rqHeadRec s sid k q = (rqHead (s.spin sid) k q, 0) := if_neg hrec
  unfold popRq
  rw [hhead]
  dsimp only
  rw [max_eq_right hsize, hh, Nat.sub_zero, hu]
  have hbool : (u != 0 && decide (fld (ringLine s sid k q h) 31 29 = 2)) = true ↔ u ≠ 0 ∧ fld (ringLine s sid k q h) 31 29 = 2 := by simp
  simp only [hbool]
  by_cases hskip : u ≠ 0 ∧ fld (ringLine s sid k q h) 31 29 = 2
  · simp only [if_pos hskip]
    exact ⟨_, rfl⟩
  · simp only [if_neg hskip]
    exact ⟨_, rfl⟩

theorem popRq_does {s : State} {sid k q h u : Nat} (hq : q < 8) (hrec : fld (ringLine s sid k q (rqHead (s.spin sid) k q)) 31 29 ≠ 2)
    (hsize : 1 ≤ rqSize (s.spin sid) k q)
    (hh : (rqHead (s.spin sid) k q + (fld (ringLine s sid k q (rqHead (s.spin sid) k q)) 26 24 + 2)) % rqSize (s.spin sid) k q = h)
    (hu : rqUsed (s.spin sid) k q - (fld (ringLine s sid k q (rqHead (s.spin sid) k q)) 26 24 + 2) = u) :
    let t := popRq s sid k q
    let l := ringLine s sid k q h
    rqHead (t.spin sid) k q = (if u ≠ 0 ∧ fld l 31 29 = 2 then 0 else h) ∧
      rqUsed (t.spin sid) k q = (if u ≠ 0 ∧ fld l 31 29 = 2 then u - fld l 42 32 else u) ∧
      (∀ g o, o < 4096 → ¬ (g = 1 + k ∧ (o = rqOff q + 0xC ∨ o = rqOff q + 0x14)) → (t.spin sid).wreg g o = (s.spin sid).wreg g o) ∧
      onlySpin s t sid := by
  obtain ⟨n, hpop⟩ := popRq_pops hrec hsize hh hu
  have hsizelt : rqSize (s.spin sid) k q < 2048 := getF_lt _ _ _
  have husedlt : rqUsed (s.spin sid) k q < 2048 := getF_lt _ _ _
  have hlt : h < 2048 := hh ▸ (Nat.mod_lt _ hsize).trans hsizelt
  have hult : u < 2048 := hu ▸ (Nat.sub_le _ _).trans_lt husedlt
  dsimp only
  rw [hpop, State.spin_setSpin_same]
  generalize ringLine s sid k q h = l
  have hh' : (if u ≠ 0 ∧ fld l 31 29 = 2 then 0 else h) < 2048 := by split <;> omega
  have hu' : (if u ≠ 0 ∧ fld l 31 29 = 2 then u - fld l 42 32 else u) < 2048 := by split <;> omega
  obtain ⟨hhead, hused, hkeep⟩ := rqPopped_does (s.spin sid) k q n hh' hu'
  exact ⟨hhead, hused, fun g o ho h => hkeep g o ho hq h, onlySpin_setSpin _ _ _⟩

/-! ### Pops of a combining queue (R155, R199) -/

/-- A word of the lane that is cleared becomes 0; every other keeps its value. -/
theorem wreg_setCqAcc_zero (p : Spindle) {k q l g o : Nat} (hq : q < 4) (hl : l < 16) (ho : o < 4096) : (setCqAcc p k q l 0#128).wreg g o =
    if g = 1 + k ∧ o / 16 = 0x40 + 0x10 * q + l ∧ o % 4 = 0 then 0#32 else p.wreg g o := by
  have hstep : ∀ n, n ≤ 4 → (iter n (fun j p => p.setW (1 + k) (0x400 + 0x100 * q + 0x10 * l + 4 * j) (BitVec.ofNat 32 ((0#128).toNat >>> (32 * j)))) p).wreg g o =
      if g = 1 + k ∧ o / 16 = 0x40 + 0x10 * q + l ∧ o % 4 = 0 ∧ o % 16 < 4 * n then 0#32 else p.wreg g o := by
    intro n
    induction n with
    | zero => intro _; exact (if_neg (by omega)).symm
    | succ n ih =>
      intro hn
      rw [iter_succ]
      by_cases h : g * 4096 + o = (1 + k) * 4096 + (0x400 + 0x100 * q + 0x10 * l + 4 * n)
      · obtain ⟨rfl, rfl⟩ : g = 1 + k ∧ o = 0x400 + 0x100 * q + 0x10 * l + 4 * n := by omega
        rw [Spindle.wreg_setW_same, if_pos (by omega)]
        simp
      · rw [Spindle.wreg_setW_other _ _ h, ih (by omega)]
        exact if_congr (by omega) rfl rfl
  exact (hstep 4 (le_refl 4)).trans (if_congr (by omega) rfl rfl)

theorem wreg_clearCqAcc (p : Spindle) {k q g o : Nat} (hq : q < 4) (ho : o < 4096) : (clearCqAcc p k q).wreg g o =
    if g = 1 + k ∧ 0x400 + 0x100 * q ≤ o ∧ o < 0x500 + 0x100 * q ∧ o % 4 = 0 then 0#32 else p.wreg g o := by
  have hstep : ∀ n, n ≤ 16 → (iter n (fun l p => setCqAcc p k q l 0#128) p).wreg g o =
      if g = 1 + k ∧ 0x400 + 0x100 * q ≤ o ∧ o < 0x400 + 0x100 * q + 0x10 * n ∧ o % 4 = 0 then 0#32 else p.wreg g o := by
    intro n
    induction n with
    | zero => intro _; exact (if_neg (by omega)).symm
    | succ n ih =>
      intro hn
      rw [iter_succ, wreg_setCqAcc_zero _ hq (by omega) ho, ih (by omega)]
      by_cases h : g = 1 + k ∧ o / 16 = 0x40 + 0x10 * q + n ∧ o % 4 = 0
      · rw [if_pos h, if_pos (by omega)]
      · rw [if_neg h]
        exact if_congr (by omega) rfl rfl
  exact (hstep 16 (le_refl 16)).trans (if_congr (by omega) rfl rfl)

theorem cqAcc_zero {p : Spindle} {k q l : Nat} (h : ∀ j, j < 4 → p.wreg (1 + k) (0x400 + 0x100 * q + 0x10 * l + 4 * j) = 0#32) :
    cqAcc p k q l = 0#128 := by
  unfold cqAcc
  simp only [show List.range 4 = [0, 1, 2, 3] from rfl, List.foldl_cons, List.foldl_nil, h 0 (by decide), h 1 (by decide), h 2 (by decide), h 3 (by decide)]
  rfl

theorem popCq_does (p : Spindle) {k q : Nat} (hq : q < 4) :
    (∀ l, l < 16 → cqAcc (popCq p k q) k q l = 0#128) ∧ getB ((popCq p k q).wreg (1 + k) (cqOff q + 8)) 15 = false ∧
      ∀ g o, o < 4096 → ¬ (g = 1 + k ∧ (o = cqOff q + 8 ∨ (0x400 + 0x100 * q ≤ o ∧ o < 0x500 + 0x100 * q))) → (popCq p k q).wreg g o = p.wreg g o := by
  unfold popCq
  dsimp only
  refine ⟨fun l hl => cqAcc_zero fun j hj => ?_, ?_, fun g o ho h => ?_⟩
  · rw [Spindle.wreg_setW_other _ _ (by unfold cqOff; omega), wreg_clearCqAcc _ hq (by omega), if_pos (by omega)]
  · rw [Spindle.wreg_setW_same, getB_eq, getLsbD_putF, if_pos (by decide)]
    simp
  · unfold cqOff at h
    rw [Spindle.wreg_setW_other _ _ (by unfold cqOff; omega), wreg_clearCqAcc _ hq ho, if_neg (by omega)]

/-! ### Pops of a hank queue (R155, R260) -/

/-- The record of a spindle after a pop of a hank queue, but for the count of its pops. -/
def hqPopped (p : Spindle) (k q : Nat) : Spindle :=
  let D := p.wreg (1 + k) (hqOff q)
  let h := (p.wreg (1 + k) (hqOff q + 12)).toNat % getF D 24 16
  let base := BitVec.ofInt 32 ((p.wf_ (1 + k) (hqOff q + 4) 22 0 : Int) + (h : Int) * sext 16 (getF D 15 0))
  (if getF D 26 25 = 3 then p else p.setW (1 + k) (0x90 + 0x10 * getF D 26 25) base).setW (1 + k) (hqOff q + 12) (p.wreg (1 + k) (hqOff q + 12) + 1#32)

theorem ofNat_wrapInt (n : Nat) (i : Int) : BitVec.ofNat n (wrapInt n i) = BitVec.ofInt n i := by
  refine BitVec.eq_of_toNat_eq ?_
  have hpos : (0 : Int) < ((2 ^ n : Nat) : Int) := by exact_mod_cast Nat.two_pow_pos n
  have hlt : (i % ((2 ^ n : Nat) : Int)).toNat < 2 ^ n := by
    have h := Int.emod_lt_of_pos i hpos
    have h0 := Int.emod_nonneg i hpos.ne'
    omega
  rw [BitVec.toNat_ofNat, BitVec.toNat_ofInt, wrapInt, Nat.mod_eq_of_lt hlt]

theorem popHq_pops {s : State} {sid k q : Nat} (hlen : 1 ≤ getF ((s.spin sid).wreg (1 + k) (hqOff q)) 24 16) :
    popHq s sid k q = wbump48 (s.setSpin sid (hqPopped (s.spin sid) k q)) sid 6 (0x400 + 0x20 * k + 0x10 * q) 1 := by
  unfold popHq hqPopped
  dsimp only
  rw [max_eq_right hlen, ofNat_wrapInt]

theorem hqPopped_does (p : Spindle) {k q : Nat} (hq : q < 2) :
    let D := p.wreg (1 + k) (hqOff q)
    let h := (p.wreg (1 + k) (hqOff q + 12)).toNat % getF D 24 16
    (hqPopped p k q).wreg (1 + k) (hqOff q + 12) = p.wreg (1 + k) (hqOff q + 12) + 1#32 ∧
      (getF D 26 25 ≠ 3 → (hqPopped p k q).wreg (1 + k) (0x90 + 0x10 * getF D 26 25) =
        BitVec.ofInt 32 ((p.wf_ (1 + k) (hqOff q + 4) 22 0 : Int) + (h : Int) * sext 16 (getF D 15 0))) ∧
      ∀ g o, o < 4096 → ¬ (g = 1 + k ∧ (o = hqOff q + 12 ∨ (getF D 26 25 ≠ 3 ∧ o = 0x90 + 0x10 * getF D 26 25))) →
        (hqPopped p k q).wreg g o = p.wreg g o := by
  have hag : getF (p.wreg (1 + k) (hqOff q)) 26 25 < 4 := getF_lt _ _ _
  unfold hqPopped
  dsimp only
  refine ⟨Spindle.wreg_setW_same _ _ _ _, fun h3 => ?_, fun g o ho hne => ?_⟩
  · rw [if_neg h3, Spindle.wreg_setW_other _ _ (by unfold hqOff; omega), Spindle.wreg_setW_same]
  · have hoff : g * 4096 + o ≠ (1 + k) * 4096 + (hqOff q + 12) := by
      unfold hqOff at hne ⊢
      omega
    rw [Spindle.wreg_setW_other _ _ hoff]
    split
    next => rfl
    next h3 => exact Spindle.wreg_setW_other _ _ (by omega)

theorem popHq_does {s : State} {sid k q : Nat} (hk : k < 4) (hq : q < 2) (hlen : 1 ≤ getF ((s.spin sid).wreg (1 + k) (hqOff q)) 24 16) :
    let p := s.spin sid
    let t := popHq s sid k q
    let D := p.wreg (1 + k) (hqOff q)
    let h := (p.wreg (1 + k) (hqOff q + 12)).toNat % getF D 24 16
    (t.spin sid).wreg (1 + k) (hqOff q + 12) = p.wreg (1 + k) (hqOff q + 12) + 1#32 ∧
      (t.spin sid).wreg 6 (0x400 + 0x20 * k + 0x10 * q) = p.wreg 6 (0x400 + 0x20 * k + 0x10 * q) + 1#32 ∧
      (getF D 26 25 ≠ 3 → (t.spin sid).wreg (1 + k) (0x90 + 0x10 * getF D 26 25) =
        BitVec.ofInt 32 ((p.wf_ (1 + k) (hqOff q + 4) 22 0 : Int) + (h : Int) * sext 16 (getF D 15 0))) ∧
      (∀ g o, o < 4096 → g ≠ 6 → ¬ (g = 1 + k ∧ (o = hqOff q + 12 ∨ (getF D 26 25 ≠ 3 ∧ o = 0x90 + 0x10 * getF D 26 25))) →
        (t.spin sid).wreg g o = p.wreg g o) ∧
      (∀ j, j ≠ sid → t.spin j = s.spin j) ∧ t = { s with spindles := t.spindles, regs := t.regs } := by
  obtain ⟨hcons, hbase, hkeep⟩ := hqPopped_does (s.spin sid) (k := k) hq
  have hag : getF ((s.spin sid).wreg (1 + k) (hqOff q)) 26 25 < 4 := getF_lt _ _ _
  obtain ⟨-, hother, -, hframe⟩ := onlyWindow_wbump48 (s.setSpin sid (hqPopped (s.spin sid) k q)) sid 6 (0x400 + 0x20 * k + 0x10 * q) 1
  have hspin := spin_wbump48 (s.setSpin sid (hqPopped (s.spin sid) k q)) sid 6 (0x400 + 0x20 * k + 0x10 * q) 1
  rw [State.spin_setSpin_same] at hspin
  have hrest : ∀ g o, o < 4096 → g ≠ 6 → ((popHq s sid k q).spin sid).wreg g o = (hqPopped (s.spin sid) k q).wreg g o := fun g o ho hg => by
    rw [popHq_pops hlen, hspin, wreg_bump48_other _ _ _ _ (by omega) (by omega)]
  dsimp only
  refine ⟨?_, ?_, fun h3 => ?_, fun g o ho hg hne => ?_, fun j hj => ?_, ?_⟩
  · rw [hrest _ _ (by unfold hqOff; omega) (by omega), hcons]
  · rw [popHq_pops hlen, hspin, bump48_lo, hkeep _ _ (by omega) (by omega)]
  · rw [hrest _ _ (by omega) (by omega), hbase h3]
  · rw [hrest g o ho hg, hkeep g o ho hne]
  · rw [popHq_pops hlen, hother j hj, State.spin_setSpin_other _ _ hj]
  · rw [popHq_pops hlen, hframe]
    rfl

/-- Settles O27. -/
theorem sendsAndPops : Obligations.SendsAndPops := by
  intro s sid act hup hk
  dsimp only
  refine ⟨fun hsend hroute hroom => ?send, fun q hcode hb htoken hrec hsize => ?rq, fun q hq hcode hb htoken => ?cq,
    fun q hq hcode hb htoken hlen => ?hq⟩
  case send =>
    exact ⟨_, congrArg Host.Outcome.next (sendRow_sends hup hsend hroute hroom), _, buildMsg_dest _ _ _ _, buildMsg_src _ _ _ _, rfl, rfl, rfl, rfl,
      sentTag_epoch _ _, fun i hi h => sentTag_rest _ _ hi h, buildMsg_ea_route rfl, buildMsg_ea_store rfl,
      fun hreg hreq => buildMsg_fromReg rfl hreg hreq, fun hreg hreq => buildMsg_fromStore rfl hreg hreq, rfl, rfl, rfl, startSend_does _ _ _ _⟩
  case rq =>
    have hq : q < 8 := by
      have hlt : fld act.toNat 113 110 < 16 := fld_lt _ _ _
      omega
    refine ⟨_, congrArg Host.Outcome.next ((popRow_pops hup hb (by rw [hcode]; exact htoken)).trans (by rw [hcode, popCode_rq])), ?_⟩
    exact popRq_does hq hrec hsize rfl rfl
  case cq =>
    obtain ⟨hacc, htok, hkeep⟩ := popCq_does (s.spin sid.toNat) (k := (s.spin sid.toNat).ply) hq
    refine ⟨_, congrArg Host.Outcome.next ((popRow_pops hup hb (by rw [hcode]; exact htoken)).trans (by rw [hcode, popCode_cq _ _ _ hq])), ?_⟩
    dsimp only
    rw [State.spin_modSpin_same]
    exact ⟨hacc, htok, hkeep, onlySpin_modSpin _ _ _⟩
  case hq =>
    refine ⟨_, congrArg Host.Outcome.next ((popRow_pops hup hb (by rw [hcode]; exact htoken)).trans (by rw [hcode, popCode_hq _ _ _ hq])), ?_⟩
    exact popHq_does hk hq hlen

end Sys2Proof.Machine
end

