-- ==== Sys2Proof/Proofs/FaultScope.lean ====
section
/-! PROOF. How far a run fault reaches: to HOLD of the spindles, to registers of the run and the channels, and to no event that has
occurred. -/
namespace Sys2Proof.Machine

/-- `t` differs from `s` in HOLD of the spindles at most, keeps the registers that satisfy `keep` and every event that has occurred. -/
structure Sheltered (keep : Nat → Prop) (s t : State) : Prop where
  spin : ∀ j, ∃ b, t.spin j = { s.spin j with hold := b }
  regs : ∀ o, keep o → t.reg o = s.reg o
  events : ∀ pg i, pg % 0x1000 = 0 → s.bget (pg + 0x18) i = true → t.bget (pg + 0x18) i = true

namespace Sheltered

variable {keep : Nat → Prop} {s t u : State}

theorem refl (keep : Nat → Prop) (s : State) : Sheltered keep s s := ⟨fun _ => ⟨_, rfl⟩, fun _ _ => rfl, fun _ _ _ h => h⟩

theorem trans (h : Sheltered keep s t) (k : Sheltered keep t u) : Sheltered keep s u := by
  obtain ⟨hspin, hregs, hevents⟩ := h
  obtain ⟨kspin, kregs, kevents⟩ := k
  refine ⟨fun j => ?_, fun o ho => (kregs o ho).trans (hregs o ho), fun pg i hpg hi => kevents pg i hpg (hevents pg i hpg hi)⟩
  obtain ⟨b, hb⟩ := hspin j
  obtain ⟨b', hb'⟩ := kspin j
  exact ⟨b', by rw [hb', hb]⟩

theorem mono {keep' : Nat → Prop} (h : Sheltered keep s t) (hk : ∀ o, keep' o → keep o) : Sheltered keep' s t :=
  ⟨h.spin, fun o ho => h.regs o (hk o ho), h.events⟩

/-- A change beside spindles and registers. -/
theorem of_beside (hspin : t.spindles = s.spindles) (hregs : t.regs = s.regs) : Sheltered keep s t := by
  have hreg : ∀ o, t.reg o = s.reg o := fun o => by rw [State.reg, hregs]; rfl
  refine ⟨fun j => ⟨_, State.spin_congr hspin j⟩, fun o _ => hreg o, fun pg i _ hi => ?_⟩
  rwa [State.bget, hreg]

/-- A change of registers alone. -/
theorem of_regs (h : onlyRegs s t) (hregs : ∀ o, keep o → t.reg o = s.reg o)
    (hevents : ∀ pg i, pg % 0x1000 = 0 → s.bget (pg + 0x18) i = true → t.bget (pg + 0x18) i = true) : Sheltered keep s t :=
  ⟨fun j => ⟨_, State.spin_congr h.spindles j⟩, hregs, hevents⟩

/-- A register that is not kept and holds no events. -/
theorem setReg {o : Nat} (ho : ¬ keep o) (h18 : o % 0x1000 ≠ 0x18) (v : Word) : Sheltered keep s (s.setReg o v) := by
  refine of_regs (State.onlyRegs_setReg _ _ _) (fun a ha => State.reg_setReg_other _ _ fun e => ho (e ▸ ha)) fun pg i hpg hi => ?_
  rw [State.bget, State.reg_setReg_other _ _ (by omega)]
  exact hi

theorem raise {pg : Nat} (hpg : pg % 0x1000 = 0) (h18 : ¬ keep (pg + 0x18)) (h1C : ¬ keep (pg + 0x1C)) (b : Nat) :
    Sheltered keep s (s.raise pg b) := by
  refine of_regs (State.onlyRegs_raise _ _ _) (fun a ha => State.reg_raise_other _ _ _ (fun e => h18 (e ▸ ha)) (fun e => h1C (e ▸ ha))) fun pg' i hpg' hi => ?_
  by_cases e : pg' = pg
  · rw [e] at hi ⊢
    exact State.bget_raise_keeps _ _ _ _ hi
  · rw [State.bget, State.reg_raise_other _ _ _ (by omega) (by omega)]
    exact hi

theorem raiseIf {pg : Nat} (hpg : pg % 0x1000 = 0) (h18 : ¬ keep (pg + 0x18)) (h1C : ¬ keep (pg + 0x1C)) (c : Bool) (b : Nat) :
    Sheltered keep s (s.raiseIf c pg b) := by
  cases c
  · exact refl _ _
  · exact raise hpg h18 h1C b

theorem bump48 {pg lo : Nat} (hpg : pg % 0x1000 = 0) (h18 : ¬ keep (pg + 0x18)) (h1C : ¬ keep (pg + 0x1C)) (hlo : ¬ keep lo)
    (hhi : ¬ keep (lo + 4)) (hl : lo % 0x1000 ≠ 0x18) (hh : (lo + 4) % 0x1000 ≠ 0x18) (n : Nat) : Sheltered keep s (s.bump48 pg lo n) := by
  have h2 : ∀ v w, Sheltered keep s ((s.setReg lo v).setReg (lo + 4) w) := fun v w => (setReg hlo hl v).trans (setReg hhi hh w)
  unfold State.bump48
  dsimp only
  split
  · exact ((h2 _ _).trans (setReg hhi hh _)).trans (raise hpg h18 h1C _)
  · exact h2 _ _

theorem forEach {α : Type} {f : α → State → State} (hf : ∀ a u, Sheltered keep u (f a u)) (l : List α) (s : State) :
    Sheltered keep s (forEach l f s) := forEach_inv (Sheltered keep s) f (fun a u h => h.trans (hf a u)) l s (refl _ _)

theorem setChan (h : Sheltered keep s t) (r c : Nat) (x : Chan) : Sheltered keep s (t.setChan r c x) := h.trans (of_beside rfl rfl)

theorem modRun (h : Sheltered keep s t) (f : Run → Run) : Sheltered keep s (t.modRun f) := h.trans (of_beside rfl rfl)

theorem setRinger (h : Sheltered keep s t) (f : Nat) (r : Ringer) : Sheltered keep s (t.setRinger f r) := h.trans (of_beside rfl rfl)

/-- Both ways of a test. -/
theorem ite {c : Prop} [Decidable c] (h : Sheltered keep s t) (k : Sheltered keep s u) : Sheltered keep s (if c then t else u) := by
  split
  · exact h
  · exact k

end Sheltered

/-! ### The channels of a faulted run (R336) -/

theorem chanPage_aligned (r c : Nat) : chanPage r c % 0x1000 = 0 ∧ 0x40000 ≤ chanPage r c := by
  unfold chanPage pReel fieldBase pHost
  split <;> omega

theorem chanBase_place (r c : Nat) : 0x40000 ≤ chanBase r c ∧ 0x100 ≤ chanBase r c % 0x1000 ∧ chanBase r c % 0x1000 ≤ 0x400 := by
  unfold chanBase pReel fieldBase pHost
  split <;> omega

section
variable {keep : Nat → Prop} (hkeep : ∀ o, keep o → o < 0x40000)
include hkeep

/-- A register of a channel's block. -/
theorem sheltered_chanReg (s : State) (r c : Nat) {a : Nat} (ha : a < 0x100) (v : Word) : Sheltered keep s (s.setReg (chanBase r c + a) v) := by
  obtain ⟨hlow, h100, h400⟩ := chanBase_place r c
  exact Sheltered.setReg (fun h => absurd (hkeep _ h) (by omega)) (by omega) v

/-- The counts of a stopped channel's dimensions. -/
theorem descCounts_sheltered {s u : State} {r c : Nat} (h : Sheltered keep s u) :
    Sheltered keep s (iter 5 (fun d s => s.fset (chanBase r c + 0x40 + 0x10 * d) 31 16 0) u) := by
  have hn : ∀ n, n ≤ 5 → Sheltered keep s (iter n (fun d s => s.fset (chanBase r c + 0x40 + 0x10 * d) 31 16 0) u) := by
    intro n
    induction n with
    | zero => exact fun _ => h
    | succ n ih =>
      intro hn
      rw [iter_succ, State.fset, Nat.add_assoc (chanBase r c)]
      exact (ih (by omega)).trans (sheltered_chanReg hkeep _ r c (by omega) _)
  exact hn 5 (le_refl 5)

theorem chanStop_sheltered (s : State) (r c : Nat) : Sheltered keep s (chanStop s r c) := by
  have hset : ∀ (u : State) (a : Nat) (v : Word), a < 0x100 → Sheltered keep s u → Sheltered keep s (u.setReg (chanBase r c + a) v) :=
    fun u a v ha hu => hu.trans (sheltered_chanReg hkeep u r c ha v)
  have hmix : ∀ {w : Nat} {u : State} {x y v : BitVec w} {u' : State}, u.mix x y = (v, u') → Sheltered keep s u → Sheltered keep s u' := by
    intro w u x y v u' h hu
    obtain rfl : (u.mix x y).2 = u' := congrArg Prod.snd h
    exact hu.trans (Sheltered.of_beside rfl rfl)
  have hlate : Sheltered keep s (noteLate s r c) := by
    unfold noteLate
    exact Sheltered.ite (Sheltered.refl _ _) (Sheltered.of_beside rfl rfl)
  obtain ⟨hpg, hge⟩ := chanPage_aligned r c
  unfold chanStop
  extract_lets b s1 x
  generalize hA : s1.mix _ _ = A
  obtain ⟨a, s2⟩ := A
  dsimp only
  generalize hD : s2.mix _ _ = D
  obtain ⟨d, s3⟩ := D
  dsimp only
  generalize hN : s3.mix _ _ = N
  obtain ⟨n, s4⟩ := N
  dsimp only
  have h4 : Sheltered keep s s4 := hmix hN (hmix hD (hmix hA hlate))
  refine Sheltered.trans (Sheltered.setChan (descCounts_sheltered hkeep ?_) r c _)
    (Sheltered.raise hpg (fun h => absurd (hkeep _ h) (by omega)) (fun h => absurd (hkeep _ h) (by omega)) _)
  have h5 := hset _ 4 (putF (((s4.fset b 31 5 (a.toNat / 32))).reg (b + 4)) 15 0 (a.toNat / 2 ^ 32)) (by decide)
    (hset s4 0 (putF (s4.reg b) 31 5 (a.toNat / 32)) (by decide) h4)
  exact hset _ 0x18 _ (by decide) (hset _ 0x10 _ (by decide) (hset _ 0xC _ (by decide) (hset _ 8 _ (by decide) h5)))

theorem chanFaultStop_sheltered (s : State) (r c : Nat) : Sheltered keep s (chanFaultStop s r c) := by
  unfold chanFaultStop
  exact Sheltered.ite (chanStop_sheltered hkeep s r c) (Sheltered.refl _ _)

end

/-! ### A fault (R335) -/

theorem postCpl_sheltered (keep : Nat → Prop) (s : State) (c : Cmd) (status detail : Nat) (k : Word) (r : BitVec 128) :
    Sheltered keep s (postCpl s c status detail k r) := by
  refine Sheltered.of_beside ?_ (State.postCpl_regs _ _ _ _ _ _)
  unfold postCpl
  dsimp only
  split <;> rfl

theorem postOwed_sheltered (keep : Nat → Prop) (s : State) : Sheltered keep s (postOwed s) := by
  unfold postOwed
  split
  · exact Sheltered.refl _ _
  · extract_lets owing first byId s1
    have h1 : Sheltered keep s s1 := Sheltered.forEach (fun k u => postCpl_sheltered keep u _ _ _ _ _) _ _
    exact h1.modRun _

theorem hold_sheltered (keep : Nat → Prop) (s : State) (k : Nat) : Sheltered keep s (s.modSpin k (fun q => { q with hold := true })) := by
  refine ⟨fun j => ?_, fun _ _ => rfl, fun _ _ _ h => h⟩
  by_cases e : j = k
  · rw [e, State.spin_modSpin_same]
    exact ⟨true, rfl⟩
  · rw [State.spin_modSpin_other _ _ e]
    exact ⟨_, rfl⟩

/-- What follows the record of a fault: HOLD, the channels, the completions (R335, R336). -/
def faultSpread (s : State) (c : Cause) : State :=
  let s := forEach s.run.starts (fun p s => s.modSpin p.1 (fun q => { q with hold := true })) s
  let s := forEach s.run.chans (fun rc s => chanFaultStop s rc.1 rc.2) s
  let s := forEach (List.range 64) (fun f s =>
    let r := s.ringer f
    s.setRinger f { r with held := r.held.filter (fun h => !heldClaimed s f h) }) s
  let s := postOwed (s.modRun (fun r => { r with strokes := r.strokes.map (fun k =>
    if k.faultable then { k with stage := .failed, owed := some c.code } else k) }))
  let s := match s.run.stopCmd with
    | some cmd => postCpl s cmd 6 c.code
    | none => s
  let s := match s.run.loadCmd with
    | some cmd => postCpl s cmd 6 c.code
    | none => s
  s.modRun (fun r => { r with stopCmd := none, loadCmd := none, jobs := [], peal := [], reading := false, fenceAt := none })

theorem faultSpread_sheltered (s : State) (c : Cause) : Sheltered (· < 0x40000) s (faultSpread s c) := by
  unfold faultSpread
  extract_lets s1 s2 s3 s4 s5 s6
  have h1 : Sheltered (· < 0x40000) s s1 := Sheltered.forEach (fun p u => hold_sheltered _ u _) _ _
  have h2 : Sheltered (· < 0x40000) s s2 := h1.trans (Sheltered.forEach (fun rc u => chanFaultStop_sheltered (fun _ h => h) u _ _) _ _)
  have h3 : Sheltered (· < 0x40000) s s3 := h2.trans (Sheltered.forEach (fun _ _ => (Sheltered.refl _ _).setRinger _ _) _ _)
  have h4 : Sheltered (· < 0x40000) s s4 := (h3.modRun _).trans (postOwed_sheltered _ _)
  have h5 : Sheltered (· < 0x40000) s s5 := by
    unfold s5
    split
    · exact h4.trans (postCpl_sheltered _ _ _ _ _ _ _)
    · exact h4
  have h6 : Sheltered (· < 0x40000) s s6 := by
    unfold s6
    split
    · exact h5.trans (postCpl_sheltered _ _ _ _ _ _ _)
    · exact h5
  exact h6.modRun _

section
variable (keep : Nat → Prop) (hkeep : ∀ o, keep o → o < 0x1000)
include hkeep

theorem addLog_sheltered (s : State) (code sev : Nat) (l : List Nat) (a b : Nat) (st : Option (Nat × Nat)) :
    Sheltered keep s (addLog s code sev l a b st) := by
  have hmbox : ∀ o, o < 0x1000 → ¬ keep (pMbox 0 + o) := fun o _ h => absurd (hkeep _ h) (by unfold pMbox; omega)
  unfold addLog
  split
  · exact Sheltered.refl _ _
  · dsimp only
    refine Sheltered.trans (Sheltered.trans ?_ (Sheltered.setReg (hmbox _ (by decide)) (by decide) _))
      (Sheltered.raiseIf (by decide) (hmbox _ (by decide)) (hmbox _ (by decide)) _ _)
    exact Sheltered.of_beside rfl rfl

theorem recordFault_sheltered (s : State) (c : Cause) : Sheltered keep s (recordFault s c) := by
  have hrun : ∀ o, ¬ keep (pRun + o) := fun o h => absurd (hkeep _ h) (by unfold pRun; omega)
  have hset : ∀ {u : State} (o : Nat) (v : Word), (pRun + o) % 0x1000 ≠ 0x18 → Sheltered keep s u → Sheltered keep s (u.setReg (pRun + o) v) :=
    fun o v ho hu => hu.trans (Sheltered.setReg (hrun o) ho v)
  unfold recordFault
  exact hset _ _ (by decide) (hset _ _ (by decide) (hset _ _ (by decide) (hset _ _ (by decide) (hset _ _ (by decide) (Sheltered.refl _ _)))))

theorem setRunState_sheltered (s : State) (v : Nat) : Sheltered keep s (setRunState s v) := by
  have hrun : ∀ o, ¬ keep (pRun + o) := fun o h => absurd (hkeep _ h) (by unfold pRun; omega)
  exact (Sheltered.setReg (hrun _) (by decide) _).trans (Sheltered.raiseIf (by decide) (hrun _) (hrun _) _ _)

/-- A fault of a run that is not FAULTED: its record, and what it spreads to. -/
theorem runFault_active {s : State} (c : Cause) (h0 : s.runState ≠ 0) (h5 : s.runState ≠ 5) :
    ∃ u, runFault s c = faultSpread u c ∧ Sheltered keep s u ∧ (s.running = true → u = faultShown s c) := by
  have hrun : ∀ o, ¬ keep (pRun + o) := fun o h => absurd (hkeep _ h) (by unfold pRun; omega)
  unfold runFault
  extract_lets st s1 s2 s3 s4 s5 s6 s7 s8 s9 s10 s11 s12 s13
  have hs1 : s1 = _ := if_neg h0
  have h1 : Sheltered keep s s1 := by
    rw [hs1]
    exact addLog_sheltered keep hkeep _ _ _ _ _ _ _
  have h4 : Sheltered keep s s4 := h1.trans (Sheltered.ite (Sheltered.setReg (hrun _) (by decide) _) (Sheltered.refl _ _))
  have hs5 : Sheltered keep s s5 := h4.trans (Sheltered.bump48 (by decide) (hrun _) (hrun _) (hrun _) (hrun 0xA4) (by decide) (by decide) _)
  have h6 : Sheltered keep s s6 := hs5.trans (Sheltered.ite (Sheltered.refl _ _) (recordFault_sheltered keep hkeep _ _))
  have h7 : Sheltered keep s s7 :=
    (h6.trans (setRunState_sheltered keep hkeep _ _)).trans (Sheltered.raise (by decide) (hrun _) (hrun _) _)
  rw [if_neg (show ¬ st = 0 from h0), if_neg (show ¬ st = 5 from h5)]
  refine ⟨s7, rfl, h7, fun hr => ?_⟩
  have hst : s.runState = 3 ∨ s.runState = 4 := by simpa [State.running] using hr
  have hs4 : s4 = s1 := if_neg (show ¬ s.runState = 1 by omega)
  unfold s7 s6 s5 faultShown
  rw [hs4, hs1]

/-- No fault changes more of a spindle than HOLD, clears an event, or writes the page of the engine. -/
theorem runFault_sheltered (s : State) (c : Cause) : Sheltered keep s (runFault s c) := by
  have hrun : ∀ o, ¬ keep (pRun + o) := fun o h => absurd (hkeep _ h) (by unfold pRun; omega)
  by_cases h0 : s.runState = 0
  · unfold runFault
    dsimp only
    rw [if_pos h0]
    simp only [if_pos h0]
    exact Sheltered.refl _ _
  · by_cases h5 : s.runState = 5
    · unfold runFault
      extract_lets st s1 s2 s3
      have h1 : Sheltered keep s s1 := Sheltered.ite (Sheltered.refl _ _) (addLog_sheltered keep hkeep _ _ _ _ _ _ _)
      have h2 : Sheltered keep s s2 := h1.trans (Sheltered.bump48 (by decide) (hrun _) (hrun _) (hrun _) (hrun 0xA4) (by decide) (by decide) _)
      have h3 : Sheltered keep s s3 := h2.trans (Sheltered.ite ((recordFault_sheltered keep hkeep _ _).modRun _)
        (Sheltered.ite (Sheltered.refl _ _) (recordFault_sheltered keep hkeep _ _)))
      rw [if_neg (show ¬ st = 0 from h0), if_pos (show st = 5 from h5)]
      exact h3.trans (Sheltered.raise (by decide) (hrun _) (hrun _) _)
    · obtain ⟨u, heq, hu, -⟩ := runFault_active keep hkeep c h0 h5
      rw [heq]
      exact hu.trans ((faultSpread_sheltered u c).mono fun o ho => (hkeep o ho).trans (by decide))

end

/-- FAULT holds the code of the fault. -/
theorem fget_recordFault (s : State) {c : Cause} (h : c.code < 256) : (recordFault s c).fget (pRun + 0x60) 15 8 = c.code := by
  unfold recordFault State.fget
  dsimp only
  iterate 4 rw [State.reg_setReg_other _ _ (by omega)]
  rw [State.reg_setReg_same, getF_ofNat _ (by decide)]
  have hs : c.sid.isSome.toNat ≤ 1 := Bool.toNat_le _
  have hf : c.field.isSome.toNat ≤ 1 := Bool.toNat_le _
  omega

/-- A fault of a running run: FAULTED, the first fault recorded (R335). -/
theorem runFault_faults {s : State} {c : Cause} (hcode : c.code < 256) (hrun : s.running = true) :
    (runFault s c).runState = 5 ∧ (s.bget (pRun + 0x60) 31 = false → (runFault s c).fget (pRun + 0x60) 15 8 = c.code) := by
  have hst : s.runState = 3 ∨ s.runState = 4 := by simpa [State.running] using hrun
  obtain ⟨u, heq, -, hu⟩ := runFault_active (· < 0x1000) (fun _ h => h) c (by omega : s.runState ≠ 0) (by omega : s.runState ≠ 5)
  have hreg : ∀ o, o < 0x1000 → (runFault s c).reg (pRun + o) = (faultShown s c).reg (pRun + o) := fun o ho => by
    rw [heq, (faultSpread_sheltered u c).regs _ (show pRun + o < 0x40000 by unfold pRun; omega), hu hrun]
  rw [State.runState, State.fget, State.fget, hreg _ (by decide), hreg _ (by decide)]
  unfold faultShown
  extract_lets s1 s2 s3
  have hpRun : pRun = 0x2000 := rfl
  have hpMbox : pMbox 0 = 0x10000 := rfl
  refine ⟨?_, fun h => ?_⟩
  · rw [State.reg_raise_other _ _ _ (by omega) (by omega)]
    exact runState_setRunState s3 5
  · have h60 : s2.reg (pRun + 0x60) = s.reg (pRun + 0x60) := by
      rw [State.reg_bump48_other _ _ _ _ (by omega) (by omega) (by omega) (by omega), reg_addLog_other _ _ _ _ _ _ _ (by omega) (by omega) (by omega)]
    have h3 : s3 = recordFault s2 c := if_neg (by rw [State.bget, h60]; simpa [State.bget] using h)
    rw [State.reg_raise_other _ _ _ (by omega) (by omega), reg_setRunState_other _ _ (by omega) (by omega) (by omega), h3]
    exact fget_recordFault s2 hcode

end Sys2Proof.Machine
end

