-- ==== Sys2Proof/Proofs/SequencerSteps.lean ====
section
/-! PROOF. A sequencer cycle stalls, skips, waits or fires (R161); no part of a firing action but its switch changes the active ply. -/
namespace Sys2Proof.Machine

/-! ### What keeps the active ply -/

/-- The active ply of spindle `sid` is the same in both states. -/
def SamePly (sid : Nat) (s t : State) : Prop := (t.spin sid).ply = (s.spin sid).ply

namespace SamePly

variable {sid : Nat} {s t u : State}

theorem refl (sid : Nat) (s : State) : SamePly sid s s := rfl

theorem trans (h : SamePly sid s t) (k : SamePly sid t u) : SamePly sid s u := Eq.trans k h

theorem of_spindles (h : t.spindles = s.spindles) : SamePly sid s t := congrArg Spindle.ply (State.spin_congr h sid)

theorem of_onlyRegs (h : onlyRegs s t) : SamePly sid s t := of_spindles h.spindles

theorem setSpin {q : Spindle} (h : q.ply = (s.spin sid).ply) : SamePly sid s (s.setSpin sid q) := by
  rw [SamePly, State.spin_setSpin_same]
  exact h

theorem modSpin {f : Spindle → Spindle} (h : ∀ p, (f p).ply = p.ply) : SamePly sid s (s.modSpin sid f) := setSpin (h _)

theorem of_onlyWindow {p : Nat → Prop} (h : onlyWindow p sid s t) : SamePly sid s t := by
  obtain ⟨hspin, -⟩ := h
  rw [SamePly, hspin]

theorem of_sheltered {keep : Nat → Prop} (h : Sheltered keep s t) : SamePly sid s t := by
  obtain ⟨b, hb⟩ := h.spin sid
  rw [SamePly, hb]

theorem ite {c : Prop} [Decidable c] (h : SamePly sid s t) (k : SamePly sid s u) : SamePly sid s (if c then t else u) := by
  split
  · exact h
  · exact k

theorem forEach {α : Type} {f : α → State → State} (hf : ∀ a u, SamePly sid u (f a u)) (l : List α) (s : State) :
    SamePly sid s (forEach l f s) := forEach_inv (SamePly sid s) f (fun a u h => h.trans (hf a u)) l s (refl _ _)

end SamePly

@[simp] theorem ply_setW (p : Spindle) (g o : Nat) (v : Word) : (p.setW g o v).ply = p.ply := rfl
@[simp] theorem ply_setWf (p : Spindle) (g o hi lo v : Nat) : (p.setWf g o hi lo v).ply = p.ply := rfl

theorem ply_form (p : Spindle) (due : Option Nat) (x : Formed) : (p.form due x).ply = p.ply := by cases due <;> rfl

theorem ply_setTap (p : Spindle) (t v : Nat) : (p.setTap t v).ply = p.ply := ply_setWf _ _ _ _ _ _

theorem ply_addFlags (p : Spindle) (k : Nat) (f : Flags) : (p.addFlags k f).ply = p.ply := ply_setW _ _ _ _

theorem ply_errLast (p : Spindle) (L : Nat) (unc : Bool) : (p.errLast L unc).ply = p.ply := by
  unfold Spindle.errLast
  split
  · rfl
  · exact ply_setW _ _ _ _

theorem ply_errFlag (p : Spindle) (i L : Nat) (unc : Bool) : ((p.spFlag i).errLast L unc).ply = p.ply := by
  rw [ply_errLast, Spindle.spFlag, ply_setW]

section
variable (s : State) (sid : Nat)

theorem samePly_wbump48 (page lo n : Nat) : SamePly sid s (wbump48 s sid page lo n) := .of_onlyWindow (onlyWindow_wbump48 _ _ _ _ _)

theorem samePly_wbump31 (page o n : Nat) : SamePly sid s (wbump31 s sid page o n) := .of_onlyWindow (onlyWindow_wbump31 _ _ _ _ _)

theorem samePly_writeLine (a : Nat) (l : Line) : SamePly sid s (writeLine s a l) := .of_spindles (writeLine_spindles _ _ _)

theorem samePly_free (n : Nat) : SamePly sid s (s.free n).2 := .of_spindles rfl

theorem samePly_mix {n : Nat} (x y : BitVec n) : SamePly sid s (s.mix x y).2 := .of_spindles rfl

theorem samePly_storeErr (L : Nat) (unc : Bool) : SamePly sid s (storeErr s sid L unc) := by
  unfold storeErr
  extract_lets s1 s2
  have h1 : SamePly sid s s1 := .modSpin fun p => ply_errFlag p _ _ _
  have h2 : SamePly sid s s2 := h1.trans (samePly_wbump31 _ _ _ _ _)
  exact .ite (h2.trans (.of_onlyRegs (State.onlyRegs_errUncorr _ _))) (h2.trans (.of_onlyRegs (State.onlyRegs_errCorr _ _)))

/-- A corrected line waits for its write-back (R61). -/
theorem samePly_corrected (L : Nat) :
    SamePly sid s ((storeErr s sid L false).modSpin sid (fun p => { p with wback := p.wback ++ [L % 2048] })) :=
  (samePly_storeErr s sid L false).trans (.modSpin fun _ => rfl)

theorem samePly_storeRead (L : Nat) (c : Cond) : SamePly sid s (storeRead s sid L c).2 := by
  unfold storeRead
  dsimp only
  cases effCond (readLine s (storeAddr sid L)) c with
  | clean => exact .refl _ _
  | corr => exact samePly_corrected s sid L
  | wrong => exact (samePly_corrected s sid L).trans ((samePly_free _ _ _).trans (samePly_writeLine _ _ _ _))
  | bad =>
    dsimp only
    split
    · exact samePly_storeErr s sid L true
    · exact (samePly_storeErr s sid L true).trans ((samePly_mix _ _ _ _).trans (samePly_writeLine _ _ _ _))

theorem samePly_storeWrite (L nib : Nat) (d : BitVec 256) (c : Cond) : SamePly sid s (storeWrite s sid L nib d c) := by
  unfold storeWrite
  dsimp only
  refine .ite (.refl _ _) (.ite (samePly_writeLine _ _ _ _) ?_)
  cases effCond (readLine s (storeAddr sid L)) c with
  | clean => exact samePly_writeLine _ _ _ _
  | corr => exact (samePly_storeErr s sid L false).trans (samePly_writeLine _ _ _ _)
  | wrong => exact (samePly_storeErr s sid L false).trans ((samePly_free _ _ _).trans (samePly_writeLine _ _ _ _))
  | bad =>
    dsimp only
    refine .ite ?_ ?_
    · exact (samePly_storeErr s sid L true).trans (samePly_writeLine _ _ _ _)
    · exact (samePly_storeErr s sid L true).trans ((samePly_mix _ _ _ _).trans (samePly_writeLine _ _ _ _))

/-! ### The parts of a firing action (R162) -/

theorem samePly_startSend (k w : Nat) : SamePly sid s (startSend s sid k w) := .modSpin fun _ => rfl

theorem samePly_spoiled (r : Nat) (v : BitVec 512) : SamePly sid s (spoiled s sid r v).2 := by
  unfold spoiled
  dsimp only
  refine (samePly_mix s sid _ _).trans (.ite (.of_sheltered (runFault_sheltered (· < 0x1000) (fun _ h => h) _ _)) (.refl _ _))

theorem samePly_mpReadVal (r : Nat) (lines : List (Option Nat)) (conds : List Cond) : SamePly sid s (mpReadVal s sid r lines conds).2 := by
  have hline : ∀ (u : State) (i : Nat), SamePly sid u (match nth none lines i with
      | some L => storeRead u sid L (nth .clean conds i)
      | none => ({}, u)).2 := fun u i => by
    split
    · exact samePly_storeRead u sid _ _
    · exact .refl _ _
  unfold mpReadVal
  dsimp only
  have h2 := (hline s 0).trans (hline _ 1)
  split
  · exact h2.trans (samePly_spoiled _ _ _ _)
  · exact h2

theorem samePly_cqReadVal (r k q qag : Nat) : SamePly sid s (cqReadVal s sid r k q qag).2 := by
  have hmarked : ∀ L, SamePly sid s ((s.free 11).2.modSpin sid (fun p => (p.spFlag 3).errLast L true)) := fun L =>
    (samePly_free s sid 11).trans (.modSpin fun p => ply_errFlag p _ _ _)
  unfold cqReadVal
  dsimp only
  split
  · exact (((hmarked _).trans (samePly_wbump31 _ _ _ _ _)).trans (.of_onlyRegs (State.onlyRegs_errUncorr _ _))).trans (samePly_spoiled _ _ _ _)
  · exact .modSpin fun p => ply_addFlags p _ _

theorem samePly_fireRead (k w : Nat) (conds : List Cond) : SamePly sid s (fireRead s sid k w conds) := by
  unfold fireRead
  dsimp only
  refine .ite ?_ (.refl _ _)
  split
  · exact (samePly_cqReadVal s sid _ _ _ _).trans (.modSpin fun _ => rfl)
  · exact (samePly_mpReadVal s sid _ _ _).trans (.modSpin fun _ => rfl)

theorem ply_setCqAcc (p : Spindle) (k q l : Nat) (v : BitVec 128) : (setCqAcc p k q l v).ply = p.ply :=
  iter_inv (fun x : Spindle => x.ply = p.ply) 4 _ (fun _ x h => (ply_setW x _ _ _).trans h) _ rfl

theorem ply_clearCqAcc (p : Spindle) (k q : Nat) : (clearCqAcc p k q).ply = p.ply :=
  iter_inv (fun x : Spindle => x.ply = p.ply) 16 _ (fun _ x h => (ply_setCqAcc x _ _ _ _).trans h) _ rfl

theorem ply_popCq (p : Spindle) (k q : Nat) : (popCq p k q).ply = p.ply := by
  unfold popCq
  rw [ply_setW, ply_clearCqAcc]

theorem ply_rqPopped (p : Spindle) (k q h u n : Nat) : (rqPopped p k q h u n).ply = p.ply := rfl

theorem samePly_popRq (k q : Nat) : SamePly sid s (popRq s sid k q) := by
  unfold popRq
  extract_lets p
  generalize rqHeadRec s sid k q = head
  obtain ⟨h, skip⟩ := head
  dsimp only
  split
  · exact .setSpin (ply_rqPopped _ _ _ _ _ _)
  · exact .setSpin (ply_rqPopped _ _ _ _ _ _)

theorem samePly_popHq (k q : Nat) : SamePly sid s (popHq s sid k q) := by
  unfold popHq
  dsimp only
  refine SamePly.trans (.setSpin ?_) (samePly_wbump48 _ _ _ _ _)
  rw [ply_setW]
  split
  · rfl
  · rw [ply_setW]

theorem samePly_popCode (k code : Nat) : SamePly sid s (popCode s sid k code) := by
  unfold popCode
  exact .ite (.refl _ _) (.ite (samePly_popHq _ _ _ _) (.ite (.modSpin fun p => ply_popCq p _ _) (samePly_popRq _ _ _ _)))

theorem samePly_firePops (k w : Nat) : SamePly sid s (firePops s sid k w) := by
  unfold firePops
  dsimp only
  exact .ite (samePly_popCode _ _ _ _) ((samePly_popCode _ _ _ _).trans (samePly_popCode _ _ _ _))

theorem samePly_fireWrite (p : Spindle) (k w : Nat) (conds : List Cond) : SamePly sid s (fireWrite s p sid k w conds) := by
  unfold fireWrite
  exact .forEach (fun _ u => samePly_storeWrite u sid _ _ _ _) _ _

theorem samePly_fireVu (p : Spindle) (k act word : Nat) : SamePly sid s (fireVu s p sid k act word) := by
  unfold fireVu
  dsimp only
  exact .ite (.refl _ _) (.ite (.modSpin fun p => ply_addFlags p _ _) (.modSpin fun p => ply_setWf _ _ _ _ _ _))

theorem ply_ctrStep (p : Spindle) (k i : Nat) : (ctrStep p k i).ply = p.ply := ply_setWf _ _ _ _ _ _

theorem ply_ctrUpdate (p : Spindle) (k w : Nat) : (ctrUpdate p k w).ply = p.ply := by
  unfold ctrUpdate
  refine List.foldlRecOn (motive := fun x : Spindle × Bool => x.1.ply = p.ply) _ _ rfl fun x hx i _ => ?_
  dsimp only
  split
  · exact (ply_ctrStep _ _ _).trans hx
  · exact (ply_setWf _ _ _ _ _ _).trans hx
  · split
    · exact (ply_ctrStep _ _ _).trans hx
    · exact hx
  · exact hx

theorem samePly_tapAdd (t n : Nat) : SamePly sid s (tapAdd s sid t n) := by
  unfold tapAdd
  extract_lets p s1
  have h1 : SamePly sid s s1 := .setSpin ((ply_form _ _ _).trans (ply_setTap _ _ _))
  refine .ite h1 (h1.trans (.forEach (fun kq u => ?_) _ _))
  extract_lets q o prod u1
  have hu1 : SamePly sid u u1 := .setSpin ((ply_form _ _ _).trans (ply_setW _ _ _ _))
  exact hu1.trans (.of_onlyRegs (State.onlyRegs_raiseIf _ _ _ _))

theorem samePly_fireTaps (w : Nat) : SamePly sid s (fireTaps s sid w) := by
  unfold fireTaps
  dsimp only
  exact .ite (samePly_tapAdd _ _ _ _) ((samePly_tapAdd _ _ _ _).trans (samePly_tapAdd _ _ _ _))

/-! ### The start of a cycle -/

theorem samePly_closeCycle (conds : List Cond) : SamePly sid s (closeCycle s sid conds) := by
  unfold closeCycle
  extract_lets p q q' s1
  have hq : q.ply = p.ply := List.foldlRecOn (motive := fun x : Spindle => x.ply = p.ply) _ _ rfl fun x hx _ _ => hx
  have h1 : SamePly sid s s1 := .setSpin hq
  split
  · exact h1
  · extract_lets need ic r
    refine .ite h1 ?_
    have hr : SamePly sid s r.2 := List.foldlRecOn (motive := fun x : List Line × State => SamePly sid s x.2) _ _ h1
      fun x hx _ _ => hx.trans (samePly_storeRead _ _ _ _)
    exact hr.trans (.modSpin fun _ => rfl)

theorem samePly_watchCycle : SamePly sid s (watchCycle s sid) := by
  unfold watchCycle
  refine .ite (.refl _ _) ?_
  extract_lets s1
  have h1 : SamePly sid s s1 := by
    refine .forEach (fun k u => .forEach (fun i v => ?_) _ _) _ _
    extract_lets cq q key x b v1 x'
    have hv1 : SamePly sid v v1 := .ite (samePly_wbump48 _ _ _ _ _) (.refl _ _)
    exact hv1.trans (.modSpin fun _ => rfl)
  exact .ite (h1.trans (samePly_wbump48 _ _ _ _ _)) h1

theorem ply_epCycle (p : Spindle) : (epCycle p).ply = p.ply := by
  unfold epCycle
  split
  · split <;> rfl
  · rfl

theorem samePly_cycleStart (conds : List Cond) : SamePly sid s (cycleStart s sid conds) :=
  (samePly_closeCycle s sid conds).trans ((samePly_watchCycle _ _).trans (.modSpin fun p => ply_epCycle p))

/-! ### A firing action (R161, R162) -/

/-- Whether an action's SW_MODE asks for a switch (R157). -/
def switchAsked (p : Spindle) (k w : Nat) : Bool :=
  match fld w 237 236 with
  | 1 => true
  | 2 => condOf p k w
  | _ => false

/-- The record of a spindle whose action has fired, but for its next action. -/
def fired (p : Spindle) (busy carry carry2 : BitVec 8) : Spindle := { p with busy := busy, carry := carry, carry2 := carry2, stall := 0 }

/-- Every effect of a firing action precedes its step to the next one. -/
theorem fireAction_steps (k act w : Nat) (conds : List Cond) : ∃ u q, SamePly sid s u ∧ q.ply = (u.spin sid).ply ∧ q.stall = 0 ∧
    fireAction s sid k act w conds = u.setSpin sid (if switchAsked (s.spin sid) k w && fld w 235 234 != k then
      switchPly q (fld w 235 234) (nextAct (s.spin sid) k w) else q.setCur k (nextAct (s.spin sid) k w)) := by
  have hnext : (if w.testBit 238 || condOf (s.spin sid) k w then fld w 255 250 else fld w 249 244) = nextAct (s.spin sid) k w := by
    unfold nextAct
    exact if_congr (Bool.or_eq_true_iff) rfl rfl
  unfold fireAction
  extract_lets p0 cond rd rb wr later now rmw s1 s2 s3 s4 s5 s6 s7 s8 s9 next sw
  have h1 : SamePly sid s s1 := .ite (samePly_startSend _ _ _ _) (.refl _ _)
  have h2 : SamePly sid s s2 := h1.trans (samePly_fireRead _ _ _ _ _)
  have h3 : SamePly sid s s3 := h2.trans (samePly_firePops _ _ _ _)
  have h4 : SamePly sid s s4 := h3.trans (samePly_fireWrite _ _ _ _ _ _)
  have h5 : SamePly sid s s5 := h4.trans (samePly_fireVu _ _ _ _ _ _)
  have h6 : SamePly sid s s6 := h5.trans (.modSpin fun p => ply_ctrUpdate p _ _)
  have h7 : SamePly sid s s7 := h6.trans (samePly_fireTaps _ _ _)
  have h8 : SamePly sid s s8 := .ite (h7.trans (.modSpin fun _ => rfl)) h7
  have h9 : SamePly sid s s9 := h8.trans (samePly_wbump48 _ _ _ _ _)
  have hn : next = nextAct (s.spin sid) k w := hnext
  have hs : sw = switchAsked (s.spin sid) k w := by
    unfold sw switchAsked
    generalize fld w 237 236 = m
    match m with
    | 0 | 1 | 2 | _ + 3 => rfl
  rw [hn, hs]
  refine ⟨s9, fired (s9.spin sid) ((s9.spin sid).busy ||| rb ||| now) ((s9.spin sid).carry ||| later ||| (rmw &&& now))
    ((s9.spin sid).carry2 ||| (rmw &&& later)), h9, rfl, rfl, ?_⟩
  unfold State.modSpin fired
  rfl

end

end Sys2Proof.Machine
end

