-- ==== Sys2Proof/Proofs/SequencerCycle.lean ====
section
/-! PROOF. The rule of R161, over the parts of a cycle. -/
namespace Sys2Proof.Machine

/-! ### A cycle that holds its action (R86, R161) -/

/-- `t` is `s` with STALL of spindle `sid` at `code`, counters of its pages 5 and 6, and registers outside the spindle. -/
structure Stalled (sid code : Nat) (s t : State) : Prop where
  spin : t.spin sid = { s.spin sid with stall := code, win := (t.spin sid).win }
  wreg : ∀ g o, o < 4096 → g ≠ 5 → g ≠ 6 → (t.spin sid).wreg g o = (s.spin sid).wreg g o
  other : ∀ j, j ≠ sid → t.spin j = s.spin j
  frame : t = { s with spindles := t.spindles, regs := t.regs }

namespace Stalled

variable {sid code : Nat} {s t : State}

theorem start (sid code : Nat) (s : State) : Stalled sid code s (s.modSpin sid (fun p => { p with stall := code })) := by
  refine ⟨?_, fun g o _ _ _ => ?_, fun j hj => State.spin_modSpin_other _ _ hj, rfl⟩
  · rw [State.spin_modSpin_same]
  · rw [State.spin_modSpin_same]
    rfl

/-- One more count of page 5 or 6. -/
theorem count (h : Stalled sid code s t) {page lo : Nat} (hpage : page = 5 ∨ page = 6) (hlo : lo + 4 < 4096) (n : Nat) :
    Stalled sid code s (wbump48 t sid page lo n) := by
  obtain ⟨hspin, hwreg, hother, hframe⟩ := h
  obtain ⟨kspin, kother, -, kframe⟩ := onlyWindow_wbump48 t sid page lo n
  refine ⟨?_, fun g o ho h5 h6 => ?_, fun j hj => (kother j hj).trans (hother j hj), ?_⟩
  · rw [kspin, hspin]
  · rw [spin_wbump48, wreg_bump48_other _ _ _ _ (by omega) (by omega)]
    exact hwreg g o ho h5 h6
  · rw [kframe, hframe]

theorem ite {c : Prop} [Decidable c] {u : State} (h : Stalled sid code s t) (k : Stalled sid code s u) : Stalled sid code s (if c then t else u) := by
  split
  · exact h
  · exact k

end Stalled

theorem stallCycle_stalls (s : State) (sid : Nat) {k : Nat} (hk : k < 4) (code w : Nat) : Stalled sid code s (stallCycle s sid k code w) := by
  unfold stallCycle
  extract_lets s1 s2
  have h1 : Stalled sid code s s1 := .start _ _ _
  have h2 : Stalled sid code s s2 := .ite (h1.count (.inl rfl) (by decide) _) h1
  refine .ite (forEach_mem (Stalled sid code s) _ _ _ (fun c hc u hu => .ite (hu.count (.inr rfl) ?_ _) hu) h2) h2
  rw [List.mem_cons, List.mem_singleton] at hc
  omega

/-! ### The evaluation of the current action (R161) -/

/-- A cycle without an action to evaluate: no running run, HOLD, a spindle that has failed, or a ply that is not loaded. -/
def seqIdle (s : State) (sid : Nat) : Prop :=
  s.live sid = false ∨ (s.spin sid).hold = true ∨ (s.spin sid).dead = true ∨ (s.spin sid).loaded (s.spin sid).ply = false

section
variable {s : State} {sid : Nat} (conds : List Cond)

theorem seqIdle_iff : (!s.live sid || (s.spin sid).hold || (s.spin sid).dead || !(s.spin sid).loaded (s.spin sid).ply) = true ↔ seqIdle s sid := by
  unfold seqIdle
  simp only [Bool.or_eq_true, Bool.not_eq_true', or_assoc]

theorem sequence_idle (h : seqIdle s sid) : sequence s sid conds = stallCycle s sid (s.spin sid).ply 7 0 := if_pos (seqIdle_iff.2 h)

variable {k w : Nat} (hk : (s.spin sid).ply = k) (hw : (s.spin sid).action k ((s.spin sid).curAct k) = w) (hbusy : ¬ seqIdle s sid)
include hk hw hbusy

theorem sequence_skip (hskip : w.testBit 238 = true) (hcond : condOf (s.spin sid) k w = false) :
    sequence s sid conds = (stallCycle s sid k 1 w).modSpin sid (fun p => p.setCur k (fld w 249 244)) := by
  unfold sequence
  dsimp only
  rw [if_neg (mt seqIdle_iff.1 hbusy), hk, hw, if_pos (by rw [hskip, hcond]; rfl)]

variable (hact : ¬ (w.testBit 238 = true ∧ condOf (s.spin sid) k w = false))
include hact

theorem sequence_hold {x : Nat} {rest : List Nat}
    (hwait : waitCodes (seenBy s sid) sid k ((s.spin sid).curAct k) w (s.spin sid).busy = x :: rest) :
    sequence s sid conds = stallCycle s sid k x w := by
  have hno : ¬ (w.testBit 238 && !condOf (s.spin sid) k w) = true := by rwa [Bool.and_eq_true, Bool.not_eq_true']
  unfold sequence
  dsimp only
  rw [if_neg (mt seqIdle_iff.1 hbusy), hk, hw, if_neg hno, hwait]

theorem sequence_fire (hwait : waitCodes (seenBy s sid) sid k ((s.spin sid).curAct k) w (s.spin sid).busy = []) :
    sequence s sid conds = fireAction s sid k ((s.spin sid).curAct k) w conds := by
  have hno : ¬ (w.testBit 238 && !condOf (s.spin sid) k w) = true := by rwa [Bool.and_eq_true, Bool.not_eq_true']
  unfold sequence
  dsimp only
  rw [if_neg (mt seqIdle_iff.1 hbusy), hk, hw, if_neg hno, hwait]

end

/-! ### The end of a cycle -/

section
variable (p : Spindle)
@[simp] theorem stall_cycleEnd : (cycleEnd p).stall = p.stall := rfl
@[simp] theorem cur_cycleEnd : (cycleEnd p).cur = p.cur := rfl
@[simp] theorem ply_cycleEnd : (cycleEnd p).ply = p.ply := rfl
@[simp] theorem vreg_cycleEnd (r : Nat) : (cycleEnd p).vreg r = p.vreg r := rfl
@[simp] theorem wreg_cycleEnd (g o : Nat) : (cycleEnd p).wreg g o = p.wreg g o := rfl
@[simp] theorem saved_cycleEnd (k : Nat) : (cycleEnd p).saved k = p.saved k := rfl
@[simp] theorem curAct_cycleEnd (k : Nat) : (cycleEnd p).curAct k = p.curAct k := rfl
@[simp] theorem stall_setCur (k a : Nat) : (p.setCur k a).stall = p.stall := rfl
@[simp] theorem stall_setActive (k : Nat) (b : Bool) : (p.setActive k b).stall = p.stall := rfl
@[simp] theorem stall_setSaved (k a : Nat) : (p.setSaved k a).stall = p.stall := rfl
@[simp] theorem stall_setPly (k : Nat) : ({ p with ply := k } : Spindle).stall = p.stall := rfl
end

theorem stall_switchPly (p : Spindle) (q next : Nat) : (switchPly p q next).stall = p.stall := by
  unfold switchPly enterPly
  simp only [stall_setActive, stall_setCur]
  exact stall_setSaved _ _ _

/-- What a cycle that holds its action keeps. -/
theorem Stalled.held {sid code : Nat} {s t : State} (h : Stalled sid code s t) (f : Spindle → Spindle)
    (hf : ∀ p, (f p).stall = p.stall ∧ (f p).ply = p.ply ∧ (∀ r, (f p).vreg r = p.vreg r) ∧ ∀ g o, (f p).wreg g o = p.wreg g o) :
    let u := t.modSpin sid f
    (u.spin sid).stall = code ∧ (∀ j, j ≠ sid → u.spin j = s.spin j) ∧ u = { s with spindles := u.spindles, regs := u.regs } ∧
      (∀ r, (u.spin sid).vreg r = (s.spin sid).vreg r) ∧ (u.spin sid).ply = (s.spin sid).ply ∧
      ∀ g o, o < 4096 → g ≠ 5 → g ≠ 6 → (u.spin sid).wreg g o = (s.spin sid).wreg g o := by
  obtain ⟨hspin, hwreg, hother, hframe⟩ := h
  obtain ⟨fstall, fply, fvreg, fwreg⟩ := hf (t.spin sid)
  dsimp only
  rw [State.spin_modSpin_same]
  refine ⟨?_, fun j hj => (State.spin_modSpin_other _ _ hj).trans (hother j hj), ?_, fun r => ?_, ?_, fun g o ho h5 h6 => ?_⟩
  · rw [fstall, hspin]
  · rw [State.modSpin, State.setSpin, hframe]
  · rw [fvreg, hspin]
    rfl
  · rw [fply, hspin]
  · rw [fwreg]
    exact hwreg g o ho h5 h6

/-- A step to the next action that keeps the active ply. -/
theorem cycleEnd_keeps (p : Spindle) : (cycleEnd p).stall = p.stall ∧ (cycleEnd p).ply = p.ply ∧ (∀ r, (cycleEnd p).vreg r = p.vreg r) ∧
    ∀ g o, (cycleEnd p).wreg g o = p.wreg g o :=
  ⟨stall_cycleEnd p, ply_cycleEnd p, vreg_cycleEnd p, wreg_cycleEnd p⟩

theorem skipEnd_keeps (k a : Nat) (p : Spindle) : (cycleEnd (p.setCur k a)).stall = p.stall ∧ (cycleEnd (p.setCur k a)).ply = p.ply ∧
    (∀ r, (cycleEnd (p.setCur k a)).vreg r = p.vreg r) ∧ ∀ g o, (cycleEnd (p.setCur k a)).wreg g o = p.wreg g o :=
  cycleEnd_keeps (p.setCur k a)

/-- The current actions after a cycle that holds them. -/
theorem Stalled.cur {sid code : Nat} {s t : State} (h : Stalled sid code s t) : ((t.modSpin sid cycleEnd).spin sid).cur = (s.spin sid).cur := by
  rw [State.spin_modSpin_same, cur_cycleEnd, h.spin]

theorem switchAsked_iff (p : Spindle) (k w : Nat) :
    switchAsked p k w = true ↔ fld w 237 236 = 1 ∨ (fld w 237 236 = 2 ∧ condOf p k w = true) := by
  unfold switchAsked
  generalize fld w 237 236 = m
  match m with
  | 0 | 1 | 2 | _ + 3 => simp

/-- What a cycle that fires its action leaves of the plies (R157, R161, R163). -/
theorem fired_plies (s : State) (sid act w : Nat) (conds : List Cond) {k : Nat} (hk : (s.spin sid).ply = k) :
    let q := ((fireAction s sid k act w conds).modSpin sid cycleEnd).spin sid
    let switches := (fld w 237 236 = 1 ∨ (fld w 237 236 = 2 ∧ condOf (s.spin sid) k w = true)) ∧ fld w 235 234 ≠ k
    q.stall = 0 ∧ (switches → q.ply = fld w 235 234 ∧ q.saved k = nextAct (s.spin sid) k w) ∧
      (¬ switches → q.ply = k ∧ q.curAct k = nextAct (s.spin sid) k w) := by
  obtain ⟨u, p, hu, hp, hstall, hfire⟩ := fireAction_steps s sid k act w conds
  have hpk : p.ply = k := hp.trans (Eq.trans hu hk)
  have hasked : (switchAsked (s.spin sid) k w && fld w 235 234 != k) = true ↔
      (fld w 237 236 = 1 ∨ (fld w 237 236 = 2 ∧ condOf (s.spin sid) k w = true)) ∧ fld w 235 234 ≠ k := by
    rw [Bool.and_eq_true, bne_iff_ne, switchAsked_iff]
  dsimp only
  rw [State.spin_modSpin_same, hfire, State.spin_setSpin_same, stall_cycleEnd, ply_cycleEnd, saved_cycleEnd, curAct_cycleEnd]
  have hnext : nextAct (s.spin sid) k w % 64 = nextAct (s.spin sid) k w := Nat.mod_eq_of_lt (nextAct_lt _ _ _)
  split
  next hsw =>
    refine ⟨(stall_switchPly _ _ _).trans hstall, fun _ => ⟨ply_switchPly _ _ _, ?_⟩, fun hno => absurd (hasked.1 hsw) hno⟩
    rw [← hpk, saved_switchPly, hpk, hnext]
  next hsw =>
    exact ⟨(stall_setCur _ _ _).trans hstall, fun hyes => absurd (hasked.2 hyes) hsw, fun _ => ⟨(ply_setCur _ _ _).trans hpk, curAct_setCur_same _ _ _⟩⟩

/-- Settles O29. -/
theorem sequencerCycleFollowsTheRule : Obligations.SequencerCycleFollowsTheRule := by
  intro s sid conds hup hply
  dsimp only
  have hexec : exec (.sequencerCycle sid conds) s = .next ((sequence (cycleStart s sid.toNat conds) sid.toNat conds).modSpin sid.toNat cycleEnd) :=
    congrArg Host.Outcome.next (if_neg (by rw [hup]; decide))
  have hk : ((cycleStart s sid.toNat conds).spin sid.toNat).ply < 4 := by
    rw [samePly_cycleStart s sid.toNat conds]
    exact hply
  generalize cycleStart s sid.toNat conds = c at hexec hk ⊢
  refine ⟨_, hexec, fun hidle => ?idle, fun hbusy hskip hcond => ?skip, fun hbusy hact x rest hwait => ?hold, fun hbusy hact hwait => ?fire⟩
  case idle =>
    rw [sequence_idle conds hidle]
    have hst := stallCycle_stalls c sid.toNat hk 7 0
    obtain ⟨hstall, hheld⟩ := hst.held cycleEnd cycleEnd_keeps
    exact ⟨hstall, hst.cur, hheld⟩
  case skip =>
    rw [sequence_skip conds rfl rfl hbusy hskip hcond, State.modSpin_modSpin]
    obtain ⟨hstall, hheld⟩ := (stallCycle_stalls c sid.toNat hk 1 _).held _ (skipEnd_keeps _ _)
    refine ⟨hstall, ?_, hheld⟩
    rw [State.spin_modSpin_same, curAct_cycleEnd, curAct_setCur_same]
  case hold =>
    rw [sequence_hold conds rfl rfl hbusy hact hwait]
    have hst := stallCycle_stalls c sid.toNat hk x ((c.spin sid.toNat).action (c.spin sid.toNat).ply ((c.spin sid.toNat).curAct (c.spin sid.toNat).ply))
    obtain ⟨hstall, hheld⟩ := hst.held cycleEnd cycleEnd_keeps
    exact ⟨hstall, hst.cur, hheld⟩
  case fire =>
    rw [sequence_fire conds rfl rfl hbusy hact hwait]
    exact fired_plies _ _ _ _ _ rfl

end Sys2Proof.Machine
end

