-- ==== Sys2Proof/Proofs/LoadStart.lean ====
section
/-! PROOF. The start of a ply load: the ply's queues empty, and what the EP still passes into them is absorbed as stale (R173, R210). -/
namespace Sys2Proof.Machine

/-- What each step of an iteration establishes and the others keep, the iteration establishes. -/
theorem iter_establishes {σ : Type} (P : Nat → σ → Prop) (f : Nat → σ → σ) (n : Nat) (hdo : ∀ i, i < n → ∀ x, P i (f i x))
    (hkeep : ∀ i j, i < n → j < i → ∀ x, P j x → P j (f i x)) (x : σ) : ∀ i, i < n → P i (iter n f x) := by
  induction n with
  | zero => exact fun i hi => absurd hi (Nat.not_lt_zero _)
  | succ n ih =>
    intro i hi
    rw [iter_succ]
    by_cases h : i = n
    · rw [h]
      exact hdo n (Nat.lt_succ_self n) _
    · exact hkeep n i (Nat.lt_succ_self n) (by omega) _
        (ih (fun i hi => hdo i (by omega)) (fun i j hi hj => hkeep i j (by omega) hj) i (by omega))

/-! ### The queues of a ply (R173) -/

/-- Receive queue q is empty. -/
def rqEmptied (k q : Nat) (p : Spindle) : Spindle :=
  ((((p.setWf (1 + k) (rqOff q + 0xC) 10 0 0).setWf (1 + k) (rqOff q + 0xC) 26 16 0).setWf (1 + k) (rqOff q + 0x10) 10 0 0).setWf
    (1 + k) (rqOff q + 0x10) 26 16 0 |>.setWf (1 + k) (rqOff q + 0x14) 10 0 0).setWf (1 + k) (rqOff q + 0x14) 26 16 0

/-- Combining queue q is empty. -/
def cqEmptied (k q : Nat) (p : Spindle) : Spindle :=
  ((clearCqAcc p k q).setWf (1 + k) (cqOff q + 4) 31 16 0).setWf (1 + k) (cqOff q + 8) 15 14 0

/-- Hank queue q has consumed nothing, of the handles at its start (R258). -/
def hqEmptied (k q : Nat) (p : Spindle) : Spindle :=
  (p.setW (1 + k) (hqOff q + 12) 0#32).setW (1 + k) (hqOff q + 8) (BitVec.ofNat 32 (p.wf_ (1 + k) (hqOff q + 4) 31 23))

/-- The registers of the queues are emptied. -/
def queuesEmptied (p : Spindle) (k : Nat) : Spindle := iter 2 (hqEmptied k) (iter 4 (cqEmptied k) (iter 8 (rqEmptied k) p))

theorem wreg_rqEmptied (p : Spindle) {k q g o : Nat} (h : ∀ d, d = 0xC ∨ d = 0x10 ∨ d = 0x14 → g * 4096 + o ≠ (1 + k) * 4096 + (rqOff q + d)) :
    (rqEmptied k q p).wreg g o = p.wreg g o := by
  have hset : ∀ (p : Spindle) (d hi lo : Nat), d = 0xC ∨ d = 0x10 ∨ d = 0x14 →
      (p.setWf (1 + k) (rqOff q + d) hi lo 0).wreg g o = p.wreg g o := fun p d hi lo hd => by
    rw [Spindle.setWf, Spindle.wreg_setW_other _ _ (h d hd)]
  unfold rqEmptied
  rw [hset _ 0x14 _ _ (by decide), hset _ 0x14 _ _ (by decide), hset _ 0x10 _ _ (by decide), hset _ 0x10 _ _ (by decide),
    hset _ 0xC _ _ (by decide), hset _ 0xC _ _ (by decide)]

/-- Two fields of one register, apart. -/
theorem wf_setWf_apart (p : Spindle) (g o : Nat) {hi lo hi' lo' : Nat} (v : Nat) (h : hi' < 32) (ha : hi' < lo ∨ hi < lo') :
    (p.setWf g o hi lo v).wf_ g o hi' lo' = p.wf_ g o hi' lo' := by
  rw [Spindle.wf_, Spindle.setWf, Spindle.wreg_setW_same]
  exact getF_putF_apart _ _ h ha.symm

theorem rqEmptied_empties (k q : Nat) (p : Spindle) : rqHead (rqEmptied k q p) k q = 0 ∧ rqTail (rqEmptied k q p) k q = 0 ∧
    rqUsed (rqEmptied k q p) k q = 0 ∧ spUsed (rqEmptied k q p) k q = 0 := by
  have hother : ∀ (p : Spindle) (hi lo hi' lo' : Nat) {a b : Nat}, a ≠ b →
      (p.setWf (1 + k) (rqOff q + a) hi' lo' 0).wf_ (1 + k) (rqOff q + b) hi lo = p.wf_ (1 + k) (rqOff q + b) hi lo :=
    fun p hi lo hi' lo' a b h => wf_setWf_ne _ _ _ _ _ _ (by omega)
  have hsame : ∀ (p : Spindle) (o : Nat) {hi : Nat} (lo : Nat), hi < 32 → (p.setWf (1 + k) o hi lo 0).wf_ (1 + k) o hi lo = 0 := fun p o hi lo h => by
    rw [Spindle.wf_setWf_same _ _ _ _ h, Nat.zero_mod]
  unfold rqEmptied rqHead rqTail rqUsed spUsed
  refine ⟨?_, ?_, ?_, ?_⟩
  · rw [hother _ _ _ _ _ (by decide), hother _ _ _ _ _ (by decide), hother _ _ _ _ _ (by decide), hother _ _ _ _ _ (by decide),
      wf_setWf_apart _ _ _ _ (by decide) (by decide), hsame _ _ _ (by decide)]
  · rw [hother _ _ _ _ _ (by decide), hother _ _ _ _ _ (by decide), hother _ _ _ _ _ (by decide), hother _ _ _ _ _ (by decide),
      hsame _ _ _ (by decide)]
  · rw [wf_setWf_apart _ _ _ _ (by decide) (by decide), hsame _ _ _ (by decide)]
  · exact hsame _ _ _ (by decide)

/-- A register is a place in the window, whatever page and offset name it. -/
theorem wreg_place (p : Spindle) (g o : Nat) : p.wreg g o = p.wreg ((g * 4096 + o) / 4096) ((g * 4096 + o) % 4096) := by
  rw [Spindle.wreg, Spindle.wreg, Nat.div_add_mod']

theorem wreg_cqEmptied (p : Spindle) {k q g o : Nat} (hq : q < 4) (h4 : g * 4096 + o ≠ (1 + k) * 4096 + (cqOff q + 4))
    (h8 : g * 4096 + o ≠ (1 + k) * 4096 + (cqOff q + 8))
    (hacc : ¬ ((1 + k) * 4096 + 0x400 + 0x100 * q ≤ g * 4096 + o ∧ g * 4096 + o < (1 + k) * 4096 + 0x500 + 0x100 * q)) :
    (cqEmptied k q p).wreg g o = p.wreg g o := by
  unfold cqEmptied
  rw [Spindle.setWf, Spindle.wreg_setW_other _ _ h8, Spindle.setWf, Spindle.wreg_setW_other _ _ h4, wreg_place, wreg_place p,
    wreg_clearCqAcc _ hq (Nat.mod_lt _ (by decide)), if_neg (by omega)]

theorem cqAcc_congr {p p' : Spindle} {k q l : Nat} (h : ∀ j, j < 4 → p'.wreg (1 + k) (0x400 + 0x100 * q + 0x10 * l + 4 * j) =
    p.wreg (1 + k) (0x400 + 0x100 * q + 0x10 * l + 4 * j)) : cqAcc p' k q l = cqAcc p k q l := by
  unfold cqAcc
  simp only [show List.range 4 = [0, 1, 2, 3] from rfl, List.foldl_cons, List.foldl_nil, h 0 (by decide), h 1 (by decide), h 2 (by decide), h 3 (by decide)]

theorem cqEmptied_empties (p : Spindle) (k : Nat) {q : Nat} (hq : q < 4) : (cqEmptied k q p).wf_ (1 + k) (cqOff q + 4) 31 16 = 0 ∧
    cqReleased (cqEmptied k q p) k q = false ∧ ∀ l, l < 16 → cqAcc (cqEmptied k q p) k q l = 0#128 := by
  unfold cqEmptied
  refine ⟨?_, ?_, fun l hl => cqAcc_zero fun j hj => ?_⟩
  · rw [wf_setWf_ne _ _ _ _ _ _ (by omega), Spindle.wf_setWf_same _ _ _ _ (by decide), Nat.zero_mod]
  · rw [cqReleased, Spindle.setWf, Spindle.wreg_setW_same, getB_eq, getLsbD_putF, if_pos (by decide)]
    simp
  · rw [Spindle.setWf, Spindle.wreg_setW_other _ _ (by unfold cqOff; omega), Spindle.setWf, Spindle.wreg_setW_other _ _ (by unfold cqOff; omega),
      wreg_clearCqAcc _ hq (by omega), if_pos (by omega)]

theorem wreg_hqEmptied (p : Spindle) {k q g o : Nat} (h12 : g * 4096 + o ≠ (1 + k) * 4096 + (hqOff q + 12))
    (h8 : g * 4096 + o ≠ (1 + k) * 4096 + (hqOff q + 8)) : (hqEmptied k q p).wreg g o = p.wreg g o := by
  rw [hqEmptied, Spindle.wreg_setW_other _ _ h8, Spindle.wreg_setW_other _ _ h12]

/-- What every step of an iteration keeps, the iteration keeps. -/
theorem iter_keeps {σ : Type} (P : σ → Prop) (n : Nat) (f : Nat → σ → σ) (hf : ∀ i, i < n → ∀ x, P x → P (f i x)) (x : σ) (h : P x) :
    P (iter n f x) := by
  induction n with
  | zero => exact h
  | succ n ih =>
    rw [iter_succ]
    exact hf n (Nat.lt_succ_self n) _ (ih fun i hi => hf i (by omega))

/-- A register of the ply's page, or one at an offset within its own page. -/
def ownPage (k g o : Nat) : Prop := g = 1 + k ∨ o < 4096

section
variable (p : Spindle) {k g o : Nat} (hpage : ownPage k g o)
include hpage

theorem wreg_rqsEmptied (h : g = 1 + k → o < 0x100 ∨ 0x200 ≤ o) : (iter 8 (rqEmptied k) p).wreg g o = p.wreg g o := by
  refine iter_keeps (fun x : Spindle => x.wreg g o = p.wreg g o) 8 _ (fun q hq x hx => ?_) p rfl
  rw [wreg_rqEmptied x (fun d hd => by unfold ownPage at hpage; unfold rqOff; omega), hx]

theorem wreg_cqsEmptied (h : g = 1 + k → o < 0x200 ∨ (0x240 ≤ o ∧ o < 0x400) ∨ 0x800 ≤ o) : (iter 4 (cqEmptied k) p).wreg g o = p.wreg g o := by
  unfold ownPage at hpage
  refine iter_keeps (fun x : Spindle => x.wreg g o = p.wreg g o) 4 _ (fun q hq x hx => ?_) p rfl
  rw [wreg_cqEmptied x hq (by unfold cqOff; omega) (by unfold cqOff; omega) (by omega), hx]

theorem wreg_hqsEmptied (h : g = 1 + k → o < 0x240 ∨ 0x260 ≤ o) : (iter 2 (hqEmptied k) p).wreg g o = p.wreg g o := by
  unfold ownPage at hpage
  refine iter_keeps (fun x : Spindle => x.wreg g o = p.wreg g o) 2 _ (fun q hq x hx => ?_) p rfl
  rw [wreg_hqEmptied x (by unfold hqOff; omega) (by unfold hqOff; omega), hx]

/-- The emptied registers stand at +0x100 to +0x800 of the ply's page. -/
theorem wreg_queuesEmptied (h : g = 1 + k → o < 0x100 ∨ 0x800 ≤ o) : (queuesEmptied p k).wreg g o = p.wreg g o := by
  rw [queuesEmptied, wreg_hqsEmptied _ hpage (by omega), wreg_cqsEmptied _ hpage (by omega), wreg_rqsEmptied _ hpage (by omega)]

end

/-- The registers of receive queues, of which the later steps keep all. -/
theorem queuesEmptied_rq (p : Spindle) (k : Nat) {n : Nat} (hn : n < 8) : rqHead (queuesEmptied p k) k n = 0 ∧ rqTail (queuesEmptied p k) k n = 0 ∧
    rqUsed (queuesEmptied p k) k n = 0 ∧ spUsed (queuesEmptied p k) k n = 0 := by
  have hwf : ∀ (x y : Spindle) (n o hi lo : Nat), x.wreg (1 + k) (rqOff n + o) = y.wreg (1 + k) (rqOff n + o) →
      x.wf_ (1 + k) (rqOff n + o) hi lo = y.wf_ (1 + k) (rqOff n + o) hi lo := fun x y n o hi lo h => by rw [Spindle.wf_, h, Spindle.wf_]
  have hrest : ∀ o hi lo, o < 0x20 → (queuesEmptied p k).wf_ (1 + k) (rqOff n + o) hi lo = (iter 8 (rqEmptied k) p).wf_ (1 + k) (rqOff n + o) hi lo :=
    fun o hi lo ho => hwf _ _ _ _ _ _ (by rw [queuesEmptied, wreg_hqsEmptied _ (.inl rfl) (by unfold rqOff; omega), wreg_cqsEmptied _ (.inl rfl) (by unfold rqOff; omega)])
  have hrq := iter_establishes (fun n x => rqHead x k n = 0 ∧ rqTail x k n = 0 ∧ rqUsed x k n = 0 ∧ spUsed x k n = 0) (rqEmptied k) 8
    (fun i _ x => rqEmptied_empties k i x)
    (fun i j _ hj x hx => by
      have hkeep : ∀ o hi lo, o < 0x20 → (rqEmptied k i x).wf_ (1 + k) (rqOff j + o) hi lo = x.wf_ (1 + k) (rqOff j + o) hi lo :=
        fun o hi lo ho => hwf _ _ _ _ _ _ (wreg_rqEmptied x fun d hd => by unfold rqOff; omega)
      simp only [rqHead, rqTail, rqUsed, spUsed] at hx ⊢
      rwa [hkeep 0xC 10 0 (by decide), hkeep 0xC 26 16 (by decide), hkeep 0x14 10 0 (by decide), hkeep 0x14 26 16 (by decide)]) p n hn
  simp only [rqHead, rqTail, rqUsed, spUsed] at hrq ⊢
  rwa [hrest 0xC 10 0 (by decide), hrest 0xC 26 16 (by decide), hrest 0x14 10 0 (by decide), hrest 0x14 26 16 (by decide)]

theorem queuesEmptied_cq (p : Spindle) (k : Nat) {n : Nat} (hn : n < 4) : (queuesEmptied p k).wf_ (1 + k) (cqOff n + 4) 31 16 = 0 ∧
    cqReleased (queuesEmptied p k) k n = false ∧ ∀ l, l < 16 → cqAcc (queuesEmptied p k) k n l = 0#128 := by
  have hrest : ∀ o, (o < 0x240 ∨ 0x260 ≤ o) → (queuesEmptied p k).wreg (1 + k) o = (iter 4 (cqEmptied k) (iter 8 (rqEmptied k) p)).wreg (1 + k) o :=
    fun o ho => wreg_hqsEmptied _ (.inl rfl) (fun _ => by omega)
  have hcq := iter_establishes (fun n x => x.wf_ (1 + k) (cqOff n + 4) 31 16 = 0 ∧ cqReleased x k n = false ∧ ∀ l, l < 16 → cqAcc x k n l = 0#128)
    (cqEmptied k) 4 (fun i hi x => cqEmptied_empties x k hi)
    (fun i j hi hj x hx => by
      have hkeep : ∀ o, o = cqOff j + 4 ∨ o = cqOff j + 8 ∨ (0x400 + 0x100 * j ≤ o ∧ o < 0x500 + 0x100 * j) →
          (cqEmptied k i x).wreg (1 + k) o = x.wreg (1 + k) o := fun o ho => by
        unfold cqOff at ho
        exact wreg_cqEmptied x hi (by unfold cqOff; omega) (by unfold cqOff; omega) (by omega)
      obtain ⟨hcnt, hrel, hacc⟩ := hx
      refine ⟨?_, ?_, fun l hl => ?_⟩
      · rw [Spindle.wf_, hkeep _ (.inl rfl)]
        exact hcnt
      · rw [cqReleased, hkeep _ (.inr (.inl rfl))]
        exact hrel
      · rw [cqAcc_congr fun b hb => hkeep _ (.inr (.inr (by omega)))]
        exact hacc l hl) (iter 8 (rqEmptied k) p) n hn
  obtain ⟨hcnt, hrel, hacc⟩ := hcq
  refine ⟨?_, ?_, fun l hl => ?_⟩
  · rw [Spindle.wf_, hrest _ (by unfold cqOff; omega)]
    exact hcnt
  · rw [cqReleased, hrest _ (by unfold cqOff; omega)]
    exact hrel
  · rw [cqAcc_congr fun b hb => hrest _ (by omega)]
    exact hacc l hl

theorem queuesEmptied_hq (p : Spindle) (k : Nat) {n : Nat} (hn : n < 2) : (queuesEmptied p k).wreg (1 + k) (hqOff n + 12) = 0#32 := by
  refine iter_establishes (fun n (x : Spindle) => x.wreg (1 + k) (hqOff n + 12) = 0#32) (hqEmptied k) 2 (fun i _ x => ?_) (fun i j _ hj x hx => ?_) _ n hn
  · rw [hqEmptied, Spindle.wreg_setW_other _ _ (by unfold hqOff; omega), Spindle.wreg_setW_same]
  · rw [wreg_hqEmptied x (by unfold hqOff; omega) (by unfold hqOff; omega)]
    exact hx

/-! ### The record of a spindle whose load starts -/

/-- A change of window registers after another. -/
theorem onlyWin_trans {p q r : Spindle} (h : q = { p with win := q.win }) (h' : r = { q with win := r.win }) : r = { p with win := r.win } := by
  rw [h', h]

theorem rqEmptied_win (k q : Nat) (p : Spindle) : rqEmptied k q p = { p with win := (rqEmptied k q p).win } := rfl

theorem setCqAcc_win (p : Spindle) (k q l : Nat) (v : BitVec 128) : setCqAcc p k q l v = { p with win := (setCqAcc p k q l v).win } :=
  iter_inv (fun x : Spindle => x = { p with win := x.win }) 4 _ (fun _ _ h => onlyWin_trans h rfl) p rfl

theorem clearCqAcc_win (p : Spindle) (k q : Nat) : clearCqAcc p k q = { p with win := (clearCqAcc p k q).win } :=
  iter_inv (fun x : Spindle => x = { p with win := x.win }) 16 _ (fun _ x h => onlyWin_trans h (setCqAcc_win x _ _ _ _)) p rfl

theorem setWf_setWf_win (p : Spindle) (g o hi lo v o' hi' lo' v' : Nat) : (p.setWf g o hi lo v).setWf g o' hi' lo' v' =
    { p with win := ((p.setWf g o hi lo v).setWf g o' hi' lo' v').win } := rfl

theorem cqEmptied_win (k q : Nat) (p : Spindle) : cqEmptied k q p = { p with win := (cqEmptied k q p).win } :=
  onlyWin_trans (clearCqAcc_win p k q) (setWf_setWf_win _ _ _ _ _ _ _ _ _ _)

theorem hqEmptied_win (k q : Nat) (p : Spindle) : hqEmptied k q p = { p with win := (hqEmptied k q p).win } := rfl

/-- Emptying the queues changes window registers alone. -/
theorem queuesEmptied_win (p : Spindle) (k : Nat) : queuesEmptied p k = { p with win := (queuesEmptied p k).win } := by
  have hrq : iter 8 (rqEmptied k) p = { p with win := (iter 8 (rqEmptied k) p).win } :=
    iter_inv (fun x : Spindle => x = { p with win := x.win }) 8 _ (fun _ x h => onlyWin_trans h (rqEmptied_win _ _ x)) p rfl
  have hcq : ∀ y : Spindle, iter 4 (cqEmptied k) y = { y with win := (iter 4 (cqEmptied k) y).win } := fun y =>
    iter_inv (fun x : Spindle => x = { y with win := x.win }) 4 _ (fun _ x h => onlyWin_trans h (cqEmptied_win _ _ x)) y rfl
  have hhq : ∀ y : Spindle, iter 2 (hqEmptied k) y = { y with win := (iter 2 (hqEmptied k) y).win } := fun y =>
    iter_inv (fun x : Spindle => x = { y with win := x.win }) 2 _ (fun _ x h => onlyWin_trans h (hqEmptied_win _ _ x)) y rfl
  exact onlyWin_trans hrq (onlyWin_trans (hcq _) (hhq _))

/-- The registers of a spindle at the start of a load of ply k: the ply EMPTY in its next epoch, its queues empty (R173). -/
def loadStarted (p : Spindle) (k : Nat) : Spindle := queuesEmptied ((p.setLoaded k false).setEpoch k (p.epoch k + 1)) k

theorem loadStarted_win (p : Spindle) (k : Nat) : loadStarted p k = { p with win := (loadStarted p k).win } :=
  onlyWin_trans (q := (p.setLoaded k false).setEpoch k (p.epoch k + 1)) rfl (queuesEmptied_win _ _)

theorem emptyQueues_eq (p : Spindle) (k : Nat) : ∃ ho fr fd sk, emptyQueues p k =
    { queuesEmptied p k with holes := ho, fresh := fr, freed := fd, skew := sk } := by
  unfold emptyQueues queuesEmptied rqEmptied cqEmptied hqEmptied
  exact ⟨_, _, _, _, rfl⟩

/-- What a load's start changes beside window registers. -/
theorem startLoad_eq (p : Spindle) (k base : Nat) : ∃ ho fr fd sk sq, startLoad p k base = { loadStarted p k with
    load := some { ply := k, base := base % 2048, next := 0, bad := false, old := plyWords p k }
    holes := ho, fresh := fr, freed := fd, skew := sk, seqs := sq } := by
  obtain ⟨_, _, _, _, h⟩ := emptyQueues_eq ((p.setLoaded k false).setEpoch k (p.epoch k + 1)) k
  unfold startLoad
  rw [h, ← loadStarted]
  generalize loadStarted p k = x
  exact ⟨_, _, _, _, _, rfl⟩

/-- A record with the same window has the same registers. -/
theorem wreg_congr {p q : Spindle} (h : q.win = p.win) (g o : Nat) : q.wreg g o = p.wreg g o := by rw [Spindle.wreg, h, Spindle.wreg]

theorem wreg_startLoad (p : Spindle) (k base g o : Nat) : (startLoad p k base).wreg g o = (loadStarted p k).wreg g o := by
  obtain ⟨_, _, _, _, _, h⟩ := startLoad_eq p k base
  exact wreg_congr (by rw [h]) g o

theorem arriving_startLoad (p : Spindle) (k base : Nat) : (startLoad p k base).arriving = p.arriving := by
  obtain ⟨_, _, _, _, _, h⟩ := startLoad_eq p k base
  rw [h, loadStarted_win]

theorem loadWait_startLoad (p : Spindle) (k base : Nat) : (startLoad p k base).loadWait = p.loadWait := by
  obtain ⟨_, _, _, _, _, h⟩ := startLoad_eq p k base
  rw [h, loadStarted_win]

theorem load_startLoad (p : Spindle) (k base : Nat) :
    (startLoad p k base).load = some { ply := k, base := base % 2048, next := 0, bad := false, old := plyWords p k } := by
  obtain ⟨_, _, _, _, _, h⟩ := startLoad_eq p k base
  rw [h]

theorem wreg_loadStarted (p : Spindle) {k g o : Nat} (hpage : ownPage k g o) (h : g = 1 + k → o ≠ 0x40 ∧ (o < 0x100 ∨ 0x800 ≤ o)) :
    (loadStarted p k).wreg g o = p.wreg g o := by
  have h40 : g * 4096 + o ≠ (1 + k) * 4096 + 0x40 := by
    unfold ownPage at hpage
    omega
  rw [loadStarted, wreg_queuesEmptied _ hpage (by omega), Spindle.setEpoch, Spindle.setWf, Spindle.wreg_setW_other _ _ h40, Spindle.setLoaded,
    Spindle.wreg_setW_other _ _ h40]

/-- PLY_CTRL at the start of a load. -/
theorem ctrl_loadStarted (p : Spindle) (k : Nat) : (loadStarted p k).wreg (1 + k) 0x40 =
    putF (putB (p.wreg (1 + k) 0x40) 0 false) 7 4 (p.epoch k + 1) := by
  rw [loadStarted, wreg_queuesEmptied _ (.inl rfl) (by omega), Spindle.setEpoch, Spindle.setWf, Spindle.wreg_setW_same, Spindle.setLoaded,
    Spindle.wreg_setW_same]

theorem startLoad_unloads (p : Spindle) (k base : Nat) : (startLoad p k base).loaded k = false ∧ (startLoad p k base).epoch k = (p.epoch k + 1) % 16 := by
  rw [Spindle.loaded, Spindle.epoch, Spindle.wf_, wreg_startLoad, ctrl_loadStarted]
  exact ⟨(getB_putF_apart _ _ (by decide)).trans (getB_putB_same _ _ (by decide)), getF_putF_same _ _ (by decide)⟩

theorem startLoad_empties (p : Spindle) (k base : Nat) :
    let q := startLoad p k base
    (∀ n, n < 8 → rqHead q k n = 0 ∧ rqTail q k n = 0 ∧ rqUsed q k n = 0 ∧ spUsed q k n = 0) ∧
      (∀ n, n < 4 → q.wf_ (1 + k) (cqOff n + 4) 31 16 = 0 ∧ cqReleased q k n = false ∧ ∀ l, l < 16 → cqAcc q k n l = 0#128) ∧
      ∀ n, n < 2 → (q.wreg (1 + k) (hqOff n + 12)) = 0#32 := by
  simp only [rqHead, rqTail, rqUsed, spUsed, Spindle.wf_, cqReleased, cqAcc, wreg_startLoad]
  exact ⟨fun n hn => queuesEmptied_rq _ _ hn, fun n hn => queuesEmptied_cq _ _ hn, fun n hn => queuesEmptied_hq _ _ hn⟩

theorem action_congr {p q : Spindle} {k a : Nat}
    (h : ∀ i, i < 8 → q.wreg (1 + k) (0x800 + a * 0x20 + 4 * i) = p.wreg (1 + k) (0x800 + a * 0x20 + 4 * i)) : q.action k a = p.action k a := by
  unfold Spindle.action
  simp only [show List.range 8 = [0, 1, 2, 3, 4, 5, 6, 7] from rfl, List.foldl_cons, List.foldl_nil, h 0 (by decide), h 1 (by decide),
    h 2 (by decide), h 3 (by decide), h 4 (by decide), h 5 (by decide), h 6 (by decide), h 7 (by decide)]

/-! ### What the EP still passes (R210) -/

/-- `t` keeps what arrives at spindle `sid`, the shape, and every event that has occurred. -/
structure ArrivalsKept (sid : Nat) (s t : State) : Prop where
  arriving : (t.spin sid).arriving = (s.spin sid).arriving
  shape : t.reg (pGlobal + 0x50) = s.reg (pGlobal + 0x50)
  events : ∀ pg i, pg % 0x1000 = 0 → s.bget (pg + 0x18) i = true → t.bget (pg + 0x18) i = true

namespace ArrivalsKept

variable {sid : Nat} {s t u : State}

theorem refl (sid : Nat) (s : State) : ArrivalsKept sid s s := ⟨rfl, rfl, fun _ _ _ h => h⟩

theorem trans (h : ArrivalsKept sid s t) (k : ArrivalsKept sid t u) : ArrivalsKept sid s u :=
  ⟨k.arriving.trans h.arriving, k.shape.trans h.shape, fun pg i hpg hi => k.events pg i hpg (h.events pg i hpg hi)⟩

theorem of_sheltered (h : Sheltered (· < 0x1000) s t) : ArrivalsKept sid s t := by
  obtain ⟨b, hb⟩ := h.spin sid
  exact ⟨by rw [hb], h.regs _ (by decide), h.events⟩

theorem modSpin {f : Spindle → Spindle} (h : ∀ p, (f p).arriving = p.arriving) : ArrivalsKept sid s (s.modSpin sid f) := by
  refine ⟨?_, rfl, fun _ _ _ h => h⟩
  rw [State.spin_modSpin_same]
  exact h _

theorem ite {c : Prop} [Decidable c] (h : ArrivalsKept sid s t) (k : ArrivalsKept sid s u) : ArrivalsKept sid s (if c then t else u) := by
  split
  · exact h
  · exact k

theorem fcPage (h : ArrivalsKept sid s t) : fcPage t sid = fcPage s sid := by
  unfold Machine.fcPage State.fieldOf State.cols State.fget
  rw [h.shape]

end ArrivalsKept

theorem pField_aligned (f : Nat) : pField f % 0x1000 = 0 ∧ 0x1000 ≤ pField f := by
  unfold pField fieldBase
  omega

theorem pWin_aligned (f k : Nat) : pWin f k % 0x1000 = 0 ∧ 0x1000 ≤ pWin f k := by
  unfold pWin fieldBase
  omega

/-- A register above the engine's page that holds no events. -/
theorem sheltered_setReg (s : State) {o : Nat} (h : 0x1000 ≤ o) (h18 : o % 0x1000 ≠ 0x18) (v : Word) : Sheltered (· < 0x1000) s (s.setReg o v) :=
  Sheltered.setReg (by omega) h18 v

/-- An event of a page above the engine's. -/
theorem sheltered_raise (s : State) {pg : Nat} (h : pg % 0x1000 = 0 ∧ 0x1000 ≤ pg) (b : Nat) : Sheltered (· < 0x1000) s (s.raise pg b) :=
  Sheltered.raise h.1 (by omega) (by omega) b

theorem queueEvent_sheltered (s : State) (sid ev tag : Nat) (cq : Bool) (reason src : Nat) :
    Sheltered (· < 0x1000) s (queueEvent s sid ev tag cq reason src) := by
  obtain ⟨hpg, hge⟩ := pField_aligned (s.fieldOf sid)
  have hset : ∀ (u : State) (d : Nat) (v : Word), d < 0x1000 → d ≠ 0x18 → Sheltered (· < 0x1000) u (u.setReg (fcPage s sid + d) v) :=
    fun u d v hd h18 => sheltered_setReg u (by unfold fcPage; omega) (by unfold fcPage; omega) v
  unfold queueEvent
  extract_lets pg s1 s2
  refine Sheltered.ite (.refl _ _) ?_
  exact ((hset _ 0x100 _ (by decide) (by decide)).trans (hset _ 0x104 _ (by decide) (by decide))).trans (hset _ 0x108 _ (by decide) (by decide))

/-- A message absorbed as stale raises the event of its field, and keeps what arrives (R210). -/
theorem staleMark_keeps (s : State) (sid reason : Nat) (m : Msg) :
    ArrivalsKept sid s (staleMark s sid reason m true) ∧ (staleMark s sid reason m true).bget (fcPage s sid + 0x18) 0 = true := by
  have hrun : pRun % 0x1000 = 0 ∧ 0x1000 ≤ pRun := by decide
  have hevent : ∀ u : State, (u.raise (fcPage u sid) 0).bget (fcPage u sid + 0x18) 0 = true := fun u => State.bget_raise _ _ (by decide)
  unfold staleMark
  extract_lets k q cq counted o dOff s1 s2 s3 s4 s5
  have h1 : ArrivalsKept sid s s1 := .ite (.refl _ _) (.modSpin fun p => by dsimp only; split <;> rfl)
  have h2 : ArrivalsKept sid s s2 := h1.trans (.ite (.of_sheltered (sheltered_raise _ (pWin_aligned _ _) _)) (.refl _ _))
  have hraise : ArrivalsKept sid s2 (s2.raise (fcPage s2 sid) 0) := .of_sheltered (sheltered_raise _ (pField_aligned _) _)
  have h3 : ArrivalsKept sid (s2.raise (fcPage s2 sid) 0) s3 := .of_sheltered (queueEvent_sheltered _ _ _ _ _ _ _)
  have h4 : ArrivalsKept sid s3 s4 := .ite (.of_sheltered ((sheltered_setReg _ (by decide) (by decide) _).trans (sheltered_raise _ hrun _))) (.refl _ _)
  have h5 : s5 = s4 := if_pos rfl
  have hlast : ArrivalsKept sid s5 (if (counted && getB ((s5.spin sid).wreg (1 + k) o) 30 && s5.live sid) = true then
      runFault s5 { code := 4, field := some (s5.fieldOf sid), sid := some sid } else s5) :=
    .ite (.of_sheltered (runFault_sheltered _ (fun _ h => h) _ _)) (.refl _ _)
  rw [h5] at hlast ⊢
  have hrest := (h3.trans h4).trans hlast
  refine ⟨(h2.trans hraise).trans hrest, hrest.events _ _ (pField_aligned _).1 ?_⟩
  rw [← h2.fcPage]
  exact hevent s2

/-- A walk that absorbs messages as stale. -/
theorem staleMarks_keep (sid reason : Nat) (l : List EpArrival) (s : State) :
    ArrivalsKept sid s (forEach l (fun a s => staleMark s sid reason a.hdr true) s) ∧
      (l ≠ [] → (forEach l (fun a s => staleMark s sid reason a.hdr true) s).bget (fcPage s sid + 0x18) 0 = true) := by
  have hkeep : ∀ (l : List EpArrival) (s : State), ArrivalsKept sid s (forEach l (fun a s => staleMark s sid reason a.hdr true) s) :=
    fun l s => forEach_inv (ArrivalsKept sid s) _ (fun a u h => h.trans (staleMark_keeps u sid reason a.hdr).1) l s (.refl _ _)
  refine ⟨hkeep l s, fun hne => ?_⟩
  cases l with
  | nil => exact absurd rfl hne
  | cons a l => exact (hkeep l _).events _ _ (pField_aligned _).1 (staleMark_keeps s sid reason a.hdr).2

theorem arriving_unform (p : Spindle) (x : Formed) : (p.unform x).arriving = p.arriving := by cases x <;> rfl

theorem arriving_uncount (p : Spindle) (lo : Nat) : (p.uncount lo).arriving = p.arriving := rfl

/-- What the spindle's records of arrivals become when a load of ply k stops them. -/
theorem stopArrivals_stops (s : State) (sid k : Nat) : ∃ q : Spindle,
    q.arriving = (s.spin sid).arriving.filter (fun a => tagPly a.hdr.tag != k) ∧
    stopArrivals s sid k = forEach ((s.spin sid).arriving.filter (fun a => tagPly a.hdr.tag = k)) (fun a s => staleMark s sid 0 a.hdr true) (s.setSpin sid q) := by
  unfold stopArrivals
  extract_lets p mine dues p1 p2 gone p3
  have h1 : p1.arriving = p.arriving := List.foldlRecOn (motive := fun x : Spindle => x.arriving = p.arriving) _ _ rfl fun x hx e _ => by
    split
    · rw [arriving_uncount, arriving_unform, hx]
    · rw [arriving_unform, hx]
  have h2 : p2.arriving = p.arriving := List.foldlRecOn (motive := fun x : Spindle => x.arriving = p.arriving) _ _ h1 fun x hx e _ => by
    rw [arriving_uncount, hx]
  exact ⟨p3, congrArg (List.filter _) h2, rfl⟩

theorem stopArrivals_keeps (s : State) (sid k : Nat) :
    ((stopArrivals s sid k).spin sid).arriving = (s.spin sid).arriving.filter (fun a => tagPly a.hdr.tag != k) ∧
      ((∃ a ∈ (s.spin sid).arriving, tagPly a.hdr.tag = k) → (stopArrivals s sid k).bget (fcPage s sid + 0x18) 0 = true) := by
  obtain ⟨q, hq, heq⟩ := stopArrivals_stops s sid k
  obtain ⟨hkept, hevent⟩ := staleMarks_keep sid 0 ((s.spin sid).arriving.filter (fun a => tagPly a.hdr.tag = k)) (s.setSpin sid q)
  rw [← heq] at hkept hevent
  refine ⟨?_, fun ⟨a, ha, hk⟩ => hevent (List.ne_nil_of_mem (List.mem_filter.2 ⟨ha, decide_eq_true hk⟩))⟩
  rw [hkept.arriving, State.spin_setSpin_same, hq]

/-- Without anything of ply k on its way, nothing is absorbed. -/
theorem stopArrivals_none {s : State} {sid k : Nat} (harr : ∀ a ∈ (s.spin sid).arriving, tagPly a.hdr.tag ≠ k)
    (hfresh : ∀ e ∈ (s.spin sid).fresh, e.2.ofPly k = false) :
    ∃ fr ar ep, stopArrivals s sid k = s.setSpin sid { s.spin sid with fresh := fr, arriving := ar, ep := ep } := by
  have hmine : (s.spin sid).arriving.filter (fun a => tagPly a.hdr.tag = k) = [] :=
    List.filter_eq_nil_iff.2 fun a ha h => harr a ha (of_decide_eq_true h)
  have htokens : (s.spin sid).fresh.filter (fun e => e.2.ofPly k) = [] :=
    List.filter_eq_nil_iff.2 fun e he h => absurd (hfresh e he) (by rw [h]; decide)
  have hnone : (s.spin sid).fresh.filter (fun e => ([] : List Nat).contains e.1) = [] := List.filter_eq_nil_iff.2 fun _ _ h => absurd h (by simp)
  unfold stopArrivals
  dsimp only
  rw [hmine, htokens, List.map_nil, List.map_nil, List.append_nil, hnone]
  exact ⟨_, _, _, rfl⟩

/-! ### The start of a load (R173, R176) -/

theorem plyLoadStart_waits {s : State} {sid base : Nat} (hload : (s.spin sid).load = none)
    (hwait : (s.spin sid).loadWait = some ((s.spin sid).ply, base, false)) (hloaded : (s.spin sid).loaded (s.spin sid).ply = true)
    (hlive : s.live sid = true) : plyLoadStart s sid = s := by
  unfold plyLoadStart
  simp [hload, hwait, hloaded, hlive]

theorem plyLoadStart_starts {s : State} {sid k base : Nat} {now : Bool} (hup : spinUp s sid = true) (hload : (s.spin sid).load = none)
    (hwait : (s.spin sid).loadWait = some (k, base, now))
    (hgo : ¬ ((s.spin sid).ply = k ∧ (s.spin sid).loaded k = true ∧ now = false ∧ s.live sid = true)) :
    plyLoadStart s sid = (stopArrivals s sid k).modSpin sid (fun p => startLoad { p with loadWait := none } k base) := by
  have hno : (decide ((s.spin sid).ply = k) && (s.spin sid).loaded k && !now && s.live sid) = false := by
    rw [Bool.eq_false_iff]
    intro h
    simp only [Bool.and_eq_true, decide_eq_true_eq, Bool.not_eq_true', and_assoc] at h
    exact hgo h
  unfold plyLoadStart
  simp only [hup, hload, hwait, hno, Option.isSome_none, Bool.not_true, Bool.or_self, Bool.false_eq_true, if_false]

theorem loadStart_does (s : State) (sid k base : Nat) :
    let p := s.spin sid
    let t := (stopArrivals s sid k).modSpin sid (fun p => startLoad { p with loadWait := none } k base)
    let q := t.spin sid
    q.loaded k = false ∧ q.loadWait = none ∧
      (∃ old, q.load = some { ply := k, base := base % 2048, next := 0, bad := false, old := old }) ∧
      (∀ n, n < 8 → rqHead q k n = 0 ∧ rqTail q k n = 0 ∧ rqUsed q k n = 0 ∧ spUsed q k n = 0) ∧
      (∀ n, n < 4 → q.wf_ (1 + k) (cqOff n + 4) 31 16 = 0 ∧ cqReleased q k n = false ∧ ∀ l, l < 16 → cqAcc q k n l = 0#128) ∧
      (∀ n, n < 2 → (q.wreg (1 + k) (hqOff n + 12)) = 0#32) ∧ (∀ a ∈ q.arriving, tagPly a.hdr.tag ≠ k) ∧
      ((∃ a ∈ p.arriving, tagPly a.hdr.tag = k) → t.bget (fcPage s sid + 0x18) 0 = true) ∧
      ((∀ a ∈ p.arriving, tagPly a.hdr.tag ≠ k) → (∀ e ∈ p.fresh, e.2.ofPly k = false) →
        q.epoch k = (p.epoch k + 1) % 16 ∧
        q.load = some { ply := k, base := base % 2048, next := 0, bad := false, old := plyWords p k } ∧
        (∀ g o, o < 4096 → g ≠ 1 + k → q.wreg g o = p.wreg g o) ∧ (∀ a, q.action k a = p.action k a) ∧ onlySpin s t sid) := by
  obtain ⟨harr, hevent⟩ := stopArrivals_keeps s sid k
  dsimp only
  rw [State.spin_modSpin_same]
  obtain ⟨hunloaded, -⟩ := startLoad_unloads { (stopArrivals s sid k).spin sid with loadWait := none } k base
  obtain ⟨hrq, hcq, hhq⟩ := startLoad_empties { (stopArrivals s sid k).spin sid with loadWait := none } k base
  refine ⟨hunloaded, loadWait_startLoad _ _ _, ⟨_, load_startLoad _ _ _⟩, hrq, hcq, hhq, fun a ha => ?_, hevent, fun hnone hfresh => ?_⟩
  · rw [arriving_startLoad] at ha
    have hmem : a ∈ (s.spin sid).arriving.filter (fun a => tagPly a.hdr.tag != k) := harr ▸ ha
    exact bne_iff_ne.1 (List.mem_filter.1 hmem).2
  · obtain ⟨fr, ar, ep, heq⟩ := stopArrivals_none hnone hfresh
    rw [heq, State.spin_setSpin_same]
    generalize hx : ({ s.spin sid with fresh := fr, arriving := ar, ep := ep, loadWait := none } : Spindle) = x
    have hwin : x.win = (s.spin sid).win := by rw [← hx]
    have hwreg : ∀ g o, x.wreg g o = (s.spin sid).wreg g o := wreg_congr hwin
    have hepoch : x.epoch k = (s.spin sid).epoch k := by rw [Spindle.epoch, Spindle.wf_, hwreg]; rfl
    have hwords : plyWords x k = plyWords (s.spin sid) k := by rw [plyWords, hwin]; rfl
    have hkeep : ∀ g o, ownPage k g o → (g = 1 + k → o ≠ 0x40 ∧ (o < 0x100 ∨ 0x800 ≤ o)) → (startLoad x k base).wreg g o = (s.spin sid).wreg g o :=
      fun g o hpage h => by rw [wreg_startLoad, wreg_loadStarted x hpage h, hwreg]
    refine ⟨?_, ?_, fun g o ho hg => hkeep g o (.inr ho) fun e => absurd e hg,
      fun a => action_congr fun i _ => hkeep _ _ (.inl rfl) fun _ => ⟨by omega, by omega⟩, rfl, fun j hj => ?_⟩
    · rw [(startLoad_unloads x k base).2, hepoch]
    · rw [load_startLoad, hwords]
    · rw [State.spin_modSpin_other _ _ hj, State.spin_setSpin_other _ _ hj]

end Sys2Proof.Machine
end

