-- ==== Sys2Proof/Proofs/LoadDone.lean ====
section
/-! PROOF. The end of a ply load: the image is installed, or an uncorrectable line makes a fault (R174, R175). -/
namespace Sys2Proof.Machine

/-! ### The words of an image (R174) -/

theorem wreg_takeWord_other (p : Spindle) (k off v : Nat) {g o : Nat} (h : g * 4096 + o ≠ (1 + k) * 4096 + off) :
    (takeWord p k off v).wreg g o = p.wreg g o := by
  unfold takeWord
  dsimp only
  split
  · rfl
  · exact Spindle.wreg_setW_other _ _ h

theorem takeWord_win (p : Spindle) (k off v : Nat) : takeWord p k off v = { p with win := (takeWord p k off v).win } := by
  unfold takeWord
  dsimp only
  split <;> rfl

/-- A row that ends before an offset holds no register there. -/
theorem hits_below {r : RRow} {off : Nat} (hstride : 0 < r.stride) (h : r.off + r.stride * r.count ≤ off) : r.hits off = false := by
  have hcount : r.count ≤ (off - r.off) / r.stride := by
    rw [Nat.le_div_iff_mul_le hstride, Nat.mul_comm]
    omega
  rw [RRow.hits, decide_eq_false (Nat.not_lt.2 hcount), Bool.and_false]

theorem findRow_skip {rs : List RRow} {r : RRow} {off : Nat} (hrs : ∀ r ∈ rs, r.hits off = false) (hr : r.hits off = true) :
    findRow (rs ++ [r]) off = some r.fields := by
  induction rs with
  | nil => rw [List.nil_append, findRow, if_pos hr]
  | cons a rs ih =>
    rw [List.cons_append, findRow, hrs a List.mem_cons_self, if_neg Bool.false_ne_true]
    exact ih fun b hb => hrs b (List.mem_cons_of_mem _ hb)

/-- The action words fill the upper half of a ply's page (R85). -/
theorem regFields_action {off : Nat} (h : 0x800 ≤ off) (h' : off < 0x1000) (ha : off % 4 = 0) : regFields .ply off = some [⟨31, 0, .rw, 0x0⟩] := by
  have hrows : kindRows .ply = rows_ply.dropLast ++ [⟨0x800, 4, 512, [⟨31, 0, .rw, 0x0⟩]⟩] := rfl
  have hbelow : ∀ r ∈ rows_ply.dropLast, 0 < r.stride ∧ r.off + r.stride * r.count ≤ 0x800 := by decide
  rw [regFields, if_neg (by omega), hrows]
  refine findRow_skip (fun r hr => hits_below (hbelow r hr).1 ((hbelow r hr).2.trans h)) ?_
  simp only [RRow.hits, Bool.and_eq_true, decide_eq_true_eq]
  omega

theorem plyRwMask_action {off : Nat} (h : 0x800 ≤ off) (h' : off < 0x1000) (ha : off % 4 = 0) : plyRwMask off = 2 ^ 32 - 1 := by
  rw [plyRwMask, plyMask, regFields_action h h' ha]
  decide

/-- An action word is taken whole. -/
theorem wreg_takeWord_action (p : Spindle) (k : Nat) {off : Nat} (v : Nat) (h : 0x800 ≤ off) (h' : off < 0x1000) (ha : off % 4 = 0) :
    (takeWord p k off v).wreg (1 + k) off = BitVec.ofNat 32 v := by
  unfold takeWord
  dsimp only
  rw [plyRwMask_action h h' ha, if_neg (by decide), Spindle.wreg_setW_same]
  refine BitVec.eq_of_getLsbD_eq fun i hi => ?_
  rw [BitVec.getLsbD_ofNat, BitVec.getLsbD_ofNat, testBit_blend, Nat.testBit_two_pow_sub_one, decide_eq_true hi, if_pos rfl]

/-- Word j of line i of an image. -/
def lineWord (img : List (BitVec 256)) (i j : Nat) : Nat := ((nth 0#256 img i).toNat >>> (32 * j)) % 2 ^ 32

/-- The words of line i of an image are taken. -/
def lineTaken (img : List (BitVec 256)) (k i : Nat) (p : Spindle) : Spindle :=
  iter 8 (fun j p => takeWord p k (imageOff i + 4 * j) (lineWord img i j)) p

/-- The words of an image are taken. -/
def imageTaken (img : List (BitVec 256)) (k : Nat) (p : Spindle) : Spindle := iter 87 (lineTaken img k) p

theorem lineTaken_win (img : List (BitVec 256)) (k i : Nat) (p : Spindle) : lineTaken img k i p = { p with win := (lineTaken img k i p).win } :=
  iter_inv (fun x : Spindle => x = { p with win := x.win }) 8 _ (fun _ x h => onlyWin_trans h (takeWord_win x _ _ _)) p rfl

theorem imageTaken_win (img : List (BitVec 256)) (k : Nat) (p : Spindle) : imageTaken img k p = { p with win := (imageTaken img k p).win } :=
  iter_inv (fun x : Spindle => x = { p with win := x.win }) 87 _ (fun _ x h => onlyWin_trans h (lineTaken_win _ _ _ x)) p rfl

theorem imageOff_lt {i : Nat} (h : i < 87) : imageOff i + 0x20 ≤ 0x1000 := by
  unfold imageOff
  split_ifs <;> omega

theorem imageOff_action {i : Nat} (h : i < 64) : imageOff i = 0x800 + 0x20 * i := if_pos h

/-- No other line of an image holds a word of an action. -/
theorem imageOff_apart {a i : Nat} (ha : a < 64) (hi : i < 87) (h : i ≠ a) : imageOff i + 0x20 ≤ imageOff a ∨ imageOff a + 0x20 ≤ imageOff i := by
  rw [imageOff_action ha]
  unfold imageOff
  split_ifs <;> omega

theorem wreg_lineTaken_other (img : List (BitVec 256)) (k i : Nat) (p : Spindle) {g o : Nat}
    (h : ∀ j, j < 8 → g * 4096 + o ≠ (1 + k) * 4096 + (imageOff i + 4 * j)) : (lineTaken img k i p).wreg g o = p.wreg g o :=
  iter_keeps (fun x : Spindle => x.wreg g o = p.wreg g o) 8 _ (fun j hj x hx => (wreg_takeWord_other x _ _ _ (h j hj)).trans hx) p rfl

/-- An image stands in its ply's page. -/
theorem wreg_imageTaken_other (img : List (BitVec 256)) (k : Nat) (p : Spindle) {g o : Nat} (ho : o < 4096) (hg : g ≠ 1 + k) :
    (imageTaken img k p).wreg g o = p.wreg g o :=
  iter_keeps (fun x : Spindle => x.wreg g o = p.wreg g o) 87 _
    (fun i hi x hx => (wreg_lineTaken_other img k i x fun j hj => by have := imageOff_lt hi; omega).trans hx) p rfl

theorem wreg_lineTaken_action (img : List (BitVec 256)) (k : Nat) (p : Spindle) {a : Nat} (ha : a < 64) {j : Nat} (hj : j < 8) :
    (lineTaken img k a p).wreg (1 + k) (imageOff a + 4 * j) = BitVec.ofNat 32 (lineWord img a j) := by
  have hoff := imageOff_action ha
  rw [lineTaken]
  refine iter_establishes (fun j (x : Spindle) => x.wreg (1 + k) (imageOff a + 4 * j) = BitVec.ofNat 32 (lineWord img a j)) _ 8
    (fun j hj x => ?_) (fun j b hj hb x hx => ?_) p j hj
  · exact wreg_takeWord_action _ _ _ (by omega) (by omega) (by omega)
  · rw [wreg_takeWord_other _ _ _ _ (by omega)]
    exact hx

theorem wreg_imageTaken_action (img : List (BitVec 256)) (k : Nat) (p : Spindle) {a j : Nat} (ha : a < 64) (hj : j < 8) :
    (imageTaken img k p).wreg (1 + k) (imageOff a + 4 * j) = BitVec.ofNat 32 (lineWord img a j) := by
  rw [imageTaken]
  refine iter_establishes (fun i (x : Spindle) => i < 64 → x.wreg (1 + k) (imageOff i + 4 * j) = BitVec.ofNat 32 (lineWord img i j)) _ 87
    (fun i _ x hi => ?_) (fun i b hi hb x hx hb64 => ?_) p a (by omega) ha
  · exact wreg_lineTaken_action img k x hi hj
  · have hapart := imageOff_apart hb64 hi (by omega)
    rw [wreg_lineTaken_other img k i x fun j' hj' => by omega]
    exact hx hb64

/-- A number's low words of 32 bits sum up to its remainder. -/
theorem words_sum (x : Nat) (f : Nat → Nat) (n : Nat) (hf : ∀ j, j < n → f j = x >>> (32 * j) % 2 ^ 32) :
    (List.range n).foldl (fun acc i => acc + f i <<< (32 * i)) 0 = x % 2 ^ (32 * n) := by
  induction n with
  | zero => rw [Nat.mul_zero, Nat.pow_zero, Nat.mod_one, List.range_zero, List.foldl_nil]
  | succ n ih =>
    rw [List.range_succ, List.foldl_append, ih fun j hj => hf j (by omega), List.foldl_cons, List.foldl_nil, hf n (Nat.lt_succ_self n),
      Nat.shiftLeft_eq, Nat.shiftRight_eq_div_pow, Nat.mul_succ, Nat.pow_add, Nat.mod_mul,
      Nat.mul_comm (2 ^ (32 * n))]

theorem action_imageTaken (img : List (BitVec 256)) (k : Nat) (p : Spindle) {a : Nat} (ha : a < 64) :
    (imageTaken img k p).action k a = (nth 0#256 img a).toNat := by
  refine (words_sum (nth 0#256 img a).toNat _ 8 fun j hj => ?_).trans (Nat.mod_eq_of_lt (nth 0#256 img a).isLt)
  have hoff : 0x800 + a * 0x20 + 4 * j = imageOff a + 4 * j := by rw [imageOff_action ha, Nat.mul_comm a]
  rw [hoff, wreg_imageTaken_action img k p ha hj, BitVec.toNat_ofNat, lineWord, Nat.mod_mod]

/-! ### The taps that a load clears (R73, R82) -/

/-- The taps that `clr` names are cleared, of the first n. -/
def tapsCleared (clr n : Nat) (p : Spindle) : Spindle := iter n (fun t (p : Spindle) => if clr.testBit t then p.clearTap t else p) p

theorem tapsCleared_win (clr n : Nat) (p : Spindle) : tapsCleared clr n p = { p with win := (tapsCleared clr n p).win } := by
  refine iter_inv (fun x : Spindle => x = { p with win := x.win }) n _ (fun t x h => ?_) p rfl
  split
  · exact onlyWin_trans h rfl
  · exact h

theorem tapPending_congr {p q : Spindle} (h : q.fresh = p.fresh) (t : Nat) : q.tapPending t = p.tapPending t := by
  rw [Spindle.tapPending, h, Spindle.tapPending]

theorem tap_tapsCleared (clr : Nat) (p : Spindle) {n : Nat} (i : Nat) :
    (tapsCleared clr n p).tap i = if i < n ∧ clr.testBit i = true then p.tapPending i % 2 ^ 16 else p.tap i := by
  induction n with
  | zero => exact (if_neg fun h => absurd h.1 (Nat.not_lt_zero _)).symm
  | succ n ih =>
    have hfresh : (tapsCleared clr n p).fresh = p.fresh := by rw [tapsCleared_win]
    rw [tapsCleared, iter_succ, ← tapsCleared]
    split
    next hclr =>
      rw [Spindle.clearTap]
      by_cases h : i = n
      · rw [h, Spindle.tap_setTap_same, if_pos ⟨Nat.lt_succ_self n, hclr⟩, tapPending_congr hfresh]
      · rw [tap_setTap_other _ h, ih]
        exact if_congr (and_congr_left' (by omega)) rfl rfl
    next hclr =>
      rw [ih]
      by_cases h : i = n
      · rw [h, if_neg fun hn => absurd hn.1 (lt_irrefl n), if_neg fun hn => hclr hn.2]
      · exact if_congr (and_congr_left' (by omega)) rfl rfl

/-- The taps stand in page 5. -/
theorem wreg_tapsCleared (clr : Nat) (p : Spindle) {g o : Nat} (ho : o < 4096) (hg : g ≠ 5) : (tapsCleared clr 16 p).wreg g o = p.wreg g o := by
  refine iter_keeps (fun x : Spindle => x.wreg g o = p.wreg g o) 16 _ (fun t ht x hx => ?_) p rfl
  split
  · rw [Spindle.clearTap, Spindle.setTap, Spindle.setWf, Spindle.wreg_setW_other _ _ (by omega)]
    exact hx
  · exact hx

/-! ### The installed ply (R174) -/

/-- The registers of a spindle whose ply k takes an image, but for its state. -/
def imageTaps (p : Spindle) (k : Nat) (img : List (BitVec 256)) : Spindle :=
  let q := (imageTaken img k p).setW (1 + k) 0x48 0#32
  tapsCleared (q.wf_ (1 + k) 0x40 31 16) 16 q

/-- The ply is LOADED, at its entry. -/
def plyReady (p : Spindle) (k : Nat) : Spindle := (p.setSaved k (p.entry k)).setLoaded k true

theorem installPly_eq (p : Spindle) (k : Nat) (img : List (BitVec 256)) :
    ∃ cur ran, installPly p k img = { plyReady (imageTaps p k img) k with cur := cur, ran := ran } := by
  have hset : ∀ (x : Spindle) (b : Bool), ∃ cur ran, (let x := x.setActive k b; if x.ply = k then x.setCur k (x.entry k) else x) =
      { x with cur := cur, ran := ran } := fun x b => by
    dsimp only
    split
    · exact ⟨_, _, rfl⟩
    · exact ⟨_, _, rfl⟩
  exact hset (plyReady (imageTaps p k img) k) _

theorem wreg_plyReady_other (p : Spindle) (k : Nat) {g o : Nat} (h40 : g * 4096 + o ≠ (1 + k) * 4096 + 0x40)
    (h4C : g * 4096 + o ≠ (1 + k) * 4096 + 0x4C) : (plyReady p k).wreg g o = p.wreg g o := by
  rw [plyReady, Spindle.setLoaded, Spindle.wreg_setW_other _ _ h40, Spindle.setSaved, Spindle.setWf, Spindle.wreg_setW_other _ _ h4C]

theorem plyReady_does (p : Spindle) (k : Nat) : (plyReady p k).loaded k = true ∧ (plyReady p k).saved k = (plyReady p k).entry k ∧
    (plyReady p k).wf_ (1 + k) 0x40 31 16 = p.wf_ (1 + k) 0x40 31 16 := by
  have hset : ∀ (x : Spindle) (o hi lo : Nat), o ≠ 0x40 → (x.setLoaded k true).wf_ (1 + k) o hi lo = x.wf_ (1 + k) o hi lo := fun x o hi lo ho => by
    rw [Spindle.wf_, Spindle.setLoaded, Spindle.wreg_setW_other _ _ (by omega), Spindle.wf_]
  unfold plyReady
  refine ⟨?_, ?_, ?_⟩
  · rw [Spindle.loaded, Spindle.setLoaded, Spindle.wreg_setW_same]
    exact getB_putB_same _ _ (by decide)
  · have hsaved : ∀ x : Spindle, (x.setLoaded k true).saved k = x.saved k := fun x => hset x 0x4C 13 8 (by decide)
    have hentry : ∀ x : Spindle, (x.setLoaded k true).entry k = x.entry k := fun x => hset x 0x4C 5 0 (by decide)
    rw [hsaved, hentry]
    exact (saved_setSaved_same _ _ _).trans ((Nat.mod_eq_of_lt (entry_lt _ _)).trans (entry_setSaved _ _ _ _).symm)
  · rw [Spindle.wf_, Spindle.setLoaded, Spindle.wreg_setW_same, getF_putB_apart _ _ (by decide) (by decide), Spindle.setSaved, Spindle.setWf,
      Spindle.wreg_setW_other _ _ (by omega), Spindle.wf_]

theorem fresh_setW (p : Spindle) (g o : Nat) (v : Word) : (p.setW g o v).fresh = p.fresh := rfl

theorem vregs_plyReady (p : Spindle) (k : Nat) : (plyReady p k).vregs = p.vregs := rfl

theorem imageTaps_win (p : Spindle) (k : Nat) (img : List (BitVec 256)) : imageTaps p k img = { p with win := (imageTaps p k img).win } :=
  onlyWin_trans (onlyWin_trans (imageTaken_win img k p) rfl) (tapsCleared_win _ _ _)

/-- The ply k of `q` is installed from an image, in the place of the one of `p`. -/
structure Installed (p : Spindle) (k : Nat) (img : List (BitVec 256)) (q : Spindle) : Prop where
  loaded : q.loaded k = true
  flags : q.wreg (1 + k) 0x48 = 0#32
  saved : q.saved k = q.entry k
  action : ∀ a, a < 64 → q.action k a = (nth 0#256 img a).toNat
  taps : ∀ i, i < 16 → q.tap i = if (q.wf_ (1 + k) 0x40 31 16).testBit i then p.tapPending i % 2 ^ 16 else p.tap i
  vregs : q.vregs = p.vregs
  rest : ∀ g o, o < 4096 → g ≠ 1 + k → g ≠ 5 → q.wreg g o = p.wreg g o

theorem Installed.of_win {p q r : Spindle} {k : Nat} {img : List (BitVec 256)} (h : Installed p k img r) (hwin : q.win = r.win) (hvregs : q.vregs = r.vregs) :
    Installed p k img q := by
  obtain ⟨hloaded, hflags, hsaved, haction, htaps, hv, hrest⟩ := h
  have hreg : ∀ g o, q.wreg g o = r.wreg g o := wreg_congr hwin
  have hwf : ∀ g o hi lo, q.wf_ g o hi lo = r.wf_ g o hi lo := fun g o hi lo => by rw [Spindle.wf_, hreg, Spindle.wf_]
  refine ⟨?_, ?_, ?_, fun a ha => ?_, fun i hi => ?_, hvregs.trans hv, fun g o ho hg h5 => ?_⟩
  · rw [Spindle.loaded, hreg]
    exact hloaded
  · rw [hreg, hflags]
  · rw [Spindle.saved, Spindle.entry, hwf, hwf]
    exact hsaved
  · rw [← haction a ha]
    exact action_congr fun j _ => hreg _ _
  · rw [hwf, ← htaps i hi, Spindle.tap, hwf, Spindle.tap]
  · rw [hreg, hrest g o ho hg h5]

theorem Installed.of_state {p q r : Spindle} {k : Nat} {img : List (BitVec 256)} {cur : SMap Nat} {ran : SMap Bool} (h : Installed p k img r)
    (heq : q = { r with cur := cur, ran := ran }) : Installed p k img q := by
  subst heq
  exact h.of_win rfl rfl

section
variable (p : Spindle) (img : List (BitVec 256)) {k : Nat} (hk : k < 4)
include hk

theorem imageTaps_does : (imageTaps p k img).wreg (1 + k) 0x48 = 0#32 ∧
    (∀ a, a < 64 → (imageTaps p k img).action k a = (nth 0#256 img a).toNat) ∧
    (∀ i, i < 16 → (imageTaps p k img).tap i =
      if ((imageTaps p k img).wf_ (1 + k) 0x40 31 16).testBit i then p.tapPending i % 2 ^ 16 else p.tap i) ∧
    ∀ g o, o < 4096 → g ≠ 1 + k → g ≠ 5 → (imageTaps p k img).wreg g o = p.wreg g o := by
  unfold imageTaps
  extract_lets q
  have hq : ∀ g o, g * 4096 + o ≠ (1 + k) * 4096 + 0x48 → q.wreg g o = (imageTaken img k p).wreg g o := fun g o h => Spindle.wreg_setW_other _ _ h
  have htap : ∀ i, i < 16 → q.tap i = p.tap i := fun i hi => by
    rw [Spindle.tap, Spindle.wf_, hq _ _ (by omega), wreg_imageTaken_other _ _ _ (by omega) (by omega)]
    rfl
  have hfresh : q.fresh = p.fresh := (fresh_setW _ _ _ _).trans (by rw [imageTaken_win])
  have hctrl : ∀ clr, (tapsCleared clr 16 q).wf_ (1 + k) 0x40 31 16 = q.wf_ (1 + k) 0x40 31 16 := fun clr => by
    rw [Spindle.wf_, wreg_tapsCleared _ _ (by decide) (by omega), Spindle.wf_]
  refine ⟨?_, fun a ha => ?_, fun i hi => ?_, fun g o ho hg h5 => ?_⟩
  · rw [wreg_tapsCleared _ _ (by decide) (by omega)]
    exact Spindle.wreg_setW_same _ _ _ _
  · rw [← action_imageTaken img k p ha]
    refine action_congr fun j hj => ?_
    rw [wreg_tapsCleared _ _ (by omega) (by omega), hq _ _ (by omega)]
  · rw [hctrl, tap_tapsCleared, tapPending_congr hfresh, htap i hi]
    exact if_congr (and_iff_right hi) rfl rfl
  · rw [wreg_tapsCleared _ _ ho h5, hq _ _ (by omega), wreg_imageTaken_other _ _ _ ho hg]

theorem plyReady_installed {x : Spindle} (hflags : x.wreg (1 + k) 0x48 = 0#32) (haction : ∀ a, a < 64 → x.action k a = (nth 0#256 img a).toNat)
    (htaps : ∀ i, i < 16 → x.tap i = if (x.wf_ (1 + k) 0x40 31 16).testBit i then p.tapPending i % 2 ^ 16 else p.tap i)
    (hvregs : x.vregs = p.vregs) (hkeep : ∀ g o, o < 4096 → g ≠ 1 + k → g ≠ 5 → x.wreg g o = p.wreg g o) : Installed p k img (plyReady x k) := by
  obtain ⟨hloaded, hsaved, hctrl⟩ := plyReady_does x k
  refine ⟨hloaded, ?_, hsaved, fun a ha => ?_, fun i hi => ?_, (vregs_plyReady x k).trans hvregs, fun g o ho hg h5 => ?_⟩
  · rw [wreg_plyReady_other _ _ (by omega) (by omega), hflags]
  · rw [← haction a ha]
    exact action_congr fun j hj => wreg_plyReady_other _ _ (by omega) (by omega)
  · rw [hctrl, ← htaps i hi, Spindle.tap, Spindle.wf_, wreg_plyReady_other _ _ (by omega) (by omega), Spindle.tap, Spindle.wf_]
  · rw [wreg_plyReady_other _ _ (by omega) (by omega), hkeep g o ho hg h5]

theorem installPly_installed : Installed p k img (installPly p k img) := by
  obtain ⟨cur, ran, heq⟩ := installPly_eq p k img
  obtain ⟨hflags, haction, htaps, hkeep⟩ := imageTaps_does p img hk
  have hvregs : (imageTaps p k img).vregs = p.vregs := by rw [imageTaps_win]
  exact (plyReady_installed p img hk hflags haction htaps hvregs hkeep).of_state heq

end

/-! ### The end of a load (R174, R175) -/

/-- The jobs of a run but the one that a load of ply k of spindle `sid` was for. -/
def jobDone (s : State) (sid k : Nat) : State := { s with run := { s.run with jobs := s.run.jobs.filter (fun j => !(j.sid = sid && j.ply = k)) } }

theorem spin_jobDone (s : State) (sid k j : Nat) : (jobDone s sid k).spin j = s.spin j := State.spin_congr rfl j

section
variable {s : State} {sid : Nat} {l : Loading} (hup : spinUp s sid = true) (hload : (s.spin sid).load = some l) (hdone : 87 ≤ l.next)
include hup hload hdone

theorem plyLoadDone_installs (hbad : l.bad = false) {q : Spindle} (hq : installPly (s.spin sid) l.ply l.data = q) :
    plyLoadDone s sid = jobDone (s.setSpin sid { q with load := none }) sid l.ply := by
  have hgo : ¬ (!spinUp s sid || decide (l.next < 87)) = true := by rw [hup, decide_eq_false (Nat.not_lt.2 hdone)]; decide
  unfold plyLoadDone
  extract_lets p
  split
  next h => exact absurd (hload.symm.trans h) nofun
  next l' h =>
    obtain rfl : l = l' := Option.some.inj (hload.symm.trans h)
    rw [if_neg hgo, if_neg (by rw [hbad]; decide), show installPly p l.ply l.data = q from hq]
    rfl

theorem plyLoadDone_faults (hbad : l.bad = true) (hlive : s.live sid = true) {u : State} (hu : scramblePly s sid l = u) :
    ∃ c : Cause, c.code = 2 ∧ plyLoadDone s sid = runFault (jobDone (u.modSpin sid (fun p => { p with load := none })) sid l.ply) c := by
  have hgo : ¬ (!spinUp s sid || decide (l.next < 87)) = true := by rw [hup, decide_eq_false (Nat.not_lt.2 hdone)]; decide
  unfold plyLoadDone
  extract_lets p live
  split
  next h => exact absurd (hload.symm.trans h) nofun
  next l' h =>
    obtain rfl : l = l' := Option.some.inj (hload.symm.trans h)
    rw [if_neg hgo, if_pos hbad, hu, show live = true from hlive]
    extract_lets w t used
    rw [if_pos (Bool.true_or _)]
    exact ⟨_, rfl, rfl⟩

end

theorem plyLoadDone_installed {s : State} {sid : Nat} {p : Spindle} {k : Nat} {img : List (BitVec 256)} {q : Spindle} (h : Installed p k img q) :
    let t := jobDone (s.setSpin sid { q with load := none }) sid k
    let r := t.spin sid
    r.loaded k = true ∧ r.wreg (1 + k) 0x48 = 0#32 ∧ r.saved k = r.entry k ∧ r.load = none ∧
      (∀ a, a < 64 → r.action k a = (nth 0#256 img a).toNat) ∧
      (∀ i, i < 16 → r.tap i = if (r.wf_ (1 + k) 0x40 31 16).testBit i then p.tapPending i % 2 ^ 16 else p.tap i) ∧
      (∀ j, r.vreg j = p.vreg j) ∧ (∀ g o, o < 4096 → g ≠ 1 + k → g ≠ 5 → r.wreg g o = p.wreg g o) ∧
      (∀ j, j ≠ sid → t.spin j = s.spin j) ∧ t = { s with spindles := t.spindles, run := t.run } := by
  have hr : (jobDone (s.setSpin sid { q with load := none }) sid k).spin sid = { q with load := none } := State.spin_setSpin_same _ _ _
  obtain ⟨hloaded, hflags, hsaved, haction, htaps, hvregs, hrest⟩ := h.of_win (q := { q with load := none }) rfl rfl
  dsimp only
  rw [hr]
  refine ⟨hloaded, hflags, hsaved, rfl, haction, htaps, fun j => ?_, hrest, fun j hj => State.spin_setSpin_other _ _ hj, rfl⟩
  rw [Spindle.vreg, hvregs, Spindle.vreg]

/-! ### An uncorrectable image (R175) -/

theorem loaded_congr {p q : Spindle} (h : q.win = p.win) (k : Nat) : q.loaded k = p.loaded k := by
  rw [Spindle.loaded, wreg_congr h, Spindle.loaded]

/-- `t` has the registers of the tile of `s`, and the LOADED of ply k of spindle `sid` (R9, R174). -/
structure Scrambled (sid k : Nat) (s t : State) : Prop where
  regs : t.regs = s.regs
  loaded : (t.spin sid).loaded k = (s.spin sid).loaded k

theorem Scrambled.draw {sid k w : Nat} {s t : State} (h : Scrambled sid k s t) (x y : BitVec w) : Scrambled sid k s (t.mix x y).2 :=
  ⟨h.regs, h.loaded⟩

theorem Scrambled.store {sid k : Nat} {s t : State} (h : Scrambled sid k s t) (off : Nat) (v : Word)
    (hv : getB v 0 = getB ((t.spin sid).wreg (1 + k) 0x40) 0 ∨ (off ≠ 0x40 ∧ off < 4096)) :
    Scrambled sid k s (t.modSpin sid (fun p => p.setW (1 + k) off v)) := by
  obtain ⟨kregs, kloaded⟩ := h
  refine ⟨kregs, ?_⟩
  rw [← kloaded, State.spin_modSpin_same, Spindle.loaded, Spindle.loaded]
  by_cases e : off = 0x40
  · rw [e, Spindle.wreg_setW_same]
    exact hv.resolve_right fun h => h.1 e
  · rw [Spindle.wreg_setW_other _ _ (by omega)]

/-- The load ends, with its jobs. -/
theorem Scrambled.ended {sid k : Nat} {s t : State} (h : Scrambled sid k s t) :
    Scrambled sid k s (jobDone (t.modSpin sid (fun p => { p with load := none })) sid k) := by
  obtain ⟨kregs, kloaded⟩ := h
  refine ⟨kregs, ?_⟩
  rw [spin_jobDone, State.spin_modSpin_same, ← kloaded]
  exact loaded_congr rfl k

theorem plyMask_ctrl : (plyMask 0x40 (fun _ => true)).testBit 0 = true := by decide

theorem scramblePly_scrambles (s : State) (sid : Nat) (l : Loading) : Scrambled sid l.ply s (scramblePly s sid l) := by
  unfold scramblePly
  refine iter_keeps (Scrambled sid l.ply s) 1008 _ (fun j hj t ht => ?_) s ⟨rfl, rfl⟩
  extract_lets off now
  split
  · exact ht
  · generalize hA : t.mix now _ = A
    obtain ⟨v1, t1⟩ := A
    dsimp only
    generalize hB : t1.mix v1 _ = B
    obtain ⟨v2, t2⟩ := B
    dsimp only
    obtain rfl : (t.mix now _).2 = t1 := congrArg Prod.snd hA
    obtain rfl : (State.mix _ v1 _).2 = t2 := congrArg Prod.snd hB
    refine ((ht.draw now _).draw v1 _).store off _ ?_
    by_cases e : off = 0x40
    · have hnow : now = (t.spin sid).wreg (1 + l.ply) 0x40 := congrArg ((t.spin sid).wreg (1 + l.ply)) e
      refine .inl ?_
      rw [if_pos e, getB_eq, BitVec.getLsbD_and, ← getB_eq, getB_putF_apart _ _ (by decide), getB_putB_same _ _ (by decide), e, BitVec.getLsbD_ofNat,
        plyMask_ctrl]
      exact (Bool.and_true _).trans (congrArg (getB · 0) hnow)
    · exact .inr ⟨e, by omega⟩

theorem live_running {s : State} {sid : Nat} (h : s.live sid = true) : s.running = true := (Bool.and_eq_true_iff.1 h).1

theorem Scrambled.fault {s w : State} {sid k : Nat} {c : Cause} (h : Scrambled sid k s w) (hcode : c.code = 2) (hlive : s.live sid = true) :
    (runFault w c).runState = 5 ∧ (s.bget (pRun + 0x60) 31 = false → (runFault w c).fget (pRun + 0x60) 15 8 = 2) ∧
      ((runFault w c).spin sid).loaded k = (s.spin sid).loaded k := by
  obtain ⟨kregs, kloaded⟩ := h
  have hreg : ∀ o, w.reg o = s.reg o := fun o => by rw [State.reg, kregs, State.reg]
  have hrun : w.running = true := by
    rw [State.running, State.runState, State.fget, hreg]
    exact live_running hlive
  obtain ⟨hstate, hrecord⟩ := runFault_faults (c := c) (by omega) hrun
  obtain ⟨b, hb⟩ := (runFault_sheltered (· < 0x1000) (fun _ h => h) w c).spin sid
  refine ⟨hstate, fun h => ?_, ?_⟩
  · rw [hrecord ?_, hcode]
    rw [State.bget, hreg]
    exact h
  · rw [hb, ← kloaded]
    exact loaded_congr rfl _

theorem plyLoadDone_uncorrectable {s : State} {sid : Nat} {l : Loading} (hup : spinUp s sid = true) (hload : (s.spin sid).load = some l)
    (hdone : 87 ≤ l.next) (hbad : l.bad = true) (hlive : s.live sid = true) :
    (plyLoadDone s sid).runState = 5 ∧ (s.bget (pRun + 0x60) 31 = false → (plyLoadDone s sid).fget (pRun + 0x60) 15 8 = 2) ∧
      ((plyLoadDone s sid).spin sid).loaded l.ply = (s.spin sid).loaded l.ply := by
  obtain ⟨c, hcode, heq⟩ := plyLoadDone_faults hup hload hdone hbad hlive rfl
  rw [heq]
  exact (scramblePly_scrambles s sid l).ended.fault hcode hlive

/-- Settles O31: a load's start is cut into what stops arriving, what is emptied and what is kept; its end installs an image word by word, and
an uncorrectable image scrambles the ply and faults the run. -/
theorem plyLoads : Obligations.PlyLoads := by
  unfold Obligations.PlyLoads
  intro s sid hup
  refine ⟨fun base hload hwait hloaded hlive => ?_, fun k base now hk hload hwait hgo => ?_, fun l hload hk hdone hbad => ?_,
    fun l hload hk hdone hbad hlive => ?_⟩
  · exact congrArg Host.Outcome.next (plyLoadStart_waits hload hwait hloaded hlive)
  · exact ⟨_, congrArg Host.Outcome.next (plyLoadStart_starts hup hload hwait hgo), loadStart_does s sid.toNat k base⟩
  · exact ⟨_, congrArg Host.Outcome.next (plyLoadDone_installs hup hload hdone hbad rfl), plyLoadDone_installed (installPly_installed _ _ hk)⟩
  · exact ⟨_, rfl, plyLoadDone_uncorrectable hup hload hdone hbad hlive⟩

end Sys2Proof.Machine
end

