-- ==== Sys2Proof/Proofs/QueueRules.lean ====
section
/-! PROOF. Rules for the queues of a spindle: headers counted on a route, announced tokens, records in a ring, and queue events. -/
namespace Sys2Proof.Machine

/-! ### Steps of one spindle (R73, R87) -/

/-- A register of the field pages or beyond. -/
def fieldReg (o : Nat) : Prop := 0x1000000 ≤ o

theorem fieldReg_window (f k : Nat) : fieldReg (pWin f k + 0x18) ∧ fieldReg (pWin f k + 0x1C) := by
  unfold fieldReg pWin fieldBase
  omega

theorem fieldReg_field (f : Nat) : fieldReg (pField f + 0x18) ∧ fieldReg (pField f + 0x1C) := by
  unfold fieldReg pField fieldBase
  omega

/-- Steps of one spindle in a row. -/
theorem SpindleStep.comp {R Q T : Spindle → Spindle → Prop} {p : Nat → Prop} {n : Nat} {s t u : State} (h : SpindleStep R p n s t)
    (k : SpindleStep Q p n t u) (hT : R (s.spin n) (t.spin n) → Q (t.spin n) (u.spin n) → T (s.spin n) (u.spin n)) : SpindleStep T p n s u := by
  obtain ⟨hspin, hother, hregs, hframe⟩ := h
  obtain ⟨kspin, kother, kregs, kframe⟩ := k
  refine ⟨hT hspin kspin, fun j hj => (kother j hj).trans (hother j hj), fun o ho => (kregs o ho).trans (hregs o ho), ?_⟩
  rw [kframe, hframe]

theorem SpindleStep.weaken {R T : Spindle → Spindle → Prop} {p : Nat → Prop} {n : Nat} {s t : State} (h : SpindleStep R p n s t)
    (hT : R (s.spin n) (t.spin n) → T (s.spin n) (t.spin n)) : SpindleStep T p n s t := ⟨hT h.spin, h.other, h.regs, h.frame⟩

/-- One spindle stored. -/
theorem SpindleStep.of_setSpin {R : Spindle → Spindle → Prop} (p : Nat → Prop) (n : Nat) (s : State) {q : Spindle} (h : R (s.spin n) q) :
    SpindleStep R p n s (s.setSpin n q) :=
  ⟨by rw [State.spin_setSpin_same]; exact h, fun _ hj => State.spin_setSpin_other _ _ hj, fun _ _ => rfl, rfl⟩

/-- The count of a route bumps counters of the LOCAL port and the links, from +0x500 of page 6 on (R87). -/
theorem wreg_countRoute (s : State) (m : Msg) (out : Bool) (j : Nat) {o : Nat} (ho : o < 0x500) :
    ((countRoute s m out).spin j).wreg 6 o = (s.spin j).wreg 6 o := by
  unfold countRoute countHops
  extract_lets e last pass
  have hpassed : ∀ l : List (Nat × Nat), (SMap.get (fun _ => ({} : Spindle))
      (l.foldl (fun m h => SMap.set (fun _ => {}) m h.1 (pass h).1) s.spindles) j).wreg 6 o = (s.spin j).wreg 6 o := fun l =>
    SMap.get_foldl_set (fun _ => ({} : Spindle)) (P := fun i q => q.wreg 6 o = (s.spin i).wreg 6 o) (fun h : Nat × Nat => h.1)
      (fun h => (pass h).1) l s.spindles (fun _ => rfl) (fun h _ => wreg_bump48_other _ _ _ _ (by omega) (by omega)) j
  exact forEach_inv (fun t : State => (t.spin j).wreg 6 o = (s.spin j).wreg 6 o) _
    (fun h t ht => by rw [State.spin_raise]; exact ht) _ _ (hpassed _)

/-- A record of a spindle with one more at the 48-bit count `lo` of page 6. -/
structure Counted (lo : Nat) (p r : Spindle) : Prop where
  same : r = { p with win := r.win }
  count : r.wreg 6 lo = p.wreg 6 lo + 1#32
  rest : ∀ g o, o < 4096 → (g = 6 → o ≠ lo ∧ o ≠ lo + 4) → r.wreg g o = p.wreg g o

theorem wbump48_counts (s : State) (sid : Nat) {lo : Nat} (h : lo + 4 < 4096) : SpindleStep (Counted lo) fieldReg sid s (wbump48 s sid 6 lo 1) := by
  obtain ⟨hspin, hother, hregs, hframe⟩ := onlyWindow_wbump48 s sid 6 lo 1
  obtain ⟨h18, h1C⟩ := fieldReg_window (s.fieldOf sid) 6
  refine ⟨⟨hspin, ?_, fun g o ho hg => ?_⟩, hother, fun o ho => hregs o fun e => ho (e.elim (· ▸ h18) (· ▸ h1C)), by rw [hframe]⟩
  · rw [spin_wbump48]
    exact bump48_lo _ _ _ _
  · rw [spin_wbump48]
    exact wreg_bump48_other _ _ _ _ (by omega) (by omega)

/-- An increment of a tap changes registers of page 5 and of hank queues alone (R73, R259). -/
structure TapsMoved (p r : Spindle) : Prop where
  vreg : ∀ i, r.vreg i = p.vreg i
  skew : r.skew = p.skew
  counts : ∀ o, o < 4096 → r.wreg 6 o = p.wreg 6 o
  rest : ∀ g o, g < 5 → o < 4096 → o < 0x240 ∨ 0x260 ≤ o → r.wreg g o = p.wreg g o

theorem TapsMoved.setW {p r : Spindle} (h : TapsMoved p r) {g o : Nat} (hg : g = 5 ∧ o < 0x1000 ∨ g < 5 ∧ 0x240 ≤ o ∧ o < 0x260) (v : Word) :
    TapsMoved p (r.setW g o v) := by
  obtain ⟨hvreg, hskew, hcounts, hrest⟩ := h
  refine ⟨hvreg, hskew, fun o' ho' => ?_, fun g' o' hg' ho' hout => ?_⟩
  · rw [Spindle.wreg_setW_other _ _ (by omega)]
    exact hcounts o' ho'
  · rw [Spindle.wreg_setW_other _ _ (by omega)]
    exact hrest g' o' hg' ho' hout

theorem TapsMoved.form {p r : Spindle} (h : TapsMoved p r) (due : Option Nat) (x : Formed) : TapsMoved p (r.form due x) := by
  cases due with
  | none => exact h
  | some d => exact ⟨h.vreg, h.skew, h.counts, h.rest⟩

theorem tapAdd_moves (s : State) (sid : Nat) {t : Nat} (ht : t < 16) (n : Nat) (due : Option Nat) :
    SpindleStep TapsMoved fieldReg sid s (tapAdd s sid t n due) := by
  have hset : ∀ {u : State} (q : Spindle), SpindleStep TapsMoved fieldReg sid s u → TapsMoved (s.spin sid) q →
      SpindleStep TapsMoved fieldReg sid s (u.setSpin sid q) := fun {u} q hu hq =>
    ⟨by rw [State.spin_setSpin_same]; exact hq, fun j hj => (State.spin_setSpin_other _ _ hj).trans (hu.other j hj), hu.regs, by
      rw [State.setSpin, hu.frame]⟩
  have hrefl : TapsMoved (s.spin sid) (s.spin sid) := ⟨fun _ => rfl, rfl, fun _ _ => rfl, fun _ _ _ _ _ => rfl⟩
  have htap : SpindleStep TapsMoved fieldReg sid s (s.setSpin sid (((s.spin sid).setTap t ((s.spin sid).tap t + n)).form due (.tap t n))) :=
    .of_setSpin _ _ _ ((hrefl.setW (by omega) _).form _ _)
  unfold tapAdd
  dsimp only
  split
  · exact htap
  · refine forEach_mem (SpindleStep TapsMoved fieldReg sid s) _ _ _ (fun kq hkq u hu => ?_) htap
    obtain ⟨hk, hq⟩ := hqOfTap_lt _ _ kq hkq
    exact (hset _ hu ((hu.spin.setW (by omega) _).form _ _)).raiseIf (fieldReg_field _).1 (fieldReg_field _).2 _ _

/-! ### Records in a ring (R193 to R195) -/

/-- A token that is announced counts at `lo` of page 6, and may raise a tap (R187, R209). -/
structure Announced (lo : Nat) (p r : Spindle) : Prop where
  vreg : ∀ i, r.vreg i = p.vreg i
  skew : r.skew = p.skew
  count : r.wreg 6 lo = p.wreg 6 lo + 1#32
  rest : ∀ g o, g < 5 → o < 4096 → o < 0x240 ∨ 0x260 ≤ o → r.wreg g o = p.wreg g o

/-- A count of page 6, and where `c` says so an increment of a tap. -/
theorem announce (s : State) (sid : Nat) {lo : Nat} (hlo : lo + 4 < 4096) (c : Bool) {t : Nat} (ht : t < 16) (due : Option Nat) :
    SpindleStep (Announced lo) fieldReg sid s
      (if c = true then tapAdd (wbump48 s sid 6 lo 1) sid t 1 due else wbump48 s sid 6 lo 1) := by
  have hcount := wbump48_counts s sid hlo
  have hsame : ∀ {p r : Spindle}, Counted lo p r → Announced lo p r := fun {p r} h =>
    ⟨fun i => by rw [h.same]; rfl, by rw [h.same], h.count, fun g o hg ho _ => h.rest g o ho (by omega)⟩
  split
  · refine hcount.comp (tapAdd_moves _ sid ht 1 due) fun h k => ?_
    obtain ⟨hvreg, hskew, hlo', hrest⟩ := hsame h
    exact ⟨fun i => (k.vreg i).trans (hvreg i), k.skew.trans hskew, (k.counts lo (by omega)).trans hlo', fun g o hg ho hout =>
      (k.rest g o hg ho hout).trans (hrest g o hg ho hout)⟩
  · exact hcount.weaken hsame

/-- A record that waits behind nothing becomes a token. -/
theorem tokenMade_announces {s : State} {sid k q : Nat} (hk : k < 4) (hq : q < 8) (hholes : (s.spin sid).holes = []) (off : Nat) :
    SpindleStep (Announced (0x100 + 0x80 * k + 0x10 * q)) fieldReg sid s (tokenMade s sid k q off) := by
  have htap : getF ((s.spin sid).wreg (1 + k) (rqOff q)) 27 24 < 16 := getF_lt _ _ _
  have hform := announce (s.setSpin sid ((s.spin sid).form (some (s.spin sid).ep.length) (.record k q off))) sid
    (lo := 0x100 + 0x80 * k + 0x10 * q) (by omega) (getB ((s.spin sid).wreg (1 + k) (rqOff q)) 28) htap (some (s.spin sid).ep.length)
  have hset : SpindleStep (fun p r => r = p.form (some (s.spin sid).ep.length) (.record k q off)) fieldReg sid s
      (s.setSpin sid ((s.spin sid).form (some (s.spin sid).ep.length) (.record k q off))) :=
    .of_setSpin _ _ _ rfl
  have hmade : tokenMade s sid k q off =
      if getB ((s.spin sid).wreg (1 + k) (rqOff q)) 28 = true then
        tapAdd (wbump48 (s.setSpin sid ((s.spin sid).form (some (s.spin sid).ep.length) (.record k q off))) sid 6 (0x100 + 0x80 * k + 0x10 * q) 1) sid
          (getF ((s.spin sid).wreg (1 + k) (rqOff q)) 27 24) 1 (some (s.spin sid).ep.length)
      else wbump48 (s.setSpin sid ((s.spin sid).form (some (s.spin sid).ep.length) (.record k q off))) sid 6 (0x100 + 0x80 * k + 0x10 * q) 1 := by
    unfold tokenMade
    simp only [hholes, List.any_nil, Bool.false_eq_true, if_false]
  rw [hmade]
  exact hset.comp hform fun h k => by
    rw [h] at k
    exact ⟨k.vreg, k.skew, k.count, k.rest⟩

/-- A record's lines in a region with room before its end. -/
theorem writeRecord_fits (s : State) (sid base size tail : Nat) (lines : List Line) :
    writeRecord s sid base size tail .fits lines = linesWritten s sid (base + tail) lines.length (nth {} lines) := by
  have hzip : (List.range lines.length).zip lines = (List.range lines.length).map (fun i => (i, nth {} lines i)) := by
    refine List.ext_getElem (by simp) fun i h1 h2 => ?_
    have hi : i < lines.length := by simpa using h2
    simp [nth, hi]
  unfold writeRecord linesWritten
  simp only [placeAt, storeAddr_mod, Nat.add_assoc, reduceCtorEq, if_false, hzip, forEach, iter, List.foldl_map]

/-- A record of n lines stands in receive queue q of ply k (R193, R195). -/
structure RecordPlaced (k q n : Nat) (p r : Spindle) : Prop where
  vreg : ∀ i, r.vreg i = p.vreg i
  skew : r.skew = p.skew
  count : r.wreg 6 (0x100 + 0x80 * k + 0x10 * q) = p.wreg 6 (0x100 + 0x80 * k + 0x10 * q) + 1#32
  usedReg : r.wreg (1 + k) (rqOff q + 0x14) = putF (p.wreg (1 + k) (rqOff q + 0x14)) 10 0 (rqUsed p k q + n)
  tailReg : r.wreg (1 + k) (rqOff q + 0xC) = putF (p.wreg (1 + k) (rqOff q + 0xC)) 26 16 ((rqTail p k q + n) % rqSize p k q)
  headReg : r.wreg (1 + k) (rqOff q + 0x10) = p.wreg (1 + k) (rqOff q + 0x10)

namespace RecordPlaced
variable {k q n : Nat} {p r : Spindle}

theorem rqUsed_eq (h : RecordPlaced k q n p r) (hlt : rqUsed p k q + n < 2048) : rqUsed r k q = rqUsed p k q + n := by
  rw [rqUsed, Spindle.wf_, h.usedReg, getF_putF_same _ _ (by decide)]
  exact Nat.mod_eq_of_lt hlt

theorem rqTail_eq (h : RecordPlaced k q n p r) (hsize : 0 < rqSize p k q) : rqTail r k q = (rqTail p k q + n) % rqSize p k q := by
  have hlt : rqSize p k q < 2048 := getF_lt _ _ _
  rw [rqTail, Spindle.wf_, h.tailReg, getF_putF_same _ _ (by decide)]
  exact Nat.mod_eq_of_lt ((Nat.mod_lt _ hsize).trans hlt)

theorem rqHead_eq (h : RecordPlaced k q n p r) : rqHead r k q = rqHead p k q := by
  rw [rqHead, Spindle.wf_, h.tailReg, getF_putF_apart _ _ (by decide) (by decide)]
  rfl

theorem spUsed_eq (h : RecordPlaced k q n p r) : spUsed r k q = spUsed p k q := by
  rw [spUsed, Spindle.wf_, h.usedReg, getF_putF_apart _ _ (by decide) (by decide)]
  rfl

theorem spHead_eq (h : RecordPlaced k q n p r) : spHead r k q = spHead p k q := by
  rw [spHead, Spindle.wf_, h.headReg]
  rfl

/-- The lines that the EP passes for the record are none of its registers. -/
theorem arrive (h : RecordPlaced k q n p r) (i : Nat) (m : Msg) : RecordPlaced k q n p (r.arrive i m) :=
  ⟨h.vreg, h.skew, h.count, h.usedReg, h.tailReg, h.headReg⟩

end RecordPlaced

/-- A record of n lines with room before the ring's end: its lines, then its place and its token. -/
theorem ringDeliver_fits {s : State} {sid k q n : Nat} (hk : k < 4) (hq : q < 8) (hholes : (s.spin sid).holes = []) {lines : List Line}
    (banks : List (BitVec 8)) :
    SpindleStep (RecordPlaced k q n) fieldReg sid (linesWritten s sid (rqBase (s.spin sid) k q + rqTail (s.spin sid) k q) lines.length (nth {} lines))
      (ringDeliver s sid k q .fits n lines false banks) := by
  have hspin : ∀ L l f, (linesWritten s sid L l f).spin sid = s.spin sid := fun L l f => by
    rw [State.spin, linesWritten_frame]
    rfl
  unfold ringDeliver
  simp only [writeRecord_fits, reduceCtorEq, if_false, Bool.false_eq_true, placeAt, Nat.add_zero]
  generalize hu : linesWritten s sid (rqBase (s.spin sid) k q + rqTail (s.spin sid) k q) lines.length (nth {} lines) = u
  have hup : u.spin sid = s.spin sid := by rw [← hu, hspin]
  rw [← hup] at hholes ⊢
  generalize hv : u.modSpin sid _ = v
  have hstep : SpindleStep (fun p r => r = { ((p.setWf (1 + k) (rqOff q + 0x14) 10 0 (rqUsed p k q + n)).setWf (1 + k) (rqOff q + 0xC) 26 16
      ((rqTail p k q + n) % rqSize p k q)).epPass banks with holes := p.holes }) fieldReg sid u v := by
    rw [← hv]
    exact SpindleStep.of_modSpin fieldReg sid u rfl
  have hvholes : (v.spin sid).holes = [] := by rw [hstep.spin]; exact hholes
  refine hstep.comp (tokenMade_announces hk hq hvholes (rqTail (u.spin sid) k q)) fun h a => ?_
  have hreg : ∀ o, o < 0x200 → (v.spin sid).wreg (1 + k) o = (((u.spin sid).setWf (1 + k) (rqOff q + 0x14) 10 0 (rqUsed (u.spin sid) k q + n)).setWf
      (1 + k) (rqOff q + 0xC) 26 16 ((rqTail (u.spin sid) k q + n) % rqSize (u.spin sid) k q)).wreg (1 + k) o := fun o _ => by rw [h]; rfl
  have hkept : ∀ o, o < 0x200 → ((tokenMade v sid k q (rqTail (u.spin sid) k q)).spin sid).wreg (1 + k) o = (v.spin sid).wreg (1 + k) o :=
    fun o ho => a.rest _ _ (by omega) (by omega) (by omega)
  have hoff : rqOff q + 0x14 < 0x200 := by unfold rqOff; omega
  refine ⟨fun i => ?_, ?_, ?_, ?_, ?_, ?_⟩
  · rw [a.vreg, h]
    rfl
  · rw [a.skew, h]
    rfl
  · have h6 : (v.spin sid).wreg 6 (0x100 + 0x80 * k + 0x10 * q) = (u.spin sid).wreg 6 (0x100 + 0x80 * k + 0x10 * q) := by
      rw [h]
      exact (Spindle.wreg_setW_other _ _ (by unfold rqOff; omega)).trans (Spindle.wreg_setW_other _ _ (by unfold rqOff; omega))
    rw [a.count, h6]
  · rw [hkept _ hoff, hreg _ hoff, Spindle.setWf, Spindle.wreg_setW_other _ _ (by omega), Spindle.setWf, Spindle.wreg_setW_same]
  · rw [hkept _ (by omega), hreg _ (by omega), Spindle.setWf, Spindle.wreg_setW_same, Spindle.setWf, Spindle.wreg_setW_other _ _ (by omega)]
  · rw [hkept _ (by omega), hreg _ (by omega), Spindle.setWf, Spindle.wreg_setW_other _ _ (by omega), Spindle.setWf,
      Spindle.wreg_setW_other _ _ (by omega)]

/-! ### Queue events (R208) -/

theorem onlyRegs_queueEvent (s : State) (sid ev tag : Nat) (cq : Bool) (reason src : Nat) : onlyRegs s (queueEvent s sid ev tag cq reason src) := by
  unfold queueEvent
  dsimp only
  split
  · exact onlyRegs.rfl
  · exact ((State.onlyRegs_setReg _ _ _).trans (State.onlyRegs_setReg _ _ _)).trans (State.onlyRegs_setReg _ _ _)

theorem reg_queueEvent_other (s : State) (sid ev tag : Nat) (cq : Bool) (reason src : Nat) {o : Nat} (h100 : o ≠ fcPage s sid + 0x100)
    (h104 : o ≠ fcPage s sid + 0x104) (h108 : o ≠ fcPage s sid + 0x108) : (queueEvent s sid ev tag cq reason src).reg o = s.reg o := by
  unfold queueEvent
  dsimp only
  split
  · rfl
  · rw [State.reg_setReg_other _ _ h108, State.reg_setReg_other _ _ h104, State.reg_setReg_other _ _ h100]

/-- The first queue event of a field is recorded. -/
theorem queueEvent_records {s : State} {sid : Nat} (h : s.bget (fcPage s sid + 0x100) 31 = false) (hsid : sid < 2 ^ 21) {ev tag reason src : Nat}
    (hev : ev < 8) (htag : tag < 2 ^ 16) (hreason : reason < 4) (hsrc : src < 2 ^ 21) (cq : Bool) :
    let t := queueEvent s sid ev tag cq reason src
    t.bget (fcPage s sid + 0x100) 31 = true ∧ t.fget (fcPage s sid + 0x100) 30 28 = ev ∧ t.fget (fcPage s sid + 0x100) 20 0 = sid ∧
      t.fget (fcPage s sid + 0x104) 31 16 = tag ∧ t.fget (fcPage s sid + 0x108) 20 0 = src := by
  have hcq : cq.toNat ≤ 1 := Bool.toNat_le _
  unfold queueEvent
  simp only [h, Bool.false_eq_true, if_false]
  unfold State.bget State.fget
  refine ⟨?_, ?_, ?_, ?_, ?_⟩
  · rw [State.reg_setReg_other _ _ (by omega), State.reg_setReg_other _ _ (by omega), State.reg_setReg_same, getB_ofNat _ (by decide),
      decide_eq_true_eq]
    omega
  · rw [State.reg_setReg_other _ _ (by omega), State.reg_setReg_other _ _ (by omega), State.reg_setReg_same, getF_ofNat _ (by decide)]
    omega
  · rw [State.reg_setReg_other _ _ (by omega), State.reg_setReg_other _ _ (by omega), State.reg_setReg_same, getF_ofNat _ (by decide)]
    omega
  · rw [State.reg_setReg_other _ _ (by omega), State.reg_setReg_same, getF_ofNat _ (by decide)]
    omega
  · rw [State.reg_setReg_same, getF_ofNat _ (by decide)]
    omega

/-- Later queue events of the field are not. -/
theorem queueEvent_later {s : State} {sid : Nat} (h : s.bget (fcPage s sid + 0x100) 31 = true) (ev tag : Nat) (cq : Bool) (reason src : Nat) :
    queueEvent s sid ev tag cq reason src = s := if_pos h

/-- An occurrence of event `ev` of a queue, and its record. -/
def queueRaised (s : State) (sid ev tag : Nat) (cq : Bool) (reason src : Nat) : State :=
  queueEvent (s.raise (fcPage s sid) ev) sid ev tag cq reason src

theorem fcPage_ge (s : State) (sid : Nat) : 0x1000000 ≤ fcPage s sid := by
  unfold fcPage pField fieldBase
  omega

/-- The page of a spindle's field depends on the offered shape. -/
theorem fcPage_congr {s t : State} (h : t.reg (pGlobal + 0x50) = s.reg (pGlobal + 0x50)) (sid : Nat) : fcPage t sid = fcPage s sid := by
  unfold fcPage State.fieldOf State.cols State.fget
  rw [h]

theorem fcPage_raise (s : State) (sid ev : Nat) : fcPage (s.raise (fcPage s sid) ev) sid = fcPage s sid := by
  have hge := fcPage_ge s sid
  have hshape : pGlobal + 0x50 < 0x1000000 := by decide
  exact fcPage_congr (State.reg_raise_other _ _ _ (by omega) (by omega)) sid

section
variable (s : State) (sid ev tag : Nat) (cq : Bool) (reason src : Nat)

theorem onlyRegs_queueRaised : onlyRegs s (queueRaised s sid ev tag cq reason src) :=
  (State.onlyRegs_raise _ _ _).trans (onlyRegs_queueEvent _ _ _ _ _ _ _)

theorem queueRaised_sheltered : Sheltered (· < 0x1000) s (queueRaised s sid ev tag cq reason src) :=
  (sheltered_raise _ (pField_aligned _) _).trans (queueEvent_sheltered _ _ _ _ _ _ _)

/-- A queue event writes registers of its field's page. -/
theorem reg_queueRaised_low {o : Nat} (ho : o < 0x1000000) : (queueRaised s sid ev tag cq reason src).reg o = s.reg o := by
  have hge := fcPage_ge s sid
  have hpage := fcPage_raise s sid ev
  rw [queueRaised, reg_queueEvent_other _ _ _ _ _ _ _ (by omega) (by omega) (by omega), State.reg_raise_other _ _ _ (by omega) (by omega)]

theorem fcPage_queueRaised : fcPage (queueRaised s sid ev tag cq reason src) sid = fcPage s sid :=
  fcPage_congr (reg_queueRaised_low _ _ _ _ _ _ _ (by decide)) sid

theorem live_queueRaised (j : Nat) : (queueRaised s sid ev tag cq reason src).live j = s.live j :=
  live_congr (reg_queueRaised_low s sid ev tag cq reason src (by decide)) (onlyRegs_queueRaised s sid ev tag cq reason src).run j

theorem bget_queueRaised (hev : ev < 32) : (queueRaised s sid ev tag cq reason src).bget (fcPage s sid + 0x18) ev = true :=
  (queueEvent_sheltered _ _ _ _ _ _ _).events _ _ (pField_aligned _).1 (State.bget_raise _ _ hev)

end

/-- The event sets its bit, and is recorded when it is the field's first. -/
theorem queueRaised_records {s : State} {sid : Nat} (h : s.bget (fcPage s sid + 0x100) 31 = false) (hsid : sid < 2 ^ 21) {ev tag reason src : Nat}
    (hev : ev < 8) (htag : tag < 2 ^ 16) (hreason : reason < 4) (hsrc : src < 2 ^ 21) (cq : Bool) :
    let t := queueRaised s sid ev tag cq reason src
    t.bget (fcPage s sid + 0x100) 31 = true ∧ t.fget (fcPage s sid + 0x100) 30 28 = ev ∧ t.fget (fcPage s sid + 0x100) 20 0 = sid ∧
      t.fget (fcPage s sid + 0x104) 31 16 = tag ∧ t.fget (fcPage s sid + 0x108) 20 0 = src := by
  have hfirst : (s.raise (fcPage s sid) ev).bget (fcPage (s.raise (fcPage s sid) ev) sid + 0x100) 31 = false := by
    rw [fcPage_raise, State.bget, State.reg_raise_other _ _ _ (by omega) (by omega)]
    exact h
  have hrec := queueEvent_records hfirst hsid hev htag hreason hsrc cq
  rw [fcPage_raise] at hrec
  exact hrec

/-- A later queue event of the field changes the page's events alone. -/
theorem reg_queueRaised_later {s : State} {sid : Nat} (h : s.bget (fcPage s sid + 0x100) 31 = true) (ev tag : Nat) (cq : Bool) (reason src : Nat) {o : Nat}
    (h18 : o ≠ fcPage s sid + 0x18) (h1C : o ≠ fcPage s sid + 0x1C) : (queueRaised s sid ev tag cq reason src).reg o = s.reg o := by
  have hvalid : (s.raise (fcPage s sid) ev).bget (fcPage (s.raise (fcPage s sid) ev) sid + 0x100) 31 = true := by
    rw [fcPage_raise, State.bget, State.reg_raise_other _ _ _ (by omega) (by omega)]
    exact h
  rw [queueRaised, queueEvent_later hvalid, State.reg_raise_other _ _ _ h18 h1C]

end Sys2Proof.Machine
end

