-- ==== Sys2Proof/Proofs/RingRecords.lean ====
section
/-! PROOF. Queue messages that the EP takes: records in a ring, contributions to a sum, and messages of another epoch. -/
namespace Sys2Proof.Machine

/-! ### What the EP decides (R189) -/

theorem judge_ring {p : Spindle} {m : Msg} (hloaded : p.loaded (tagPly m.tag) = true) (hload : p.load = none)
    (hepoch : p.epoch (tagPly m.tag) = tagEpoch m.tag) (hkind : m.kind = 0) (hopen : rqOpen p (tagPly m.tag) (tagQueue m.tag) = true)
    (hplace : ringPlace p (tagPly m.tag) (tagQueue m.tag) (m.len + 2) = .fits) : judge p m = .ring .fits := by
  unfold judge
  simp [hloaded, hload, hepoch, hkind, hopen, hplace]

theorem judge_sum {p : Spindle} {m : Msg} (hloaded : p.loaded (tagPly m.tag) = true) (hload : p.load = none)
    (hepoch : p.epoch (tagPly m.tag) = tagEpoch m.tag) (hkind : m.kind = 1) (hq : tagQueue m.tag < 4)
    (hopen : cqOpen p (tagPly m.tag) (tagQueue m.tag) = true) (hfree : cqReleased p (tagPly m.tag) (tagQueue m.tag) = false) :
    judge p m = .sum := by
  unfold judge
  simp [hloaded, hload, hepoch, hkind, hopen, hfree, hq]

theorem judge_otherEpoch {p : Spindle} {m : Msg} (hloaded : p.loaded (tagPly m.tag) = true)
    (hepoch : p.epoch (tagPly m.tag) ≠ tagEpoch m.tag) : judge p m = .stale 0 := by
  unfold judge
  simp [hloaded, hepoch]

/-- A decoder that finds nothing, and marks that do not count, leave the lines of a buffer. -/
theorem bufferLines_kept (s : State) (pg : Nat) {counts : Bool → Bool} (h : counts true = false) (ls : List Line) :
    bufferLines s pg counts ls [] = (ls, s) := by
  have hline : ∀ l, bufferLine s pg counts l .clean = (l, s) := fun l => by
    cases hbad : l.bad <;> simp [bufferLine, effCond, hbad, h]
  have hwalk : ∀ (il : List (Nat × Line)) (acc : List Line), il.foldl (fun (st : List Line × State) il =>
      let (l, s) := bufferLine st.2 pg counts il.2 (nth .clean [] il.1)
      (st.1 ++ [l], s)) (acc, s) = (acc ++ il.map (·.2), s) := fun il => by
    induction il with
    | nil => simp
    | cons x xs ih =>
      intro acc
      have hnone : nth Cond.clean [] x.1 = .clean := rfl
      rw [List.foldl_cons]
      simp only [hnone, hline]
      rw [ih]
      simp
  unfold bufferLines
  rw [hwalk, List.map_snd_zip (by simp), List.nil_append]

section
variable {s : State} {sid vc : Nat} {src : SID} {pre post : List Msg} {m : Msg} (conds : List Cond)
  (htake : takeAt s sid vc src (fun m => decide (m.kind ≤ 1) && !m.req && !m.isAck) = some (pre, m, post)) (hon : spOff s sid = false)
include htake hon

/-- The banks of the lines that the EP passes for a record. -/
def ringBanks (p : Spindle) (m : Msg) : List (BitVec 8) :=
  recordBanks (rqBase p (tagPly m.tag) (tagQueue m.tag)) (rqTail p (tagPly m.tag) (tagQueue m.tag)) .fits (m.payload.length + 1)

theorem epQueue_ring (hjudge : judge (s.spin sid) m = .ring .fits) (hsrc : m.src.toNat % 2048 ≠ 0x7FF) :
    epQueue s sid vc src [] =
      let u := messageTaken s pre m post true
      let k := tagPly m.tag
      let q := tagQueue m.tag
      (ringDeliver (u.setSpin sid (unspill (u.spin sid) k q)) sid k q .fits (m.len + 2) (recordLines m) m.cut (ringBanks (u.spin sid) m)).modSpin sid
        (fun p => p.arrive (ringBanks (u.spin sid) m).length m) := by
  unfold epQueue
  simp only [htake, hon, hjudge, bufferLines_kept, Bool.not_true, Bool.false_and, sendAck_spindle _ hsrc]
  rfl

theorem epQueue_sum (hjudge : judge (s.spin sid) m = .sum) (hcut : m.cut = false) (hsrc : m.src.toNat % 2048 ≠ 0x7FF) :
    epQueue s sid vc src [] = (cqDeliver (messageTaken s pre m post true) sid (tagPly m.tag) (tagQueue m.tag) m).modSpin sid
      (fun p => p.arrive (m.payload.length + 1) m) := by
  unfold epQueue
  simp only [htake, hon, hjudge, bufferLines_kept, Bool.not_true, Bool.false_and, sendAck_spindle _ hsrc, Bool.false_eq_true, if_false]
  exact if_neg (by rw [hcut]; decide)

theorem epQueue_stale {r : Nat} (hjudge : judge (s.spin sid) m = .stale r) :
    epQueue s sid vc src conds = stale (messageTaken s pre m post true) sid r m := by
  unfold epQueue
  simp only [htake, hon, hjudge, Bool.false_eq_true, if_false]
  rfl

end

/-! ### What is left alone (R87) -/

theorem onlyCounted.trans {s t u : State} {sid : Nat} (h : onlyCounted s t sid) (k : onlyCounted t u sid) : onlyCounted s u sid := fun j =>
  ⟨fun g o ho hg hj => ((k j).1 g o ho hg hj).trans ((h j).1 g o ho hg hj), fun r => ((k j).2 r).trans ((h j).2 r)⟩

/-- A step of a spindle that keeps its vector registers. -/
theorem SpindleStep.onlyCounted {R : Spindle → Spindle → Prop} {p : Nat → Prop} {sid : Nat} {s t : State} (h : SpindleStep R p sid s t)
    (hv : R (s.spin sid) (t.spin sid) → ∀ i, (t.spin sid).vreg i = (s.spin sid).vreg i) : Machine.onlyCounted s t sid := by
  obtain ⟨hspin, hother, -, -⟩ := h
  intro j
  refine ⟨fun g o _ _ hj => by rw [hother j hj], fun r => ?_⟩
  by_cases e : j = sid
  · rw [e]
    exact hv hspin r
  · rw [hother j e]

/-- The registers that tell of receive queue q of ply k stand in the ply's page. -/
theorem rq_congr {p r : Spindle} {k q : Nat} (hq : q < 8) (h : ∀ o, o < 0x200 → r.wreg (1 + k) o = p.wreg (1 + k) o) :
    rqBase r k q = rqBase p k q ∧ rqSize r k q = rqSize p k q ∧ rqHead r k q = rqHead p k q ∧ rqTail r k q = rqTail p k q ∧
      rqUsed r k q = rqUsed p k q ∧ spUsed r k q = spUsed p k q := by
  have hoff : rqOff q ≤ 0x1E0 := by unfold rqOff; omega
  simp only [rqBase, rqSize, rqHead, rqTail, rqUsed, spUsed, Spindle.wf_, h _ (show rqOff q + 4 < 0x200 by omega),
    h _ (show rqOff q + 0xC < 0x200 by omega), h _ (show rqOff q + 0x14 < 0x200 by omega), and_self]

theorem tagPly_lt (t : BitVec 16) : tagPly t < 4 := fld_lt _ _ _
theorem tagQueue_lt (t : BitVec 16) : tagQueue t < 8 := fld_lt _ _ _

/-- The EP's message left the registers of its spindle but for counters. -/
theorem wreg_messageTaken (s : State) (pre : List Msg) (m : Msg) (post : List Msg) (sid : Nat) :
    (∀ g o, o < 4096 → g ≠ 6 → ((messageTaken s pre m post true).spin sid).wreg g o = (s.spin sid).wreg g o) ∧
      ∀ o, o < 0x500 → ((messageTaken s pre m post true).spin sid).wreg 6 o = (s.spin sid).wreg 6 o := by
  obtain ⟨-, hspin⟩ := routed_messageTaken s pre m post true
  exact ⟨(hspin sid).2, fun o ho => wreg_countRoute _ _ _ _ ho⟩

/-! ### Records (R193 to R195) -/

theorem unspill_win (p : Spindle) (k q : Nat) : unspill p k q = { p with skew := (unspill p k q).skew } := by
  unfold unspill
  split <;> rfl

theorem rqRoom {p : Spindle} {k q n : Nat} (hn : 0 < n) (hsize : rqSize p k q ≤ 1024)
    (h : placeIn (rqSize p k q) (rqUsed p k q + SMap.get (fun _ => 0) p.freed (k * 8 + q)) (rqTail p k q) n = .fits) :
    rqUsed p k q + n ≤ 1024 ∧ 0 < rqSize p k q := by
  unfold placeIn at h
  dsimp only at h
  split at h
  · split at h
    · cases h
    · omega
  · split at h <;> cases h

/-- A place in a ring is one by R193, with no record spilled. -/
theorem placeIn_of_ringPlace {p : Spindle} {k q n : Nat} (h : ringPlace p k q n = .fits) :
    placeIn (rqSize p k q) (rqUsed p k q + SMap.get (fun _ => 0) p.freed (k * 8 + q)) (rqTail p k q) n = .fits := by
  unfold ringPlace at h
  split at h
  · cases h
  · exact h

theorem rqOpen_size {p : Spindle} {k q : Nat} (h : rqOpen p k q = true) : rqSize p k q ≤ 1024 := by
  unfold rqOpen dimsOk at h
  simp only [Bool.and_eq_true, decide_eq_true_eq] at h
  omega

theorem nth_recordLines (m : Msg) (j : Nat) : nth {} (recordLines m) (1 + j) = nth {} m.payload j := by
  rw [Nat.add_comm]
  rfl

/-- The record of a message with room before the ring's end (R193 to R195). -/
theorem ringMessage_does (s : State) (sid : Nat) (pre : List Msg) (m : Msg) (post : List Msg) (hopen : rqOpen (s.spin sid) (tagPly m.tag) (tagQueue m.tag) = true)
    (hplace : ringPlace (s.spin sid) (tagPly m.tag) (tagQueue m.tag) (m.len + 2) = .fits) (hlen : m.len < 8) (hpay : m.payload.length = m.len + 1)
    (hholes : (s.spin sid).holes = []) (banks : List (BitVec 8)) :
    let p := s.spin sid
    let k := tagPly m.tag
    let q := tagQueue m.tag
    let line := fun (u : State) (n : Nat) => readLine u (storeAddr sid n)
    let u := messageTaken s pre m post true
    let t := (ringDeliver (u.setSpin sid (unspill (u.spin sid) k q)) sid k q .fits (m.len + 2) (recordLines m) false banks).modSpin sid
      (fun p => p.arrive banks.length m)
    line t (rqBase p k q + rqTail p k q) = ⟨BitVec.ofNat 256 (headerLine m 1), false⟩ ∧
      (∀ j, j ≤ m.len → line t (rqBase p k q + rqTail p k q + 1 + j) = nth {} m.payload j) ∧
      (∀ a, (∀ j, j < m.len + 2 → a < storeAddr sid (rqBase p k q + rqTail p k q + j) ∨
        storeAddr sid (rqBase p k q + rqTail p k q + j) + 32 ≤ a) → readByte t a = readByte s a) ∧
      rqUsed (t.spin sid) k q = rqUsed p k q + m.len + 2 ∧ rqTail (t.spin sid) k q = (rqTail p k q + m.len + 2) % rqSize p k q ∧
      rqHead (t.spin sid) k q = rqHead p k q ∧
      (t.spin sid).wreg 6 (0x100 + 0x80 * k + 0x10 * q) = p.wreg 6 (0x100 + 0x80 * k + 0x10 * q) + 1#32 ∧
      t.mesh = pre ++ post ∧ onlyCounted s t sid := by
  intro p k q line u t
  have hk : k < 4 := tagPly_lt _
  have hq : q < 8 := tagQueue_lt _
  obtain ⟨hroom, hsize⟩ : rqUsed p k q + (m.len + 2) ≤ 1024 ∧ 0 < rqSize p k q := rqRoom (by omega) (rqOpen_size hopen) (placeIn_of_ringPlace hplace)
  have hlines : (recordLines m).length = m.len + 2 := by rw [recordLines, List.length_cons, hpay]
  -- the record of the spindle as the EP takes the message
  obtain ⟨hwreg, hwreg6⟩ := wreg_messageTaken s pre m post sid
  obtain ⟨-, hrouted⟩ := routed_messageTaken s pre m post true
  set x := unspill (u.spin sid) k q with hx
  have hxwreg : ∀ g o, x.wreg g o = (u.spin sid).wreg g o := fun g o => by rw [hx, unspill_win]; rfl
  have hxholes : x.holes = [] := by rw [hx, unspill_win]; exact (congrArg Spindle.holes (hrouted sid).1).trans hholes
  obtain ⟨hbase, hsize', hhead, htail, hused, -⟩ := rq_congr (p := p) (r := x) (k := k) hq
    (fun o ho => (hxwreg _ _).trans (hwreg _ _ (by omega) (by omega)))
  have hxspin : (u.setSpin sid x).spin sid = x := State.spin_setSpin_same _ _ _
  -- the record's lines and its place
  have hplaced := ringDeliver_fits (n := m.len + 2) hk hq (hxspin ▸ hxholes) (lines := recordLines m) banks
  rw [hxspin, hbase, htail, hlines] at hplaced
  set L := rqBase p k q + rqTail p k q with hL
  set w := linesWritten (u.setSpin sid x) sid L (m.len + 2) (nth {} (recordLines m)) with hw
  have hwspin : w.spin sid = x := (State.spin_congr (by rw [hw, linesWritten_frame]) sid).trans hxspin
  have hstep : SpindleStep (RecordPlaced k q (m.len + 2)) fieldReg sid w t :=
    hplaced.comp (SpindleStep.of_modSpin fieldReg sid _ (R := fun p r => r = p.arrive banks.length m) rfl) fun h e => by
      rw [e]
      exact h.arrive _ _
  have hread : ∀ j, j < m.len + 2 → readLine w (storeAddr sid (L + j)) = nth {} (recordLines m) j := fun j hj =>
    readLine_linesWritten _ sid L _ (by omega) hj
  have hbytes : ∀ a, (∀ j, j < m.len + 2 → a < storeAddr sid (L + j) ∨ storeAddr sid (L + j) + 32 ≤ a) → readByte w a = readByte s a :=
    fun a ha => (readByte_linesWritten _ sid L _ _ ha).trans (readByte_messageTaken ..)
  have hmesh : w.mesh = pre ++ post := (mesh_linesWritten ..).trans (mesh_messageTaken ..)
  have hspill : SpindleStep (fun p r => ∀ i, r.vreg i = p.vreg i) fieldReg sid u (u.setSpin sid x) :=
    .of_setSpin _ _ _ fun i => by rw [hx, unspill_win]; rfl
  have hcounted : onlyCounted s w sid :=
    (((routed_messageTaken ..).onlyCounted sid).trans (hspill.onlyCounted id)).trans ((routed_linesWritten ..).onlyCounted sid)
  clear_value t w
  obtain ⟨hrec, -, -, hframe⟩ := id hstep
  rw [hwspin] at hrec
  have hline : ∀ n, line t n = line w n := fun n => readLine_congr (by rw [hframe]) (by rw [hframe]) _
  refine ⟨(hline L).trans (hread 0 (by omega)), fun j hj => ?_, fun a ha => (readByte_congr (by rw [hframe]) a).trans (hbytes a ha), ?_, ?_, ?_, ?_, ?_,
    hcounted.trans (hstep.onlyCounted RecordPlaced.vreg)⟩
  · rw [hline, Nat.add_assoc]
    exact (hread (1 + j) (by omega)).trans (nth_recordLines m j)
  · rw [hrec.rqUsed_eq (by omega), hused, Nat.add_assoc]
  · rw [hrec.rqTail_eq (by omega), htail, hsize', Nat.add_assoc]
  · rw [hrec.rqHead_eq, hhead]
  · rw [hrec.count, hxwreg, hwreg6 _ (by omega)]
  · rw [hframe]
    exact hmesh

end Sys2Proof.Machine
end

