-- ==== Sys2Proof/Proofs/CombiningQueues.lean ====
section
/-! PROOF. Combining queues: the lanes of an accumulator, a contribution, and the release of a sum. -/
namespace Sys2Proof.Machine

/-! ### Lanes of an accumulator (R85) -/

/-- Word j of an accumulator's lane. -/
theorem wreg_setCqAcc_same (p : Spindle) (k q l : Nat) (v : BitVec 128) {j : Nat} (hj : j < 4) :
    (setCqAcc p k q l v).wreg (1 + k) (0x400 + 0x100 * q + 0x10 * l + 4 * j) = BitVec.ofNat 32 (v.toNat >>> (32 * j)) :=
  iter_establishes (fun j (x : Spindle) => x.wreg (1 + k) (0x400 + 0x100 * q + 0x10 * l + 4 * j) = BitVec.ofNat 32 (v.toNat >>> (32 * j))) _ 4
    (fun _ _ x => Spindle.wreg_setW_same _ _ _ _)
    (fun _ _ _ _ x hx => (Spindle.wreg_setW_other _ _ (by omega)).trans hx) p j hj

theorem wreg_setCqAcc_other (p : Spindle) {k q l g o : Nat} (v : BitVec 128)
    (h : ∀ j, j < 4 → g * 4096 + o ≠ (1 + k) * 4096 + (0x400 + 0x100 * q + 0x10 * l + 4 * j)) : (setCqAcc p k q l v).wreg g o = p.wreg g o :=
  iter_keeps (fun x : Spindle => x.wreg g o = p.wreg g o) 4 _ (fun j hj _ hx => (Spindle.wreg_setW_other _ _ (h j hj)).trans hx) p rfl

/-- A number of 128 bits is put together from its four words. -/
theorem fourWords {n : Nat} (h : n < 2 ^ 128) : 0 + (n % 2 ^ 32) <<< 0 + (n >>> 32 % 2 ^ 32) <<< 32 + (n >>> 64 % 2 ^ 32) <<< 64 +
    (n >>> 96 % 2 ^ 32) <<< 96 = n := by
  simp only [Nat.shiftRight_eq_div_pow, Nat.shiftLeft_eq]
  omega

/-- A lane reads what was stored in it. -/
theorem cqAcc_setCqAcc_same (p : Spindle) (k q l : Nat) (v : BitVec 128) : cqAcc (setCqAcc p k q l v) k q l = v := by
  have hword : ∀ j, j < 4 → ((setCqAcc p k q l v).wreg (1 + k) (0x400 + 0x100 * q + 0x10 * l + 4 * j)).toNat = v.toNat >>> (32 * j) % 2 ^ 32 :=
    fun j hj => by rw [wreg_setCqAcc_same _ _ _ _ _ hj, BitVec.toNat_ofNat]
  unfold cqAcc
  rw [show List.range 4 = [0, 1, 2, 3] from rfl]
  simp only [List.foldl_cons, List.foldl_nil, hword 0 (by decide), hword 1 (by decide), hword 2 (by decide), hword 3 (by decide)]
  exact (congrArg (BitVec.ofNat 128) (fourWords v.isLt)).trans (BitVec.ofNat_toNat _ _)

theorem cqAcc_setCqAcc_other (p : Spindle) {k q l l' : Nat} (v : BitVec 128) (h : l' ≠ l) : cqAcc (setCqAcc p k q l v) k q l' = cqAcc p k q l' :=
  cqAcc_congr fun _ _ => wreg_setCqAcc_other _ _ fun _ _ => by omega

/-- Each of the lanes below n with its contribution added. -/
def lanesAdded (k q : Nat) (add : List (BitVec 128)) (n : Nat) (p : Spindle) : Spindle :=
  iter n (fun l p => setCqAcc p k q l (cqAcc p k q l + nth 0#128 add l)) p

theorem lanesAdded_succ (k q : Nat) (add : List (BitVec 128)) (n : Nat) (p : Spindle) : lanesAdded k q add (n + 1) p =
    setCqAcc (lanesAdded k q add n p) k q n (cqAcc (lanesAdded k q add n p) k q n + nth 0#128 add n) := iter_succ _ _ _

theorem cqAcc_lanesAdded (k q : Nat) (add : List (BitVec 128)) (n : Nat) (p : Spindle) (l : Nat) :
    cqAcc (lanesAdded k q add n p) k q l = if l < n then cqAcc p k q l + nth 0#128 add l else cqAcc p k q l := by
  induction n with
  | zero => rfl
  | succ n ih =>
    rw [lanesAdded_succ]
    by_cases e : l = n
    · rw [e] at ih ⊢
      rw [cqAcc_setCqAcc_same, ih, if_neg (Nat.lt_irrefl n), if_pos (Nat.lt_succ_self n)]
    · rw [cqAcc_setCqAcc_other _ _ e, ih]
      exact if_congr (by omega) rfl rfl

/-- The lanes stand at +0x400 of the ply's page. -/
theorem wreg_lanesAdded (k q : Nat) (add : List (BitVec 128)) (n : Nat) (p : Spindle) {o : Nat} (ho : o < 0x400) :
    (lanesAdded k q add n p).wreg (1 + k) o = p.wreg (1 + k) o :=
  iter_inv (fun x : Spindle => x.wreg (1 + k) o = p.wreg (1 + k) o) n _
    (fun _ _ hx => (wreg_setCqAcc_other _ _ fun _ _ => by omega).trans hx) p rfl

theorem lanesAdded_win (k q : Nat) (add : List (BitVec 128)) (n : Nat) (p : Spindle) :
    lanesAdded k q add n p = { p with win := (lanesAdded k q add n p).win } :=
  iter_inv (fun x : Spindle => x = { p with win := x.win }) n _ (fun _ x h => onlyWin_trans h (setCqAcc_win x _ _ _ _)) p rfl

/-! ### A contribution (R198) -/

/-- The contributions of a message to combining queue q of ply k, with their flags. -/
def cqAdds (p : Spindle) (k q : Nat) (m : Msg) : List (BitVec 128) × Flags :=
  cqContribs (getF (p.wreg (1 + k) (cqOff q)) 21 17) (sext 8 (getF (p.wreg (1 + k) (cqOff q)) 7 0)) m.payload

/-- The contributions that combining queue q holds, with one more. -/
def cqCount (p : Spindle) (k q : Nat) : Nat := p.wf_ (1 + k) (cqOff q + 4) 31 16 + 1

/-- The record of a spindle with a message's contributions in the lanes, and their flags. -/
def cqSummed (p : Spindle) (k q : Nat) (m : Msg) : Spindle := (lanesAdded k q (cqAdds p k q m).1 16 p).addFlags k (cqAdds p k q m).2

/-- The contribution is counted; the EXPECTth begins a new count and releases the sum. -/
def cqCounted (p : Spindle) (k q : Nat) : Spindle :=
  let r := p.setWf (1 + k) (cqOff q + 4) 31 16 (if cqCount p k q = cqExpect p k q then 0 else cqCount p k q)
  if cqCount p k q = cqExpect p k q then r.setW (1 + k) (cqOff q + 8) (putB (r.wreg (1 + k) (cqOff q + 8)) 15 true) else r

/-- The record of a spindle whose EP has taken a contribution. -/
def cqTaken (p : Spindle) (k q : Nat) (m : Msg) : Spindle :=
  let r := (cqCounted (cqSummed p k q m) k q).epPass (noBanks (m.payload.length + 1))
  if cqCount (cqSummed p k q m) k q = cqExpect (cqSummed p k q m) k q then r.form (some r.ep.length) (.sum k q) else r

theorem wreg_cqSummed (p : Spindle) (k q : Nat) (m : Msg) {o : Nat} (ho : o < 0x400) (h48 : o ≠ 0x48) :
    (cqSummed p k q m).wreg (1 + k) o = p.wreg (1 + k) o := by
  rw [cqSummed, Spindle.addFlags, Spindle.wreg_setW_other _ _ (by omega), wreg_lanesAdded _ _ _ _ _ ho]

/-- The registers of a combining queue after a contribution. -/
theorem cqCounted_does (p : Spindle) (k q : Nat) :
    cqReleased (cqCounted p k q) k q = (cqReleased p k q || decide (cqCount p k q = cqExpect p k q)) ∧
      (cqCounted p k q).wf_ (1 + k) (cqOff q + 4) 31 16 = (if cqCount p k q = cqExpect p k q then 0 else cqCount p k q % 65536) ∧
      (∀ o, o ≠ cqOff q + 4 → o ≠ cqOff q + 8 → (cqCounted p k q).wreg (1 + k) o = p.wreg (1 + k) o) := by
  unfold cqCounted
  by_cases hfull : cqCount p k q = cqExpect p k q
  · simp only [if_pos hfull]
    refine ⟨?_, ?_, fun o h4 h8 => ?_⟩
    · rw [cqReleased, Spindle.wreg_setW_same, getB_putB_same _ _ (by decide), decide_eq_true hfull, Bool.or_true]
    · rw [Spindle.wf_, Spindle.wreg_setW_other _ _ (by omega)]
      exact Spindle.wf_setWf_same _ _ _ _ (by decide)
    · rw [Spindle.wreg_setW_other _ _ (by omega), Spindle.setWf, Spindle.wreg_setW_other _ _ (by omega)]
  · simp only [if_neg hfull]
    refine ⟨?_, Spindle.wf_setWf_same _ _ _ _ (by decide), fun o h4 _ => ?_⟩
    · rw [cqReleased, Spindle.setWf, Spindle.wreg_setW_other _ _ (by omega), decide_eq_false hfull, Bool.or_false]
      rfl
    · rw [Spindle.setWf, Spindle.wreg_setW_other _ _ (by omega)]

theorem cqTaken_same (p : Spindle) (k q : Nat) (m : Msg) (o : Nat) :
    (cqTaken p k q m).wreg (1 + k) o = (cqCounted (cqSummed p k q m) k q).wreg (1 + k) o := by
  unfold cqTaken
  dsimp only
  split <;> rfl

theorem vreg_cqCounted (p : Spindle) (k q i : Nat) : (cqCounted p k q).vreg i = p.vreg i := by
  unfold cqCounted
  dsimp only
  split <;> rfl

theorem vreg_cqTaken (p : Spindle) (k q : Nat) (m : Msg) (i : Nat) : (cqTaken p k q m).vreg i = p.vreg i := by
  have hcounted : (cqCounted (cqSummed p k q m) k q).vreg i = p.vreg i := by
    rw [vreg_cqCounted, cqSummed, lanesAdded_win]
    rfl
  unfold cqTaken
  dsimp only
  generalize cqCounted (cqSummed p k q m) k q = r at hcounted ⊢
  split <;> exact hcounted

/-- A contribution adds to each lane, and counts. -/
theorem cqTaken_does (p : Spindle) {k q : Nat} (hq : q < 4) (m : Msg) :
    (∀ l, l < 16 → cqAcc (cqTaken p k q m) k q l = cqAcc p k q l + nth 0#128 (cqAdds p k q m).1 l) ∧
      cqReleased (cqTaken p k q m) k q = (cqReleased p k q || decide (cqCount p k q = cqExpect p k q)) ∧
      (cqTaken p k q m).wf_ (1 + k) (cqOff q + 4) 31 16 = (if cqCount p k q = cqExpect p k q then 0 else cqCount p k q % 65536) := by
  have hsummed : ∀ o, o < 0x400 → o ≠ 0x48 → (cqSummed p k q m).wreg (1 + k) o = p.wreg (1 + k) o := fun _ => wreg_cqSummed p k q m
  have h4 := hsummed (cqOff q + 4) (by unfold cqOff; omega) (by unfold cqOff; omega)
  have h8 := hsummed (cqOff q + 8) (by unfold cqOff; omega) (by unfold cqOff; omega)
  have hcount : cqCount (cqSummed p k q m) k q = cqCount p k q := by rw [cqCount, Spindle.wf_, h4]; rfl
  have hexpect : cqExpect (cqSummed p k q m) k q = cqExpect p k q := by rw [cqExpect, Spindle.wf_, h4]; rfl
  have hreleased : cqReleased (cqSummed p k q m) k q = cqReleased p k q := by rw [cqReleased, h8]; rfl
  obtain ⟨hrel, hcnt, hrest⟩ := cqCounted_does (cqSummed p k q m) k q
  rw [hcount, hexpect] at hrel hcnt
  refine ⟨fun l hl => ?_, ?_, ?_⟩
  · have hlanes : cqAcc (cqTaken p k q m) k q l = cqAcc (lanesAdded k q (cqAdds p k q m).1 16 p) k q l := by
      refine cqAcc_congr fun j hj => ?_
      rw [cqTaken_same, hrest _ (by unfold cqOff; omega) (by unfold cqOff; omega), cqSummed, Spindle.addFlags,
        Spindle.wreg_setW_other _ _ (by omega)]
    rw [hlanes, cqAcc_lanesAdded, if_pos hl]
  · rw [← hreleased, ← hrel, cqReleased, cqTaken_same]
    rfl
  · rw [← hcnt, Spindle.wf_, cqTaken_same]
    rfl

/-- A contribution of lines that carry no mark: the spindle's record, the count of contributions, and the tap of a sum's token. -/
theorem cqDeliver_clean (s : State) (sid k q : Nat) {m : Msg} (hclean : ∀ l ∈ m.payload, l.bad = false) : ∃ (c : Bool) (due : Option Nat),
    cqDeliver s sid k q m =
      let u := wbump48 (s.setSpin sid (cqTaken (s.spin sid) k q m)) sid 6 (0x300 + 0x40 * k + 0x10 * q) 1
      if c = true then tapAdd u sid (getF ((s.spin sid).wreg (1 + k) (cqOff q)) 28 25) 1 due else u := by
  have hbad : ∀ n, (m.payload.take n).filter (·.bad) = [] := fun n =>
    List.filter_eq_nil_iff.2 fun l hl => by rw [hclean l (List.mem_of_mem_take hl)]; decide
  unfold cqDeliver cqTaken cqCounted cqSummed cqCount cqAdds lanesAdded
  simp only [hbad]
  exact ⟨_, _, rfl⟩

/-- The contributions of a message stand in combining queue q of ply k (R198). -/
structure ContributionMade (k q : Nat) (m : Msg) (p r : Spindle) : Prop where
  vreg : ∀ i, r.vreg i = p.vreg i
  lanes : ∀ l, l < 16 → cqAcc r k q l = cqAcc p k q l + nth 0#128 (cqAdds p k q m).1 l
  released : cqReleased r k q = (cqReleased p k q || decide (cqCount p k q = cqExpect p k q))
  count : r.wf_ (1 + k) (cqOff q + 4) 31 16 = (if cqCount p k q = cqExpect p k q then 0 else cqCount p k q % 65536)

/-- The lines that the EP passes for the message are none of the queue's registers. -/
theorem ContributionMade.arrive {k q : Nat} {m : Msg} {p r : Spindle} (h : ContributionMade k q m p r) (i : Nat) (m' : Msg) :
    ContributionMade k q m p (r.arrive i m') := ⟨h.vreg, h.lanes, h.released, h.count⟩

theorem cqDeliver_does (s : State) (sid : Nat) {k q : Nat} (hk : k < 4) (hq : q < 4) {m : Msg} (hclean : ∀ l ∈ m.payload, l.bad = false) :
    SpindleStep (ContributionMade k q m) fieldReg sid s (cqDeliver s sid k q m) := by
  obtain ⟨c, due, heq⟩ := cqDeliver_clean s sid k q hclean
  have htap : getF ((s.spin sid).wreg (1 + k) (cqOff q)) 28 25 < 16 := getF_lt _ _ _
  rw [heq]
  refine SpindleStep.comp (.of_setSpin (R := fun p r => r = cqTaken p k q m) _ _ _ rfl)
    (announce _ sid (lo := 0x300 + 0x40 * k + 0x10 * q) (by omega) c htap due) fun hset a => ?_
  rw [hset] at a
  obtain ⟨hacc, hrel, hcnt⟩ := cqTaken_does (s.spin sid) hq (k := k) m
  have hrest : ∀ o, o < 4096 → o < 0x240 ∨ 0x260 ≤ o → _ := fun o => a.rest (1 + k) o (by omega)
  refine ⟨fun i => (a.vreg i).trans (vreg_cqTaken _ _ _ _ _), fun l hl => ?_, ?_, ?_⟩
  · rw [← hacc l hl]
    exact cqAcc_congr fun j hj => hrest _ (by omega) (by omega)
  · rw [← hrel, cqReleased, hrest _ (by unfold cqOff; omega) (by unfold cqOff; omega)]
    rfl
  · rw [← hcnt, Spindle.wf_, hrest _ (by unfold cqOff; omega) (by unfold cqOff; omega)]
    rfl

/-- The registers that tell of combining queue q of ply k stand in the ply's page. -/
theorem cq_congr {p r : Spindle} {k q : Nat} (hq : q < 4) (h : ∀ o, o < 0x800 → r.wreg (1 + k) o = p.wreg (1 + k) o) (m : Msg) :
    cqAdds r k q m = cqAdds p k q m ∧ cqCount r k q = cqCount p k q ∧ cqExpect r k q = cqExpect p k q ∧ cqReleased r k q = cqReleased p k q ∧
      ∀ l, l < 16 → cqAcc r k q l = cqAcc p k q l := by
  have hoff : cqOff q ≤ 0x230 := by unfold cqOff; omega
  refine ⟨?_, ?_, ?_, ?_, fun l hl => cqAcc_congr fun j hj => h _ (by omega)⟩
  · rw [cqAdds, h _ (by omega)]
    rfl
  · rw [cqCount, Spindle.wf_, h _ (by omega)]
    rfl
  · rw [cqExpect, Spindle.wf_, h _ (by omega)]
    rfl
  · rw [cqReleased, h _ (by omega)]
    rfl

/-- A contribution to an open queue, of lines that carry no mark (R198). -/
theorem sumMessage_does (s : State) (sid : Nat) (pre : List Msg) {m : Msg} (post : List Msg) (hq : tagQueue m.tag < 4)
    (hfree : cqReleased (s.spin sid) (tagPly m.tag) (tagQueue m.tag) = false) (hclean : ∀ l ∈ m.payload, l.bad = false) :
    let p := s.spin sid
    let k := tagPly m.tag
    let q := tagQueue m.tag
    let cnt := p.wf_ (1 + k) (cqOff q + 4) 31 16
    let t := (cqDeliver (messageTaken s pre m post true) sid k q m).modSpin sid (fun p => p.arrive (m.payload.length + 1) m)
    (∀ l, l < 16 → cqAcc (t.spin sid) k q l = cqAcc p k q l + nth 0#128 (cqAdds p k q m).1 l) ∧
      cqReleased (t.spin sid) k q = decide (cnt + 1 = cqExpect p k q) ∧
      (t.spin sid).wf_ (1 + k) (cqOff q + 4) 31 16 = (if cnt + 1 = cqExpect p k q then 0 else (cnt + 1) % 65536) ∧
      (∀ a, readByte t a = readByte s a) ∧ t.mesh = pre ++ post ∧ onlyCounted s t sid := by
  intro p k q cnt t
  have hk : k < 4 := tagPly_lt _
  obtain ⟨hwreg, -⟩ := wreg_messageTaken s pre m post sid
  obtain ⟨hadds, hcount, hexpect, hrel, hacc⟩ := cq_congr (p := p) (k := k) hq (fun o ho => hwreg (1 + k) o (by omega) (by omega)) m
  have hstep : SpindleStep (ContributionMade k q m) fieldReg sid (messageTaken s pre m post true) t :=
    (cqDeliver_does (messageTaken s pre m post true) sid hk hq hclean).comp
      (.of_modSpin fieldReg sid _ (R := fun p r => r = p.arrive (m.payload.length + 1) m) rfl) fun h e => by
        rw [e]
        exact h.arrive _ _
  clear_value t
  obtain ⟨⟨-, hlanes, hreleased, hcnt⟩, -, -, hframe⟩ := id hstep
  rw [hcount, hexpect] at hreleased hcnt
  refine ⟨fun l hl => ?_, ?_, hcnt, fun a => ?_, ?_, ((routed_messageTaken ..).onlyCounted sid).trans (hstep.onlyCounted ContributionMade.vreg)⟩
  · rw [hlanes l hl, hadds, hacc l hl]
  · rw [hreleased, hrel, hfree, Bool.false_or]
    rfl
  · exact (readByte_congr (by rw [hframe]) a).trans (readByte_messageTaken ..)
  · rw [hframe]
    exact mesh_messageTaken ..

end Sys2Proof.Machine
end

