-- ==== Sys2Proof/Proofs/QueueMessages.lean ====
section
/-! PROOF. Messages of another epoch, and the statement about queue messages. -/
namespace Sys2Proof.Machine

/-! ### Messages of another epoch (R190, R208) -/

/-- A stale message counts in its queue's STALE_COUNT, and its lines pass the EP (R190). -/
def staleCounted (p : Spindle) (m : Msg) : Spindle :=
  let k := tagPly m.tag
  let o := rqOff (tagQueue m.tag) + 0x18
  let p := p.epPass (noBanks (m.payload.length + 1))
  let c := p.wf_ (1 + k) o 30 0 + 1
  let p := p.setWf (1 + k) o 30 0 c
  if 2 ^ 31 ≤ c then p.setW (1 + k) o (putB (p.wreg (1 + k) o) 31 true) else p

theorem vreg_staleCounted (p : Spindle) (m : Msg) (i : Nat) : (staleCounted p m).vreg i = p.vreg i := by
  unfold staleCounted
  dsimp only
  split <;> rfl

theorem staleCounted_counts {p : Spindle} {m : Msg}
    (h : p.wf_ (1 + tagPly m.tag) (rqOff (tagQueue m.tag) + 0x18) 30 0 < 2 ^ 31 - 1) :
    (staleCounted p m).wf_ (1 + tagPly m.tag) (rqOff (tagQueue m.tag) + 0x18) 30 0 =
      p.wf_ (1 + tagPly m.tag) (rqOff (tagQueue m.tag) + 0x18) 30 0 + 1 := by
  have hsame : ∀ o, (p.epPass (noBanks (m.payload.length + 1))).wf_ (1 + tagPly m.tag) o 30 0 = p.wf_ (1 + tagPly m.tag) o 30 0 := fun _ => rfl
  unfold staleCounted
  dsimp only
  rw [hsame, if_neg (by omega), Spindle.wf_setWf_same _ _ _ _ (by decide)]
  exact Nat.mod_eq_of_lt (by omega)

/-- A register that holds events of a spindle window. -/
def windowEvent (o : Nat) : Prop := ∃ f k, o = pWin f k + 0x18 ∨ o = pWin f k + 0x1C

theorem not_windowEvent_low {o : Nat} (h : o < 0x1000000) : ¬ windowEvent o := fun ⟨f, k, e⟩ => by
  unfold pWin fieldBase at e
  omega

theorem not_windowEvent_field {f o : Nat} (h : o < 0x1000) (h18 : o ≠ 0x18) (h1C : o ≠ 0x1C) : ¬ windowEvent (pField f + o) := fun ⟨g, k, e⟩ => by
  unfold pField pWin fieldBase at e
  omega

/-- The count of a message's route raises events of spindle windows at most. -/
theorem reg_messageTaken (s : State) (pre : List Msg) (m : Msg) (post : List Msg) (out : Bool) {o : Nat} (h : ¬ windowEvent o) :
    (messageTaken s pre m post out).reg o = s.reg o := by
  obtain ⟨hregs, -⟩ := routed_messageTaken s pre m post out
  exact hregs o fun e => e.elim id fun ⟨f, hf⟩ => h ⟨f, 6, hf⟩

theorem run_messageTaken (s : State) (pre : List Msg) (m : Msg) (post : List Msg) (out : Bool) : (messageTaken s pre m post out).run = s.run := by
  rw [messageTaken_frame]

/-- The state in which the stale message has been counted; a count that wraps raises its page's event. -/
theorem staleMark_idle {s : State} {sid : Nat} {m : Msg} (reason : Nat) (hkind : m.kind = 0) (hsrc : m.src.toNat % 2048 ≠ 0x7FF)
    (hlive : s.live sid = false) : ∃ u, SpindleStep (fun p r => r = staleCounted p m) windowEvent sid s u ∧
      stale s sid reason m = queueRaised u sid 0 m.tag.toNat false reason m.src.toNat := by
  set v := s.modSpin sid (fun p => staleCounted p m) with hv
  have hstep : SpindleStep (fun p r => r = staleCounted p m) windowEvent sid s v := .of_modSpin _ _ _ rfl
  set u := if getF ((v.spin sid).wreg (1 + tagPly m.tag) (rqOff (tagQueue m.tag) + 0x18)) 31 0 = 2 ^ 31 then
    v.raise (pWin (v.fieldOf sid) (1 + tagPly m.tag)) 31 else v with hu
  have hustep : SpindleStep (fun p r => r = staleCounted p m) windowEvent sid s u := by
    rw [hu]
    split
    · exact hstep.raiseIf ⟨_, _, .inl rfl⟩ ⟨_, _, .inr rfl⟩ true _
    · exact hstep
  have hulive : u.live sid = false :=
    (live_congr (hustep.regs _ (not_windowEvent_low (by decide))) (by rw [hustep.frame]) sid).trans hlive
  refine ⟨u, hustep, ?_⟩
  have hstale : stale s sid reason m =
      let t := queueRaised u sid 0 m.tag.toNat false reason m.src.toNat
      let t := if (t.live sid && t.bget (pRun + 0x40) 15) = true then
          (t.setReg (pRun + 0x40) (putB (t.reg (pRun + 0x40)) 14 true)).raise pRun 3 else t
      let t := sendAck t m (BitVec.ofNat 21 sid) true
      if (getB ((t.spin sid).wreg (1 + tagPly m.tag) (rqOff (tagQueue m.tag))) 30 && t.live sid) = true then
        runFault t ⟨4, some (t.fieldOf sid), some sid⟩ else t := by
    unfold stale staleMark queueRaised
    rw [hu, hv]
    unfold staleCounted
    simp only [hkind, State.modSpin_modSpin, Bool.false_eq_true, if_false, zero_ne_one, decide_false, Bool.not_false, Bool.true_or,
      Bool.true_and, decide_eq_true_eq]
    rfl
  rw [hstale]
  simp only [sendAck_spindle _ hsrc, live_queueRaised, hulive, Bool.false_and, Bool.and_false, Bool.false_eq_true, if_false]

/-- A message of another epoch, outside a running run: its count, its event and its record (R190, R208). -/
theorem staleMessage_does (s : State) (sid : SID) (pre : List Msg) {m : Msg} (post : List Msg) (hkind : m.kind = 0)
    (hsrc : m.src.toNat % 2048 ≠ 0x7FF) (hlive : s.live sid.toNat = false) :
    let p := s.spin sid.toNat
    let o := rqOff (tagQueue m.tag) + 0x18
    let pg := fcPage s sid.toNat
    let t := stale (messageTaken s pre m post true) sid.toNat 0 m
    t.bget (pg + 0x18) 0 = true ∧
      (p.wf_ (1 + tagPly m.tag) o 30 0 < 2 ^ 31 - 1 → (t.spin sid.toNat).wf_ (1 + tagPly m.tag) o 30 0 = p.wf_ (1 + tagPly m.tag) o 30 0 + 1) ∧
      (s.bget (pg + 0x100) 31 = false → t.fget (pg + 0x100) 20 0 = sid.toNat ∧ t.fget (pg + 0x104) 31 16 = m.tag.toNat ∧
        t.fget (pg + 0x108) 20 0 = m.src.toNat) ∧
      (∀ a, readByte t a = readByte s a) ∧ t.mesh = pre ++ post ∧ onlyCounted s t sid.toNat := by
  intro p o pg t
  have htaken := fun o => reg_messageTaken s pre m post true (o := o)
  have hlive' : (messageTaken s pre m post true).live sid.toNat = false :=
    (live_congr (htaken _ (not_windowEvent_low (by decide))) (run_messageTaken ..) _).trans hlive
  obtain ⟨u, hu, heq⟩ := staleMark_idle 0 hkind hsrc hlive'
  have ht : t = queueRaised u sid.toNat 0 m.tag.toNat false 0 m.src.toNat := heq
  clear_value t
  have hureg : ∀ o, ¬ windowEvent o → u.reg o = s.reg o := fun o ho => (hu.regs o ho).trans (htaken o ho)
  have hpage : fcPage u sid.toNat = pg := fcPage_congr (hureg _ (not_windowEvent_low (by decide))) _
  have hraised : onlyRegs u t := by
    rw [ht]
    exact onlyRegs_queueRaised _ _ _ _ _ _ _
  have hspin : ∀ j, t.spin j = u.spin j := State.spin_congr hraised.spindles
  have hcounted : onlyCounted s u sid.toNat :=
    ((routed_messageTaken ..).onlyCounted _).trans (hu.onlyCounted fun h i => by rw [h, vreg_staleCounted])
  obtain ⟨hwreg, -⟩ := wreg_messageTaken s pre m post sid.toNat
  have hwf : ((messageTaken s pre m post true).spin sid.toNat).wf_ (1 + tagPly m.tag) o 30 0 = p.wf_ (1 + tagPly m.tag) o 30 0 := by
    have hk := tagPly_lt m.tag
    have hq := tagQueue_lt m.tag
    rw [Spindle.wf_, hwreg _ _ (by unfold o rqOff; omega) (by omega), Spindle.wf_]
  refine ⟨?_, fun hlt => ?_, fun hfirst => ?_, fun a => ?_, ?_, fun j => ?_⟩
  · rw [ht, ← hpage]
    exact bget_queueRaised _ _ _ _ _ _ _ (by decide)
  · rw [hspin, hu.spin, staleCounted_counts (by rw [hwf]; exact hlt), hwf]
  · have hvalid : u.bget (fcPage u sid.toNat + 0x100) 31 = false := by
      have hreg : u.reg (pg + 0x100) = s.reg (pg + 0x100) := hureg _ (not_windowEvent_field (by decide) (by decide) (by decide))
      rw [hpage, State.bget, hreg]
      exact hfirst
    obtain ⟨-, -, hsid, htag, hsource⟩ := queueRaised_records hvalid sid.isLt (ev := 0) (by decide) m.tag.isLt (reason := 0) (by decide)
      m.src.isLt false
    rw [hpage, ← ht] at hsid htag hsource
    exact ⟨hsid, htag, hsource⟩
  · exact (readByte_congr (hraised.mem.trans (by rw [hu.frame])) a).trans (readByte_messageTaken ..)
  · rw [hraised.mesh, hu.frame]
    exact mesh_messageTaken ..
  · rw [hspin]
    exact hcounted j

/-! ### The statement -/

/-- Settles O34: the verdict of `judge` names the case, and `ringMessage_does`, `cqDeliver_does` and `staleMessage_does` say what it leaves. -/
theorem queueMessagesAreDelivered : Obligations.QueueMessagesAreDelivered := by
  intro s sid vc src pre m post htake hon hcut hsrc p k q line hloaded hload
  refine ⟨fun hepoch hkind hopen hplace hlen hpay hholes => ?ring, fun hepoch hkind hq hopen hfree hclean => ?sum,
    fun hepoch hkind hlive conds => ?stale⟩
  case ring =>
    refine ⟨_, congrArg Host.Outcome.next (epQueue_ring htake hon (judge_ring hloaded hload hepoch hkind hopen hplace) hsrc), ?_⟩
    dsimp only
    rw [hcut]
    exact ringMessage_does s sid.toNat pre m post hopen hplace hlen hpay hholes _
  case sum =>
    refine ⟨_, congrArg Host.Outcome.next (epQueue_sum htake hon (judge_sum hloaded hload hepoch hkind hq hopen hfree) hcut hsrc), ?_⟩
    exact sumMessage_does s sid.toNat pre post hq hfree hclean
  case stale =>
    exact ⟨_, congrArg Host.Outcome.next (epQueue_stale conds htake hon (judge_otherEpoch hloaded hepoch)),
      staleMessage_does s sid pre post hkind hsrc hlive⟩

end Sys2Proof.Machine
end

