-- ==== Sys2Proof/Proofs/Skew.lean ====
section
/-! PROOF. Skew: a watch that has run out, a suspected deadlock, and the copy of a spilled record into its ring. -/
namespace Sys2Proof.Machine

/-! ### The skew watch of a queue (R202, R203) -/

theorem skewOf_setSkew_same (p : Spindle) (key : Nat) (x : Skew) : (p.setSkew key x).skewOf key = x := SMap.get_set_same _ _ _ _

theorem skewOf_congr {p r : Spindle} (h : r.skew = p.skew) (key : Nat) : r.skewOf key = p.skewOf key := by
  rw [Spindle.skewOf, h]
  rfl

theorem Sheltered.skewOf {P : Nat → Prop} {s t : State} (h : Sheltered P s t) (n key : Nat) : (t.spin n).skewOf key = (s.spin n).skewOf key := by
  obtain ⟨b, hb⟩ := h.spin n
  rw [hb]
  rfl

/-- The tag by which a skew event names a queue. -/
def skewTag (p : Spindle) (k q : Nat) : Nat := k * 2 ^ 14 + p.epoch k * 2 ^ 10 + q * 2 ^ 7

theorem skewTag_lt (p : Spindle) {k q : Nat} (hk : k < 4) (hq : q < 8) : skewTag p k q < 2 ^ 16 := by
  have hepoch : p.epoch k < 16 := getF_lt _ _ _
  unfold skewTag
  omega

/-- The watch of a queue after STALL_SKEW. -/
def skewStalled (p : Spindle) (k q : Nat) (cq : Bool) : Skew :=
  let x := p.skewOf (skewKey k q cq)
  { x with raised := true, dead := if x.spilling then x.dead else 0, spilling := !cq && maySpill p k q }

/-- The state in which the watch of a queue holds `x`. -/
def skewSet (s : State) (sid k q : Nat) (cq : Bool) (x : Skew) : State := s.setSpin sid ((s.spin sid).setSkew (skewKey k q cq) x)

theorem skewOf_skewSet (s : State) (sid k q : Nat) (cq : Bool) (x : Skew) : ((skewSet s sid k q cq x).spin sid).skewOf (skewKey k q cq) = x := by
  rw [skewSet, State.spin_setSpin_same, skewOf_setSkew_same]

theorem wreg_skewSet (s : State) (sid k q : Nat) (cq : Bool) (x : Skew) (g o : Nat) :
    ((skewSet s sid k q cq x).spin sid).wreg g o = (s.spin sid).wreg g o := by
  rw [skewSet, State.spin_setSpin_same]
  rfl

theorem fcPage_skewSet (s : State) (sid k q : Nat) (cq : Bool) (x : Skew) : fcPage (skewSet s sid k q cq x) sid = fcPage s sid := fcPage_congr rfl sid

/-- A step from there that writes registers alone. -/
theorem skewSet_frame {s t : State} {sid k q : Nat} {cq : Bool} {x : Skew} (h : onlyRegs (skewSet s sid k q cq x) t) :
    t = { s with spindles := t.spindles, regs := t.regs } := by
  rw [h]
  rfl

/-- A queue in skew for longer than its watch stalls, and where it may, spills. -/
theorem stallSkew_stalls {s : State} {sid k q : Nat} {cq : Bool} (hraised : ((s.spin sid).skewOf (skewKey k q cq)).raised = false)
    (hlong : skewWatch (s.spin sid) k q cq < ((s.spin sid).skewOf (skewKey k q cq)).cyc) (hwatch : skewWatch (s.spin sid) k q cq ≠ 0) :
    stallSkew s sid k q cq =
      let v := queueRaised (skewSet s sid k q cq (skewStalled (s.spin sid) k q cq)) sid 1 (skewTag (s.spin sid) k q) cq 0 0
      if ((!cq && maySpill (s.spin sid) k q) && !((s.spin sid).skewOf (skewKey k q cq)).spilling) = true then
        queueRaised v sid 2 (skewTag (s.spin sid) k q) cq 0 0 else v := by
  unfold stallSkew
  extract_lets p key x tag spill s1 s2
  have hgo : ¬ (x.raised || decide (skewWatch p k q cq = 0) || !decide (skewWatch p k q cq + 1 ≤ x.cyc)) = true := by
    rw [show x.raised = false from hraised, decide_eq_false hwatch, decide_eq_true (show skewWatch p k q cq + 1 ≤ x.cyc from hlong)]
    decide
  exact if_neg hgo

/-- What a queue event leaves besides registers of its field's page, and what a second one leaves of the first's record. -/
theorem queueRaised_again {s : State} {sid : Nat} (ev tag : Nat) (cq c : Bool) (reason src : Nat) :
    let t := if c = true then queueRaised s sid ev tag cq reason src else s
    onlyRegs s t ∧ Sheltered (· < 0x1000) s t ∧
      (s.bget (fcPage s sid + 0x100) 31 = true → t.reg (fcPage s sid + 0x100) = s.reg (fcPage s sid + 0x100) ∧
        t.reg (fcPage s sid + 0x104) = s.reg (fcPage s sid + 0x104)) := by
  intro t
  cases c with
  | false => exact ⟨onlyRegs.rfl, .refl _ _, fun _ => ⟨rfl, rfl⟩⟩
  | true =>
    have ht : t = queueRaised s sid ev tag cq reason src := if_pos rfl
    rw [ht]
    exact ⟨onlyRegs_queueRaised _ _ _ _ _ _ _, queueRaised_sheltered _ _ _ _ _ _ _, fun h =>
      ⟨reg_queueRaised_later h _ _ _ _ _ (by omega) (by omega), reg_queueRaised_later h _ _ _ _ _ (by omega) (by omega)⟩⟩

theorem stallSkew_does (s : State) (sid : SID) {k q : Nat} (hk : k < 4) (hq : q < 8) {cq : Bool}
    (hraised : ((s.spin sid.toNat).skewOf (skewKey k q cq)).raised = false)
    (hlong : skewWatch (s.spin sid.toNat) k q cq < ((s.spin sid.toNat).skewOf (skewKey k q cq)).cyc)
    (hwatch : skewWatch (s.spin sid.toNat) k q cq ≠ 0) :
    let p := s.spin sid.toNat
    let pg := fcPage s sid.toNat
    let t := stallSkew s sid.toNat k q cq
    t.bget (pg + 0x18) 1 = true ∧
      (cq = false → maySpill p k q = true → (p.skewOf (skewKey k q cq)).spilling = false → t.bget (pg + 0x18) 2 = true) ∧
      (t.spin sid.toNat).skewOf (skewKey k q cq) = skewStalled p k q cq ∧
      (s.bget (pg + 0x100) 31 = false → t.fget (pg + 0x100) 30 28 = 1 ∧ t.fget (pg + 0x100) 20 0 = sid.toNat ∧
        t.fget (pg + 0x104) 31 16 = skewTag p k q) ∧
      (∀ g o, o < 4096 → (t.spin sid.toNat).wreg g o = p.wreg g o) ∧ (∀ j, j ≠ sid.toNat → t.spin j = s.spin j) ∧
      t = { s with spindles := t.spindles, regs := t.regs } := by
  intro p pg t
  have ht : t = _ := stallSkew_stalls hraised hlong hwatch
  set u := skewSet s sid.toNat k q cq (skewStalled p k q cq) with hu
  set v := queueRaised u sid.toNat 1 (skewTag p k q) cq 0 0 with hv
  have hupage : fcPage u sid.toNat = pg := fcPage_skewSet s _ _ _ _ _
  have hpage : fcPage v sid.toNat = pg := (fcPage_queueRaised u _ _ _ _ _ _).trans hupage
  have hevent : v.bget (pg + 0x18) 1 = true := hupage ▸ bget_queueRaised u _ _ _ _ _ _ (by decide)
  obtain ⟨hvt, hkept, hlater⟩ := queueRaised_again (s := v) (sid := sid.toNat) 2 (skewTag p k q) cq
    ((!cq && maySpill p k q) && !(p.skewOf (skewKey k q cq)).spilling) 0 0
  rw [← ht] at hvt hkept hlater
  rw [hpage] at hlater
  have hregs : onlyRegs u t := (onlyRegs_queueRaised u _ _ _ _ _ _).trans hvt
  have hspin : ∀ j, t.spin j = u.spin j := State.spin_congr hregs.spindles
  refine ⟨hkept.events _ _ (pField_aligned _).1 hevent, fun hcq hmay hspill => ?_, ?_, fun hfirst => ?_,
    fun g o _ => ?_, fun j hj => ?_, skewSet_frame hregs⟩
  · have hboth : ((!cq && maySpill p k q) && !(p.skewOf (skewKey k q cq)).spilling) = true := by
      rw [hmay, hspill, hcq]
      rfl
    have hsecond : t = queueRaised v sid.toNat 2 (skewTag p k q) cq 0 0 := ht.trans (if_pos hboth)
    rw [hsecond, ← hpage]
    exact bget_queueRaised v _ _ _ _ _ _ (by decide)
  · rw [hspin]
    exact skewOf_skewSet _ _ _ _ _ _
  · obtain ⟨hvalid, hev, hsid, htag, -⟩ := queueRaised_records (s := u) hfirst sid.isLt (ev := 1) (by decide) (skewTag_lt p hk hq)
      (reason := 0) (by decide) (src := 0) (by decide) cq
    obtain ⟨h100, h104⟩ := hlater hvalid
    rw [State.fget, State.fget, State.fget, h100, h104]
    exact ⟨hev, hsid, htag⟩
  · rw [hspin]
    exact wreg_skewSet _ _ _ _ _ _ _ _
  · rw [hspin]
    exact State.spin_setSpin_other _ _ hj

/-! ### A suspected deadlock (R205) -/

/-- The fault of a running run names the field and the spindle of its cause (R335). -/
theorem runFault_names {s : State} {c : Cause} {field sid : Nat} (hfield : c.field = some field) (hsid : c.sid = some sid)
    (hrun : s.running = true) (hfirst : s.bget (pRun + 0x60) 31 = false) :
    (runFault s c).fget (pRun + 0x60) 5 0 = field % 64 ∧ (runFault s c).fget (pRun + 0x64) 20 0 = sid % 2 ^ 21 := by
  have hst : s.runState = 3 ∨ s.runState = 4 := by simpa [State.running] using hrun
  obtain ⟨u, heq, -, hu⟩ := runFault_active (· < 0x1000) (fun _ h => h) c (by omega : s.runState ≠ 0) (by omega : s.runState ≠ 5)
  have hpRun : pRun = 0x2000 := rfl
  have hpMbox : pMbox 0 = 0x10000 := rfl
  have hreg : ∀ o, o < 0x1000 → (runFault s c).reg (pRun + o) = (faultShown s c).reg (pRun + o) := fun o ho => by
    rw [heq, (faultSpread_sheltered u c).regs _ (show pRun + o < 0x40000 by omega), hu hrun]
  unfold State.fget
  rw [hreg _ (by decide), hreg _ (by decide)]
  unfold faultShown
  extract_lets s1 s2 s3
  have h60 : s2.reg (pRun + 0x60) = s.reg (pRun + 0x60) := by
    rw [State.reg_bump48_other _ _ _ _ (by omega) (by omega) (by omega) (by omega), reg_addLog_other _ _ _ _ _ _ _ (by omega) (by omega) (by omega)]
  have h3 : s3 = recordFault s2 c := if_neg (by rw [State.bget, h60]; simpa [State.bget] using hfirst)
  have hshown : ∀ o, o = 0x60 ∨ o = 0x64 → ((setRunState s3 5).raise pRun 0).reg (pRun + o) = (recordFault s2 c).reg (pRun + o) := fun o ho => by
    rw [State.reg_raise_other _ _ _ (by omega) (by omega), reg_setRunState_other _ _ (by omega) (by omega) (by omega), h3]
  rw [hshown _ (.inl rfl), hshown _ (.inr rfl)]
  unfold recordFault
  dsimp only
  refine ⟨?_, ?_⟩
  · iterate 4 rw [State.reg_setReg_other _ _ (by omega)]
    rw [State.reg_setReg_same, getF_ofNat _ (by decide), hfield, Option.getD_some]
    omega
  · iterate 3 rw [State.reg_setReg_other _ _ (by omega)]
    rw [State.reg_setReg_same, getF_ofNat _ (by decide), hsid, Option.getD_some]
    omega

/-- A skew that has lasted up to the deadlock limit is suspected; in a running run it is a fault. -/
theorem deadlock_suspects {s : State} {sid k q : Nat} {cq : Bool}
    (hskew : ((s.spin sid).skewOf (skewKey k q cq)).raised = true ∨ ((s.spin sid).skewOf (skewKey k q cq)).spilling = true)
    (hnot : ((s.spin sid).skewOf (skewKey k q cq)).deadRaised = false)
    (hlimit : 2 ^ s.fget (pRun + 0x4C) 4 0 ≤ ((s.spin sid).skewOf (skewKey k q cq)).dead) :
    deadlock s sid k q cq =
      let v := queueRaised (skewSet s sid k q cq { (s.spin sid).skewOf (skewKey k q cq) with deadRaised := true }) sid 3
        (skewTag (s.spin sid) k q) cq 0 0
      if v.live sid = true then runFault v ⟨6, some (v.fieldOf sid), some sid⟩ else v := by
  unfold deadlock
  extract_lets p key x s1 s2
  have hgo : ¬ (!(x.raised || x.spilling) || x.deadRaised || !decide (2 ^ s.fget (pRun + 0x4C) 4 0 ≤ x.dead)) = true := by
    rw [show x.deadRaised = false from hnot, decide_eq_true (show 2 ^ s.fget (pRun + 0x4C) 4 0 ≤ x.dead from hlimit),
      show (x.raised || x.spilling) = true from Bool.or_eq_true_iff.2 hskew]
    decide
  exact if_neg hgo

theorem fieldOf_congr {s t : State} (h : t.reg (pGlobal + 0x50) = s.reg (pGlobal + 0x50)) (sid : Nat) : t.fieldOf sid = s.fieldOf sid := by
  unfold State.fieldOf State.cols State.fget
  rw [h]

theorem deadlock_does (s : State) (sid : SID) {k q : Nat} {cq : Bool}
    (hskew : ((s.spin sid.toNat).skewOf (skewKey k q cq)).raised = true ∨ ((s.spin sid.toNat).skewOf (skewKey k q cq)).spilling = true)
    (hnot : ((s.spin sid.toNat).skewOf (skewKey k q cq)).deadRaised = false)
    (hlimit : 2 ^ s.fget (pRun + 0x4C) 4 0 ≤ ((s.spin sid.toNat).skewOf (skewKey k q cq)).dead) :
    let t := deadlock s sid.toNat k q cq
    t.bget (fcPage s sid.toNat + 0x18) 3 = true ∧ ((t.spin sid.toNat).skewOf (skewKey k q cq)).deadRaised = true ∧
      (s.live sid.toNat = true → t.runState = 5 ∧ (s.bget (pRun + 0x60) 31 = false →
        t.fget (pRun + 0x60) 15 8 = 6 ∧ t.fget (pRun + 0x60) 5 0 = s.fieldOf sid.toNat % 64 ∧ t.fget (pRun + 0x64) 20 0 = sid.toNat)) ∧
      (s.live sid.toNat = false → t = { s with spindles := t.spindles, regs := t.regs }) := by
  intro t
  have ht : t = _ := deadlock_suspects hskew hnot hlimit
  clear_value t
  set u := skewSet s sid.toNat k q cq { (s.spin sid.toNat).skewOf (skewKey k q cq) with deadRaised := true } with hu
  set v := queueRaised u sid.toNat 3 (skewTag (s.spin sid.toNat) k q) cq 0 0 with hv
  have hlow : ∀ o, o < 0x1000000 → v.reg o = s.reg o := fun o ho => reg_queueRaised_low u _ _ _ _ _ _ ho
  have hregs : onlyRegs u v := onlyRegs_queueRaised u _ _ _ _ _ _
  have hevent : v.bget (fcPage s sid.toNat + 0x18) 3 = true := by
    rw [← fcPage_skewSet s sid.toNat k q cq]
    exact bget_queueRaised u _ _ _ _ _ _ (by decide)
  have hskewed : (v.spin sid.toNat).skewOf (skewKey k q cq) = { (s.spin sid.toNat).skewOf (skewKey k q cq) with deadRaised := true } := by
    rw [State.spin_congr hregs.spindles]
    exact skewOf_skewSet _ _ _ _ _ _
  have hlive : v.live sid.toNat = s.live sid.toNat := live_congr (hlow _ (by decide)) (hregs.run.trans rfl) _
  have hfield : v.fieldOf sid.toNat = s.fieldOf sid.toNat := fieldOf_congr (hlow _ (by decide)) _
  have hframe : v = { s with spindles := v.spindles, regs := v.regs } := skewSet_frame hregs
  clear_value v
  dsimp only at ht
  rw [hlive, hfield] at ht
  cases hrun : s.live sid.toNat with
  | false =>
    rw [hrun, if_neg Bool.false_ne_true] at ht
    rw [ht]
    exact ⟨hevent, by rw [hskewed], nofun, fun _ => hframe⟩
  | true =>
    rw [hrun, if_pos rfl] at ht
    have hrunning : v.running = true := live_running (hlive.trans hrun)
    have hkept := runFault_sheltered (· < 0x1000) (fun _ h => h) v ⟨6, some (s.fieldOf sid.toNat), some sid.toNat⟩
    obtain ⟨hstate, hcode⟩ := runFault_faults (c := ⟨6, some (s.fieldOf sid.toNat), some sid.toNat⟩) (show 6 < 256 by decide) hrunning
    rw [ht]
    refine ⟨hkept.events _ _ (pField_aligned _).1 hevent, ?_, fun _ => ⟨hstate, fun hfirst => ?_⟩, nofun⟩
    · rw [hkept.skewOf, hskewed]
    · have hfirst' : v.bget (pRun + 0x60) 31 = false := by
        rw [State.bget, hlow _ (by decide)]
        exact hfirst
      obtain ⟨hname, hsid⟩ := runFault_names (c := ⟨6, some (s.fieldOf sid.toNat), some sid.toNat⟩) rfl rfl hrunning hfirst'
      exact ⟨hcode hfirst', hname, hsid.trans (Nat.mod_eq_of_lt sid.isLt)⟩

/-! ### The copy of a spilled record (R204) -/

/-- Reads of n lines of a store that carry no mark return them and change nothing. -/
theorem storeReads_clean {s : State} {sid L n : Nat} (h : ∀ j, j < n → (readLine s (storeAddr sid (L + j))).bad = false) :
    (List.range n).foldl (fun st i => lineAdded sid [] st (i, L + i)) ([], s) = (tab n (fun i => readLine s (storeAddr sid (L + i))), s) := by
  have hmap := List.foldl_map (f := fun i => (i, L + i)) (g := lineAdded sid []) (l := List.range n) (init := ([], s))
  rw [← hmap, foldl_lineAdded_clean]
  · simp [tab]
  · intro iL hiL
    obtain ⟨j, hj, rfl⟩ := List.mem_map.1 hiL
    exact h j (List.mem_range.1 hj)

/-- The record of a spindle whose oldest spilled record, of n lines, has left the spill region for `h` as its new head. -/
def spillTaken (p : Spindle) (k q n h : Nat) : Spindle :=
  (p.setWf (1 + k) (rqOff q + 0x14) 26 16 (spUsed p k q - n)).setWf (1 + k) (rqOff q + 0x10) 10 0 h

/-- A queue keeps its registers when it spills no longer. -/
theorem wreg_unspill (p : Spindle) (k q g o : Nat) : (unspill p k q).wreg g o = p.wreg g o := by
  rw [unspill_win]
  rfl

theorem unspill_empty {p : Spindle} {k q : Nat} (h : spUsed p k q = 0) : ((unspill p k q).skewOf (skewKey k q false)).spilling = false := by
  rw [unspill, if_pos h, skewOf_setSkew_same]

/-- The spill region holds one record less. -/
theorem spillTaken_spill (p : Spindle) (k q n : Nat) {h : Nat} (hh : h < 2048) :
    spUsed (spillTaken p k q n h) k q = spUsed p k q - n ∧ spHead (spillTaken p k q n h) k q = h := by
  have hlt : spUsed p k q < 2048 := getF_lt _ _ _
  refine ⟨?_, ?_⟩
  · rw [spUsed, spillTaken, wf_setWf_ne _ _ _ _ _ _ (by omega), Spindle.wf_setWf_same _ _ _ _ (by decide)]
    exact Nat.mod_eq_of_lt (by omega)
  · rw [spHead, spillTaken, Spindle.wf_setWf_same _ _ _ _ (by decide)]
    exact Nat.mod_eq_of_lt hh

/-- The ring stands as before. -/
theorem spillTaken_ring (p : Spindle) (k q n h : Nat) : rqBase (spillTaken p k q n h) k q = rqBase p k q ∧
    rqTail (spillTaken p k q n h) k q = rqTail p k q ∧ rqUsed (spillTaken p k q n h) k q = rqUsed p k q := by
  unfold rqBase rqTail rqUsed spillTaken
  refine ⟨?_, ?_, ?_⟩
  · rw [wf_setWf_ne _ _ _ _ _ _ (by omega), wf_setWf_ne _ _ _ _ _ _ (by omega)]
  · rw [wf_setWf_ne _ _ _ _ _ _ (by omega), wf_setWf_ne _ _ _ _ _ _ (by omega)]
  · rw [wf_setWf_ne _ _ _ _ _ _ (by omega), Spindle.wf_, Spindle.setWf, Spindle.wreg_setW_same, getF_putF_apart _ _ (by decide) (by decide)]
    rfl

theorem maySpill_size {p : Spindle} {k q : Nat} (h : maySpill p k q = true) : 0 < spSize p k q := by
  unfold maySpill dimsOk at h
  simp only [Bool.and_eq_true, decide_eq_true_eq] at h
  omega

theorem nth_tab (n : Nat) (f : Nat → Line) {j : Nat} (hj : j < n) : nth {} (tab n f) j = f j := by
  simp [nth, tab, hj]

section
variable {s : State} {sid k q n h : Nat} {head : Nat → Nat}

/-- SPILL_COPY of a record with no skip record before or behind it, into a ring that has room before its end (R204). -/
theorem spillCopy_moves (hline : ∀ o, head o = (readLine s (storeAddr sid (spBase (s.spin sid) k q + o))).data.toNat)
    (hh : h = spHead (s.spin sid) k q) (hn : n = fld (head h) 26 24 + 2) (hmay : maySpill (s.spin sid) k q = true)
    (hused : n ≤ spUsed (s.spin sid) k q) (hon : spOff s sid = false) (hloaded : (s.spin sid).loaded k = true) (hrec : fld (head h) 31 29 ≠ 2)
    (hnext : spUsed (s.spin sid) k q ≠ n → fld (head ((h + n) % spSize (s.spin sid) k q)) 31 29 ≠ 2) (hholes : (s.spin sid).holes = [])
    (hplace : placeIn (rqSize (s.spin sid) k q) (rqUsed (s.spin sid) k q + SMap.get (fun _ => 0) (s.spin sid).freed (k * 8 + q))
      (rqTail (s.spin sid) k q) n = .fits)
    (hclean : ∀ j, j < n → (readLine s (storeAddr sid (spBase (s.spin sid) k q + h + j))).bad = false) : ∃ banks,
    spillCopy s sid k q [] = ringDeliver (s.setSpin sid (unspill (spillTaken (s.spin sid) k q n ((h + n) % spSize (s.spin sid) k q)) k q)) sid k q .fits n
      (tab n (fun i => readLine s (storeAddr sid (spBase (s.spin sid) k q + h + i)))) false banks := by
  have hsize : 1 ≤ spSize (s.spin sid) k q := maySpill_size hmay
  have hskip : ¬ ((spUsed (s.spin sid) k q - n != 0) && decide (fld (head ((h + n) % spSize (s.spin sid) k q)) 31 29 = 2)) = true := by
    rw [Bool.and_eq_true, bne_iff_ne, decide_eq_true_eq]
    exact fun e => hnext (by omega) e.2
  have hne : spUsed (s.spin sid) k q ≠ 0 := by omega
  have hreads := storeReads_clean hclean
  unfold lineAdded at hreads
  subst hn hh
  unfold spillCopy
  simp only [← hline, hmay, hne, hon, hloaded, if_neg hrec, hholes, hplace, hreads, max_eq_right hsize, if_true, if_neg hskip, Bool.not_true, Bool.or_self,
    State.modSpin, decide_false, Bool.false_eq_true, if_false, List.contains_nil, Nat.sub_zero]
  exact ⟨_, rfl⟩

end

/-- What SPILL_COPY leaves: the record's lines in the ring, both counts, the spill region's next head (R204). -/
theorem spillCopy_does (s : State) (sid : Nat) {k q : Nat} (hk : k < 4) (hq : q < 8) :
    let p := s.spin sid
    let h := spHead p k q
    let hd := (readLine s (storeAddr sid (spBase p k q + h))).data.toNat
    let n := fld hd 26 24 + 2
    let tl := rqBase p k q + rqTail p k q
    maySpill p k q = true → n ≤ spUsed p k q → spOff s sid = false → p.loaded k = true → fld hd 31 29 ≠ 2 →
    (spUsed p k q ≠ n → fld (readLine s (storeAddr sid (spBase p k q + (h + n) % spSize p k q))).data.toNat 31 29 ≠ 2) →
    p.holes = [] → placeIn (rqSize p k q) (rqUsed p k q + SMap.get (fun _ => 0) p.freed (k * 8 + q)) (rqTail p k q) n = .fits →
    rqSize p k q ≤ 1024 → (∀ j, j < n → (readLine s (storeAddr sid (spBase p k q + h + j))).bad = false) →
    let t := spillCopy s sid k q []
    (∀ j, j < n → readLine t (storeAddr sid (tl + j)) = readLine s (storeAddr sid (spBase p k q + h + j))) ∧
      rqUsed (t.spin sid) k q = rqUsed p k q + n ∧ spUsed (t.spin sid) k q = spUsed p k q - n ∧
      spHead (t.spin sid) k q = (h + n) % spSize p k q ∧
      (spUsed p k q = n → ((t.spin sid).skewOf (skewKey k q false)).spilling = false) ∧
      ∀ a, (∀ j, j < n → a < storeAddr sid (tl + j) ∨ storeAddr sid (tl + j) + 32 ≤ a) → readByte t a = readByte s a := by
  intro p h hd n tl hmay hused hon hloaded hrec hnext hholes hplace hsize hclean t
  have hn : n ≤ 9 := by
    have hlen : fld hd 26 24 < 8 := fld_lt _ _ _
    omega
  obtain ⟨hroom, -⟩ := rqRoom (by omega) hsize hplace
  have hhead : (h + n) % spSize p k q < 2048 :=
    (Nat.mod_lt _ (maySpill_size hmay)).trans (getF_lt _ _ _)
  obtain ⟨banks, ht⟩ : ∃ banks, t = _ := spillCopy_moves (head := fun o => (readLine s (storeAddr sid (spBase p k q + o))).data.toNat)
    (fun _ => rfl) rfl rfl hmay hused hon hloaded hrec hnext hholes hplace hclean
  -- the record of the spindle without the spilled record
  set taken := spillTaken p k q n ((h + n) % spSize p k q) with htaken
  set x := unspill taken k q with hx
  obtain ⟨hspUsed, hspHead⟩ := spillTaken_spill p k q n hhead
  obtain ⟨hrqBase, hrqTail, hrqUsed⟩ := spillTaken_ring p k q n ((h + n) % spSize p k q)
  rw [← htaken] at hspUsed hspHead hrqBase hrqTail hrqUsed
  obtain ⟨hbase, -, -, htail, hrused, hsused⟩ := rq_congr (p := taken) (r := x) (k := k) hq (fun o _ => wreg_unspill taken k q _ o)
  have hshead : spHead x k q = spHead taken k q := congrArg (getF · 10 0) (wreg_unspill taken k q (1 + k) (rqOff q + 0x10))
  have hxholes : x.holes = [] := by
    rw [hx, unspill_win]
    exact hholes
  have hxskew : spUsed p k q = n → (x.skewOf (skewKey k q false)).spilling = false := fun e =>
    unspill_empty (hspUsed.trans (by omega))
  have hxspin : (s.setSpin sid x).spin sid = x := State.spin_setSpin_same _ _ _
  -- its lines and its place in the ring
  have hplaced := ringDeliver_fits (n := n) hk hq (hxspin ▸ hxholes)
    (lines := tab n (fun i => readLine s (storeAddr sid (spBase p k q + h + i)))) banks
  rw [hxspin, hbase, hrqBase, htail, hrqTail, tab_length] at hplaced
  set w := linesWritten (s.setSpin sid x) sid tl n (nth {} (tab n (fun i => readLine s (storeAddr sid (spBase p k q + h + i))))) with hw
  have hstep : SpindleStep (RecordPlaced k q n) fieldReg sid w t := by
    rw [ht]
    exact hplaced
  have hwspin : w.spin sid = x := (State.spin_congr (by rw [hw, linesWritten_frame]) sid).trans hxspin
  have hread : ∀ j, j < n → readLine w (storeAddr sid (tl + j)) = readLine s (storeAddr sid (spBase p k q + h + j)) := fun j hj =>
    (readLine_linesWritten _ sid tl _ (by omega) hj).trans (nth_tab _ _ hj)
  have hbytes : ∀ a, (∀ j, j < n → a < storeAddr sid (tl + j) ∨ storeAddr sid (tl + j) + 32 ≤ a) → readByte w a = readByte s a :=
    fun a ha => readByte_linesWritten _ sid tl _ _ ha
  clear_value t w x
  obtain ⟨hrecord, -, -, hframe⟩ := id hstep
  rw [hwspin] at hrecord
  refine ⟨fun j hj => (readLine_congr (by rw [hframe]) (by rw [hframe]) _).trans (hread j hj), ?_, ?_, ?_, fun e => ?_,
    fun a ha => (readByte_congr (by rw [hframe]) a).trans (hbytes a ha)⟩
  · rw [hrecord.rqUsed_eq (by omega), hrused, hrqUsed]
  · rw [hrecord.spUsed_eq, hsused, hspUsed]
  · rw [hrecord.spHead_eq, hshead, hspHead]
  · rw [skewOf_congr hrecord.skew]
    exact hxskew e

/-- Settles O36: the watch of a queue's skew and its deadlock count raise their event, tag and all, and a record that leaves the spill region stands
in the ring, line by line. -/
theorem skewSpillsAndDeadlocks : Obligations.SkewSpillsAndDeadlocks := by
  intro s sid k q cq p x pg tag
  refine ⟨fun hraised hlong hwatch => ⟨_, rfl, stallSkew_does s sid k.isLt q.isLt hraised hlong hwatch⟩,
    fun hskew hnot hlimit => ⟨_, rfl, deadlock_does s sid hskew hnot hlimit⟩, ?_⟩
  intro h hd n tl hmay hused hon hloaded hrec hnext hholes hplace hsize hclean
  exact ⟨_, rfl, spillCopy_does s sid.toNat k.isLt q.isLt hmay hused hon hloaded hrec hnext hholes hplace hsize hclean⟩

end Sys2Proof.Machine
end

