-- ==== Sys2Proof/Proofs/LinkRules.lean ====
section
/-! PROOF. The links of the mesh: what one of them keeps while another changes, and what a field's page shows of them. -/
namespace Sys2Proof.Machine

/-! ### Registers of a field's page -/

/-- A register below the field blocks, or one of field page f that holds no event and whose offset `l` does not list. -/
def spared (f : Nat) (l : List Nat) (o : Nat) : Prop := o < 0x1000000 ∨ ∃ a, a < 0x1000 ∧ a ∉ 0x18 :: 0x1C :: l ∧ o = pField f + a

theorem spared_low (f : Nat) (l : List Nat) {o : Nat} (h : o < 0x1000000) : spared f l o := .inl h

theorem spared_field (f : Nat) {a : Nat} {l : List Nat} (ha : a < 0x1000) (h : a ∉ 0x18 :: 0x1C :: l) : spared f l (pField f + a) :=
  .inr ⟨a, ha, h, rfl⟩

theorem not_spared (f : Nat) {a : Nat} {l : List Nat} (h : a ∈ 0x18 :: 0x1C :: l) : ¬ spared f l (pField f + a) := by
  rintro (hlow | ⟨b, -, hb, e⟩)
  · have := pField_ge f
    omega
  · exact hb (Nat.add_left_cancel e ▸ h)

section
variable {s t : State} {f : Nat} {l l' : List Nat}

/-- A longer list spares less. -/
theorem spared_sub (hl : l ⊆ l') {o : Nat} (h : spared f l' o) : spared f l o :=
  h.imp id fun ⟨a, ha, hnot, e⟩ => ⟨a, ha, fun hm => hnot (List.cons_subset_cons _ (List.cons_subset_cons _ hl) hm), e⟩

theorem Sheltered.widen (h : Sheltered (spared f l) s t) (hl : l ⊆ l') : Sheltered (spared f l') s t := h.mono fun _ => spared_sub hl

theorem spared_setReg {a : Nat} (h : a ∈ l) (ha : a < 0x1000) (h18 : a ≠ 0x18) (v : Word) :
    Sheltered (spared f l) s (s.setReg (pField f + a) v) :=
  Sheltered.setReg (not_spared f (by simp [h])) (by unfold pField fieldBase; omega) v

theorem spared_raise (b : Nat) : Sheltered (spared f l) s (s.raise (pField f) b) :=
  Sheltered.raise (pField_aligned f).1 (not_spared f (by simp)) (not_spared f (by simp)) b

theorem spared_bump48 {a : Nat} (h : a ∈ l) (h4 : a + 4 ∈ l) (ha : 0x20 ≤ a) (hlt : a + 4 < 0x1000) (n : Nat) :
    Sheltered (spared f l) s (s.bump48 (pField f) (pField f + a) n) :=
  Sheltered.bump48 (pField_aligned f).1 (not_spared f (by simp)) (not_spared f (by simp)) (not_spared f (by simp [h]))
    (not_spared f (a := a + 4) (by simp [h4])) (by unfold pField fieldBase; omega) (by unfold pField fieldBase; omega) n

theorem spared_bump31 {a : Nat} (h : a ∈ l) (ha : 0x20 ≤ a) (hlt : a < 0x1000) (n : Nat) :
    Sheltered (spared f l) s (s.bump31 (pField f) (pField f + a) n) := by
  have hset : ∀ (u : State) (v : Word), Sheltered (spared f l) u (u.setReg (pField f + a) v) := fun _ v => spared_setReg h hlt (by omega) v
  unfold State.bump31
  dsimp only
  split
  · exact ((hset _ _).trans (hset _ _)).trans (spared_raise _)
  · exact hset _ _

end

/-- An event of a field's page that has occurred stays. -/
theorem Sheltered.fieldEvent {keep : Nat → Prop} {s t : State} (h : Sheltered keep s t) {f i : Nat} (hi : s.bget (pField f + 0x18) i = true) :
    t.bget (pField f + 0x18) i = true := h.events _ _ (pField_aligned f).1 hi

/-! ### What a link keeps -/

/-- Every link but that of key k is as before. -/
def otherLinks (s t : State) (k : Nat) : Prop := ∀ j, j ≠ k → t.link j = s.link j

theorem link_congr {s t : State} (h : t.links = s.links) (j : Nat) : t.link j = s.link j := by
  rw [State.link, h]
  rfl

theorem link_stored {s t : State} {k : Nat} {x : Link} (h : t.links = (s.setLink k x).links) : t.link k = x ∧ otherLinks s t k :=
  ⟨(link_congr h k).trans (State.link_setLink_same _ _ _), fun j hj => (link_congr h j).trans (State.link_setLink_other _ _ hj)⟩

/-- A step that writes registers after a link was stored. -/
theorem setLink_frame {s t : State} {k : Nat} {x : Link} (h : onlyRegs (s.setLink k x) t) : t = { s with links := t.links, regs := t.regs } := by
  rw [h]
  rfl

/-- A link's field is part of its name. -/
theorem ofKey_key {f loc detail : Nat} (hloc : loc < 32768) (hdetail : detail < 16) :
    LinkId.ofKey (LinkId.key ⟨f, loc, detail⟩) = ⟨f, loc, detail⟩ := by
  unfold LinkId.ofKey LinkId.key
  simp only [LinkId.mk.injEq]
  omega

/-! ### MESH_STATUS and LINK_EVT_LAST (R232) -/

/-- The links of field f that are down. -/
def linksDown (s : State) (f : Nat) : Nat := (s.links.filter (fun kl => decide ((LinkId.ofKey kl.1).field = f) && kl.2.down)).length

theorem onlyRegs_meshStatus (s : State) (f : Nat) : onlyRegs s (meshStatus s f) := State.onlyRegs_setReg _ _ _

theorem reg_meshStatus_other (s : State) (f : Nat) {o : Nat} (h : o ≠ pField f + 0x184) : (meshStatus s f).reg o = s.reg o :=
  State.reg_setReg_other _ _ h

theorem meshStatus_spared (s : State) {f : Nat} {l : List Nat} (h : 0x184 ∈ l) : Sheltered (spared f l) s (meshStatus s f) :=
  spared_setReg h (by decide) (by decide) _

/-- MESH_STATUS counts the links that are down, and shows whether a slot runs. -/
theorem meshStatus_shows (s : State) (f : Nat) : (meshStatus s f).fget (pField f + 0x184) 7 0 = min 255 (linksDown s f) ∧
    (meshStatus s f).bget (pField f + 0x184) 16 = calRunning s f := by
  have hrunning : calRunning s f = (s.links.filter (fun kl => decide ((LinkId.ofKey kl.1).field = f))).any (·.2.active) := by
    unfold calRunning
    rw [List.any_filter]
    simp only [Bool.and_comm]
  have hdown : linksDown s f = ((s.links.filter (fun kl => decide ((LinkId.ofKey kl.1).field = f))).filter (·.2.down)).length := by
    unfold linksDown
    rw [List.filter_filter]
    simp only [Bool.and_comm]
  unfold meshStatus State.fget State.bget
  extract_lets mine
  rw [State.reg_setReg_same, getF_ofNat _ (by decide), getB_ofNat _ (by decide), hrunning, hdown]
  have hwait : min 255 (s.fmap f).calWait.length ≤ 255 := min_le_left _ _
  have hle : min 255 (mine.filter (·.2.down)).length ≤ 255 := min_le_left _ _
  generalize min 255 (s.fmap f).calWait.length = w at hwait
  generalize min 255 (mine.filter (·.2.down)).length = n at hle
  constructor
  · omega
  · cases mine.any (·.2.active)
    · exact decide_eq_false (by rw [Bool.toNat_false]; omega)
    · exact decide_eq_true (by rw [Bool.toNat_true]; omega)

theorem onlyRegs_linkEvent (s : State) (l : LinkId) (ev : Nat) : onlyRegs s (linkEvent s l ev) := by
  unfold linkEvent
  dsimp only
  split
  · rfl
  · rfl

theorem reg_linkEvent_other (s : State) (l : LinkId) (ev : Nat) {o : Nat} (h : o ≠ pField l.field + 0x188) :
    (linkEvent s l ev).reg o = s.reg o := by
  unfold linkEvent
  dsimp only
  split
  · rfl
  · exact State.reg_setReg_other _ _ h

theorem linkEvent_spared (s : State) (lk : LinkId) (ev : Nat) {l : List Nat} (h : 0x188 ∈ l) :
    Sheltered (spared lk.field l) s (linkEvent s lk ev) := by
  unfold linkEvent
  dsimp only
  exact Sheltered.ite (.refl _ _) (spared_setReg h (by decide) (by decide) _)

/-- A logical spindle of the array has a SID of 21 bits (R17). -/
theorem spindleAt_lt {s : State} {f pr pc n : Nat} (hf : f < 64) (h : spindleAt s f pr pc = some n) : n < 2 ^ 21 := by
  unfold spindleAt at h
  split at h
  · rename_i r hr
    have hrow : r < 128 := List.mem_range.1 (List.mem_of_find?_eq_some hr)
    split at h
    · rename_i lx hlx
      have hcol : lx < s.cols := List.mem_range.1 (List.mem_of_find?_eq_some hlx)
      have hcols := cols_lt s
      have hmul : f % 8 * s.cols ≤ 7 * s.cols := Nat.mul_le_mul_right _ (by omega)
      split at h
      · cases h
      · cases h
        unfold sidAt
        omega
    · cases h
  · cases h

theorem farSpindle_lt {s : State} {l : LinkId} {n : Nat} (h : farSpindle s l = some n) : n < 2 ^ 21 := by
  unfold farSpindle at h
  dsimp only at h
  split at h
  · cases h
  · rename_i hin
    have hfield : (farEnd l).1 < 64 := by
      simp only [Bool.or_eq_true, decide_eq_true_eq, not_or] at hin
      omega
    split at h
    · obtain ⟨r, -, hr⟩ := Option.bind_eq_some_iff.1 h
      exact spindleAt_lt hfield hr
    · exact spindleAt_lt hfield h

/-- The port and SID that name a link fit below EVENT (R232). -/
theorem linkName_lt (s : State) {l : LinkId} (hf : l.field < 64) (hloc : l.loc < 32768) : (linkName s l).2 * 2 ^ 21 + (linkName s l).1 < 2 ^ 29 := by
  unfold linkName
  split
  · dsimp only
    omega
  · split
    · have := spindleAt_lt hf ‹_›
      dsimp only
      split <;> omega
    · have := farSpindle_lt ‹_›
      dsimp only
      split <;> omega
    · dsimp only
      split <;> omega

/-- LINK_EVT_LAST records an event while it holds none. -/
theorem linkEvent_first {s : State} {l : LinkId} (hf : l.field < 64) (hloc : l.loc < 32768) {ev : Nat} (hev : ev < 4)
    (h : s.bget (pField l.field + 0x188) 31 = false) : (linkEvent s l ev).bget (pField l.field + 0x188) 31 = true ∧
    (linkEvent s l ev).fget (pField l.field + 0x188) 30 29 = ev := by
  have hname := linkName_lt s hf hloc
  unfold linkEvent
  dsimp only
  rw [if_neg (by rw [h]; decide)]
  unfold State.bget State.fget
  rw [State.reg_setReg_same, getB_ofNat _ (by decide), getF_ofNat _ (by decide)]
  exact ⟨decide_eq_true (by omega), by omega⟩

end Sys2Proof.Machine
end

