-- ==== Sys2Proof/Proofs/LinkCodewords.lean ====
section
/-! PROOF. Corrected and refused codewords of a link, and its replays. -/
namespace Sys2Proof.Machine

/-! ### Corrected codewords (R226, R229) -/

/-- A direction of a link of field f after one more corrected codeword, with its request for a calibration once that is due. -/
def LinkDir.corrected (s : State) (f : Nat) (d : LinkDir) : LinkDir :=
  { d with corr := d.corr + 1, asked := d.asked || calDue s f { d with corr := d.corr + 1 } }

/-- A link with one direction replaced. -/
def Link.setDir (x : Link) (back : Bool) (d : LinkDir) : Link := if back then { x with bwd := d } else { x with fwd := d }

/-- Link `l` becomes `x`, and a corrected codeword counts in its field. -/
def corrCounted (s : State) (l : LinkId) (x : Link) : State :=
  ((s.setLink l.key x).bump48 (pField l.field) (pField l.field + 0x190) 1).errCorr (pField l.field)

/-- A link that has no request waiting joins the queue of its field. -/
def calRequested (s : State) (l : LinkId) : State :=
  meshStatus (s.setFmap l.field { s.fmap l.field with calWait := (s.fmap l.field).calWait ++ [l.key] }) l.field

theorem linkCorr_eq (s : State) (l : LinkId) (back : Bool) (d : LinkDir) : linkCorr s l back d =
    let u := corrCounted s l ((s.link l.key).setDir back (d.corrected s l.field))
    if calDue s l.field { d with corr := d.corr + 1 } && !(u.fmap l.field).calWait.contains l.key then calRequested u l else u := rfl

theorem corrCounted_does (s : State) (l : LinkId) (x : Link) :
    let u := corrCounted s l x
    onlyRegs (s.setLink l.key x) u ∧ u.bget (pField l.field + 0x18) 30 = true ∧
      u.reg (pField l.field + 0x190) = s.reg (pField l.field + 0x190) + 1#32 ∧ Sheltered (spared l.field [0x28, 0x190, 0x194]) s u := by
  refine ⟨(State.onlyRegs_bump48 _ _ _ _).trans (State.onlyRegs_errCorr _ _), State.bget_raise _ _ (by decide), ?_, ?_⟩
  · unfold corrCounted State.errCorr
    rw [State.reg_raise_other _ _ _ (by omega) (by omega), State.reg_bump31_other _ _ _ _ (by omega) (by omega) (by omega),
      State.reg_bump48_lo _ _ _ _ (by omega) (by omega), State.reg_setLink]
  · have hlink : Sheltered (spared l.field [0x28, 0x190, 0x194]) s (s.setLink l.key x) := .of_beside rfl rfl
    exact ((hlink.trans (spared_bump48 (by decide) (by decide) (by decide) (by decide) 1)).trans
      (spared_bump31 (by decide) (by decide) (by decide) 1)).trans (spared_raise _)

theorem calRequested_does (s : State) (l : LinkId) :
    let t := calRequested s l
    (t.fmap l.field).calWait = (s.fmap l.field).calWait ++ [l.key] ∧ t.reg (pField l.field + 0x190) = s.reg (pField l.field + 0x190) ∧
      Sheltered (spared l.field [0x184]) s t ∧ t = { s with maps := t.maps, regs := t.regs } := by
  refine ⟨?_, ?_, ?_, ?_⟩
  · unfold calRequested State.fmap
    rw [(onlyRegs_meshStatus _ _).maps]
    exact congrArg FieldMap.calWait (State.fmap_setFmap_same _ _ _)
  · exact reg_meshStatus_other _ _ (by omega)
  · have hqueue : Sheltered (spared l.field [0x184]) s
        (s.setFmap l.field { s.fmap l.field with calWait := (s.fmap l.field).calWait ++ [l.key] }) := .of_beside rfl rfl
    exact hqueue.trans (meshStatus_spared _ (by decide))
  · exact onlyRegs_meshStatus _ _

/-- A corrected codeword counts in its direction and its field, and asks for a calibration when that is due. -/
theorem linkCorr_does (s : State) (l : LinkId) (back : Bool) (d : LinkDir) :
    let due := calDue s l.field { d with corr := d.corr + 1 }
    let t := linkCorr s l back d
    t.link l.key = (s.link l.key).setDir back (d.corrected s l.field) ∧ otherLinks s t l.key ∧ t.bget (pField l.field + 0x18) 30 = true ∧
      t.reg (pField l.field + 0x190) = s.reg (pField l.field + 0x190) + 1#32 ∧
      (t.fmap l.field).calWait = (if due = true ∧ l.key ∉ (s.fmap l.field).calWait then (s.fmap l.field).calWait ++ [l.key]
        else (s.fmap l.field).calWait) ∧
      Sheltered (spared l.field [0x28, 0x184, 0x190, 0x194]) s t ∧ t = { s with links := t.links, maps := t.maps, regs := t.regs } := by
  intro due t
  obtain ⟨hregs, hevent, hcount, hsafe⟩ := corrCounted_does s l ((s.link l.key).setDir back (d.corrected s l.field))
  have ht : t = _ := linkCorr_eq s l back d
  clear_value t
  set u := corrCounted s l ((s.link l.key).setDir back (d.corrected s l.field)) with hu
  clear_value u
  obtain ⟨hwait, hkept, hasked, hframe⟩ := calRequested_does u l
  have hmap : u.fmap l.field = s.fmap l.field := by
    unfold State.fmap
    rw [hregs.maps]
    rfl
  have husafe : Sheltered (spared l.field [0x28, 0x184, 0x190, 0x194]) s u := hsafe.widen (by decide)
  obtain ⟨hlink, hothers⟩ := link_stored hregs.links
  dsimp only at ht
  rw [hmap] at ht hwait
  by_cases hq : due = true ∧ l.key ∉ (s.fmap l.field).calWait
  · rw [if_pos (by simpa using hq)] at ht
    have hlinks : t.links = u.links := by rw [ht, hframe]
    rw [if_pos hq]
    refine ⟨(link_congr hlinks _).trans hlink, fun j hj => (link_congr hlinks j).trans (hothers j hj), ?_, ?_, ?_, ?_, ?_⟩
    · rw [ht]
      exact hasked.fieldEvent hevent
    · rw [ht, hkept, hcount]
    · rw [ht, hwait]
    · rw [ht]
      exact husafe.trans (hasked.widen (by decide))
    · rw [ht, hframe, hregs]
      rfl
  · rw [if_neg (by simpa using hq)] at ht
    rw [ht, if_neg hq, hmap]
    refine ⟨hlink, hothers, hevent, hcount, rfl, husafe, ?_⟩
    rw [hregs]
    rfl

/-! ### What a receiver decodes (R226) -/

section
variable {s : State} {l : LinkId}

theorem linkReceive_active (h : (s.link l.key).active = true) (back : Bool) (c : Cond) : linkReceive s l back c = s := by
  unfold linkReceive
  dsimp only
  exact if_pos (by rw [h]; simp)

section
variable (hup : (s.link l.key).down = false) (hidle : (s.link l.key).active = false) (hgood : (s.link l.key).fwd.nak = false)
include hup hidle hgood

theorem linkReceive_corr : linkReceive s l false .corr = linkCorr s l false (s.link l.key).fwd := by
  unfold linkReceive
  dsimp only
  exact if_neg (by rw [hup, hidle]; simp [hgood])

theorem linkReceive_bad : linkReceive s l false .bad =
    s.setLink l.key { s.link l.key with fwd := { (s.link l.key).fwd with nak := true } } := by
  unfold linkReceive
  dsimp only
  exact if_neg (by rw [hup, hidle]; simp [hgood])

end

/-! ### Replays (R227) -/

/-- A replay of a link counts in its field and raises its event. -/
def replayNoted (s : State) (l : LinkId) : State :=
  linkEvent ((s.bump48 (pField l.field) (pField l.field + 0x198) 1).raise (pField l.field) 5) l 0

theorem onlyRegs_replayNoted (s : State) (l : LinkId) : onlyRegs s (replayNoted s l) :=
  ((State.onlyRegs_bump48 _ _ _ _).trans (State.onlyRegs_raise _ _ _)).trans (onlyRegs_linkEvent _ _ _)

theorem replayNoted_spared (s : State) (l : LinkId) : Sheltered (spared l.field [0x188, 0x198, 0x19C]) s (replayNoted s l) :=
  ((spared_bump48 (by decide) (by decide) (by decide) (by decide) 1).trans (spared_raise _)).trans (linkEvent_spared _ _ _ (by decide))

/-- REPLAY of field f occurred, and its count went up by one from `s` to `t`. -/
def replayed (s t : State) (f : Nat) : Prop :=
  t.bget (pField f + 0x18) 5 = true ∧ t.reg (pField f + 0x198) = s.reg (pField f + 0x198) + 1#32

theorem replayNoted_replayed (s : State) (l : LinkId) : replayed s (replayNoted s l) l.field := by
  constructor
  · refine (linkEvent_spared (l := [0x188]) _ l 0 (by decide)).fieldEvent ?_
    exact State.bget_raise _ _ (by decide)
  · unfold replayNoted
    rw [reg_linkEvent_other _ _ _ (by omega), State.reg_raise_other _ _ _ (by omega) (by omega),
      State.reg_bump48_lo _ _ _ _ (by omega) (by omega)]

/-- A step that spares the count of replays keeps a replay noted. -/
theorem replayed.after {s t u : State} {f : Nat} (h : replayed s t f)
    (hevent : ∀ i, t.bget (pField f + 0x18) i = true → u.bget (pField f + 0x18) i = true)
    (hreg : u.reg (pField f + 0x198) = t.reg (pField f + 0x198)) : replayed s u f := ⟨hevent 5 h.1, hreg.trans h.2⟩

/-- LINK_EVT_LAST names the first event, here a replay. -/
theorem replayNoted_first (hf : l.field < 64) (hloc : l.loc < 32768) (h : s.bget (pField l.field + 0x188) 31 = false) :
    (replayNoted s l).bget (pField l.field + 0x188) 31 = true ∧ (replayNoted s l).fget (pField l.field + 0x188) 30 29 = 0 := by
  refine linkEvent_first hf hloc (by decide) ?_
  rw [State.bget, State.reg_raise_other _ _ _ (by omega) (by omega), State.reg_bump48_other _ _ _ _ (by omega) (by omega) (by omega) (by omega)]
  exact h

section
variable (hup : (s.link l.key).down = false) (hnak : (s.link l.key).bwd.nak = true) (past : List Nat) (part : Option (Nat × Nat))
include hup hnak

theorem linkReplay_clean : linkReplay s l true .clean past part =
    (replayNoted s l).setLink l.key { s.link l.key with bwd := { (s.link l.key).bwd with nak := false, fails := 0 } } := by
  unfold linkReplay
  dsimp only
  exact if_neg (by rw [hup]; simp [hnak])

theorem linkReplay_corr : linkReplay s l true .corr past part =
    linkCorr (replayNoted s l) l true { (s.link l.key).bwd with nak := false, fails := 0 } := by
  unfold linkReplay
  dsimp only
  exact if_neg (by rw [hup]; simp [hnak])

theorem linkReplay_bad : linkReplay s l true .bad past part =
    let u := (replayNoted s l).setLink l.key { s.link l.key with bwd := { (s.link l.key).bwd with fails := (s.link l.key).bwd.fails + 1 } }
    if 4 ≤ (s.link l.key).bwd.fails + 1 then linkDown u l past part else u := by
  unfold linkReplay
  dsimp only
  exact if_neg (by rw [hup]; simp [hnak])

end
end

end Sys2Proof.Machine
end

