-- ==== Sys2Proof/Proofs/LinkFalls.lean ====
section
/-! PROOF. A link that goes down: what its field shows, and the messages that it cuts. -/
namespace Sys2Proof.Machine

/-! ### Routes under one shift map (R216 to R218, R225) -/

section
variable {s t : State} (hshape : t.reg (pGlobal + 0x50) = s.reg (pGlobal + 0x50)) (hmaps : t.maps = s.maps)

include hshape in
theorem cols_congr : t.cols = s.cols := by
  unfold State.cols State.fget
  rw [hshape]

include hmaps

theorem fmap_congr : t.fmap = s.fmap := by
  funext f
  unfold State.fmap
  rw [hmaps]

theorem physOf_congr : physOf t = physOf s := by
  funext f lx r
  unfold physOf
  rw [fmap_congr hmaps]

theorem logRow_congr : logRow t = logRow s := by
  funext f pr
  unfold logRow
  rw [physOf_congr hmaps]

include hshape

theorem gatewayHost_congr : gatewayHost t = gatewayHost s := by
  funext f g
  unfold gatewayHost spindleAt
  rw [logRow_congr hmaps, cols_congr hshape, physOf_congr hmaps, fmap_congr hmaps]

theorem gatewayFor_congr : gatewayFor t = gatewayFor s := by
  have hup : gatewayUp t = gatewayUp s := by
    funext f g
    unfold gatewayUp
    rw [gatewayHost_congr hshape hmaps, fmap_congr hmaps]
  funext f src
  unfold gatewayFor
  rw [hup]

theorem routeEnds_congr : routeEnds t = routeEnds s := by
  have hedge : edgeRouter t = edgeRouter s := by
    funext a b ns x y
    unfold edgeRouter State.rows State.fget
    rw [cols_congr hshape, hshape]
  have hport : portRouter t = portRouter s := by
    funext d x y
    unfold portRouter
    rw [gatewayHost_congr hshape hmaps, gatewayFor_congr hshape hmaps, hedge]
  funext m
  unfold routeEnds
  rw [hport, gatewayFor_congr hshape hmaps, gatewayHost_congr hshape hmaps]

theorem linkCut_congr : linkCut t = linkCut s := by
  have hbelow : physBelow t = physBelow s := by
    funext f lx r
    unfold physBelow
    rw [physOf_congr hmaps]
  have hsecond : secondCrossing t = secondCrossing s := by
    funext f lx
    unfold secondCrossing secondCrossings
    rw [physOf_congr hmaps, cols_congr hshape]
  have hvcs : colVcs t = colVcs s := by
    funext f lx r
    unfold colVcs
    rw [hsecond]
  funext l
  unfold linkCut
  rw [logRow_congr hmaps, physOf_congr hmaps, cols_congr hshape, fmap_congr hmaps, hbelow, hsecond, hvcs]

theorem crosses_congr : crosses t = crosses s := by
  funext m a b c
  unfold crosses gateInto
  rw [gatewayFor_congr hshape hmaps]

end

/-! ### Lines lost on a link (R228) -/

theorem running_congr {s t : State} (h : t.reg (pRun + 0x40) = s.reg (pRun + 0x40)) : t.running = s.running := by
  unfold State.running State.runState State.fget
  rw [h]

/-- What the loss of lines in field f changes outside a running run: the count of uncorrectable errors, events, and the counts of routers. -/
structure LinesLost (f : Nat) (s t : State) : Prop where
  regs : ∀ o, spared f [0x2C] o → t.reg o = s.reg o
  events : ∀ i, s.bget (pField f + 0x18) i = true → t.bget (pField f + 0x18) i = true
  frame : t = { s with regs := t.regs, spindles := t.spindles }

namespace LinesLost
variable {f : Nat} {s t u : State}

theorem refl (f : Nat) (s : State) : LinesLost f s s := ⟨fun _ _ => rfl, fun _ h => h, rfl⟩

theorem trans (h : LinesLost f s t) (k : LinesLost f t u) : LinesLost f s u :=
  ⟨fun o ho => (k.regs o ho).trans (h.regs o ho), fun i hi => k.events i (h.events i hi), by rw [k.frame, h.frame]⟩

theorem of_sheltered (h : Sheltered (spared f [0x2C]) s t) (hregs : onlyRegs s t) : LinesLost f s t :=
  ⟨h.regs, fun _ hi => h.fieldEvent hi, by rw [hregs]⟩

theorem running (h : LinesLost f s t) : t.running = s.running := running_congr (h.regs _ (spared_low _ _ (by decide)))

end LinesLost

/-- Headers that are counted raise events of router pages alone. -/
theorem countBefore_lost (s : State) (f : Nat) (m : Msg) (n : Nat) : LinesLost f s (countBefore s m n) ∧
    (countBefore s m n).fget (pField f + 0x2C) 30 0 = s.fget (pField f + 0x2C) 30 0 := by
  obtain ⟨⟨hregs, -⟩, hframe, -⟩ := countHops_routed s ((routeHops (routeEnds s m).1 (routeEnds s m).2).take (n - 1)) fun h hm => by
    have := routeHops_port (List.mem_of_mem_take hm)
    omega
  have hreg : ∀ o, ¬ (∃ g, o = pWin g 6 + 0x18 ∨ o = pWin g 6 + 0x1C) → (countBefore s m n).reg o = s.reg o :=
    fun o ho => hregs o fun h => h.elim id ho
  have hfield : ∀ a, a < 0x1000 → (countBefore s m n).reg (pField f + a) = s.reg (pField f + a) := fun a ha => hreg _ fun ⟨g, e⟩ => by
    unfold pField pWin fieldBase at e
    omega
  refine ⟨⟨fun o ho => ?_, fun i hi => ?_, hframe⟩, ?_⟩
  · obtain hlow | ⟨a, ha, -, rfl⟩ := ho
    · exact hreg _ fun ⟨g, e⟩ => not_windowEvent_low hlow ⟨g, 6, e⟩
    · exact hfield a ha
  · rw [State.bget, hfield _ (by decide)]
    exact hi
  · rw [State.fget, hfield _ (by decide)]
    rfl

/-- Lines that are discarded count as uncorrectable errors of the field. -/
theorem discardLines_lost {s : State} (hrun : s.running = false) (f : Nat) (m : Msg) (n : Nat) : LinesLost f s (discardLines s f m n) ∧
    (s.fget (pField f + 0x2C) 30 0 + n < 2 ^ 31 →
      (discardLines s f m n).fget (pField f + 0x2C) 30 0 = s.fget (pField f + 0x2C) 30 0 + n) ∧
    (n ≠ 0 → (discardLines s f m n).bget (pField f + 0x18) 29 = true) := by
  set u := (s.bump31 (pField f) (pField f + 0x2C) n).raiseIf (decide (n ≠ 0)) (pField f) 29 with hu
  have hlost : LinesLost f s u := by
    refine .of_sheltered ((spared_bump31 (a := 0x2C) (by decide) (by decide) (by decide) n).trans ?_)
      ((State.onlyRegs_bump31 _ _ _ _).trans (State.onlyRegs_raiseIf _ _ _ _))
    exact Sheltered.raiseIf (pField_aligned f).1 (not_spared f (by simp)) (not_spared f (by simp)) _ _
  have heq : discardLines s f m n = u := if_neg (by rw [← hu, hlost.running, hrun]; simp)
  rw [heq]
  refine ⟨hlost, fun hlt => ?_, fun hn => ?_⟩
  · rw [hu, State.fget, State.reg_raiseIf_other _ _ _ _ (by omega) (by omega), State.bump31, if_neg (by omega), State.reg_setReg_same,
      getF_putF_same _ _ (by decide)]
    exact Nat.mod_eq_of_lt hlt
  · rw [hu, decide_eq_true hn]
    exact State.bget_raise _ _ (by decide)

/-! ### The fall of a link (R228, R232) -/

/-- A link that has gone down, before the messages on it are lost. -/
def linkFallen (s : State) (l : LinkId) : State :=
  let u := s.setLink l.key { s.link l.key with down := true, active := false, fwd := {}, bwd := {} }
  linkEvent ((meshStatus u l.field).raise (pField l.field) 4) l 1

section
variable (s : State) (l : LinkId)

theorem onlyRegs_linkFallen : onlyRegs (s.setLink l.key { s.link l.key with down := true, active := false, fwd := {}, bwd := {} }) (linkFallen s l) :=
  ((onlyRegs_meshStatus _ _).trans (State.onlyRegs_raise _ _ _)).trans (onlyRegs_linkEvent _ _ _)

theorem linkFallen_spared : Sheltered (spared l.field [0x184, 0x188]) s (linkFallen s l) := by
  have hlink : Sheltered (spared l.field [0x184, 0x188]) s
      (s.setLink l.key { s.link l.key with down := true, active := false, fwd := {}, bwd := {} }) := .of_beside rfl rfl
  exact ((hlink.trans (meshStatus_spared _ (by decide))).trans (spared_raise _)).trans (linkEvent_spared _ _ _ (by decide))

theorem linkFallen_does : ((linkFallen s l).link l.key).down = true ∧ otherLinks s (linkFallen s l) l.key ∧
    (linkFallen s l).bget (pField l.field + 0x18) 4 = true ∧
    (linkFallen s l).fget (pField l.field + 0x184) 7 0 = min 255 (linksDown (linkFallen s l) l.field) := by
  have hregs := onlyRegs_linkFallen s l
  obtain ⟨hlink, hothers⟩ := link_stored hregs.links
  refine ⟨by rw [hlink], hothers, ?_, ?_⟩
  · refine (linkEvent_spared (l := [0x188]) _ l 1 (by decide)).fieldEvent ?_
    exact State.bget_raise _ _ (by decide)
  · have hdown : linksDown (linkFallen s l) l.field =
        linksDown (s.setLink l.key { s.link l.key with down := true, active := false, fwd := {}, bwd := {} }) l.field := by
      unfold linksDown
      rw [hregs.links]
    unfold linkFallen at hdown ⊢
    rw [hdown, State.fget, reg_linkEvent_other _ _ _ (by omega), State.reg_raise_other _ _ _ (by omega) (by omega)]
    exact (meshStatus_shows _ _).1

end

/-- The messages of `u` meet link `l`, which has gone down: those part-way on it are cut short, and the others on its routes are lost, but for
those that have passed. -/
def messagesCut (u : State) (l : LinkId) (past : List Nat) (partly : Option (Nat × Nat)) : State :=
  let idx := (List.range u.mesh.length).zip u.mesh
  let part := fun (im : Nat × Msg) => (partly.map (·.1)) = some im.1
  let lines := fun (im : Nat × Msg) => if part im then min im.2.payload.length ((partly.map (·.2)).getD 0) else im.2.payload.length + 1
  let hit := fun (im : Nat × Msg) =>
    !past.contains im.1 && !im.2.waiting && (crosses u im.2 (routeEnds u im.2).1 (routeEnds u im.2).2 (linkCut u l) || part im)
  let stays := fun (im : Nat × Msg) => if part im then some (if lines im = 0 then im.2 else cutShort im.2 (lines im)) else none
  let count := fun (s : State) (im : Nat × Msg) => if part im then s else
    countBefore s im.2 ((crossAt im.2 (routeEnds s im.2).1 (routeEnds s im.2).2 (gateInto s im.2) (linkCut u l)).getD 0)
  forEach (idx.filter hit) (fun im s => discardLines (count s im) l.field im.2 (lines im))
    { u with mesh := idx.filterMap (fun im => if hit im then stays im else some im.2) }

theorem linkDown_up {s : State} {l : LinkId} (hup : (s.link l.key).down = false) (past : List Nat) (part : Option (Nat × Nat)) :
    linkDown s l past part = messagesCut (linkFallen s l) l past part := if_neg (by rw [hup]; decide)

theorem messagesCut_empty {u : State} (h : u.mesh = []) (l : LinkId) (past : List Nat) (part : Option (Nat × Nat)) :
    messagesCut u l past part = u := by
  unfold messagesCut
  extract_lets idx part' lines hit stays count
  have hidx : idx = [] := by
    unfold idx
    rw [h]
    rfl
  rw [hidx, List.filterMap_nil, ← h]
  rfl

/-- Outside a running run cut messages lose lines, and no link changes. -/
theorem messagesCut_lost {u : State} (hrun : u.running = false) (l : LinkId) (past : List Nat) (part : Option (Nat × Nat)) :
    let t := messagesCut u l past part
    t.links = u.links ∧ (∀ i, u.bget (pField l.field + 0x18) i = true → t.bget (pField l.field + 0x18) i = true) ∧
      ∀ o, spared l.field [0x2C] o → t.reg o = u.reg o := by
  suffices h : ∃ ms, LinesLost l.field { u with mesh := ms } (messagesCut u l past part) by
    obtain ⟨ms, hregs, hevents, hframe⟩ := h
    exact ⟨by rw [hframe], hevents, hregs⟩
  unfold messagesCut
  extract_lets idx part' lines hit stays count
  have hcount : ∀ (w : State) (im : Nat × Msg), LinesLost l.field w (count w im) := fun w im => by
    unfold count
    split
    · exact .refl _ _
    · exact (countBefore_lost _ _ _ _).1
  refine ⟨_, forEach_inv (LinesLost l.field _) _ (fun im w hw => ?_) _ _ (.refl _ _)⟩
  have hto := hw.trans (hcount w im)
  exact hto.trans (discardLines_lost (hto.running.trans hrun) _ _ _).1

/-- The one message of the mesh, on the route of a link that goes down: it has passed, or all its lines are lost. -/
theorem messagesCut_one {u : State} (hrun : u.running = false) {l : LinkId} {m : Msg} (hmesh : u.mesh = [m]) (hwaiting : m.waiting = false)
    (hcross : crosses u m (routeEnds u m).1 (routeEnds u m).2 (linkCut u l) = true) (past : List Nat) :
    let t := messagesCut u l past none
    t.mesh = (if 0 ∈ past then [m] else []) ∧
      (0 ∉ past → u.fget (pField l.field + 0x2C) 30 0 + m.payload.length + 1 < 2 ^ 31 →
        t.fget (pField l.field + 0x2C) 30 0 = u.fget (pField l.field + 0x2C) 30 0 + m.payload.length + 1 ∧
        t.bget (pField l.field + 0x18) 29 = true) := by
  unfold messagesCut
  extract_lets idx part lines hit stays count t
  have hidx : idx = [(0, m)] := by
    unfold idx
    rw [hmesh]
    rfl
  have hpart : ¬ part (0, m) := nofun
  have hhit : hit (0, m) = !past.contains 0 := by
    unfold hit
    dsimp only
    rw [hwaiting, hcross]
    simp
  by_cases hp : 0 ∈ past
  · have ht : t = { u with mesh := [m] } := by
      unfold t
      rw [hidx]
      simp [forEach, hhit, hp]
    rw [ht, if_pos hp]
    exact ⟨rfl, fun h => absurd hp h⟩
  · obtain ⟨n, ht⟩ : ∃ n, t = discardLines (countBefore { u with mesh := [] } m n) l.field m (m.payload.length + 1) := by
      refine ⟨(crossAt m (routeEnds u m).1 (routeEnds u m).2 (gateInto u m) (linkCut u l)).getD 0, ?_⟩
      have hcut : t = discardLines (count { u with mesh := [] } (0, m)) l.field m (lines (0, m)) := by
        unfold t
        rw [hidx]
        simp [forEach, hhit, hp, stays, hpart]
      rw [hcut, show lines (0, m) = m.payload.length + 1 from if_neg hpart]
      exact congrArg (discardLines · l.field m (m.payload.length + 1)) (if_neg hpart)
    obtain ⟨hcounted, herr⟩ := countBefore_lost { u with mesh := [] } l.field m n
    obtain ⟨hlost, hcount, hevent⟩ := discardLines_lost (hcounted.running.trans hrun) l.field m (m.payload.length + 1)
    rw [← ht, herr] at hcount
    rw [← ht] at hlost hevent
    rw [if_neg hp]
    refine ⟨?_, fun _ hlt => ⟨hcount hlt, hevent (by omega)⟩⟩
    rw [hlost.frame, hcounted.frame]

section
variable {s : State} {l : LinkId} (hup : (s.link l.key).down = false) (hrun : s.running = false)
include hup

/-- Without messages a link goes down alone. -/
theorem linkDown_empty (hmesh : s.mesh = []) (past : List Nat) (part : Option (Nat × Nat)) : linkDown s l past part = linkFallen s l :=
  (linkDown_up hup past part).trans (messagesCut_empty ((onlyRegs_linkFallen s l).mesh.trans hmesh) _ _ _)

include hrun

/-- A link that goes down shows it in its field, and changes nothing there but MESH_STATUS, LINK_EVT_LAST, events and the count of errors. -/
theorem linkDown_does (past : List Nat) (part : Option (Nat × Nat)) :
    let t := linkDown s l past part
    (t.link l.key).down = true ∧ otherLinks s t l.key ∧ t.bget (pField l.field + 0x18) 4 = true ∧
      t.fget (pField l.field + 0x184) 7 0 = min 255 (linksDown t l.field) ∧
      (s.mesh = [] → t = { s with links := t.links, regs := t.regs }) ∧
      (∀ i, s.bget (pField l.field + 0x18) i = true → t.bget (pField l.field + 0x18) i = true) ∧
      ∀ o, spared l.field [0x2C, 0x184, 0x188] o → t.reg o = s.reg o := by
  intro t
  have hfallen := linkFallen_spared s l
  have hempty : s.mesh = [] → t = { s with links := t.links, regs := t.regs } := fun h => by
    rw [show t = linkFallen s l from linkDown_empty hup h past part]
    exact setLink_frame (onlyRegs_linkFallen s l)
  have ht : t = messagesCut (linkFallen s l) l past part := linkDown_up hup past part
  have hidle : (linkFallen s l).running = false := (running_congr (hfallen.regs _ (spared_low _ _ (by decide)))).trans hrun
  obtain ⟨hlinks, hevents, hregs⟩ := messagesCut_lost hidle l past part
  rw [← ht] at hlinks hevents hregs
  clear_value t
  obtain ⟨hlink, hothers, hevent, hcount⟩ := linkFallen_does s l
  refine ⟨?_, fun j hj => (link_congr hlinks j).trans (hothers j hj), hevents 4 hevent, ?_, hempty,
    fun i hi => hevents i (hfallen.fieldEvent hi), fun o ho => ?_⟩
  · rw [link_congr hlinks, hlink]
  · rw [State.fget, hregs _ (spared_field _ (by decide) (by decide)), linksDown, hlinks]
    exact hcount
  · exact (hregs o (spared_sub (by decide) ho)).trans (hfallen.regs o (spared_sub (by decide) ho))

/-- A message on the route of a link that goes down. -/
theorem linkDown_message {m : Msg} (hmesh : s.mesh = [m]) (hwaiting : m.waiting = false)
    (hcross : crosses s m (routeEnds s m).1 (routeEnds s m).2 (linkCut s l) = true) (past : List Nat) :
    let t := linkDown s l past none
    t.mesh = (if 0 ∈ past then [m] else []) ∧
      (0 ∉ past → s.fget (pField l.field + 0x2C) 30 0 + m.payload.length + 1 < 2 ^ 31 →
        t.fget (pField l.field + 0x2C) 30 0 = s.fget (pField l.field + 0x2C) 30 0 + m.payload.length + 1 ∧
        t.bget (pField l.field + 0x18) 29 = true) := by
  have hregs := onlyRegs_linkFallen s l
  have hfallen := linkFallen_spared s l
  have hshape : (linkFallen s l).reg (pGlobal + 0x50) = s.reg (pGlobal + 0x50) := hfallen.regs _ (spared_low _ _ (by decide))
  have hcross' : crosses (linkFallen s l) m (routeEnds (linkFallen s l) m).1 (routeEnds (linkFallen s l) m).2
      (linkCut (linkFallen s l) l) = true := by
    rw [crosses_congr hshape hregs.maps, routeEnds_congr hshape hregs.maps, linkCut_congr hshape hregs.maps]
    exact hcross
  have herr : (linkFallen s l).fget (pField l.field + 0x2C) 30 0 = s.fget (pField l.field + 0x2C) 30 0 := by
    rw [State.fget, hfallen.regs _ (spared_field _ (by decide) (by decide))]
    rfl
  rw [linkDown_up hup, ← herr]
  exact messagesCut_one ((running_congr (hfallen.regs _ (spared_low _ _ (by decide)))).trans hrun) (hregs.mesh.trans hmesh) hwaiting hcross' past

end

end Sys2Proof.Machine
end

