-- ==== Sys2Proof/Proofs/MeshLinks.lean ====
section
/-! PROOF. Calibration slots, the grants of a router output, and the statement about the links of the mesh. -/
namespace Sys2Proof.Machine

/-! ### Calibration slots (R222, R229) -/

/-- A table holds what differs from its default. -/
theorem mem_of_get_ne {α : Type} {d : Nat → α} {m : SMap α} {k : Nat} (h : SMap.get d m k ≠ d k) : (k, SMap.get d m k) ∈ m := by
  induction m with
  | nil => exact absurd rfl h
  | cons e m ih =>
    rw [SMap.get_cons] at h ⊢
    by_cases he : e.1 = k
    · rw [if_pos he, ← he]
      exact .head _
    · rw [if_neg he] at h ⊢
      exact .tail _ (ih h)

theorem calRunning_congr {s t : State} (h : t.links = s.links) (f : Nat) : calRunning t f = calRunning s f := by
  unfold calRunning
  rw [h]

/-- A link in its slot is one of its field's. -/
theorem calRunning_of_active {s : State} {f k : Nat} (hk : (LinkId.ofKey k).field = f) (h : (s.link k).active = true) : calRunning s f = true := by
  have hne : s.link k ≠ {} := fun e => Bool.false_ne_true (by rw [e] at h; exact h)
  exact List.any_eq_true.2 ⟨_, mem_of_get_ne hne, by
    rw [Bool.and_eq_true, decide_eq_true_eq]
    exact ⟨h, hk⟩⟩

/-- The slot of link k of field f starts in core cycle `cycle`, and leaves `rest` waiting. -/
def slotStarted (s : State) (f k : Nat) (rest : List Nat) (cycle : Nat) : State :=
  linkEvent (meshStatus (((s.setFmap f { s.fmap f with calWait := rest, lastSlot := some cycle }).setLink k
    { s.link k with active := true }).bump48 (pField f) (pField f + 0x1A0) 1) f) (LinkId.ofKey k) 2

/-- The oldest request of a field is granted when no slot runs, the last one started 4,096 cycles ago, and the link waits for no replay. -/
theorem calStart_grants {s : State} {f k cycle : Nat} {rest : List Nat} (hq : (s.fmap f).calWait = k :: rest) (hidle : calRunning s f = false)
    (hlast : ∀ c, (s.fmap f).lastSlot = some c → c + 4096 ≤ cycle) (hfwd : (s.link k).fwd.nak = false) (hbwd : (s.link k).bwd.nak = false)
    (hup : (s.link k).down = false) : calStart s f cycle = slotStarted s f k rest cycle := by
  have hspaced : ∀ o, (s.fmap f).lastSlot = o → (match o with | some t => decide (cycle < t + 4096) | none => false) = false := fun o ho => by
    cases o with
    | none => rfl
    | some c => exact decide_eq_false (by have := hlast c ho; omega)
  unfold calStart
  simp only [hq]
  refine (if_neg ?_).trans (if_neg (by rw [hup]; decide))
  rw [hidle, hfwd, hbwd, Bool.false_or, Bool.or_false, Bool.or_false]
  exact fun h => Bool.false_ne_true ((hspaced _ rfl).symm.trans h)

/-- A step that writes registers after a map and a link were stored. -/
theorem setFmap_setLink_frame {s t : State} {f k : Nat} {m : FieldMap} {x : Link} (h : onlyRegs ((s.setFmap f m).setLink k x) t) :
    t.fmap f = m ∧ t = { s with links := t.links, maps := t.maps, regs := t.regs } := by
  constructor
  · rw [State.fmap, h.maps]
    exact State.fmap_setFmap_same _ _ _
  · rw [h]
    rfl

theorem slotStarted_does (s : State) {f k : Nat} (hk : (LinkId.ofKey k).field = f) (rest : List Nat) (cycle : Nat) :
    let t := slotStarted s f k rest cycle
    t.link k = { s.link k with active := true } ∧ otherLinks s t k ∧ t.bget (pField f + 0x184) 16 = true ∧
      t.fmap f = { s.fmap f with calWait := rest, lastSlot := some cycle } ∧ t.reg (pField f + 0x1A0) = s.reg (pField f + 0x1A0) + 1#32 ∧
      t = { s with links := t.links, maps := t.maps, regs := t.regs } := by
  intro t
  set u := (s.setFmap f { s.fmap f with calWait := rest, lastSlot := some cycle }).setLink k { s.link k with active := true } with hu
  set w := u.bump48 (pField f) (pField f + 0x1A0) 1 with hw
  have ht : t = linkEvent (meshStatus w f) (LinkId.ofKey k) 2 := rfl
  have hregs : onlyRegs u t := ((State.onlyRegs_bump48 _ _ _ _).trans (onlyRegs_meshStatus _ _)).trans (onlyRegs_linkEvent _ _ _)
  obtain ⟨hlink, hothers⟩ : t.link k = { s.link k with active := true } ∧ otherLinks s t k := link_stored hregs.links
  have hreg : ∀ o, o ≠ pField f + 0x188 → t.reg o = (meshStatus w f).reg o := fun o ho => by
    rw [ht, reg_linkEvent_other _ _ _ (by rw [hk]; exact ho)]
  refine ⟨hlink, hothers, ?_, ?_, ?_, ?_⟩
  · have hrunning : calRunning w f = true :=
      calRunning_of_active hk (by rw [link_congr (State.bump48_links _ _ _ _), State.link_setLink_same])
    rw [State.bget, hreg _ (by omega)]
    exact (meshStatus_shows w f).2.trans hrunning
  · exact (setFmap_setLink_frame hregs).1
  · rw [hreg _ (by omega), reg_meshStatus_other _ _ (by omega), hw, State.reg_bump48_lo _ _ _ _ (by omega) (by omega), hu,
      State.reg_setLink, State.reg_setFmap]
  · exact (setFmap_setLink_frame hregs).2

/-- The slot of link k of field f is over, and the link is good. -/
theorem meshStatus_idle (s : State) (f k : Nat) (x : Link) :
    let t := meshStatus (s.setLink k x) f
    t.link k = x ∧ otherLinks s t k ∧ t.bget (pField f + 0x184) 16 = calRunning t f ∧ sameRegs (fun o => o = pField f + 0x184) s t ∧
      t = { s with links := t.links, regs := t.regs } := by
  intro t
  have hregs : onlyRegs (s.setLink k x) t := onlyRegs_meshStatus _ _
  obtain ⟨hlink, hothers⟩ := link_stored hregs.links
  exact ⟨hlink, hothers, (meshStatus_shows _ _).2.trans (calRunning_congr hregs.links f).symm,
    fun o ho => (reg_meshStatus_other _ _ ho).trans (State.reg_setLink _ _ _ _), setLink_frame hregs⟩

/-- No slot runs once the only link has left its own. -/
theorem calRunning_last {s : State} {k : Nat} {x : Link} (h : s.links = [(k, x)]) {y : Link} (hy : y.active = false) (f : Nat) :
    calRunning (s.setLink k y) f = false := by
  have hlinks : (s.setLink k y).links = if y = {} then [] else [(k, y)] := by
    rw [State.setLink_links, h]
    simp [SMap.set, SMap.erase, SMap.ins]
  unfold calRunning
  rw [hlinks]
  split
  · rfl
  · simp [hy]

section
variable {s : State} {f k : Nat} {x : Link}
  (hfind : s.links.find? (fun kl => kl.2.active && decide ((LinkId.ofKey kl.1).field = f)) = some (k, x))
  (past : List Nat) (part : Option (Nat × Nat))
include hfind

theorem calEnd_good : calEnd s f true past part = meshStatus (s.setLink k { x with active := false }) f := by
  unfold calEnd
  rw [hfind]
  exact if_pos rfl

theorem calEnd_bad : calEnd s f false past part = linkDown s (LinkId.ofKey k) past part := by
  unfold calEnd
  rw [hfind]
  exact if_neg Bool.false_ne_true

end

/-! ### Grants of a router output (R214) -/

theorem nth_tab_lt {α : Type} (d : α) {n j : Nat} (f : Nat → α) (h : j < n) : nth d (tab n f) j = f j := by
  simp [nth, tab, h]

/-- An element of a list stands behind those before its first place. -/
theorem exists_eq_takeWhile_append {v : Nat} {l : List Nat} (h : v ∈ l) : ∃ rest, l = l.takeWhile (· ≠ v) ++ v :: rest := by
  induction l with
  | nil => cases h
  | cons a l ih =>
    by_cases ha : a = v
    · exact ⟨l, by simp [ha]⟩
    · obtain ⟨rest, hrest⟩ := ih ((List.mem_cons.1 h).resolve_left (Ne.symm ha))
      exact ⟨rest, by rw [List.takeWhile_cons_of_pos (by simpa using ha), List.cons_append, ← hrest]⟩

/-- The first element of a list that satisfies `p`. -/
theorem find?_of_ahead {v : Nat} {l : List Nat} (h : v ∈ l) {p : Nat → Bool} (hv : p v = true)
    (hahead : ∀ u ∈ l.takeWhile (· ≠ v), p u = false) : l.find? p = some v := by
  obtain ⟨rest, hrest⟩ := exists_eq_takeWhile_append h
  exact List.find?_eq_some_iff_append.2 ⟨hv, _, rest, hrest, fun u hu => by simp [hahead u hu]⟩

/-- The channel that an output grants: of those ready the first that has aged, else the first. -/
def vcPick (waits : List Nat) (cand : Nat → Option (Nat × Bool)) : Option Nat :=
  let order := [3, 2, 0, 1].filter (fun v => (cand v).isSome)
  (order.find? (fun v => decide (28 ≤ nth 0 waits v))).or order.head?

/-- A channel is granted that has aged, with none such of higher priority, or, while none has aged, the ready one of highest priority. -/
theorem vcPick_eq {waits : List Nat} {cand : Nat → Option (Nat × Bool)} {v : Nat} {i : Nat × Bool}
    (hv : v ∈ [3, 2, 0, 1]) (hi : cand v = some i)
    (h : (28 ≤ nth 0 waits v ∧ ∀ u ∈ [3, 2, 0, 1].takeWhile (· ≠ v), cand u = none ∨ nth 0 waits u < 28) ∨
      ((∀ u ∈ [3, 2, 0, 1], cand u = none ∨ nth 0 waits u < 28) ∧ ∀ u ∈ [3, 2, 0, 1].takeWhile (· ≠ v), cand u = none)) :
    vcPick waits cand = some v := by
  unfold vcPick
  dsimp only
  rw [List.find?_filter, List.head?_filter]
  have hready : (cand v).isSome = true := by rw [hi]; rfl
  have hyoung : ∀ u, cand u = none ∨ nth 0 waits u < 28 → ¬ ((cand u).isSome = true ∧ decide (28 ≤ nth 0 waits u) = true) := by
    rintro u hu ⟨hsome, hold⟩
    obtain hu | hu := hu
    · rw [hu] at hsome
      exact Bool.false_ne_true hsome
    · exact absurd (of_decide_eq_true hold) (by omega)
  obtain ⟨hold, hahead⟩ | ⟨hnone, hahead⟩ := h
  · rw [find?_of_ahead hv (decide_eq_true ⟨hready, decide_eq_true hold⟩) fun u hu => decide_eq_false (hyoung u (hahead u hu))]
    rfl
  · rw [List.find?_eq_none.2 fun u hu => by rw [decide_eq_false (hyoung u (hnone u hu))]; exact Bool.false_ne_true, Option.none_or]
    exact find?_of_ahead hv hready fun u hu => by rw [hahead u hu]; rfl

/-- An output that has granted input `i` on channel v. -/
def outputGranted (o : RouterOut) (cand : Nat → Option (Nat × Bool)) (v : Nat) (i : Nat × Bool) : RouterOut where
  waits := tab 4 (fun u => if (cand u).isNone || some v = some u then 0 else nth 0 o.waits u + 1)
  held := tab 4 (fun u => if u = v then (if i.2 then none else some i.1) else nth none o.held u)
  last := tab 4 (fun u => if u = v then i.1 else nth 0 o.last u)
  granted := some v

theorem outputGranted_does (o : RouterOut) (cand : Nat → Option (Nat × Bool)) {v : Nat} (hv : v < 4) (i : Nat × Bool) :
    let o' := outputGranted o cand v i
    o'.granted = some v ∧ nth 0 o'.last v = i.1 ∧ nth none o'.held v = (if i.2 then none else some i.1) ∧ nth 0 o'.waits v = 0 ∧
      ∀ u, u < 4 → u ≠ v → nth 0 o'.waits u = if cand u = none then 0 else nth 0 o.waits u + 1 := by
  refine ⟨rfl, ?_, ?_, ?_, fun u hu hne => ?_⟩
  · simp [outputGranted, nth_tab_lt _ _ hv]
  · simp [outputGranted, nth_tab_lt _ _ hv]
  · simp [outputGranted, nth_tab_lt _ _ hv]
  · simp [outputGranted, nth_tab_lt _ _ hu, Ne.symm hne]

/-- What a grant leaves: the output, and where a ready line lacked credit, one count more. -/
theorem ageGrant_grants (s : State) (sid port : Nat) (ready : List (List (Nat × Bool))) (starved : Bool) {v : Nat} {i : Nat × Bool}
    (hi : vcInput (SMap.get (fun _ => {}) s.outputs (sid * 8 + port)) v (nth [] ready v) = some i)
    (hpick : vcPick (SMap.get (fun _ => ({} : RouterOut)) s.outputs (sid * 8 + port)).waits
      (fun u => vcInput (SMap.get (fun _ => {}) s.outputs (sid * 8 + port)) u (nth [] ready u)) = some v) :
    let o := SMap.get (fun _ => ({} : RouterOut)) s.outputs (sid * 8 + port)
    let t := ageGrant s sid port ready starved
    SMap.get (fun _ => ({} : RouterOut)) t.outputs (sid * 8 + port) = outputGranted o (fun u => vcInput o u (nth [] ready u)) v i ∧
      (starved = true → s.validSid sid = true → port ≤ 3 →
        (t.spin sid).wreg 6 (0x508 + 0x10 * port) = (s.spin sid).wreg 6 (0x508 + 0x10 * port) + 1#32) ∧
      (starved = false → t = { s with outputs := t.outputs }) := by
  unfold ageGrant
  extract_lets _ o cand order pick waits o' u f t
  have hp : pick = some v := by
    refine Eq.trans ?_ hpick
    change pick = (order.find? (fun v => decide (28 ≤ nth 0 o.waits v))).or order.head?
    unfold pick
    cases order.find? (fun v => decide (28 ≤ nth 0 o.waits v)) with
    | none => rfl
    | some w => rfl
  have ho : o' = outputGranted o cand v i := by
    unfold o' waits
    rw [hp]
    dsimp only
    rw [show cand v = some i from hi]
    rfl
  have hkept : t.outputs = u.outputs := by
    unfold t
    split
    · rfl
    · split
      · obtain ⟨-, -, -, hframe⟩ := onlyWindow_wbump48 u sid 6 (0x508 + 0x10 * port) 1
        rw [hframe]
      · split
        · split
          · exact State.bump48_outputs _ _ _ _
          · rfl
        · rfl
  refine ⟨?_, fun hs hv hport => ?_, fun hs => ?_⟩
  · rw [hkept, ← ho]
    exact SMap.get_set_same _ _ _ _
  · have ht : t = wbump48 u sid 6 (0x508 + 0x10 * port) 1 :=
      (if_neg (by rw [hs, show u.validSid sid = true from hv]; decide)).trans (if_pos hport)
    rw [ht, spin_wbump48, bump48_lo]
    rfl
  · have ht : t = u := if_pos (by rw [hs]; rfl)
    rw [ht]

/-! ### Replays (R227, R228) -/

theorem onlyRegs.linkFrame {s u t : State} (h : onlyRegs s u) (k : t = { u with links := t.links, maps := t.maps, regs := t.regs }) :
    t = { s with links := t.links, maps := t.maps, regs := t.regs } := by
  rw [k, h]

theorem linkFrame_trans {s u t : State} (h : u = { s with links := u.links, regs := u.regs }) (k : t = { u with links := t.links, regs := t.regs }) :
    t = { s with links := t.links, regs := t.regs } := by
  rw [k, h]

theorem replayed.setLink {s u : State} {f : Nat} (h : replayed s u f) (k : Nat) (y : Link) : replayed s (u.setLink k y) f := by
  unfold replayed State.bget at h ⊢
  rwa [State.reg_setLink, State.reg_setLink]

/-- A link stored after a step that writes registers. -/
theorem setLink_does {s u : State} (h : onlyRegs s u) (k : Nat) (y : Link) : (u.setLink k y).link k = y ∧ otherLinks s (u.setLink k y) k ∧
    u.setLink k y = { s with links := (u.setLink k y).links, regs := (u.setLink k y).regs } := by
  refine ⟨State.link_setLink_same _ _ _, fun j hj => (State.link_setLink_other _ _ hj).trans (link_congr h.links j), ?_⟩
  rw [h]
  rfl

/-- A replay whose codeword is corrected counts as a replay and as a corrected codeword. -/
theorem replayCorr_does {s u : State} {l : LinkId} (hnoted : onlyRegs s u) (hreplayed : replayed s u l.field)
    (hcorr : u.reg (pField l.field + 0x190) = s.reg (pField l.field + 0x190)) (d : LinkDir) :
    let t := linkCorr u l true d
    t.link l.key = (s.link l.key).setDir true (d.corrected u l.field) ∧ otherLinks s t l.key ∧
      replayed s t l.field ∧ t.bget (pField l.field + 0x18) 30 = true ∧ t.reg (pField l.field + 0x190) = s.reg (pField l.field + 0x190) + 1#32 ∧
      t = { s with links := t.links, maps := t.maps, regs := t.regs } := by
  obtain ⟨hlink, hothers, hevent, hcount, -, hkept, hframe⟩ := linkCorr_does u l true d
  intro t
  refine ⟨hlink.trans ?_, fun j hj => (hothers j hj).trans (link_congr hnoted.links j), hreplayed.after (fun _ h => hkept.fieldEvent h)
    (hkept.regs _ (spared_field _ (by decide) (by decide))), hevent, ?_, ?_⟩
  · rw [link_congr hnoted.links]
  · rw [← hcorr]
    exact hcount
  · exact hnoted.linkFrame hframe

/-- The fourth failed replay takes the link down. -/
theorem replayDown_does {s u : State} {l : LinkId} (hnoted : onlyRegs s u) (hreplayed : replayed s u l.field)
    (hsafe : Sheltered (spared l.field [0x188, 0x198, 0x19C]) s u) {y : Link} (hy : y.down = false) (hrun : s.running = false) (past : List Nat)
    (part : Option (Nat × Nat)) :
    let t := linkDown (u.setLink l.key y) l past part
    (t.link l.key).down = true ∧ otherLinks s t l.key ∧ replayed s t l.field ∧ t.bget (pField l.field + 0x18) 4 = true ∧
      t.fget (pField l.field + 0x184) 7 0 = min 255 (linksDown t l.field) ∧ (s.mesh = [] → t = { s with links := t.links, regs := t.regs }) ∧
      ∀ m, s.mesh = [m] → m.waiting = false → part = none → crosses s m (routeEnds s m).1 (routeEnds s m).2 (linkCut s l) = true →
        t.mesh = (if 0 ∈ past then [m] else []) ∧
        (0 ∉ past → s.fget (pField l.field + 0x2C) 30 0 + m.payload.length + 1 < 2 ^ 31 →
          t.fget (pField l.field + 0x2C) 30 0 = s.fget (pField l.field + 0x2C) 30 0 + m.payload.length + 1 ∧
          t.bget (pField l.field + 0x18) 29 = true) := by
  obtain ⟨hlink, hothers, hframe⟩ := setLink_does hnoted l.key y
  have hset := hreplayed.setLink l.key y
  have hreg : ∀ o, spared l.field [0x188, 0x198, 0x19C] o → (u.setLink l.key y).reg o = s.reg o := fun o ho =>
    (State.reg_setLink _ _ _ _).trans (hsafe.regs o ho)
  generalize u.setLink l.key y = v at *
  have hup : (v.link l.key).down = false := by rw [hlink, hy]
  have hidle : v.running = false := (running_congr (hreg _ (spared_low _ _ (by decide)))).trans hrun
  have hmesh : v.mesh = s.mesh := by rw [hframe]
  have hmaps : v.maps = s.maps := by rw [hframe]
  have hshape : v.reg (pGlobal + 0x50) = s.reg (pGlobal + 0x50) := hreg _ (spared_low _ _ (by decide))
  have herr : v.fget (pField l.field + 0x2C) 30 0 = s.fget (pField l.field + 0x2C) 30 0 := by
    rw [State.fget, hreg _ (spared_field _ (by decide) (by decide))]
    rfl
  obtain ⟨hdown, hrest, hevent, hcount, hempty, hevents, hregs⟩ := linkDown_does hup hidle past part
  refine ⟨hdown, fun j hj => (hrest j hj).trans (hothers j hj), hset.after hevents (hregs _ (spared_field _ (by decide) (by decide))), hevent,
    hcount, fun h => linkFrame_trans hframe (hempty (hmesh.trans h)), fun m hm hwaiting hpart hcross => ?_⟩
  subst hpart
  rw [← crosses_congr hshape hmaps, ← routeEnds_congr hshape hmaps, ← linkCut_congr hshape hmaps] at hcross
  rw [← herr]
  exact linkDown_message hup hidle (hmesh.trans hm) hwaiting hcross past

/-! ### The statement -/

/-- Settles O37: `linkCorr_does` says what a corrected codeword counts and requests, `replayCorr_does` and `replayDown_does` what a replay
brings back or takes down, `slotStarted_does` and `meshStatus_idle` the slots, and `ageGrant_grants` with `vcPick_eq` what an output grants. -/
theorem linksReplayCalibrateAndAge : Obligations.LinksReplayCalibrateAndAge := by
  intro s f loc detail id x pg others replayed downs
  have hid : LinkId.ofKey id.key = id := ofKey_key loc.isLt detail.isLt
  refine ⟨fun hactive c => congrArg Host.Outcome.next (linkReceive_active hactive false c), fun hup hidle hgood => ⟨?_, ?_⟩,
    fun hup hnak => ⟨fun past part => ?_, fun past part hfew => ?_, fun past part => ?_, fun past part hfour hrun => ?_⟩,
    ⟨_, rfl, setLink_does .rfl _ _⟩, fun rest cycle hq hidle hlast hfwd hbwd hup => ?_, fun past part hfind => ⟨?_, fun hup hrun => ?_⟩,
    fun sid port ready starved v i hv hi hgrant => ?_⟩
  · refine ⟨_, congrArg Host.Outcome.next (linkReceive_corr hup hidle hgood), ?_⟩
    obtain ⟨hlink, hothers, hevent, hcount, hwait, -, hframe⟩ := linkCorr_does s id false x.fwd
    exact ⟨hlink, hothers, hevent, hcount, hwait, hframe⟩
  · exact ⟨_, congrArg Host.Outcome.next (linkReceive_bad hup hidle hgood), setLink_does .rfl _ _⟩
  · refine ⟨_, congrArg Host.Outcome.next (linkReplay_clean hup hnak past part), ?_⟩
    obtain ⟨hlink, hothers, hframe⟩ := setLink_does (onlyRegs_replayNoted s id) id.key { x with bwd := { x.bwd with nak := false, fails := 0 } }
    refine ⟨hlink, hothers, (replayNoted_replayed s id).setLink _ _, fun hfirst => ?_, hframe⟩
    rw [State.bget, State.fget, State.reg_setLink]
    exact replayNoted_first f.isLt loc.isLt hfirst
  · refine ⟨_, congrArg Host.Outcome.next ((linkReplay_bad hup hnak past part).trans (if_neg (show ¬ 4 ≤ x.bwd.fails + 1 by omega))), ?_⟩
    obtain ⟨hlink, hothers, hframe⟩ := setLink_does (onlyRegs_replayNoted s id) id.key { x with bwd := { x.bwd with fails := x.bwd.fails + 1 } }
    exact ⟨hlink, hothers, (replayNoted_replayed s id).setLink _ _, hframe⟩
  · refine ⟨_, congrArg Host.Outcome.next (linkReplay_corr hup hnak past part), ?_⟩
    obtain ⟨hlink, hothers, hreplayed, hevent, hcount, hframe⟩ := replayCorr_does (onlyRegs_replayNoted s id) (replayNoted_replayed s id)
      ((replayNoted_spared s id).regs _ (spared_field _ (by decide) (by decide))) { x.bwd with nak := false, fails := 0 }
    rw [hlink]
    exact ⟨rfl, rfl, rfl, rfl, hup, hothers, hreplayed, hevent, hcount, hframe⟩
  · refine ⟨_, congrArg Host.Outcome.next ((linkReplay_bad hup hnak past part).trans (if_pos (show 4 ≤ x.bwd.fails + 1 by omega))), ?_⟩
    exact replayDown_does (onlyRegs_replayNoted s id) (replayNoted_replayed s id) (replayNoted_spared s id)
      (y := { x with bwd := { x.bwd with fails := x.bwd.fails + 1 } }) hup hrun past part
  · refine ⟨_, congrArg Host.Outcome.next (calStart_grants hq hidle hlast hfwd hbwd hup), ?_⟩
    exact slotStarted_does s (by rw [hid]) rest cycle
  · refine ⟨_, congrArg Host.Outcome.next (calEnd_good hfind past part), ?_⟩
    obtain ⟨hlink, hothers, hslot, hregs, hframe⟩ := meshStatus_idle s f.val id.key { x with active := false }
    refine ⟨hlink, hothers, hslot, fun h => ?_, hregs, hframe⟩
    exact (meshStatus_shows _ _).2.trans (calRunning_last h rfl f.val)
  · refine ⟨_, congrArg Host.Outcome.next ((calEnd_bad hfind past part).trans (by rw [hid])), ?_⟩
    obtain ⟨hdown, hothers, hevent, hcount, hempty, -⟩ := linkDown_does hup hrun past part
    exact ⟨hdown, hothers, hevent, hcount, hempty⟩
  · have hlt : v < 4 := by
      simp only [List.mem_cons, List.not_mem_nil, or_false] at hv
      omega
    obtain ⟨hout, hcount, hframe⟩ := ageGrant_grants s sid.toNat port.val ready starved hi (vcPick_eq hv hi hgrant)
    refine ⟨_, rfl, ?_⟩
    obtain ⟨hgranted, hlast, hheld, hzero, hwaits⟩ := outputGranted_does _ _ hlt i
    rw [← hout] at hgranted hlast hheld hzero hwaits
    exact ⟨hgranted, hlast, hheld, hzero, hwaits, hcount, hframe⟩

end Sys2Proof.Machine
end
